-- ==== Sys2Proof/Word.lean ====
section
/-!
DEFINITION. The word types of the Horla 9 (spec/00_scope.md R5, R6), bit fields of a word, and the keyed lists in
which the model holds every sparse piece of state (memory, harnesses, banks): keys strictly rising, one entry a key.
-/

namespace Sys2Proof

/-- A 64-bit word: general registers, special registers, tagged pointers. -/
abbrev Word := BitVec 64

/-- One byte. -/
abbrev Byte := BitVec 8

/-- Bits `lo + n - 1` down to `lo` of the number `w`. -/
def bits (w lo n : Nat) : BitVec n := BitVec.ofNat n (w / 2 ^ lo)

/-- Bits `lo + n - 1` down to `lo` of the number `w`, as a number. -/
def field (w lo n : Nat) : Nat := w / 2 ^ lo % 2 ^ n

/-- A keyed list: keys strictly rising. -/
abbrev Table (α : Type) := List (Nat × α)

namespace Table

variable {α : Type}

/-- The entry of key `k`. -/
def find : Table α → Nat → Option α
  | [], _ => none
  | (j, x) :: t, k => if j = k then some x else if k < j then none else find t k

/-- The entry of key `k`, or `d` where none is listed. -/
def getD (t : Table α) (k : Nat) (d : α) : α := (t.find k).getD d

/-- The table with `x` at key `k`. -/
def set : Table α → Nat → α → Table α
  | [], k, x => [(k, x)]
  | (j, y) :: t, k, x =>
    if j = k then (k, x) :: t else if k < j then (k, x) :: (j, y) :: t else (j, y) :: set t k x

/-- The table without key `k`. -/
def erase : Table α → Nat → Table α
  | [], _ => []
  | (j, y) :: t, k => if j = k then t else if k < j then (j, y) :: t else (j, y) :: erase t k

/-- Keys strictly rising, all above `lo`. -/
def sortedFrom : Nat → Table α → Bool
  | _, [] => true
  | lo, (j, _) :: t => decide (lo ≤ j) && sortedFrom (j + 1) t

/-- The canonical form: keys strictly rising. -/
def sorted (t : Table α) : Bool := sortedFrom 0 t

end Table

/-- The bytes of a number, least significant first (all multi-byte data is little-endian). -/
def leBytes : Nat → Nat → List Byte
  | 0, _ => []
  | n + 1, v => BitVec.ofNat 8 v :: leBytes n (v / 256)

/-- The number that little-endian bytes stand for. -/
def leNat : List Byte → Nat
  | [] => 0
  | b :: t => b.toNat + 256 * leNat t

/-- Sign-extend the low `n` bits of `v` to an integer. -/
def sextNat (n v : Nat) : Int :=
  let m := v % 2 ^ n
  if n = 0 then 0 else if m < 2 ^ (n - 1) then (m : Int) else (m : Int) - (2 ^ n : Nat)

/-- `b` as a number. -/
def b2n (b : Bool) : Nat := if b then 1 else 0

/-- Ceiling division. -/
def cdiv (a b : Nat) : Nat := (a + b - 1) / b

end Sys2Proof
end

