-- ==== Sys2Proof/Config.lean ====
section
/-!
DEFINITION. What the spec leaves open or takes from elsewhere: uninterpreted constants of the machine. None has a
body, so no statement can rest on a value. Log entries 6, 7, 11 to 14 name them.
-/

namespace Sys2Proof.Config

/-- A byte that the spec leaves unspecified: register contents after a node start or a resume (01 R17, R41). The
first argument is the model's counter of such events, the second the byte's place. Log entry 7, DESIGN CHOICE. -/
opaque freeByte : Nat → Nat → BitVec 8

/-- A word that the spec leaves unspecified; the argument is the model's counter. Log entry 6, DESIGN CHOICE. -/
opaque freeWord : Nat → BitVec 64

/-- A choice that the spec leaves open, such as a stale cached translation (16 R392) or which byte of an
overlapping copy is read (09 R287). Log entries 11 and 12. -/
opaque freeBit : Nat → Bool

/-- Which of the eight HBM memory controllers serves a granule, by physical address / 64: the spec gives no interleave (17 R410).
Log entry 13, DESIGN CHOICE. -/
opaque hbmController : Nat → Nat

/-- SHAKE256 to 64 bytes of a 64-byte key, which the spec cites and does not give (18 R432). Log entry 14, DESIGN CHOICE. -/
opaque shake256 : List (BitVec 8) → BitVec 512

/-- Whether a signature verifies: key, message, signature. SLH-DSA-SHAKE-256s of FIPS 205, which the spec cites and
does not give (18 R432, R441). Log entry 14, DESIGN CHOICE. -/
opaque slhDsaVerify : List (BitVec 8) → List (BitVec 8) → List (BitVec 8) → Bool

end Sys2Proof.Config
end

