-- ==== Sys2Proof/Machine/Num.lean ====
section
/-!
DEFINITION. Number formats, exact values and the one rounding of every result (03 R70-R86). A value is exact: a sign, a
natural mantissa and a binary exponent, with a sticky mark for a non-zero remainder below the mantissa's last bit.
-/

namespace Sys2Proof.Num

/-- How a format encodes NaN (R70). -/
inductive NanKind where
  | ieee | e4m3 | none
deriving DecidableEq, Repr

/-- A floating-point format: exponent bits, fraction bits, bias, NaN kind (only the IEEE kind has infinities), and its
largest finite value `maxM * 2 ^ maxE` (R70). -/
structure Fmt where
  eb : Nat
  mb : Nat
  bias : Int
  nan : NanKind
  maxM : Nat
  maxE : Int
deriving DecidableEq, Repr

def fp64 : Fmt := ⟨11, 52, 1023, .ieee, 2 ^ 53 - 1, 971⟩
def fp32 : Fmt := ⟨8, 23, 127, .ieee, 2 ^ 24 - 1, 104⟩
def fp16 : Fmt := ⟨5, 10, 15, .ieee, 2 ^ 11 - 1, 5⟩
def bf16 : Fmt := ⟨8, 7, 127, .ieee, 2 ^ 8 - 1, 120⟩
def e5m2 : Fmt := ⟨5, 2, 15, .ieee, 7, 13⟩
def e4m3 : Fmt := ⟨4, 3, 7, .e4m3, 14, 5⟩
def e2m1 : Fmt := ⟨2, 1, 1, .none, 3, 1⟩

/-- The width of a format in bits. -/
def Fmt.width (f : Fmt) : Nat := 1 + f.eb + f.mb

/-- An exact value: NaN, an infinity, or (-1)^neg * (m + theta) * 2^e with theta = 0, or 0 < theta < 1 where `sticky`. -/
inductive Val where
  | nan
  | inf (neg : Bool)
  | fin (neg : Bool) (m : Nat) (e : Int) (sticky : Bool)
deriving DecidableEq, Repr

/-- The exact zero of a sign. -/
def Val.zero (neg : Bool) : Val := .fin neg 0 0 false

def Val.isNan : Val → Bool
  | .nan => true
  | _ => false

def Val.isInf : Val → Bool
  | .inf _ => true
  | _ => false

/-- An exact zero. -/
def Val.isZero : Val → Bool
  | .fin _ m _ s => m == 0 && !s
  | _ => false

def Val.neg : Val → Bool
  | .nan => false
  | .inf n => n
  | .fin n _ _ _ => n

/-- R82: abs first, then negate; a NaN stays NaN. -/
def Val.modify (v : Val) (neg abs : Bool) : Val :=
  let flip (n : Bool) : Bool := xor (n && !abs) neg
  match v with
  | .nan => .nan
  | .inf n => .inf (flip n)
  | .fin n m e s => .fin (flip n) m e s

/-- The value that a code of a format stands for (R70). -/
def ofCode (f : Fmt) (c : Nat) : Val :=
  let s := flagOf c (f.eb + f.mb)
  let ex := field c f.mb f.eb
  let fr := field c 0 f.mb
  let special : Option Val :=
    match f.nan with
    | .ieee => if ex = 2 ^ f.eb - 1 then some (if fr = 0 then .inf s else .nan) else none
    | .e4m3 => if ex = 2 ^ f.eb - 1 ∧ fr = 2 ^ f.mb - 1 then some .nan else none
    | .none => none
  match special with
  | some v => v
  | none =>
    if ex = 0 then .fin s fr (1 - f.bias - f.mb) false
    else .fin s (2 ^ f.mb + fr) (ex - f.bias - f.mb) false
where
  flagOf (c k : Nat) : Bool := field c k 1 == 1

/-- The canonical NaN of a format (R70); +0 in a format without one (R80). -/
def canonNan (f : Fmt) : Nat :=
  match f.nan with
  | .ieee => (2 ^ f.eb - 1) * 2 ^ f.mb + 2 ^ (f.mb - 1)
  | .e4m3 => 2 ^ (f.eb + f.mb) - 1
  | .none => 0

/-- Number of significant bits. -/
def bitLen (m : Nat) : Nat := if m = 0 then 0 else Nat.log2 m + 1

/-- `m * 2 ^ e` as a multiple of `2 ^ q`, for `q ≤ e`. -/
def scaleUp (m : Nat) (e q : Int) : Nat := m * 2 ^ (e - q).toNat

/-- Whether `a * 2^ea < b * 2^eb`. -/
def ltScaled (a : Nat) (ea : Int) (b : Nat) (eb : Int) : Bool :=
  let q := min ea eb
  decide (scaleUp a ea q < scaleUp b eb q)

/-- The code of a finite value that the format represents exactly, an infinity or NaN. -/
def toCode (f : Fmt) (v : Val) : Nat :=
  match v with
  | .nan => canonNan f
  | .inf n => b2n n * 2 ^ (f.eb + f.mb) + (2 ^ f.eb - 1) * 2 ^ f.mb
  | .fin n m e _ =>
    let s := b2n n * 2 ^ (f.eb + f.mb)
    if m = 0 then s
    else
      let top := (bitLen m : Int) - 1 + e
      let q := max (top - f.mb) (1 - f.bias - f.mb)
      let mm := if q ≤ e then scaleUp m e q else m / 2 ^ (q - e).toNat
      if mm < 2 ^ f.mb then s + mm
      else s + (q + f.bias + f.mb).toNat * 2 ^ f.mb + (mm - 2 ^ f.mb)

/-- The rounding modes (R76). -/
inductive Mode where
  | rne | rtz | rup | rdn | sr
deriving DecidableEq, Repr

/-- R76: codes 5-7 are illegal. -/
def Mode.ofCode (c : Nat) : Option Mode :=
  match c with
  | 0 => some .rne
  | 1 => some .rtz
  | 2 => some .rup
  | 3 => some .rdn
  | 4 => some .sr
  | _ => none

/-- The sticky exception flags in the layout of VFLAG (R81): IV, DZ, OF, UF, NX, IS from bit 0. -/
abbrev Flags := BitVec 6

def fIV : Flags := 1
def fDZ : Flags := 2
def fOF : Flags := 4
def fUF : Flags := 8
def fNX : Flags := 16
def fIS : Flags := 32

/-- The multiple of `2 ^ q` to which the magnitude (m + theta) * 2^e rounds, and whether that is inexact. `r32` are the
random bits of SR (R78). -/
def roundAt (mode : Mode) (r32 : Nat) (neg : Bool) (m : Nat) (e : Int) (sticky : Bool) (q : Int) : Nat × Bool :=
  if q ≤ e then (scaleUp m e q, sticky)
  else
    let d := 2 ^ (q - e).toNat
    let lo := m / d
    let r := m % d
    let inexact := r != 0 || sticky
    let up : Bool :=
      match mode with
      | .rne => decide (2 * r > d) || (2 * r == d && (sticky || lo % 2 == 1))
      | .rtz => false
      | .rup => !neg && inexact
      | .rdn => neg && inexact
      | .sr => decide (r32 < r * 2 ^ 32 / d)
    (if up then lo + 1 else lo, inexact)

/-- Rounding to a format, with the flags of R77. -/
def round (f : Fmt) (mode : Mode) (r32 : Nat) (v : Val) : Val × Flags :=
  match v with
  | .nan => (.nan, 0)
  | .inf n =>
    match f.nan with
    | .ieee => (.inf n, 0)
    | .e4m3 => (.nan, fIV)
    | .none => (.fin n f.maxM f.maxE false, fOF)
  | .fin n m e s =>
    if m = 0 ∧ s = false then (.zero n, 0)
    else
      let emin := 1 - f.bias
      let top := (bitLen m : Int) - 1 + e
      let tiny := decide (m = 0) || decide (top < emin)
      let q := if m = 0 then emin - f.mb else max (top - f.mb) (emin - f.mb)
      let (k, inexact) := roundAt mode r32 n m e s q
      if ltScaled f.maxM f.maxE k q then
        let toMax := Val.fin n f.maxM f.maxE false
        let r := match f.nan with
          | .ieee =>
            (match mode with
             | .rtz => toMax
             | .rup => if n then toMax else .inf n
             | .rdn => if n then .inf n else toMax
             | _ => .inf n)
          | _ => toMax
        (r, fOF ||| fNX)
      else
        (.fin n k q false, (if inexact then fNX else 0) ||| (if tiny && inexact then fUF else 0))

/-- Multiplication by a power of two, exact. -/
def Val.scale (v : Val) (p : Int) : Val :=
  match v with
  | .fin n m e s => .fin n m (e + p) s
  | v => v

/-- An exact value from an integer mantissa; a zero takes the sign `zneg`. -/
def ofInt (m : Int) (e : Int) (zneg : Bool) : Val :=
  if m = 0 then .zero zneg else .fin (decide (m < 0)) m.natAbs e false

/-- A signed mantissa at exponent `q ≤ e`. -/
def signedAt (n : Bool) (m : Nat) (e q : Int) : Int :=
  let k : Int := scaleUp m e q
  if n then -k else k

/-- Exact addition, with R77 for zeros and R86 for infinities. -/
def add (mode : Mode) (a b : Val) : Val × Flags :=
  match a, b with
  | .nan, _ => (.nan, 0)
  | _, .nan => (.nan, 0)
  | .inf x, .inf y => if x = y then (.inf x, 0) else (.nan, fIV)
  | .inf x, _ => (.inf x, 0)
  | _, .inf y => (.inf y, 0)
  | .fin x m e _, .fin y k g _ =>
    let q := min e g
    let s := signedAt x m e q + signedAt y k g q
    let zneg := if m = 0 ∧ k = 0 ∧ x = y then x else decide (mode = .rdn)
    (ofInt s q zneg, 0)

/-- Exact multiplication (R86). -/
def mul (a b : Val) : Val × Flags :=
  match a, b with
  | .nan, _ => (.nan, 0)
  | _, .nan => (.nan, 0)
  | .inf x, .inf y => (.inf (xor x y), 0)
  | .inf x, .fin y k _ _ => if k = 0 then (.nan, fIV) else (.inf (xor x y), 0)
  | .fin x m _ _, .inf y => if m = 0 then (.nan, fIV) else (.inf (xor x y), 0)
  | .fin x m e _, .fin y k g _ => (.fin (xor x y) (m * k) (e + g) false, 0)

/-- Negation. -/
def negate (v : Val) : Val := v.modify true false

/-- a * b + c, exact (R86). -/
def fma (mode : Mode) (a b c : Val) : Val × Flags :=
  if a.isNan || b.isNan then (.nan, 0)
  else
    let (p, f) := mul a b
    if c.isNan then (.nan, 0)
    else if p.isNan then (.nan, f)
    else
      let (s, g) := add mode p c
      (s, f ||| g)

/-- Order of two values that are not NaN; -0 below +0 (R86). -/
def cmpVal (a b : Val) : Ordering :=
  match a, b with
  | .inf x, .inf y => compare (b2n y) (b2n x)
  | .inf x, _ => if x then .lt else .gt
  | _, .inf y => if y then .gt else .lt
  | .fin x m e _, .fin y k g _ =>
    let q := min e g
    match compare (signedAt x m e q) (signedAt y k g q) with
    | .eq => if m = 0 ∧ k = 0 then compare (b2n y) (b2n x) else .eq
    | o => o
  | _, _ => .eq

/-- R86: NaN if either is NaN, else the larger. -/
def maxVal (a b : Val) : Val :=
  if a.isNan || b.isNan then .nan else if cmpVal a b = .lt then b else a

/-- R86: NaN if either is NaN, else the smaller. -/
def minVal (a b : Val) : Val :=
  if a.isNan || b.isNan then .nan else if cmpVal a b = .gt then b else a

/-- Numeric equality of values that are not NaN: the two zeros are equal. -/
def eqVal (a b : Val) : Bool :=
  (a.isZero && b.isZero) || decide (cmpVal a b = .eq)

/-- Numeric order of values that are not NaN: the two zeros are equal. -/
def ltVal (a b : Val) : Bool :=
  !(a.isZero && b.isZero) && decide (cmpVal a b = .lt)

/-- Magnitude. -/
def Val.abs (v : Val) : Val := v.modify false true

/-- The exact quotient num / (den * 2^sh) to `prec` bits, with the sticky mark. -/
def ratio (neg : Bool) (num : Nat) (den : Nat) (e : Int) (prec : Nat) : Val :=
  if num = 0 then .zero neg
  else
    let sh := prec + bitLen den
    let n := num * 2 ^ sh
    .fin neg (n / den) (e - sh) (n % den != 0)

/-- Enough quotient bits for every format and for the 32 bits of SR. -/
def divPrec : Nat := 2400

/-- Exact division (R96). -/
def div (a b : Val) : Val × Flags :=
  match a, b with
  | .nan, _ => (.nan, 0)
  | _, .nan => (.nan, 0)
  | .inf _, .inf _ => (.nan, fIV)
  | .inf x, .fin y _ _ _ => (.inf (xor x y), 0)
  | .fin x _ _ _, .inf y => (.zero (xor x y), 0)
  | .fin x m e _, .fin y k g _ =>
    if k = 0 then (if m = 0 then (.nan, fIV) else (.inf (xor x y), fDZ))
    else (ratio (xor x y) m k (e - g) divPrec, 0)

/-- The integer square root. -/
def isqrt (n : Nat) : Nat := Nat.sqrt n

/-- Exact square root to many bits (R96): ±0 gives ±0, a negative operand NaN with IV. -/
def sqrt (a : Val) : Val × Flags :=
  match a with
  | .nan => (.nan, 0)
  | .inf n => if n then (.nan, fIV) else (.inf false, 0)
  | .fin n m e _ =>
    if m = 0 then (.zero n, 0)
    else if n then (.nan, fIV)
    else
      let e2 := if e % 2 = 0 then e else e - 1
      let m2 := if e % 2 = 0 then m else 2 * m
      let k : Nat := 200
      let r := isqrt (m2 * 2 ^ (2 * k))
      (.fin false r (e2 / 2 - (k : Int)) (r * r != m2 * 2 ^ (2 * k)), 0)

/-- 1 / sqrt a (R96). -/
def rsqrt (a : Val) : Val × Flags :=
  match a with
  | .nan => (.nan, 0)
  | .inf n => if n then (.nan, fIV) else (.zero false, 0)
  | .fin n m e _ =>
    if m = 0 then (.inf n, fDZ)
    else if n then (.nan, fIV)
    else
      -- 1/sqrt(m 2^e) with e even: isqrt(2^(2k) / m) 2^(-k - e/2), k large
      let e2 := if e % 2 = 0 then e else e - 1
      let m2 := if e % 2 = 0 then m else 2 * m
      let k : Nat := 300
      let n2 := 2 ^ (2 * k)
      let r := isqrt (n2 / m2)
      (.fin false r (-(k : Int) - e2 / 2) (r * r * m2 != n2), 0)

/-- The clamp of a floating destination (R83): 1 [0,1], 2 [-1,1], 3 [0,+inf]; a NaN stays. -/
def clampF (c : Nat) (v : Val) : Val :=
  let one (n : Bool) : Val := .fin n 1 0 false
  match c, v with
  | 0, v => v
  | _, .nan => .nan
  | 1, v => if v.neg then .zero false else if ltVal (one false) v then one false else v
  | 2, v => if ltVal (one false) v then one false else if ltVal v (one true) then one true else v
  | _, v => if v.neg then .zero false else v

/-- DEST of a floating type (R83): scale by 2^p, round once, clamp. -/
def destF (f : Fmt) (mode : Mode) (r32 : Nat) (p : Int) (clamp : Nat) (v : Val) : Nat × Flags :=
  let (r, fl) := round f mode r32 (v.scale p)
  (toCode f (clampF clamp r), fl)

/-- An integer type: width and signedness. -/
structure IFmt where
  w : Nat
  signed : Bool
deriving DecidableEq, Repr

/-- The smallest value of an integer type. -/
def IFmt.lo (t : IFmt) : Int := if t.signed then -((2 ^ (t.w - 1) : Nat) : Int) else 0

/-- The largest value of an integer type. -/
def IFmt.hi (t : IFmt) : Int := if t.signed then ((2 ^ (t.w - 1) : Nat) : Int) - 1 else ((2 ^ t.w : Nat) : Int) - 1

/-- The value of a code of an integer type. -/
def IFmt.ofCode (t : IFmt) (c : Nat) : Int := if t.signed then sextNat t.w c else ((c % 2 ^ t.w : Nat) : Int)

/-- The code of an integer, wrapped to the width. -/
def IFmt.wrap (t : IFmt) (v : Int) : Nat := (v % ((2 ^ t.w : Nat) : Int)).toNat

/-- The clamp of an integer destination (R84). -/
def clampI (t : IFmt) (c : Nat) (v : Int) : Int :=
  match c with
  | 0 => v
  | 1 => max 0 (min v 1)
  | 2 => max (-1) (min v 1)
  | _ => max 0 (min v t.hi)

/-- v * 2^p rounded to an integer in a mode, and whether bits were dropped. -/
def scaleInt (mode : Mode) (r32 : Nat) (v : Int) (p : Int) : Int × Bool :=
  let (k, ix) := roundAt mode r32 (decide (v < 0)) v.natAbs p false 0
  (if v < 0 then -(k : Int) else k, ix)

/-- DEST of an integer type (R84): scale with ties to even, clamp, wrap; no flag. -/
def destI (t : IFmt) (p : Int) (clamp : Nat) (v : Int) : Nat :=
  t.wrap (clampI t clamp (scaleInt .rne 0 v p).1)

/-- Saturation to a type's limits (R85). -/
def satI (t : IFmt) (v : Int) : Int := max t.lo (min v t.hi)

/-- A conversion of an exact value to an integer type (R85, R243, R448): round in the mode, clamp, and saturation in place
of the wrap of R84; what the clamp has brought into range saturates nothing. -/
def toIntConv (t : IFmt) (mode : Mode) (r32 : Nat) (p : Int) (clamp : Nat) (v : Val) : Nat × Flags :=
  match v with
  | .nan => (0, fIV)
  | .inf n => (t.wrap (clampI t clamp (if n then t.lo else t.hi)), fIS)
  | .fin n m e s =>
    let (k, ix) := roundAt mode r32 n m (e + p) s 0
    let r : Int := if n then -(k : Int) else k
    let c := clampI t clamp r
    let sat := satI t c
    let fl : Flags := (if sat ≠ c then fIS ||| fNX else 0) ||| (if ix then fNX else 0)
    (t.wrap sat, fl)

/-- An integer as an exact value. -/
def ofIntVal (v : Int) : Val := .fin (decide (v < 0)) v.natAbs 0 false

/-- A conversion to E8M0 (R85), with the clamp of R455. -/
def toE8m0 (mode : Mode) (r32 : Nat) (p : Int) (clamp : Nat) (v : Val) : Nat × Flags :=
  let clampE (c : Nat) : Nat := if (clamp = 1 ∨ clamp = 2) ∧ 0x80 ≤ c ∧ c ≤ 0xFE then 0x7F else c
  match v with
  | .nan => (0xFF, 0)
  | .inf n => (0xFF, if n then fIV else 0)
  | .fin n m e s =>
    if m = 0 ∧ s = false then (0xFF, fIV)
    else if n then (0xFF, fIV)
    else
      let e := e + p
      let top := (bitLen m : Int) - 1
      -- x = 2^(top+e) * (1 + r / 2^top), r the rest
      let d := 2 ^ top.toNat
      let r := m - d
      let inexact := r != 0 || s
      let up : Bool :=
        match mode with
        | .rne => decide (2 * r ≥ d)
        | .rtz => false
        | .rdn => false
        | .rup => inexact
        | .sr => decide (r32 < r * 2 ^ 32 / d)
      let k := top + e + (if up then 1 else 0)
      if k < -127 then (clampE 0, fUF ||| fNX)
      else if k > 127 then (clampE 0xFE, fOF ||| fNX)
      else (clampE (k + 127).toNat, if inexact then fNX else 0)

/-- The value of an E8M0 code (R71). -/
def ofE8m0 (c : Nat) : Val := if c % 256 = 0xFF then .nan else .fin false 1 ((c % 256 : Nat) - 127) false

/-- The random bits of R78. -/
def srBits (seed : Nat) (j e : Nat) : Nat :=
  let m := 2 ^ 64
  let z := (seed + j * 0x9E3779B97F4A7C15 + e * 0xC2B2AE3D27D4EB4F) % m
  let z := ((z ^^^ (z / 2 ^ 30)) * 0xBF58476D1CE4E5B9) % m
  let z := ((z ^^^ (z / 2 ^ 27)) * 0x94D049BB133111EB) % m
  let z := z ^^^ (z / 2 ^ 31)
  z / 2 ^ 32

/-! Block-scaled formats (R74, R75) -/

/-- The block formats. -/
inductive Blk where
  | vf8 | vf8e | vf4
deriving DecidableEq, Repr

/-- The value of the VF4 special byte, none for 0x00 and 0x80 (R75). -/
def vf4Special (b : Nat) : Option Val :=
  if b % 128 = 0 then none else some (.fin (decide (128 ≤ b)) (b % 128) (-2) false)

/-- The value of element code `c` under a scale-plane entry (R74). -/
def blkValue (k : Blk) (entry c : Nat) : Val :=
  let scale := entry % 256
  let special := entry / 256 % 256
  match k with
  | .vf8 => if scale = 0xFF then .nan else (ofCode e4m3 (c % 256)).scale ((scale : Int) - 127)
  | .vf8e => if scale = 0xFF then .nan else (ofCode e5m2 (c % 256)).scale ((scale : Int) - 127)
  | .vf4 =>
    let own : Val :=
      if c % 16 = 8 then (match vf4Special special with | some v => v | none => .zero false) else ofCode e2m1 (c % 16)
    (mul own (ofCode e4m3 scale)).1

/-! The quantiser (R93-R95) -/

/-- What a block quantises to: element codes, scale byte, special byte, flags. -/
structure QBlock where
  codes : List Nat
  scale : Nat
  special : Nat
  flags : Flags
deriving DecidableEq, Repr

/-- The smallest integer k with m * 2^e / 2^k ≤ em. -/
def quantExp (m : Nat) (e : Int) (em : Nat) : Int :=
  let k0 := (bitLen m : Int) + e - bitLen em
  if ltScaled em k0 m e then k0 + 1 else k0

/-- Rounding of one element to a code grid whose magnitudes saturate: the code, and the flags of the last row of
R95. -/
def quantElem (f : Fmt) (v : Val) : Nat × Flags :=
  let (r, fl) := round f .rne 0 v
  let r := match r with
    | .inf n => Val.fin n f.maxM f.maxE false
    | r => r
  let r := if r.isZero then .zero false else r
  (toCode f r, fl)

/-- The quantisation of one block of values in range; `mods` are the values after the modifiers, `m` the maximum
magnitude before them. -/
def quantBlock (k : Blk) (mods : List Val) (m : Val) : QBlock :=
  let zeros := mods.map fun _ => 0
  match m with
  | .nan => ⟨zeros, (if k = .vf4 then 0x7F else 0xFF), 0, fIV⟩
  | .inf _ => ⟨zeros, (if k = .vf4 then 0x7F else 0xFF), 0, fIV⟩
  | .fin _ mm e _ =>
    if mm = 0 then ⟨zeros, (if k = .vf4 then 0x38 else 0x7F), 0, 0⟩
    else match k with
      | .vf4 =>
        let (s, _) := round e4m3 .rup 0 (ratio false mm 6 e 80)
        let ovf := ltScaled (448 * 6) 0 mm e
        let (sm, se) := match s with
          | .fin _ a b _ => (a, b)
          | _ => (1, 0)
        let quot (v : Val) : Val := match v with
          | .fin n a b _ => if a = 0 then .zero false else ratio n a sm (b - se) 80
          | v => v
        let qs := mods.map fun v => quantElem e2m1 (quot v)
        -- |x - q S| for the error of a code, exact
        let errOf (v : Val) (q : Val) : Val := ((add .rne v (negate (mul q (.fin false sm se false)).1)).1).abs
        let errs := List.zipWith (fun v (q : Nat × Flags) => errOf v (ofCode e2m1 q.1)) mods qs
        let worst := (errs.zipIdx).foldl
          (fun (acc : Option (Val × Nat)) (x : Val × Nat) => match acc with
            | none => some x
            | some a => if ltVal a.1 x.1 then some x else some a) none
        let idx := (worst.map (·.2)).getD 0
        let vk := quot (mods.getD idx (.zero false))
        let vq : Nat × Bool := match vk with
          | .fin n a b st => (min (roundAt .rne 0 n a b st (-2)).1 127, n)
          | _ => (0, false)
        let special := if vq.1 = 0 then 0 else vq.1 + 128 * b2n vq.2
        let sv : Val := .fin vq.2 vq.1 (-2) false
        let out := List.zipWith
          (fun (v : Val) (t : (Nat × Flags) × Val) =>
            if special ≠ 0 ∧ ltVal (errOf v sv) t.2 then
              let d := errOf v sv
              let tiny := ltScaled (match v with | .fin _ a _ _ => a | _ => 0) (match v with | .fin _ _ b _ => b | _ => 0) sm se
              (8, (if d.isZero then (0 : Flags) else fNX ||| (if tiny && !v.isZero then fUF else 0)))
            else t.1)
          mods (qs.zip errs)
        ⟨out.map (·.1), toCode e4m3 s, special, (out.foldl (fun a x => a ||| x.2) 0) ||| (if ovf then fOF else 0)⟩
      | _ =>
        let f := if k = .vf8 then e4m3 else e5m2
        let em := if k = .vf8 then 448 else 57344
        let kk := quantExp mm e em
        let k2 := max (-127) (min kk 127)
        let qs := mods.map fun v => quantElem f (v.scale (-k2))
        let fl := qs.foldl (fun a x => a ||| x.2) 0
        -- the two rows of R95 for a scale outside E8M0
        let edge : Flags := if 127 < kk then fOF ||| fNX
          else if kk < -127 ∧ fl &&& fNX ≠ 0 then fUF else 0
        ⟨qs.map (·.1), (k2 + 127).toNat, 0, fl ||| edge⟩

/-- The fixed pairwise tree of R91: element i pairs with i + ceil(n/2). -/
def tree {α : Type} (op : α → α → α) : Nat → List α → List α
  | 0, xs => xs
  | fuel + 1, xs =>
    if xs.length ≤ 1 then xs
    else
      let h := cdiv xs.length 2
      let lo := xs.take h
      let hi := xs.drop h
      tree op fuel ((List.zipWith op lo hi) ++ lo.drop hi.length)

/-- The inclusive prefix of R92. -/
def scan {α : Type} (op : α → α → α) : List α → List α
  | [] => []
  | x :: xs => x :: go x xs
where
  go (acc : α) : List α → List α
    | [] => []
    | y :: ys => let z := op acc y; z :: go z ys

end Sys2Proof.Num
end

