-- ==== Sys2Proof/Syntax.lean ====
section
/-!
DEFINITION. The instruction set as syntax: one constructor of Instr per row of spec/opcode_table.json. S instructions
(05 R135-R138), V words (R141), D words (R143-R145), T words (R146), hardware loops (R148), copy packets (09 R283),
scheduler commands (15 R367), and the events of the machine (95_what_each_step_holds.md), which have no encoding and
carry what they concern.
-/

namespace Sys2Proof

/-- The engines; the code is that of EXEC (05 R135, 01 R16). -/
inductive Eng where
  | v | d | t
deriving DecidableEq, Repr

/-- The fields of a V word other than its opcode (05 R141). -/
structure VWord where
  gk : BitVec 3
  gn : Bool
  ty : BitVec 4
  vd : BitVec 6
  va : BitVec 6
  vb : BitVec 6
  vc : BitVec 6
  na : Bool
  aa : Bool
  nb : Bool
  ab : Bool
  nc : Bool
  ac : Bool
  clamp : BitVec 2
  p : BitVec 5
  fd : Bool
  ta : Bool
  tb : Bool
  tc : Bool
  ext : BitVec 7
deriving DecidableEq, Repr

/-- The fields of a DMMA word other than its opcode (05 R143); `zero` is bits 58:0. -/
structure MWord where
  gk : BitVec 3
  gn : Bool
  acc : BitVec 3
  aslot : BitVec 5
  bslot : BitVec 5
  afmt : BitVec 4
  bfmt : BitVec 4
  ascl : BitVec 10
  bscl : BitVec 10
  ats : BitVec 4
  bts : BitVec 4
  zf : Bool
  takea : Bool
  takeb : Bool
  fla : Bool
  rfl : BitVec 4
  zero : BitVec 59
deriving DecidableEq, Repr

/-- The fields of every other D word (05 R144); `zero` is bits 59:32. -/
structure DWord where
  gk : BitVec 3
  gn : Bool
  acc : BitVec 3
  slot : BitVec 5
  vreg : BitVec 6
  brec : BitVec 6
  creg : BitVec 4
  fmt : BitVec 8
  sidx : BitVec 10
  rnd : BitVec 3
  clamp : BitVec 2
  p : BitVec 5
  fild : Bool
  tkv : Bool
  tks : Bool
  tkc : Bool
  zero : BitVec 28
  imm : BitVec 32
deriving DecidableEq, Repr

/-- The fields of a T word other than its opcode (05 R146). -/
structure TWord where
  gk : BitVec 3
  gn : Bool
  reg : BitVec 6
  brec : BitVec 6
  ereg : BitVec 4
  fild : Bool
  take : Bool
  ext : BitVec 14
  imm : BitVec 20
deriving DecidableEq, Repr

/-- The fields of a hardware loop (05 R148). -/
structure LWord where
  gk : BitVec 3
  gn : Bool
  lv : BitVec 2
  csrc : Bool
  creg : BitVec 4
  lenm : BitVec 10
  cimm : BitVec 16
  se : BitVec 4
  stride : BitVec 15
deriving DecidableEq, Repr

/-- A 64-byte packet of eight words: a copy packet (09 R282) or a scheduler command (15 R367). -/
structure Packet where
  w0 : Word
  w1 : Word
  w2 : Word
  w3 : Word
  w4 : Word
  w5 : Word
  w6 : Word
  w7 : Word
deriving DecidableEq, Repr

/-- An accepted packet: the die, the watch entry of its queue and its index (09 R281). -/
structure PktId where
  die : Nat
  cew : Nat
  idx : Nat
  /-- the entering of its queue into the watch entry -/
  ent : Nat := 0
deriving DecidableEq, Repr

/-- What a host does over the control port (18 R425): an atomic names its function as R137 numbers it. -/
inductive HostOp where
  | read (len : Nat)
  | write (data : List Byte)
  | atomic (fn : Nat) (operand compare : Word)
deriving DecidableEq, Repr

/-- The outcome of a scan test (17 R423): pass, or fail with the unit code. -/
inductive ScanResult where
  | pass
  | fail (unit : Nat)
deriving DecidableEq, Repr

/-- What firmware chooses at boot and the spec leaves to it (18 R431 stages 1 to 3, 17 R420): the firmware image, PARTMAP
and PPBIND, retired ranks, remap tables by rank, trained ports, each partition's supervisor image with the address it is
copied to, and what firmware at F level writes besides: XLROOT by partition and bytes of HBM. -/
structure BootPlan where
  image : List Byte := []
  partmap : BitVec 8 := 0
  ppbind : List Word := []
  retired : List Nat := []
  /-- what the boot test has found: failed rows by rank and 16 * physical cell + bank; failed physical cells by rank -/
  badRows : List (Nat × Nat × List Nat) := []
  badCells : List (Nat × Nat) := []
  cellMap : List (Nat × BitVec 128) := []
  rowMap : List (Nat × List (Nat × List (BitVec 16))) := []
  trained : List Nat := []
  supers : List (Nat × List Byte × Nat) := []
  xlroot : List (Nat × Word) := []
  mem : List (Nat × List Byte) := []
deriving DecidableEq, Repr

/-- What an event of the table concerns. The events have no encoding, so their constructors carry nothing; the step puts
what the event is about into the state (State.ev) before the event happens, and each event's meaning says which of
these it reads. -/
structure Arg where
  a : Nat := 0
  b : Nat := 0
  c : Nat := 0
  d : Nat := 0
  e : Eng := .v
  v : Word := 0
  bytes : List Byte := []
  keys : List (List Byte) := []
  host : HostOp := .read 0
  scan : ScanResult := .pass
  plan : BootPlan := {}
deriving DecidableEq, Repr

/-- The instructions and events: one constructor per row of spec/opcode_table.json. -/
inductive Instr where
  /-- Sets g(d) to the 64-bit wrapped sum of g(a) and g(b). R163. -/
  | add (d a b : BitVec 6)
  /-- Sets g(d) to the 64-bit wrapped difference g(a) minus g(b). R163. -/
  | sub (d a b : BitVec 6)
  /-- Sets g(d) to the bitwise AND of g(a) and g(b). R163. -/
  | and (d a b : BitVec 6)
  /-- Sets g(d) to the bitwise OR of g(a) and g(b). R163. -/
  | or (d a b : BitVec 6)
  /-- Sets g(d) to the bitwise XOR of g(a) and g(b). R163. -/
  | xor (d a b : BitVec 6)
  /-- Sets g(d) to g(a) AND NOT g(b). R163. -/
  | andn (d a b : BitVec 6)
  /-- Sets g(d) to g(a) OR NOT g(b). R163. -/
  | orn (d a b : BitVec 6)
  /-- Shifts g(a) left by g(b)[5:0] into g(d). R163. -/
  | shl (d a b : BitVec 6)
  /-- Shifts g(a) right logically by g(b)[5:0] into g(d). R163. -/
  | shr (d a b : BitVec 6)
  /-- Shifts g(a) right arithmetically by g(b)[5:0] into g(d). R163. -/
  | sra (d a b : BitVec 6)
  /-- Rotates g(a) left by g(b)[5:0] into g(d). R163. -/
  | rol (d a b : BitVec 6)
  /-- Sets g(d) to the low 64 bits of g(a) times g(b). R163. -/
  | mul (d a b : BitVec 6)
  /-- Sets g(d) to the high 64 bits of the signed 128-bit product. R163. -/
  | mulh (d a b : BitVec 6)
  /-- Sets g(d) to the high 64 bits of the unsigned 128-bit product. R163. -/
  | mulhu (d a b : BitVec 6)
  /-- Sets g(d) to the signed quotient rounded toward zero, with the corner cases of R164. R164. -/
  | div (d a b : BitVec 6)
  /-- Sets g(d) to the unsigned quotient, all ones for a zero divisor. R164. -/
  | divu (d a b : BitVec 6)
  /-- Sets g(d) to the signed remainder with the sign of g(a). R164. -/
  | rem (d a b : BitVec 6)
  /-- Sets g(d) to the unsigned remainder. R164. -/
  | remu (d a b : BitVec 6)
  /-- Sets g(d) to the signed smaller of g(a) and g(b). R163. -/
  | min (d a b : BitVec 6)
  /-- Sets g(d) to the signed larger of g(a) and g(b). R163. -/
  | max (d a b : BitVec 6)
  /-- Sets g(d) to the unsigned smaller of g(a) and g(b). R163. -/
  | minu (d a b : BitVec 6)
  /-- Sets g(d) to the unsigned larger of g(a) and g(b). R163. -/
  | maxu (d a b : BitVec 6)
  /-- Counts the leading zero bits of g(a) into g(d). R163. -/
  | clz (d a : BitVec 6)
  /-- Counts the trailing zero bits of g(a) into g(d). R163. -/
  | ctz (d a : BitVec 6)
  /-- Counts the one bits of g(a) into g(d). R163. -/
  | popc (d a : BitVec 6)
  /-- Sign-extends g(a) from bit 7, 15 or 31 as the size code in b selects. R163. -/
  | sext (d a z : BitVec 6)
  /-- Reverses the byte order of g(a) into g(d). R163. -/
  | bswap (d a : BitVec 6)
  /-- Adds a sign-extended 14-bit immediate to g(a). R165. -/
  | addi (d a : BitVec 6) (i : BitVec 14)
  /-- ANDs g(a) with a zero-extended 14-bit immediate. R165. -/
  | andi (d a : BitVec 6) (i : BitVec 14)
  /-- ORs g(a) with a zero-extended 14-bit immediate. R165. -/
  | ori (d a : BitVec 6) (i : BitVec 14)
  /-- XORs g(a) with a zero-extended 14-bit immediate. R165. -/
  | xori (d a : BitVec 6) (i : BitVec 14)
  /-- Shifts g(a) left by an immediate amount. R165. -/
  | shli (d a n : BitVec 6)
  /-- Shifts g(a) right logically by an immediate amount. R165. -/
  | shri (d a n : BitVec 6)
  /-- Shifts g(a) right arithmetically by an immediate amount. R165. -/
  | srai (d a n : BitVec 6)
  /-- Rotates g(a) left by an immediate amount. R165. -/
  | roli (d a n : BitVec 6)
  /-- Writes imm20 into g(d) bits 19:0 and sign-fills bits 63:20. R136. -/
  | movi (d : BitVec 6) (i : BitVec 20)
  /-- Writes imm20 into g(d) bits 39:20, keeps bits 19:0 and sign-fills bits 63:40. R136. -/
  | movm (d : BitVec 6) (i : BitVec 20)
  /-- Writes imm20 into g(d) bits 59:40, keeps bits 39:0 and sign-fills bits 63:60. R136. -/
  | movh (d : BitVec 6) (i : BitVec 20)
  /-- Sets predicate kd to the result of comparing g(a) with g(b) under condition cc. R167. -/
  | cmp (k c : BitVec 4) (a b : BitVec 6)
  /-- Sets predicate kd to the result of comparing g(a) with a sign-extended 12-bit immediate. R167. -/
  | cmpi (k c : BitVec 4) (a : BitVec 6) (i : BitVec 12)
  /-- Sets k(d) to k(a) AND k(b). R168. -/
  | kand (d a b : BitVec 4)
  /-- Sets k(d) to k(a) OR k(b). R168. -/
  | kor (d a b : BitVec 4)
  /-- Sets k(d) to k(a) XOR k(b). R168. -/
  | kxor (d a b : BitVec 4)
  /-- Sets k(d) to k(a) AND NOT k(b). R168. -/
  | kandn (d a b : BitVec 4)
  /-- Sets k(d) to whether g(a) is non-zero. R168. -/
  | kset (d : BitVec 4) (a : BitVec 6)
  /-- Copies predicate k(a), zero-extended, into g(d). R168. -/
  | kget (d : BitVec 6) (a : BitVec 4)
  /-- Sets g(d) to g(a) if k(n) is 1, else g(b). R168. -/
  | sel (d a b : BitVec 6) (n : BitVec 4)
  /-- Forms a tagged pointer from the tag in g(b) and the offset in g(a). R169. -/
  | ptag (d a b : BitVec 6)
  /-- Extracts the SPACE field of pointer g(a). R169. -/
  | pspace (d a : BitVec 6)
  /-- Extracts the OWNER field of pointer g(a). R169. -/
  | prank (d a : BitVec 6)
  /-- Adds g(b) to the 48-bit offset of pointer g(a), keeping its tag. R169. -/
  | padd (d a b : BitVec 6)
  /-- Branches on a predicate after one delay slot. R170. -/
  | br (k : BitVec 4) (n : Bool) (disp : BitVec 21)
  /-- Branches on a predicate after one delay slot and, when taken, links into g62. R170. -/
  | brl (k : BitVec 4) (n : Bool) (disp : BitVec 21)
  /-- Jumps to the space-0 address in g(a) after the delay slot. R171. -/
  | jr (a : BitVec 6)
  /-- Jumps to g(a) after the delay slot and links pc + 8 into g(d). R171. -/
  | jrl (d a : BitVec 6)
  /-- Queues a sign-extending byte load into g(d). R174. -/
  | ldb (d a : BitVec 6) (i : BitVec 10) (sb : BitVec 4)
  /-- Queues a zero-extending byte load into g(d). R174. -/
  | ldbu (d a : BitVec 6) (i : BitVec 10) (sb : BitVec 4)
  /-- Queues a sign-extending half-word load into g(d). R174. -/
  | ldh (d a : BitVec 6) (i : BitVec 10) (sb : BitVec 4)
  /-- Queues a zero-extending half-word load into g(d). R174. -/
  | ldhu (d a : BitVec 6) (i : BitVec 10) (sb : BitVec 4)
  /-- Queues a sign-extending word load into g(d). R174. -/
  | ldw (d a : BitVec 6) (i : BitVec 10) (sb : BitVec 4)
  /-- Queues a zero-extending word load into g(d). R174. -/
  | ldwu (d a : BitVec 6) (i : BitVec 10) (sb : BitVec 4)
  /-- Queues a doubleword load into g(d). R174. -/
  | ldd (d a : BitVec 6) (i : BitVec 10) (sb : BitVec 4)
  /-- Queues a byte store of g(d). R174. -/
  | stb (d a : BitVec 6) (i : BitVec 10) (sb : BitVec 4)
  /-- Queues a half-word store of g(d). R174. -/
  | sth (d a : BitVec 6) (i : BitVec 10) (sb : BitVec 4)
  /-- Queues a word store of g(d). R174. -/
  | stw (d a : BitVec 6) (i : BitVec 10) (sb : BitVec 4)
  /-- Queues a doubleword store of g(d). R174. -/
  | std (d a : BitVec 6) (i : BitVec 10) (sb : BitVec 4)
  /-- Holds later loads and stores until every earlier one has completed, without stalling issue. R109. -/
  | qsync
  /-- Stalls the sequencer until every scoreboard slot named in the mask is clear. R176. -/
  | wait (m : BitVec 15)
  /-- Orders accesses with an ordering and scope, stalling until earlier loads and stores complete. R115. -/
  | fence (s : BitVec 3) (o : BitVec 2)
  /-- Does nothing. R176. -/
  | nop
  /-- Drains queues and engines, samples the pre-emption line and, if high, saves the context and re-queues the node. R39. -/
  | yield
  /-- Ends the node after everything retires, decrementing successors and the join counter and releasing the harness. R34. -/
  | nend
  /-- Enters the supervisor with class TRAP and a 20-bit code. R203. -/
  | trap (c : BitVec 20)
  /-- Enters the supervisor with class BREAK and a 20-bit code. R203. -/
  | brk (c : BitVec 20)
  /-- Stalls until an aligned word satisfies a condition, then acquires at its scope. R121. -/
  | waita (c a b : BitVec 6) (s : BitVec 3)
  /-- Initialises a barrier object with an arrival count. R123. -/
  | barinit (a b : BitVec 6)
  /-- Adds expected bytes to a barrier object's balance and tests the flip. R123. -/
  | barexp (a b : BitVec 6)
  /-- Records one arrival at a barrier object and tests the flip. R123. -/
  | bararr (a : BitVec 6)
  /-- Stalls until the barrier object's phase differs from the given phase, then acquires. R125. -/
  | barwait (a b : BitVec 6)
  /-- Reports to a predicate whether the barrier object's phase has flipped. R125. -/
  | bartest (k : BitVec 4) (a b : BitVec 6)
  /-- Performs BGARR then BGWAIT on the same group. R183. -/
  | bgbar (a : BitVec 6)
  /-- Counts this harness's arrival at the group's Bugle barrier. R183. -/
  | bgarr (a : BitVec 6)
  /-- Waits for completion of the barrier instance at which this harness last arrived. R183. -/
  | bgwait (a : BitVec 6)
  /-- Queues a 64-bit broadcast of g(b) on the group's Bugle path. R184. -/
  | bgsend (a b : BitVec 6)
  /-- Takes the oldest value of the group's receive queue into g(d), waiting if empty. R185. -/
  | bgrecv (d a : BitVec 6)
  /-- Returns the delivery cycle that a BGSEND issued now would receive. R186. -/
  | bgtime (d a : BitVec 6)
  /-- Queues a V, D or T block command with captured arguments, stamp and predicate snapshot. R16. -/
  | exec (e : BitVec 2) (t : Bool) (a : BitVec 6) (o : BitVec 16)
  /-- Stalls until an engine's completion counter reaches a value, giving the retirement edge. R189. -/
  | engwait (a e : BitVec 6)
  /-- Reads an engine's completion counter into g(d). R189. -/
  | engseq (d e : BitVec 6)
  /-- Resets FRAME to zero from the next cycle. R190. -/
  | framego
  /-- Requests a power class from the die governor, stalling until granted. R191. -/
  | pwrreq (n : BitVec 6)
  /-- Returns the harness's power grant to class 0. R191. -/
  | pwrrel
  /-- Claims a copy-engine queue slot, writes the packet from registers and releases its tag. R192. -/
  | qpost (d a b : BitVec 6)
  /-- Hands a continuation record from registers to the die's work scheduler. R193. -/
  | spawn (a : BitVec 6)
  /-- Atomically decrements a join counter and reports to a predicate whether it reached zero. R194. -/
  | join (k : BitVec 4) (a : BitVec 6)
  /-- Loads a resource-table entry by handle into a buffer record, checking and pinning it. R195. -/
  | brld (d a : BitVec 6)
  /-- Unloads a buffer record once commands using it retire, releasing its pins. R196. -/
  | brfree (d : BitVec 6)
  /-- Reads a loaded buffer record's four words into g(d) to g(d+3). R197. -/
  | brget (d a : BitVec 6)
  /-- Reads a special register into g(d). R198. -/
  | mfs (d : BitVec 6) (n : BitVec 12)
  /-- Writes g(a) into a special register, under the access rules of R133. R198. -/
  | mts (a : BitVec 6) (n : BitVec 12)
  /-- Refreshes a range of banks in all 16 cells, one bank number after another. R64. -/
  | tref (n : BitVec 4) (a b : BitVec 6)
  /-- Returns the smallest remaining refresh time over the harness's banks. R65. -/
  | trefq (d : BitVec 6)
  /-- Atomically adds g(b) to a word and returns the old value. R177. -/
  | aadd (o : BitVec 2) (d a b : BitVec 6) (s : BitVec 3)
  /-- Atomically ANDs g(b) into a word and returns the old value. R177. -/
  | aand (o : BitVec 2) (d a b : BitVec 6) (s : BitVec 3)
  /-- Atomically ORs g(b) into a word and returns the old value. R177. -/
  | aor (o : BitVec 2) (d a b : BitVec 6) (s : BitVec 3)
  /-- Atomically XORs g(b) into a word and returns the old value. R177. -/
  | axor (o : BitVec 2) (d a b : BitVec 6) (s : BitVec 3)
  /-- Atomically stores the signed minimum and returns the old value. R177. -/
  | amin (o : BitVec 2) (d a b : BitVec 6) (s : BitVec 3)
  /-- Atomically stores the signed maximum and returns the old value. R177. -/
  | amax (o : BitVec 2) (d a b : BitVec 6) (s : BitVec 3)
  /-- Atomically stores the unsigned minimum and returns the old value. R177. -/
  | aminu (o : BitVec 2) (d a b : BitVec 6) (s : BitVec 3)
  /-- Atomically stores the unsigned maximum and returns the old value. R177. -/
  | amaxu (o : BitVec 2) (d a b : BitVec 6) (s : BitVec 3)
  /-- Atomically swaps g(b) into a word and returns the old value. R177. -/
  | aswap (o : BitVec 2) (d a b : BitVec 6) (s : BitVec 3)
  /-- Atomically writes g(b) if the word equals g(d), returning the old value. R177. -/
  | acas (o : BitVec 2) (d a b : BitVec 6) (s : BitVec 3)
  /-- Atomically reads a word with the given ordering and scope. R177. -/
  | aload (o : BitVec 2) (d a : BitVec 6) (s : BitVec 3)
  /-- Atomically writes g(b) to a word with the given ordering and scope. R177. -/
  | astore (o : BitVec 2) (a b : BitVec 6) (s : BitVec 3)
  /-- Returns from the trap record of the current level, acting on its ACTION field. R401. -/
  | eret
  /-- Invalidates translation-cache entries of a region in every harness of the partition and waits for overlapping pins. R393. -/
  | tlbi (s : BitVec 2) (n : BitVec 6)
  /-- Stops the harness until firmware restarts it. R204. -/
  | halt
  /-- Stalls until an interrupt message is pending for this harness. R347. -/
  | waitint
  /-- Adds two vectors element-wise with one rounding per result. R213. -/
  | vadd (w : VWord)
  /-- Subtracts two vectors element-wise. R213. -/
  | vsub (w : VWord)
  /-- Multiplies two vectors element-wise. R213. -/
  | vmul (w : VWord)
  /-- Computes a times b plus c element-wise with one rounding. R213. -/
  | vfma (w : VWord)
  /-- Selects the smaller element of two vectors. R213. -/
  | vmin (w : VWord)
  /-- Selects the larger element of two vectors. R213. -/
  | vmax (w : VWord)
  /-- Returns the high half of the double-width integer product. R213. -/
  | vmulh (w : VWord)
  /-- Computes the absolute difference element-wise. R213. -/
  | vabsd (w : VWord)
  /-- Sums four INT8 products and an INT32 addend per result. R215. -/
  | vdot4 (w : VWord)
  /-- Sums two BF16 products and an FP32 addend with one rounding. R215. -/
  | vdot2 (w : VWord)
  /-- Adds a scalar c register to every element. R214. -/
  | vadds (w : VWord)
  /-- Subtracts a scalar c register from every element. R214. -/
  | vsubs (w : VWord)
  /-- Multiplies every element by a scalar c register. R214. -/
  | vmuls (w : VWord)
  /-- Computes a times a scalar plus c element-wise. R214. -/
  | vfmas (w : VWord)
  /-- Takes the minimum of each element and a scalar. R214. -/
  | vmins (w : VWord)
  /-- Takes the maximum of each element and a scalar. R214. -/
  | vmaxs (w : VWord)
  /-- Delivers the table reciprocal seed of each element. R98. -/
  | vrcpe (w : VWord)
  /-- Delivers the table reciprocal-square-root seed of each element. R99. -/
  | vrsqe (w : VWord)
  /-- Delivers the correctly rounded reciprocal. R216. -/
  | vrcp (w : VWord)
  /-- Delivers the correctly rounded reciprocal square root. R216. -/
  | vrsq (w : VWord)
  /-- Delivers the correctly rounded square root. R216. -/
  | vsqrt (w : VWord)
  /-- Delivers the correctly rounded 2 to the power a. R216. -/
  | vexp2 (w : VWord)
  /-- Delivers the correctly rounded base-2 logarithm. R216. -/
  | vlog2 (w : VWord)
  /-- Delivers the correctly rounded exponential. R216. -/
  | vexp (w : VWord)
  /-- Delivers the correctly rounded natural logarithm. R216. -/
  | vlog (w : VWord)
  /-- Delivers the correctly rounded sin(pi a). R216. -/
  | vsinp (w : VWord)
  /-- Delivers the correctly rounded cos(pi a). R216. -/
  | vcosp (w : VWord)
  /-- Delivers the correctly rounded hyperbolic tangent. R216. -/
  | vtanh (w : VWord)
  /-- Delivers the correctly rounded error function. R216. -/
  | verf (w : VWord)
  /-- Delivers the correctly rounded quotient a / b. R216. -/
  | vdiv (w : VWord)
  /-- Writes 1 or 0 per element according to a comparison condition. R217. -/
  | vcmp (w : VWord)
  /-- Writes a one-hot class mask of each floating element. R218. -/
  | vclass (w : VWord)
  /-- Selects per element between two vectors by a mask vector. R219. -/
  | vsel (w : VWord)
  /-- Bitwise AND of element bits. R220. -/
  | vand (w : VWord)
  /-- Bitwise OR of element bits. R220. -/
  | vor (w : VWord)
  /-- Bitwise XOR of element bits. R220. -/
  | vxor (w : VWord)
  /-- Bitwise complement of element bits. R220. -/
  | vnot (w : VWord)
  /-- Shifts each element left by a per-element amount. R221. -/
  | vshl (w : VWord)
  /-- Shifts each element right logically by a per-element amount. R221. -/
  | vshr (w : VWord)
  /-- Shifts each element right arithmetically by a per-element amount. R221. -/
  | vsra (w : VWord)
  /-- Converts each element from a source type to the destination type with one rounding. R222. -/
  | vcvt (w : VWord)
  /-- Converts float elements into unscaled 8-bit or 4-bit codes. R223. -/
  | vpack (w : VWord)
  /-- Converts packed 8-bit or 4-bit codes into float elements. R224. -/
  | vunpk (w : VWord)
  /-- Quantises blocks of 32 elements into a block-scaled format with scale-plane entries. R225. -/
  | vquant (w : VWord)
  /-- Dequantises block-scaled codes into float elements. R226. -/
  | vdeq (w : VWord)
  /-- Writes the maximum magnitude of each block of 32 elements. R227. -/
  | vbmax (w : VWord)
  /-- Reduces elements by addition in the fixed pairwise tree. R228. -/
  | vrsum (w : VWord)
  /-- Reduces elements by maximum in the fixed pairwise tree. R228. -/
  | vrmax (w : VWord)
  /-- Reduces elements by minimum in the fixed pairwise tree. R228. -/
  | vrmin (w : VWord)
  /-- Reduces squared elements by addition in the fixed pairwise tree. R228. -/
  | vrssq (w : VWord)
  /-- Computes the inclusive prefix sum, maximum or minimum. R229. -/
  | vscan (w : VWord)
  /-- Sorts element indices by key and writes per-key counts. R230. -/
  | vpart (w : VWord)
  /-- Writes ascending indices starting from a scalar. R231. -/
  | viota (w : VWord)
  /-- Permutes elements within each cell by an index vector. R232. -/
  | vperm (w : VWord)
  /-- Gathers elements across all cells by an index vector. R233. -/
  | vgath (w : VWord)
  /-- Scatters elements across all cells by an index vector. R234. -/
  | vscat (w : VWord)
  /-- Copies elements bit for bit. R235. -/
  | vmov (w : VWord)
  /-- Writes a scalar c register into every element. R235. -/
  | vsplat (w : VWord)
  /-- Broadcasts one cell's register to every cell. R235. -/
  | vbcst (w : VWord)
  /-- Extracts one element of one cell into a c register. R236. -/
  | vextr (w : VWord)
  /-- Inserts a c register value into one element of one or all cells. R236. -/
  | vins (w : VWord)
  /-- Sets vl from an immediate or a c register. R237. -/
  | vsetl (w : VWord)
  /-- Sets up a V-engine hardware loop with a counter, count and body length. R149. -/
  | loopV (w : LWord)
  /-- Adds two c registers and a signed immediate into a c register. R238. -/
  | vcadd (w : VWord)
  /-- Occupies one V issue cycle. R239. -/
  | vnop
  /-- Ends a V block. R239. -/
  | vend
  /-- Claims the operand slots named in a mask. R244. -/
  | dclaim (w : DWord)
  /-- Releases the operand slots named in a mask. R244. -/
  | drel (w : DWord)
  /-- Multiplies two operand slots through the dot array into an accumulator with one rounding per output. R88. -/
  | dmma (w : MWord)
  /-- Sets every accumulator element to zero. R250. -/
  | dzero (w : DWord)
  /-- Writes an accumulator from a v register. R250. -/
  | dfill (w : DWord)
  /-- Converts an accumulator into a v register with optional tensor scale. R251. -/
  | dread (w : DWord)
  /-- Converts an accumulator into part of an operand slot. R252. -/
  | dcvt (w : DWord)
  /-- Copies a v register into an operand slot. R253. -/
  | dlds (w : DWord)
  /-- Copies a v register into an operand slot transposed. R253. -/
  | dldt (w : DWord)
  /-- Writes scale-memory entries from a v register. R254. -/
  | dscl (w : DWord)
  /-- Loads a decoder probability table slot and checks it. R255. -/
  | dtbl (w : DWord)
  /-- Sets a decoder position from a coded tensor, tile and restart marker. R256. -/
  | dseek (w : DWord)
  /-- Starts decoding a tile's sub-streams from a position into an operand slot. R257. -/
  | ddec (w : DWord)
  /-- Reads a decoder position word into a c register. R258. -/
  | dstat (w : DWord)
  /-- Adds two D c registers and a signed immediate. R258. -/
  | dcadd (w : DWord)
  /-- Sets up a D-engine hardware loop. R149. -/
  | loopD (w : LWord)
  /-- Occupies one D issue cycle. R259. -/
  | dnop
  /-- Ends a D block. R259. -/
  | dend
  /-- Loads elements through a buffer record into a v register. R263. -/
  | tld (w : TWord)
  /-- Stores v register elements through a buffer record. R263. -/
  | tst (w : TWord)
  /-- Loads a full slot's worth of elements into an operand slot. R263. -/
  | tlds (w : TWord)
  /-- Gathers elements through a buffer record by per-element index offsets. R264. -/
  | tgath (w : TWord)
  /-- Scatters elements through a buffer record by per-element index offsets. R264. -/
  | tscat (w : TWord)
  /-- Shifts a register one cell along the systolic links with an edge mode. R265. -/
  | tshift (w : TWord)
  /-- Sends each cell's register over the express network to a rank and channel. R267. -/
  | txsend (w : TWord)
  /-- Waits for and receives an express message from a rank on a channel. R267. -/
  | txrecv (w : TWord)
  /-- Packs a vector into the sparse bitmask-plus-values layout. R271. -/
  | tspst (w : TWord)
  /-- Expands a sparse packed vector into a v register. R272. -/
  | tspld (w : TWord)
  /-- Subtracts the bytes the T engine has written from a barrier object and optionally arrives. R273. -/
  | tbarr (w : TWord)
  /-- Atomically adds vector elements into tower memory in a fixed order. R274. -/
  | tatom (w : TWord)
  /-- Adds e registers and an immediate into an e register. R275. -/
  | teadd (w : TWord)
  /-- Moves an immediate, e register or vl into an e register. R275. -/
  | temov (w : TWord)
  /-- Writes one vector element into a sequencer g register. R276. -/
  | txch (w : TWord)
  /-- Sets up a T-engine hardware loop with optional e-register stepping. R149. -/
  | loopT (w : LWord)
  /-- Occupies one T issue cycle. R277. -/
  | tnop
  /-- Ends a T block. R277. -/
  | tend
  /-- Copies a byte range between two records' spans. R287. -/
  | copy (q : PktId)
  /-- Copies a repeated box of elements with conversion. R289. -/
  | copy4d (q : PktId)
  /-- Reads bytes once and writes them into many towers through broadcast columns. R288. -/
  | bcast (q : PktId)
  /-- Fills a byte range with an 8-byte pattern. R287. -/
  | fill (q : PktId)
  /-- Copies whole rows chosen by an index list. R290. -/
  | gather (q : PktId)
  /-- Restricts a fine grid to a coarse grid through a stencil-weight table in FP64. R295. -/
  | gridr (q : PktId)
  /-- Prolongs a coarse grid to a fine grid, optionally adding to it. R295. -/
  | gridp (q : PktId)
  /-- Copies a grid level with conversion and halo fill by boundary modes. R295. -/
  | gridc (q : PktId)
  /-- Compresses an FP32 or FP64 array with an absolute error bound of 2^e. R298. -/
  | ebz (q : PktId)
  /-- Expands an error-bounded stream after checking each block. R300. -/
  | ebx (q : PktId)
  /-- Contributes to a collective reduction combined in shard-index tree order. R302. -/
  | cred (q : PktId)
  /-- Contributes to a collective gather placing contributions by shard index. R303. -/
  | cgath (q : PktId)
  /-- Scheduler command that fills a node-table entry with a record and successor list. R367. -/
  | node (die : Nat) (c : Packet)
  /-- Scheduler command that decrements an entry's predecessor counter. R367. -/
  | dec (die : Nat) (c : Packet)
  /-- Scheduler command that removes a waiting or ready entry or an armed gang. R367. -/
  | remove (die : Nat) (c : Packet)
  /-- Scheduler command that raises or lowers the pre-emption lines of a rank range. R367. -/
  | preempt (die : Nat) (c : Packet)
  /-- Scheduler command that re-reads the parameter block. R366. -/
  | param (die : Nat) (c : Packet)
  /-- Scheduler command that writes a checkpoint record and clears the dirty set. R387. -/
  | ckpt (die : Nat) (c : Packet)
  /-- Scheduler command that fences or returns a harness. R386. -/
  | fenceCmd (die : Nat) (c : Packet)
  /-- An S word whose major, fn, cc or zero fields are not assigned issues and raises ILLEGAL_INSTR precisely. R138. -/
  | unassignedSEncoding (w : BitVec 32)
  /-- A V, D or T word with an unassigned opcode, including 0x00, issues and raises the block fault ILLEGAL_INSTR. R140. -/
  | unassignedEngineOpcode (e : Eng) (w : BitVec 128)
  /-- An engine begins the next queued block, writing its captured arguments into its scalar registers. R17. -/
  | blockDispatch
  /-- A timed block begins when FRAME equals its stamp, or raises SCHED_MISS. R29. -/
  | timedBlockStart
  /-- A block whose results are all written retires and its engine's completion counter rises. R20. -/
  | blockRetire
  /-- A queued sequencer load's value returns into its g register and clears its scoreboard slot. R109. -/
  | seqLoadReturn
  /-- A queued sequencer store is performed at its location and clears its scoreboard slot. R109. -/
  | seqStorePerform
  /-- A result without fixed latency arrives in its register or slot and sets any fill. R153. -/
  | tLoadArrival
  /-- A DDEC finishes its sub-streams, fills the slot, advances the position and subtracts bytes from its barrier. R323. -/
  | decodeComplete
  /-- An express message reaches a harness and is buffered or discarded. R269. -/
  | expressMessageArrival
  /-- Mode-1 shift data reaches an inbound edge buffer and is held or discarded. R269. -/
  | edgeDataArrival
  /-- A waiting Bugle send departs in its group's frame slot. R184. -/
  | bgsendDeparture
  /-- A broadcast value is delivered to every member's receive queue or discarded with overrun. R185. -/
  | bugleDelivery
  /-- A Bugle barrier instance completes L cycles after the last arrival and members return to idle. R183. -/
  | barrierInstanceComplete
  /-- Every member of an armed gang issues its first instruction at t0 plus L. R37. -/
  | gangStart
  /-- A scheduler change of a pre-emption line reaches the harness 18 cycles later. R378. -/
  | preemptLineChange
  /-- The scheduler raises a line for a ready record that outranks a running node by PDELTA. R379. -/
  | autoPreempt
  /-- An idle harness chooses a ready record and starts or resumes its node. R373. -/
  | nodeStart
  /-- An enqueue that waited for queue or ring space proceeds. R377. -/
  | enqueueResume
  /-- The die governor grants the head request when the pool allows. R382. -/
  | powerGrant
  /-- The watchdog count exceeds WDOG, freezing the harness and trapping to the supervisor. R42. -/
  | wdogExpire
  /-- A pending block or freeze-owner fault enters the supervisor at the sequencer's next stopping point. R400. -/
  | blockFaultEntry
  /-- A message written to an interrupt ring makes the SUPRANK harness at U enter the supervisor with class 6. R348. -/
  | interruptEntry
  /-- Every member of a gang aborts L cycles after one member's abort. R415. -/
  | gangAbort
  /-- A bank whose remaining time reaches the guard is refreshed by hardware. R66. -/
  | forcedRefresh
  /-- A TREF begins refreshing its next bank number once any earlier refresh or back-off ends. R64. -/
  | trefBankRefresh
  /-- A bank refresh completes, resetting its deadline and activation counters. R421. -/
  | refreshComplete
  /-- A bank's 96-cycle disturb back-off ends with no row open. R421. -/
  | backoffEnd
  /-- The die accepts the next packet of a watched queue on seeing its tag, latches and checks it. R281. -/
  | packetAccept
  /-- A collective instance begins when S participants with every shard index are accepted. R301. -/
  | collectiveInstanceBegin
  /-- The supervisor cancels a waiting collective instance, ending its participants with BAD_COLL. R305. -/
  | collectiveCancel
  /-- A packet ends, writing its status word, barrier subtractions, flag and DONE in order. R284. -/
  | packetCompletion
  /-- Every 50 ms the scheduler drains the die's next harness for its scan test. R385. -/
  | selftestDrain
  /-- The 200 us scan test of a drained harness ends in a pass or a fence with SELFTEST_FAIL. R423. -/
  | scanTest
  /-- A watch-entry write with EN = 1 reads and checks a queue header and starts watching it. R361. -/
  | queueEnter
  /-- A watch-entry write with EN = 0 stops acceptance from the queue. R361. -/
  | queueStop
  /-- A watch-entry command continues a halted packet from unit FUNIT and clears HALT. R308. -/
  | retry
  /-- A watch-entry command abandons a halted packet, raises DONE and clears HALT. R308. -/
  | abandon
  /-- A write of GTBASE starts group-table activation. R357. -/
  | gtbaseWrite
  /-- When the partition idles, the group table is read, checked and latched, and scheduler parameters read. R357. -/
  | groupTableActivation
  /-- A write of PARTMAP requests a new division of the module into partitions. R362. -/
  | partmapWrite
  /-- The new partition map takes effect when every affected die is idle. R362. -/
  | partmapChange
  /-- Shortening the refresh period pulls every deadline of the die in. R360. -/
  | rperiodWrite
  /-- A write of SHARE changes the governor pool at once without revoking grants. R383. -/
  | pwrshareWrite
  /-- A write to a privileged register without its own row stores clamped field values. R349. -/
  | privilegedRegisterWrite
  /-- A host read, write or atomic on a partition's space 0 over the control port. R425. -/
  | hostAccess
  /-- The control port sends console output bytes up to OWR. R426. -/
  | consoleSend
  /-- A console input byte arrives into the input ring. R426. -/
  | consoleReceive
  /-- A peer-port flit is received, checked and acknowledged or refused for replay. R428. -/
  | flitReceive
  /-- A peer link goes down and accesses through it fail with MEM_ERROR. R430. -/
  | linkDown
  /-- Firmware retrains a peer link and UP returns to 1. R430. -/
  | linkTrain
  /-- Power-on or module reset starts boot stage 1 from the base-die ROM. R431. -/
  | moduleReset
  /-- Firmware trains links, tests, writes remap tables and starts each partition's supervisor. R431. -/
  | firmwareBoot
  /-- A partition start or restart uses a cached supervisor image checked against the fuse counter. R434. -/
  | partitionStart
  /-- The loader checks a Fingivo container and places its sections, resources, groups and records. R441. -/
  | containerLoad
  /-- After an ERET for class 1, 4 or 5, the frozen engines, FRAME and the sequencer continue in cycle max(RMCC, e + 1). R401. -/
  | resumeCycle
  /-- Firmware blows fuses to raise the anti-rollback counter to a verified image's SVN when that image has RAISE set. R433. -/
  | antiRollbackRaise
deriving DecidableEq, Repr

end Sys2Proof
end

