-- ==== Sys2Proof/Machine/State.lean ====
section
/-!
DEFINITION. The state of the module as plain data: everything the spec gives the machine (INVENTORY.md, section State),
the reasons a step can stop, and the state after reset (18 R431; the values that the spec does not give are those of
log entries 2 to 5 and 8).
-/

namespace Sys2Proof.Machine

/-- Why a step stops with a fault. Every fault the spec describes (16 R405) is a next state: the record is written
and the harness enters its supervisor. -/
inductive Fault where
  /-- The module has halted: boot stage 1 refused the firmware image (18 R431). Raised by `step` alone, in every state
  whose `boot.halted` is set, unless a reset is the next event. Safe: the spec says the module halts. -/
  | moduleHalted
deriving DecidableEq, Repr

/-- Why a step is refused. -/
inductive Refusal where
  /-- An instruction without a meaning in this model. Raised by an arm of `exec`; safe. -/
  | notModelled (mnemonic : String)
deriving DecidableEq, Repr

/-- The two modules (00 R2). -/
inductive Variant where
  | m4 | m2
deriving DecidableEq, Repr

/-- A file of wide registers: one chunk of bytes per register, in a keyed list. An unlisted chunk reads zero while
`epoch` is 0, and otherwise the unspecified bytes of that epoch (01 R17, R41; log entries 2 and 7). -/
structure RegFile where
  epoch : Nat := 0
  chunks : Table (List Byte) := []
deriving DecidableEq, Repr

/-- A branch whose delay slot is the next word to issue (06 R172, R173). -/
structure DelaySlot where
  branch : Word
  target : Word
  taken : Bool
deriving DecidableEq, Repr

/-- A valid leaf translation: first address of the page, log2 of its size, the table entry (16 R389, R390). It stands
in a translation cache (R392) and in the pins of a buffer record or packet (R394, R396). -/
structure Leaf where
  va : Nat
  sz : Nat
  entry : Word
deriving DecidableEq, Repr

/-- Where an access of the sequencer lands, after its checks: memory by key, or a privileged register (14 R349). -/
inductive Place where
  | mem (key : Nat)
  | reg (n : Nat)
deriving DecidableEq, Repr

/-- A load waiting in the load queue (04 R107, 06 R174): destination, place, size in bytes, sign extension, scoreboard
slot, the separations that stood before it, and the pointer it used. -/
structure LoadReq where
  d : BitVec 6
  place : Place
  size : Nat
  sext : Bool
  sb : Nat
  epoch : Nat
  ptr : Word
deriving DecidableEq, Repr

/-- A load that its tower bank has served, on its way back: register, value, scoreboard slot, separations before it, and the
cycle in which it returns (02 R49). -/
structure LoadBack where
  d : BitVec 6
  v : Word
  sb : Nat
  epoch : Nat
  at' : Nat
deriving DecidableEq, Repr

/-- A continuation record (01 R32). -/
structure Cont where
  launch : Word
  fp : Word
  join : Word
  aff : Word
deriving DecidableEq, Repr

/-- What a store in the store queue does when it performs (04 R107); a register's write has the level of its issue (14 R349). -/
inductive StoreWhat where
  | mem (key : Nat) (bytes : List Byte)
  | reg (n level : Nat) (v : Word)
  | spawn (c : Cont)
deriving DecidableEq, Repr

/-- A store waiting in the store queue. -/
structure StoreReq where
  what : StoreWhat
  sb : Nat
  epoch : Nat
deriving DecidableEq, Repr

/-- How far an instruction that takes several cycles has come (QPOST, BGBAR, PWRREQ, YIELD, NEND, TLBI ...): stage 0 is
an instruction not begun. -/
structure Progress where
  stage : Nat := 0
  v : Word := 0
  list : List Nat := []
  /-- it has met a consumption that raises no record (17 R424) -/
  muted : Bool := false
deriving DecidableEq, Repr

/-- The sequencer of a harness. -/
structure Seq where
  /-- g0-g63 (05 R132) -/
  g : Vector Word 64 := Vector.replicate 64 0
  /-- k0-k15 (05 R132); k0 is true -/
  k : Vector Bool 16 := (Vector.replicate 16 false).set 0 true
  /-- the S program counter (05 R131) -/
  pc : Word := 0
  /-- a branch whose delay slot comes next (06 R172) -/
  ds : Option DelaySlot := none
  /-- the module cycle from which a late result is usable (06 R161), by g register -/
  ready : Table Nat := []
  loadQ : List LoadReq := []
  storeQ : List StoreReq := []
  back : List LoadBack := []
  /-- registers that the instruction in issue writes in this cycle, if it issues (08 R276) -/
  inIssue : List (BitVec 6) := []
  /-- separations so far (04 R108) -/
  epoch : Nat := 0
  /-- how many incomplete instructions hold each scoreboard slot (04 R109); slot n is clear when its count is 0 -/
  sbn : Vector Nat 16 := Vector.replicate 16 0
  wait : Progress := {}
  /-- the instruction at pc has been stalled in issue -/
  stalled : Bool := false
  /-- the sequencer fetches and issues -/
  active : Bool := false
deriving DecidableEq, Repr

/-- The special registers of a harness (05 R133, 14 R351, R352). -/
structure Special where
  cur : BitVec 2 := 0
  prev : BitVec 2 := 0
  tvec : Word := 0
  fvec : Word := 0
  tscr0 : Word := 0
  tscr1 : Word := 0
  vflag : BitVec 6 := 0
  dflag : BitVec 6 := 0
  seed : Word := 0
  defgrp : BitVec 8 := 0
  frame : Word := 0
  /-- FRAMEGO issued in this cycle (06 R190) -/
  frameGo : Bool := false
  fref : Word := 0
  dalrt : Word := 0
  dboff : Word := 0
deriving DecidableEq, Repr

/-- An engine command: what EXEC captures (01 R16, 03 R78). -/
structure Cmd where
  age : Nat
  off : Nat
  a0 : Word
  a1 : Word
  a2 : Word
  a3 : Word
  timed : Bool
  stamp : Word
  k : BitVec 8
  seed : Word
  defgrp : BitVec 8
  /-- separations that stood before its EXEC: it starts once every access before the last of them has been performed
  (04 R117) -/
  sep : Nat := 0
  /-- ERET retired it unstarted (16 R401, ACTION 1): it begins no block -/
  dropped : Bool := false
deriving DecidableEq, Repr

/-- An active hardware loop (05 R149): counter, latched count, body as word offsets, T-engine step. -/
structure Loop where
  lv : Nat
  n : Nat
  first : Nat
  last : Nat
  se : Nat
  stride : BitVec 48
deriving DecidableEq, Repr

/-- A block in execution: its command, next word as an offset from the section base, engine cycle of its first issue,
ordinal J of R78, active loops (innermost first). -/
structure Block where
  cmd : Cmd
  pc : Nat
  start : Nat
  j : Nat := 0
  loops : List Loop := []
  /-- its words have been fetched (06 R188), from its offset on; words whose failed fetch is skipped (16 R401, ACTION 1) hold
  nothing -/
  fetched : Bool := false
  code : List (Option Nat) := []
  holes : List Nat := []
  /-- its word in issue has met a consumption that raises no record (17 R424) -/
  muted : Bool := false
deriving DecidableEq, Repr

/-- One part of a result that becomes visible (01 R25). -/
inductive Eff where
  | v (cell reg off : Nat) (bytes : List Byte)
  /-- bits 3:0 of one byte of a v register -/
  | vlo (cell reg off nib : Nat)
  | s (cell slot off : Nat) (bytes : List Byte)
  | a (cell acc off : Nat) (bytes : List Byte)
  /-- a DMMA adds its sums, one per element, to an accumulator (or to zero), as FP32 or as INT32 (03 R88, R90) -/
  | mac (cell acc : Nat) (zf : Bool) (sums : List Num.Val)
  | maci (cell acc : Nat) (zf : Bool) (sums : List Int)
  | smem (cell off : Nat) (bytes : List Byte)
  | vc (i : BitVec 4) (w : Word)
  | dc (i : BitVec 4) (w : Word)
  | te (i : BitVec 4) (w : BitVec 48)
  | vl (n : BitVec 12)
  | g (i : BitVec 6) (w : Word)
  | vflag (f : BitVec 6)
  | dflag (f : BitVec 6)
  | fillV (r : Nat)
  | fillS (r : Nat)
  | fillA (r : Nat)
  /-- the engine cycle of a v or s register's fill that other engines have had already (01 R26) -/
  | outV (r : Nat)
  | outS (r : Nat)
  | claim (mask : BitVec 32)
  | release (mask : BitVec 32)
  | dpos (p : Nat) (pos : BitVec 128)
  | dtab (slot : Nat) (valid : Bool) (bytes : List Byte)
deriving DecidableEq, Repr

/-- What kind of result without fixed latency a result is (05 R153, R449). -/
inductive Async where
  | load | decode | table | seek
deriving DecidableEq, Repr

/-- When a result becomes visible: in an engine cycle, or without fixed latency. -/
inductive Due where
  | cycle (n : Nat)
  | free (k : Async)
deriving DecidableEq, Repr

/-- A result in flight: the age of its block, when it becomes visible, its parts; for a decode, its position, its table
slot, its barrier object and the bytes still to subtract (10 R325, 04 R444). -/
structure Pend where
  age : Nat
  due : Due
  effs : List Eff
  pos : Nat := 0
  tslot : Nat := 0
  bar : Option Word := none
  /-- the address that names that object -/
  barAddr : Word := 0
  bytes : Nat := 0
  /-- word offset of its instruction -/
  epc : Nat := 0
  /-- an address of space 4 that its data comes from, whose link must be up as it arrives; it has been found down (18 R430) -/
  via : Option Word := none
  lost : Bool := false
  /-- cycles for which its engine has stood still in full/empty waits while another engine may take its fill -/
  lag : Nat := 0
deriving DecidableEq, Repr

/-- An engine of a harness (01 R14-R29). -/
structure EngSt where
  queue : List Cmd := []
  blk : Option Block := none
  /-- commands whose end instruction has issued and that have not retired, oldest first -/
  ended : List Cmd := []
  /-- completion sequence counter (01 R21) -/
  ctr : BitVec 32 := 0
  /-- engine cycle (01 R26) -/
  cyc : Nat := 0
  /-- first engine cycle in which the next word may issue (occupancy, 01 R25) -/
  busy : Nat := 0
  pend : List Pend := []
  lc : Vector (BitVec 32) 4 := Vector.replicate 4 0
  /-- the pipeline is stalled in this cycle -/
  stalled : Bool := false
  /-- the next word takes the effect of a false guard (16 R401, ACTION 1) -/
  skip : Bool := false
  /-- bytes of a TBARR still to subtract after a fault of it (04 R444) -/
  tbLeft : Option Nat := none
  /-- the block fault recorded is that of a decode's barrier subtraction (04 R444) -/
  late : Bool := false
  /-- the array of the dot engine is occupied up to this engine cycle (08 R246) -/
  array : Nat := 0
  /-- tower beats of the word in issue that its banks have served, and whether each activated its row (02 R49) -/
  rows : List (Nat × Bool) := []
deriving DecidableEq, Repr

/-- A buffer record as a command issued at age `from` or later sees it (02 R52, R59, 06 R196): four words, NR of 01 R43,
pins. -/
structure BufRec where
  fromAge : Nat
  loaded : Bool
  w0 : Word := 0
  w1 : Word := 0
  w2 : Word := 0
  w3 : Word := 0
  nr : Bool := false
  pins : List Leaf := []
  /-- tells this load's pins from those of another (16 R393) -/
  pinId : Nat := 0
deriving DecidableEq, Repr

/-- A block fault or a freeze-owner halt that has frozen the harness and not yet entered the supervisor
(16 R398-R400). -/
structure BFault where
  cls : Nat
  code : Nat
  eng : Nat
  age : Nat := 0
  sq : BitVec 32 := 0
  boff : Nat := 0
  epc : Nat := 0
  lc01 : Word := 0
  lc23 : Word := 0
  status : Word := 0
  addr : Word := 0
  kind : Nat := 0
  level : Nat := 0
  acc : Nat := 0
  arg : Nat := 0
  fmcc : Word := 0
  fframe : Word := 0
  /-- the level at which it was raised (16 R406) -/
  plvl : Nat := 0
deriving DecidableEq, Repr

/-- A group membership of a harness (06 R183, R185). -/
structure Member where
  /-- arrived at an instance that has not completed -/
  arrived : Bool := false
  /-- that arrival was made by the node now running -/
  own : Bool := false
  queue : List Word := []
  overrun : Bool := false
deriving DecidableEq, Repr

/-- An express message: channel, source rank, the 16 cells' data (08 R267, R268). -/
structure XMsg where
  chan : Nat
  src : Nat
  data : List (List Byte)
deriving DecidableEq, Repr

/-- The states of a tower bank (17 R421). -/
inductive BankSt where
  | serve | act | backoff | refresh | forced
deriving DecidableEq, Repr

/-- A request that waits for a tower bank (02 R50): who makes it, its class (0 an engine of the harness, 1 its sequencer,
2 the express network), the cycle in which it reached the bank, the last cycle in which it was made, and whether it is
made under placement policy 2 (R56). -/
structure BankReq where
  who : Nat
  cls : Nat
  arr : Nat
  seen : Nat
  hold : Bool
deriving DecidableEq, Repr

/-- A beat of a copy packet that waits at a tower bank (02 R50): its row, whether the row is closed after it (R56), the cycle in
which it reached the bank, and its packet. -/
structure Posted where
  row : Nat
  close : Bool
  arr : Nat
  who : PktId
deriving DecidableEq, Repr

/-- A tower bank: open row, state, first cycle after the state's work, deadline, activation counters by physical row,
the requests that wait for it, and the beats of copy packets that it has still to serve (02 R49, R50, R56, R63, R67; 17 R421,
R422). -/
structure Bank where
  row : Option Nat := none
  st : BankSt := .serve
  till : Nat := 0
  deadline : Nat := 28200000000
  ctr : Table Nat := []
  wait : List BankReq := []
  late : List Posted := []
deriving DecidableEq, Repr

/-- A TREF in progress or waiting (06 R199): banks not yet begun, the bank in progress, its scoreboard slot, and the banks
of cells that a forced refresh has done for it (02 R66). -/
structure Tref where
  left : List Nat
  bank : Option Nat
  sb : Nat
  forced : List Nat := []
deriving DecidableEq, Repr

/-- A running node: its continuation and launch records, its entry's GID, its serial number, its gang, the watchdog
count, bytes for TBARR, and the spawned records held under 17 R417, each with the cycle of its hand-over. -/
structure Node where
  cont : Cont
  launch : Packet
  gid : Option Nat
  nid : Nat
  gang : Option Nat := none
  count : Nat := 0
  tbytes : Nat := 0
  held : List (Nat × Cont) := []
  /-- 1 once its context is saved, 2 once its NEND has begun to enqueue and to decrement -/
  ending : Nat := 0
  /-- successors that its NEND has still to decrement; those it has decremented, and the records it has enqueued, by die and
  sq: an abort takes back what has not run (17 R416, R417) -/
  succ : List Nat := []
  gone : List Nat := []
  sent : List (Nat × Nat) := []
deriving DecidableEq, Repr

/-- What a harness does when it runs no node. -/
inductive Mode where
  | idle
  | run
  | held (gang : Nat)
  /-- scan test from its begin cycle to its end cycle (15 R385) -/
  | test (began till : Nat)
deriving DecidableEq, Repr

/-- The scheduling side of a harness. -/
structure Ctl where
  mode : Mode := .idle
  node : Option Node := none
  /-- chosen for a self-test drain (15 R385) -/
  draining : Bool := false
  fencing : Bool := false
  fenced : Bool := false
  /-- returned by FENCE in this cycle: eligible from the next one (15 R386) -/
  back : Bool := false
  retired : Bool := false
  halted : Bool := false
  /-- pre-emption line (15 R378) and changes on their way: the cycle they arrive and the new value -/
  line : Bool := false
  lineChg : List (Nat × Bool) := []
  /-- the drain raised the line -/
  drainLine : Bool := false
  pwr : Nat := 0
  /-- engines and FRAME are frozen (01 R27) -/
  frozen : Bool := false
  bf : Option BFault := none
  /-- freeze-owner halts that wait while another record is handled, oldest first (16 R406) -/
  owner : List BFault := []
  /-- the cycle in which frozen engines and the sequencer continue (16 R401) -/
  resume : Option Nat := none
  /-- the harness starts or goes on with the next cycle: FRAME, pipelines and watchdog do not count in this one -/
  begun : Bool := false
  /-- gang abort: the cycle, or at the next ERET when it passed at S (17 R415) -/
  abort : Option Nat := none
  /-- code of a message for which an interrupt entry is due (14 R348) -/
  intr : Option Nat := none
  /-- number of commands issued to any engine since node start (01 R19) -/
  issued : Nat := 0
deriving DecidableEq, Repr

/-- A harness (01). -/
structure Harness where
  seq : Seq := {}
  sp : Special := {}
  ctl : Ctl := {}
  ve : EngSt := {}
  de : EngSt := {}
  te : EngSt := {}
  /-- scalar registers of V and D, address registers of T (05 R132) -/
  vc : Vector Word 16 := Vector.replicate 16 0
  dc : Vector Word 16 := Vector.replicate 16 0
  e : Vector (BitVec 48) 16 := Vector.replicate 16 0
  vl : BitVec 12 := 0
  /-- v, s, a registers of 16 cells, scale memory (05 R132, 01) -/
  v : RegFile := {}
  s : RegFile := {}
  a : RegFile := {}
  smem : RegFile := {}
  /-- full/empty bits (01 R22) -/
  feV : BitVec 64 := 0
  feS : BitVec 32 := 0
  feA : BitVec 8 := 0
  /-- slot claims (08 R241) -/
  claim : BitVec 32 := 0
  /-- decoder positions (01 R44) and table slots (10 R316) -/
  dpos : Vector (BitVec 128) 4 := Vector.replicate 4 0
  dtab : Table (List Byte) := []
  tvalid : BitVec 8 := 0
  /-- buffer records, newest version first (02 R52) -/
  recs : Table (List BufRec) := []
  /-- inbound edge buffers N, E, S, W (08 R266) -/
  edge : Vector (Option (List (List Byte))) 4 := Vector.replicate 4 none
  xmsg : List XMsg := []
  /-- group memberships (06 R183) -/
  bg : Table Member := []
  tlb : List Leaf := []
  /-- tower banks by 16 * cell + bank; deadline of an unlisted one -/
  banks : Table Bank := []
  dl0 : Nat := 28200000000
  tref : List Tref := []
  /-- the first cycle in which the sequencer issues again after a blocking access to a tower (02 R49) -/
  reply : Nat := 0
  /-- remap tables (17 R418, R419); row entries by 16 * physical cell + bank -/
  cellMap : BitVec 128 := 0x7b9ac5a928398a418820
  rowMap : Table (List (BitVec 16)) := []
deriving DecidableEq, Repr

/-- The state of an accepted packet (09 R281). -/
inductive PktSt where
  /-- every check passed, not yet run -/
  | ready
  /-- a collective waiting for its instance -/
  | waiting
  /-- a collective whose instance has begun -/
  | begun
  /-- ended with a status and detail; completion actions not made, beginning at the given one -/
  | ended (status detail stage : Nat)
  /-- halted with a status at a unit -/
  | halted (status unit : Nat)
deriving DecidableEq, Repr

/-- A resource-table entry as latched: a record of 02 R52 with its permissions. -/
structure Entry where
  w0 : Word
  w1 : Word
  w2 : Word
  w3 : Word
  w4 : Word
deriving DecidableEq, Repr

/-- Who posted a packet (09 R307): a harness and its node's serial number, the host, or nobody known. -/
inductive Poster where
  | harness (rank nid : Nat)
  | host
  | peer
  | other
deriving DecidableEq, Repr

/-- An accepted packet (09 R281, R286). -/
structure Pkt where
  id : PktId
  c : Packet
  poster : Poster
  st : PktSt
  /-- operands in order of the packet's words, as latched -/
  ops : List Entry := []
  pins : List Leaf := []
  /-- stencil-weight table, as latched -/
  data : List Byte := []
  /-- the participants of a collective instance that has begun -/
  mates : List PktId := []
  /-- first output unit not yet written (09 R306) -/
  unit : Nat := 0
  /-- codes of the outputs formed so far, in output order, none where an input could not be read; kept for the rest of a
  collective and for a retry (09 R302, R308) -/
  vals : List (Option (List Nat)) := []
  /-- what a participant of a CRED brings, per element: its input and its contribution, as latched (09 R302, R308); and the
  source bytes of one of a CGATH -/
  brought : List (Option (Num.Val × Num.Val)) := []
  source : List (Option Nat) := []
  /-- payload bytes written, for the barrier subtraction -/
  bytes : Nat := 0
  /-- the status of the halt that a failed completion action of its own brings (09 R453) -/
  stuck : Option Nat := none
  /-- that halt's status stands in its status word (09 R306) -/
  restate : Bool := false
  /-- its beats are on their way to tower banks, which it waits for (02 R50) -/
  asked : Bool := false
  /-- the ranges of space 0 that its pins cover, high ends excluded (16 R396) -/
  ranges : List (Int × Int) := []
deriving DecidableEq, Repr

/-- A watch entry and what the die latched from the header (14 R361, 09 R279). -/
structure Cew where
  en : Bool := false
  halt : Bool := false
  ref : Bool := false
  hdr : Nat := 0
  sz : Nat := 0
  rtbase : Word := 0
  stbase : Word := 0
  ownpart : Nat := 0
  ownrank : Nat := 0
  /-- number of packets accepted -/
  acc : Nat := 0
  /-- done sequence, and indices at or above it that have ended -/
  done : Nat := 0
  late : List Nat := []
  /-- the packet whose halt stands (09 R306, R453) -/
  bad : Option Nat := none
  /-- partition whose space 0 the queue's addresses name -/
  part : Nat := 0
  /-- the model's number of this entering of the queue -/
  ent : Nat := 0
  /-- its header could not be read as it was entered (09 R453) -/
  unread : Bool := false
deriving DecidableEq, Repr

/-- The states of a node-table entry (15 R370). -/
inductive EntSt where
  | waiting | ready | running
deriving DecidableEq, Repr

/-- An entry of the node table that is not FREE (15 R369). -/
structure NodeEnt where
  cont : Cont
  ctr : Nat
  succ : List Nat
  st : EntSt
deriving DecidableEq, Repr

/-- A record of a ready queue with its latched launch record (15 R372, 14 R364). -/
structure Ready where
  cont : Cont
  launch : Packet
  gid : Option Nat
  u : Nat
  sq : Nat
  /-- the node was saved at YIELD and resumes -/
  saved : Bool
  /-- the record is a replay (17 R414) -/
  replay : Bool := false
  /-- held on chip rather than in the spill ring, and its slot there (15 R376) -/
  chip : Bool := true
  slot : Nat := 0
  gang : Option Nat := none
  /-- records that a replayable node handed to SPAWN before it was saved, by rank (17 R417) -/
  held : Table (List (Nat × Cont)) := []
deriving DecidableEq, Repr

/-- What waits for an enqueue (15 R377). -/
inductive Waiter where
  | spawn (rank : Nat)
  | yield (rank : Nat)
  | nend (rank : Nat)
  | cmd (die : Nat)
  /-- the DEC command of a die -/
  | dec (die : Nat)
  | none
deriving DecidableEq, Repr

/-- A die's work scheduler (15). -/
structure Sched where
  tab : Table NodeEnt := []
  ready : List Ready := []
  /-- records enqueued so far -/
  sq : Nat := 0
  /-- enqueues that wait for space (15 R377), oldest first -/
  late : List (Ready × Waiter) := []
  /-- parameter block in force (15 R365) -/
  agep : Nat := 0
  pdelta : Nat := 0
  spbase : Word := 0
  spsz : Nat := 0
  /-- command queue: entered, log2 of slots, status ring, commands executed -/
  cen : Bool := false
  /-- the block whose queue was entered last (15 R366), and the first cycle in which the next command may begin (15 R388) -/
  cbase : Nat := 0
  cnext : Nat := 0
  csz : Nat := 0
  cst : Word := 0
  cidx : Nat := 0
  /-- status of a command that still waits for its enqueue -/
  cwait : Option Nat := none
  /-- lines raised automatically for a ready record: its sq and the rank (15 R379) -/
  auto : List (Nat × Nat) := []
  /-- self-test rotation: next harness number, drain in progress, cycle of the next drain (15 R385) -/
  next : Nat := 0
  drain : Option Nat := none
  due : Nat := 47000000
deriving DecidableEq, Repr

/-- A die's power governor (15 R381, R382): units in use, waiting requests (rank, class, arrival), units returned with
the cycle from which they are free. -/
structure Gov where
  used : Nat := 0
  queue : List (Nat × Nat × Nat) := []
  freed : List (Nat × Nat) := []
deriving DecidableEq, Repr

/-- A compute die. -/
structure Die where
  tdmt : BitVec 12 := 1000
  rguard : BitVec 32 := 188000000
  rperiod : BitVec 36 := 28200000000
  cew : Table Cew := []
  /-- queues that have left their watch entries, by entry, while packets of theirs run to their end (14 R361) -/
  old : List (Nat × Cew) := []
  pkts : List Pkt := []
  /-- participants of collective instances that have ended before others of their instance (09 R308) -/
  spent : List Pkt := []
  /-- the watch entry served last (09 R281) -/
  lastCew : Nat := 63
  sched : Sched := {}
  gov : Gov := {}
  /-- TCE, TUE, HCE, HUE, CONS, ABRT, RPLY, SPCELL, SPROW (17 R411) -/
  cnt : Vector Word 9 := Vector.replicate 9 0
deriving DecidableEq, Repr

/-- An entry of a latched group table (14 R356). -/
structure Group where
  members : BitVec 512
  span : Bool
deriving DecidableEq, Repr

/-- A checkpoint record that is provisional (15 R387): its address, pending ranks, cycle of its mark. -/
structure Ckpt where
  addr : Word
  pending : BitVec 512
  mark : Nat
deriving DecidableEq, Repr

/-- A partition's registers (14 R353-R358) and what hardware keeps for it. -/
structure Part where
  slip : BitVec 4 := 8
  wdog : Word := 0
  rtlim : BitVec 21 := 0
  gtbase : Word := 0
  gtAct : Bool := false
  gtPend : Bool := false
  gtCode : BitVec 6 := 0
  gtEntry : BitVec 8 := 0
  xlroot : Word := 0
  share : BitVec 16 := 0
  pmax : BitVec 16 := 0
  suprank : BitVec 9 := 0
  groups : Table Group := []
  dirty : BitVec 512 := 0
  ckpts : List Ckpt := []
deriving DecidableEq, Repr

/-- A gang that is armed or has started (15 R375, 01 R37, R40). -/
structure Gang where
  id : Nat
  part : Nat
  die : Nat
  record : Ready
  members : List Nat
  held : List Nat := []
  /-- cycle of the start, once every member is held -/
  start : Option Nat := none
  started : Bool := false
  /-- members that have not ended, and those that wait at a YIELD with their line high -/
  live : List Nat := []
  atYield : List Nat := []
  saving : Bool := false
deriving DecidableEq, Repr

/-- A send waiting to depart, or on the wire with its delivery cycle (06 R184). -/
structure Send where
  part : Nat
  group : Nat
  rank : Nat
  v : Word
  cycle : Nat
deriving DecidableEq, Repr

/-- The Bugle (06 R181-R187): arrivals of open barrier instances by group key, waiting sends in order of issue, sends on
the wire. -/
structure Bugle where
  arrive : Table (List (Nat × Nat)) := []
  sends : List Send := []
  wire : List Send := []
  /-- BGTIMEs of this cycle, with rank, group and register: their values depend on every send of the cycle (06 R186) -/
  asks : List (Nat × Nat × BitVec 6) := []
deriving DecidableEq, Repr

/-- One direction pair of a peer link (18 R428). -/
structure Link where
  rxSeq : BitVec 12 := 0
  txSeq : BitVec 12 := 0
  acked : BitVec 12 := 0
  replay : List (List Byte) := []
  /-- how often in a row each flit was refused, by SEQ -/
  refused : Table Nat := []
  /-- payloads delivered in order -/
  rx : List (Nat × List Byte) := []
  /-- payloads to be sent, with their kinds; flits sent -/
  out : List (Nat × List Byte) := []
  tx : List (List Byte) := []
deriving DecidableEq, Repr

/-- A verified supervisor image in the firmware's cache (18 R434). -/
structure SupImage where
  part : Nat
  svn : Nat
  body : List Byte
  entry : Nat
deriving DecidableEq, Repr

/-- How far the module has booted (18 R431). -/
structure Boot where
  stage : Nat := 0
  halted : Bool := false
  /-- status reported on the control port -/
  status : Nat := 0
deriving DecidableEq, Repr

/-- What the host has seen: replies to its accesses and forwarded messages (18 R425, R427). -/
inductive HostMsg where
  | data (bytes : List Byte)
  | done
  | failed
  | msg (words : List Word)
  | loader (status : Nat)
deriving DecidableEq, Repr

/-- A memory controller's poison record, newest first, and quarantine list (17 R410). -/
structure Hbm where
  recs : List Nat := []
  quar : List Nat := []
  /-- an entry has been freed and the words of R411 have still to be written -/
  stale : Bool := false
deriving DecidableEq, Repr

/-- Whose turn it is within a cycle (log entry 5, DESIGN CHOICE). -/
inductive Phase where
  | t | d | v | seq | mem | dev | tick
deriving DecidableEq, Repr

/-- The state of the module. -/
structure State where
  variant : Variant
  /-- MCC (05 R133) -/
  mcc : Word
  /-- memory by key: HBM physical addresses, tower space-2 pointers, host and peer pointers (log entry 3, DESIGN CHOICE) -/
  mem : List Host.Cell
  /-- poisoned granules by key / 64; granules with a latent error, true for uncorrectable (17 R407) -/
  poison : List Nat
  latent : Table Bool
  hbm : Table Hbm
  hs : Table Harness
  dies : Table Die
  parts : Table Part
  partmap : BitVec 8
  partmapNew : Option (BitVec 8)
  ppbind : Table Word
  links : Table Link
  bugle : Bugle
  gangs : List Gang
  /-- express messages and edge data on their way: destination rank (and side) (08 R266-R269) -/
  xfly : List (Nat × XMsg)
  efly : List (Nat × Nat × List (List Byte))
  /-- who wrote the word at a key last, for sequence tags (09 R307) -/
  tagger : Table Poster
  fuses : Nat
  rootDigest : BitVec 512
  boot : Boot
  supCache : List SupImage
  /-- the signed bytes of the image under which each partition's supervisor runs (18 R441) -/
  supSigned : Table (List Byte)
  /-- first free resource index and generations the loader keeps (18 R438) -/
  loadGen : Table (Nat × Nat)
  hostOut : List HostMsg
  consoleOut : List (Nat × Byte)
  /-- bytes that wait at the host side of the console (18 R426) -/
  consoleIn : List (Nat × Byte)
  /-- partitions whose loader waits for GTSTAT.PEND to clear (18 R439) -/
  loadWait : List Nat
  /-- failed physical cells that scan tests have found since the last boot, by rank (17 R420) -/
  scanLog : List (Nat × Nat)
  /-- the model's own: serial numbers, free-value counter, turn, events given from outside, subject of the event -/
  nid : Nat
  freeCtr : Nat
  cur : Nat
  phase : Phase
  agenda : List (Instr × Arg)
  /-- ranks whose turn comes after the others' in this cycle, each with the owner of the tower that it goes to, and whether
  that time has come (log entry 5) -/
  later : List (Nat × Nat)
  second : Bool
  ev : Arg
deriving DecidableEq, Repr

/-- The outcome of a step or of an instruction. -/
abbrev Out := Host.Outcome State Fault Refusal

/-- The machine right after reset (18 R431 and the Reset columns of 14; log entries 2 to 5). -/
def State.reset : State where
  variant := .m4
  mcc := 0
  mem := []
  poison := []
  latent := []
  hbm := []
  hs := []
  dies := []
  parts := []
  partmap := 0
  partmapNew := none
  ppbind := []
  links := []
  bugle := {}
  gangs := []
  xfly := []
  efly := []
  tagger := []
  fuses := 0
  rootDigest := 0
  boot := {}
  supCache := []
  supSigned := []
  loadGen := []
  hostOut := []
  consoleOut := []
  consoleIn := []
  loadWait := []
  scanLog := []
  nid := 0
  freeCtr := 0
  cur := 0
  phase := .seq
  agenda := []
  later := []
  second := false
  ev := {}

end Sys2Proof.Machine
end

