-- ==== Sys2Proof/Machine/Ops.lean ====
section
/-!
DEFINITION. The named operations over the state: registers, memory in its canonical form, poison, pointer checks
(02 R45-R48), translation (16 R389-R395), interrupt messages (R404), taking an exception (14 R346, 16 R397-R400) and the
return from one (R401).
-/

namespace Sys2Proof.Machine

/-! Registers of the sequencer (05 R132): the one place that reads and writes them. -/

/-- g(r); g0 reads zero. -/
def Seq.rg (q : Seq) (r : BitVec 6) : Word := if r = 0 then 0 else q.g[r.toNat]'(r.isLt)

/-- g(r) ← v; a write naming g0 is discarded (R138). -/
def Seq.wg (q : Seq) (r : BitVec 6) (v : Word) : Seq := if r = 0 then q else { q with g := q.g.set r.toNat v r.isLt }

/-- k(r); k0 reads true. -/
def Seq.rk (q : Seq) (r : BitVec 4) : Bool := if r = 0 then true else q.k[r.toNat]'(r.isLt)

/-- k(r) ← v; a write naming k0 is discarded. -/
def Seq.wk (q : Seq) (r : BitVec 4) (v : Bool) : Seq := if r = 0 then q else { q with k := q.k.set r.toNat v r.isLt }

/-- The word that a g register number n + i names, for groups of registers. -/
def Seq.rgN (q : Seq) (n : Nat) : Word := q.rg (BitVec.ofNat 6 n)

/-- The program counter after the instruction at pc, delay slot included (06 R170-R172). -/
def Seq.advance (q : Seq) : Seq :=
  match q.ds with
  | none => { q with pc := q.pc + 4, wait := {}, stalled := false }
  | some d =>
    { q with pc := if d.taken then d.target else d.branch + 8, ds := none, wait := {}, stalled := false }

/-- One more incomplete instruction holds scoreboard slot n; slot 0 is none. -/
def Seq.setSb (q : Seq) (n : Nat) : Seq :=
  if n = 0 then q else { q with sbn := q.sbn.setIfInBounds n (q.sbn.getD n 0 + 1) }

/-- One instruction that holds slot n has completed. -/
def Seq.clearSb (q : Seq) (n : Nat) : Seq :=
  if n = 0 then q else { q with sbn := q.sbn.setIfInBounds n (q.sbn.getD n 0 - 1) }

/-! The parts of the state -/

/-- Number of harnesses (00 R1, R2). -/
def State.ranks (s : State) : Nat :=
  match s.variant with
  | .m4 => 512
  | .m2 => 256

/-- Number of compute dies. -/
def State.nDies (s : State) : Nat := s.ranks / 128

/-- One past the last HBM byte (16 R390). -/
def State.hbmTop (s : State) : Nat := s.nDies * (96 * 2 ^ 30)

/-- The harness of a rank. -/
def State.har (s : State) (r : Nat) : Harness := s.hs.getD r {}

/-- The state with another harness at a rank. -/
def State.setHar (s : State) (r : Nat) (h : Harness) : State := { s with hs := s.hs.set r h }

def State.modHar (s : State) (r : Nat) (f : Harness → Harness) : State := s.setHar r (f (s.har r))

def State.modSeq (s : State) (r : Nat) (f : Seq → Seq) : State := s.modHar r fun h => { h with seq := f h.seq }

def State.modCtl (s : State) (r : Nat) (f : Ctl → Ctl) : State := s.modHar r fun h => { h with ctl := f h.ctl }

def State.modSp (s : State) (r : Nat) (f : Special → Special) : State := s.modHar r fun h => { h with sp := f h.sp }

/-- The die of a rank (01 R12). -/
def dieOf (r : Nat) : Nat := r / 128

def State.die (s : State) (d : Nat) : Die := s.dies.getD d {}

def State.setDie (s : State) (d : Nat) (x : Die) : State := { s with dies := s.dies.set d x }

def State.modDie (s : State) (d : Nat) (f : Die → Die) : State := s.setDie d (f (s.die d))

def State.modSched (s : State) (d : Nat) (f : Sched → Sched) : State :=
  s.modDie d fun x => { x with sched := f x.sched }

/-- The partition of a die (14 R362). -/
def State.partOfDie (s : State) (d : Nat) : Nat := field s.partmap.toNat (2 * d) 2

/-- The partition of a rank. -/
def State.partOf (s : State) (r : Nat) : Nat := s.partOfDie (dieOf r)

/-- The dies of a partition. -/
def State.diesOf (s : State) (p : Nat) : List Nat := (List.range s.nDies).filter fun d => s.partOfDie d == p

/-- The ranks of a partition, ascending. -/
def State.ranksOf (s : State) (p : Nat) : List Nat := (s.diesOf p).flatMap fun d => List.range' (128 * d) 128

/-- The registers of a partition that nothing has written: the Reset columns of 14 R353-R358
(DESIGN CHOICE, log entry 51). -/
def State.freshPart (s : State) (p : Nat) : Part :=
  let n := (s.diesOf p).length
  { share := BitVec.ofNat 16 (850 * n), pmax := BitVec.ofNat 16 (850 * n),
    suprank := BitVec.ofNat 9 (128 * ((s.diesOf p).head?.getD 0)) }

def State.part (s : State) (p : Nat) : Part := s.parts.getD p (s.freshPart p)

def State.modPart (s : State) (p : Nat) (f : Part → Part) : State :=
  { s with parts := s.parts.set p (f (s.part p)) }

/-- A fresh serial number of the model's free values (log entry 6, DESIGN CHOICE). -/
def State.fresh (s : State) : State := { s with freeCtr := s.freeCtr + 1 }

/-- Whether a rank runs a node. -/
def Harness.running (h : Harness) : Bool := h.ctl.node.isSome

/-- Field n of a 64-bit word. -/
def wf (w : Word) (lo n : Nat) : Nat := field w.toNat lo n

/-- The list without its first element that satisfies `f`. -/
def dropFirst {α : Type} (f : α → Bool) : List α → List α
  | [] => []
  | x :: t => if f x then t else x :: dropFirst f t

/-- The list without one occurrence. -/
def eraseOne {α : Type} [DecidableEq α] (x : α) : List α → List α
  | [] => []
  | y :: t => if y = x then t else y :: eraseOne x t

/-! Register files of 16 cells. A chunk is one register of one cell. -/

/-- The bytes of a chunk of `size` bytes that nothing has written. -/
def RegFile.blank (epoch key size : Nat) : List Byte :=
  if epoch = 0 then List.replicate size 0 else (List.range size).map fun i => Config.freeByte epoch (key * size + i)

/-- The chunk at a key: always `size` bytes. -/
def RegFile.get (f : RegFile) (key size : Nat) : List Byte :=
  match f.chunks.find key with
  | some bs => (bs ++ List.replicate (size - bs.length) 0).take size
  | none => RegFile.blank f.epoch key size

/-- Bytes put into a list at an offset. -/
def splice (old : List Byte) (off : Nat) (new : List Byte) : List Byte :=
  old.take off ++ new ++ old.drop (off + new.length)

def RegFile.put (f : RegFile) (key size off : Nat) (bytes : List Byte) : RegFile :=
  { f with chunks := f.chunks.set key ((splice (f.get key size) off bytes).take size) }

/-- v(r) of a cell: 2048 bytes (05 R132). -/
def Harness.vget (h : Harness) (cell r : Nat) : List Byte := h.v.get (64 * cell + r) 2048

/-- s(r) of a cell: 2048 bytes. -/
def Harness.sget (h : Harness) (cell r : Nat) : List Byte := h.s.get (32 * cell + r) 2048

/-- a(r) of a cell: 4096 bytes. -/
def Harness.aget (h : Harness) (cell r : Nat) : List Byte := h.a.get (8 * cell + r) 4096

/-- The scale memory of a cell: 1024 entries of two bytes. -/
def Harness.smget (h : Harness) (cell : Nat) : List Byte := h.smem.get cell 2048

/-! Memory (log entry 3, DESIGN CHOICE): one list of cells in canonical form. -/

/-- The byte at a key; an unlisted key reads zero. -/
def memGet (m : List Host.Cell) (k : Nat) : Byte := (Table.find m k).getD 0

/-- The memory with byte b at key k; a zero byte is not listed. -/
def memSet (m : List Host.Cell) (k : Nat) (b : Byte) : List Host.Cell :=
  if b = 0 then Table.erase m k else Table.set m k b

/-- n bytes from key k upward. -/
def memRead (m : List Host.Cell) : Nat → Nat → List Byte
  | _, 0 => []
  | k, n + 1 => memGet m k :: memRead m (k + 1) n

/-- Bytes written from key k upward. -/
def memWrite (m : List Host.Cell) : Nat → List Byte → List Host.Cell
  | _, [] => m
  | k, b :: t => memWrite (memSet m k b) (k + 1) t

/-- The canonical form: keys strictly rising, no zero byte listed (DESIGN CHOICE, log entry 3). -/
def memWf (m : List Host.Cell) : Bool := Table.sorted m && m.all fun c => c.2 != 0

/-- The key of tower byte `off` of a rank: the space-2 pointer (DESIGN CHOICE, log entry 3). -/
def towerKey (r off : Nat) : Nat := 2 * 2 ^ 60 + r * 2 ^ 48 + off

def isHbm (k : Nat) : Bool := decide (k < 2 ^ 48)

def isTower (k : Nat) : Bool := k / 2 ^ 60 == 2

/-- The rank that owns a tower key. -/
def towerRank (k : Nat) : Nat := field k 48 12

/-! Failures of an access -/

/-- A failed access: code of 16 R405, faulting pointer, translation kind and level of R391/R398, access code. -/
structure Fail where
  code : Nat
  addr : Word := 0
  kind : Nat := 0
  level : Nat := 0
  acc : Nat := 0
  /-- engine status word bits 63:16, as R399, R324 give -/
  hi : Nat := 0
  /-- a key of the granule that was consumed on the way -/
  gran : Option Nat := none
deriving DecidableEq, Repr

/-- The codes of 16 R405. -/
def cOK : Nat := 0x00
def cUNSUPPORTED : Nat := 0x01
def cBAD_PACKET : Nat := 0x02
def cBAD_SCOPE : Nat := 0x03
def cBAD_FORMAT : Nat := 0x04
def cSTALE_HANDLE : Nat := 0x05
def cNO_PERMISSION : Nat := 0x06
def cBAD_BUFREC : Nat := 0x07
def cBAD_ADDRESS : Nat := 0x08
def cBAD_SPACE : Nat := 0x09
def cBOUNDS : Nat := 0x0A
def cXLATE_FAULT : Nat := 0x0B
def cBAD_GRID : Nat := 0x0C
def cBAD_TABLE : Nat := 0x0D
def cEB_CORRUPT : Nat := 0x0E
def cEB_OVERRUN : Nat := 0x0F
def cBAD_COLL : Nat := 0x10
def cBAR_OVERFLOW : Nat := 0x11
def cXLATE_HALT : Nat := 0x20
def cPOISON : Nat := 0x21
def cMEM_ERROR : Nat := 0x22
def cILLEGAL_INSTR : Nat := 0x30
def cPRIV_INSTR : Nat := 0x31
def cPRIV_SPACE : Nat := 0x32
def cMISALIGNED : Nat := 0x33
def cREAD_ONLY : Nat := 0x34
def cBAD_SCALE_PLANE : Nat := 0x35
def cVL_RANGE : Nat := 0x36
def cLOOP_NEST : Nat := 0x37
def cSLOT_STATE : Nat := 0x38
def cSLOT_ALIAS : Nat := 0x39
def cSCALE_RANGE : Nat := 0x3A
def cBG_NOT_MEMBER : Nat := 0x3B
def cBG_OVERRUN : Nat := 0x3C
def cBAD_QUEUE : Nat := 0x3D
def cSPARSE_OVERRUN : Nat := 0x50
def cSPARSE_FORMAT : Nat := 0x51
def cLEAVE_FAULT : Nat := 0x60
def cSCHED_MISS : Nat := 0x61
def cWDOG_EXPIRE : Nat := 0x62
def cDISTURB_ALERT : Nat := 0x63
def cTRAP : Nat := 0x64
def cBREAK : Nat := 0x65
def cBAD_CONTEXT : Nat := 0x68
def cBAD_RECORD : Nat := 0x70
def cNO_ELIGIBLE : Nat := 0x71
def cENTRY_BUSY : Nat := 0x72
def cPRED_UNDERFLOW : Nat := 0x73
def cREADY_OVERFLOW : Nat := 0x74
def cNODE_RUNNING : Nat := 0x75
def cSELFTEST_FAIL : Nat := 0x76
def cCKPT_VOID : Nat := 0x77
def cCKPT_LIMIT : Nat := 0x78
def cLOAD_UNKNOWN_SECTION : Nat := 0x80
def cLOAD_GROUP_LIMIT : Nat := 0x81
def cBAD_GROUP : Nat := 0x82
def cGROUP_RANGE : Nat := 0x83
def cLOAD_BAD_SIGNATURE : Nat := 0x84
def cLOAD_ROLLBACK : Nat := 0x85
def cLOAD_CAPABILITY : Nat := 0x86
def cLOAD_FORMAT : Nat := 0x87
def cLOAD_GROUP_READ : Nat := 0x88

/-- Kinds of access as a fault record numbers them (16 R398). -/
def accRead : Nat := 0
def accWrite : Nat := 1
def accFetch : Nat := 2
def accAtomic : Nat := 3

/-! Pointers (02 R45) -/

def space (p : Word) : Nat := wf p 60 4
def owner (p : Word) : Nat := wf p 48 12
def offset (p : Word) : Nat := wf p 0 48

/-- A pointer of a space with an owner and an offset. -/
def mkPtr (sp own off : Nat) : Word := BitVec.ofNat 64 (sp * 2 ^ 60 + own * 2 ^ 48 + off)

/-! Translation (16 R389-R391) -/

/-- What an access needs of a leaf: permissions, and whether SUP refuses it. -/
structure Need where
  r : Bool := false
  w : Bool := false
  x : Bool := false
  ce : Bool := false
  sup : Bool := false
deriving DecidableEq, Repr

/-- The size of a leaf page at a walk level, as its log2. -/
def leafBits (level : Nat) : Nat := if level = 1 then 34 else if level = 2 then 25 else 16

/-- The controller of a granule of HBM, two to a die (17 R410; log entry 13, DESIGN CHOICE). -/
def State.hbmOf (s : State) (gr : Nat) : Nat := Config.hbmController gr % (2 * s.nDies)

/-- The frame of a key is quarantined, by whichever controller (17 R410). -/
def State.quarantined (s : State) (k : Nat) : Bool :=
  isHbm k && s.hbm.any fun kv => kv.2.quar.contains (k / 2 ^ 16)

/-- Whether the granule that holds a key delivers its bytes: none, or the code of the consumption (17 R407-R410). -/
def State.consumes (s : State) (k : Nat) : Option Nat :=
  let gr := k / 64
  if isHbm k then
    let c := s.hbm.getD (s.hbmOf gr) {}
    if s.quarantined k || c.recs.contains gr then some cPOISON
    else if s.latent.getD gr false then
      (if c.recs.length < 512 ∨ c.quar.length < 32 then some cPOISON else some cMEM_ERROR)
    else none
  else if s.poison.contains gr || s.latent.getD gr false then some cPOISON
  else none

/-- The first consumption among n bytes from key k. -/
def State.consumesN (s : State) (k n : Nat) : Option Nat :=
  if n = 0 then none
  else (List.range ((k + n - 1) / 64 - k / 64 + 1)).findSome? fun i => s.consumes (64 * (k / 64 + i))

/-- A table entry at a physical address, or the consumption of its granule. -/
def State.pte (s : State) (pa : Nat) : Except Nat Word :=
  match s.consumes pa with
  | some c => .error c
  | none => .ok (BitVec.ofNat 64 (leNat (memRead s.mem pa 8)))

/-- One level of the walk: none for a table pointer to follow, else the kind of failure or the leaf is valid. -/
def pteKind (s : State) (level : Nat) (e : Word) : Nat :=
  let lb := leafBits level
  if wf e 0 1 = 0 then 1
  else if wf e 48 16 ≠ 0 ∨ wf e 7 5 ≠ 0 then 3
  else if wf e 1 1 = 1 then (if level = 3 ∨ wf e 2 5 ≠ 0 then 3 else 0)
  else if wf e 12 36 * 2 ^ 12 % 2 ^ lb ≠ 0 then 3
  else if wf e 12 36 * 2 ^ 12 + 2 ^ lb > s.hbmTop then 4
  else 0

/-- The walk from a table at `tbl` for offset va, `fuel` levels left below level 3. -/
def State.walkFrom (s : State) (va : Nat) : Nat → Nat → Except Fail Leaf
  | 0, _ => .error { code := cXLATE_FAULT, kind := 3, level := 3 }
  | fuel + 1, tbl =>
    let level := 3 - fuel
    let idx := if level = 1 then field va 34 14 else if level = 2 then field va 25 9 else field va 16 9
    match s.pte (tbl + 8 * idx) with
    | .error c => .error { code := c, level := level, gran := some (tbl + 8 * idx) }
    | .ok e =>
      let kd := pteKind s level e
      if kd ≠ 0 then .error { code := cXLATE_FAULT, kind := kd, level := level }
      else if wf e 1 1 = 1 then State.walkFrom s va fuel (wf e 12 36 * 2 ^ 12)
      else
        let lb := leafBits level
        .ok { va := va / 2 ^ lb * 2 ^ lb, sz := lb, entry := e }

/-- The walk of a partition's tables. -/
def State.walk (s : State) (p va : Nat) : Except Fail Leaf :=
  let root := (s.part p).xlroot
  if wf root 0 1 = 0 then .error { code := cXLATE_FAULT, kind := 5 }
  else s.walkFrom va 3 (wf root 16 48 * 2 ^ 16)

def Leaf.covers (l : Leaf) (va : Nat) : Bool := decide (l.va ≤ va) && decide (va < l.va + 2 ^ l.sz)

/-- The physical address of va under a leaf. -/
def Leaf.pa (l : Leaf) (va : Nat) : Nat := wf l.entry 12 36 * 2 ^ 12 + (va - l.va)

/-- The permission check of a leaf (R391). -/
def Leaf.allows (l : Leaf) (n : Need) : Bool :=
  (!n.r || wf l.entry 2 1 == 1) && (!n.w || wf l.entry 3 1 == 1) && (!n.x || wf l.entry 4 1 == 1) &&
  (!n.ce || wf l.entry 5 1 == 1) && !(n.sup && wf l.entry 6 1 == 1)

def leafLevel (l : Leaf) : Nat := if l.sz = 34 then 1 else if l.sz = 25 then 2 else 3

/-- A free choice of the present step (log entries 11, 12). -/
def State.choice (s : State) (n : Nat) : Bool := Config.freeBit (s.freeCtr * 2 ^ 48 + n + 1)

/-- Whether an access to a page goes by a translation that has been changed since, where both are allowed (log entry 11, DESIGN CHOICE). -/
def State.stale (s : State) (va : Nat) : Bool := s.choice (2 ^ 47 + va / 2 ^ 16)

/-- The leaf that an access of a harness uses: the fresh walk, or a cached translation that the walk no longer gives,
which R392 lets it use until a TLBI covers it (log entry 11, DESIGN CHOICE). With XEN = 0 every access fails (14 R354). -/
def State.leafOf (s : State) (r p va : Nat) : Except Fail Leaf :=
  let fresh := s.walk p va
  match (s.har r).tlb.find? (fun l => l.covers va) with
  | none => fresh
  | some l =>
    if wf (s.part p).xlroot 0 1 = 0 then fresh else
    match fresh with
    | .ok l' => if l = l' then fresh else if s.stale va then .ok l else fresh
    | .error _ => if s.stale va then .ok l else fresh

/-- A leaf applied to an access: its physical address or KIND 2. -/
def useLeaf (l : Leaf) (va : Nat) (n : Need) (acc : Nat) : Except Fail Nat :=
  if l.allows n then .ok (l.pa va)
  else .error { code := cXLATE_FAULT, addr := mkPtr 0 0 va, kind := 2, level := leafLevel l, acc := acc }

/-- Translation of va for a harness. -/
def State.xlate (s : State) (r va : Nat) (n : Need) (acc : Nat) : Except Fail Nat :=
  match s.leafOf r (s.partOf r) va with
  | .error f => .error { f with addr := mkPtr 0 0 va, acc := acc }
  | .ok l => useLeaf l va n acc

/-- Translation of va for an agent that has no translation cache: copy engines, the scheduler, the host. -/
def State.xlateP (s : State) (p va : Nat) (n : Need) (acc : Nat) : Except Fail Nat :=
  match s.walk p va with
  | .error f => .error { f with addr := mkPtr 0 0 va, acc := acc }
  | .ok l => useLeaf l va n acc

/-! Device accesses to space 0 (16 R456): byte by byte, so that a page edge inside one is no matter. -/

/-- The physical keys of n bytes at va of a partition's space 0. -/
def State.devKeys (s : State) (p va n : Nat) (need : Need) (acc : Nat) : Except Fail (List Nat) :=
  (List.range n).mapM fun i => s.xlateP p ((va + i) % 2 ^ 48) need acc

/-- A read by the device itself: translation failures and consumptions are reported. -/
def State.devRead (s : State) (p va n : Nat) (need : Need) : Except Fail (List Byte) :=
  match s.devKeys p va n need accRead with
  | .error f => .error f
  | .ok ks =>
    match ks.findSome? fun k => (s.consumes k).map fun c => (k, c) with
    | some (k, c) => .error { code := c, addr := mkPtr 0 0 va, gran := some k }
    | none => .ok (ks.map (memGet s.mem))

/-! Writing memory: poison, quarantine (17 R409, R410) -/

/-- A granule that a write covers wholly loses its poison. -/
def State.cleanGranule (s : State) (gr : Nat) : State :=
  let k := 64 * gr
  let s := { s with poison := s.poison.filter (· != gr), latent := s.latent.erase gr }
  if isHbm k then
    let i := s.hbmOf gr
    let c := s.hbm.getD i {}
    if c.recs.contains gr then { s with hbm := s.hbm.set i { c with recs := c.recs.filter (· != gr), stale := true } } else s
  else s

/-- The granules that lie wholly within n bytes from key k. -/
def wholeGranules (k n : Nat) : List Nat :=
  let lo := cdiv k 64
  let hi := (k + n) / 64
  List.range' lo (hi - lo)

/-- Bytes stored from a key upward. -/
def State.put (s : State) (k : Nat) (bytes : List Byte) : State :=
  let s := { s with mem := memWrite s.mem k bytes }
  if s.poison.isEmpty ∧ s.latent.isEmpty ∧ s.hbm.isEmpty then s
  else (wholeGranules k bytes.length).foldl State.cleanGranule s

/-- Runs of consecutive keys. -/
def runs : List (Nat × Byte) → List (Nat × List Byte)
  | [] => []
  | (k, b) :: t =>
    match runs t with
    | (k', bs) :: r => if k' = k + 1 then (k, b :: bs) :: r else (k, [b]) :: (k', bs) :: r
    | [] => [(k, [b])]

/-- Bytes written from a key upward, contiguous in memory: those for a quarantined frame are dropped. -/
def State.write (s : State) (k : Nat) (bytes : List Byte) : State :=
  if s.hbm.isEmpty || (List.range bytes.length).all fun i => !s.quarantined (k + i) then s.put k bytes
  else
    let kept := (bytes.zipIdx k).filter fun b => !s.quarantined b.2
    (runs (kept.map fun b => (b.2, b.1))).foldl (fun s kb => s.put kb.1 kb.2) s

/-- Bytes written one key each; consecutive keys make one write. -/
def State.writeKeys (s : State) (ks : List Nat) (bytes : List Byte) : State :=
  (runs (ks.zip bytes)).foldl (fun s kb => s.write kb.1 kb.2) s

/-- Bytes of a linear range of keys, or the consumption. -/
def State.read (s : State) (k n : Nat) : Except Nat (List Byte) :=
  match s.consumesN k n with
  | some c => .error c
  | none => .ok (memRead s.mem k n)

/-- A write by the device itself (R456). -/
def State.devWrite (s : State) (p va : Nat) (bytes : List Byte) (need : Need) : Except Fail State :=
  match s.devKeys p va bytes.length need accWrite with
  | .error f => .error f
  | .ok ks => .ok (s.writeKeys ks bytes)

/-- A 64-bit word read by the device. -/
def State.devWord (s : State) (p va : Nat) (need : Need) : Except Fail Word :=
  (s.devRead p va 8 need).map fun b => BitVec.ofNat 64 (leNat b)

def needR : Need := { r := true }
def needW : Need := { w := true }

/-! Interrupt messages (16 R404, 14 R347, R348; 18 R427) -/

/-- The scheduler block of a die in its partition's space 0 (15 R365). -/
def State.block (s : State) (d : Nat) : Nat := ((s.part (s.partOfDie d)).gtbase.toNat + 0x8000 + 0x4000 * d) % 2 ^ 48

/-- The bytes of 64-bit words. -/
def wordBytes (ws : List Word) : List Byte := ws.flatMap fun w => leBytes 8 w.toNat

/-- The harness named by SUPRANK enters its supervisor at its next boundary where it runs a node at U. -/
def State.raiseInt (s : State) (p code : Nat) : State :=
  let r := (s.part p).suprank.toNat
  let h := s.har r
  if h.running && h.sp.cur == 0 then s.modCtl r fun c => { c with intr := c.intr <|> some code } else s

/-- The console and forwarding word stand in the block of the partition's first die (18 R426). -/
def State.console (s : State) (p : Nat) : Nat := s.block ((s.diesOf p).head?.getD 0)

/-- A message is written into a die's ring; one that cannot be written is lost (DESIGN CHOICE, log entry 36). -/
def State.tell (s : State) (d code rank : Nat) (subject detail : Word) : State :=
  let p := s.partOfDie d
  let b := s.block d
  match s.devWord p (b + 0x2FC0) needW, s.devWord p (b + 0x2FC8) needW with
  | .ok iwr, .ok ird =>
    if iwr - ird = 64 then
      match s.devWord p (b + 0x2FD0) needW with
      | .ok lost => (match s.devWrite p (b + 0x2FD0) (wordBytes [lost + 1]) needW with | .ok s => s | .error _ => s)
      | .error _ => s
    else
      let w0 : Word := BitVec.ofNat 64 ((iwr.toNat + 1) % 2 ^ 32 * 2 ^ 32 + code * 2 ^ 16 + rank)
      let ws : List Word := [w0, subject, detail, s.mcc, 0, 0, 0, 0]
      match s.devWrite p (b + 0x3000 + 64 * (iwr.toNat % 64)) (wordBytes ws) needW with
      | .error _ => s
      | .ok s =>
        match s.devWrite p (b + 0x2FC0) (wordBytes [iwr + 1]) needW with
        | .error _ => s
        | .ok s =>
          let s := s.raiseInt p code
          match s.devWord p (s.console p + 0x2B20) needR with
          | .ok f => if wf f 0 1 = 1 then { s with hostOut := s.hostOut ++ [.msg ws] } else s
          | .error _ => s
  | _, _ => s

/-- Whether an interrupt is pending in a partition: some ring has IWR ≠ IRD (14 R347). -/
def State.intPending (s : State) (p : Nat) : Bool :=
  (s.diesOf p).any fun d =>
    match s.devWord p (s.block d + 0x2FC0) needR, s.devWord p (s.block d + 0x2FC8) needR with
    | .ok a, .ok b => a != b
    | _, _ => false

/-- A counter of a die rises, and its word in the scheduler block is written (17 R411): 0 TCE, 1 TUE, 2 HCE, 3 HUE, 4 CONS,
5 ABRT, 6 RPLY, 7 SPCELL, 8 SPROW. -/
def State.count (s : State) (d i : Nat) : State :=
  let v := (s.die d).cnt.getD i 0 + 1
  let s := s.modDie d fun x => { x with cnt := x.cnt.setIfInBounds i v }
  let off := if i < 4 then 0x2800 + 8 * i else if i < 7 then 0x2810 + 8 * i else 0x2828 + 8 * i
  match s.devWrite (s.partOfDie d) (s.block d + off) (wordBytes [v]) needW with
  | .ok s => s
  | .error _ => s

/-- The poison-record and quarantine words of the die of controller i (R411): controllers 2d (north) and 2d + 1. -/
def State.hbmSummary (s : State) (i : Nat) : State :=
  let d := i / 2
  let n := s.hbm.getD (2 * d) {}
  let so := s.hbm.getD (2 * d + 1) {}
  let q (c : Hbm) : List Word := (List.range 32).map fun j => match c.quar[j]? with
    | some fr => BitVec.ofNat 64 (fr * 2 ^ 16 + 1)
    | none => 0
  let p := s.partOfDie d
  let counts := wordBytes [BitVec.ofNat 64 (so.recs.length * 2 ^ 16 + n.recs.length),
    BitVec.ofNat 64 (so.quar.length * 2 ^ 16 + n.quar.length)]
  let s := match s.devWrite p (s.block d + 0x2820) counts needW with
    | .ok s => s
    | .error _ => s
  match s.devWrite p (s.block d + 0x2900) (wordBytes (q n ++ q so)) needW with
  | .ok s => s
  | .error _ => s

/-- The die whose counters an error at a key belongs to. -/
def State.errDie (s : State) (k : Nat) : Nat := if isTower k then dieOf (towerRank k) else s.hbmOf (k / 64) / 2

/-- A latent error of a granule met by a read (17 R407, R410): corrected, or recorded as poison; a quarantined frame needs
no record. A record that overflows is settled at the end of the cycle, once entries freed in it have gone (R424). -/
def State.scrubGranule (s : State) (gr : Nat) : State :=
  let k := 64 * gr
  match s.latent.find gr with
  | none => s
  | some false =>
    let s := { s with latent := s.latent.erase gr }
    s.count (s.errDie k) (if isHbm k then 2 else 0)
  | some true =>
    if s.quarantined k then s
    else if isHbm k then
      let i := s.hbmOf gr
      let c := s.hbm.getD i {}
      if c.recs.length < 512 ∨ c.quar.length < 32 then
        let s := { s with hbm := s.hbm.set i { c with recs := gr :: c.recs }, latent := s.latent.erase gr }
        (s.count (s.errDie k) 3).hbmSummary i
      else s.tell (s.errDie k) cMEM_ERROR 0 (BitVec.ofNat 64 k) 1
    else
      let s := { s with poison := gr :: s.poison, latent := s.latent.erase gr }
      s.count (s.errDie k) 1

/-- What is left to do for a controller at the end of a cycle: the frame of the first granule beyond its 512 entries is
quarantined, its entries freed (17 R410), or, with the list full, that granule is not recorded; else its counts are written
(R411). -/
def State.settleHbm (s : State) (i : Nat) : State :=
  let c := s.hbm.getD i {}
  if c.recs.length ≤ 512 then { s with hbm := s.hbm.set i { c with stale := false } }.hbmSummary i
  else
    let gr := c.recs.getD (c.recs.length - 513) 0
    let fr := gr / 1024
    if c.quar.length < 32 then
      let s := { s with hbm := s.hbm.set i { c with
        recs := c.recs.filter (fun g => g / 1024 != fr), quar := c.quar ++ [fr], stale := true } }
      s.tell (s.errDie (64 * gr)) cPOISON 0 (BitVec.ofNat 64 (fr * 2 ^ 16)) 3
    else
      let s := { s with hbm := s.hbm.set i { c with recs := c.recs.filter (· != gr), stale := true }, latent := s.latent.set gr true }
      s.tell (s.errDie (64 * gr)) cMEM_ERROR 0 (BitVec.ofNat 64 (64 * gr)) 1

/-- Every granule of n bytes from a key is checked, as each read of it does (DEDUCED, log entry 53). -/
def State.scrub (s : State) (k n : Nat) : State :=
  if s.latent.isEmpty ∨ n = 0 then s
  else (List.range ((k + n - 1) / 64 - k / 64 + 1)).foldl (fun s i => s.scrubGranule (k / 64 + i)) s

/-- The table entries that a walk from `tbl` reads, as keys. -/
def State.walkKeysFrom (s : State) (va : Nat) : Nat → Nat → List Nat
  | 0, _ => []
  | fuel + 1, tbl =>
    let level := 3 - fuel
    let k := tbl + 8 * (if level = 1 then field va 34 14 else if level = 2 then field va 25 9 else field va 16 9)
    k :: match s.pte k with
      | .ok e => if pteKind s level e = 0 ∧ wf e 1 1 = 1 then State.walkKeysFrom s va fuel (wf e 12 36 * 2 ^ 12) else []
      | .error _ => []

/-- The granules that the walk of an address reads are checked (17 R407). -/
def State.scrubWalk (s : State) (p va : Nat) : State :=
  let root := (s.part p).xlroot
  if s.latent.isEmpty ∨ wf root 0 1 = 0 then s
  else (s.walkKeysFrom va 3 (wf root 16 48 * 2 ^ 16)).foldl (fun s k => s.scrub k 8) s

/-- The granules that the device reads at n bytes of space 0 are checked, those of the walks among them (17 R407). -/
def State.devScrub (s : State) (p va n : Nat) : State :=
  if s.latent.isEmpty then s
  else
    let s := (s.scrubWalk p va).scrubWalk p ((va + n - 1) % 2 ^ 48)
    match s.devKeys p va n {} accRead with
    | .ok ks => ks.foldl (fun s k => s.scrub k 1) s
    | .error _ => s

/-- The granules that the walks of n bytes of space 0 read are checked (17 R407). -/
def State.reachScrub (s : State) (p va n : Nat) : State :=
  if s.latent.isEmpty then s else (s.scrubWalk p va).scrubWalk p ((va + n - 1) % 2 ^ 48)

/-- A write by the device itself, whose walks are reads like any other (17 R407). -/
def State.devStore (s : State) (p va : Nat) (bytes : List Byte) (need : Need) : Except Fail State :=
  (s.reachScrub p va bytes.length).devWrite p va bytes need

/-- An event that belongs to no running node writes a message into its die's ring (16 R404; 17 R412). -/
def State.message (s : State) (d code rank : Nat) (subject detail : Word) : State :=
  let p := s.partOfDie d
  let s := (s.devScrub p (s.block d + 0x2FC0) 24).reachScrub p (s.block d + 0x3000) 0x1000
  s.tell d code rank subject detail

/-- A translation used by a harness enters its cache of 256 entries; which entry leaves is not specified (R392)
(DESIGN CHOICE, log entry 11). -/
def State.cacheLeaf (s : State) (r va : Nat) : State :=
  match s.walk (s.partOf r) va with
  | .error _ => s
  | .ok l =>
    (s.scrubWalk (s.partOf r) va).modHar r fun h => if h.tlb.contains l then h else { h with tlb := (l :: h.tlb).take 256 }

/-- What a consumption on the way of a failed access leaves: the granule is checked, and the die of the harness counts it
(17 R407, R408, R411). -/
def State.tally (s : State) (r : Nat) (f : Fail) : State :=
  match f.gran with
  | none => s
  | some k => (s.scrub k 1).count (dieOf r) 4

/-! Pointer checks (02 R47, 14 R349) -/

/-- Who makes an access. -/
inductive Party where
  | seq | fetch | eng | copy
deriving DecidableEq, Repr

/-- Privileged register numbers (14 R350, 18 R429): none where unassigned, else whether the register is at F level. -/
def privLevel (n : Nat) : Option Bool :=
  if n = 0x104 ∨ n = 0x400 ∨ (0x410 ≤ n ∧ n ≤ 0x41F) then some true
  else if (0x100 ≤ n ∧ n ≤ 0x103) ∨ (0x200 ≤ n ∧ n ≤ 0x207) ∨ (0x300 ≤ n ∧ n ≤ 0x302) ∨ (0x340 ≤ n ∧ n ≤ 0x37F) then
    some false
  else none

/-- The check of a privileged register access of the sequencer at a level (R349). -/
def privCheck (n : Nat) (level : Nat) (p : Word) (acc : Nat) : Except Fail Unit :=
  if level = 0 then .error { code := cPRIV_SPACE, addr := p, acc := acc }
  else match privLevel n with
    | some f => if f ∧ level = 1 then .error { code := cPRIV_SPACE, addr := p, acc := acc } else .ok ()
    | none => .error { code := cBAD_ADDRESS, addr := p, acc := acc }

/-- The peer port of a space-4 pointer, bound to a partition (18 R429). -/
def State.portBound (s : State) (port p : Nat) : Bool :=
  let b := s.ppbind.getD port 0
  wf b 63 1 == 1 && wf b 60 2 == p

/-- The checks of R47 on space, owner and offset, for an access of n bytes by a party of rank r. Space 5 and 15 are the
sequencer's. The tower of a retired harness is unusable (17 R420). -/
def State.spaceCheck (s : State) (r : Nat) (who : Party) (p : Word) (acc : Nat) : Except Fail Unit :=
  let sp := space p
  let own := owner p
  let off := offset p
  let bad (c : Nat) : Except Fail Unit := .error { code := c, addr := p, acc := acc }
  let listed : Bool :=
    match who with
    | .seq => true
    | .fetch => sp == 0
    | .eng => sp ≤ 4
    | .copy => sp == 0 || sp == 2 || sp == 3 || sp == 4
  if 6 ≤ sp ∧ sp ≤ 14 then bad cBAD_SPACE
  else if !listed then bad cBAD_SPACE
  else match sp with
    | 0 => if own ≠ 0 then bad cBAD_SPACE else .ok ()
    | 1 => if off ≥ 2 ^ 26 then bad cBAD_ADDRESS else .ok ()
    | 2 =>
      if own ≥ s.ranks ∨ s.partOf own ≠ s.partOf r ∨ (s.har own).ctl.retired then bad cBAD_SPACE
      else if off ≥ 2 ^ 26 then bad cBAD_ADDRESS else .ok ()
    | 3 => if own ≠ 0 then bad cBAD_SPACE else .ok ()
    | 4 => if own ≥ 16 ∨ !s.portBound own (s.partOf r) then bad cBAD_SPACE else .ok ()
    | 5 =>
      if own ≠ 0 then bad cBAD_SPACE
      else if off ≥ (s.part (s.partOf r)).rtlim.toNat * 64 then bad cBAD_ADDRESS else .ok ()
    | _ => if own ≠ 0 then bad cBAD_SPACE else .ok ()

/-- The key of an address that has passed its checks, for spaces that are not translated. -/
def rawKey (r : Nat) (p : Word) : Nat :=
  if space p = 1 then towerKey r (offset p) else p.toNat

/-- Whether the link of a space-4 pointer is up (18 R430). -/
def State.linkUp (s : State) (port : Nat) : Bool := wf (s.ppbind.getD port 0) 62 1 == 1

/-- The key of an address that a space-4 pointer names: the byte of space 0 of the peer's partition RPART (18 R429). -/
def State.peerKey (s : State) (p : Word) : Nat := p.toNat + wf (s.ppbind.getD (owner p) 0) 58 2 * 2 ^ 52

/-- The port and the pointer that a peer key came from. -/
def peerPort (k : Nat) : Nat := k / 2 ^ 48 % 16
def peerPtr (k : Nat) : Word := BitVec.ofNat 64 (4 * 2 ^ 60 + k % 2 ^ 52)

/-- The level of a harness. -/
def Harness.level (h : Harness) : Nat := h.sp.cur.toNat

/-- How the resource table of a harness is reached (log entry 10, DEDUCED). -/
def Harness.rtbase (h : Harness) : Nat := (h.ctl.node.map fun n => offset n.launch.w4).getD 0

/-- What a sequencer access is: its size, alignment and access code, the permissions it needs, whether R47 refuses it in
space 5 at U level (a store, an atomic other than ALOAD, a barrier-object instruction), and whether space 15 is closed to it
(06 R178, R180). -/
structure SeqAcc where
  n : Nat
  align : Nat
  acc : Nat
  r : Bool
  w : Bool
  s5 : Bool
  no15 : Bool
deriving DecidableEq, Repr

/-- The translation of a space-0 offset, or of a resource-table entry, for the sequencer; SUP does not keep the resource
table from it (log entry 10, DEDUCED). -/
def State.seqKey (s : State) (r : Nat) (p : Word) (va : Nat) (a : SeqAcc) (sup : Bool) : Except Fail Place :=
  match s.xlate r va { r := a.r, w := a.w, sup := sup } a.acc with
  | .ok k => .ok (.mem k)
  | .error f => .error { f with addr := p }

/-- The checks of a sequencer access in space 15, in the order of 14 R349. -/
def State.seqPriv (s : State) (r : Nat) (p : Word) (a : SeqAcc) : Except Fail Place :=
  let lv := (s.har r).level
  let num := offset p / 8
  let bad (c : Nat) : Except Fail Place := .error { code := c, addr := p, acc := a.acc }
  if lv = 0 then bad cPRIV_SPACE
  else if privLevel num = some true ∧ lv = 1 then bad cPRIV_SPACE
  else if offset p ≥ 0x8000 ∨ a.n < 8 ∨ privLevel num = none then bad cBAD_ADDRESS
  else if a.no15 then bad cBAD_SPACE
  else if offset p % 8 ≠ 0 then bad cMISALIGNED
  else .ok (.reg num)

/-- The checks of a sequencer access in R47's order, and its place. -/
def State.seqAccess (s : State) (r : Nat) (p : Word) (a : SeqAcc) : Except Fail Place :=
  match s.spaceCheck r .seq p a.acc with
  | .error f => .error f
  | .ok _ =>
    if space p = 15 then s.seqPriv r p a
    else if space p = 5 ∧ a.s5 ∧ (s.har r).level = 0 then .error { code := cPRIV_SPACE, addr := p, acc := a.acc }
    else if offset p % a.align ≠ 0 then .error { code := cMISALIGNED, addr := p, acc := a.acc }
    else match space p with
      | 0 => s.seqKey r p (offset p) a ((s.har r).level == 0)
      | 5 => s.seqKey r p (((s.har r).rtbase + offset p) % 2 ^ 48) a false
      | 4 => if s.linkUp (owner p) then .ok (.mem (s.peerKey p)) else .error { code := cMEM_ERROR, addr := p, acc := a.acc }
      | _ => .ok (.mem (rawKey r p))

/-- The translation that a sequencer access used enters the translation cache. -/
def State.cacheFor (s : State) (r : Nat) (p : Word) : State :=
  match space p with
  | 0 => s.cacheLeaf r (offset p)
  | 5 => s.cacheLeaf r (((s.har r).rtbase + offset p) % 2 ^ 48)
  | _ => s

/-! Taking an exception and the return from one -/

/-- The address of a harness's fault record at level S or F (16 R397). -/
def State.recordAt (s : State) (r level : Nat) : Nat :=
  ((s.part (s.partOf r)).gtbase.toNat + 0x18000 + 256 * r + (if level = 2 then 128 else 0)) % 2 ^ 48

/-- The harness stops until firmware restarts it (06 R204). -/
def Ctl.halt (c : Ctl) : Ctl := { c with halted := true }

def State.haltHar (s : State) (r : Nat) : State :=
  s.modHar r fun h => { h with ctl := h.ctl.halt, seq := { h.seq with active := false, stalled := false, wait := {} } }

/-- What an entry records beyond the pc (16 R398). -/
structure Trap where
  cls : Nat
  code : Nat
  arg : Nat := 0
  eng : Nat := 3
  frz : Bool := false
  seqNo : Nat := 0
  w4 : Word := 0
  lc01 : Word := 0
  lc23 : Word := 0
  status : Word := 0
  addr : Word := 0
  kind : Nat := 0
  level : Nat := 0
  acc : Nat := 0
  qidx : Word := 0
  fmcc : Option Word := none
  fframe : Option Word := none
deriving DecidableEq, Repr

/-- The codes whose record holds the faulting pointer (R398, word 8). -/
def namesAddr (code : Nat) : Bool :=
  [cBAD_SPACE, cBAD_ADDRESS, cMISALIGNED, cXLATE_FAULT, cPOISON, cMEM_ERROR].contains code

/-- The 16 words of a record (16 R398); FRZ tells whether the engines are frozen. The pc of TRAP and BREAK in a delay slot is the branch, as of every other
(06 R173) (DEDUCED, log entry 31). -/
def trapWords (t : Trap) (h : Harness) (mcc : Word) : List Word :=
  let ds := h.seq.ds
  let w0 := t.code * 2 ^ 32 + t.arg * 2 ^ 12 + t.eng * 2 ^ 10 + h.level * 2 ^ 8 + b2n (t.frz || h.ctl.frozen) * 2 ^ 7 +
    b2n ((ds.map (·.taken)).getD false) * 2 ^ 6 + b2n ds.isSome * 2 ^ 5 + t.cls
  let pc := (ds.map (·.branch)).getD h.seq.pc
  let w9 := t.kind * 16 + t.level * 4 + t.acc
  [BitVec.ofNat 64 w0, pc, (ds.map (·.target)).getD 0, BitVec.ofNat 64 t.seqNo, t.w4, t.lc01, t.lc23, t.status,
    if namesAddr t.code then t.addr else 0,
    BitVec.ofNat 64 w9, t.fmcc.getD mcc, t.fframe.getD h.sp.frame, 0, 0, t.qidx, 0]

/-- Taking an exception (14 R346): the record is written at the level entered, PREV ← CUR, CUR ← that level, pc ← its
vector. A fault at F, or a record write that fails translation, halts the harness (16 R397). -/
def State.takeTrap (s : State) (r : Nat) (t : Trap) : State :=
  let h := s.har r
  if h.level ≥ 2 then s.haltHar r
  else
    let lvl := h.level + 1
    let s := s.reachScrub (s.partOf r) (s.recordAt r lvl) 128
    match s.devWrite (s.partOf r) (s.recordAt r lvl) (wordBytes (trapWords t h s.mcc)) needW with
    | .error f => (s.tally r f).haltHar r
    | .ok s =>
      s.modHar r fun h =>
        { h with
          sp := { h.sp with prev := h.sp.cur, cur := BitVec.ofNat 2 lvl }
          seq := { h.seq with
            pc := if lvl = 1 then h.sp.tvec else h.sp.fvec, ds := none, wait := {}, stalled := false } }

/-- A precise fault of the instruction at pc (class 0): its code fills STATUS (R398, R399) (DEDUCED, log entry 31). -/
def State.precise (s : State) (r : Nat) (f : Fail) : State :=
  s.takeTrap r { cls := 0, code := f.code, status := BitVec.ofNat 64 f.code, addr := f.addr, kind := f.kind, level := f.level,
                 acc := f.acc }

/-- Whether a failure raises no record: a consumption by a member of a gang that another member has aborted (17 R424). -/
def State.mutes (s : State) (r : Nat) (f : Fail) : Bool :=
  f.gran.isSome && (s.har r).ctl.abort.isSome && (s.har r).level == 0

/-- A precise fault by its code alone. -/
def State.preciseC (s : State) (r code : Nat) : State := s.precise r { code := code }

/-- The precise fault of a failed access: a consumption on its way, as in a page walk, is one like any other. One that raises no
record is counted once. -/
def State.preciseF (s : State) (r : Nat) (f : Fail) : State :=
  if s.mutes r f then
    (if (s.har r).seq.wait.muted then s else s.tally r f).modSeq r fun q =>
      { q with stalled := true, wait := { q.wait with muted := true } }
  else (s.tally r f).precise r f

/-- The instruction at pc of the current harness stalls: nothing changes but the stall itself. -/
def State.stall (s : State) : State := s.modSeq s.cur fun q => { q with stalled := true }

/-- The instruction at pc of the current harness completes with an effect on the harness. -/
def State.retire (s : State) (f : Harness → Harness) : State :=
  s.modHar s.cur fun h => let h := f h; { h with seq := h.seq.advance }

/-- The instruction completes with an effect on the sequencer's registers. -/
def State.retireSeq (s : State) (f : Seq → Seq) : State := s.retire fun h => { h with seq := f h.seq }

end Sys2Proof.Machine
end

