-- ==== Sys2Proof/Machine/Flags.lean ====
section
/-!
DEFINITION. Every flag computation of the spec: the conditions of CMP, CMPI, WAITA and VCMP (05 R137, 06 R167) and the
sticky exception flags of VFLAG and DFLAG (03 R81). The flags of one rounding are computed in Num.lean (R77, R83-R86).
-/

namespace Sys2Proof.Machine

/-- Condition cc of two 64-bit values (R167): EQ NE LT LE GT GE LTU LEU GTU GEU. -/
def condHolds (cc : Nat) (a b : Word) : Bool :=
  match cc with
  | 0 => a == b
  | 1 => a != b
  | 2 => a.slt b
  | 3 => a.sle b
  | 4 => b.slt a
  | 5 => b.sle a
  | 6 => a.ult b
  | 7 => a.ule b
  | 8 => b.ult a
  | _ => b.ule a

/-- Instructions set flags and never clear them (R81). -/
def setVflag (h : Harness) (f : BitVec 6) : Harness := { h with sp := { h.sp with vflag := h.sp.vflag ||| f } }

def setDflag (h : Harness) (f : BitVec 6) : Harness := { h with sp := { h.sp with dflag := h.sp.dflag ||| f } }

/-- The flags of many roundings together. -/
def orFlags (fs : List (BitVec 6)) : BitVec 6 := fs.foldl (· ||| ·) 0

/-- The sticky flags as effects of an engine instruction; an instruction that sets none has none. -/
def vflagEff (f : BitVec 6) : List Eff := if f = 0 then [] else [.vflag f]

def dflagEff (f : BitVec 6) : List Eff := if f = 0 then [] else [.dflag f]

end Sys2Proof.Machine
end

