-- ==== Sys2Proof/Machine/SeqAlu.lean ====
section
/-!
DEFINITION. Sequencer arithmetic, immediates, compares, predicates and pointers (06 R163-R169, 05 R136).
-/

namespace Sys2Proof.Machine

/-- g(d) ← v, and the next instruction. -/
def State.toG (s : State) (d : BitVec 6) (v : Word) : State := s.retireSeq fun q => q.wg d v

/-- k(d) ← v, and the next instruction. -/
def State.toK (s : State) (d : BitVec 4) (v : Bool) : State := s.retireSeq fun q => q.wk d v

/-- g(r) of the current harness. -/
def State.g (s : State) (r : BitVec 6) : Word := (s.har s.cur).seq.rg r

/-- k(r) of the current harness. -/
def State.k (s : State) (r : BitVec 4) : Bool := (s.har s.cur).seq.rk r

/-- Register d is usable from a cycle on, and not before the results that earlier instructions still write there (06 R161). -/
def Seq.readyAt (q : Seq) (d : BitVec 6) (t : Nat) : Seq :=
  if d = 0 then q else { q with ready := q.ready.set d.toNat (max t (q.ready.getD d.toNat 0)) }

/-- A result usable `lat` cycles after issue (06 R161). -/
def State.toGLate (s : State) (d : BitVec 6) (v : Word) (lat : Nat) : State :=
  let t := s.mcc.toNat + lat
  s.retireSeq fun q => (q.wg d v).readyAt d t

/-- Signed quotient with the corner cases of R164. -/
def sdivW (a b : Word) : Word :=
  if b = 0 then BitVec.allOnes 64 else BitVec.ofInt 64 (Int.tdiv a.toInt b.toInt)

def udivW (a b : Word) : Word := if b = 0 then BitVec.allOnes 64 else a / b

/-- Signed remainder with the sign of a. -/
def sremW (a b : Word) : Word := if b = 0 then a else BitVec.ofInt 64 (Int.tmod a.toInt b.toInt)

def uremW (a b : Word) : Word := if b = 0 then a else a % b

/-- Shift amounts are bits 5:0 (R163). -/
def amount (b : Word) : Nat := b.toNat % 64

/-- Leading zero bits. -/
def clzW (a : Word) : Nat := if a.toNat = 0 then 64 else 63 - Nat.log2 a.toNat

/-- Trailing zero bits: 0 to 64. -/
def ctzW (a : Word) : Nat := ((List.range 64).find? fun i => field a.toNat i 1 == 1).getD 64

def popW (a : Word) : Nat := ((List.range 64).filter fun i => field a.toNat i 1 == 1).length

/-- Sign extension from bit 7, 15 or 31 by the size code. -/
def sextW (a : Word) (z : Nat) : Word :=
  if z = 0 then (a.setWidth 8).signExtend 64 else if z = 1 then (a.setWidth 16).signExtend 64
  else (a.setWidth 32).signExtend 64

/-- The bytes in reverse order. -/
def bswapW (a : Word) : Word := BitVec.ofNat 64 (leNat (leBytes 8 a.toNat).reverse)

def execAdd (d a b : BitVec 6) (s : State) : Out := .next (s.toG d (s.g a + s.g b))
def execSub (d a b : BitVec 6) (s : State) : Out := .next (s.toG d (s.g a - s.g b))
def execAnd (d a b : BitVec 6) (s : State) : Out := .next (s.toG d (s.g a &&& s.g b))
def execOr (d a b : BitVec 6) (s : State) : Out := .next (s.toG d (s.g a ||| s.g b))
def execXor (d a b : BitVec 6) (s : State) : Out := .next (s.toG d (s.g a ^^^ s.g b))
def execAndn (d a b : BitVec 6) (s : State) : Out := .next (s.toG d (s.g a &&& ~~~s.g b))
def execOrn (d a b : BitVec 6) (s : State) : Out := .next (s.toG d (s.g a ||| ~~~s.g b))
def execShl (d a b : BitVec 6) (s : State) : Out := .next (s.toG d (s.g a <<< amount (s.g b)))
def execShr (d a b : BitVec 6) (s : State) : Out := .next (s.toG d (s.g a >>> amount (s.g b)))
def execSra (d a b : BitVec 6) (s : State) : Out := .next (s.toG d ((s.g a).sshiftRight (amount (s.g b))))
def execRol (d a b : BitVec 6) (s : State) : Out := .next (s.toG d ((s.g a).rotateLeft (amount (s.g b))))
def execMul (d a b : BitVec 6) (s : State) : Out := .next (s.toGLate d (s.g a * s.g b) 3)

/-- The high half of the signed product. -/
def execMulh (d a b : BitVec 6) (s : State) : Out :=
  .next (s.toGLate d (BitVec.ofInt 64 ((s.g a).toInt * (s.g b).toInt / 2 ^ 64)) 3)

/-- The high half of the unsigned product. -/
def execMulhu (d a b : BitVec 6) (s : State) : Out :=
  .next (s.toGLate d (BitVec.ofNat 64 ((s.g a).toNat * (s.g b).toNat / 2 ^ 64)) 3)

def execDiv (d a b : BitVec 6) (s : State) : Out := .next (s.toGLate d (sdivW (s.g a) (s.g b)) 34)
def execDivu (d a b : BitVec 6) (s : State) : Out := .next (s.toGLate d (udivW (s.g a) (s.g b)) 34)
def execRem (d a b : BitVec 6) (s : State) : Out := .next (s.toGLate d (sremW (s.g a) (s.g b)) 34)
def execRemu (d a b : BitVec 6) (s : State) : Out := .next (s.toGLate d (uremW (s.g a) (s.g b)) 34)

def execMin (d a b : BitVec 6) (s : State) : Out :=
  .next (s.toG d (if (s.g a).slt (s.g b) then s.g a else s.g b))

def execMax (d a b : BitVec 6) (s : State) : Out :=
  .next (s.toG d (if (s.g a).slt (s.g b) then s.g b else s.g a))

def execMinu (d a b : BitVec 6) (s : State) : Out :=
  .next (s.toG d (if (s.g a).ult (s.g b) then s.g a else s.g b))

def execMaxu (d a b : BitVec 6) (s : State) : Out :=
  .next (s.toG d (if (s.g a).ult (s.g b) then s.g b else s.g a))

def execClz (d a : BitVec 6) (s : State) : Out := .next (s.toG d (BitVec.ofNat 64 (clzW (s.g a))))
def execCtz (d a : BitVec 6) (s : State) : Out := .next (s.toG d (BitVec.ofNat 64 (ctzW (s.g a))))
def execPopc (d a : BitVec 6) (s : State) : Out := .next (s.toG d (BitVec.ofNat 64 (popW (s.g a))))

/-- A size code above 2 is ILLEGAL_INSTR (05 R138). -/
def execSext (d a z : BitVec 6) (s : State) : Out :=
  if z.toNat > 2 then .next (s.preciseC s.cur cILLEGAL_INSTR) else .next (s.toG d (sextW (s.g a) z.toNat))

def execBswap (d a : BitVec 6) (s : State) : Out := .next (s.toG d (bswapW (s.g a)))

def execAddi (d a : BitVec 6) (i : BitVec 14) (s : State) : Out := .next (s.toG d (s.g a + i.signExtend 64))
def execAndi (d a : BitVec 6) (i : BitVec 14) (s : State) : Out := .next (s.toG d (s.g a &&& i.setWidth 64))
def execOri (d a : BitVec 6) (i : BitVec 14) (s : State) : Out := .next (s.toG d (s.g a ||| i.setWidth 64))
def execXori (d a : BitVec 6) (i : BitVec 14) (s : State) : Out := .next (s.toG d (s.g a ^^^ i.setWidth 64))
def execShli (d a n : BitVec 6) (s : State) : Out := .next (s.toG d (s.g a <<< n.toNat))
def execShri (d a n : BitVec 6) (s : State) : Out := .next (s.toG d (s.g a >>> n.toNat))
def execSrai (d a n : BitVec 6) (s : State) : Out := .next (s.toG d ((s.g a).sshiftRight n.toNat))
def execRoli (d a n : BitVec 6) (s : State) : Out := .next (s.toG d ((s.g a).rotateLeft n.toNat))

/-- R136: bits 19:0 ← imm20, bits 63:20 copy its bit 19. -/
def execMovi (d : BitVec 6) (i : BitVec 20) (s : State) : Out := .next (s.toG d (i.signExtend 64))

/-- R136: bits 39:20 ← imm20, bits 19:0 kept, bits 63:40 copy bit 19. -/
def execMovm (d : BitVec 6) (i : BitVec 20) (s : State) : Out :=
  .next (s.toG d ((i ++ (s.g d).setWidth 20 : BitVec 40).signExtend 64))

/-- R136: bits 59:40 ← imm20, bits 39:0 kept, bits 63:60 copy bit 19. -/
def execMovh (d : BitVec 6) (i : BitVec 20) (s : State) : Out :=
  .next (s.toG d ((i ++ (s.g d).setWidth 40 : BitVec 60).signExtend 64))

/-- Condition codes 10-15 are ILLEGAL_INSTR (05 R138). -/
def execCmp (k c : BitVec 4) (a b : BitVec 6) (s : State) : Out :=
  if c.toNat > 9 then .next (s.preciseC s.cur cILLEGAL_INSTR)
  else .next (s.toK k (condHolds c.toNat (s.g a) (s.g b)))

def execCmpi (k c : BitVec 4) (a : BitVec 6) (i : BitVec 12) (s : State) : Out :=
  if c.toNat > 9 then .next (s.preciseC s.cur cILLEGAL_INSTR)
  else .next (s.toK k (condHolds c.toNat (s.g a) (i.signExtend 64)))

def execKand (d a b : BitVec 4) (s : State) : Out := .next (s.toK d (s.k a && s.k b))
def execKor (d a b : BitVec 4) (s : State) : Out := .next (s.toK d (s.k a || s.k b))
def execKxor (d a b : BitVec 4) (s : State) : Out := .next (s.toK d (xor (s.k a) (s.k b)))
def execKandn (d a b : BitVec 4) (s : State) : Out := .next (s.toK d (s.k a && !s.k b))
def execKset (d : BitVec 4) (a : BitVec 6) (s : State) : Out := .next (s.toK d (s.g a != 0))
def execKget (d : BitVec 6) (a : BitVec 4) (s : State) : Out := .next (s.toG d (if s.k a then 1 else 0))
def execSel (d a b : BitVec 6) (n : BitVec 4) (s : State) : Out := .next (s.toG d (if s.k n then s.g a else s.g b))

/-- R169: bits 63:48 from g(b) bits 15:0, bits 47:0 from g(a). -/
def execPtag (d a b : BitVec 6) (s : State) : Out :=
  .next (s.toG d ((s.g b).setWidth 16 ++ (s.g a).setWidth 48 : BitVec 64))

def execPspace (d a : BitVec 6) (s : State) : Out := .next (s.toG d (BitVec.ofNat 64 (space (s.g a))))
def execPrank (d a : BitVec 6) (s : State) : Out := .next (s.toG d (BitVec.ofNat 64 (owner (s.g a))))

/-- R169: the tag of g(a), its offset plus g(b) modulo 2^48. -/
def execPadd (d a b : BitVec 6) (s : State) : Out :=
  .next (s.toG d (((s.g a) >>> 48).setWidth 16 ++ (s.g a + s.g b).setWidth 48 : BitVec 64))

end Sys2Proof.Machine
end

