-- ==== Sys2Proof/Machine/Tower.lean ====
section
/-!
DEFINITION. Tower banks: open rows, activations and disturb alerts, back-off, refresh (02 R48-R50, R63-R69; 17 R418,
R419, R421, R422).
-/

namespace Sys2Proof.Machine

/-- Fields of a tower offset (R48). -/
def towCell (off : Nat) : Nat := field off 22 4
def towRow (off : Nat) : Nat := field off 13 9
def towBank (off : Nat) : Nat := field off 9 4

/-- The key of a bank of a harness. -/
def bankKey (cell bank : Nat) : Nat := 16 * cell + bank

/-- A bank of a harness. -/
def Harness.bank (h : Harness) (k : Nat) : Bank := h.banks.getD k { deadline := h.dl0 }

def Harness.setBank (h : Harness) (k : Nat) (b : Bank) : Harness := { h with banks := h.banks.set k b }

/-- The physical cell that serves a logical one (17 R418). -/
def Harness.physCell (h : Harness) (cell : Nat) : Nat := field h.cellMap.toNat (5 * cell) 5

/-- The physical row that serves a logical row of a bank (17 R419). -/
def Harness.physRow (h : Harness) (cell bank row : Nat) : Nat :=
  let es := h.rowMap.getD (16 * h.physCell cell + bank) []
  match es.findIdx? fun e => field e.toNat 15 1 == 1 && field e.toNat 0 9 == row with
  | some i => 512 + i
  | none => row

/-- Whether a bank can begin an access in a cycle. -/
def Bank.free (b : Bank) (now : Nat) : Bool :=
  decide (b.till ≤ now) && (b.st == .serve || b.st == .act)

/-- An access of `beats` beats to a row of a free bank in cycle `now` (R49, R67): the bank after it, whether it activated
the row and whether the row's counter reached `tdmt`. `close` is placement policy 1: every access activates (R56, 05 R152). -/
def Bank.access (b : Bank) (now row beats tdmt : Nat) (close : Bool) : Bank × Bool × Bool :=
  if b.row = some row ∧ !close then
    ({ b with till := now + 2 * beats, st := .serve }, false, false)
  else
    let n := b.ctr.getD row 0 + 1
    let fin := now + 12 + 2 * beats
    if n ≥ tdmt then
      ({ b with row := none, st := .backoff, till := fin + 96, ctr := b.ctr.erase row }, true, true)
    else
      ({ b with row := if close then none else some row, st := .act, till := fin, ctr := b.ctr.set row n }, true, false)

/-- One granule of a tower met by a refresh (17 R407, R412): corrected, or poisoned without a consumption and reported. -/
def State.refreshGranule (s : State) (gr : Nat) : State :=
  let bad := s.latent.getD gr false
  let r := towerRank (64 * gr)
  let s := s.scrubGranule gr
  if bad then s.message (dieOf r) cPOISON r (BitVec.ofNat 64 (64 * gr)) 0 else s

/-- A refresh checks every granule of the rows of harness r that `f` picks, by tower offset. -/
def State.refreshRows (s : State) (r : Nat) (f : Nat → Bool) : State :=
  (s.latent.filter fun kv => isTower (64 * kv.1) && towerRank (64 * kv.1) == r && f (64 * kv.1)).foldl
    (fun s kv => s.refreshGranule kv.1) s

/-- Two physical rows of a bank are neighbours: the spares 512-519 only among themselves (R67; 17 R419). -/
def neighbours (a b : Nat) : Bool := (a + 1 == b || b + 1 == a) && decide (a < 512) == decide (b < 512)

/-- The alert of a disturbed row is counted and reported (R67, R68; 16 R404), and its neighbours are refreshed
(DESIGN CHOICE, log entry 49). -/
def State.alert (s : State) (r cell bank row : Nat) : State :=
  let pr := (s.har r).physRow cell bank row
  let s := s.refreshRows r fun k =>
    towCell k == cell && towBank k == bank && neighbours pr ((s.har r).physRow cell bank (towRow k))
  let s := s.modSp r fun p => { p with dalrt := p.dalrt + 1, dboff := p.dboff + 96 }
  let subj := mkPtr 2 r (cell * 2 ^ 22 + row * 2 ^ 13 + bank * 2 ^ 9)
  s.message (dieOf r) cDISTURB_ALERT r subj (BitVec.ofNat 64 (bank * 2 ^ 16 + row))

/-- An access to one row of one bank of harness r that serves it, after the beats that the same word has there; whether it
activated the row. -/
def State.touchRow (s : State) (r cell bank row beats : Nat) (close : Bool) : State × Bool :=
  let h := s.har r
  let k := bankKey cell bank
  let pr := h.physRow cell bank row
  let (b, act, al) := (h.bank k).access (max s.mcc.toNat (h.bank k).till) pr beats (s.die (dieOf r)).tdmt.toNat close
  let s := s.setHar r (h.setBank k b)
  (if al then s.alert r cell bank row else s, act)

/-! Who is served (R50): requests in the order in which they reached the bank, and in one cycle the owner's engines first,
then its sequencer, then the express network, then copy engines. -/

/-- Who asks a bank: a harness, through its T engine (port 0), its decoder (1), the instruction in issue (2), its load queue
(3) or its store queue (4), or its decoder's barrier subtraction (5); and whether placement policy 2 holds copy engines back (R56). -/
structure Asker where
  rank : Nat
  port : Nat
  hold : Bool := false
deriving DecidableEq, Repr

def Asker.who (a : Asker) : Nat := 8 * a.rank + a.port

/-- The class of a request to a tower of rank `own`. The decoder counts as the T engine does (DESIGN CHOICE, log entry 57). -/
def Asker.cls (a : Asker) (own : Nat) : Nat := if a.rank ≠ own then 2 else if a.port ≤ 1 ∨ a.port = 5 then 0 else 1

/-- A request goes before another. -/
def BankReq.before (x y : BankReq) : Bool :=
  decide (x.arr < y.arr) || x.arr == y.arr && (decide (x.cls < y.cls) || x.cls == y.cls && decide (x.who ≤ y.who))

/-- The requests that still wait in a cycle: each is made again in every cycle until it is served. -/
def Bank.live (b : Bank) (now : Nat) : List BankReq := b.wait.filter fun q => decide (now ≤ q.seen + 1)

/-- The request of an asker to a bank of rank `own` in a cycle: the one that waits, or a new one. -/
def Bank.request (b : Bank) (a : Asker) (own now : Nat) : BankReq :=
  match (b.live now).find? fun q => q.who == a.who with
  | some q => { q with seen := now, hold := a.hold }
  | none => { who := a.who, cls := a.cls own, arr := now, seen := now, hold := a.hold }

/-- The bank serves a request: it is free, no earlier request waits, and no earlier beat of a copy engine, unless policy 2
holds those back. A sequencer's request to another harness's tower is on its way for one cycle (DESIGN CHOICE, log entry 57). -/
def Bank.serves (b : Bank) (a : Asker) (own now : Nat) : Bool :=
  let q := b.request a own now
  let others := (b.live now).filter fun x => x.who != q.who
  b.free now && others.all q.before && (q.hold || others.any (·.hold) || b.late.all fun x => decide (q.arr ≤ x.arr)) &&
    (q.cls != 2 || decide (a.port ≤ 1) || a.port == 5 || decide (q.arr < now))

/-- The bank of a tower key. -/
def State.bankAt (s : State) (k : Nat) : Bank := (s.har (towerRank k)).bank (bankKey (towCell k) (towBank k))

def State.setBankAt (s : State) (k : Nat) (b : Bank) : State :=
  s.modHar (towerRank k) fun h => h.setBank (bankKey (towCell k) (towBank k)) b

/-- The bank of a tower key serves an asker; a key elsewhere has no bank. -/
def State.serves (s : State) (a : Asker) (k : Nat) : Bool :=
  !isTower k || (s.bankAt k).serves a (towerRank k) s.mcc.toNat

/-- The asker waits at the bank of a tower key. -/
def State.ask (s : State) (a : Asker) (k : Nat) : State :=
  if isTower k then
    let b := s.bankAt k
    let now := s.mcc.toNat
    s.setBankAt k { b with wait := (b.live now).filter (fun q => q.who != a.who) ++ [b.request a (towerRank k) now] }
  else s

/-- The asker waits at the bank of a tower key no longer. -/
def State.unask (s : State) (a : Asker) (k : Nat) : State :=
  if isTower k && (s.bankAt k).wait.any (fun q => q.who == a.who) then
    let b := s.bankAt k
    s.setBankAt k { b with wait := b.wait.filter fun q => q.who != a.who }
  else s

/-- The instruction in issue of the current harness, as an asker. -/
def State.issuer (s : State) : Asker := { rank := s.cur, port := 2 }

/-- The bank of a tower key serves the instruction in issue of the current harness. -/
def State.towerFree (s : State) (k : Nat) : Bool := s.serves s.issuer k

/-- The access of an asker to one place of memory: one beat of the bank that holds it; and the cycles until it returns, 8 where
the row was open and 20 where it was not, none outside towers (R49). -/
def State.touchLat (s : State) (a : Asker) (k : Nat) : State × Nat :=
  if isTower k then
    let x := (s.unask a k).touchRow (towerRank k) (towCell k) (towBank k) (towRow k) 1 false
    (x.1, if x.2 then 20 else 8)
  else (s, 0)

def State.touch (s : State) (a : Asker) (k : Nat) : State := (s.touchLat a k).1

/-- The access of the blocking instruction in issue: the sequencer issues again in the cycle after it has returned (R49; 04
R107). -/
def State.touchIssue (s : State) (k : Nat) : State :=
  let x := s.touchLat s.issuer k
  if x.2 = 0 then x.1 else x.1.modHar s.cur fun h => { h with reply := s.mcc.toNat + x.2 + 1 }

/-- The beat of a copy packet at a tower key goes to its bank. -/
def State.post (s : State) (k : Nat) (close : Bool) (who : PktId) : State :=
  if isTower k then
    let b := s.bankAt k
    s.setBankAt k { b with late := b.late ++ [⟨towRow k, close, s.mcc.toNat, who⟩] }
  else s

/-- The banks have served every beat of a packet. -/
def State.served (s : State) (who : PktId) : Bool := s.hs.all fun kh => kh.2.banks.all fun kb => kb.2.late.all fun x => x.who != who

/-- The beats that n bytes from a key upward touch, as keys. -/
def beatKeys (k n : Nat) : List Nat :=
  if n = 0 then [] else (List.range ((k + n - 1) / 256 - k / 256 + 1)).map fun i => 256 * (k / 256 + i)

/-- The first posted beat of a bank may be served at the end of a cycle: nobody who reached the bank before it, or with it,
waits, nor anybody under placement policy 2. -/
def Bank.lateNext (b : Bank) (now : Nat) : Option (Nat × Bool) :=
  match b.late with
  | [] => none
  | x :: _ =>
    if b.free now && b.wait.all fun q => decide (q.seen < now) || decide (x.arr < q.arr) && !q.hold then some (x.row, x.close)
    else none

/-- The banks serve posted beats, one each, at the end of a cycle. -/
def State.drainLate (s : State) : State :=
  s.hs.foldl (fun s kh => kh.2.banks.foldl (fun s kb =>
    match kb.2.lateNext s.mcc.toNat with
    | none => s
    | some (row, close) =>
      let b := (s.har kh.1).bank kb.1
      ((s.modHar kh.1 fun h => h.setBank kb.1 { b with late := b.late.tail }).touchRow kh.1 (kb.1 / 16) (kb.1 % 16) row 1 close).1) s) s

/-- The refresh of a bank begins in the present cycle (R63): REFRESH for a TREF, FORCED for the guard. -/
def Bank.refresh (b : Bank) (now : Nat) (st : BankSt) : Bank := { b with st := st, till := now + 12300, row := none }

/-- A refresh completes (R421): deadline ← t + D, counters 0, no row open. -/
def Bank.refreshed (b : Bank) (now d : Nat) : Bank :=
  { b with st := .serve, deadline := now + d, ctr := [], row := none, till := now }

/-- Remaining refresh time of a bank. -/
def Bank.left (b : Bank) (now : Nat) : Int := (b.deadline : Int) - now

/-- Every bank of a harness by key. -/
def Harness.allBanks (h : Harness) : List (Nat × Bank) := (List.range 256).map fun k => (k, h.bank k)

/-- The smallest remaining time over the harness's banks (R65): an unlisted bank has the default deadline. -/
def Harness.leastLeft (h : Harness) (now : Nat) : Int :=
  let ds := h.banks.map fun kb => kb.2.left now
  let ds := if h.banks.length < 256 then ((h.dl0 : Int) - now) :: ds else ds
  ds.foldl min (ds.headD 0)

end Sys2Proof.Machine
end

