-- ==== Sys2Proof/Machine/SeqMem.lean ====
section
/-!
DEFINITION. Sequencer loads and stores and queue control (06 R174-R176, 04 R107-R109, R115).
-/

namespace Sys2Proof.Machine

/-- The address of format SM (05 R136). -/
def eaSM (base : Word) (i : BitVec 10) (size : Nat) : Word := base + i.signExtend 64 * BitVec.ofNat 64 size

/-- Requests of an engine whose results have no fixed latency and have still to arrive (05 R153); a table load makes none. -/
def EngSt.requests (x : EngSt) : Nat :=
  (x.pend.filter fun p => p.due == .free .load || p.due == .free .decode || p.due == .free .seek).length

/-- Outstanding memory requests of a harness (06 R175) (DESIGN CHOICE, log entry 24). -/
def Harness.requests (h : Harness) : Nat :=
  h.seq.loadQ.length + h.seq.back.length + h.seq.storeQ.length + h.te.requests + h.de.requests

/-- The harness has 2048 memory requests outstanding. -/
def Harness.atLimit (h : Harness) : Bool := decide (2048 ≤ h.requests)

/-- A consumption by the sequencer at a key (17 R408): its granule is checked, the die's count rises, and the fault is
precise. -/
def State.consumeFault (s : State) (r k code : Nat) (p : Word) (acc : Nat) : State :=
  s.preciseF r { code := code, addr := p, acc := acc, gran := some k }

/-- A load of the current harness (06 R174): its checks at issue, then its place in the load queue
(DEDUCED, log entry 27). -/
def State.load (s : State) (d : BitVec 6) (p : Word) (size : Nat) (sext : Bool) (sb : BitVec 4) : State :=
  let r := s.cur
  match s.seqAccess r p ⟨size, size, accRead, true, false, false, false⟩ with
  | .error f => s.preciseF r f
  | .ok pl =>
    -- a load that its bank does not serve now is judged when it does (17 R424)
    let con : Option (Nat × Nat) := match pl with
      | .mem k => if s.serves { rank := r, port := 3 } k then (s.consumesN k size).map fun c => (k, c) else none
      | .reg _ => none
    match con with
    | some (k, c) => s.consumeFault r k c p accRead
    | none =>
      if (s.har r).atLimit then s.stall
      else
        (s.cacheFor r p).retireSeq fun q =>
          { q with loadQ := q.loadQ ++ [LoadReq.mk d pl size sext sb.toNat q.epoch p] : Seq }.setSb sb.toNat

/-- A store of the current harness: g(d) is read at issue. -/
def State.store (s : State) (d : BitVec 6) (p : Word) (size : Nat) (sb : BitVec 4) : State :=
  let r := s.cur
  match s.seqAccess r p ⟨size, size, accWrite, false, true, true, false⟩ with
  | .error f => s.preciseF r f
  | .ok pl =>
    if (s.har r).atLimit then s.stall
    else
      let v := s.g d
      let what : StoreWhat := match pl with
        | .mem k => .mem k (leBytes size v.toNat)
        | .reg n => .reg n (s.har r).level v
      (s.cacheFor r p).retireSeq fun q =>
        { q with storeQ := q.storeQ ++ [StoreReq.mk what sb.toNat q.epoch] : Seq }.setSb sb.toNat

def execLdb (d a : BitVec 6) (i : BitVec 10) (sb : BitVec 4) (s : State) : Out :=
  .next (s.load d (eaSM (s.g a) i 1) 1 true sb)
def execLdbu (d a : BitVec 6) (i : BitVec 10) (sb : BitVec 4) (s : State) : Out :=
  .next (s.load d (eaSM (s.g a) i 1) 1 false sb)
def execLdh (d a : BitVec 6) (i : BitVec 10) (sb : BitVec 4) (s : State) : Out :=
  .next (s.load d (eaSM (s.g a) i 2) 2 true sb)
def execLdhu (d a : BitVec 6) (i : BitVec 10) (sb : BitVec 4) (s : State) : Out :=
  .next (s.load d (eaSM (s.g a) i 2) 2 false sb)
def execLdw (d a : BitVec 6) (i : BitVec 10) (sb : BitVec 4) (s : State) : Out :=
  .next (s.load d (eaSM (s.g a) i 4) 4 true sb)
def execLdwu (d a : BitVec 6) (i : BitVec 10) (sb : BitVec 4) (s : State) : Out :=
  .next (s.load d (eaSM (s.g a) i 4) 4 false sb)
def execLdd (d a : BitVec 6) (i : BitVec 10) (sb : BitVec 4) (s : State) : Out :=
  .next (s.load d (eaSM (s.g a) i 8) 8 false sb)
def execStb (d a : BitVec 6) (i : BitVec 10) (sb : BitVec 4) (s : State) : Out :=
  .next (s.store d (eaSM (s.g a) i 1) 1 sb)
def execSth (d a : BitVec 6) (i : BitVec 10) (sb : BitVec 4) (s : State) : Out :=
  .next (s.store d (eaSM (s.g a) i 2) 2 sb)
def execStw (d a : BitVec 6) (i : BitVec 10) (sb : BitVec 4) (s : State) : Out :=
  .next (s.store d (eaSM (s.g a) i 4) 4 sb)
def execStd (d a : BitVec 6) (i : BitVec 10) (sb : BitVec 4) (s : State) : Out :=
  .next (s.store d (eaSM (s.g a) i 8) 8 sb)

/-- Every earlier load and store has completed. -/
def Seq.drained (q : Seq) : Bool := q.loadQ.isEmpty && q.back.isEmpty && q.storeQ.isEmpty

/-- Whether every earlier load and store of the current harness has completed. -/
def State.drained (s : State) : Bool := (s.har s.cur).seq.drained

/-- QSYNC separates what follows from what stands in the queues (R108, R109); it does not stall. -/
def execQsync (s : State) : Out := .next (s.retireSeq fun q => { q with epoch := q.epoch + 1 })

/-- Whether every slot of a WAIT mask is clear: bit n - 1 of the field names slot n. -/
def Seq.slotsClear (q : Seq) (m : BitVec 15) : Bool :=
  (List.range 15).all fun i => !(m.getLsbD i) || q.sbn.getD (i + 1) 0 == 0

def execWait (m : BitVec 15) (s : State) : Out :=
  .next (if (s.har s.cur).seq.slotsClear m then s.retireSeq id else s.stall)

/-- A FENCE stalls issue until every earlier load and store has completed (R115); scopes of 5-7 are illegal
(DESIGN CHOICE, log entry 48). -/
def execFence (sc : BitVec 3) (_o : BitVec 2) (s : State) : Out :=
  if sc.toNat > 4 then .next (s.preciseC s.cur cILLEGAL_INSTR)
  else .next (if s.drained then s.retireSeq id else s.stall)

def execNop (s : State) : Out := .next (s.retireSeq id)

/-! Atomics (06 R177, R178; 04 R113) -/

/-- What an atomic does: from the old word, what it writes (if anything) and what it delivers to g(d) (if anything). -/
abbrev AtomicFn := Word → Option Word × Option Word

/-- Who wrote n bytes from a key, none of them past its granule: the tag of a packet slot stands in bytes 4 to 7 of a multiple
of 64 (09 R282, R307). -/
def State.noteTag (s : State) (k n : Nat) (w : Poster) : State :=
  if k % 64 < 8 ∧ 4 < k % 64 + n then { s with tagger := s.tagger.set (k / 64 * 64) w } else s

/-- Who wrote bytes at keys; slots lie in HBM only (09 R279). -/
def State.noteKeys (s : State) (ks : List Nat) (w : Poster) : State :=
  let gs := (ks.filter fun k => decide (k < 2 ^ 60) && decide (4 ≤ k % 64) && decide (k % 64 < 8)).map (· / 64 * 64)
  if gs.isEmpty then s else { s with tagger := gs.foldl (fun t g => t.set g w) s.tagger }

/-- The poster that a harness is. -/
def State.asPoster (s : State) (r : Nat) : Poster :=
  match (s.har r).ctl.node with
  | some n => .harness r n.nid
  | none => .other

/-- An atomic of the current harness on the word at p: blocking, checked, performed as one access. `s5` tells whether
space 5 is closed to it at U (every function but ALOAD) (DEDUCED, log entry 27). -/
def State.atomic (s : State) (p : Word) (s5 : Bool) (fn : Word → Option Word) (fin : Word → Seq → Seq) : State :=
  let r := s.cur
  if !s.drained then s.stall
  else match s.seqAccess r p ⟨8, 8, accAtomic, true, true, s5, true⟩ with
    | .error f => s.preciseF r f
    | .ok (.reg _) => s.precise r { code := cBAD_SPACE, addr := p, acc := accAtomic }
    | .ok (.mem k) =>
      if !s.towerFree k then (s.ask s.issuer k).stall
      else match s.consumesN k 8 with
        | some c => (s.unask s.issuer k).consumeFault r k c p accAtomic
        | none =>
          let old : Word := BitVec.ofNat 64 (leNat (memRead s.mem k 8))
          let s := ((s.cacheFor r p).scrub k 8).touchIssue k
          let s := match fn old with
            | some v => (s.write k (leBytes 8 v.toNat)).noteTag k 8 (s.asPoster r)
            | none => s
          s.retireSeq (fin old)

/-- An atomic that delivers the old value to g(d); a scope of 5-7 is illegal (05 R138). -/
def State.atomicOld (s : State) (d : BitVec 6) (a : BitVec 6) (sc : BitVec 3) (fn : Word → Option Word) : State :=
  if sc.toNat > 4 then s.preciseC s.cur cILLEGAL_INSTR
  else s.atomic (s.g a) true fn fun old q => q.wg d old

def execAadd (_o : BitVec 2) (d a b : BitVec 6) (sc : BitVec 3) (s : State) : Out :=
  .next (s.atomicOld d a sc fun old => some (old + s.g b))
def execAand (_o : BitVec 2) (d a b : BitVec 6) (sc : BitVec 3) (s : State) : Out :=
  .next (s.atomicOld d a sc fun old => some (old &&& s.g b))
def execAor (_o : BitVec 2) (d a b : BitVec 6) (sc : BitVec 3) (s : State) : Out :=
  .next (s.atomicOld d a sc fun old => some (old ||| s.g b))
def execAxor (_o : BitVec 2) (d a b : BitVec 6) (sc : BitVec 3) (s : State) : Out :=
  .next (s.atomicOld d a sc fun old => some (old ^^^ s.g b))
def execAmin (_o : BitVec 2) (d a b : BitVec 6) (sc : BitVec 3) (s : State) : Out :=
  .next (s.atomicOld d a sc fun old => some (if old.slt (s.g b) then old else s.g b))
def execAmax (_o : BitVec 2) (d a b : BitVec 6) (sc : BitVec 3) (s : State) : Out :=
  .next (s.atomicOld d a sc fun old => some (if old.slt (s.g b) then s.g b else old))
def execAminu (_o : BitVec 2) (d a b : BitVec 6) (sc : BitVec 3) (s : State) : Out :=
  .next (s.atomicOld d a sc fun old => some (if old.ult (s.g b) then old else s.g b))
def execAmaxu (_o : BitVec 2) (d a b : BitVec 6) (sc : BitVec 3) (s : State) : Out :=
  .next (s.atomicOld d a sc fun old => some (if old.ult (s.g b) then s.g b else old))
def execAswap (_o : BitVec 2) (d a b : BitVec 6) (sc : BitVec 3) (s : State) : Out :=
  .next (s.atomicOld d a sc fun _ => some (s.g b))

/-- Writes g(b) only where the word equals g(d) on entry. -/
def execAcas (_o : BitVec 2) (d a b : BitVec 6) (sc : BitVec 3) (s : State) : Out :=
  .next (s.atomicOld d a sc fun old => if old = s.g d then some (s.g b) else none)

def execAload (_o : BitVec 2) (d a : BitVec 6) (sc : BitVec 3) (s : State) : Out :=
  if sc.toNat > 4 then .next (s.preciseC s.cur cILLEGAL_INSTR)
  else .next (s.atomic (s.g a) false (fun _ => none) fun old q => q.wg d old)

def execAstore (_o : BitVec 2) (a b : BitVec 6) (sc : BitVec 3) (s : State) : Out :=
  if sc.toNat > 4 then .next (s.preciseC s.cur cILLEGAL_INSTR)
  else .next (s.atomic (s.g a) true (fun _ => some (s.g b)) fun _ q => q)

/-- JOIN (R194): decrements the counter and reports whether the new value is 0. -/
def execJoin (k : BitVec 4) (a : BitVec 6) (s : State) : Out :=
  .next (s.atomic (s.g a) true (fun old => some (old - 1)) fun old q => q.wk k (old - 1 == 0))

end Sys2Proof.Machine
end

