-- ==== Sys2Proof/Machine/Barrier.lean ====
section
/-!
DEFINITION. Barrier objects and WAITA (04 R121-R126, R444; 06 R179, R180).
-/

namespace Sys2Proof.Machine

/-- Fields of word 0 (R122). -/
def barReload (w : Word) : Nat := wf w 48 16
def barPend (w : Word) : Nat := wf w 32 16
def barPhase (w : Word) : Bool := wf w 24 1 == 1
def barBal (w : Word) : Int := sextNat 24 (wf w 0 24)

/-- Word 0 with other PEND, PHASE and BAL. -/
def barPut (w : Word) (pend : Nat) (phase : Bool) (bal : Int) : Word :=
  BitVec.ofNat 64 (wf w 48 16 * 2 ^ 48 + pend * 2 ^ 32 + wf w 25 7 * 2 ^ 25 + b2n phase * 2 ^ 24 +
    (bal % 2 ^ 24).toNat)

/-- An update of R123 other than initialise. -/
inductive BarUpd where
  | expect (n : Nat)
  | arrive
  | complete (n : Nat)
deriving DecidableEq, Repr

/-- The flip test of R123. -/
def barFlip (w : Word) (pend : Nat) (bal : Int) : Word :=
  if pend = 0 ∧ bal = 0 then barPut w (barReload w) (!barPhase w) 0 else barPut w pend (barPhase w) bal

/-- One update with its flip test; none where R126 does not apply it. -/
def barUpdate (w : Word) (u : BarUpd) : Option Word :=
  let inRange (b : Int) : Bool := decide (-(2 ^ 23 : Int) ≤ b) && decide (b < 2 ^ 23)
  match u with
  | .expect n =>
    let b := barBal w + n
    if inRange b then some (barFlip w (barPend w) b) else none
  | .complete n =>
    let b := barBal w - n
    if inRange b then some (barFlip w (barPend w) b) else none
  | .arrive => if barPend w = 0 then none else some (barFlip w (barPend w - 1) (barBal w))

/-- The word at a key. -/
def State.wordAt (s : State) (k : Nat) : Word := BitVec.ofNat 64 (leNat (memRead s.mem k 8))

/-- The chunks in which a transfer counts its bytes: 2048 bytes each, the last one the rest. R124 fixes only the least size; the
size, for packets, collectives, TBARR and decoder fills alike, is the model's choice (DESIGN CHOICE, log entry 22). -/
def chunks : Nat → Nat → List Nat
  | 0, _ => []
  | fuel + 1, n => if n = 0 then [] else if n ≤ 2048 then [n] else 2048 :: chunks fuel (n - 2048)

/-- Chunks subtracted from the object at a key until one would leave the range (R444): the state, and the bytes that were
not subtracted. -/
def State.barChunks (s : State) (k : Nat) : List Nat → State × Nat
  | [] => (s, 0)
  | c :: cs =>
    match barUpdate (s.wordAt k) (.complete c) with
    | some w => (s.write k (leBytes 8 w.toNat)).barChunks k cs
    | none => (s, (c :: cs).foldl (· + ·) 0)

/-- The access of a barrier-object instruction: aligned to 16, closed in space 5 at U and in space 15. -/
def barAcc (w : Bool) : SeqAcc := ⟨16, 16, accAtomic, true, w, true, true⟩

/-- A blocking update of the current harness: `f` gives the new word 0, or the code of the fault. -/
def State.barAtomic (s : State) (p : Word) (f : Word → Except Nat Word) : State :=
  let r := s.cur
  if !s.drained then s.stall
  else match s.seqAccess r p (barAcc true) with
    | .error e => s.preciseF r e
    | .ok (.reg _) => s.precise r { code := cBAD_SPACE, addr := p, acc := accAtomic }
    | .ok (.mem k) =>
      if !s.towerFree k then (s.ask s.issuer k).stall
      else match s.consumesN k 8 with
        | some c => (s.unask s.issuer k).consumeFault r k c p accAtomic
        | none => match f (s.wordAt k) with
          | .error c => s.preciseC r c
          | .ok w => (((s.cacheFor r p).scrub k 8).touchIssue k |>.write k (leBytes 8 w.toNat)).retireSeq id

/-- R123: a plain 16-byte write of RELOAD = PEND = c. It is checked as an atomic is, for reading as well as writing, and
poison is no matter to it, as to a plain write (DESIGN CHOICE, log entry 58). -/
def execBarinit (a b : BitVec 6) (s : State) : Out :=
  let r := s.cur
  let p := s.g a
  if !s.drained then .next s.stall
  else match s.seqAccess r p (barAcc true) with
    | .error e => .next (s.preciseF r e)
    | .ok (.reg _) => .next (s.precise r { code := cBAD_SPACE, addr := p, acc := accAtomic })
    | .ok (.mem k) =>
      if !s.towerFree k then .next (s.ask s.issuer k).stall
      else
        let c := wf (s.g b) 0 16
        let w : Word := BitVec.ofNat 64 (c * 2 ^ 48 + c * 2 ^ 32)
        .next (((s.cacheFor r p).touchIssue k |>.write k (wordBytes [w, 0])).retireSeq id)

/-- R123, R126, R180: the byte count lies in 0 to 2^23 - 1, which is checked before the pointer (R162). -/
def execBarexp (a b : BitVec 6) (s : State) : Out :=
  if (s.g b).toNat ≥ 2 ^ 23 then .next (s.preciseC s.cur cBAR_OVERFLOW)
  else
    .next (s.barAtomic (s.g a) fun w => match barUpdate w (.expect (s.g b).toNat) with
      | some w => .ok w
      | none => .error cBAR_OVERFLOW)

def execBararr (a : BitVec 6) (s : State) : Out :=
  .next (s.barAtomic (s.g a) fun w => match barUpdate w .arrive with
    | some w => .ok w
    | none => .error cBAR_OVERFLOW)

/-- An instruction that reads a word once every earlier load and store has completed: `f` gives the effect, or none to
stall. It holds later loads and stores as a QSYNC after it would (R179). -/
def State.waitWord (s : State) (p : Word) (a : SeqAcc) (f : Word → Option (Seq → Seq)) : State :=
  let r := s.cur
  if !s.drained then s.stall
  else match s.seqAccess r p a with
    | .error e => s.preciseF r e
    | .ok (.reg _) => s.precise r { code := cBAD_SPACE, addr := p, acc := a.acc }
    | .ok (.mem k) =>
      if !s.towerFree k then (s.ask s.issuer k).stall
      else match s.consumesN k 8 with
        | some c => (s.unask s.issuer k).consumeFault r k c p a.acc
        | none => match f (s.wordAt k) with
          | none => s.stall
          | some g => (((s.cacheFor r p).scrub k 8).touchIssue k).retireSeq fun q => g { q with epoch := q.epoch + 1 }

/-- R179: cc of 10-63 and scopes of 5-7 are illegal. -/
def execWaita (c a b : BitVec 6) (sc : BitVec 3) (s : State) : Out :=
  if c.toNat > 9 ∨ sc.toNat > 4 then .next (s.preciseC s.cur cILLEGAL_INSTR)
  else
    .next (s.waitWord (s.g a) ⟨8, 8, accRead, true, false, true, true⟩ fun w =>
      if condHolds c.toNat w (s.g b) then some id else none)

def execBarwait (a b : BitVec 6) (s : State) : Out :=
  .next (s.waitWord (s.g a) ⟨16, 16, accRead, true, false, true, true⟩ fun w =>
    if barPhase w ≠ (s.g b).getLsbD 0 then some id else none)

def execBartest (k : BitVec 4) (a b : BitVec 6) (s : State) : Out :=
  .next (s.waitWord (s.g a) ⟨16, 16, accRead, true, false, true, true⟩ fun w =>
    some fun q => q.wk k (barPhase w != (s.g b).getLsbD 0))

end Sys2Proof.Machine
end

