-- ==== Sys2Proof/Machine/Links.lean ====
section
/-!
DEFINITION. The control port and the peer ports: host accesses, the console, flits, links going down and up
(18 R425-R430).
-/

namespace Sys2Proof.Machine

/-! Host accesses (R425) -/

/-- What a host read, write or atomic needs: R or W, and CE; SUP does not refuse it. -/
def needHR : Need := { r := true, ce := true }
def needHW : Need := { w := true, ce := true }
def needHA : Need := { r := true, w := true, ce := true }

/-- The word an atomic function writes (05 R137, 06 R177). -/
def hostFn (fn : Nat) (old operand compare : Word) : Option Word :=
  match fn with
  | 0 => some (old + operand)
  | 1 => some (old &&& operand)
  | 2 => some (old ||| operand)
  | 3 => some (old ^^^ operand)
  | 4 => some (if old.slt operand then old else operand)
  | 5 => some (if old.slt operand then operand else old)
  | 6 => some (if old.ult operand then old else operand)
  | 7 => some (if old.ult operand then operand else old)
  | 8 => some operand
  | 9 => if old = compare then some operand else none
  | 11 => some operand
  | _ => none

/-- The keys of n bytes of a partition's space 0 for the host: none where the access fails. -/
def State.hostKeys (s : State) (p va n : Nat) (need : Need) (acc : Nat) : Option (List Nat) :=
  if (s.diesOf p).isEmpty ∨ va + n > 2 ^ 48 then none else (s.devKeys p va n need acc).toOption

/-- The granules of keys are checked, as each read of them does. -/
def State.scrubKeys (s : State) (ks : List Nat) : State :=
  if s.latent.isEmpty then s else ks.foldl (fun s k => s.scrub k 1) s

def State.reply (s : State) (m : HostMsg) : State := { s with hostOut := s.hostOut ++ [m] }

/-- A host access at an address of partition p's space 0: the reply goes to the host, and a failure writes nothing
(DESIGN CHOICE, log entry 44). -/
def State.hostDo (s : State) (p va : Nat) (op : HostOp) : State :=
  match op with
  | .read n =>
    match s.hostKeys p va n needHR accRead with
    | none => s.reply .failed
    | some ks =>
      if ks.any fun k => (s.consumes k).isSome then (s.scrubKeys ks).reply .failed
      else (s.scrubKeys ks).reply (.data (ks.map (memGet s.mem)))
  | .write bs =>
    match s.hostKeys p va bs.length needHW accWrite with
    | none => s.reply .failed
    | some ks => ((s.noteKeys ks .host).writeKeys ks bs).reply .done
  | .atomic fn v w =>
    match (if va % 8 = 0 ∧ fn ≤ 11 then s.hostKeys p va 8 needHA accAtomic else none) with
    | some (k :: _) =>
      match s.consumesN k 8 with
      | some _ => (s.scrub k 8).reply .failed
      | none =>
        let old := BitVec.ofNat 64 (leNat (memRead s.mem k 8))
        let s := s.scrub k 8
        let s := match hostFn fn old v w with
          | some x => (s.write k (leBytes 8 x.toNat)).noteTag k 8 .host
          | none => s
        s.reply (.data (leBytes 8 old.toNat))
    | _ => s.reply .failed

/-- R425: the host makes access `host` at address v of partition a. -/
def execHostAccess (s : State) : Out := .next (s.hostDo s.ev.a s.ev.v.toNat s.ev.host)

/-! The console (R426) -/

/-- The state after the port has sent the byte of the output ring at ORD, which then advances: none where there is nothing to
send, too much, or an access of the port fails. -/
def State.consoleDrain (s : State) (p : Nat) : Option State :=
  let b := s.console p
  match s.devWord p ((b + 0x2B00) % 2 ^ 48) needR, s.devWord p ((b + 0x2B08) % 2 ^ 48) needR with
  | .ok owr, .ok ord =>
    let n := (owr - ord).toNat
    if n = 0 ∨ 512 < n then none
    else match s.devRead p ((b + 0x2C00 + ord.toNat % 512) % 2 ^ 48) 1 needR with
      | .error _ => none
      | .ok bs =>
        match s.devStore p ((b + 0x2B08) % 2 ^ 48) (wordBytes [ord + 1]) needW with
        | .error _ => none
        | .ok s => some { s with consoleOut := s.consoleOut ++ bs.map fun x => (p, x) }
  | _, _ => none

/-- R426: the port of partition a sends its next byte. -/
def execConsoleSend (s : State) : Out := .next ((s.consoleDrain s.ev.a).getD s)

/-- A byte taken into the input ring: none while the ring is full, or where an access of the port fails. -/
def State.consoleTake (s : State) (p : Nat) (x : Byte) : Option State :=
  let b := s.console p
  match s.devWord p ((b + 0x2B10) % 2 ^ 48) needR, s.devWord p ((b + 0x2B18) % 2 ^ 48) needR with
  | .ok iwr, .ok ird =>
    if 448 ≤ (iwr - ird).toNat then none
    else match s.devStore p ((b + 0x2E00 + iwr.toNat % 448) % 2 ^ 48) [x] needW with
      | .error _ => none
      | .ok s => (s.devStore p ((b + 0x2B10) % 2 ^ 48) (wordBytes [iwr + 1]) needW).toOption
  | _, _ => none

/-- The first byte that waits at the host side for a partition enters its ring, once it can. -/
def State.consoleEnter (s : State) (p : Nat) : Option State :=
  match s.consoleIn.find? fun x => x.1 == p with
  | none => none
  | some x => ({ s with consoleIn := eraseOne x s.consoleIn } : State).consoleTake p x.2

/-- R426: the first byte of `bytes` arrives for partition a, behind those that wait at the host side. -/
def execConsoleReceive (s : State) : Out :=
  match s.ev.bytes with
  | [] => .next s
  | x :: _ =>
    let s := { s with consoleIn := s.consoleIn ++ [(s.ev.a, x)] }
    .next ((s.consoleEnter s.ev.a).getD s)

/-! Peer ports (R428-R430) -/

/-- The CRC-32 of IEEE 802.3, bit by bit, least significant first. -/
def crcBits : Nat → Nat → Nat
  | 0, c => c
  | n + 1, c => crcBits n (if c % 2 = 1 then (c / 2) ^^^ 0xEDB88320 else c / 2)

def crc32Ieee (bs : List Byte) : Nat :=
  (bs.foldl (fun c b => crcBits 8 (c ^^^ b.toNat)) 0xFFFFFFFF) ^^^ 0xFFFFFFFF

def State.link (s : State) (n : Nat) : Link := s.links.getD n {}

/-- A PPBIND register with other UP, DOWNS and RETRY. -/
def State.setPort (s : State) (n : Nat) (up : Bool) (downs retry : Nat) : State :=
  let w := (s.ppbind.getD n 0).toNat
  { s with ppbind := s.ppbind.set n (BitVec.ofNat 64
    (field w 63 1 * 2 ^ 63 + b2n up * 2 ^ 62 + field w 58 4 * 2 ^ 58 + downs % 2 ^ 16 * 2 ^ 16 + retry % 2 ^ 16)) }

/-- A link goes down: UP falls, DOWNS rises (R429, R430). A link that is down stays so. -/
def State.portDown (s : State) (n : Nat) : State :=
  let w := s.ppbind.getD n 0
  if wf w 62 1 = 0 then s
  else { (s.setPort n false (wf w 16 16 + 1) (wf w 0 16)) with links := s.links.set n { s.link n with refused := [] } }

/-- The fields of a flit that passes its checks: kind, SEQ, ACK (R428). -/
def flitFields (bs : List Byte) : Option (Nat × Nat × Nat) :=
  let a := leNat ((bs.drop 32).take 2)
  let b := leNat ((bs.drop 34).take 2)
  if bs.length = 40 ∧ leNat (bs.drop 36) = crc32Ieee (bs.take 36) ∧ a / 2 ^ 12 ≤ 5 ∧ b / 2 ^ 12 = 0 then
    some (a / 2 ^ 12, a % 2 ^ 12, b)
  else none

/-- The sequence number of a flit in the replay buffer. -/
def flitSeq (bs : List Byte) : Nat := leNat ((bs.drop 32).take 2) % 2 ^ 12

/-- A replay buffer without the flits up to an acknowledged one. -/
def ackReplay (ack : Nat) (q : List (List Byte)) : List (List Byte) :=
  if q.any fun f => flitSeq f == ack then ((q.dropWhile fun f => flitSeq f != ack).drop 1) else q

/-- A flit (R428). -/
def flitOf (kind sq ack : Nat) (payload : List Byte) : List Byte :=
  let b := (payload ++ List.replicate 32 0).take 32 ++ leBytes 2 (kind * 2 ^ 12 + sq) ++ leBytes 2 ack
  b ++ leBytes 4 (crc32Ieee b)

/-- Payloads that wait are sent, as long as the replay buffer of 512 flits has room: at most n. -/
def Link.send (l : Link) : Nat → Link
  | 0 => l
  | n + 1 => match l.out with
    | [] => l
    | x :: rest =>
      if 512 ≤ l.replay.length then l
      else
        let f := flitOf x.1 l.txSeq.toNat (l.rxSeq - 1).toNat x.2
        Link.send { l with out := rest, txSeq := l.txSeq + 1, tx := l.tx ++ [f], replay := l.replay ++ [f] } n

/-- An idle flit, which carries ACK alone: its SEQ repeats the last one sent. -/
def Link.idle (l : Link) : Link := { l with tx := l.tx ++ [flitOf 0 (l.txSeq - 1).toNat (l.rxSeq - 1).toNat []] }

/-- A flit with a sequence number is refused: the acknowledgement that is sent again makes its sender replay from it; a flit that
is refused for the sixteenth time in a row takes the link down. -/
def State.refuseFlit (s : State) (n sq : Nat) : State :=
  let l := s.link n
  let c := l.refused.getD sq 0 + 1
  let s := { s with links := s.links.set n ({ l with refused := l.refused.set sq c } : Link).idle }
  if 16 ≤ c then s.portDown n else s

/-- The link after an idle flit: the replay buffer loses what is acknowledged, and what waits is sent; an acknowledgement that
comes again means that the peer has refused a flit, and everything in the buffer is sent again. The number of flits replayed
comes with it. -/
def Link.gotIdle (l : Link) (ack : Nat) : Link × Nat :=
  let kept := ackReplay ack l.replay
  let again := if l.acked.toNat = ack then kept else []
  ({ l with acked := BitVec.ofNat 12 ack, replay := kept, tx := l.tx ++ again }.send l.out.length, again.length)

/-- The link after a flit with a payload: it is delivered once and in order and acknowledged; a request is answered. -/
def Link.gotFlit (l : Link) (kind ack : Nat) (payload answer : List Byte) : Link :=
  let out := if kind = 1 then l.out ++ [(3, answer)] else l.out
  let l' := { l with refused := l.refused.erase l.rxSeq.toNat, acked := BitVec.ofNat 12 ack, replay := ackReplay ack l.replay, rxSeq := l.rxSeq + 1
                     rx := l.rx ++ [(kind, payload)], out := out }.send out.length
  if l'.out.length < out.length then l' else l'.idle

/-- R428: port a receives the flit `bytes`: refused where a check fails or it is out of sequence, else its payload is delivered
and what it asks for is sent; RETRY counts flits replayed (R429) (DESIGN CHOICE, log entry 45). -/
def execFlitReceive (s : State) : Out :=
  let n := s.ev.a
  let l := s.link n
  if n ≥ 16 ∨ !s.linkUp n then .next s
  else match flitFields s.ev.bytes with
    | none => .next (s.refuseFlit n (flitSeq s.ev.bytes))
    | some (kind, sq, ack) =>
      let idle := kind == 0
      let want := if idle then (l.rxSeq - 1).toNat else l.rxSeq.toNat
      if sq ≠ want then .next (if idle then { s with links := s.links.set n l.idle } else s.refuseFlit n sq)
      else
        let w := s.ppbind.getD n 0
        if idle then
          let (l, again) := l.gotIdle ack
          .next (if again = 0 then { s with links := s.links.set n l }
            else ({ s with links := s.links.set n l }).setPort n (wf w 62 1 == 1) (wf w 16 16) (wf w 0 16 + again))
        else
          let answer := (List.range 32).map fun i => Config.freeByte s.freeCtr i
          .next { s with links := s.links.set n (l.gotFlit kind ack (s.ev.bytes.take 32) answer) }

/-- R430: the link of port a goes down. -/
def execLinkDown (s : State) : Out := .next (if s.ev.a < 16 then s.portDown s.ev.a else s)

/-- R430: firmware retrains the link of port a. -/
def execLinkTrain (s : State) : Out :=
  let w := s.ppbind.getD s.ev.a 0
  .next (if s.ev.a < 16 then s.setPort s.ev.a true (wf w 16 16) (wf w 0 16) else s)

end Sys2Proof.Machine
end

