-- ==== Sys2Proof/Machine/Records.lean ====
section
/-!
DEFINITION. Buffer records: fields, checks, spans, pins and versions (02 R52-R59, R61; 09 R287; 16 R394, R395), and the
check of a decoder table (10 R316).
-/

namespace Sys2Proof.Machine

/-- The fields of a record (R52). -/
structure Rec where
  base : Word
  ext0 : Nat
  ext1 : Nat
  ext2 : Nat
  s1 : Int
  s2 : Int
  fmt : Nat
  bounds : Nat
  place : Nat
  scope : Nat
  rof : Bool
  spf : Bool
  scf : Bool
deriving DecidableEq, Repr

/-- The fields of four record words. -/
def recOf (w0 w1 w2 w3 : Word) : Rec where
  base := w0
  ext0 := wf w1 0 32
  ext1 := wf w1 32 32
  ext2 := wf w2 40 24
  s1 := sextNat 40 (wf w2 0 40)
  s2 := sextNat 40 (wf w3 0 40)
  fmt := wf w3 40 8
  bounds := wf w3 48 4
  place := wf w3 52 4
  scope := wf w3 56 3
  rof := wf w3 59 1 == 1
  spf := wf w3 60 1 == 1
  scf := wf w3 61 1 == 1

def BufRec.fields (b : BufRec) : Rec := recOf b.w0 b.w1 b.w2 b.w3

/-- The element width of a format code in bits; none for a reserved code (03 R73). -/
def fmtBits (f : Nat) : Option Nat :=
  match f with
  | 0x00 | 0x01 => some 8
  | 0x02 | 0x03 => some 16
  | 0x04 | 0x05 => some 32
  | 0x06 => some 64
  | 0x10 => some 64
  | 0x11 => some 32
  | 0x12 | 0x13 => some 16
  | 0x14 | 0x15 => some 8
  | 0x16 => some 4
  | 0x17 => some 8
  | 0x20 => some 4
  | 0x21 | 0x22 => some 8
  | 0x30 => some 16
  | 0x31 => some 32
  | 0x40 => some 8
  | _ => none

/-- The element width of a record in bits. -/
def Rec.bits (r : Rec) : Nat := (fmtBits r.fmt).getD 8

/-- The element size in bytes, one byte for formats of a byte or less. -/
def Rec.bytes (r : Rec) : Nat := max 1 (r.bits / 8)

def isBlockFmt (f : Nat) : Bool := f == 0x20 || f == 0x21 || f == 0x22

def isSparseFmt (f : Nat) : Bool := f == 0x30 || f == 0x31

/-- The checks of R57; `hi` is bits 63:62 of word 3. -/
def Rec.ok (r : Rec) (hi : Nat) : Bool :=
  decide (r.bounds ≤ 3) && decide (r.place ≤ 3) && decide (r.scope ≤ 4) && hi == 0 && (fmtBits r.fmt).isSome &&
  !(decide (2 ≤ r.bounds) && (r.ext0 == 0 || r.ext1 == 0 || r.ext2 == 0)) &&
  offset r.base % r.bytes == 0 && r.s1 % (r.bytes : Int) == 0 && r.s2 % (r.bytes : Int) == 0 &&
  !(r.spf && !isSparseFmt r.fmt) && !(r.scf && !isBlockFmt r.fmt)

/-- The span of a record as byte offsets from its BASE.OFFSET, low inclusive, high exclusive (09 R287); none when empty. -/
def Rec.span (r : Rec) : Option (Int × Int) :=
  if r.ext0 = 0 ∨ r.ext1 = 0 ∨ r.ext2 = 0 then none
  else
    let len : Int := if r.spf then max r.s1 0 else (((r.ext0 - 1) * r.bits / 8 + max 1 (r.bits / 8) : Nat) : Int)
    let e1 : Int := (r.ext1 : Int) - 1
    let e2 : Int := (r.ext2 : Int) - 1
    let lo := min 0 (e1 * r.s1) + min 0 (e2 * r.s2)
    let hi := max 0 (e1 * r.s1) + max 0 (e2 * r.s2) + len
    if hi ≤ lo then none else some (lo, hi)

/-- The pointer to the page of an offset. -/
def pagePtr (va : Nat) : Word := mkPtr 0 0 (va / 2 ^ 16 * 2 ^ 16)

/-- The leaves of every page from va to below `hi`, in ascending order, each permitting the access; the first failing page
is named by its address (16 R394, R396). -/
def State.pinPages (s : State) (p : Nat) (need : Need) (acc : Nat) (hi : Nat) : Nat → Nat → Except Fail (List Leaf)
  | 0, _ => .ok []
  | fuel + 1, va =>
    if hi ≤ va then .ok []
    else match s.walk p va with
      | .error f => .error { f with addr := pagePtr va, acc := acc }
      | .ok l =>
        if l.allows need then
          match State.pinPages s p need acc hi fuel (l.va + 2 ^ l.sz) with
          | .ok ls => .ok (l :: ls)
          | .error f => .error f
        else .error { code := cXLATE_FAULT, addr := pagePtr va, kind := 2, level := leafLevel l, acc := acc }

/-- The pins of a space-0 span; its low end must be at or above 0 and its high end within 2^48 (R394). -/
def State.pinSpan (s : State) (p : Nat) (r : Rec) (need : Need) (acc : Nat) : Except Fail (List Leaf) :=
  match r.span with
  | none => .ok []
  | some (lo, hi) =>
    let b : Int := offset r.base
    if b + lo < 0 ∨ b + hi > 2 ^ 48 then .error { code := cBAD_ADDRESS, addr := r.base, acc := acc }
    else
      let l := (b + lo).toNat
      let h := (b + hi).toNat
      s.pinPages p need acc h (h / 2 ^ 16 - l / 2 ^ 16 + 2) l

/-- The checks that BRLD makes of a record beyond R57: its BASE under R47 and, in space 0, the walk of its span. -/
def State.recPins (s : State) (r : Nat) (f : Rec) (nr : Bool) : Except Fail (List Leaf) :=
  match s.spaceCheck r .eng f.base accRead with
  | .error e => .error e
  | .ok _ =>
    if space f.base = 0 then
      s.pinSpan (s.partOf r) f { r := !nr, w := !f.rof, sup := true } (if nr then accWrite else accRead)
    else .ok []

/-- The granules that the walks of a record's span read are checked, up to the page that fails (17 R407). -/
def State.scrubPins (s : State) (r : Nat) (x : Except Fail (List Leaf)) : State :=
  if s.latent.isEmpty then s
  else match x with
    | .ok ls => ls.foldl (fun s l => s.scrubWalk (s.partOf r) l.va) s
    | .error f => if space f.addr = 0 then s.scrubWalk (s.partOf r) (offset f.addr) else s

/-- The checks of a resource-table entry named by a handle (R61), given its words 0-4 and the loading rank; `skipOwn` for
copy engines (09 R286). -/
def entryCheck (e : Entry) (gen rank : Nat) (skipOwn : Bool) : Nat :=
  if wf e.w4 16 1 = 0 ∨ wf e.w4 0 12 ≠ gen then cSTALE_HANDLE
  else if !skipOwn && wf e.w4 24 1 == 0 && wf e.w4 25 9 != rank then cNO_PERMISSION
  else if wf e.w4 17 1 = 0 ∧ wf e.w4 18 1 = 0 then cNO_PERMISSION
  else if wf e.w4 34 30 ≠ 0 ∨ wf e.w4 21 3 ≠ 0 ∨ wf e.w4 12 4 ≠ 0 then cBAD_BUFREC
  else cOK

/-- The record of an entry, with ROF forced to 1 where PW = 0 (R61). -/
def Entry.w3r (e : Entry) : Word := if wf e.w4 18 1 = 0 then e.w3 ||| (1 <<< 59) else e.w3

def Entry.record (e : Entry) : Rec := recOf e.w0 e.w1 e.w2 e.w3r

/-- PR = 0. -/
def Entry.nr (e : Entry) : Bool := wf e.w4 17 1 == 0

/-- The 64-bit words of bytes. -/
def bytesWords : List Byte → List Word
  | b0 :: b1 :: b2 :: b3 :: b4 :: b5 :: b6 :: b7 :: t =>
    BitVec.ofNat 64 (leNat [b0, b1, b2, b3, b4, b5, b6, b7]) :: bytesWords t
  | _ => []

/-- The entry that words 0-4 make. -/
def entryOf (ws : List Word) : Entry := ⟨ws.getD 0 0, ws.getD 1 0, ws.getD 2 0, ws.getD 3 0, ws.getD 4 0⟩

/-! Versions of a record: commands issued before a BRLD or BRFREE keep the contents of their issue (R59, 06 R196) -/

/-- The record that a command of an age uses. -/
def Harness.recAt (h : Harness) (n age : Nat) : Option BufRec :=
  match (h.recs.getD n []).find? fun b => b.fromAge ≤ age with
  | some b => if b.loaded then some b else none
  | none => none

/-- The record that commands issued from now on use. -/
def Harness.recNow (h : Harness) (n : Nat) : Option BufRec := h.recAt n h.ctl.issued

/-- The age of the oldest command that has not retired, or of the next to issue. -/
def Harness.oldest (h : Harness) : Nat :=
  let ages (e : EngSt) : List Nat := e.ended.map (·.age) ++ (e.blk.map (·.cmd.age)).toList ++ e.queue.map (·.age)
  (ages h.ve ++ ages h.de ++ ages h.te).foldl min h.ctl.issued

/-- Versions that no unretired command can use go, and their pins with them (16 R394). -/
def pruneVersions (oldest : Nat) : List BufRec → List BufRec
  | [] => []
  | b :: t => if b.fromAge ≤ oldest then (if b.loaded then [b] else []) else b :: pruneVersions oldest t

/-- A new version from now on. -/
def Harness.putRec (h : Harness) (n : Nat) (b : BufRec) : Harness :=
  let old := (h.recs.getD n []).filter fun x => x.fromAge < h.ctl.issued
  let vs := pruneVersions h.oldest ({ b with fromAge := h.ctl.issued } :: old)
  { h with recs := h.recs.set n vs }

/-- Every record's versions pruned, as commands retire. -/
def Harness.pruneRecs (h : Harness) : Harness :=
  let o := h.oldest
  { h with recs := (h.recs.map fun kv => (kv.1, pruneVersions o kv.2)).filter fun kv => !kv.2.isEmpty }

/-- Every pin a harness holds. -/
def Harness.pins (h : Harness) : List Leaf := h.recs.flatMap fun kv => kv.2.flatMap (·.pins)

/-- The range of offsets that a record's pin covers (R394): its span, from its BASE. -/
def BufRec.pinned (b : BufRec) : Option (Int × Int) :=
  if b.pins.isEmpty then none
  else b.fields.span.map fun x => ((offset b.w0 : Int) + x.1, (offset b.w0 : Int) + x.2)

/-- An offset lies inside a record's pinned span. -/
def BufRec.pinsAt (b : BufRec) (va : Nat) : Bool :=
  match b.pinned with
  | some (lo, hi) => decide (lo ≤ va) && decide ((va : Int) < hi)
  | none => false

/-- The key of an address reached through a record (R394, R395): inside its pinned span the pinned translation or, where the
entry was changed since, either frame; elsewhere the translation cache. -/
def State.recKey (s : State) (r : Nat) (b : BufRec) (p : Word) (w acc : Nat) : Except Fail Nat :=
  match space p with
  | 0 =>
    let va := offset p
    match (if b.pinsAt va then b.pins.find? fun l => l.covers va else none) with
    | some l =>
      match s.walk (s.partOf r) va with
      | .ok l' => .ok (if l' ≠ l ∧ s.stale va then l'.pa va else l.pa va)
      | .error _ => .ok (l.pa va)
    | none =>
      match s.xlate r va { r := w != 1, w := w != 0, sup := true } acc with
      | .ok k => .ok k
      | .error f => .error { f with addr := p }
  | 4 => if s.linkUp (owner p) then .ok (s.peerKey p) else .error { code := cMEM_ERROR, addr := p, acc := acc }
  | _ => .ok (rawKey r p)

/-! Decoder tables (10 R316) -/

/-- F(s) of a table slot. -/
def tabF (t : List Byte) (sym : Nat) : Nat := leNat ((t.drop (16 + 2 * sym)).take 2)

/-- Well-formedness of a table. -/
def tableOk (t : List Byte) : Bool :=
  let alph := (t.getD 1 0).toNat
  let fs := (List.range 256).map (tabF t)
  t.length == 1024 && decide (alph ≤ 1) && ((t.drop 2).take 14).all (· == 0) && (t.drop 528).all (· == 0) &&
  (alph == 1 || (fs.drop 16).all (· == 0)) && fs.all (· ≤ 4096) && fs.foldl (· + ·) 0 == 4096

end Sys2Proof.Machine
end

