-- ==== Sys2Proof/Machine/Nodes.lean ====
section
/-!
DEFINITION. Graph nodes: launch and continuation records, ready queues, the choice of a node, node start, save and resume,
gangs (01 R30-R43, 15 R364-R377, 16 R403).
-/

namespace Sys2Proof.Machine

/-! Continuation and launch records (01 R30, R32) -/

def Cont.prio (c : Cont) : Nat := wf c.aff 0 3
def Cont.dieMask (c : Cont) : Nat := wf c.aff 8 4
def Cont.pinned (c : Cont) : Bool := wf c.aff 16 1 == 1
def Cont.pinRank (c : Cont) : Nat := wf c.aff 17 9

/-- A reserved bit of a continuation record is set. -/
def Cont.reserved (c : Cont) : Bool := wf c.aff 26 38 != 0 || wf c.aff 12 4 != 0 || wf c.aff 3 5 != 0

def contWords (c : Cont) : List Word := [c.launch, c.fp, c.join, c.aff]

def contOf (ws : List Word) : Cont := ⟨ws.getD 0 0, ws.getD 1 0, ws.getD 2 0, ws.getD 3 0⟩

def packetOf (ws : List Word) : Packet :=
  ⟨ws.getD 0 0, ws.getD 1 0, ws.getD 2 0, ws.getD 3 0, ws.getD 4 0, ws.getD 5 0, ws.getD 6 0, ws.getD 7 0⟩

/-- Group field n of a launch record, where valid. -/
def launchGroup (l : Packet) (n : Nat) : Option Nat := if wf l.w6 (32 + n) 1 = 1 then some (wf l.w6 (8 * n) 8) else none

def launchGang (l : Packet) : Bool := wf l.w7 1 1 == 1
def launchRepl (l : Packet) : Bool := wf l.w7 0 1 == 1

/-- Rows 4 of R31: reserved bits, FSIZE, GANG. -/
def launchBad (l : Packet) : Bool :=
  wf l.w5 32 32 != 0 || wf l.w6 36 28 != 0 || wf l.w7 2 62 != 0 || wf l.w5 0 32 % 64 != 0 ||
  (launchGang l && (launchGroup l 0).isNone)

/-- Whether a rank is a member of a latched group of a partition. -/
def State.groupHas (s : State) (p g r : Nat) : Bool :=
  match (s.part p).groups.find g with
  | some x => x.members.getLsbD r
  | none => false

/-- The members of a group, ascending. -/
def State.groupMembers (s : State) (p g : Nat) : List Nat :=
  match (s.part p).groups.find g with
  | some x => (List.range s.ranks).filter fun r => x.members.getLsbD r
  | none => []

/-- The scope latency of a group (01 R36, 06 R181). -/
def State.groupLatency (s : State) (p g : Nat) : Nat :=
  match (s.part p).groups.find g with
  | some x => if x.span then 46 else 18
  | none => 18

/-- The group condition of R31 for a rank. -/
def State.inGroups (s : State) (p : Nat) (l : Packet) (r : Nat) : Bool :=
  (List.range 4).all fun n => match launchGroup l n with
    | some g => s.groupHas p g r
    | none => true

/-- DIEMASK of R32: 0 means every die. -/
def dieAllowed (c : Cont) (d : Nat) : Bool := c.dieMask == 0 || field c.dieMask d 1 == 1

/-- A rank passes R31, DIEMASK and PIN together (R32). -/
def State.eligible (s : State) (p : Nat) (c : Cont) (l : Packet) (r : Nat) : Bool :=
  s.partOf r == p && s.inGroups p l r && dieAllowed c (dieOf r) && (!c.pinned || c.pinRank == r)

/-- The checks of R31 in order: the launch record, or the failure whose code is the status. -/
def State.checkLaunch (s : State) (p : Nat) (c : Cont) : Except Fail Packet :=
  if space c.launch ≠ 0 ∨ owner c.launch ≠ 0 then .error { code := cBAD_SPACE }
  else if offset c.launch % 64 ≠ 0 ∨ c.fp.toNat % 64 ≠ 0 ∨ c.reserved then .error { code := cBAD_RECORD }
  else match s.devRead p (offset c.launch) 64 needR with
    | .error f => .error f
    | .ok bs =>
      let l := packetOf (bytesWords bs)
      if launchBad l then .error { code := cBAD_RECORD }
      else if space l.w0 ≠ 0 ∨ space l.w1 ≠ 0 ∨ space l.w2 ≠ 0 ∨ space l.w3 ≠ 0 then .error { code := cBAD_SPACE }
      else if (s.ranksOf p).any (s.inGroups p l) then .ok l
      else .error { code := cNO_ELIGIBLE }

/-! Ready queues (15 R371-R377) -/

/-- Records of a priority on chip and in the ring. -/
def Sched.chipCount (q : Sched) (prio : Nat) : Nat := (q.ready.filter fun r => r.chip && r.cont.prio == prio).length
def Sched.ringCount (q : Sched) (prio : Nat) : Nat := (q.ready.filter fun r => !r.chip && r.cont.prio == prio).length

/-- The address of a slot of the ring of a priority. -/
def Sched.ringAt (q : Sched) (prio slot : Nat) : Nat := (offset q.spbase + 32 * 2 ^ q.spsz * prio + 32 * slot) % 2 ^ 48

/-- The lowest free slot of the ring of a priority (DESIGN CHOICE, log entry 35). -/
def Sched.freeSlot (q : Sched) (prio : Nat) : Nat :=
  let used := (q.ready.filter fun r => !r.chip && r.cont.prio == prio).map (·.slot)
  ((List.range (used.length + 1)).find? fun i => !used.contains i).getD 0

/-- The oldest record of the ring of a priority, by sq. -/
def Sched.ringOldest (q : Sched) (prio : Nat) : Option Ready :=
  (q.ready.filter fun r => !r.chip && r.cont.prio == prio).foldl (fun b x => match b with
    | none => some x
    | some y => if x.sq < y.sq then some x else b) none

/-- The scheduler can read the ring slot of a record (16 R456). -/
def State.ringReads (s : State) (d : Nat) (r : Ready) : Bool :=
  (s.devRead (s.partOfDie d) ((s.die d).sched.ringAt r.cont.prio r.slot) 32 needR).isOk

/-- The oldest spilled record of a priority returns to the chip, where its slot can be read; whether it did. What the scheduler
latched is what returns: the ring's contents are outside the contract (R376) (DEDUCED, log entry 35). -/
def State.unspillOne (s : State) (d prio : Nat) : Option State :=
  match (s.die d).sched.ringOldest prio with
  | none => none
  | some x =>
    if s.ringReads d x then
      some ((s.devScrub (s.partOfDie d) ((s.die d).sched.ringAt prio x.slot) 32).modSched d fun q => { q with ready := q.ready.map fun r => if r.sq = x.sq then { r with chip := true } else r })
    else none

/-- Whether a record of a priority finds room (R376, R377): on chip, or in its ring, from which the oldest record returns to
the chip where only the chip has room. A ring that cannot be written or read gives no room (DESIGN CHOICE, log entry 35). -/
def State.room (s : State) (d prio : Nat) : Bool :=
  let q := (s.die d).sched
  let writes (slot : Nat) : Bool := (s.devKeys (s.partOfDie d) (q.ringAt prio slot) 32 needW accWrite).isOk
  if decide (q.chipCount prio < 256) && q.ringCount prio == 0 then true
  else if q.spsz = 0 then false
  else if q.ringCount prio < 2 ^ q.spsz then writes (q.freeSlot prio)
  else decide (q.chipCount prio < 256) && (match q.ringOldest prio with
    | some x => s.ringReads d x && writes x.slot
    | none => false)

/-- The youngest record on chip of a priority, by sq. -/
def Sched.chipYoungest (q : Sched) (prio : Nat) : Option Ready :=
  (q.ready.filter fun r => r.chip && r.cont.prio == prio).foldl (fun b x => match b with
    | none => some x
    | some y => if y.sq < x.sq then some x else b) none

/-- A record of die d is written into a free slot of its ring. -/
def State.spill (s : State) (d : Nat) (r : Ready) : State :=
  let prio := r.cont.prio
  let q := (s.die d).sched
  let s := if q.ringCount prio < 2 ^ q.spsz then s else (s.unspillOne d prio).getD s
  let q := (s.die d).sched
  let slot := q.freeSlot prio
  let s := s.modSched d fun q => { q with ready := q.ready.filter (fun x => x.sq != r.sq) ++ [{ r with chip := false, slot := slot }] }
  match s.devStore (s.partOfDie d) (q.ringAt prio slot) (wordBytes (contWords r.cont)) needW with
  | .ok s => s
  | .error _ => s

/-- A record that finds room takes its place in the queue of its priority, on chip or spilled: the youngest by sq are spilled
(R376). -/
def State.addReady (s : State) (d : Nat) (r : Ready) : State :=
  let prio := r.cont.prio
  let q := (s.die d).sched
  let put (s : State) : State := s.modSched d fun q => { q with ready := q.ready ++ [{ r with chip := true }] }
  match (if q.chipCount prio < 256 ∧ q.ringCount prio = 0 then none else q.chipYoungest prio) with
  | some y =>
    if y.sq < r.sq then s.spill d r
    else if q.chipCount prio < 256 then put s
    else put (s.spill d y)
  | none => if q.ringCount prio = 0 then put s else s.spill d r

/-- At most n spilled records return, oldest first. -/
def State.unspillN (s : State) (d prio : Nat) : Nat → State
  | 0 => s
  | n + 1 => match s.unspillOne d prio with
    | some s => State.unspillN s d prio n
    | none => s

/-- Spilled records return in order of sq when fewer than 128 remain on chip (R376). -/
def State.unspill (s : State) (d prio : Nat) : State :=
  let n := (s.die d).sched.chipCount prio
  if n < 128 then s.unspillN d prio (256 - n) else s

/-- The die whose queues a record enters (R371). A record that no die of the partition may take stays at the die that
produced it, and waits (DESIGN CHOICE, log entry 59). -/
def State.queueDie (s : State) (d p : Nat) (c : Cont) : Nat :=
  if c.pinned then (if (s.ranksOf p).contains c.pinRank then dieOf c.pinRank else d)
  else if dieAllowed c d ∧ s.partOfDie d = p then d
  else ((s.diesOf p).find? fun x => dieAllowed c x).getD d

/-- The state of an entry of a die's table. -/
def State.setEntry (s : State) (d i : Nat) (st : EntSt) : State :=
  s.modSched d fun q => match q.tab.find i with
    | some e => { q with tab := q.tab.set i { e with st := st } }
    | none => q

/-- An entry becomes FREE. -/
def State.freeEntry (s : State) (gid : Option Nat) : State :=
  match gid with
  | some g => s.modSched (g / 4096) fun q => { q with tab := q.tab.erase (g % 4096) }
  | none => s

/-- All ones for a record without an entry (01 R31). -/
def gidWord (gid : Option Nat) : Word :=
  match gid with
  | some g => BitVec.ofNat 64 g
  | none => BitVec.allOnes 64

/-- The rank or die that a waiter is. -/
def Waiter.num : Waiter → Nat
  | .spawn r => r
  | .yield r => r
  | .nend r => r
  | .cmd d => d
  | .dec d => d
  | .none => 0

/-- The place of a record in the order of R372: by cycle, then re-queues, entries made ready by decrements in ascending GID,
SPAWN records in ascending rank, results of commands; then as they come, `n` before it on the die. -/
def sqOf (now n : Nat) (gid : Option Nat) (requeue : Bool) (w : Waiter) : Nat :=
  let kind : Nat × Nat :=
    if requeue then (0, w.num)
    else match w, gid with
      | .cmd d, _ => (3, d)
      | _, some g => (1, g)
      | w, none => (2, w.num)
  ((now * 4 + kind.1) * 2 ^ 14 + kind.2) * 2 ^ 64 + n

/-- The die that a record enters and the sq that it takes there. -/
def State.placeOf (s : State) (d : Nat) (c : Cont) (gid : Option Nat) (requeue : Bool) (w : Waiter) : Nat × Nat :=
  let d' := s.queueDie d (s.partOfDie d) c
  (d', sqOf s.mcc.toNat (s.die d').sched.sq gid requeue w)

/-- A continuation is checked and enqueued by die d (R31, R371): its status. A refused record's entry becomes FREE and the
status goes to the supervisor. A record that finds no room waits (R377), and what `w` names waits with it. The read of its
launch record is the die's: a consumption counts (17 R411). -/
def State.enqueue (s : State) (d : Nat) (c : Cont) (gid : Option Nat) (saved replay : Bool) (w : Waiter)
    (held : Table (List (Nat × Cont)) := []) : State × Nat :=
  let p := s.partOfDie d
  let chk := s.checkLaunch p c
  let s := s.devScrub p (offset c.launch) 64
  match chk with
  | .error f => (((s.tally (128 * d) f).freeEntry gid).message d f.code 0 c.launch (gidWord gid), f.code)
  | .ok l =>
    let (d', sq) := s.placeOf d c gid (saved || replay) w
    let r : Ready := { cont := c, launch := l, gid := gid, u := s.mcc.toNat, sq := sq, saved := saved, replay := replay
                       held := held }
    let s := s.modSched d' fun q => { q with sq := q.sq + 1 }
    let s := match gid with
      | some g => s.setEntry (g / 4096) (g % 4096) .ready
      | none => s
    let q := (s.die d').sched
    if !(q.late.any fun x => x.1.cont.prio == c.prio) && s.room d' c.prio then (s.addReady d' r, cOK)
    else
      let s := if q.late.isEmpty then s.message d' cREADY_OVERFLOW 0 c.launch (gidWord gid) else s
      (s.modSched d' fun q => { q with late := q.late ++ [(r, w)] }, cOK)

/-- Whether something still waits for its enqueue. -/
def State.waits (s : State) (w : Waiter) : Bool :=
  (List.range s.nDies).any fun d => (s.die d).sched.late.any fun x => x.2 == w

/-- eff of R373. -/
def effPrio (agep now : Nat) (r : Ready) : Nat :=
  if agep = 0 then r.cont.prio else min 7 (r.cont.prio + (now - r.u) / agep)

/-- A gang record is not eligible while an armed gang that has not started holds one of its members (R375). -/
def State.gangFree (s : State) (p : Nat) (l : Packet) : Bool :=
  match launchGroup l 0 with
  | none => true
  | some g => (s.groupMembers p g).all fun m => !(s.gangs.any fun x => !x.started && x.held.contains m)

/-- The record that the scheduler chooses for an idle harness (R373). -/
def State.choose (s : State) (r : Nat) : Option Ready :=
  let d := dieOf r
  let p := s.partOf r
  let q := (s.die d).sched
  let cand := q.ready.filter fun x =>
    s.eligible p x.cont x.launch r && (!launchGang x.launch || s.gangFree p x.launch)
  cand.foldl (fun best x => match best with
    | none => some x
    | some b =>
      let eb := effPrio q.agep s.mcc.toNat b
      let ex := effPrio q.agep s.mcc.toNat x
      if ex > eb ∨ (ex = eb ∧ x.sq < b.sq) then some x else some b) none

/-- A record leaves its queue. -/
def State.dropReady (s : State) (d : Nat) (r : Ready) : State :=
  (s.modSched d fun q => { q with ready := q.ready.filter fun x => x.sq != r.sq }).unspill d r.cont.prio

/-! Harness state at node start (01 R17, R23, R35, R41) -/

/-- Scalar registers of an engine hold unspecified values (log entry 7, DESIGN CHOICE). -/
def freeWords (k n : Nat) : Vector Word n := Vector.ofFn fun i => Config.freeWord (1000 * k + i.val)

/-- An engine with nothing queued or in flight; its completion counter stays. -/
def EngSt.clear (e : EngSt) (k : Nat) : EngSt :=
  { ctr := e.ctr, cyc := e.cyc, lc := Vector.ofFn fun i => (Config.freeWord (1000 * k + i.val)).setWidth 32 }

/-- An engine stopped at an abort (17 R413). -/
def EngSt.stop (e : EngSt) : EngSt := { ctr := e.ctr, cyc := e.cyc, lc := e.lc }

/-- The three engines stopped. -/
def Harness.dropEngines (h : Harness) : Harness := { h with ve := h.ve.stop, de := h.de.stop, te := h.te.stop }

/-- Everything of a harness that a node start or a resume sets alike: k is the model's counter of free values
(DESIGN CHOICE, log entry 20). -/
def Harness.forNode (h : Harness) (k : Nat) (n : Node) : Harness :=
  { h with
    seq := { active := true }
    sp := { h.sp with cur := 0, prev := 0, vflag := 0, dflag := 0, seed := 0, frame := 0, frameGo := false, defgrp := 0 }
    ctl := { h.ctl with mode := .run, node := some n, pwr := 0, frozen := false, bf := none, owner := [], resume := none,
                        abort := none, intr := none, issued := 0, begun := true }
    ve := h.ve.clear (6 * k)
    de := h.de.clear (6 * k + 1)
    te := h.te.clear (6 * k + 2)
    vc := freeWords (6 * k + 3) 16
    dc := freeWords (6 * k + 4) 16
    e := Vector.ofFn fun i => (Config.freeWord (1000 * (6 * k + 5) + i.val)).setWidth 48
    vl := BitVec.ofNat 12 ((Config.freeWord (1000 * (6 * k + 5) + 100)).toNat % 2049)
    v := { epoch := 4 * k + 1 }
    s := { epoch := 4 * k + 2 }
    a := { epoch := 4 * k + 3 }
    smem := { epoch := 4 * k + 4 }
    feV := 0, feS := 0, feA := 0, claim := 0
    dpos := Vector.replicate 4 0
    dtab := [], tvalid := 0, recs := []
    edge := Vector.replicate 4 none
    xmsg := []
    bg := h.bg.map fun kv => (kv.1, { kv.2 with own := false, queue := [], overrun := false }) }

/-- A node starts on an idle or held harness (R35): at SENTRY, at U. It has arrived at a group where an arrival that the harness
counted under an earlier node belongs to an open instance (06 R183). -/
def State.startNode (s : State) (r : Nat) (x : Ready) : State :=
  let held := if x.gang.isSome then x.held.getD r [] else x.held.flatMap (·.2)
  let open' := (s.bugle.arrive.filter fun ka => ka.1 / 256 == s.partOf r && ka.2.any fun a => a.1 == r).map (·.1 % 256)
  let node : Node := { cont := x.cont, launch := x.launch, gid := x.gid, nid := s.nid, gang := x.gang, held := held }
  let s := s.modHar r fun h =>
    let h := h.forNode (s.freeCtr + 1) node
    let q := (((h.seq.wg 1 x.cont.fp).wg 2 x.cont.join).wg 3 x.cont.launch)
    { h with
      seq := { q with pc := x.launch.w0 }
      sp := { h.sp with defgrp := BitVec.ofNat 8 ((launchGroup x.launch 0).getD 0) }
      bg := h.bg.map fun kv => (kv.1, { kv.2 with arrived := open'.contains kv.1 }) }
  let s := s.modPart (s.partOf r) fun p => { p with dirty := p.dirty ||| (1 <<< r) }
  let s := { s with nid := s.nid + 1, freeCtr := s.freeCtr + 1 }
  if x.replay then s.count (dieOf r) 6 else s

/-! The context save area (01 R43) -/

def saveSize : Nat := 10880

/-- The address of a node's save area in space 0: R43 has FP name it, and of an FP of another space only the offset counts
(DESIGN CHOICE, log entry 60). -/
def saveAt (fp : Word) : Nat := (offset fp + 2 ^ 48 - saveSize) % 2 ^ 48

/-- The bits of booleans, the first least significant. -/
def boolBits (bs : List Bool) : Nat := (bs.zipIdx.map fun b => b2n b.1 * 2 ^ b.2).foldl (· + ·) 0

/-- The saved words of a record: NR in bit 62 of word 3. -/
def savedRec (b : Option BufRec) : List Word :=
  match b with
  | none => [0, 0, 0, 0]
  | some b => [b.w0, b.w1, b.w2, if b.nr then b.w3 ||| (1 <<< 62) else b.w3]

/-- The bytes of a node's context, resuming at `pc`. -/
def Harness.saveBytes (h : Harness) (pc : Word) : List Byte :=
  let gs := (List.range 64).map fun i => h.seq.rgN i
  let kw := boolBits ((List.range 16).map fun i => h.seq.rk (BitVec.ofNat 4 i)) + h.tvalid.toNat * 2 ^ 16
  let rs := (List.range 64).map h.recNow
  let mask := boolBits (rs.map (·.isSome))
  let words : List Word := gs ++ [BitVec.ofNat 64 kw, h.sp.frame, pc, h.sp.vflag.setWidth 64, h.sp.dflag.setWidth 64,
    h.sp.defgrp.setWidth 64, h.sp.seed, BitVec.ofNat 64 mask]
  wordBytes words ++ (h.dpos.toList.flatMap fun d => leBytes 16 d.toNat) ++ wordBytes (rs.flatMap savedRec) ++
    ((List.range 8).flatMap fun t =>
      if h.tvalid.getLsbD t then ((h.dtab.getD t []) ++ List.replicate 1024 0).take 1024 else List.replicate 1024 0)

/-- Word i of a save area. -/
def areaWord (bs : List Byte) (off : Nat) : Word := BitVec.ofNat 64 (leNat ((bs.drop off).take 8))

/-- Whether a save area is defective (16 R403). -/
def areaBad (bs : List Byte) : Bool :=
  let kw := areaWord bs 0x200
  let mask := areaWord bs 0x238
  let posBad := (List.range 4).any fun p =>
    wf (areaWord bs (0x240 + 16 * p)) 49 14 != 0 || wf (areaWord bs (0x248 + 16 * p)) 40 24 != 0
  let recBad := (List.range 64).any fun n =>
    mask.getLsbD n &&
      let w (i : Nat) := areaWord bs (0x280 + 32 * n + 8 * i)
      !((recOf (w 0) (w 1) (w 2) (w 3)).ok (2 * wf (w 3) 63 1))
  let tabBad := (List.range 8).any fun t => wf kw (16 + t) 1 == 1 && !tableOk ((bs.drop (0xA80 + 1024 * t)).take 1024)
  posBad || wf kw 24 40 != 0 || wf kw 0 1 == 0 || areaWord bs 0 != 0 || recBad || tabBad

/-- The harness that a save area describes: everything but the pins of its records. -/
def Harness.restore (h : Harness) (bs : List Byte) : Harness :=
  let kw := areaWord bs 0x200
  let q := (List.range 64).foldl (fun (q : Seq) i => q.wg (BitVec.ofNat 6 i) (areaWord bs (8 * i))) h.seq
  let q := (List.range 16).foldl (fun (q : Seq) i => q.wk (BitVec.ofNat 4 i) (kw.getLsbD i)) q
  let tv : BitVec 8 := BitVec.ofNat 8 (wf kw 16 8)
  { h with
    seq := { q with pc := areaWord bs 0x210 }
    sp := { h.sp with frame := areaWord bs 0x208, vflag := (areaWord bs 0x218).setWidth 6,
                      dflag := (areaWord bs 0x220).setWidth 6, defgrp := (areaWord bs 0x228).setWidth 8,
                      seed := areaWord bs 0x230 }
    dpos := Vector.ofFn fun p => BitVec.ofNat 128 (leNat ((bs.drop (0x240 + 16 * p.val)).take 16))
    tvalid := tv
    dtab := ((List.range 8).filter fun t => tv.getLsbD t).map fun t => (t, (bs.drop (0xA80 + 1024 * t)).take 1024) }

/-- A saved record is re-translated and pinned as BRLD would (R41). -/
def State.repin (s : State) (r : Nat) (bs : List Byte) (n : Nat) : Except Fail State :=
  let w (i : Nat) := areaWord bs (0x280 + 32 * n + 8 * i)
  let nr := wf (w 3) 62 1 == 1
  let w3 := w 3 &&& ~~~((1 : Word) <<< 62)
  match s.recPins r (recOf (w 0) (w 1) (w 2) w3) nr with
  | .error f => .error f
  | .ok pins =>
    .ok (s.modHar r fun h =>
      h.putRec n { fromAge := 0, loaded := true, w0 := w 0, w1 := w 1, w2 := w 2, w3 := w3, nr := nr, pins := pins, pinId := s.freeCtr })

/-- A saved node resumes on a harness (R41, R403, R447), or the resume is refused and nothing starts. A record whose pages
can no longer be pinned stays unloaded, also after the fault of the YIELD is returned from (DESIGN CHOICE, log entry 60). -/
def State.resumeNode (s : State) (r : Nat) (x : Ready) : State :=
  let p := s.partOf r
  let refuse (detail : Nat) : State := s.message (dieOf r) cBAD_CONTEXT r x.cont.fp (BitVec.ofNat 64 detail)
  let area := s.devRead p (saveAt x.cont.fp) saveSize needR
  let s := s.devScrub p (saveAt x.cont.fp) saveSize
  match area with
  | .error f => (s.tally r f).message (dieOf r) cBAD_CONTEXT r x.cont.fp (BitVec.ofNat 64 f.code)
  | .ok bs =>
    if areaBad bs then refuse 0
    else
      let s := s.startNode r x
      let s := s.modHar r fun h => h.restore bs
      let mask := areaWord bs 0x238
      let (s, fail) := (List.range 64).foldl (fun (acc : State × Option Fail) n =>
        if mask.getLsbD n then
          match acc.1.repin r bs n with
          | .ok s => (s, acc.2)
          | .error f => (acc.1, acc.2 <|> some f)
        else acc) (s, none)
      match fail with
      | none => s
      | some f => (s.modSeq r fun q => { q with pc := q.pc - 4 }).preciseF r f

/-- A chosen record starts or resumes its node. -/
def State.beginNode (s : State) (r : Nat) (x : Ready) : State := if x.saved then s.resumeNode r x else s.startNode r x

/-! Becoming idle, gangs (R37, R375, R385, R386) -/

/-- Whether a harness may be chosen for: idle and not draining, fencing, fenced, retired or halted (R373). -/
def Ctl.free (c : Ctl) : Bool :=
  c.mode == .idle && !c.draining && !c.fencing && !c.fenced && !c.retired && !c.halted && !c.back

/-- An armed gang holds an idle member; when every member is held it starts L cycles later. -/
def State.holdFor (s : State) (gi : Nat) (r : Nat) : State :=
  match s.gangs.find? fun g => g.id == gi with
  | none => s
  | some g =>
    if g.started || g.held.contains r || !g.members.contains r || !(s.har r).ctl.free then s
    else
      let held := g.held ++ [r]
      let all := g.members.all held.contains
      let lat := s.groupLatency g.part ((launchGroup g.record.launch 0).getD 0)
      let g' := { g with held := held, start := if all then some (s.mcc.toNat + lat) else none }
      let s := s.modCtl r fun c => { c with mode := .held gi }
      { s with gangs := s.gangs.map fun x => if x.id = gi then g' else x }

/-- A free harness that an armed gang names and does not hold, with the gang: the first of the oldest gang. -/
def State.holdable (s : State) : Option (Nat × Nat) :=
  s.gangs.findSome? fun g =>
    if g.started then none
    else (g.members.find? fun m => !g.held.contains m && (s.har m).ctl.free).map fun m => (g.id, m)

/-- Waiting for self-test or fence is acted on when a harness falls idle; an armed gang takes it after that (15 R388). The
test takes the 188,000 cycles that follow (15 R385). -/
def State.fellIdle (s : State) (r : Nat) : State :=
  let c := (s.har r).ctl
  if c.draining then s.modCtl r fun c => { c with mode := .test s.mcc.toNat (s.mcc.toNat + 188001) }
  else if c.fencing then s.modCtl r fun c => { c with fencing := false, fenced := true }
  else s

/-- Units of a power class (R381). -/
def classCost (n : Nat) : Nat := if n = 0 then 0 else if n = 1 then 7 else if n = 2 then 13 else 14

/-- A grant is returned: its units are free in the next cycle (R382). -/
def State.returnPower (s : State) (r : Nat) : State :=
  let u := classCost (s.har r).ctl.pwr
  let s := s.modCtl r fun c => { c with pwr := 0 }
  s.modDie (dieOf r) fun d => { d with gov := { d.gov with
    queue := d.gov.queue.filter fun q => q.1 != r
    freed := if u = 0 then d.gov.freed else d.gov.freed ++ [(s.mcc.toNat + 1, u)] } }

/-- A harness stops running its node: records unloaded, edge and express buffers and receive queues emptied, the grant
returned (06 R202, R187; 08 R269). -/
def State.leaveNode (s : State) (r : Nat) : State :=
  let s := s.returnPower r
  let s := s.modHar r fun h =>
    { h with
      seq := { h.seq with active := false, wait := {}, stalled := false, loadQ := [], back := [], storeQ := [],
                          sbn := Vector.replicate 16 0, ds := none }
      ctl := { h.ctl with mode := .idle, node := none, frozen := false, bf := none,
                          owner := [], resume := none, abort := none, intr := none }
      recs := []
      reply := 0
      tref := h.tref.map fun t => { t with sb := 0 }
      edge := Vector.replicate 4 none
      xmsg := []
      bg := h.bg.map fun kv => (kv.1, { kv.2 with queue := [], overrun := false }) }
  s.fellIdle r

/-- A gang record that a member chose is armed (R375): its entry becomes RUNNING; its members are held as they are found
idle. -/
def State.armGang (s : State) (r : Nat) (x : Ready) : State :=
  let p := s.partOf r
  let members := s.groupMembers p ((launchGroup x.launch 0).getD 0)
  let gi := s.nid
  let g : Gang := { id := gi, part := p, die := dieOf r, record := { x with gang := some gi }, members := members }
  let s := s.dropReady (dieOf r) x
  let s := match x.gid with
    | some gid => s.setEntry (gid / 4096) (gid % 4096) .running
    | none => s
  { s with gangs := s.gangs ++ [g], nid := s.nid + 1 }

/-- The choice of an idle harness (R373): none, a gang armed, or a node begun. -/
def State.take (s : State) (r : Nat) : State :=
  match s.choose r with
  | none => s
  | some x =>
    if launchGang x.launch then s.armGang r x
    else
      let s := s.dropReady (dieOf r) x
      let s := match x.gid with
        | some gid => s.setEntry (gid / 4096) (gid % 4096) .running
        | none => s
      s.beginNode r x

/-- A decrement of an entry's counter by die d0 (R370): FREE or 0 is PRED_UNDERFLOW, 1 makes it READY. A GID of a die
outside the partition names no entry (DEDUCED, log entry 33). -/
def State.decrement (s : State) (d0 gid : Nat) (w : Waiter) : State × Nat :=
  let d := gid / 4096
  let ent := if d < s.nDies ∧ s.partOfDie d = s.partOfDie d0 then (s.die d).sched.tab.find (gid % 4096) else none
  match ent with
  | none => (s.message d0 cPRED_UNDERFLOW 0 0 (BitVec.ofNat 64 gid), cPRED_UNDERFLOW)
  | some e =>
    if e.ctr = 0 then (s.message d cPRED_UNDERFLOW 0 0 (BitVec.ofNat 64 gid), cPRED_UNDERFLOW)
    else
      let s := s.modSched d fun q => { q with tab := q.tab.set (gid % 4096) { e with ctr := e.ctr - 1 } }
      if e.ctr = 1 ∧ e.st = .waiting then s.enqueue d e.cont (some gid) false false w else (s, cOK)

end Sys2Proof.Machine
end

