-- ==== Sys2Proof/Machine/Boot.lean ====
section
/-!
DEFINITION. Reset and boot: images and their checks, the stages, the anti-rollback counter, partition start
(18 R431-R434; 17 R418-R420).
-/

namespace Sys2Proof.Machine

/-! Images (R432) -/

/-- n bytes at an offset as a number. -/
def numAt (bs : List Byte) (off n : Nat) : Nat := leNat ((bs.drop off).take n)

def sigLen : Nat := 29792

/-- The header fields of an image. -/
structure Image where
  cls : Nat
  raise : Bool
  svn : Nat
  body : Nat
  entry : Nat

def imageOf (bs : List Byte) : Image :=
  { cls := numAt bs 4 1, raise := numAt bs 5 1 % 2 == 1, svn := numAt bs 8 4, body := numAt bs 16 8, entry := numAt bs 24 8 }

/-- The checks of R432 in order, for an image of a class: OK or the first failing code. -/
def State.checkImage (s : State) (cls : Nat) (bs : List Byte) : Nat :=
  let i := imageOf bs
  let signed := bs.take (64 + i.body)
  let key := (bs.drop (64 + i.body)).take 64
  if bs.length ≠ 64 + i.body + 64 + sigLen ∨ numAt bs 0 4 ≠ 0x4C534948 ∨ i.cls ≠ cls ∨ 2 ≤ numAt bs 5 1 ∨ numAt bs 6 2 ≠ 0 ∨
      numAt bs 12 4 ≠ 0 ∨ numAt bs 32 32 ≠ 0 then cLOAD_FORMAT
  else if Config.shake256 key ≠ s.rootDigest then cLOAD_BAD_SIGNATURE
  else if !Config.slhDsaVerify key signed (bs.drop (64 + i.body + 64)) then cLOAD_BAD_SIGNATURE
  else if i.svn < s.fuses then cLOAD_ROLLBACK
  else cOK

/-- R433: an image (`bytes`) of its class that passes its checks and asks for it raises the counter to its SVN. -/
def execAntiRollbackRaise (s : State) : Out :=
  let bs := s.ev.bytes
  let i := imageOf bs
  .next (if (i.cls = 1 ∨ i.cls = 2) ∧ s.checkImage i.cls bs = cOK ∧ i.raise then
      { s with fuses := max s.fuses (min 128 i.svn) }
    else s)

/-! Reset and stage 1 (R431) -/

/-- What a reset leaves: fuses, the variant, what the world outside has seen and will do, and the model's own counters
(DESIGN CHOICE, log entry 46). -/
def State.rebooted (s : State) : State :=
  { State.reset with
    variant := s.variant, fuses := s.fuses, rootDigest := s.rootDigest, hostOut := s.hostOut, consoleOut := s.consoleOut,
    consoleIn := s.consoleIn, scanLog := s.scanLog,
    freeCtr := s.freeCtr, nid := s.nid, agenda := s.agenda, ev := s.ev }

/-- Stage 1 with the firmware image that the fetch delivers: without one the module stays in stage 1, where the fetch is made
again (R443); an image that fails its checks halts it. -/
def State.stage1 (s : State) (bs : List Byte) : State :=
  if bs.isEmpty then { s with boot := { stage := 1 } }
  else
    let c := s.checkImage 1 bs
    if c = cOK then { s with boot := { stage := 2 } }
    else { (s.reply (.loader c)) with boot := { stage := 1, halted := true, status := c } }

/-- R431: reset and stage 1. -/
def execModuleReset (s : State) : Out := .next (s.rebooted.stage1 s.ev.plan.image)

/-! Stages 2 and 3 -/

/-- R418: a cell remap table with a repeated value or a value above 16 is invalid. -/
def cellMapOk (w : BitVec 128) : Bool :=
  let es := (List.range 16).map fun n => field w.toNat (5 * n) 5
  es.all (· ≤ 16) && decide es.Nodup && field w.toNat 80 48 == 0

/-- A retired harness: fenced from boot (R420). -/
def State.retire' (s : State) (r : Nat) : State := s.modCtl r fun c => { c with retired := true, fenced := true }

/-- R419: a row remap table of 8 entries with zero bits zero and no row mapped twice; else its bank is invalid. -/
def rowTableOk (es : List (BitVec 16)) : Bool :=
  let rows := (es.filter fun e => e.getLsbD 15).map fun e => field e.toNat 0 9
  es.length == 8 && es.all (fun e => field e.toNat 9 6 == 0) && decide rows.Nodup

/-- The row remap table of a bank with up to 8 failed rows (R420). -/
def rowTable (rows : List Nat) : List (BitVec 16) :=
  ((rows.map fun r => BitVec.ofNat 16 (2 ^ 15 + r % 512)) ++ List.replicate 8 0).take 8

/-- A cell remap table with another physical cell for logical cell n. -/
def cellMapSet (w : BitVec 128) (n cell : Nat) : BitVec 128 :=
  BitVec.ofNat 128 (w.toNat - field w.toNat (5 * n) 5 * 2 ^ (5 * n) + cell * 2 ^ (5 * n))

/-- The physical cell that a harness's table leaves spare. -/
def Harness.spareCell (h : Harness) : Nat :=
  ((List.range 17).find? fun c => !(List.range 16).any fun n => h.physCell n == c).getD 16

/-- Firmware's choice for failed physical cells (R420): one in use is remapped to the spare cell; none where a second is in use,
or the spare that is needed has failed, and the harness is retired. -/
def Harness.repair (h : Harness) (failed : List Nat) : Option Harness :=
  match (List.range 16).filter fun n => failed.contains (h.physCell n) with
  | [] => some h
  | [n] => if failed.contains h.spareCell then none else some { h with cellMap := cellMapSet h.cellMap n h.spareCell }
  | _ => none

/-- The physical cells of a rank that count as failed at boot: those that the boot test or a scan test has found, those with a
bank of more than 8 failed rows, those with an invalid bank (R419, R420). -/
def State.failedCells (s : State) (p : BootPlan) (r : Nat) : List Nat :=
  let named (xs : List (Nat × Nat)) : List Nat := (xs.filter fun x => x.1 == r).map (·.2)
  named p.badCells ++ named s.scanLog ++
    ((p.badRows.filter fun x => x.1 == r && decide (8 < x.2.2.length)).map fun x => x.2.1 / 16) ++
    (((s.har r).rowMap.filter fun kb => !rowTableOk kb.2).map fun kb => kb.1 / 16)

/-- Firmware's repair of a rank. -/
def State.repairRank (s : State) (p : BootPlan) (r : Nat) : State :=
  match (s.har r).repair (s.failedCells p r) with
  | some h => s.setHar r h
  | none => s.retire' r

/-- The remap tables of a plan, and firmware's choices for what has failed (R420); an invalid cell table retires its harness. -/
def State.remap (s : State) (p : BootPlan) : State :=
  let s := p.cellMap.foldl (fun s x =>
    let s := s.modHar x.1 fun h => { h with cellMap := x.2 }
    if cellMapOk x.2 then s else s.retire' x.1) s
  let s := p.rowMap.foldl (fun s x =>
    s.modHar x.1 fun h => { h with rowMap := x.2.foldl (fun t kb => t.set kb.1 kb.2) h.rowMap }) s
  let s := p.badRows.foldl (fun s x =>
    if x.2.2.length ≤ 8 then s.modHar x.1 fun h => { h with rowMap := h.rowMap.set x.2.1 (rowTable x.2.2) } else s) s
  let s := p.retired.foldl State.retire' s
  let s := ((s.hs.map (·.1)) ++ p.badCells.map (·.1) ++ p.badRows.map (·.1) ++ s.scanLog.map (·.1)).foldl
    (fun s r => s.repairRank p r) s
  let s := { s with scanLog := [] }
  -- the repair summary of each die (17 R411): harnesses whose spare cell is in use, spare rows in use
  (List.range s.nDies).foldl (fun s d =>
    let hs := (List.range' (128 * d) 128).map s.har
    let cell := (hs.filter fun h => (List.range 16).any fun n => h.physCell n == 16).length
    let rows := (hs.map fun h => (h.rowMap.map fun kb => (kb.2.filter fun e => e.getLsbD 15).length).sum).sum
    if cell = 0 ∧ rows = 0 then s
    else s.modDie d fun x =>
      { x with cnt := (x.cnt.setIfInBounds 7 (BitVec.ofNat 64 cell)).setIfInBounds 8 (BitVec.ofNat 64 rows) }) s

/-- Bytes that firmware writes into HBM at a physical address. -/
def State.firmWrite (s : State) (pa : Nat) (bs : List Byte) : State := s.write pa bs

/-- A start of its partition ends the halt of a harness: it is idle (06 R204) (DESIGN CHOICE, log entry 46). -/
def State.unhalt (s : State) (r : Nat) : State :=
  if (s.har r).ctl.halted then ((s.modHar r Harness.dropEngines).modCtl r fun c => { c with halted := false }).leaveNode r
  else s

/-- A partition's lowest-ranked harness that is not retired starts at S, at an address, with g1 (R431 stage 3); the harnesses
of the partition that HALT stopped are stopped no longer. -/
def State.startSupervisor (s : State) (p at' entry : Nat) : State :=
  let s := (s.ranksOf p).foldl State.unhalt s
  match (s.ranksOf p).find? fun r => !(s.har r).ctl.retired with
  | none => s
  | some r => s.modHar r fun h =>
    { h.dropEngines with
      seq := { ({} : Seq).wg 1 (mkPtr 0 0 at') with pc := mkPtr 0 0 (at' + entry), active := true }
      sp := { h.sp with cur := 1, prev := 0 }
      ctl := { h.ctl with mode := .run, node := none, halted := false, frozen := false, bf := none, owner := [],
                          resume := none, abort := none, intr := none } }

/-- A supervisor image is copied to an address of HBM and started; its partition runs under its signed bytes. -/
def State.startImage (s : State) (p : Nat) (i : SupImage) (at' : Nat) : State :=
  { (s.firmWrite at' i.body).startSupervisor p at' i.entry with
    supSigned := s.supSigned.set p (i.body.take (64 + (imageOf i.body).body)) }

/-- A verified supervisor image is cached, copied into HBM and started. -/
def State.bootPartition (s : State) (p : Nat) (bs : List Byte) (at' : Nat) : State :=
  let c := s.checkImage 2 bs
  if c ≠ cOK then s.reply (.loader c)
  else
    let i := imageOf bs
    let x : SupImage := { part := p, svn := i.svn, body := bs, entry := i.entry }
    ({ s with supCache := x :: s.supCache.filter fun x => x.part != p }).startImage p x at'

/-- R431, R429: stages 2 and 3, after stage 1, with firmware's plan; in stage 1 the fetch that failed is made again (R443)
(DESIGN CHOICE, log entry 46). -/
def execFirmwareBoot (s : State) : Out :=
  if s.boot.stage = 1 then .next (s.stage1 s.ev.plan.image)
  else if s.boot.stage ≠ 2 then .next s
  else
    let p := s.ev.plan
    let s := s.remap p
    let s := { s with partmap := if s.variant = .m2 then p.partmap &&& 0x0F else p.partmap }
    let s := (p.ppbind.take 16).zipIdx.foldl (fun (s : State) x =>
      { s with ppbind := s.ppbind.set x.2 (BitVec.ofNat 64 (wf x.1 63 1 * 2 ^ 63 + wf x.1 58 4 * 2 ^ 58)) }) s
    let s := (p.trained.filter (· < 16)).foldl (fun s n => s.setPort n true 0 0) s
    let s := p.mem.foldl (fun s x => s.firmWrite x.1 x.2) s
    let s := p.xlroot.foldl (fun s x => s.modPart x.1 fun q => { q with xlroot := x.2 }) s
    let s := p.supers.foldl (fun s x => s.bootPartition x.1 x.2.1 x.2.2) s
    .next { s with boot := { s.boot with stage := 4 } }

/-! Partition start (R434) -/

/-- R434: partition a starts or restarts with its cached supervisor image, copied to address v. -/
def execPartitionStart (s : State) : Out :=
  let p := s.ev.a
  match s.supCache.find? fun x => x.part == p with
  | none => .next s
  | some i =>
    if i.svn < s.fuses then
      .next ({ s with supCache := s.supCache.filter fun x => x.part != p }.reply (.loader cLOAD_ROLLBACK))
    else .next (s.startImage p i s.ev.v.toNat)

end Sys2Proof.Machine
end

