-- ==== Sys2Proof/Machine/Bugle.lean ====
section
/-!
DEFINITION. The Bugle: barriers, broadcasts and their receive queues (06 R181-R187, 04 R127, R128). An event of a cycle c
happens at the end of cycle c - 1, so that the sequencers of cycle c see it.
-/

namespace Sys2Proof.Machine

/-- The group that a Bugle instruction names (R182): DEFGRP for a = 0. -/
def State.bugGroup (s : State) (a : BitVec 6) : Nat :=
  if a = 0 then (s.har s.cur).sp.defgrp.toNat else wf (s.g a) 0 8

/-- The group of a Bugle instruction that may have issued and waits, which was read at its issue. -/
def State.heldGroup (s : State) (a : BitVec 6) : Nat :=
  let w := (s.har s.cur).seq.wait
  if w.stage = 1 then w.v.toNat else s.bugGroup a

/-- A Bugle instruction on group g has issued and waits. -/
def State.bugWait (s : State) (g : Nat) : State :=
  s.stall.modSeq s.cur fun q => { q with wait := { stage := 1, v := BitVec.ofNat 64 g } }

/-- The key of a group of a partition. -/
def groupKey (p g : Nat) : Nat := 256 * p + g

/-- A harness's membership of a group. -/
def Harness.member (h : Harness) (g : Nat) : Member := h.bg.getD g {}

def Harness.modMember (h : Harness) (g : Nat) (f : Member → Member) : Harness :=
  { h with bg := h.bg.set g (f (h.member g)) }

/-- The harness waits at an instance at which its present node arrived. -/
def Member.waits (m : Member) : Bool := m.arrived && m.own

/-- Whether the current harness is a member (R187). -/
def State.isMember (s : State) (g : Nat) : Bool := s.groupHas (s.partOf s.cur) g s.cur

/-- An arrival of the current harness counts in the next cycle (R183). -/
def State.arrive (s : State) (g : Nat) : State :=
  let k := groupKey (s.partOf s.cur) g
  let s := { s with bugle := { s.bugle with
    arrive := s.bugle.arrive.set k (s.bugle.arrive.getD k [] ++ [(s.cur, s.mcc.toNat + 1)]) } }
  s.modHar s.cur fun h => h.modMember g fun m => { m with arrived := true, own := true }

/-- BGARR is blocking; it stalls while the state is arrived (R183). -/
def execBgarr (a : BitVec 6) (s : State) : Out :=
  let g := s.bugGroup a
  if !s.isMember g then .next (s.preciseC s.cur cBG_NOT_MEMBER)
  else if !s.drained || ((s.har s.cur).member g).arrived then .next s.stall
  else .next ((s.arrive g).retireSeq id)

/-- R183: retires at once unless the instance at which this node arrived is open. Later loads and stores are separated from
every earlier one, as by a QSYNC, though 04 R108 names only the completion that BGWAIT observes (DESIGN CHOICE, log entry
63). -/
def execBgwait (a : BitVec 6) (s : State) : Out :=
  let g := s.heldGroup a
  if !s.isMember g then .next (s.preciseC s.cur cBG_NOT_MEMBER)
  else if ((s.har s.cur).member g).waits then .next (s.bugWait g)
  else .next (s.retireSeq fun q => { q with epoch := q.epoch + 1 })

/-- BGARR in cycle t, BGWAIT from t + 1 (R183): stage 1 is the wait (DEDUCED, log entry 28). -/
def execBgbar (a : BitVec 6) (s : State) : Out :=
  let g := s.heldGroup a
  if !s.isMember g then .next (s.preciseC s.cur cBG_NOT_MEMBER)
  else if (s.har s.cur).seq.wait.stage = 0 then
    if !s.drained || ((s.har s.cur).member g).arrived then .next s.stall
    else .next ((s.arrive g).modSeq s.cur fun q => { q with wait := { stage := 1, v := BitVec.ofNat 64 g } })
  else if ((s.har s.cur).member g).waits then .next s.stall
  else .next (s.retireSeq fun q => { q with epoch := q.epoch + 1 })

/-- Whether an earlier send of a harness to a group has not departed. -/
def State.sendWaits (s : State) (r g : Nat) : Bool :=
  s.bugle.sends.any fun x => x.rank == r && x.group == g && x.part == s.partOf r

/-- Sends in their order: by cycle of issue, those of one cycle by rank (R184). -/
def sendIn (x : Send) (l : List Send) : List Send :=
  let before (y : Send) : Bool := decide (y.cycle < x.cycle) || (y.cycle == x.cycle && decide (y.rank < x.rank))
  l.filter before ++ x :: l.filter fun y => !before y

/-- R184: the value waits for its departure. -/
def execBgsend (a b : BitVec 6) (s : State) : Out :=
  let g := s.bugGroup a
  if !s.isMember g then .next (s.preciseC s.cur cBG_NOT_MEMBER)
  else if s.sendWaits s.cur g then .next s.stall
  else
    let x : Send := ⟨s.partOf s.cur, g, s.cur, s.g b, s.mcc.toNat⟩
    .next ({ s with bugle := { s.bugle with sends := sendIn x s.bugle.sends } }.retireSeq id)

/-- R185: BG_OVERRUN before a value is taken, its bit cleared; else the oldest value. -/
def execBgrecv (d a : BitVec 6) (s : State) : Out :=
  let g := s.heldGroup a
  let m := (s.har s.cur).member g
  if !s.isMember g then .next (s.preciseC s.cur cBG_NOT_MEMBER)
  else if m.overrun then
    .next ((s.modHar s.cur fun h => h.modMember g fun m => { m with overrun := false }).preciseC s.cur cBG_OVERRUN)
  else match m.queue with
    | [] => .next (s.bugWait g)
    | v :: rest => .next ((s.modHar s.cur fun h => h.modMember g fun m => { m with queue := rest }).toG d v)

/-- The first cycle after `t` that falls in the slot of a group (R184). -/
def slotAfter (t g : Nat) : Nat := t + 1 + (g + 15 * (t + 1)) % 16

/-- The delivery cycle of a send that rank r issues now (R186): after those that wait and those of lower ranks, one a frame. -/
def State.bgtime (s : State) (r g : Nat) : Nat :=
  let now := s.mcc.toNat
  let p := s.partOf r
  let ahead := (s.bugle.sends.filter fun x =>
    x.part == p && x.group == g && (decide (x.cycle < now) || decide (x.rank < r))).length
  slotAfter now g + 16 * ahead + s.groupLatency p g

/-- R186: the value comes at the end of the cycle, when every send of the cycle is known. -/
def execBgtime (d a : BitVec 6) (s : State) : Out :=
  let g := s.bugGroup a
  if !s.isMember g then .next (s.preciseC s.cur cBG_NOT_MEMBER)
  else .next ({ s with bugle := { s.bugle with asks := s.bugle.asks ++ [(s.cur, g, d)] } }.retireSeq id)

/-- The BGTIMEs of a cycle deliver their values. -/
def State.tellTimes (s : State) : State :=
  { s.bugle.asks.foldl (fun s x => s.modSeq x.1 fun q => q.wg x.2.2 (BitVec.ofNat 64 (s.bgtime x.1 x.2.1))) s with
    bugle := { s.bugle with asks := [] } }

/-! What the Bugle does by itself -/

/-- A send that departs in cycle c: its slot, nothing of its group departed in c. -/
def State.departs (s : State) (c : Nat) (x : Send) : Bool :=
  c % 16 == x.group % 16 && decide (x.cycle < c) &&
    !(s.bugle.wire.any fun y => y.part == x.part && y.group == x.group && y.cycle == c + s.groupLatency x.part x.group)

/-- R184: the earliest waiting send of a group whose slot the next cycle is departs in it. -/
def execBgsendDeparture (s : State) : Out :=
  let c := s.mcc.toNat + 1
  match s.bugle.sends.find? (s.departs c) with
  | none => .next s
  | some x =>
    let y := { x with cycle := c + s.groupLatency x.part x.group }
    .next { s with bugle := { s.bugle with sends := dropFirst (s.departs c) s.bugle.sends, wire := s.bugle.wire ++ [y] } }

/-- A value reaches one member (R185). -/
def Harness.deliver (h : Harness) (g : Nat) (v : Word) : Harness :=
  if h.ctl.node.isNone then h
  else h.modMember g fun m =>
    if m.queue.length < 8 then { m with queue := m.queue ++ [v] } else { m with overrun := true }

/-- R184, R185: a value on the wire is delivered to every member in its cycle. -/
def execBugleDelivery (s : State) : Out :=
  let due (x : Send) : Bool := decide (x.cycle ≤ s.mcc.toNat + 1)
  match s.bugle.wire.find? due with
  | none => .next s
  | some x =>
    let s := { s with bugle := { s.bugle with wire := dropFirst due s.bugle.wire } }
    .next ((s.groupMembers x.part x.group).foldl (fun s r => s.modHar r fun h => h.deliver x.group x.v) s)

/-- The completion cycle of the oldest open instance of a group, once every member has arrived (R183). -/
def State.instanceDue (s : State) (key : Nat) (arr : List (Nat × Nat)) : Option Nat :=
  let ms := s.groupMembers (key / 256) (key % 256)
  let as := ms.filterMap fun r => (arr.find? fun a => a.1 == r).map (·.2)
  if ms.isEmpty || as.length < ms.length then none
  else some (as.foldl max 0 + s.groupLatency (key / 256) (key % 256))

/-- The oldest instance of a group completes: its arrivals go, and a member with no later arrival is idle again. -/
def State.completeInstance (s : State) (key : Nat) (arr : List (Nat × Nat)) : State :=
  let ms := s.groupMembers (key / 256) (key % 256)
  let rest := ms.foldl (fun l r => dropFirst (fun (a : Nat × Nat) => a.1 == r) l) arr
  let s := { s with bugle := { s.bugle with
    arrive := if rest.isEmpty then s.bugle.arrive.erase key else s.bugle.arrive.set key rest } }
  ms.foldl (fun s r => s.modHar r fun h => h.modMember (key % 256) fun m =>
    { m with arrived := m.arrived && rest.any fun a => a.1 == r }) s

/-- R183: an instance whose completion cycle is the next one completes. -/
def execBarrierInstanceComplete (s : State) : Out :=
  let due (ka : Nat × List (Nat × Nat)) : Bool := match s.instanceDue ka.1 ka.2 with
    | some c => decide (c ≤ s.mcc.toNat + 1)
    | none => false
  match s.bugle.arrive.find? due with
  | none => .next s
  | some ka => .next (s.completeInstance ka.1 ka.2)

/-- Every send of a harness has departed (R187). -/
def State.sendsGone (s : State) (r : Nat) : Bool := !s.bugle.sends.any fun x => x.rank == r

/-- Every instance at which a harness has arrived has completed (R187). -/
def Harness.arrivalsDone (h : Harness) : Bool := h.bg.all fun kv => !kv.2.arrived

end Sys2Proof.Machine
end

