-- ==== Sys2Proof/Decode.lean ====
section
/-!
DEFINITION. The decoder and the encoder, from the encoding tables of 05 R135-R151 and R451, and the type codes of copy
packets (09 R283) and scheduler commands (15 R367). Decoding is total: a word that no row takes is refused by name.
A field that the format gives as zero is checked here; what an instruction does with its fields' values (illegal
types, reserved rounding codes, operand limits) is checked when it issues (05 R140, 06 R162).
-/

namespace Sys2Proof

/-- The four streams of a harness (01 R14). -/
inductive Stream where
  | s | v | d | t
deriving DecidableEq, Repr

/-- The word length of a stream in bits (01 R14). -/
def Stream.width : Stream → Nat
  | .s => 32
  | .v => 64
  | .d => 128
  | .t => 64

/-- Why a word is no instruction. -/
inductive DecodeError where
  /-- fewer bytes than a word -/
  | short
  /-- S: a major opcode that R137 leaves unassigned -/
  | major
  /-- S: an fn value that R137 does not list -/
  | fn
  /-- S: a condition code of 10 or above -/
  | cond
  /-- S: a scope of 5 to 7 -/
  | scope
  /-- S: a size code of SEXT above 2 -/
  | size
  /-- a field that the format gives as zero is not zero -/
  | zeroField
  /-- V, D, T: an opcode the stream's map leaves unassigned -/
  | opcode
  /-- an end word or a no-op word that is not its fixed word (R451) -/
  | fixedWord
deriving DecidableEq, Repr

/-- `i` where the named zero fields are zero. -/
def zeroed (ok : Bool) (i : Instr) : Except DecodeError Instr := if ok then .ok i else .error .zeroField

section SDecode

/-- Format SR with three registers in use: major 0x01 (R137, R163). -/
def decodeAlu (w : Nat) : Except DecodeError Instr :=
  let d := bits w 20 6
  let a := bits w 14 6
  let b := bits w 8 6
  match field w 0 8 with
  | 0 => .ok (.add d a b)
  | 1 => .ok (.sub d a b)
  | 2 => .ok (.and d a b)
  | 3 => .ok (.or d a b)
  | 4 => .ok (.xor d a b)
  | 5 => .ok (.andn d a b)
  | 6 => .ok (.orn d a b)
  | 7 => .ok (.shl d a b)
  | 8 => .ok (.shr d a b)
  | 9 => .ok (.sra d a b)
  | 10 => .ok (.rol d a b)
  | 11 => .ok (.mul d a b)
  | 12 => .ok (.mulh d a b)
  | 13 => .ok (.mulhu d a b)
  | 14 => .ok (.div d a b)
  | 15 => .ok (.divu d a b)
  | 16 => .ok (.rem d a b)
  | 17 => .ok (.remu d a b)
  | 18 => .ok (.min d a b)
  | 19 => .ok (.max d a b)
  | 20 => .ok (.minu d a b)
  | 21 => .ok (.maxu d a b)
  | 22 => zeroed (b == 0) (.clz d a)
  | 23 => zeroed (b == 0) (.ctz d a)
  | 24 => zeroed (b == 0) (.popc d a)
  | 25 => if b.toNat ≤ 2 then .ok (.sext d a b) else .error .size
  | 26 => zeroed (b == 0) (.bswap d a)
  | _ => .error .fn

/-- Major 0x06: the immediate shifts (R137). -/
def decodeShiftImm (w : Nat) : Except DecodeError Instr :=
  let d := bits w 20 6
  let a := bits w 14 6
  let n := bits w 0 6
  let z := field w 6 6 == 0
  match field w 12 2 with
  | 0 => zeroed z (.shli d a n)
  | 1 => zeroed z (.shri d a n)
  | 2 => zeroed z (.srai d a n)
  | _ => zeroed z (.roli d a n)

/-- Major 0x0D: the predicate instructions (R137, R168). -/
def decodePred (w : Nat) : Except DecodeError Instr :=
  let hi := field w 4 4 == 0
  let dk := field w 24 2 == 0
  let ak := field w 18 2 == 0
  let bk := field w 12 2 == 0
  let b0 := field w 8 6 == 0
  match field w 0 4 with
  | 0 => zeroed (hi && dk && ak && bk) (.kand (bits w 20 4) (bits w 14 4) (bits w 8 4))
  | 1 => zeroed (hi && dk && ak && bk) (.kor (bits w 20 4) (bits w 14 4) (bits w 8 4))
  | 2 => zeroed (hi && dk && ak && bk) (.kxor (bits w 20 4) (bits w 14 4) (bits w 8 4))
  | 3 => zeroed (hi && dk && ak && bk) (.kandn (bits w 20 4) (bits w 14 4) (bits w 8 4))
  | 4 => zeroed (hi && dk && b0) (.kset (bits w 20 4) (bits w 14 6))
  | 5 => zeroed (hi && ak && b0) (.kget (bits w 20 6) (bits w 14 4))
  | 6 => .ok (.sel (bits w 20 6) (bits w 14 6) (bits w 8 6) (bits w 4 4))
  | _ => .error .fn

/-- Major 0x0E: the pointer instructions (R169). -/
def decodePtr (w : Nat) : Except DecodeError Instr :=
  let d := bits w 20 6
  let a := bits w 14 6
  let b := bits w 8 6
  match field w 0 8 with
  | 0 => .ok (.ptag d a b)
  | 1 => zeroed (b == 0) (.pspace d a)
  | 2 => zeroed (b == 0) (.prank d a)
  | 3 => .ok (.padd d a b)
  | _ => .error .fn

/-- Major 0x1F: queue control and ends (R176). -/
def decodeQueue (w : Nat) : Except DecodeError Instr :=
  let z := field w 0 20 == 0
  match field w 20 6 with
  | 0 => zeroed z .qsync
  | 1 => zeroed (field w 16 4 == 0 && field w 0 1 == 0) (.wait (bits w 1 15))
  | 2 =>
    if field w 5 15 == 0 then (if field w 2 3 ≤ 4 then .ok (.fence (bits w 2 3) (bits w 0 2)) else .error .scope)
    else .error .zeroField
  | 3 => zeroed z .nop
  | 4 => zeroed z .yield
  | 5 => zeroed z .nend
  | 6 => .ok (.trap (bits w 0 20))
  | 7 => .ok (.brk (bits w 0 20))
  | _ => .error .fn

/-- Major 0x20: WAITA and the barrier objects (R179, R180). -/
def decodeBarrier (w : Nat) : Except DecodeError Instr :=
  let a := bits w 14 6
  let b := bits w 8 6
  let d0 := field w 20 6 == 0
  let b0 := field w 8 6 == 0
  let s0 := field w 0 4 == 0
  match field w 4 4 with
  | 0 =>
    if field w 20 6 ≤ 9 then
      (if field w 0 1 == 0 then (if field w 1 3 ≤ 4 then .ok (.waita (bits w 20 6) a b (bits w 1 3)) else .error .scope)
       else .error .zeroField)
    else .error .cond
  | 1 => zeroed (d0 && s0) (.barinit a b)
  | 2 => zeroed (d0 && s0) (.barexp a b)
  | 3 => zeroed (d0 && b0 && s0) (.bararr a)
  | 4 => zeroed (d0 && s0) (.barwait a b)
  | 5 => zeroed (field w 24 2 == 0 && s0) (.bartest (bits w 20 4) a b)
  | _ => .error .fn

/-- Major 0x21: the Bugle (R182). -/
def decodeBugle (w : Nat) : Except DecodeError Instr :=
  let d0 := field w 20 6 == 0
  let b0 := field w 8 6 == 0
  let a := bits w 14 6
  match field w 0 8 with
  | 0 => zeroed (d0 && b0) (.bgbar a)
  | 1 => zeroed (d0 && b0) (.bgarr a)
  | 2 => zeroed (d0 && b0) (.bgwait a)
  | 3 => zeroed d0 (.bgsend a (bits w 8 6))
  | 4 => zeroed b0 (.bgrecv (bits w 20 6) a)
  | 5 => zeroed b0 (.bgtime (bits w 20 6) a)
  | _ => .error .fn

/-- Major 0x23: engine control (R189-R191). -/
def decodeEngCtl (w : Nat) : Except DecodeError Instr :=
  let d0 := field w 20 6 == 0
  let a0 := field w 14 6 == 0
  let b0 := field w 8 6 == 0
  match field w 0 8 with
  | 0 => zeroed d0 (.engwait (bits w 14 6) (bits w 8 6))
  | 1 => zeroed a0 (.engseq (bits w 20 6) (bits w 8 6))
  | 2 => zeroed (d0 && a0 && b0) .framego
  | 3 => zeroed (d0 && a0) (.pwrreq (bits w 8 6))
  | 4 => zeroed (d0 && a0 && b0) .pwrrel
  | _ => .error .fn

/-- Major 0x24: posting, spawning, joining (R192-R194). -/
def decodePost (w : Nat) : Except DecodeError Instr :=
  match field w 0 8 with
  | 0 => .ok (.qpost (bits w 20 6) (bits w 14 6) (bits w 8 6))
  | 1 => zeroed (field w 20 6 == 0 && field w 8 6 == 0) (.spawn (bits w 14 6))
  | 2 => zeroed (field w 24 2 == 0 && field w 8 6 == 0) (.join (bits w 20 4) (bits w 14 6))
  | _ => .error .fn

/-- Major 0x25: the buffer records (R195-R197). -/
def decodeBrec (w : Nat) : Except DecodeError Instr :=
  let b0 := field w 8 6 == 0
  match field w 0 8 with
  | 0 => zeroed b0 (.brld (bits w 20 6) (bits w 14 6))
  | 1 => zeroed (b0 && field w 14 6 == 0) (.brfree (bits w 20 6))
  | 2 => zeroed b0 (.brget (bits w 20 6) (bits w 14 6))
  | _ => .error .fn

/-- Major 0x26: special registers (R198). -/
def decodeSpecial (w : Nat) : Except DecodeError Instr :=
  let z := field w 12 1 == 0
  if field w 13 1 = 0 then zeroed (z && field w 14 6 == 0) (.mfs (bits w 20 6) (bits w 0 12))
  else zeroed (z && field w 20 6 == 0) (.mts (bits w 14 6) (bits w 0 12))

/-- Major 0x27: refresh (R199, R200). -/
def decodeRefresh (w : Nat) : Except DecodeError Instr :=
  match field w 0 8 with
  | 0 => zeroed (field w 24 2 == 0) (.tref (bits w 20 4) (bits w 14 6) (bits w 8 6))
  | 1 => zeroed (field w 8 12 == 0) (.trefq (bits w 20 6))
  | _ => .error .fn

/-- Majors 0x28-0x2B: the atomics (R177, R178). -/
def decodeAtomic (w : Nat) : Except DecodeError Instr :=
  let o := bits w 26 2
  let d := bits w 20 6
  let a := bits w 14 6
  let b := bits w 8 6
  let s := bits w 1 3
  if field w 0 1 ≠ 0 then .error .zeroField
  else if 4 < field w 1 3 then .error .scope
  else match field w 4 4 with
  | 0 => .ok (.aadd o d a b s)
  | 1 => .ok (.aand o d a b s)
  | 2 => .ok (.aor o d a b s)
  | 3 => .ok (.axor o d a b s)
  | 4 => .ok (.amin o d a b s)
  | 5 => .ok (.amax o d a b s)
  | 6 => .ok (.aminu o d a b s)
  | 7 => .ok (.amaxu o d a b s)
  | 8 => .ok (.aswap o d a b s)
  | 9 => .ok (.acas o d a b s)
  | 10 => zeroed (b == 0) (.aload o d a s)
  | 11 => zeroed (d == 0) (.astore o a b s)
  | _ => .error .fn

/-- Major 0x3F: the privileged instructions (R204). -/
def decodePriv (w : Nat) : Except DecodeError Instr :=
  let z := field w 0 20 == 0
  match field w 20 6 with
  | 0 => zeroed z .eret
  | 1 => zeroed (field w 8 12 == 0) (.tlbi (bits w 6 2) (bits w 0 6))
  | 2 => zeroed z .halt
  | 3 => zeroed z .waitint
  | _ => .error .fn

/-- An S word (R135-R138). -/
def decodeS (w : Nat) : Except DecodeError Instr :=
  let d := bits w 20 6
  let a := bits w 14 6
  let b := bits w 8 6
  let i14 := bits w 0 14
  let i20 := bits w 0 20
  let i10 := bits w 4 10
  let sb := bits w 0 4
  match field w 26 6 with
  | 0x01 => decodeAlu w
  | 0x02 => .ok (.addi d a i14)
  | 0x03 => .ok (.andi d a i14)
  | 0x04 => .ok (.ori d a i14)
  | 0x05 => .ok (.xori d a i14)
  | 0x06 => decodeShiftImm w
  | 0x08 => .ok (.movi d i20)
  | 0x09 => .ok (.movm d i20)
  | 0x0A => .ok (.movh d i20)
  | 0x0B =>
    if field w 18 4 ≤ 9 then zeroed (field w 0 6 == 0) (.cmp (bits w 22 4) (bits w 18 4) (bits w 12 6) (bits w 6 6))
    else .error .cond
  | 0x0C =>
    if field w 18 4 ≤ 9 then .ok (.cmpi (bits w 22 4) (bits w 18 4) (bits w 12 6) (bits w 0 12)) else .error .cond
  | 0x0D => decodePred w
  | 0x0E => decodePtr w
  | 0x10 => .ok (.br (bits w 22 4) (field w 21 1 == 1) (bits w 0 21))
  | 0x11 => .ok (.brl (bits w 22 4) (field w 21 1 == 1) (bits w 0 21))
  | 0x12 => zeroed (d == 0 && b == 0 && field w 0 8 == 0) (.jr a)
  | 0x13 => zeroed (b == 0 && field w 0 8 == 0) (.jrl d a)
  | 0x14 => .ok (.ldb d a i10 sb)
  | 0x15 => .ok (.ldbu d a i10 sb)
  | 0x16 => .ok (.ldh d a i10 sb)
  | 0x17 => .ok (.ldhu d a i10 sb)
  | 0x18 => .ok (.ldw d a i10 sb)
  | 0x19 => .ok (.ldwu d a i10 sb)
  | 0x1A => .ok (.ldd d a i10 sb)
  | 0x1B => .ok (.stb d a i10 sb)
  | 0x1C => .ok (.sth d a i10 sb)
  | 0x1D => .ok (.stw d a i10 sb)
  | 0x1E => .ok (.std d a i10 sb)
  | 0x1F => decodeQueue w
  | 0x20 => decodeBarrier w
  | 0x21 => decodeBugle w
  | 0x22 => zeroed (field w 22 1 == 0) (.exec (bits w 24 2) (field w 23 1 == 1) (bits w 16 6) (bits w 0 16))
  | 0x23 => decodeEngCtl w
  | 0x24 => decodePost w
  | 0x25 => decodeBrec w
  | 0x26 => decodeSpecial w
  | 0x27 => decodeRefresh w
  | 0x28 => decodeAtomic w
  | 0x29 => decodeAtomic w
  | 0x2A => decodeAtomic w
  | 0x2B => decodeAtomic w
  | 0x3F => decodePriv w
  | _ => .error .major

end SDecode

/-- One bit as a truth value. -/
def flag (w lo : Nat) : Bool := field w lo 1 == 1

/-- The fields of a V word (R141). -/
def vFields (w : Nat) : VWord where
  gk := bits w 53 3
  gn := flag w 52
  ty := bits w 48 4
  vd := bits w 42 6
  va := bits w 36 6
  vb := bits w 30 6
  vc := bits w 24 6
  na := flag w 23
  aa := flag w 22
  nb := flag w 21
  ab := flag w 20
  nc := flag w 19
  ac := flag w 18
  clamp := bits w 16 2
  p := bits w 11 5
  fd := flag w 10
  ta := flag w 9
  tb := flag w 8
  tc := flag w 7
  ext := bits w 0 7

/-- The fields of a hardware loop, in the low 56 bits of `w` (R148; for D, of the upper half). -/
def lFields (w : Nat) : LWord where
  gk := bits w 53 3
  gn := flag w 52
  lv := bits w 50 2
  csrc := flag w 49
  creg := bits w 45 4
  lenm := bits w 35 10
  cimm := bits w 19 16
  se := bits w 15 4
  stride := bits w 0 15

/-- The fields of DMMA (R143). -/
def mFields (w : Nat) : MWord where
  gk := bits w 117 3
  gn := flag w 116
  acc := bits w 113 3
  aslot := bits w 108 5
  bslot := bits w 103 5
  afmt := bits w 99 4
  bfmt := bits w 95 4
  ascl := bits w 85 10
  bscl := bits w 75 10
  ats := bits w 71 4
  bts := bits w 67 4
  zf := flag w 66
  takea := flag w 65
  takeb := flag w 64
  fla := flag w 63
  rfl := bits w 59 4
  zero := bits w 0 59

/-- The fields of the general D layout (R144). -/
def dFields (w : Nat) : DWord where
  gk := bits w 117 3
  gn := flag w 116
  acc := bits w 113 3
  slot := bits w 108 5
  vreg := bits w 102 6
  brec := bits w 96 6
  creg := bits w 92 4
  fmt := bits w 84 8
  sidx := bits w 74 10
  rnd := bits w 71 3
  clamp := bits w 69 2
  p := bits w 64 5
  fild := flag w 63
  tkv := flag w 62
  tks := flag w 61
  tkc := flag w 60
  zero := bits w 32 28
  imm := bits w 0 32

/-- The fields of a T word (R146). -/
def tFields (w : Nat) : TWord where
  gk := bits w 53 3
  gn := flag w 52
  reg := bits w 46 6
  brec := bits w 40 6
  ereg := bits w 36 4
  fild := flag w 35
  take := flag w 34
  ext := bits w 20 14
  imm := bits w 0 20

/-- A V word (R142). -/
def decodeV (w : Nat) : Except DecodeError Instr :=
  match field w 56 8 with
  | 0x01 => .ok (.vadd (vFields w))
  | 0x02 => .ok (.vsub (vFields w))
  | 0x03 => .ok (.vmul (vFields w))
  | 0x04 => .ok (.vfma (vFields w))
  | 0x05 => .ok (.vmin (vFields w))
  | 0x06 => .ok (.vmax (vFields w))
  | 0x07 => .ok (.vmulh (vFields w))
  | 0x08 => .ok (.vabsd (vFields w))
  | 0x09 => .ok (.vdot4 (vFields w))
  | 0x0A => .ok (.vdot2 (vFields w))
  | 0x11 => .ok (.vadds (vFields w))
  | 0x12 => .ok (.vsubs (vFields w))
  | 0x13 => .ok (.vmuls (vFields w))
  | 0x14 => .ok (.vfmas (vFields w))
  | 0x15 => .ok (.vmins (vFields w))
  | 0x16 => .ok (.vmaxs (vFields w))
  | 0x20 => .ok (.vrcpe (vFields w))
  | 0x21 => .ok (.vrsqe (vFields w))
  | 0x22 => .ok (.vrcp (vFields w))
  | 0x23 => .ok (.vrsq (vFields w))
  | 0x24 => .ok (.vsqrt (vFields w))
  | 0x25 => .ok (.vexp2 (vFields w))
  | 0x26 => .ok (.vlog2 (vFields w))
  | 0x27 => .ok (.vexp (vFields w))
  | 0x28 => .ok (.vlog (vFields w))
  | 0x29 => .ok (.vsinp (vFields w))
  | 0x2A => .ok (.vcosp (vFields w))
  | 0x2B => .ok (.vtanh (vFields w))
  | 0x2C => .ok (.verf (vFields w))
  | 0x2D => .ok (.vdiv (vFields w))
  | 0x30 => .ok (.vcmp (vFields w))
  | 0x31 => .ok (.vclass (vFields w))
  | 0x38 => .ok (.vsel (vFields w))
  | 0x39 => .ok (.vand (vFields w))
  | 0x3A => .ok (.vor (vFields w))
  | 0x3B => .ok (.vxor (vFields w))
  | 0x3C => .ok (.vnot (vFields w))
  | 0x3D => .ok (.vshl (vFields w))
  | 0x3E => .ok (.vshr (vFields w))
  | 0x3F => .ok (.vsra (vFields w))
  | 0x40 => .ok (.vcvt (vFields w))
  | 0x41 => .ok (.vpack (vFields w))
  | 0x42 => .ok (.vunpk (vFields w))
  | 0x48 => .ok (.vquant (vFields w))
  | 0x49 => .ok (.vdeq (vFields w))
  | 0x4A => .ok (.vbmax (vFields w))
  | 0x50 => .ok (.vrsum (vFields w))
  | 0x51 => .ok (.vrmax (vFields w))
  | 0x52 => .ok (.vrmin (vFields w))
  | 0x53 => .ok (.vrssq (vFields w))
  | 0x54 => .ok (.vscan (vFields w))
  | 0x58 => .ok (.vpart (vFields w))
  | 0x59 => .ok (.viota (vFields w))
  | 0x5A => .ok (.vperm (vFields w))
  | 0x5B => .ok (.vgath (vFields w))
  | 0x5C => .ok (.vscat (vFields w))
  | 0x5D => .ok (.vmov (vFields w))
  | 0x5E => .ok (.vsplat (vFields w))
  | 0x5F => .ok (.vbcst (vFields w))
  | 0x60 => .ok (.vextr (vFields w))
  | 0x61 => .ok (.vins (vFields w))
  | 0x70 => .ok (.vsetl (vFields w))
  | 0x73 => .ok (.vcadd (vFields w))
  | 0x71 => .ok (.loopV (lFields w))
  | 0x7E => if field w 0 56 = 0 then .ok .vnop else .error .fixedWord
  | 0x7F => if field w 0 56 = 0 then .ok .vend else .error .fixedWord
  | _ => .error .opcode

/-- A D word (R145). -/
def decodeD (w : Nat) : Except DecodeError Instr :=
  match field w 120 8 with
  | 0x03 => .ok (.dmma (mFields w))
  | 0x01 => .ok (.dclaim (dFields w))
  | 0x02 => .ok (.drel (dFields w))
  | 0x04 => .ok (.dzero (dFields w))
  | 0x05 => .ok (.dfill (dFields w))
  | 0x06 => .ok (.dread (dFields w))
  | 0x07 => .ok (.dcvt (dFields w))
  | 0x08 => .ok (.dlds (dFields w))
  | 0x09 => .ok (.dldt (dFields w))
  | 0x0A => .ok (.dscl (dFields w))
  | 0x0B => .ok (.ddec (dFields w))
  | 0x0C => .ok (.dtbl (dFields w))
  | 0x0D => .ok (.dseek (dFields w))
  | 0x0E => .ok (.dstat (dFields w))
  | 0x10 => .ok (.dcadd (dFields w))
  | 0x11 => zeroed (field w 0 64 == 0) (.loopD (lFields (w / 2 ^ 64)))
  | 0x7E => if field w 0 120 = 0 then .ok .dnop else .error .fixedWord
  | 0x7F => if field w 0 120 = 0 then .ok .dend else .error .fixedWord
  | _ => .error .opcode

/-- A T word (R147). -/
def decodeT (w : Nat) : Except DecodeError Instr :=
  match field w 56 8 with
  | 0x01 => .ok (.tld (tFields w))
  | 0x02 => .ok (.tst (tFields w))
  | 0x03 => .ok (.tlds (tFields w))
  | 0x04 => .ok (.tgath (tFields w))
  | 0x05 => .ok (.tscat (tFields w))
  | 0x06 => .ok (.tshift (tFields w))
  | 0x07 => .ok (.txsend (tFields w))
  | 0x08 => .ok (.txrecv (tFields w))
  | 0x09 => .ok (.tspst (tFields w))
  | 0x0A => .ok (.tspld (tFields w))
  | 0x0B => .ok (.tbarr (tFields w))
  | 0x0C => .ok (.tatom (tFields w))
  | 0x0D => .ok (.teadd (tFields w))
  | 0x0E => .ok (.temov (tFields w))
  | 0x0F => .ok (.txch (tFields w))
  | 0x11 => .ok (.loopT (lFields w))
  | 0x7E => if field w 0 56 = 0 then .ok .tnop else .error .fixedWord
  | 0x7F => if field w 0 56 = 0 then .ok .tend else .error .fixedWord
  | _ => .error .opcode

/-- The decoder of a stream, on the word as a number. -/
def decode (st : Stream) (w : Nat) : Except DecodeError Instr :=
  match st with
  | .s => decodeS w
  | .v => decodeV w
  | .d => decodeD w
  | .t => decodeT w

/-- Decoding bytes as they stand in memory (R131: little-endian), with the bytes after the word. -/
def decodeBytes (st : Stream) (bs : List Byte) : Except DecodeError (Instr × List Byte) :=
  let n := st.width / 8
  if bs.length < n then .error .short
  else match decode st (leNat (bs.take n)) with
    | .ok i => .ok (i, bs.drop n)
    | .error e => .error e

/-- The S instruction that issues for a word: a word that no row takes is the row UNASSIGNED_S_ENCODING (R138). -/
def fetchedS (w : Nat) : Instr :=
  match decodeS w with
  | .ok i => i
  | .error _ => .unassignedSEncoding (BitVec.ofNat 32 w)

/-- The engine instruction that issues for a word: a word that no row takes is the row UNASSIGNED_ENGINE_OPCODE
(R140). -/
def fetchedEng (e : Eng) (w : Nat) : Instr :=
  match decode (match e with | .v => .v | .d => .d | .t => .t) w with
  | .ok i => i
  | .error _ => .unassignedEngineOpcode e (BitVec.ofNat 128 w)

/-- The packet type codes of R283. -/
def decodePacketType (ty : Nat) (q : PktId) : Option Instr :=
  match ty with
  | 0x01 => some (.copy q)
  | 0x02 => some (.copy4d q)
  | 0x03 => some (.bcast q)
  | 0x04 => some (.fill q)
  | 0x05 => some (.gather q)
  | 0x08 => some (.gridr q)
  | 0x09 => some (.gridp q)
  | 0x0A => some (.gridc q)
  | 0x10 => some (.ebz q)
  | 0x11 => some (.ebx q)
  | 0x18 => some (.cred q)
  | 0x19 => some (.cgath q)
  | _ => none

/-- The scheduler command codes of 15 R367 (word 0 bits 31:24). -/
def decodeCommand (die : Nat) (c : Packet) : Option Instr :=
  match field c.w0.toNat 24 8 with
  | 0x01 => some (.node die c)
  | 0x02 => some (.dec die c)
  | 0x03 => some (.remove die c)
  | 0x04 => some (.preempt die c)
  | 0x05 => some (.param die c)
  | 0x06 => some (.ckpt die c)
  | 0x07 => some (.fenceCmd die c)
  | _ => none

section Encode

/-- Format SR (R135). -/
def encSR (maj : Nat) (d a b : BitVec 6) (fn : Nat) : Nat :=
  maj * 2 ^ 26 + d.toNat * 2 ^ 20 + a.toNat * 2 ^ 14 + b.toNat * 2 ^ 8 + fn

/-- Format SI. -/
def encSI (maj : Nat) (d a : BitVec 6) (i : Nat) : Nat :=
  maj * 2 ^ 26 + d.toNat * 2 ^ 20 + a.toNat * 2 ^ 14 + i

/-- Format SL. -/
def encSL (maj : Nat) (d : BitVec 6) (i : BitVec 20) : Nat := maj * 2 ^ 26 + d.toNat * 2 ^ 20 + i.toNat

/-- Format SM. -/
def encSM (maj : Nat) (d a : BitVec 6) (i : BitVec 10) (sb : BitVec 4) : Nat :=
  maj * 2 ^ 26 + d.toNat * 2 ^ 20 + a.toNat * 2 ^ 14 + i.toNat * 2 ^ 4 + sb.toNat

/-- Format SA; `maj` is the major opcode, or 0x28 plus the ordering. -/
def encSA (maj : Nat) (d a b : BitVec 6) (fn s : Nat) : Nat :=
  maj * 2 ^ 26 + d.toNat * 2 ^ 20 + a.toNat * 2 ^ 14 + b.toNat * 2 ^ 8 + fn * 2 ^ 4 + s * 2

/-- Format SB. -/
def encSB (maj : Nat) (k : BitVec 4) (n : Bool) (disp : BitVec 21) : Nat :=
  maj * 2 ^ 26 + k.toNat * 2 ^ 22 + b2n n * 2 ^ 21 + disp.toNat

/-- Format SW. -/
def encSW (maj fn i : Nat) : Nat := maj * 2 ^ 26 + fn * 2 ^ 20 + i

/-- A predicate register in a 6-bit field. -/
def kreg (k : BitVec 4) : BitVec 6 := BitVec.ofNat 6 k.toNat

/-- A V word (R141). -/
def encV (op : Nat) (w : VWord) : Nat :=
  op * 2 ^ 56 + w.gk.toNat * 2 ^ 53 + b2n w.gn * 2 ^ 52 + w.ty.toNat * 2 ^ 48 + w.vd.toNat * 2 ^ 42 +
  w.va.toNat * 2 ^ 36 + w.vb.toNat * 2 ^ 30 + w.vc.toNat * 2 ^ 24 + b2n w.na * 2 ^ 23 + b2n w.aa * 2 ^ 22 +
  b2n w.nb * 2 ^ 21 + b2n w.ab * 2 ^ 20 + b2n w.nc * 2 ^ 19 + b2n w.ac * 2 ^ 18 + w.clamp.toNat * 2 ^ 16 +
  w.p.toNat * 2 ^ 11 + b2n w.fd * 2 ^ 10 + b2n w.ta * 2 ^ 9 + b2n w.tb * 2 ^ 8 + b2n w.tc * 2 ^ 7 + w.ext.toNat

/-- A hardware loop in 64 bits (R148). -/
def encL (op : Nat) (w : LWord) : Nat :=
  op * 2 ^ 56 + w.gk.toNat * 2 ^ 53 + b2n w.gn * 2 ^ 52 + w.lv.toNat * 2 ^ 50 + b2n w.csrc * 2 ^ 49 +
  w.creg.toNat * 2 ^ 45 + w.lenm.toNat * 2 ^ 35 + w.cimm.toNat * 2 ^ 19 + w.se.toNat * 2 ^ 15 + w.stride.toNat

/-- DMMA (R143). -/
def encM (w : MWord) : Nat :=
  0x03 * 2 ^ 120 + w.gk.toNat * 2 ^ 117 + b2n w.gn * 2 ^ 116 + w.acc.toNat * 2 ^ 113 + w.aslot.toNat * 2 ^ 108 +
  w.bslot.toNat * 2 ^ 103 + w.afmt.toNat * 2 ^ 99 + w.bfmt.toNat * 2 ^ 95 + w.ascl.toNat * 2 ^ 85 +
  w.bscl.toNat * 2 ^ 75 + w.ats.toNat * 2 ^ 71 + w.bts.toNat * 2 ^ 67 + b2n w.zf * 2 ^ 66 + b2n w.takea * 2 ^ 65 +
  b2n w.takeb * 2 ^ 64 + b2n w.fla * 2 ^ 63 + w.rfl.toNat * 2 ^ 59 + w.zero.toNat

/-- The general D layout (R144). -/
def encD (op : Nat) (w : DWord) : Nat :=
  op * 2 ^ 120 + w.gk.toNat * 2 ^ 117 + b2n w.gn * 2 ^ 116 + w.acc.toNat * 2 ^ 113 + w.slot.toNat * 2 ^ 108 +
  w.vreg.toNat * 2 ^ 102 + w.brec.toNat * 2 ^ 96 + w.creg.toNat * 2 ^ 92 + w.fmt.toNat * 2 ^ 84 +
  w.sidx.toNat * 2 ^ 74 + w.rnd.toNat * 2 ^ 71 + w.clamp.toNat * 2 ^ 69 + w.p.toNat * 2 ^ 64 + b2n w.fild * 2 ^ 63 +
  b2n w.tkv * 2 ^ 62 + b2n w.tks * 2 ^ 61 + b2n w.tkc * 2 ^ 60 + w.zero.toNat * 2 ^ 32 + w.imm.toNat

/-- A T word (R146). -/
def encT (op : Nat) (w : TWord) : Nat :=
  op * 2 ^ 56 + w.gk.toNat * 2 ^ 53 + b2n w.gn * 2 ^ 52 + w.reg.toNat * 2 ^ 46 + w.brec.toNat * 2 ^ 40 +
  w.ereg.toNat * 2 ^ 36 + b2n w.fild * 2 ^ 35 + b2n w.take * 2 ^ 34 + w.ext.toNat * 2 ^ 20 + w.imm.toNat

/-- The stream and the word of an instruction; the packets, commands and events of the table have no code word. -/
def encode : Instr → Option (Stream × Nat)
  | .add d a b => some (.s, encSR 0x01 d a b 0)
  | .sub d a b => some (.s, encSR 0x01 d a b 1)
  | .and d a b => some (.s, encSR 0x01 d a b 2)
  | .or d a b => some (.s, encSR 0x01 d a b 3)
  | .xor d a b => some (.s, encSR 0x01 d a b 4)
  | .andn d a b => some (.s, encSR 0x01 d a b 5)
  | .orn d a b => some (.s, encSR 0x01 d a b 6)
  | .shl d a b => some (.s, encSR 0x01 d a b 7)
  | .shr d a b => some (.s, encSR 0x01 d a b 8)
  | .sra d a b => some (.s, encSR 0x01 d a b 9)
  | .rol d a b => some (.s, encSR 0x01 d a b 10)
  | .mul d a b => some (.s, encSR 0x01 d a b 11)
  | .mulh d a b => some (.s, encSR 0x01 d a b 12)
  | .mulhu d a b => some (.s, encSR 0x01 d a b 13)
  | .div d a b => some (.s, encSR 0x01 d a b 14)
  | .divu d a b => some (.s, encSR 0x01 d a b 15)
  | .rem d a b => some (.s, encSR 0x01 d a b 16)
  | .remu d a b => some (.s, encSR 0x01 d a b 17)
  | .min d a b => some (.s, encSR 0x01 d a b 18)
  | .max d a b => some (.s, encSR 0x01 d a b 19)
  | .minu d a b => some (.s, encSR 0x01 d a b 20)
  | .maxu d a b => some (.s, encSR 0x01 d a b 21)
  | .clz d a => some (.s, encSR 0x01 d a 0 22)
  | .ctz d a => some (.s, encSR 0x01 d a 0 23)
  | .popc d a => some (.s, encSR 0x01 d a 0 24)
  | .sext d a z => some (.s, encSR 0x01 d a z 25)
  | .bswap d a => some (.s, encSR 0x01 d a 0 26)
  | .addi d a i => some (.s, encSI 2 d a i.toNat)
  | .andi d a i => some (.s, encSI 3 d a i.toNat)
  | .ori d a i => some (.s, encSI 4 d a i.toNat)
  | .xori d a i => some (.s, encSI 5 d a i.toNat)
  | .shli d a n => some (.s, encSI 0x06 d a (0 * 2 ^ 12 + n.toNat))
  | .shri d a n => some (.s, encSI 0x06 d a (1 * 2 ^ 12 + n.toNat))
  | .srai d a n => some (.s, encSI 0x06 d a (2 * 2 ^ 12 + n.toNat))
  | .roli d a n => some (.s, encSI 0x06 d a (3 * 2 ^ 12 + n.toNat))
  | .movi d i => some (.s, encSL 8 d i)
  | .movm d i => some (.s, encSL 9 d i)
  | .movh d i => some (.s, encSL 10 d i)
  | .cmp k c a b =>
    some (.s, 0x0B * 2 ^ 26 + k.toNat * 2 ^ 22 + c.toNat * 2 ^ 18 + a.toNat * 2 ^ 12 + b.toNat * 2 ^ 6)
  | .cmpi k c a i => some (.s, 0x0C * 2 ^ 26 + k.toNat * 2 ^ 22 + c.toNat * 2 ^ 18 + a.toNat * 2 ^ 12 + i.toNat)
  | .kand d a b => some (.s, encSR 0x0D (kreg d) (kreg a) (kreg b) 0)
  | .kor d a b => some (.s, encSR 0x0D (kreg d) (kreg a) (kreg b) 1)
  | .kxor d a b => some (.s, encSR 0x0D (kreg d) (kreg a) (kreg b) 2)
  | .kandn d a b => some (.s, encSR 0x0D (kreg d) (kreg a) (kreg b) 3)
  | .kset d a => some (.s, encSR 0x0D (kreg d) a 0 4)
  | .kget d a => some (.s, encSR 0x0D d (kreg a) 0 5)
  | .sel d a b n => some (.s, encSR 0x0D d a b (n.toNat * 2 ^ 4 + 6))
  | .ptag d a b => some (.s, encSR 0x0E d a b 0)
  | .pspace d a => some (.s, encSR 0x0E d a 0 1)
  | .prank d a => some (.s, encSR 0x0E d a 0 2)
  | .padd d a b => some (.s, encSR 0x0E d a b 3)
  | .br k n disp => some (.s, encSB 0x10 k n disp)
  | .brl k n disp => some (.s, encSB 0x11 k n disp)
  | .jr a => some (.s, encSR 0x12 0 a 0 0)
  | .jrl d a => some (.s, encSR 0x13 d a 0 0)
  | .ldb d a i sb => some (.s, encSM 0x14 d a i sb)
  | .ldbu d a i sb => some (.s, encSM 0x15 d a i sb)
  | .ldh d a i sb => some (.s, encSM 0x16 d a i sb)
  | .ldhu d a i sb => some (.s, encSM 0x17 d a i sb)
  | .ldw d a i sb => some (.s, encSM 0x18 d a i sb)
  | .ldwu d a i sb => some (.s, encSM 0x19 d a i sb)
  | .ldd d a i sb => some (.s, encSM 0x1A d a i sb)
  | .stb d a i sb => some (.s, encSM 0x1B d a i sb)
  | .sth d a i sb => some (.s, encSM 0x1C d a i sb)
  | .stw d a i sb => some (.s, encSM 0x1D d a i sb)
  | .std d a i sb => some (.s, encSM 0x1E d a i sb)
  | .qsync => some (.s, encSW 0x1F 0 0)
  | .wait m => some (.s, encSW 0x1F 1 (m.toNat * 2))
  | .fence s o => some (.s, encSW 0x1F 2 (s.toNat * 2 ^ 2 + o.toNat))
  | .nop => some (.s, encSW 0x1F 3 0)
  | .yield => some (.s, encSW 0x1F 4 0)
  | .nend => some (.s, encSW 0x1F 5 0)
  | .trap c => some (.s, encSW 0x1F 6 c.toNat)
  | .brk c => some (.s, encSW 0x1F 7 c.toNat)
  | .waita c a b s => some (.s, encSA 0x20 c a b 0 s.toNat)
  | .barinit a b => some (.s, encSA 0x20 0 a b 1 0)
  | .barexp a b => some (.s, encSA 0x20 0 a b 2 0)
  | .bararr a => some (.s, encSA 0x20 0 a 0 3 0)
  | .barwait a b => some (.s, encSA 0x20 0 a b 4 0)
  | .bartest k a b => some (.s, encSA 0x20 (kreg k) a b 5 0)
  | .bgbar a => some (.s, encSR 0x21 0 a 0 0)
  | .bgarr a => some (.s, encSR 0x21 0 a 0 1)
  | .bgwait a => some (.s, encSR 0x21 0 a 0 2)
  | .bgsend a b => some (.s, encSR 0x21 0 a b 3)
  | .bgrecv d a => some (.s, encSR 0x21 d a 0 4)
  | .bgtime d a => some (.s, encSR 0x21 d a 0 5)
  | .exec e t a o => some (.s, 0x22 * 2 ^ 26 + e.toNat * 2 ^ 24 + b2n t * 2 ^ 23 + a.toNat * 2 ^ 16 + o.toNat)
  | .engwait a e => some (.s, encSR 0x23 0 a e 0)
  | .engseq d e => some (.s, encSR 0x23 d 0 e 1)
  | .framego => some (.s, encSR 0x23 0 0 0 2)
  | .pwrreq n => some (.s, encSR 0x23 0 0 n 3)
  | .pwrrel => some (.s, encSR 0x23 0 0 0 4)
  | .qpost d a b => some (.s, encSR 0x24 d a b 0)
  | .spawn a => some (.s, encSR 0x24 0 a 0 1)
  | .join k a => some (.s, encSR 0x24 (kreg k) a 0 2)
  | .brld d a => some (.s, encSR 0x25 d a 0 0)
  | .brfree d => some (.s, encSR 0x25 d 0 0 1)
  | .brget d a => some (.s, encSR 0x25 d a 0 2)
  | .mfs d n => some (.s, encSI 0x26 d 0 n.toNat)
  | .mts a n => some (.s, encSI 0x26 0 a (2 ^ 13 + n.toNat))
  | .tref n a b => some (.s, encSR 0x27 (kreg n) a b 0)
  | .trefq d => some (.s, encSR 0x27 d 0 0 1)
  | .aadd o d a b s => some (.s, encSA (0x28 + o.toNat) d a b 0 s.toNat)
  | .aand o d a b s => some (.s, encSA (0x28 + o.toNat) d a b 1 s.toNat)
  | .aor o d a b s => some (.s, encSA (0x28 + o.toNat) d a b 2 s.toNat)
  | .axor o d a b s => some (.s, encSA (0x28 + o.toNat) d a b 3 s.toNat)
  | .amin o d a b s => some (.s, encSA (0x28 + o.toNat) d a b 4 s.toNat)
  | .amax o d a b s => some (.s, encSA (0x28 + o.toNat) d a b 5 s.toNat)
  | .aminu o d a b s => some (.s, encSA (0x28 + o.toNat) d a b 6 s.toNat)
  | .amaxu o d a b s => some (.s, encSA (0x28 + o.toNat) d a b 7 s.toNat)
  | .aswap o d a b s => some (.s, encSA (0x28 + o.toNat) d a b 8 s.toNat)
  | .acas o d a b s => some (.s, encSA (0x28 + o.toNat) d a b 9 s.toNat)
  | .aload o d a s => some (.s, encSA (0x28 + o.toNat) d a 0 10 s.toNat)
  | .astore o a b s => some (.s, encSA (0x28 + o.toNat) 0 a b 11 s.toNat)
  | .eret => some (.s, encSW 0x3F 0 0)
  | .tlbi s n => some (.s, encSW 0x3F 1 (s.toNat * 2 ^ 6 + n.toNat))
  | .halt => some (.s, encSW 0x3F 2 0)
  | .waitint => some (.s, encSW 0x3F 3 0)
  | .vadd w => some (.v, encV 0x01 w)
  | .vsub w => some (.v, encV 0x02 w)
  | .vmul w => some (.v, encV 0x03 w)
  | .vfma w => some (.v, encV 0x04 w)
  | .vmin w => some (.v, encV 0x05 w)
  | .vmax w => some (.v, encV 0x06 w)
  | .vmulh w => some (.v, encV 0x07 w)
  | .vabsd w => some (.v, encV 0x08 w)
  | .vdot4 w => some (.v, encV 0x09 w)
  | .vdot2 w => some (.v, encV 0x0A w)
  | .vadds w => some (.v, encV 0x11 w)
  | .vsubs w => some (.v, encV 0x12 w)
  | .vmuls w => some (.v, encV 0x13 w)
  | .vfmas w => some (.v, encV 0x14 w)
  | .vmins w => some (.v, encV 0x15 w)
  | .vmaxs w => some (.v, encV 0x16 w)
  | .vrcpe w => some (.v, encV 0x20 w)
  | .vrsqe w => some (.v, encV 0x21 w)
  | .vrcp w => some (.v, encV 0x22 w)
  | .vrsq w => some (.v, encV 0x23 w)
  | .vsqrt w => some (.v, encV 0x24 w)
  | .vexp2 w => some (.v, encV 0x25 w)
  | .vlog2 w => some (.v, encV 0x26 w)
  | .vexp w => some (.v, encV 0x27 w)
  | .vlog w => some (.v, encV 0x28 w)
  | .vsinp w => some (.v, encV 0x29 w)
  | .vcosp w => some (.v, encV 0x2A w)
  | .vtanh w => some (.v, encV 0x2B w)
  | .verf w => some (.v, encV 0x2C w)
  | .vdiv w => some (.v, encV 0x2D w)
  | .vcmp w => some (.v, encV 0x30 w)
  | .vclass w => some (.v, encV 0x31 w)
  | .vsel w => some (.v, encV 0x38 w)
  | .vand w => some (.v, encV 0x39 w)
  | .vor w => some (.v, encV 0x3A w)
  | .vxor w => some (.v, encV 0x3B w)
  | .vnot w => some (.v, encV 0x3C w)
  | .vshl w => some (.v, encV 0x3D w)
  | .vshr w => some (.v, encV 0x3E w)
  | .vsra w => some (.v, encV 0x3F w)
  | .vcvt w => some (.v, encV 0x40 w)
  | .vpack w => some (.v, encV 0x41 w)
  | .vunpk w => some (.v, encV 0x42 w)
  | .vquant w => some (.v, encV 0x48 w)
  | .vdeq w => some (.v, encV 0x49 w)
  | .vbmax w => some (.v, encV 0x4A w)
  | .vrsum w => some (.v, encV 0x50 w)
  | .vrmax w => some (.v, encV 0x51 w)
  | .vrmin w => some (.v, encV 0x52 w)
  | .vrssq w => some (.v, encV 0x53 w)
  | .vscan w => some (.v, encV 0x54 w)
  | .vpart w => some (.v, encV 0x58 w)
  | .viota w => some (.v, encV 0x59 w)
  | .vperm w => some (.v, encV 0x5A w)
  | .vgath w => some (.v, encV 0x5B w)
  | .vscat w => some (.v, encV 0x5C w)
  | .vmov w => some (.v, encV 0x5D w)
  | .vsplat w => some (.v, encV 0x5E w)
  | .vbcst w => some (.v, encV 0x5F w)
  | .vextr w => some (.v, encV 0x60 w)
  | .vins w => some (.v, encV 0x61 w)
  | .vsetl w => some (.v, encV 0x70 w)
  | .vcadd w => some (.v, encV 0x73 w)
  | .loopV w => some (.v, encL 0x71 w)
  | .vnop => some (.v, 0x7E * 2 ^ 56)
  | .vend => some (.v, 0x7F * 2 ^ 56)
  | .dmma w => some (.d, encM w)
  | .dclaim w => some (.d, encD 0x01 w)
  | .drel w => some (.d, encD 0x02 w)
  | .dzero w => some (.d, encD 0x04 w)
  | .dfill w => some (.d, encD 0x05 w)
  | .dread w => some (.d, encD 0x06 w)
  | .dcvt w => some (.d, encD 0x07 w)
  | .dlds w => some (.d, encD 0x08 w)
  | .dldt w => some (.d, encD 0x09 w)
  | .dscl w => some (.d, encD 0x0A w)
  | .ddec w => some (.d, encD 0x0B w)
  | .dtbl w => some (.d, encD 0x0C w)
  | .dseek w => some (.d, encD 0x0D w)
  | .dstat w => some (.d, encD 0x0E w)
  | .dcadd w => some (.d, encD 0x10 w)
  | .loopD w => some (.d, encL 0x11 w * 2 ^ 64)
  | .dnop => some (.d, 0x7E * 2 ^ 120)
  | .dend => some (.d, 0x7F * 2 ^ 120)
  | .tld w => some (.t, encT 0x01 w)
  | .tst w => some (.t, encT 0x02 w)
  | .tlds w => some (.t, encT 0x03 w)
  | .tgath w => some (.t, encT 0x04 w)
  | .tscat w => some (.t, encT 0x05 w)
  | .tshift w => some (.t, encT 0x06 w)
  | .txsend w => some (.t, encT 0x07 w)
  | .txrecv w => some (.t, encT 0x08 w)
  | .tspst w => some (.t, encT 0x09 w)
  | .tspld w => some (.t, encT 0x0A w)
  | .tbarr w => some (.t, encT 0x0B w)
  | .tatom w => some (.t, encT 0x0C w)
  | .teadd w => some (.t, encT 0x0D w)
  | .temov w => some (.t, encT 0x0E w)
  | .txch w => some (.t, encT 0x0F w)
  | .loopT w => some (.t, encL 0x11 w)
  | .tnop => some (.t, 0x7E * 2 ^ 56)
  | .tend => some (.t, 0x7F * 2 ^ 56)
  | _ => none

/-- The bytes of an instruction as they stand in a code section (R131). -/
def encodeBytes (i : Instr) : Option (List Byte) :=
  (encode i).map fun (st, w) => leBytes (st.width / 8) w

end Encode

/-- The instruction this decoder reads from the table's word `w` of `nbits` bits: the word is laid out as memory holds
it and given to the decoder. 32 bits are an S word, 128 bits a D word; the table gives the engine rows no bits, and 64
bits are read as a V word. -/
def decodeTableWord (nbits w : Nat) : Option Instr :=
  let st : Stream := if nbits ≤ 32 then .s else if nbits ≤ 64 then .v else .d
  match decodeBytes st (leBytes (st.width / 8) (w % 2 ^ nbits)) with
  | .ok (i, _) => some i
  | .error _ => none

end Sys2Proof
end

