-- ==== Sys2Proof/Machine/Engine.lean ====
section
/-!
DEFINITION. What the V, D and T engines share: queues, dispatch and timed starts (01 R16-R21, R28, R29), the issue of a
word with its guard, takes and fills (R18, R22, R24), results in flight (R25, R26), stalls and SCHED_MISS (R27, R29), block
faults (16 R398-R400), hardware loops (05 R148-R151), retirement (R20, R21).
-/

namespace Sys2Proof.Machine

/-! The engine of a harness by name -/

def Harness.eng (h : Harness) : Eng → EngSt
  | .v => h.ve
  | .d => h.de
  | .t => h.te

def Harness.setEng (h : Harness) (e : Eng) (x : EngSt) : Harness :=
  match e with
  | .v => { h with ve := x }
  | .d => { h with de := x }
  | .t => { h with te := x }

def Harness.modEng (h : Harness) (e : Eng) (f : EngSt → EngSt) : Harness := h.setEng e (f (h.eng e))

/-- The engine of the current harness. -/
def State.eng (s : State) (e : Eng) : EngSt := (s.har s.cur).eng e

def State.modEng (s : State) (e : Eng) (f : EngSt → EngSt) : State := s.modHar s.cur fun h => h.modEng e f

/-- The code of an engine (16 R398). -/
def engCode : Eng → Nat
  | .v => 0
  | .d => 1
  | .t => 2

def engOf (n : Nat) : Option Eng := if n = 0 then some .v else if n = 1 then some .d else if n = 2 then some .t else none

/-- Bytes of an engine word (05 R131). -/
def wordSize : Eng → Nat
  | .v => 8
  | .d => 16
  | .t => 8

/-- The section base of an engine (01 R30). -/
def secBase (e : Eng) (l : Packet) : Word :=
  match e with
  | .v => l.w1
  | .d => l.w2
  | .t => l.w3

/-! Registers of V and D (c) and T (e) -/

/-- c(n) of V or D; e(n), zero-extended, of T. -/
def Harness.scalar (h : Harness) (e : Eng) (n : Nat) : Word :=
  match e with
  | .v => h.vc.getD n 0
  | .d => h.dc.getD n 0
  | .t => (h.e.getD n 0).setWidth 64

/-! Full/empty bits (R22) -/

/-- A register that carries a full/empty bit. -/
inductive FeReg where
  | v (n : Nat)
  | s (n : Nat)
  | a (n : Nat)
deriving DecidableEq, Repr

def Harness.full (h : Harness) : FeReg → Bool
  | .v n => h.feV.getLsbD n
  | .s n => h.feS.getLsbD n
  | .a n => h.feA.getLsbD n

/-- A bit of a vector. -/
def setBit {w : Nat} (x : BitVec w) (n : Nat) (b : Bool) : BitVec w :=
  if b then x ||| (1#w <<< n) else x &&& ~~~(1#w <<< n)

def Harness.setFull (h : Harness) (r : FeReg) (b : Bool) : Harness :=
  match r with
  | .v n => { h with feV := setBit h.feV n b }
  | .s n => { h with feS := setBit h.feS n b }
  | .a n => { h with feA := setBit h.feA n b }

/-- The effect that sets a bit full. -/
def fillEff : FeReg → Eff
  | .v n => .fillV n
  | .s n => .fillS n
  | .a n => .fillA n

/-- The test of R22: takes full, then fills empty once the takes are applied. -/
def Harness.feReady (h : Harness) (takes fills : List FeReg) : Bool :=
  takes.all h.full && fills.all fun r => !h.full r || takes.contains r

/-! Results (R25) -/

/-- The elements of an accumulator of a cell, as 32-bit codes. -/
def Harness.accCodes (h : Harness) (cell acc : Nat) : List Nat :=
  (List.range 1024).map fun i => leNat (((h.aget cell acc).drop (4 * i)).take 4)

/-- One element of a DMMA's result (03 R88): one rounding. -/
def macElem (old : Num.Val) (t : Num.Val) : Nat × Num.Flags :=
  let (v, f) := Num.add .rne old t
  let (r, g) := Num.round Num.fp32 .rne 0 v
  (Num.toCode Num.fp32 r, f ||| g)

/-- One element of an INT8 DMMA (03 R90): wrapped, with IS where that changes it. -/
def maciElem (old t : Int) : Nat × Num.Flags :=
  let v := old + t
  let c := (v % ((2 ^ 32 : Nat) : Int)).toNat
  (c, if sextNat 32 c = v then 0 else Num.fIS)

/-- An accumulator takes a DMMA's result. -/
def Harness.putAcc (h : Harness) (cell acc : Nat) (rs : List (Nat × Num.Flags)) : Harness :=
  { h with a := h.a.put (8 * cell + acc) 4096 0 (rs.flatMap fun r => leBytes 4 r.1)
           sp := { h.sp with dflag := h.sp.dflag ||| rs.foldl (fun f r => f ||| r.2) 0 } }

/-- One part of a result becomes visible. -/
def Harness.apply (h : Harness) : Eff → Harness
  | .v cell reg off bytes => { h with v := h.v.put (64 * cell + reg) 2048 off bytes }
  | .vlo cell reg off nib =>
    let old := ((h.vget cell reg).getD off 0).toNat
    { h with v := h.v.put (64 * cell + reg) 2048 off [BitVec.ofNat 8 (old / 16 * 16 + nib % 16)] }
  | .s cell slot off bytes => { h with s := h.s.put (32 * cell + slot) 2048 off bytes }
  | .a cell acc off bytes => { h with a := h.a.put (8 * cell + acc) 4096 off bytes }
  | .mac cell acc zf ts =>
    h.putAcc cell acc (List.zipWith (fun c t => macElem (if zf then .zero false else Num.ofCode Num.fp32 c) t)
      (h.accCodes cell acc) ts)
  | .maci cell acc zf ts =>
    h.putAcc cell acc (List.zipWith (fun c t => maciElem (if zf then 0 else sextNat 32 c) t) (h.accCodes cell acc) ts)
  | .smem cell off bytes => { h with smem := h.smem.put cell 2048 off bytes }
  | .vc i w => { h with vc := h.vc.set i.toNat w i.isLt }
  | .dc i w => { h with dc := h.dc.set i.toNat w i.isLt }
  | .te i w => { h with e := h.e.set i.toNat w i.isLt }
  | .vl n => { h with vl := n }
  | .g i w => { h with seq := h.seq.wg i w }
  | .vflag f => { h with sp := { h.sp with vflag := h.sp.vflag ||| f } }
  | .dflag f => { h with sp := { h.sp with dflag := h.sp.dflag ||| f } }
  | .fillV r => h.setFull (.v r) true
  | .fillS r => h.setFull (.s r) true
  | .fillA r => h.setFull (.a r) true
  | .outV _ => h
  | .outS _ => h
  | .claim m => { h with claim := h.claim ||| m, feS := h.feS &&& ~~~m }
  | .release m => { h with claim := h.claim &&& ~~~m, feS := h.feS &&& ~~~m }
  | .dpos p w => { h with dpos := h.dpos.setIfInBounds p w }
  | .dtab slot valid bytes =>
    { h with dtab := h.dtab.set slot bytes, tvalid := setBit h.tvalid slot valid }

def Harness.applyAll (h : Harness) (es : List Eff) : Harness := es.foldl Harness.apply h

/-- The register or slot that a part of a result writes, for the order of R449. -/
def Eff.target : Eff → Option FeReg
  | .v _ r _ _ => some (.v r)
  | .vlo _ r _ _ => some (.v r)
  | .s _ r _ _ => some (.s r)
  | .a _ r _ _ => some (.a r)
  | .mac _ r _ _ => some (.a r)
  | .maci _ r _ _ => some (.a r)
  | _ => none

/-- A fixed-latency result whose cycle has come. -/
def Pend.dueBy (p : Pend) (cyc : Nat) : Bool :=
  match p.due with
  | .cycle n => decide (n ≤ cyc)
  | .free _ => false

def Pend.isFree (p : Pend) : Bool :=
  match p.due with
  | .cycle _ => false
  | .free _ => true

/-- Two results write one register or slot, decoder position or table slot. -/
def Pend.meets (p q : Pend) : Bool :=
  (p.effs.any fun x => x.target.isSome && q.effs.any fun y => y.target == x.target) ||
  (p.due == q.due && p.due == .free .seek && p.pos == q.pos) ||
  (p.due == q.due && p.due == .free .table && p.tslot == q.tslot)

/-- The results that become visible when those for which `f` holds do: they, and every earlier-issued result without
fixed latency that writes the same register as one of them (R449). -/
def withEarlier (f : Pend → Bool) : List Pend → List Pend × List Pend
  | [] => ([], [])
  | p :: t =>
    let (now, rest) := withEarlier f t
    if f p || (p.isFree && now.any p.meets) then (p :: now, rest) else (now, p :: rest)

/-- The trace that an early fill leaves until its own engine cycle. -/
def Eff.trace : Eff → Option Eff
  | .fillV r => some (.outV r)
  | .fillS r => some (.outS r)
  | _ => none

/-- What of a result other engines see early: its registers and their bits. -/
def Eff.early (x : Eff) : Bool := x.target.isSome || x.trace.isSome

/-- What stays of a result that is seen before its engine cycle `cyc` is reached: the rest of it, and the trace of its
fills. -/
def Pend.residue (cyc : Nat) (p : Pend) : Option Pend :=
  if p.isFree || p.dueBy cyc then none
  else some { p with effs := p.effs.filterMap fun x => if x.early then x.trace else some x }

/-- What of a result becomes visible: all of it when it is due, else what other engines see. -/
def Pend.shown (cyc : Nat) (p : Pend) : List Eff := if p.isFree || p.dueBy cyc then p.effs else p.effs.filter Eff.early

/-- A fill has come near enough for other engines: its engine stood still in full/empty waits, and no result with fixed
latency that writes its register before it is still to come. -/
def EngSt.outBy (x : EngSt) (p : Pend) : Bool :=
  match p.due with
  | .free _ => false
  | .cycle n => decide (0 < p.lag ∧ n ≤ x.cyc + p.lag) && p.effs.any (fun y => y.trace.isSome) &&
      x.pend.all fun q => q == p || !q.meets p || (match q.due with
        | .cycle m => decide (n < m)
        | .free _ => true)

/-- The results in flight of an engine for which `ok` holds and that are due, or near enough for other engines, become
visible (01 R25, R26; log entry 15, DEDUCED): what becomes visible, and what stays in flight. -/
def EngSt.landing (x : EngSt) (ok : Pend → Bool) : List Eff × List Pend :=
  let (now, rest) := withEarlier (fun p => (p.dueBy x.cyc || x.outBy p) && ok p) x.pend
  (now.flatMap (Pend.shown x.cyc), now.filterMap (Pend.residue x.cyc) ++ rest)

/-- The results of engine e of a harness that are due become visible. -/
def Harness.land (h : Harness) (e : Eng) : Harness :=
  let x := h.eng e
  let (now, rest) := x.landing fun _ => true
  if now.isEmpty then h.setEng e { x with pend := rest } else (h.setEng e { x with pend := rest }).applyAll now

/-- A plain write of the T engine into a slot: a DMMA of the same cycle still reads the slot before it (08 R278). -/
def Pend.plainSlot (p : Pend) : Bool :=
  p.effs.any (fun x => match x with | .s _ _ _ _ => true | _ => false) &&
    p.effs.all fun x => match x with | .fillS _ => false | _ => true

/-- The results of the T engine that become visible in its own turn: plain slot writes wait for the D engine's turn to
end, unless the D engine writes the same slot in this cycle, whose write then prevails (R24). -/
def Harness.landT (h : Harness) (late : Bool) : Harness :=
  let x := h.te
  let dWrites (p : Pend) : Bool := h.de.pend.any fun q => q.dueBy h.de.cyc && q.meets p
  let (now, rest) := x.landing fun p => late || !p.plainSlot || dWrites p
  { h with te := { x with pend := rest } }.applyAll now

/-! Block faults (16 R398-R400, R406) -/

/-- The record of a fault of engine e at word `epc` of the block of command `c`. -/
def State.bfault (s : State) (e : Eng) (c : Cmd) (sq : BitVec 32) (epc : Nat) (f : Fail) : BFault :=
  let h := s.har s.cur
  let x := h.eng e
  let lc (i : Nat) : Nat := (x.lc.getD i 0).toNat
  { cls := 1, code := f.code, eng := engCode e, age := c.age, sq := sq, boff := c.off, epc := epc,
    lc01 := BitVec.ofNat 64 (lc 1 * 2 ^ 32 + lc 0), lc23 := BitVec.ofNat 64 (lc 3 * 2 ^ 32 + lc 2),
    status := BitVec.ofNat 64 (f.hi * 2 ^ 16 + f.code), addr := f.addr, kind := f.kind, level := f.level, acc := f.acc,
    fmcc := s.mcc, fframe := h.sp.frame, plvl := h.level }

/-- A block fault freezes the harness; of two, the older command is recorded (R406). -/
def Ctl.addFault (c : Ctl) (b : BFault) : Ctl :=
  { c with frozen := true
           bf := match c.bf with
             | some o => if o.cls = 1 ∧ b.age < o.age then some b else some o
             | none => some b }

/-- The sequence number that the block in issue takes on retiring (R21). -/
def EngSt.seqNo (x : EngSt) : BitVec 32 := x.ctr + BitVec.ofNat 32 (x.ended.length + 1)

/-- A block fault of block b of engine e is raised, its consumption counted; one that raises no record is counted once (17
R424). `g` is what the engine itself does. -/
def State.raiseFault (s : State) (e : Eng) (b : Block) (bf : BFault) (f : Fail) (g : EngSt → EngSt) : State :=
  if s.mutes s.cur f then
    (if b.muted then s else s.tally s.cur f).modEng e fun x => { g x with blk := some { b with muted := true } }
  else ((s.tally s.cur f).modCtl s.cur fun c => c.addFault bf).modEng e g

/-- A block fault at the word in issue: it stays unissued, with none of its effects. -/
def State.blockFault (s : State) (e : Eng) (f : Fail) : State :=
  let x := s.eng e
  match x.blk with
  | none => s
  | some b =>
    s.raiseFault e b (s.bfault e b.cmd x.seqNo b.pc f) f fun x => { x with stalled := true, rows := [] }

def State.blockFaultC (s : State) (e : Eng) (code : Nat) : State := s.blockFault e { code := code }

/-- The status word's upper bits of SCHED_MISS (R399): LATE and CAUSE. -/
def missHi (late cause : Nat) : Nat := min late (2 ^ 28 - 1) * 2 ^ 4 + cause

/-! Stalls (R26, R27, R29) -/

/-- A result fills a register that another engine may take: a v register, or a slot that the T engine fills. -/
def Pend.offers (e : Eng) (p : Pend) : Bool :=
  p.effs.any fun x => match x with
    | .fillV _ => true
    | .fillS _ => e == .t
    | _ => false

/-- While its engine waits for a full/empty bit, a fill that another engine may take comes one cycle nearer to that other
engine; its own engine's cycles stand still. -/
def Pend.nearer (e : Eng) (p : Pend) : Pend := if p.offers e then { p with lag := p.lag + 1 } else p

/-- The effect that stands for a fill which its own engine has not reached yet. -/
def traceEff : FeReg → Option Eff
  | .v n => some (.outV n)
  | .s n => some (.outS n)
  | .a _ => none

/-- Other engines have had the engine's fill of r, its own engine cycle is still to come. -/
def EngSt.out (x : EngSt) (r : FeReg) : Bool := x.pend.any fun p => (traceEff r).any p.effs.contains

/-- A result of the engine itself, with a fixed latency, fills one of these registers. -/
def EngSt.ownFill (x : EngSt) (awaited : List FeReg) : Bool :=
  awaited.any fun r => x.out r || x.pend.any fun p => !p.isFree && p.effs.contains (fillEff r)

/-- The word in issue stalls: inside a timed block SCHED_MISS, else the pipeline stops (R26). A full/empty wait for a
fill of the engine itself lets the pipeline go on to it, in its engine cycle; in every other one only fills that another
engine may take come nearer to that other engine (log entry 15, DEDUCED). -/
def State.engStall (s : State) (e : Eng) (cause : Nat) (awaited : List FeReg := []) : State :=
  let x := s.eng e
  match x.blk with
  | none => s
  | some b =>
    if b.cmd.timed then s.blockFault e { code := cSCHED_MISS, hi := missHi (x.cyc - b.start) cause }
    else if cause = 3 then
      if x.ownFill awaited then s else s.modEng e fun x => { x with stalled := true, pend := x.pend.map (Pend.nearer e) }
    else s.modEng e fun x => { x with stalled := true }

/-! Hardware loops (05 R149-R151) -/

/-- The e register of a loop steps: on top of a write that becomes visible with it (08 R278). -/
def Harness.stepE (h : Harness) (i : Nat) (d : BitVec 48) : Harness :=
  let add (x : Eff) : Eff := match x with
    | .te j w => if j.toNat = i then .te j (w + d) else x
    | x => x
  let hit := h.te.pend.any fun p => p.effs.any fun x => match x with
    | .te j _ => j.toNat == i
    | _ => false
  if hit then { h with te := { h.te with pend := h.te.pend.map fun p => { p with effs := p.effs.map add } } }
  else { h with e := h.e.setIfInBounds i (h.e.getD i 0 + d) }

/-- The walk of R150 over the active loops, innermost first, past those that end at another word: the harness, the loops left,
where the next word stands. -/
def loopWalk (e : Eng) (pc : Nat) : List Loop → Harness → Harness × List Loop × Nat
  | [], h => (h, [], pc + 1)
  | l :: ls, h =>
    if l.last ≠ pc then
      let (h, ls, nx) := loopWalk e pc ls h
      (h, l :: ls, nx)
    else
      let n := (h.eng e).lc.getD l.lv 0 - 1
      let h := if l.stride = 0 then h else h.stepE l.se l.stride
      if n ≠ 0 then (h.modEng e fun x => { x with lc := x.lc.setIfInBounds l.lv n }, l :: ls, l.first)
      else loopWalk e pc ls (h.modEng e fun x => { x with lc := x.lc.setIfInBounds l.lv (BitVec.ofNat 32 l.n) })

/-- The word at the block's pc has issued and occupies `occ` cycles. -/
def State.finishWord (s : State) (e : Eng) (occ : Nat) : State :=
  s.modHar s.cur fun h =>
    match (h.eng e).blk with
    | none => h
    | some b =>
      let (h, ls, nx) := loopWalk e b.pc b.loops h
      h.modEng e fun x =>
        { x with blk := some { b with pc := nx, loops := ls }, busy := x.cyc + occ, skip := false, rows := [] }

/-! The issue of a word -/

/-- The guard of a block (R18, 05 R139). -/
def Block.guard (b : Block) (gk : BitVec 3) (gn : Bool) : Bool := xor (b.cmd.k.getLsbD gk.toNat) gn

/-- What an engine word needs to issue: the code of the first failing check of its word (R140, R206, R212), takes, fills,
occupancy, and whether the word waits for the dot array, which is occupancy too (08 R246). -/
structure Front where
  e : Eng
  gk : BitVec 3
  gn : Bool
  bad : Option Nat
  takes : List FeReg := []
  fills : List FeReg := []
  occ : Nat := 1
  hold : Bool := false
deriving DecidableEq, Repr

/-- What comes of a word whose guard and full/empty tests have passed: a block fault (with what the
failing access did to memory, 17 R407), a stall of R27 (with what the word's banks have done before it), or the state
with what happens at once, and the result in flight. -/
inductive Issue where
  | fault (f : Fail)
  | faultAt (s : State) (f : Fail)
  | wait
  | waitAt (s : State)
  | go (s : State) (due : Due) (effs : List Eff)
  | goP (s : State) (p : Pend)

/-- A result enters the pipeline; one with nothing to show does not. -/
def State.pend (s : State) (e : Eng) (p : Pend) : State :=
  if p.effs.isEmpty then s else s.modEng e fun x => { x with pend := x.pend ++ [p] }

/-- A word issues: its takes empty their registers and its result, fills included, enters the pipeline. -/
def State.issued (s : State) (f : Front) (b : Block) (p : Pend) : State :=
  let s := s.modHar s.cur fun h => f.takes.foldl (fun h r => h.setFull r false) h
  (s.pend f.e { p with age := b.cmd.age, epc := b.pc, effs := p.effs ++ f.fills.map fillEff }).finishWord f.e f.occ

/-- The issue of a word of the current harness (DEDUCED, log entry 17). -/
def State.issue (s : State) (f : Front) (run : State → Issue) : State :=
  let x := s.eng f.e
  match x.blk with
  | none => s
  | some b =>
    let off := x.skip || (f.bad.isNone && !b.guard f.gk f.gn)
    match (if x.skip then none else f.bad) with
    | some c => s.blockFaultC f.e c
    | none =>
      if f.hold then s
      else if off then s.finishWord f.e f.occ
      else
        if !(s.har s.cur).feReady f.takes f.fills || f.takes.any x.out then
          s.engStall f.e 3 (f.takes.filter fun r => !(s.har s.cur).full r || x.out r)
        else match run s with
          | .fault x => s.blockFault f.e x
          | .wait => s.engStall f.e 4
          | .waitAt s => s.engStall f.e 4
          | .faultAt s x => s.blockFault f.e x
          | .go s due effs => s.issued f b { age := b.cmd.age, due := due, effs := effs }
          | .goP s p => s.issued f b p

/-- A result `lat` engine cycles after issue. -/
def State.at (s : State) (e : Eng) (lat : Nat) (effs : List Eff) : Issue := .go s (.cycle ((s.eng e).cyc + lat)) effs

/-- The ordinal J of an issue that rounds by SR, which counts (03 R78). -/
def State.nextJ (s : State) (e : Eng) (sr : Bool) : State × Nat :=
  match (s.eng e).blk with
  | none => (s, 0)
  | some b =>
    (if sr then s.modEng e fun x => { x with blk := some { b with j := b.j + 1 } } else s, b.j)

/-- The seed that the block's EXEC captured (03 R79). -/
def EngSt.seed (x : EngSt) : Nat := ((x.blk.map fun (b : Block) => b.cmd.seed).getD (0 : Word)).toNat

/-- A word that only occupies its cycle (R239, R259, R277). -/
def State.nop (s : State) (e : Eng) : State := s.finishWord e 1

/-- An end word (R20): LOOP_NEST while a loop is active, unless it is skipped, which abandons the loops (R401). -/
def State.endBlock (s : State) (e : Eng) : State :=
  let x := s.eng e
  match x.blk with
  | none => s
  | some b =>
    if !b.loops.isEmpty && !x.skip then s.blockFaultC e cLOOP_NEST
    else s.modEng e fun x => { x with blk := none, ended := x.ended ++ [b.cmd], busy := x.cyc + 1, skip := false }

/-- The fields of a loop word that must be zero (R140, R148): SE of a T LOOP is unused where STRIDE = 0 (DESIGN CHOICE, log
entry 64). -/
def loopBad (w : LWord) (e : Eng) : Bool :=
  (if w.csrc then w.cimm != 0 else w.creg != 0) ||
  (if e = .t then w.stride == 0 && w.se != 0 else w.se != 0 || w.stride != 0)

/-- A LOOP (R149, R151): its guard has no effect. A skipped one that raised LOOP_NEST only lets the word after it issue; any
other skipped one counts as a guarded-off word does (16 R401). -/
def State.loop (s : State) (e : Eng) (w : LWord) : State :=
  let h := s.har s.cur
  let x := s.eng e
  match x.blk with
  | none => s
  | some b =>
    let goTo (pc : Nat) (loops : List Loop) (lc : Option (BitVec 32)) : State :=
      s.modEng e fun x =>
        { x with blk := some { b with pc := pc, loops := loops }, busy := x.cyc + 1, skip := false
                 lc := match lc with
                   | some n => x.lc.setIfInBounds w.lv.toNat n
                   | none => x.lc }
    let cnt := if w.csrc then (h.scalar e w.creg.toNat).toNat else w.cimm.toNat
    let last := b.pc + 1 + w.lenm.toNat
    let nest := b.loops.any (fun l => l.lv == w.lv.toNat) || b.loops.any (fun l => decide (l.last < last)) ||
        (w.csrc && decide (cnt ≥ 2 ^ 32))
    if x.skip then (if !loopBad w e && nest then goTo (b.pc + 1) b.loops none else s.finishWord e 1)
    else if loopBad w e then s.blockFaultC e cILLEGAL_INSTR
    else if nest then s.blockFaultC e cLOOP_NEST
    else
      let n := BitVec.ofNat 32 cnt
      if n = 0 then goTo (last + 1) b.loops (some 0)
      else
        let l : Loop := { lv := w.lv.toNat, n := cnt, first := b.pc + 1, last := last, se := w.se.toNat,
                          stride := w.stride.signExtend 48 }
        goTo (b.pc + 1) (l :: b.loops) (some n)

def execLoopV (w : LWord) (s : State) : Out := .next (s.loop .v w)
def execLoopD (w : LWord) (s : State) : Out := .next (s.loop .d w)
def execLoopT (w : LWord) (s : State) : Out := .next (s.loop .t w)
def execVnop (s : State) : Out := .next (s.nop .v)
def execDnop (s : State) : Out := .next (s.nop .d)
def execTnop (s : State) : Out := .next (s.nop .t)
def execVend (s : State) : Out := .next (s.endBlock .v)
def execDend (s : State) : Out := .next (s.endBlock .d)
def execTend (s : State) : Out := .next (s.endBlock .t)

/-- R140: a word that no encoding is assigned to. -/
def execUnassignedEngineOpcode (e : Eng) (_w : BitVec 128) (s : State) : Out :=
  .next (s.issue { e := e, gk := 0, gn := false, bad := some cILLEGAL_INSTR } fun _ => .wait)

/-! Fetch of an engine word (01 R14, R15; 06 R188; 16 R395) -/

/-- The address of a word of an engine's section. -/
def wordPtr (e : Eng) (l : Packet) (pc : Nat) : Word := secBase e l + BitVec.ofNat 64 (wordSize e * pc)

/-- The number of n code bytes at a pointer, byte by byte; SUP refuses engines, and the sequencer at U (16 R391)
(DEDUCED, log entry 9). -/
def State.fetchN (s : State) (r : Nat) (p : Word) (n : Nat) (sup : Bool) : Except Fail Nat :=
  match s.spaceCheck r .fetch p accFetch with
  | .error f => .error f
  | .ok _ =>
    let key (i : Nat) : Except Fail Nat :=
      match s.xlate r ((offset p + i) % 2 ^ 48) { x := true, sup := sup } accFetch with
      | .ok k => .ok k
      | .error f => .error { f with addr := p }
    match (List.range n).mapM key with
    | .error f => .error f
    | .ok ks =>
      match ks.findSome? fun k => (s.consumes k).map fun c => (k, c) with
      | some (k, c) => .error { code := c, addr := p, acc := accFetch, gran := some k }
      | none => .ok (leNat (ks.map (memGet s.mem)))

/-- The word of engine e of the current harness at an offset of its section. -/
def State.fetchAt (s : State) (e : Eng) (pc : Nat) : Except Fail Nat :=
  match (s.har s.cur).ctl.node with
  | some n => s.fetchN s.cur (wordPtr e n.launch pc) (wordSize e) true
  | none => .ok 0

/-- The granules that the fetch of n code bytes reads are checked (17 R407). -/
def State.fetchScrub (s : State) (r : Nat) (p : Word) (n : Nat) : State := s.devScrub (s.partOf r) (offset p) n

/-- What a block holds at its pc: a word as fetched, nothing where a skip passes over it, none behind the fetched words. -/
def Block.word (b : Block) : Option (Option Nat) := b.code[b.pc - b.cmd.off]?

/-- The word in issue of engine e of the current harness: as the block's fetch read it (R188); one behind the block's end is
fetched now. None where a skip passes over it. -/
def State.fetchEng (s : State) (e : Eng) : Except Fail (Option Nat) :=
  match (s.har s.cur).eng e |>.blk with
  | none => .ok none
  | some b => match b.word with
    | some w => .ok w
    | none => (s.fetchAt e b.pc).map some

/-- A fetch that fails is a block fault at the word; a skipped one does nothing in one cycle. -/
def State.fetchFault (s : State) (e : Eng) (f : Fail) : State :=
  if (s.eng e).skip then s.finishWord e 1 else s.blockFault e f

/-- The fetch of a block at its dispatch (R188): its words from `pc` on, up to its end word, those that an ERET skips passed
over; or the first whose fetch fails. `ends` tells an end word. -/
def State.blockCode (s : State) (e : Eng) (ends : Nat → Bool) (holes : List Nat) :
    Nat → Nat → Except (Nat × Fail) (List (Option Nat))
  | 0, _ => .ok []
  | fuel + 1, pc =>
    let rest := fun (w : Option Nat) => (State.blockCode s e ends holes fuel (pc + 1)).map (w :: ·)
    if holes.contains pc then rest none
    else match s.fetchAt e pc with
      | .error f => .error (pc, f)
      | .ok w => if ends w then .ok [some w] else rest (some w)

/-- The granules of n words of the block in issue from its first are checked as they are read (17 R407). -/
def State.codeScrub (s : State) (e : Eng) (b : Block) (n : Nat) : State :=
  match (s.har s.cur).ctl.node with
  | some x => s.fetchScrub s.cur (wordPtr e x.launch b.pc) (wordSize e * n)
  | none => s

/-- The block in issue is fetched, or faults before any of its words issues (DESIGN CHOICE, log entry 55). -/
def State.fetchBlock (s : State) (e : Eng) (ends : Nat → Bool) : State :=
  match (s.eng e).blk with
  | none => s
  | some b =>
    match s.blockCode e ends b.holes (2 ^ 20) b.pc with
    | .ok ws => (s.codeScrub e b ws.length).modEng e fun x => { x with blk := some { b with fetched := true, code := ws } }
    | .error (pc, f) =>
      (s.codeScrub e b (pc - b.pc)).raiseFault e b (s.bfault e b.cmd (s.eng e).seqNo pc f) f fun x => { x with stalled := true }

/-! The command queue (R16, R17, R29) -/

/-- The engine may begin a block: none in issue and its occupancy over. -/
def EngSt.canStart (x : EngSt) : Bool := x.blk.isNone && decide (x.busy ≤ x.cyc)

/-- Every access that a separation ordered before the command's EXEC has been performed (04 R117). -/
def Seq.cleared (q : Seq) (c : Cmd) : Bool :=
  q.loadQ.all (fun l => !decide (l.epoch < c.sep)) && q.back.all (fun l => !decide (l.epoch < c.sep)) &&
    q.storeQ.all fun t => !decide (t.epoch < c.sep)

/-- Engine e of the harness may begin the command. -/
def Harness.mayStart (h : Harness) (e : Eng) (c : Cmd) : Bool := (h.eng e).canStart && h.seq.cleared c

/-- Arguments go to c0-c3, or to e0-e3 with bits 47:0 (R17). -/
def Harness.putArgs (h : Harness) (e : Eng) (c : Cmd) : Harness :=
  match e with
  | .v => { h with vc := ((((h.vc.set 0 c.a0).set 1 c.a1).set 2 c.a2).set 3 c.a3) }
  | .d => { h with dc := ((((h.dc.set 0 c.a0).set 1 c.a1).set 2 c.a2).set 3 c.a3) }
  | .t => { h with e := ((((h.e.set 0 (c.a0.setWidth 48)).set 1 (c.a1.setWidth 48)).set 2 (c.a2.setWidth 48)).set 3
              (c.a3.setWidth 48)) }

/-- The head command of engine e begins its block. -/
def State.dispatch (s : State) (e : Eng) : State :=
  s.modHar s.cur fun h =>
    match (h.eng e).queue with
    | [] => h
    | c :: rest =>
      (h.modEng e fun x => { x with queue := rest, blk := some { cmd := c, pc := c.off, start := x.cyc } }).putArgs e c

/-- R17: engine e of the current harness begins an untimed block. -/
def execBlockDispatch (s : State) : Out :=
  let e := s.ev.e
  let h := s.har s.cur
  match (h.eng e).queue with
  | [] => .next s
  | c :: _ => .next (if h.mayStart e c && !c.timed then s.dispatch e else s)

/-- A block that does not start: SCHED_MISS with CAUSE 1 or 2 (R29, R399). The command stays at the head of the queue. -/
def State.missStart (s : State) (e : Eng) (c : Cmd) (cause : Nat) : State :=
  let h := s.har s.cur
  let x := h.eng e
  let f : Fail := { code := cSCHED_MISS, hi := missHi (h.sp.frame.toNat - c.stamp.toNat) cause }
  let sq := x.seqNo + (if x.blk.isSome then 1 else 0)
  let bf := s.bfault e c sq c.off f
  (s.modCtl s.cur fun k => k.addFault bf).modEng e fun x => { x with stalled := true }

/-- R29: the timed head command of engine e begins when FRAME equals its stamp, and misses when the engine is busy or
stalled then, or when it comes to the head later. An access that must be performed first (04 R117) and has not been counts
as a stall (DESIGN CHOICE, log entry 56). -/
def execTimedBlockStart (s : State) : Out :=
  let e := s.ev.e
  let h := s.har s.cur
  let x := h.eng e
  match x.queue with
  | [] => .next s
  | c :: _ =>
    if !c.timed ∨ h.sp.frame.toNat < c.stamp.toNat then .next s
    else if c.stamp.toNat < h.sp.frame.toNat then .next (s.missStart e c 2)
    else .next (if h.mayStart e c then s.dispatch e else s.missStart e c 1)

/-! Retirement (R20, R21) -/

/-- The oldest block that has issued its end has nothing in flight. -/
def EngSt.retires (x : EngSt) : Bool :=
  match x.ended with
  | [] => false
  | c :: _ => !x.pend.any fun p => p.age == c.age

/-- R20, R21: the oldest ended block of engine e retires: the counter rises, and versions of records that only it used
go (DEDUCED, log entry 18). -/
def execBlockRetire (s : State) : Out :=
  let e := s.ev.e
  if (s.eng e).retires then
    .next (s.modHar s.cur fun h => (h.modEng e fun x => { x with ended := x.ended.tail, ctr := x.ctr + 1 }).pruneRecs)
  else .next s

/-- The command of an age on engine e, with its sequence number (01 R21). -/
def EngSt.cmdOf (x : EngSt) (age : Nat) : Option (Cmd × BitVec 32) :=
  match x.ended.zipIdx.find? fun c => c.1.age == age with
  | some (c, i) => some (c, x.ctr + BitVec.ofNat 32 (i + 1))
  | none => match x.blk with
    | some b => if b.cmd.age = age then some (b.cmd, x.seqNo) else none
    | none => none

/-- A result that is still in flight meets a block fault at the word that issued it, such as the barrier subtraction of a decode
(04 R444). -/
def State.lateFaultAt (s : State) (r : Nat) (e : Eng) (p : Pend) (f : Fail) : State :=
  match ((s.har r).eng e).cmdOf p.age with
  | none => s
  | some (c, sq) =>
    let bf := ({ s with cur := r } : State).bfault e c sq p.epc f
    let s := s.modCtl r fun k => k.addFault bf
    s.modHar r fun h => h.modEng e fun x => { x with late := h.ctl.bf == some bf }

/-- The address of space 4 that a record's data comes from. -/
def viaOf (f : Rec) : Option Word := if space f.base = 4 then some f.base else none

/-- The link that a result's data comes through is down. -/
def State.viaDown (s : State) (p : Pend) : Bool :=
  match p.via with
  | some a => !s.linkUp (owner a)
  | none => false

/-- A result whose data was on its way through a link that is down is a block fault at its word; it stays, for the ERET to let it
be tried again or to drop it (18 R430; 16 R401). -/
def State.linkFault (s : State) (r : Nat) (e : Eng) (p : Pend) : State :=
  let q := { p with lost := true }
  let s := s.modHar r fun h => h.modEng e fun x => { x with pend := x.pend.map fun y => if y = p then q else y }
  s.lateFaultAt r e q { code := cMEM_ERROR, addr := p.via.getD 0, acc := accRead }

/-! Turns -/

/-- The engines issue: the harness is not halted (06 R204), and not frozen, or frozen by a block fault of this very cycle
(R406). -/
def Ctl.enginesRun (c : Ctl) (mcc : Word) : Bool :=
  !c.halted && (!c.frozen || (match c.bf with | some b => b.cls == 1 && b.fmcc == mcc | none => false))

/-- The end of a cycle: a pipeline advances by one cycle unless it is stalled (R26). -/
def EngSt.endCycle (x : EngSt) : EngSt := if x.stalled then { x with stalled := false } else { x with cyc := x.cyc + 1 }

/-- The end of a cycle of a harness: in a cycle in which it froze, or stays frozen or halted, neither the pipelines nor FRAME
advance; an engine that issued in the freeze cycle keeps its occupancy, and so stays in step (16 R401). -/
def Harness.endEngines (h : Harness) : Harness :=
  let f (x : EngSt) : EngSt := if h.ctl.frozen || h.ctl.halted || h.ctl.begun then { x with stalled := false } else x.endCycle
  { h with ve := f h.ve, de := f h.de, te := f h.te }

/-- Results without fixed latency that may arrive: no earlier-issued result in flight writes the same register (R449). -/
def arrivable (k : Async) : List Pend → List Pend → Option Pend
  | _, [] => none
  | before, p :: t =>
    if p.due = .free k ∧ !before.any p.meets then some p else arrivable k (before ++ [p]) t

/-- An engine of a rank has results of kind `k` that may arrive; none arrives while the harness is frozen or halted. -/
def State.arrives (s : State) (r : Nat) (e : Eng) (k : Async) : Option Pend :=
  let h := s.har r
  if h.ctl.frozen || h.ctl.halted then none else arrivable k [] (h.eng e).pend

/-- A part of a result is lost to a sequencer write of the same g register that lands in the same cycle, or is on its way
(08 R276): a register with a write of its own is usable only once that has landed (06 R161). -/
def Seq.prevails (q : Seq) : Eff → Bool
  | .g i _ => (q.ready.find i.toNat).isSome
  | _ => false

/-- A result without fixed latency arrives. Where a sequencer write lands with it, the sequencer's value stays (08 R276). -/
def State.arrive1 (s : State) (r : Nat) (e : Eng) (p : Pend) : State :=
  s.modHar r fun h =>
    (h.modEng e fun x => { x with pend := eraseOne p x.pend }).applyAll (p.effs.filter fun x => !h.seq.prevails x)

/-- A result that writes a g register does not land in a cycle in which an instruction that writes it is in issue, whose value
may land or not (DESIGN CHOICE, log entry 21). -/
def Seq.letsLand (q : Seq) (p : Pend) : Bool :=
  p.effs.all fun x => match x with
    | .g i _ => !q.inIssue.contains i
    | _ => true

/-- A result of engine e that has no fixed latency and may arrive: of T a load, of D a table or a seek; the decode has
an event of its own. -/
def State.arrival (s : State) (r : Nat) (e : Eng) : Option Pend :=
  match e with
  | .t => (s.arrives r .t .load).filter (s.har r).seq.letsLand
  | .d => s.arrives r .d .table <|> s.arrives r .d .seek
  | .v => none

/-- R153: a result of engine e of rank a arrives, or is lost with its link. -/
def execTLoadArrival (s : State) : Out :=
  match s.arrival s.ev.a s.ev.e with
  | some p => .next (if s.viaDown p then s.linkFault s.ev.a s.ev.e p else s.arrive1 s.ev.a s.ev.e p)
  | none => .next s

end Sys2Proof.Machine
end

