-- ==== Sys2Proof/Machine/SeqCtl.lean ====
section
/-!
DEFINITION. Branches and the delay slot, TRAP and BREAK, HALT and WAITINT, and S words that no encoding is assigned to
(05 R138, 06 R170-R173, R203, R204; 14 R346, R347).
-/

namespace Sys2Proof.Machine

/-- The instruction at pc of the current harness stands in a delay slot. -/
def State.inSlot (s : State) : Bool := (s.har s.cur).seq.ds.isSome

/-- A branch or jump issues: its delay slot comes next, and its decision and target are latched (R170, R173). -/
def Seq.branch (q : Seq) (target : Word) (taken : Bool) : Seq :=
  { q with pc := q.pc + 4, ds := some ⟨q.pc, target, taken⟩, wait := {}, stalled := false }

/-- pc + 4 * disp21 (R170). -/
def branchTarget (pc : Word) (disp : BitVec 21) : Word := pc + disp.signExtend 64 * 4

/-- A branch in a delay slot is ILLEGAL_INSTR (R172). -/
def execBr (k : BitVec 4) (n : Bool) (disp : BitVec 21) (s : State) : Out :=
  if s.inSlot then .next (s.preciseC s.cur cILLEGAL_INSTR)
  else
    let taken := xor (s.k k) n
    .next (s.modSeq s.cur fun q => q.branch (branchTarget q.pc disp) taken)

/-- A taken BRL writes g62 ← pc + 8 in its issue cycle (R170). -/
def execBrl (k : BitVec 4) (n : Bool) (disp : BitVec 21) (s : State) : Out :=
  if s.inSlot then .next (s.preciseC s.cur cILLEGAL_INSTR)
  else
    let taken := xor (s.k k) n
    .next (s.modSeq s.cur fun q =>
      (if taken then q.wg 62 (q.pc + 8) else q).branch (branchTarget q.pc disp) taken)

/-- The checks of a jump target (R171) (DEDUCED, log entry 50). -/
def jumpFault (p : Word) : Option Nat :=
  if space p ≠ 0 ∨ owner p ≠ 0 then some cBAD_SPACE
  else if p.toNat % 4 ≠ 0 then some cMISALIGNED
  else none

def execJr (a : BitVec 6) (s : State) : Out :=
  if s.inSlot then .next (s.preciseC s.cur cILLEGAL_INSTR)
  else
    let p := s.g a
    match jumpFault p with
    | some c => .next (s.precise s.cur { code := c, addr := p, acc := accFetch })
    | none => .next (s.modSeq s.cur fun q => q.branch p true)

/-- g(d) ← pc + 8 after reading g(a) (R171). -/
def execJrl (d a : BitVec 6) (s : State) : Out :=
  if s.inSlot then .next (s.preciseC s.cur cILLEGAL_INSTR)
  else
    let p := s.g a
    match jumpFault p with
    | some c => .next (s.precise s.cur { code := c, addr := p, acc := accFetch })
    | none => .next (s.modSeq s.cur fun q => (q.wg d (q.pc + 8)).branch p true)

/-- R203: class TRAP with the code in the record. -/
def execTrap (c : BitVec 20) (s : State) : Out :=
  .next (s.takeTrap s.cur { cls := 2, code := cTRAP, arg := c.toNat })

/-- R203: class BREAK. -/
def execBrk (c : BitVec 20) (s : State) : Out :=
  .next (s.takeTrap s.cur { cls := 3, code := cBREAK, arg := c.toNat })

/-- What keeps an instruction of major 0x3F from its effect: a delay slot, then U level (R172, R204)
(DEDUCED, log entry 30). -/
def State.privBar (s : State) : Option Nat :=
  if s.inSlot then some cILLEGAL_INSTR
  else if (s.har s.cur).level = 0 then some cPRIV_INSTR
  else none

/-- R204: the harness stops until firmware restarts it. -/
def execHalt (s : State) : Out :=
  match s.privBar with
  | some c => .next (s.preciseC s.cur c)
  | none => .next ((s.retireSeq id).haltHar s.cur)

/-- R347: returns on the harness named by SUPRANK while a message is unconsumed. -/
def execWaitint (s : State) : Out :=
  match s.privBar with
  | some c => .next (s.preciseC s.cur c)
  | none =>
    let p := s.partOf s.cur
    if (s.part p).suprank.toNat = s.cur ∧ s.intPending p then .next (s.retireSeq id) else .next s.stall

/-- R138: ILLEGAL_INSTR, but PRIV_INSTR for major 0x3F at U level outside a delay slot (DEDUCED, log entry 30). -/
def execUnassignedSEncoding (w : BitVec 32) (s : State) : Out :=
  if w.toNat / 2 ^ 26 = 0x3F ∧ s.privBar = some cPRIV_INSTR then .next (s.preciseC s.cur cPRIV_INSTR)
  else .next (s.preciseC s.cur cILLEGAL_INSTR)

end Sys2Proof.Machine
end

