-- ==== Sys2Proof/Machine/EngCtl.lean ====
section
/-!
DEFINITION. Engine control by the sequencer (06 R188-R191), the power governor (15 R381-R383), how block faults, the watchdog
and interrupts enter the supervisor (01 R27, R42; 14 R348; 16 R400, R406), and the resume of frozen engines (16 R401).
-/

namespace Sys2Proof.Machine

/-! EXEC, ENGWAIT, ENGSEQ, FRAMEGO -/

/-- What EXEC captures (R16). -/
def Harness.capture (h : Harness) (t : Bool) (a : Nat) (o : Nat) : Cmd :=
  let q := h.seq
  { age := h.ctl.issued, off := o, a0 := q.rgN a, a1 := q.rgN (a + 1), a2 := q.rgN (a + 2), a3 := q.rgN (a + 3),
    timed := t, stamp := if t then q.rgN (a + 4) else 0,
    k := (List.range 8).foldl (fun m i => setBit m i (q.rk (BitVec.ofNat 4 i))) 0,
    seed := h.sp.seed, defgrp := h.sp.defgrp, sep := q.epoch }

/-- Commands from the oldest not retired to the newest issued (R19). -/
def Harness.window (h : Harness) : Nat := h.ctl.issued - h.oldest

/-- R16, R19: the stall at the slip bound (stage 1) ends in the cycle after the oldest command retires (stage 2). No EXEC
issues while a block fault freezes the engines (R188). -/
def execExec (e : BitVec 2) (t : Bool) (a : BitVec 6) (o : BitVec 16) (s : State) : Out :=
  let r := s.cur
  let h := s.har r
  let bad := s.inSlot || (if t then decide (a.toNat > 59) else decide (a.toNat > 60))
  match engOf e.toNat with
  | none => .next (s.preciseC r cILLEGAL_INSTR)
  | some en =>
    if bad then .next (s.preciseC r cILLEGAL_INSTR)
    else if h.ctl.frozen then .next s.stall
    else if h.window ≥ (s.part (s.partOf r)).slip.toNat then
      .next (s.stall.modSeq r fun q => { q with wait := { stage := 1 } })
    else if h.seq.wait.stage = 1 then .next (s.stall.modSeq r fun q => { q with wait := { stage := 2 } })
    else
      let c := h.capture t a.toNat o.toNat
      .next (s.retire fun h =>
        { h.modEng en (fun x => { x with queue := x.queue ++ [c] }) with ctl := { h.ctl with issued := h.ctl.issued + 1 } })

/-- R189: waits until the signed 32-bit difference (counter - g(a)) is zero or more. -/
def execEngwait (a e : BitVec 6) (s : State) : Out :=
  match engOf e.toNat with
  | none => .next (s.preciseC s.cur cILLEGAL_INSTR)
  | some en =>
    let d := (s.eng en).ctr - (s.g a).setWidth 32
    if 0 ≤ d.toInt then .next (s.retireSeq id) else .next s.stall

/-- R189: g(d) ← counter, zero-extended. -/
def execEngseq (d e : BitVec 6) (s : State) : Out :=
  match engOf e.toNat with
  | none => .next (s.preciseC s.cur cILLEGAL_INSTR)
  | some en => .next (s.toG d ((s.eng en).ctr.setWidth 64))

/-- R190: FRAME reads 0 in the next cycle. -/
def execFramego (s : State) : Out := .next (s.retire fun h => { h with sp := { h.sp with frameGo := true } })

/-! The power governor -/

/-- The leave pool of a die in units of 0.25 W (R381). -/
def State.pool (s : State) (d : Nat) : Nat :=
  let p := s.partOfDie d
  4 * ((s.part p).share.toNat / (s.diesOf p).length - 400)

/-- Requests in the order in which the governor serves them: by arrival, those of one cycle by rank (R382). -/
def govIn (x : Nat × Nat × Nat) (l : List (Nat × Nat × Nat)) : List (Nat × Nat × Nat) :=
  let before (y : Nat × Nat × Nat) : Bool := decide (y.2.2 < x.2.2) || (y.2.2 == x.2.2 && decide (y.1 < x.1))
  l.filter before ++ x :: l.filter fun y => !before y

/-- R191: a class above the one held stands in the governor's queue until granted, also when a trap takes the sequencer out of
the stall: R191 does not speak of that (DESIGN CHOICE, log entry 62). -/
def execPwrreq (n : BitVec 6) (s : State) : Out :=
  let r := s.cur
  if n.toNat > 3 then .next (s.preciseC r cILLEGAL_INSTR)
  else if n.toNat ≤ (s.har r).ctl.pwr then .next (s.retireSeq id)
  else
    let d := dieOf r
    let s' := s.modDie d fun x =>
      if x.gov.queue.any fun q => q.1 == r then x
      else { x with gov := { x.gov with queue := govIn (r, n.toNat, s.mcc.toNat + 1) x.gov.queue } }
    .next s'.stall

/-- R191: the grant is returned. -/
def execPwrrel (s : State) : Out := .next ((s.returnPower s.cur).retireSeq id)

/-- Units that came back are free from their cycle on (R382). -/
def Gov.settle (g : Gov) (now : Nat) : Gov :=
  { g with used := g.used - ((g.freed.filter fun f => decide (f.1 ≤ now)).map (·.2)).foldl (· + ·) 0
           freed := g.freed.filter fun f => decide (now < f.1) }

/-- The head request of a die fits. -/
def State.grantable (s : State) (d : Nat) : Bool :=
  let g := (s.die d).gov.settle s.mcc.toNat
  match g.queue with
  | [] => false
  | (r, n, arr) :: _ =>
    decide (arr ≤ s.mcc.toNat) && decide (g.used - classCost (s.har r).ctl.pwr + classCost n ≤ s.pool d)

/-- R382: the governor of die a grants its head request; the PWRREQ retires in the next cycle. -/
def execPowerGrant (s : State) : Out :=
  let d := s.ev.a
  if !s.grantable d then .next s
  else
    let g := (s.die d).gov.settle s.mcc.toNat
    match g.queue with
    | [] => .next s
    | (r, n, _) :: rest =>
      let g' := { g with queue := rest, used := g.used - classCost (s.har r).ctl.pwr + classCost n }
      .next ((s.modDie d fun x => { x with gov := g' }).modCtl r fun c => { c with pwr := n })

/-! Entering the supervisor -/

/-- The S instruction at pc of a rank, with the failure of its fetch (01 R14, 05 R131, 16 R395). -/
def State.fetchSeq (s : State) (r : Nat) : Except Fail Instr :=
  let h := s.har r
  let p := h.seq.pc
  match s.spaceCheck r .fetch p accFetch with
  | .error f => .error f
  | .ok _ =>
    if p.toNat % 4 ≠ 0 then .error { code := cMISALIGNED, addr := p, acc := accFetch }
    else (s.fetchN r p 4 (h.level == 0)).map fetchedS

/-- Where a pending block fault enters the supervisor (R400): at these instructions, and at some of them only when
already stalled (DEDUCED, log entry 31). -/
def stopPoint (i : Instr) (stalled : Bool) : Bool :=
  match i with
  | .exec _ _ _ _ => true
  | .engwait _ _ => true
  | .yield => true
  | .nend => true
  | .wait _ => stalled
  | .waita _ _ _ _ => stalled
  | .barwait _ _ => stalled
  | .bgwait _ => stalled
  | .bgbar _ => stalled
  | .bgrecv _ _ => stalled
  | .pwrreq _ => stalled
  | _ => false

/-- The record of a block fault or freeze-owner halt. -/
def BFault.trap (b : BFault) : Trap :=
  { cls := b.cls, code := b.code, arg := b.arg, eng := b.eng, frz := true, seqNo := b.sq.toNat,
    w4 := BitVec.ofNat 64 (b.boff * 2 ^ 48 + b.epc % 2 ^ 32), lc01 := b.lc01, lc23 := b.lc23, status := b.status,
    addr := b.addr, kind := b.kind, level := b.level, acc := b.acc,
    fmcc := some b.fmcc, fframe := some b.fframe }

/-- A pending fault enters the supervisor; a freeze-owner halt behind it comes next. -/
def State.enterPending (s : State) (r : Nat) (b : BFault) : State :=
  (s.modCtl r fun c => { c with bf := c.owner.head?, owner := c.owner.tail }).takeTrap r b.trap

/-- Whether the pending fault of a rank enters at the instruction in issue: at a stopping point (R400), at U or at the level at
which it was raised (R406) (DEDUCED, log entry 31). -/
def State.faultEnters (s : State) (r : Nat) : Bool :=
  let h := s.har r
  h.seq.active && h.ctl.resume.isNone &&
    match h.ctl.bf with
    | none => false
    | some b =>
      decide (h.level ≤ b.plvl) &&
        match s.fetchSeq r with
        | .ok i => stopPoint i h.seq.stalled
        | .error _ => false

/-- R400: the pending fault of rank a. -/
def execBlockFaultEntry (s : State) : Out :=
  let r := s.ev.a
  match (s.har r).ctl.bf with
  | some b => .next (if s.faultEnters r then s.enterPending r b else s)
  | none => .next s

/-- Whether the interrupt of a rank enters: at an instruction boundary, at U, not in a delay slot (R348). -/
def Harness.intEnters (h : Harness) : Bool :=
  h.ctl.intr.isSome && h.level == 0 && h.running && h.seq.active && h.seq.ds.isNone && !h.seq.stalled &&
    h.seq.wait.stage == 0 && h.ctl.resume.isNone

/-- R348: class 6 with the message's code. -/
def execInterruptEntry (s : State) : Out :=
  let r := s.ev.a
  let h := s.har r
  match h.ctl.intr with
  | some c =>
    .next (if h.intEnters then
        (s.modCtl r fun c => { c with intr := none }).takeTrap r { cls := 6, code := c, frz := h.ctl.frozen }
      else s)
  | none => .next s

/-- The count of a node exceeds WDOG, counted at U and not frozen (01 R42, 16 R400). -/
def State.wdogDue (s : State) (r : Nat) : Bool :=
  let h := s.har r
  let lim := (s.part (s.partOf r)).wdog.toNat
  lim != 0 && h.level == 0 && !h.ctl.frozen &&
    match h.ctl.node with
    | some n => decide (n.count > lim)
    | none => false

/-- R42: the harness freezes and traps with class 4 at the instruction in issue. -/
def execWdogExpire (s : State) : Out :=
  let r := s.ev.a
  if s.wdogDue r then
    .next ((s.modCtl r fun c => { c with frozen := true }).takeTrap r { cls := 4, code := cWDOG_EXPIRE, frz := true })
  else .next s

/-- The cycle of a resume has come: the next one is it. -/
def State.resumeDue (s : State) (r : Nat) : Bool :=
  match (s.har r).ctl.resume with
  | some c => decide (c ≤ s.mcc.toNat + 1)
  | none => false

/-- R401: the engines, FRAME and the sequencer of rank a continue. -/
def execResumeCycle (s : State) : Out :=
  if s.resumeDue s.ev.a then .next (s.modCtl s.ev.a fun c => { c with frozen := false, resume := none, begun := true }) else .next s

end Sys2Proof.Machine
end

