-- ==== Sys2Proof/Machine/Operands.lean ====
section
/-!
DEFINITION. Operand forms of the engines: V types, elements of registers (07 R205), source modifiers (03 R82), scalar
operands (R214), what a field of a V word may hold (R209-R212), elements of the 8-bit format codes (03 R73).
-/

namespace Sys2Proof.Machine

open Sys2Proof.Num

/-! Types -/

/-- A V type: floating or integer. -/
inductive VTy where
  | f (t : Fmt)
  | i (t : IFmt)
deriving DecidableEq, Repr

/-- The integer formats of 03 R72. -/
def i64 : IFmt := ⟨64, true⟩
def i32 : IFmt := ⟨32, true⟩
def i16 : IFmt := ⟨16, true⟩
def i8 : IFmt := ⟨8, true⟩
def n32 : IFmt := ⟨32, false⟩
def n16 : IFmt := ⟨16, false⟩
def n8 : IFmt := ⟨8, false⟩

/-- The TYPE codes of 05 R141; a code above 10 is never used, since every check refuses it. -/
def vty (c : Nat) : VTy :=
  match c with
  | 0 => .f fp64
  | 1 => .f fp32
  | 2 => .f fp16
  | 3 => .f bf16
  | 4 => .i i64
  | 5 => .i i32
  | 6 => .i i16
  | 7 => .i i8
  | 8 => .i n32
  | 9 => .i n16
  | _ => .i n8

/-- Element width in bits. -/
def VTy.bits : VTy → Nat
  | .f t => t.width
  | .i t => t.w

/-- Element size in bytes. -/
def VTy.size (t : VTy) : Nat := t.bits / 8

/-- The type sets of R211. -/
def tyF : List Nat := [0, 1, 2, 3]
def tyI : List Nat := [4, 5, 6, 7, 8, 9, 10]
def tyA : List Nat := tyF ++ tyI

/-- A V instruction of F type. -/
def vIsF (w : VWord) : Bool := decide (w.ty.toNat ≤ 3)
def vT (w : VWord) : VTy := vty w.ty.toNat

/-! Elements -/

/-- The first n elements of w bytes. -/
def elemsOf (w : Nat) : Nat → List Byte → List Nat
  | 0, _ => []
  | n + 1, bs => leNat (bs.take w) :: elemsOf w n (bs.drop w)

/-- The bytes of elements of w bytes. -/
def elemBytes (w : Nat) (xs : List Nat) : List Byte := xs.flatMap (leBytes w)

/-- The first n nibbles of bytes: the even element of a byte in bits 3:0 (R205). -/
def nibblesOf : Nat → List Byte → List Nat
  | 0, _ => []
  | _ + 1, [] => []
  | 1, b :: _ => [b.toNat % 16]
  | n + 2, b :: t => b.toNat % 16 :: b.toNat / 16 :: nibblesOf n t

/-- The bytes of nibbles; a last one alone has bits 7:4 zero. -/
def nibbleBytes : List Nat → List Byte
  | [] => []
  | [a] => [BitVec.ofNat 8 (a % 16)]
  | a :: b :: t => BitVec.ofNat 8 (a % 16 + 16 * (b % 16)) :: nibbleBytes t

/-- The first n elements of v(r) of a cell. -/
def Harness.velems (h : Harness) (cell r w n : Nat) : List Nat := elemsOf w n (h.vget cell r)

/-- The cells of a harness. -/
def cells : List Nat := List.range 16

/-! Modifiers (03 R82) -/

/-- On an integer: exact. -/
def modInt (neg abs : Bool) (v : Int) : Int :=
  let v := if abs then (v.natAbs : Int) else v
  if neg then -v else v

/-- The signed destination exponent P. -/
def vP (w : VWord) : Int := w.p.toInt

/-! What a field may hold -/

/-- A field of a V word: a v register, a c register in its low 4 bits, zero, or a value of its own. -/
inductive FieldUse where
  | v | c | z | any
deriving DecidableEq, Repr

def FieldUse.ok (k : FieldUse) (x : BitVec 6) : Bool :=
  match k with
  | .v => true
  | .any => true
  | .c => decide (x.toNat < 16)
  | .z => x == 0

/-- A take or fill bit may stand on a v register only (R209). -/
def FieldUse.bitOk (k : FieldUse) (b : Bool) : Bool := !b || k == .v

/-- How a V instruction uses its word (R211): types, fields, operands that take modifiers, whether CLAMP and P are
honoured. -/
structure VUse where
  types : List Nat
  d : FieldUse := .v
  a : FieldUse := .v
  b : FieldUse := .v
  c : FieldUse := .z
  ma : Bool := false
  mb : Bool := false
  mc : Bool := false
  cp : Bool := false
  /-- VC is a second destination: TC must be zero -/
  cDest : Bool := false
deriving DecidableEq, Repr

/-- The checks of R212 on a word, without its EXT. -/
def vBad (w : VWord) (u : VUse) (lf64 : Bool) : Bool :=
  !u.types.contains w.ty.toNat || (w.ty == 0 && u.types != [0] && !lf64) ||
  !u.d.ok w.vd || !u.a.ok w.va || !u.b.ok w.vb || !u.c.ok w.vc ||
  !u.d.bitOk w.fd || !u.a.bitOk w.ta || !u.b.bitOk w.tb || !(if u.cDest then !w.tc else u.c.bitOk w.tc) ||
  (!u.ma && (w.na || w.aa)) || (!u.mb && (w.nb || w.ab)) || (!u.mc && (w.nc || w.ac)) ||
  (!u.cp && (w.clamp != 0 || w.p != 0))

/-- The registers that a V word takes. -/
def vTakes (w : VWord) : List FeReg :=
  (if w.ta then [.v w.va.toNat] else []) ++ (if w.tb then [.v w.vb.toNat] else []) ++
    (if w.tc then [.v w.vc.toNat] else [])

/-- The rounding code of EXT[2:0]. -/
def vRnd (w : VWord) : Nat := w.ext.toNat % 8

/-- Its mode; an illegal code has been refused before. -/
def vMode (w : VWord) : Sys2Proof.Num.Mode := (Mode.ofCode (vRnd w)).getD .rne

/-! Elements of the format codes (03 R73) -/

/-- The type of an 8-bit format code: none for the formats without a plain element. -/
inductive ElTy where
  | f (t : Fmt)
  | i (t : IFmt)
  | e8m0
deriving DecidableEq, Repr

def elTy (code : Nat) : Option ElTy :=
  match code with
  | 0x00 => some (.i i8)
  | 0x01 => some (.i n8)
  | 0x02 => some (.i i16)
  | 0x03 => some (.i n16)
  | 0x04 => some (.i i32)
  | 0x05 => some (.i n32)
  | 0x06 => some (.i i64)
  | 0x10 => some (.f fp64)
  | 0x11 => some (.f fp32)
  | 0x12 => some (.f fp16)
  | 0x13 => some (.f bf16)
  | 0x14 => some (.f e4m3)
  | 0x15 => some (.f e5m2)
  | 0x16 => some (.f e2m1)
  | 0x17 => some .e8m0
  | _ => none

/-- The exact value of an element code. -/
def ElTy.value : ElTy → Nat → Val
  | .f t, c => ofCode t c
  | .i t, c => ofIntVal (t.ofCode c)
  | .e8m0, c => ofE8m0 c

/-- A conversion of an exact value into a format (03 R85, R448): scale, one rounding, clamp. -/
def ElTy.conv (t : ElTy) (mode : Sys2Proof.Num.Mode) (r32 : Nat) (p : Int) (clamp : Nat) (v : Val) : Nat × Flags :=
  match t with
  | .f t =>
    if t.nan = .none ∧ v.isNan then (0, fIV)
    else destF t mode r32 p clamp v
  | .i t => toIntConv t mode r32 p clamp v
  | .e8m0 => toE8m0 mode r32 p clamp v

def VTy.el : VTy → ElTy
  | .f t => .f t
  | .i t => .i t

/-- The block format of a selector 0, 1, 2 (07 R225). -/
def blkOf (c : Nat) : Blk := if c = 0 then .vf8 else if c = 1 then .vf8e else .vf4

end Sys2Proof.Machine
end

