-- ==== Sys2Proof/Machine/Post.lean ====
section
/-!
DEFINITION. QPOST (06 R192), buffer-record instructions (06 R195-R197, 02 R57-R62), refresh instructions and what banks do by
themselves (06 R199, R200; 02 R63-R69; 17 R421).
-/

namespace Sys2Proof.Machine

/-! QPOST -/

/-- A precise fault of QPOST after its claim: word 14 of the record holds the index (R192), its code fills STATUS as that of
every precise fault does (DEDUCED, log entry 31). -/
def State.postFault (s : State) (f : Fail) (idx : Word) (sz : Nat) : State :=
  if s.mutes s.cur f then
    (s.preciseF s.cur f).modSeq s.cur fun q => { q with wait := { stage := 1, v := idx, list := [sz], muted := true } }
  else
    (s.tally s.cur f).takeTrap s.cur
      { cls := 0, code := f.code, status := BitVec.ofNat 64 f.code, addr := f.addr, kind := f.kind, level := f.level
        acc := f.acc, qidx := idx }

/-- The key of a word that QPOST reads or writes, with its consumption when read. -/
def State.postKey (s : State) (p : Word) (a : SeqAcc) : Except Fail Nat :=
  match s.seqAccess s.cur p a with
  | .error f => .error f
  | .ok (.reg _) => .error { code := cBAD_SPACE, addr := p }
  | .ok (.mem k) =>
    match if a.r then s.consumesN k 8 else none with
    | some c => .error { code := c, addr := p, acc := a.acc, gran := some k }
    | none => .ok k

def postRead : SeqAcc := ⟨8, 8, accRead, true, false, false, true⟩
def postWrite : SeqAcc := ⟨8, 8, accWrite, false, true, true, true⟩
def postAtomic : SeqAcc := ⟨8, 8, accAtomic, true, true, true, true⟩

/-- The slot words in the order of R192: 1 to 7, then word 0 with its tag. -/
def State.postWords (s : State) (slot : Word) : List (Nat × Word) → Except Fail State
  | [] => .ok s
  | (i, w) :: t =>
    match s.postKey (slot + BitVec.ofNat 64 (8 * i)) postWrite with
    | .error f => .error f
    | .ok k => State.postWords ((s.write k (leBytes 8 w.toNat)).noteTag k 8 (s.asPoster s.cur)) slot t

/-- The claimed slot is written once RDIDX leaves room; stage 1 holds index and SZ. -/
def State.postSlot (s : State) (d b : BitVec 6) (hdr : Word) (idx : Word) (sz : Nat) : State :=
  match s.postKey (hdr + 8) postRead with
  | .error f => s.postFault f idx sz
  | .ok k =>
    if (idx - s.wordAt k).toNat ≥ 2 ^ sz then
      s.stall.modSeq s.cur fun q => { q with wait := { stage := 1, v := idx, list := [sz] } }
    else
      let slot := hdr + BitVec.ofNat 64 (64 * (1 + idx.toNat % 2 ^ sz))
      let q := (s.har s.cur).seq
      let w (i : Nat) : Word := q.rgN (b.toNat + i)
      let tag : Word := BitVec.ofNat 64 ((idx.toNat + 1) % 2 ^ 32 * 2 ^ 32 + wf (w 0) 0 32)
      match s.postWords slot ((List.range' 1 7).map (fun i => (i, w i)) ++ [(0, tag)]) with
      | .error f => s.postFault f idx sz
      | .ok s' => s'.toG d idx

/-- R192. A b above 56 is illegal; the header stands in space 0 on a multiple of 64 (DEDUCED, log entry 28). -/
def execQpost (d a b : BitVec 6) (s : State) : Out :=
  let r := s.cur
  let hdr := s.g a
  let q := (s.har r).seq
  if b.toNat > 56 then .next (s.preciseC r cILLEGAL_INSTR)
  else if q.wait.stage = 1 then .next (s.postSlot d b hdr q.wait.v (q.wait.list.headD 1))
  else if !s.drained then .next s.stall
  else if space hdr ≠ 0 ∨ owner hdr ≠ 0 then .next (s.precise r { code := cBAD_SPACE, addr := hdr })
  else if offset hdr % 64 ≠ 0 then .next (s.precise r { code := cMISALIGNED, addr := hdr })
  else match s.postKey (hdr + 24) postRead with
    | .error f => .next (s.preciseF r f)
    | .ok kz =>
      let sz := wf (s.wordAt kz) 0 5
      if sz = 0 ∨ sz > 16 then .next (s.preciseC r cBAD_QUEUE)
      else match s.postKey hdr postAtomic with
        | .error f => .next (s.preciseF r f)
        | .ok k =>
          let idx := s.wordAt k
          let s := ((s.cacheFor r hdr).scrub k 8).write k (leBytes 8 (idx + 1).toNat)
          .next (s.postSlot d b hdr idx sz)

/-! Buffer-record instructions -/

/-- The entry that a handle names, read for BRLD (R60, R61). -/
def State.tableEntry (s : State) (r idx : Nat) : Except Fail Entry :=
  let va := ((s.har r).rtbase + 64 * idx) % 2 ^ 48
  let p := mkPtr 0 0 va
  match (List.range 40).mapM fun i => s.xlate r ((va + i) % 2 ^ 48) { r := true } accRead with
  | .error f => .error { f with addr := p }
  | .ok ks =>
    match ks.findSome? fun k => (s.consumes k).map fun c => (k, c) with
    | some (k, c) => .error { code := c, addr := p, gran := some k }
    | none => .ok (entryOf (bytesWords (ks.map (memGet s.mem))))

/-- R195, R61, R57, R394: every fault is precise, and leaves bd as it was. -/
def execBrld (d a : BitVec 6) (s : State) : Out :=
  let r := s.cur
  let v := s.g a
  let idx := wf v 12 20
  if !s.drained then .next s.stall
  else if wf v 32 32 ≠ 0 ∨ idx ≥ (s.part (s.partOf r)).rtlim.toNat then .next (s.preciseC r cBAD_ADDRESS)
  else
    let s := s.devScrub (s.partOf r) (((s.har r).rtbase + 64 * idx) % 2 ^ 48) 40
    match s.tableEntry r idx with
    | .error f => .next (s.preciseF r f)
    | .ok e =>
      let c := entryCheck e (wf v 0 12) r false
      if c ≠ cOK then .next (s.preciseC r c)
      else if !e.record.ok (wf e.w3 62 2) then .next (s.preciseC r cBAD_BUFREC)
      else
        let s := s.scrubPins r (s.recPins r e.record e.nr)
        match s.recPins r e.record e.nr with
        | .error f => .next (s.preciseF r f)
        | .ok pins =>
          let b : BufRec := { fromAge := 0, loaded := true, w0 := e.w0, w1 := e.w1, w2 := e.w2, w3 := e.w3r, nr := e.nr,
                              pins := pins, pinId := s.freeCtr }
          .next (s.retire fun h => h.putRec d.toNat b)

/-- R196: commands issued from now on find the record unloaded. -/
def execBrfree (d : BitVec 6) (s : State) : Out :=
  .next (s.retire fun h => if (h.recNow d.toNat).isSome then h.putRec d.toNat { fromAge := 0, loaded := false } else h)

/-- R197. -/
def execBrget (d a : BitVec 6) (s : State) : Out :=
  if d.toNat > 60 then .next (s.preciseC s.cur cILLEGAL_INSTR)
  else match (s.har s.cur).recNow a.toNat with
    | none => .next (s.preciseC s.cur cBAD_BUFREC)
    | some b => .next (s.retireSeq fun q => (((q.wg d b.w0).wg (d + 1) b.w1).wg (d + 2) b.w2).wg (d + 3) b.w3)

/-! Refresh -/

/-- The 16 cells' banks of one number. -/
def bankKeys (b : Nat) : List Nat := (List.range 16).map fun c => bankKey c b

/-- R199: the banks wait their turn; slot N is set at issue. Banks in a forced refresh count as refreshed (17 R421). -/
def execTref (n : BitVec 4) (a b : BitVec 6) (s : State) : Out :=
  let lo := (s.g a).toNat
  let hi := (s.g b).toNat
  if lo > 15 ∨ hi > 15 then .next (s.preciseC s.cur cBAD_ADDRESS)
  else
    let left := List.range' lo (hi + 1 - lo)
    .next (s.retire fun h =>
      let t : Tref := { left := left, bank := none, sb := n.toNat
                        forced := (left.flatMap bankKeys).filter fun k => (h.bank k).st == .forced }
      { h with tref := h.tref ++ [t], seq := h.seq.setSb n.toNat })

/-- R200, R65: a signed 64-bit value. -/
def execTrefq (d : BitVec 6) (s : State) : Out :=
  .next (s.toG d (BitVec.ofInt 64 ((s.har s.cur).leastLeft s.mcc.toNat)))

/-- What a TREF of a rank does next: the oldest one, or the first that has no bank left. -/
inductive TrefStep where
  | begin (bank : Nat)
  | bankDone
  | done (t : Tref)
deriving DecidableEq, Repr

/-- A TREF has no bank to refresh, nor any in progress. -/
def Tref.over (t : Tref) : Bool := t.left.isEmpty && t.bank.isNone

/-- R64, R66: the next bank begins once no bank of its number is refreshing or backing off; a bank number ends when none of
its banks refreshes. -/
def Harness.trefStep (h : Harness) (now : Nat) : Option TrefStep :=
  match h.tref.find? Tref.over with
  | some t => some (.done t)
  | none =>
    match h.tref with
    | [] => none
    | t :: _ =>
      match t.bank with
      | some b => if (bankKeys b).any fun k => (h.bank k).st == .refresh then none else some .bankDone
      | none =>
        match t.left with
        | [] => none
        | b :: _ => if (bankKeys b).all fun k => (h.bank k).free now then some (.begin b) else none

/-- R64: a TREF of rank a goes on; the next cycle is its cycle. Banks that a forced refresh has done are passed over (R66). -/
def execTrefBankRefresh (s : State) : Out :=
  let r := s.ev.a
  let c := s.mcc.toNat + 1
  let h := s.har r
  match h.trefStep c, h.tref with
  | some (.begin b), t :: rest =>
    let h := ((bankKeys b).filter fun k => !t.forced.contains k).foldl (fun h k => h.setBank k ((h.bank k).refresh c .refresh)) h
    .next (s.setHar r { h with tref := { t with left := t.left.tail, bank := some b } :: rest })
  | some .bankDone, t :: rest => .next (s.setHar r { h with tref := { t with bank := none } :: rest })
  | some (.done t), _ => .next (s.setHar r { h with tref := eraseOne t h.tref, seq := h.seq.clearSb t.sb })
  | _, _ => .next s

/-- A refresh of a bank that ends in the next cycle. -/
def Bank.refreshEnds (b : Bank) (c : Nat) : Bool := (b.st == .refresh || b.st == .forced) && decide (b.till ≤ c)

/-- R421: the first bank of rank a whose refresh ends: deadline, counters, no row open. Its rows' granules are checked. -/
def execRefreshComplete (s : State) : Out :=
  let r := s.ev.a
  let c := s.mcc.toNat + 1
  let h := s.har r
  match h.banks.find? fun kb => kb.2.refreshEnds c with
  | none => .next s
  | some (k, b) =>
    let s := s.setHar r (h.setBank k (b.refreshed c (s.die (dieOf r)).rperiod.toNat))
    .next (s.refreshRows r fun p => towCell p == k / 16 && towBank p == k % 16)

/-- R421: the first bank of rank a whose back-off ends. -/
def execBackoffEnd (s : State) : Out :=
  let r := s.ev.a
  let c := s.mcc.toNat + 1
  let h := s.har r
  match h.banks.find? fun kb => kb.2.st == .backoff && decide (kb.2.till ≤ c) with
  | none => .next s
  | some (k, b) => .next (s.setHar r (h.setBank k { b with st := .serve, row := none }))

/-- Whether hardware forces a refresh of a bank in cycle c (R66, R69): its guard was reached in an earlier cycle, so that an
access of that cycle goes first, and no beat or back-off is in progress (DESIGN CHOICE, log entry 49). -/
def Bank.forceDue (b : Bank) (c guard : Nat) : Bool := decide (b.left c < (guard : Int)) && b.free c

/-- The first bank of a harness whose refresh is forced in cycle c. -/
def Harness.forcedBank (h : Harness) (c guard : Nat) : Option (Nat × Bank) :=
  if h.leastLeft c < (guard : Int) then h.allBanks.find? fun kb => kb.2.forceDue c guard else none

/-- R66: a bank of rank a at its guard: FREF rises, and a TREF that has not reached the bank counts it as refreshed. -/
def execForcedRefresh (s : State) : Out :=
  let r := s.ev.a
  let c := s.mcc.toNat + 1
  let h := s.har r
  match h.forcedBank c (s.die (dieOf r)).rguard.toNat with
  | none => .next s
  | some (k, b) =>
    let tref := h.tref.map fun t => if t.left.contains (k % 16) then { t with forced := k :: t.forced } else t
    let h := h.setBank k (b.refresh c .forced)
    .next (s.setHar r { h with tref := tref, sp := { h.sp with fref := h.sp.fref + 1 } })

end Sys2Proof.Machine
end

