-- ==== Sys2Proof/Machine/Access.lean ====
section
/-!
DEFINITION. Access to memory through buffer records by the T engine and the decoder: elements and bounds (02 R53-R55,
08 R262), their places, tower banks and latency (02 R49, 05 R152), consumption (17 R408), element reads and writes.
-/

namespace Sys2Proof.Machine

/-! Indices -/

/-- Where bounds mode and extents put an element (R53, R55): a fault, nothing (a read of +0, a dropped write), or the byte
distance from BASE and the bit within the byte. -/
def Rec.locate (f : Rec) (write : Bool) (i0 i1 i2 : Int) : Except Nat (Option (Int × Nat)) :=
  let within (i : Int) (e : Nat) : Bool := decide (0 ≤ i) && decide (i < e)
  let at' (i0 i1 i2 : Int) : Except Nat (Option (Int × Nat)) :=
    let b := i0 * f.bits
    .ok (some (b / 8 + i1 * f.s1 + i2 * f.s2, (b % 8).toNat))
  if within i0 f.ext0 && within i1 f.ext1 && within i2 f.ext2 then at' i0 i1 i2
  else match f.bounds with
    | 0 => .error cBOUNDS
    | 1 => .ok none
    | 2 =>
      if write then .ok none
      else
        let clamp (i : Int) (e : Nat) : Int := max 0 (min i ((e : Int) - 1))
        at' (clamp i0 f.ext0) (clamp i1 f.ext1) (clamp i2 f.ext2)
    | _ => if within i2 f.ext2 then at' (i0 % f.ext0) (i1 % f.ext1) i2 else .error cBOUNDS

/-- The place of an element: its address, the keys of its bytes, the bit within the byte. -/
structure Spot where
  p : Word
  keys : List Nat
  half : Nat
deriving DecidableEq, Repr

/-- The keys of `size` bytes at a byte distance from a record's BASE, in a cell (R47, R53, R262): space 1 keeps to the
cell's own tower. `w` is 0 for a read, 1 for a write, 2 for both (DEDUCED, log entry 21). -/
def State.spot (s : State) (r : Nat) (b : BufRec) (cell : Nat) (d : Int) (size w acc : Nat) : Except Fail (List Nat × Word) :=
  let base := b.fields.base
  let sp := space base
  let addr : Int := (offset base : Int) + d
  let limit : Int := if sp = 1 ∨ sp = 2 then 2 ^ 26 else 2 ^ 48
  let p := mkPtr sp (owner base) (addr % 2 ^ 48).toNat
  if addr < 0 ∨ addr + size > limit then .error { code := cBAD_ADDRESS, addr := p, acc := acc }
  else
    let a := addr.toNat
    if sp = 1 then .ok ((List.range size).map fun i => towerKey r (cell * 2 ^ 22 + (a + i) % 2 ^ 22), p)
    else if sp = 0 ∧ a % 2 ^ 16 + size > 2 ^ 16 then
      match (List.range size).mapM fun i => s.recKey r b (mkPtr 0 0 (a + i)) w acc with
      | .ok ks => .ok (ks, p)
      | .error f => .error f
    else match s.recKey r b p w acc with
      | .ok k => .ok ((List.range size).map (k + ·), p)
      | .error f => .error f

/-- One element of an access, by its indices and the byte displacement o. -/
def State.elSpot (s : State) (r : Nat) (b : BufRec) (f : Rec) (cell : Nat) (write : Bool) (w acc : Nat) (o : Int)
    (i : Int × Int × Int) : Except Fail (Option Spot) :=
  match f.locate write i.1 i.2.1 i.2.2 with
  | .error c => .error { code := c }
  | .ok none => .ok none
  | .ok (some (d, half)) =>
    match s.spot r b cell (d + o) f.bytes w acc with
    | .error e => .error e
    | .ok (ks, p) => .ok (some { p := p, keys := ks, half := half })

/-- The elements of an access in every cell, ascending; the first failure decides. Cells that name the same elements are
resolved once. -/
def State.elSpots (s : State) (r : Nat) (b : BufRec) (f : Rec) (write : Bool) (w acc : Nat) (o : Int) (perCell : Bool)
    (idx : Nat → List (Int × Int × Int)) : Except Fail (List (List (Option Spot))) :=
  let row (cell : Nat) := (idx cell).mapM (s.elSpot r b f cell write w acc o)
  if perCell || space f.base == 1 then cells.mapM row
  else (row 0).map fun x => cells.map fun _ => x

/-- The spots of a list of rows. -/
def liveSpots (rows : List (List (Option Spot))) : List Spot := rows.flatMap fun row => row.filterMap id

/-! Consumption (17 R407, R408) -/

/-- Some granule can fail. -/
def State.mayConsume (s : State) : Bool := !s.poison.isEmpty || !s.latent.isEmpty || !s.hbm.isEmpty

/-- The first spot whose bytes are not delivered: its first key and the failure. -/
def State.spotsConsume (s : State) (acc : Nat) (sps : List Spot) : Option (Nat × Fail) :=
  if s.mayConsume then
    sps.findSome? fun x => x.keys.findSome? fun k => (s.consumes k).map fun c => (k, { code := c, addr := x.p, acc := acc })
  else none

/-- A consumption by an engine, once the banks have served its word (17 R424). -/
def engConsume (s : State) (k : Nat) (f : Fail) : Issue := .faultAt s { f with gran := some k }

/-- The granules of spots that a read delivers are checked. -/
def State.scrubSpots (s : State) (sps : List Spot) : State :=
  if s.latent.isEmpty then s else sps.foldl (fun s x => x.keys.foldl (fun s k => s.scrub k 1) s) s

/-- Accesses outside a record's pins used the translation cache (16 R395). -/
def State.cacheSpots (s : State) (r : Nat) (b : BufRec) (sps : List Spot) : State :=
  if space b.fields.base = 0 then
    (sps.filter fun x => !b.pinsAt (offset x.p)).foldl (fun s x => s.cacheLeaf r (offset x.p)) s
  else s

/-! Tower banks (02 R49, R50) -/

/-- The list without repeats, in order of first occurrence. -/
def dedup (xs : List Nat) : List Nat := (xs.foldl (fun acc x => if acc.contains x then acc else x :: acc) []).reverse

/-- The list with runs of one value cut to one. -/
def squeeze : List Nat → List Nat
  | a :: b :: t => if a = b then squeeze (b :: t) else a :: squeeze (b :: t)
  | t => t

/-- The 256-byte beats that keys touch in towers, as numbers of key / 256. -/
def beatsOf (ks : List Nat) : List Nat := dedup (squeeze ((ks.filter isTower).map (· / 256)))

/-- The accesses that beats make: rows in order, each with its beats; under placement policy 1 one access a beat. -/
def rowAccesses (close : Bool) (bs : List Nat) : List (List Nat) :=
  if close then bs.map fun b => [b] else (dedup (bs.map (· / 2))).map fun w => bs.filter fun b => b / 2 = w

/-- The number of the bank that holds a 512-byte block of tower keys, over all harnesses. -/
def bankOf (w : Nat) : Nat := 256 * towerRank (512 * w) + bankKey (towCell (512 * w)) (towBank (512 * w))

/-- What the banks have done for a word: the state, the beats served with whether each activated its row, and the banks that
serve it no more for now. -/
structure Served where
  s : State
  done : List (Nat × Bool)
  shut : List Nat

/-- One access of a word, behind those it has already made in the bank. A back-off that the word has triggered there, or a
refresh that is due before a beat moves, holds the rest back (R66, R67). -/
def Served.step (close : Bool) (x : Served) (bs : List Nat) : Served :=
  let k := 256 * bs.headD 0
  let w := bankOf (bs.headD 0 / 2)
  let now := x.s.mcc.toNat
  let guard : Int := (x.s.die (dieOf (towerRank k))).rguard.toNat
  let b := x.s.bankAt k
  let start := max now b.till
  if x.shut.contains w then x
  else if start > now ∧ (b.st = .backoff ∨ b.left start < guard) then { x with shut := w :: x.shut }
  else
    let (_, act, _) := b.access start ((x.s.har (towerRank k)).physRow (towCell k) (towBank k) (towRow k)) 1 4096 close
    let second := start + (if act then 14 else 2)
    let go := if b.left second < guard then bs.take 1 else bs
    let (s, act) := x.s.touchRow (towerRank k) (towCell k) (towBank k) (towRow k) go.length close
    { s := s, done := x.done ++ go.zipIdx.map fun bi => (bi.1, act && bi.2 == 0)
      shut := if go.length < bs.length then w :: x.shut else x.shut }

/-- The banks serve what they can of the beats of a word, in order; `done` are those of earlier cycles. -/
def State.serveBeats (s : State) (close : Bool) (done : List (Nat × Bool)) (bs : List Nat) : Served :=
  (rowAccesses close bs).foldl (Served.step close) ⟨s, done, []⟩

/-- The largest number of activations in one bank. -/
def mostActs (done : List (Nat × Bool)) : Nat :=
  let t := done.foldl (fun (t : Table Nat) b =>
    if b.2 then t.set (bankOf (b.1 / 2)) (t.getD (bankOf (b.1 / 2)) 0 + 1) else t) []
  t.foldl (fun m x => max m x.2) 0

/-- The greatest number of beats in one cell. -/
def beatsPerCell (bs : List Nat) : Nat :=
  let t := bs.foldl (fun (t : Table Nat) b => t.set (b / 2 ^ 14) (t.getD (b / 2 ^ 14) 0 + 1)) []
  t.foldl (fun m x => max m x.2) 0

/-- The engine of the current harness that asks for an access through a record. -/
def State.engAsker (s : State) (e : Eng) (f : Rec) : Asker :=
  { rank := s.cur, port := if e = .d then 1 else 0, hold := f.place == 2 }

/-- The banks that an access of the word in issue through a record needs serve it together (R50): the state after them and
the latency of 05 R152 (used for space 1), or the state in which the word waits, with the beats already served. -/
def State.banks (s : State) (e : Eng) (f : Rec) (ks : List Nat) : Except State (State × Nat) :=
  let bs := beatsOf ks
  let had := (s.eng e).rows
  let todo := bs.filter fun b => !had.any fun x => x.1 == b
  let a := s.engAsker e f
  if !todo.all fun b => s.serves a (256 * b) then .error (todo.foldl (fun s b => s.ask a (256 * b)) s)
  else
    let x := (todo.foldl (fun s b => s.unask a (256 * b)) s).serveBeats (f.place == 1) had todo
    if x.done.length = had.length + todo.length then .ok (x.s, 2 * beatsPerCell bs + 6 + 12 * mostActs x.done)
    else
      let rest := todo.filter fun b => !x.done.any fun y => y.1 == b
      .error ((rest.foldl (fun s b => s.ask a (256 * b)) x.s).modEng e fun y => { y with rows := x.done })

/-! Element reads and writes -/

/-- The code at a spot; an absent element reads +0. -/
def State.spotCode (s : State) (bits : Nat) : Option Spot → Nat
  | none => 0
  | some x =>
    let v := leNat (x.keys.map (memGet s.mem))
    if bits = 4 then v / 2 ^ x.half % 16 else v

/-- One element put into the bytes of one cell's write: keys with their new bytes. -/
def State.spotPut (s : State) (bits : Nat) (t : Table Byte) (x : Spot) (c : Nat) : Table Byte :=
  if bits = 4 then
    let k := x.keys.headD 0
    let old := ((t.find k).getD (memGet s.mem k)).toNat
    t.set k (BitVec.ofNat 8 (if x.half = 0 then old / 16 * 16 + c % 16 else old % 16 + 16 * (c % 16)))
  else (x.keys.zip (leBytes (bits / 8) c)).foldl (fun t kb => t.set kb.1 kb.2) t

/-- Elements written in ascending cell and then ascending k, the last at one place prevailing (R262), and the bytes
counted for TBARR (R273): each element's, a byte of nibbles once a cell (DEDUCED, log entry 21). -/
def State.putCells (s : State) (bits : Nat) (rows : List (List (Option Spot) × List Nat)) : State × Nat :=
  rows.foldl (fun acc row =>
    let live := (row.1.zip row.2).filterMap fun x => x.1.map fun sp => (sp, x.2)
    let t := live.foldl (fun t x => acc.1.spotPut bits t x.1 x.2) []
    let n := if bits = 4 then t.length else live.length * (bits / 8)
    ((runs t).foldl (fun s kb => s.write kb.1 kb.2) (acc.1.noteKeys (t.map (·.1)) (s.asPoster s.cur)), acc.2 + n)) (s, 0)

/-- The T engine of the current harness has written n bytes. -/
def State.countBytes (s : State) (n : Nat) : State :=
  s.modCtl s.cur fun c => { c with node := c.node.map fun (x : Node) => { x with tbytes := x.tbytes + n } }

/-! Records in use -/

/-- The age of the block in issue. -/
def EngSt.blkAge (x : EngSt) : Nat := (x.blk.map fun (b : Block) => b.cmd.age).getD 0

/-- Record n as the block in issue on engine e uses it (02 R59). -/
def Harness.brec (h : Harness) (e : Eng) (n : Nat) : Option BufRec := h.recAt n (h.eng e).blkAge

/-- The pair check of R54. -/
def Harness.scaleOk (h : Harness) (e : Eng) (n : Nat) (f : Rec) : Bool :=
  !isBlockFmt f.fmt ||
    (f.scf && decide (n < 63) && match h.brec e (n + 1) with
      | some b =>
        let g := b.fields
        g.fmt == 0x03 && g.ext0 == cdiv f.ext0 32 && g.ext1 == f.ext1 && g.ext2 == f.ext2
      | none => false)

/-- The checks of a barrier object named through a record, in the order of 10 R322: 16-byte alignment, R47, translation,
ROF, read permission; then its key, and its address. CELL of a space-1 address names the tower (02 R48)
(DEDUCED, log entry 22). -/
def State.barObject (s : State) (r : Nat) (b : BufRec) (d : Int) : Except Fail (Nat × Word) :=
  let f := b.fields
  let sp := space f.base
  let addr : Int := (offset f.base : Int) + d
  let limit : Int := if sp = 1 ∨ sp = 2 then 2 ^ 26 else 2 ^ 48
  let p := mkPtr sp (owner f.base) (addr % 2 ^ 48).toNat
  let bad (c : Nat) : Except Fail (Nat × Word) := .error { code := c, addr := p, acc := accAtomic }
  if addr % 16 ≠ 0 then bad cMISALIGNED
  else if addr < 0 ∨ addr ≥ limit then bad cBAD_ADDRESS
  else match s.recKey r b p 2 accAtomic with
    | .error e => .error e
    | .ok k => if f.rof then bad cREAD_ONLY else if b.nr then bad cNO_PERMISSION else .ok (k, p)

end Sys2Proof.Machine
end

