-- ==== Sys2Proof/Machine/Queue.lean ====
section
/-!
DEFINITION. Copy-engine queues and their watch entries: headers, entering and leaving, halt, retry and abandon, DONE
(09 R279, R284, R306-R308, R453; 14 R361).
-/

namespace Sys2Proof.Machine

/-- What a copy engine's own accesses to a queue need (16 R456). -/
def needCR : Need := { r := true, ce := true }
def needCW : Need := { w := true, ce := true }

def State.cew (s : State) (d n : Nat) : Cew := (s.die d).cew.getD n {}

def State.modCew (s : State) (d n : Nat) (f : Cew → Cew) : State :=
  s.modDie d fun x => { x with cew := x.cew.set n (f (x.cew.getD n {})) }

/-- A 64-bit word of a queue's header written by the engine. -/
def State.headerWrite (s : State) (c : Cew) (off : Nat) (w : Word) : Except Fail State :=
  s.devStore c.part ((c.hdr + off) % 2 ^ 48) (wordBytes [w]) needCW

/-- Bits of header word 3 set and cleared. -/
def State.headerFlags (s : State) (c : Cew) (set clear : Word) : Except Fail State :=
  match s.devWord c.part ((c.hdr + 24) % 2 ^ 48) needCR with
  | .error f => .error f
  | .ok w => s.headerWrite c 24 ((w &&& ~~~clear) ||| set)

/-- A write whose failure is passed over. -/
def orKeep (s : State) (x : Except Fail State) : State :=
  match x with
  | .ok t => t
  | .error _ => s

/-- The status of a halt by its failure: translation and permission give XLATE_HALT (R453). -/
def haltCode (f : Fail) : Nat := if f.code = cPOISON ∨ f.code = cMEM_ERROR then f.code else cXLATE_HALT

/-- Reserved bits of a header's words 3, 6, 7 and the range of SZ (R279). -/
def headerBad (ws : List Word) : Bool :=
  let w3 := ws.getD 3 0
  wf w3 11 53 != 0 || wf w3 5 4 != 0 || wf w3 0 5 == 0 || decide (wf w3 0 5 > 16) ||
  wf (ws.getD 6 0) 11 53 != 0 || wf (ws.getD 7 0) 48 16 != 0

/-- The fields that hardware latches from a header. -/
def latchHeader (c : Cew) (ws : List Word) : Cew :=
  { c with sz := wf (ws.getD 3 0) 0 5, rtbase := ws.getD 4 0, stbase := ws.getD 5 0, ownrank := wf (ws.getD 6 0) 0 9,
           ownpart := wf (ws.getD 6 0) 9 2 }

/-! The queue of a packet: the one that its watch entry names, or one that has left it (14 R361: packets already accepted
run to their end) -/

/-- The queue of entering `ent` at watch entry n. -/
def State.queueOf (s : State) (d n ent : Nat) : Cew :=
  let c := s.cew d n
  if c.ent = ent then c
  else (((s.die d).old.find? fun x => x.1 == n && x.2.ent == ent).map (·.2)).getD c

/-- That queue changed. -/
def State.modQueue (s : State) (d n ent : Nat) (f : Cew → Cew) : State :=
  if (s.cew d n).ent = ent then s.modCew d n f
  else s.modDie d fun x => { x with old := x.old.map fun y => if y.1 = n ∧ y.2.ent = ent then (n, f y.2) else y }

/-- Packets of a queue that have not ended. -/
def State.busyQueue (s : State) (d n ent : Nat) : Bool := (s.die d).pkts.any fun k => k.id.cew == n && k.id.ent == ent

/-- Another queue takes the watch entry: the one that it held stays while packets of it run; `c` is the entry from now on. -/
def State.replaceQueue (s : State) (d n : Nat) (c : Cew) : State :=
  let old := s.cew d n
  let kept := (s.die d).old.filter fun x => !(x.1 == n && x.2.ent == c.ent)
  let kept := if old.ent ≠ c.ent ∧ s.busyQueue d n old.ent then kept ++ [(n, { old with en := false })] else kept
  (s.modDie d fun x => { x with old := kept }).modCew d n fun _ => c

/-- The queue of a header that still has packets at a watch entry of die d, or a halt: entered again, it goes on. -/
def State.sameQueue (s : State) (d n hdr p : Nat) : Option Cew :=
  let c := s.cew d n
  if c.hdr = hdr ∧ c.part = p ∧ (c.halt ∨ s.busyQueue d n c.ent) then some c
  else ((s.die d).old.find? fun x => x.1 == n && x.2.hdr == hdr && x.2.part == p).map (·.2)

/-- The queue halts (R306, R453): HALT in the watch entry and, where it can be written, in the header; the supervisor is
informed, by the rank given. -/
def State.queueHalt (s : State) (d n ent code idx unit : Nat) (rank : Option Nat := none) : State :=
  let c := s.queueOf d n ent
  let s := s.modQueue d n ent fun c => { c with halt := true, bad := some idx }
  let s := orKeep s (s.headerWrite c 56 (BitVec.ofNat 64 (code * 2 ^ 32 + unit)))
  let s := orKeep s (s.headerFlags c (BitVec.ofNat 64 (2 ^ 9 + 2 ^ 10)) 0)
  s.message d code (rank.getD c.ownrank) (BitVec.ofNat 64 c.hdr) (BitVec.ofNat 64 idx)

/-- A queue enters a watch entry with the header words `ws` (R279, R361): refused, or watched from RDIDX on. Where packets of
the same queue still run it goes on with them, and DONE does not pass them. -/
def State.queueTake (s : State) (d n hdr p : Nat) (ws : List Word) : State :=
  if headerBad ws then s.replaceQueue d n { ref := true, hdr := hdr, part := p, ent := s.nid + 1 }
  else
    let rd := (ws.getD 1 0).toNat
    let halt := wf (ws.getD 3 0) 9 1 == 1
    match s.sameQueue d n hdr p with
    | some c =>
      s.replaceQueue d n { latchHeader c ws with
        en := true, ref := false, unread := false, acc := rd, done := if c.unread then rd else c.done, halt := halt || c.halt }
    | none =>
      s.replaceQueue d n { latchHeader {} ws with en := true, hdr := hdr, part := p, ent := s.nid + 1, acc := rd, done := rd
                                                  halt := halt }

/-- A watch-entry write with EN = 1 (R361): the header is read and checked; a refusal leaves EN = 0 and sets REF. A header that
cannot be read halts the queue, and the supervisor is informed with rank 0 (R453). -/
def State.queueEnter (s : State) (d n hdr : Nat) : State :=
  let p := s.partOfDie d
  let s := s.devScrub p hdr 64
  match s.devRead p hdr 64 needCR with
  | .error f =>
    let s := s.tally (128 * d) f
    let s := s.replaceQueue d n { en := true, hdr := hdr, part := p, ent := s.nid + 1, unread := true }
    { s.queueHalt d n (s.nid + 1) (haltCode f) 0 0 (some 0) with nid := s.nid + 1 }
  | .ok bs => { s.queueTake d n hdr p (bytesWords bs) with nid := s.nid + 1 }

/-- A watch-entry write with EN = 0 (R361): acceptance stops. Where it names another header, the queue leaves the entry, and
its packets run to their end in it. -/
def State.queueStop (s : State) (d n hdr : Nat) : State :=
  if (s.cew d n).hdr = hdr then s.modCew d n fun c => { c with en := false }
  else
    { s.replaceQueue d n { hdr := hdr, ref := (s.cew d n).ref, part := s.partOfDie d, ent := s.nid + 1 } with nid := s.nid + 1 }

/-- The done sequence after packet `idx` has ended (R279). -/
def doneWalk : Nat → Nat → List Nat → Nat × List Nat
  | 0, done, late => (done, late)
  | fuel + 1, done, late =>
    if late.contains done then doneWalk fuel (done + 1) (late.filter (· != done)) else (done, late)

/-- DONE rises as far as packets have ended (R284), where the header can be written. -/
def State.raiseDone (s : State) (d n ent : Nat) : Except Fail State :=
  let c := s.queueOf d n ent
  let (done, late) := doneWalk (c.late.length + 1) c.done c.late
  if done = c.done then .ok s
  else (s.headerWrite c 16 (BitVec.ofNat 64 done)).map fun s => s.modQueue d n ent fun c => { c with done := done, late := late }

/-- The rank that a queue's messages name where OWNRANK, in its header, can still be read (R453). -/
def State.headerRank (s : State) (c : Cew) : Nat :=
  match s.devWord c.part ((c.hdr + 48) % 2 ^ 48) needCR with
  | .ok w => if c.unread then wf w 0 9 else c.ownrank
  | .error _ => 0

/-- The clearing of a halt fails at the header: the queue stays halted, at the same packet as before if at any, and the
supervisor is informed (R453; DEDUCED, log entry 42). -/
def State.haltAgain (s : State) (d n : Nat) (f : Fail) : State :=
  let c := s.cew d n
  let s := s.tally (128 * d) f
  (s.queueHalt d n c.ent (haltCode f) (c.bad.getD c.acc) 0 (some (s.headerRank c))).modCew d n fun x => { x with bad := c.bad }

/-- HALT is cleared in the header and the watch entry, and the header is read again but for WRIDX and DONE (R279, R361); none
where an access of these fails. -/
def State.clearHalt (s : State) (d n : Nat) : Except Fail State :=
  let c := s.cew d n
  match s.headerFlags c 0 (BitVec.ofNat 64 (2 ^ 9)) with
  | .error f => .error f
  | .ok s =>
    match s.devRead c.part c.hdr 64 needCR with
    | .error f => .error f
    | .ok bs =>
      let ws := bytesWords bs
      .ok (if headerBad ws then s.modCew d n fun c => { c with halt := false, bad := none, en := false, ref := true }
      else
        let rd := (ws.getD 1 0).toNat
        s.modCew d n fun c => { latchHeader c ws with
          halt := false, bad := none, acc := rd, unread := false, done := if c.unread then rd else c.done })

def State.modPkt (s : State) (q : PktId) (f : Pkt → Pkt) : State :=
  s.modDie q.die fun x => { x with pkts := x.pkts.map fun k => if k.id = q then f k else k }

/-- A packet goes. A participant of a collective instance is kept for the others of its instance. -/
def State.dropPkt (s : State) (q : PktId) : State :=
  match (s.die q.die).pkts.find? fun k => k.id == q with
  | none => s
  | some k =>
    let s := s.modDie q.die fun x => { x with pkts := x.pkts.filter fun k => k.id != q }
    if k.mates.isEmpty then s
    else if k.mates.any fun m => (s.die m.die).pkts.any fun j => j.id == m then s.modDie q.die fun x => { x with spent := x.spent ++ [k] }
    else (List.range s.nDies).foldl (fun s d => s.modDie d fun x =>
      { x with spent := x.spent.filter fun j => !k.mates.contains j.id }) s

/-- Queues that have left their watch entries and have no packet left are forgotten. -/
def State.dropQueues (s : State) (d : Nat) : State :=
  s.modDie d fun x => { x with old := x.old.filter fun y => x.pkts.any fun k => k.id.cew == y.1 && k.id.ent == y.2.ent }

/-- The halt of a packet that stopped, or whose completion did, as code and unit. -/
def Pkt.haltOf (k : Pkt) : Option (Nat × Nat) :=
  match k.st with
  | .halted code u => some (code, u)
  | _ => k.stuck.map fun code => (code, k.unit)

/-- Another packet of the queue that met its halting fault while the queue was halted: its halt stands now
(DEDUCED, log entry 42). -/
def State.nextHalt (s : State) (d n : Nat) : State :=
  let c := s.cew d n
  if c.halt then s
  else match (s.die d).pkts.findSome? fun k =>
      if k.id.cew = n ∧ k.id.ent = c.ent then k.haltOf.map fun h => (k.id.idx, h) else none with
  | some (idx, code, u) => s.queueHalt d n c.ent code idx u
  | none => s

/-- After a halt has been cleared: a DONE that could not be written is written, and the next halt stands. -/
def State.afterHalt (s : State) (d n : Nat) : State :=
  let c := s.cew d n
  match s.raiseDone d n c.ent with
  | .ok s => s.nextHalt d n
  | .error f => s.queueHalt d n c.ent (haltCode f) c.done 0

/-- The accesses to the header that ending a halt makes check their granules (17 R407). -/
def State.scrubHeader (s : State) (d n : Nat) : State :=
  let c := s.cew d n
  if c.halt then s.devScrub c.part c.hdr 64 else s

/-- Retry (R308): the halted packet continues from unit FUNIT; a failed access of the engine is made again. Where HALT cannot
be cleared, the queue and its packet stay as they were. -/
def State.queueRetry (s0 : State) (d n : Nat) : State :=
  let s := s0.scrubHeader d n
  let c := s.cew d n
  if !c.halt then s
  else match s.clearHalt d n with
    | .error f => s.haltAgain d n f
    | .ok s =>
      let s := match c.bad with
        | some idx => s.modPkt ⟨d, n, idx, c.ent⟩ fun k => match k.st with
          | .halted _ u => { k with st := if k.mates.isEmpty then .ready else .begun, unit := u }
          | _ => { k with stuck := none }
        | none => s
      s.afterHalt d n

/-- Abandon (R308, R453): the status stays; DONE rises past the packet once the header can be written; no flag and no barrier
subtraction. A queue whose header could not be read leaves its entry. -/
def State.queueAbandon (s0 : State) (d n : Nat) : State :=
  let s := s0.scrubHeader d n
  let c := s.cew d n
  if !c.halt then s
  else if c.unread then s.modCew d n fun c => { c with en := false, halt := false, bad := none }
  else match s.clearHalt d n with
    | .error f => s.haltAgain d n f
    | .ok s => match c.bad with
      | none => s.afterHalt d n
      | some idx =>
        let had := s.busyQueue d n c.ent && (s.die d).pkts.any fun k => k.id == ⟨d, n, idx, c.ent⟩
        let s := (s.dropPkt ⟨d, n, idx, c.ent⟩).dropQueues d
        let s := if idx = c.acc ∧ !had then
            let s := s.modCew d n fun c => { c with acc := c.acc + 1 }
            orKeep s (s.headerWrite c 8 (BitVec.ofNat 64 (c.acc + 1)))
          else s
        let s := if had ∨ idx = c.acc then s.modCew d n fun c => { c with late := idx :: c.late } else s
        s.afterHalt d n

end Sys2Proof.Machine
end

