-- ==== Sys2Proof/Machine/Packets.lean ====
section
/-!
DEFINITION. Copy packets at acceptance: their layouts, the acceptance checks in their order, pins and latches
(09 R280-R283, R285-R296, R301-R303; 16 R396), and the acceptance itself (R281, R453).
-/

namespace Sys2Proof

open Sys2Proof.Machine

/-! Fields of a packet (R282) -/

def Packet.word (c : Packet) (n : Nat) : Word := [c.w0, c.w1, c.w2, c.w3, c.w4, c.w5, c.w6, c.w7].getD n 0

def Packet.tag (c : Packet) : Nat := wf c.w0 32 32
def Packet.type (c : Packet) : Nat := wf c.w0 24 8
def Packet.cmode (c : Packet) : Nat := wf c.w0 22 2
def Packet.frz (c : Packet) : Bool := wf c.w0 21 1 == 1
def Packet.ord (c : Packet) : Bool := wf c.w0 20 1 == 1
def Packet.scope (c : Packet) : Nat := wf c.w0 17 3
def Packet.rnd (c : Packet) : Nat := wf c.w0 14 3
def Packet.group (c : Packet) : Nat := wf c.w0 0 8

def Packet.coll (c : Packet) : Bool := c.type == 0x18 || c.type == 0x19

def Packet.withBarrier (c : Packet) : Bool := c.cmode % 2 == 1
def Packet.withFlag (c : Packet) : Bool := decide (2 ≤ c.cmode)

/-! Grid fields (R291), collective fields (R301) -/

def Packet.bnd (c : Packet) (d : Nat) : Nat := wf c.w2 (32 + 2 * d) 2
def Packet.coarsen (c : Packet) (d : Nat) : Bool := wf c.w2 (38 + d) 1 == 1
def Packet.gmap (c : Packet) : Nat := wf c.w2 41 1
def Packet.gadd (c : Packet) : Bool := wf c.w2 42 1 == 1
def Packet.halo (c : Packet) (d : Nat) : Nat := wf c.w2 (48 + 4 * d) 4

def Packet.collId (c : Packet) : Nat := wf c.w2 32 16
def Packet.op (c : Packet) : Nat := wf c.w2 48 4
def Packet.wire (c : Packet) : Nat := wf c.w2 52 4
def Packet.resv (c : Packet) : Bool := wf c.w2 56 1 == 1
def Packet.shards (c : Packet) : Nat := wf c.w3 0 16
def Packet.shard (c : Packet) : Nat := wf c.w3 16 16

/-- The exponent e of EBZ (R296). -/
def Packet.ebExp (c : Packet) : Int := sextNat 16 (wf c.w2 0 16)

end Sys2Proof

namespace Sys2Proof.Machine

/-- The packet types (R283). -/
def tCOPY : Nat := 0x01
def tCOPY4D : Nat := 0x02
def tBCAST : Nat := 0x03
def tFILL : Nat := 0x04
def tGATHER : Nat := 0x05
def tGRIDR : Nat := 0x08
def tGRIDP : Nat := 0x09
def tGRIDC : Nat := 0x0A
def tEBZ : Nat := 0x10
def tEBX : Nat := 0x11
def tCRED : Nat := 0x18
def tCGATH : Nat := 0x19

/-! Layout (R283-R301) -/

/-- The bits of words 1-4 that a type's layout names; none for an unassigned type. -/
def layoutMasks (ty : Nat) : Option (List Nat) :=
  let all := 2 ^ 64 - 1
  let grid := 0x0FFF003FFFFFFFFF
  if ty = tCOPY then some [all, 2 ^ 48 - 1, 2 ^ 48 - 1, 2 ^ 40 - 1]
  else if ty = tCOPY4D then some [all, all, all, all]
  else if ty = tBCAST then some [all, 2 ^ 48 - 1, 2 ^ 24 - 1, 2 ^ 22 - 1]
  else if ty = tFILL then some [all - (2 ^ 32 - 1), 2 ^ 48 - 1, all, 2 ^ 40 - 1]
  else if ty = tGATHER then some [all, all, 2 ^ 48 - 1, 0]
  else if ty = tGRIDR then some [all, grid + 2 ^ 38 * 15, all, 0]
  else if ty = tGRIDP then some [all, grid + 2 ^ 38 * 31, all, 0]
  else if ty = tGRIDC then some [all, 0x0FFF003F00000000, all, 0]
  else if ty = tEBZ then some [all, 0xFFFF, 0, 0]
  else if ty = tEBX then some [all, 0, 0, 0]
  else if ty = tCRED then some [all, 2 ^ 57 - 1, 2 ^ 32 - 1, all]
  else if ty = tCGATH then some [all, 0x0000FFFF00000000, 2 ^ 32 - 1, 0]
  else none

/-- The highest rounding code of a type: its own seed lets it round by SR (R283, R286). -/
def maxRnd (ty : Nat) : Nat := if ty = tCOPY4D then 3 else if ty = tGRIDR ∨ ty = tGRIDP ∨ ty = tGRIDC ∨ ty = tCRED then 4 else 0

/-- Illegal field values of a type. -/
def packetBadFields (c : Packet) : Bool :=
  let ty := c.type
  if ty = tCOPY4D then [0, 16, 32, 48].any fun i => wf c.w4 i 16 == 0
  else if ty = tBCAST then wf c.w3 0 16 == 0 || wf c.w3 16 8 == 0
  else if ty = tGATHER then wf c.w2 32 32 == 0
  else if ty = tGRIDR ∨ ty = tGRIDP ∨ ty = tGRIDC then (List.range 3).any fun d => c.bnd d == 3
  else if ty = tEBZ then decide (c.ebExp < -1075) || decide (970 < c.ebExp)
  else if ty = tCRED then
    decide (2 < c.op) || decide (2 < c.wire) || (c.op != 0 && (c.wire != 0 || c.resv)) || decide (c.shards ≤ c.shard)
  else if ty = tCGATH then decide (c.shards ≤ c.shard)
  else false

/-- The first check of R286: word 0 and the type's layout. -/
def packetBadLayout (c : Packet) : Bool :=
  match layoutMasks c.type with
  | none => true
  | some ms =>
    (ms.zipIdx.any fun x => (c.word (x.2 + 1)).toNat &&& (2 ^ 64 - 1 - x.1) != 0) || wf c.w0 8 6 != 0 ||
    decide (maxRnd c.type < c.rnd) || (c.group != 0 && c.scope != 1 && !c.coll) ||
    (!c.withFlag && (c.w5 != 0 || c.w7 != 0)) || (!c.withBarrier && c.w6 != 0) || packetBadFields c

/-! Operands (R286) -/

/-- An operand handle: its word and bit position, and whether it is read and written. -/
structure Opnd where
  word : Nat
  lo : Nat
  r : Bool
  w : Bool
deriving DecidableEq, Repr

/-- The operands of a packet in ascending word and bit position. -/
def packetOpnds (c : Packet) : List Opnd :=
  let src : Opnd := ⟨1, 0, true, false⟩
  let dst : Opnd := ⟨1, 32, false, true⟩
  let third : Opnd := ⟨2, 0, true, false⟩
  let ty := c.type
  if ty = tFILL then [dst]
  else if ty = tGATHER ∨ ty = tGRIDR then [src, dst, third]
  else if ty = tGRIDP then [src, { dst with r := c.gadd }, third]
  else if ty = tCRED ∧ c.resv then [src, dst, { third with w := true }]
  else [src, dst]

/-- A status and its detail. -/
abbrev Status := Nat × Nat

/-- A check of R286. -/
def demand (ok : Bool) (code : Nat) : Except Status Unit := if ok then .ok () else .error (code, 0)

def Poster.outside : Poster → Bool
  | .host => true
  | .peer => true
  | _ => false

/-- The entry that an operand names, with the checks of R61 and R286; DETAIL gives the word. A record with a reserved format
code answers BAD_BUFREC, as step 4 of R286 does; 03 R73 names the bad-format status for it (DEDUCED, log entry 40). -/
def State.packetEntry (s : State) (c : Cew) (by' : Poster) (k : Packet) (o : Opnd) : Except Status Entry :=
  let h := wf (k.word o.word) o.lo 32
  if h / 2 ^ 12 ≥ (s.part c.part).rtlim.toNat then .error (cBAD_ADDRESS, o.word)
  else match s.devRead c.part ((offset c.rtbase + 64 * (h / 2 ^ 12)) % 2 ^ 48) 40 needCR with
    | .error f => .error (f.code, o.word)
    | .ok bs =>
      let e := entryOf (bytesWords bs)
      let code := entryCheck e (h % 2 ^ 12) 0 true
      if code ≠ cOK then .error (code, o.word)
      else if wf e.w4 19 1 = 0 ∨ (by'.outside ∧ wf e.w4 20 1 = 0) ∨ (o.r ∧ wf e.w4 17 1 = 0) ∨ (o.w ∧ wf e.w4 18 1 = 0) then
        .error (cNO_PERMISSION, o.word)
      else if !e.record.ok (wf e.w3 62 2) then .error (cBAD_BUFREC, o.word)
      else .ok e

/-! Ranges -/

/-- Bytes of a record's space that a packet can touch: absolute offsets, low inclusive, high exclusive. -/
structure Reach where
  base : Word
  lo : Int
  hi : Int
  r : Bool
  w : Bool
deriving DecidableEq, Repr

/-- The limit of a space (02 R46). -/
def spaceLimit (sp : Nat) : Int := if sp = 1 ∨ sp = 2 then 2 ^ 26 else 2 ^ 48

def Reach.inside (x : Reach) : Bool := decide (0 ≤ x.lo) && decide (x.hi ≤ spaceLimit (space x.base))

/-- n bytes at a byte distance from a record's BASE. -/
def Rec.reach (f : Rec) (off : Int) (n : Nat) (r w : Bool) : Reach :=
  ⟨f.base, offset f.base + off, offset f.base + off + n, r, w⟩

/-- The hull of the elements in a box of indices, bounds inclusive. -/
def Rec.hull (f : Rec) (a0 b0 a1 b1 a2 b2 : Int) (r w : Bool) : Reach :=
  let lo := a0 * f.bits / 8 + min (a1 * f.s1) (b1 * f.s1) + min (a2 * f.s2) (b2 * f.s2)
  let hi := b0 * f.bits / 8 + max (a1 * f.s1) (b1 * f.s1) + max (a2 * f.s2) (b2 * f.s2) + f.bytes
  ⟨f.base, offset f.base + lo, offset f.base + hi, r, w⟩

/-- A record's span as a reach; nothing for an empty span. -/
def Rec.spanReach (f : Rec) (r w : Bool) : List Reach :=
  match f.span with
  | none => []
  | some (lo, hi) => [⟨f.base, offset f.base + lo, offset f.base + hi, r, w⟩]

/-- Whether n bytes from element (0, 0, 0) plus an offset lie in the span (R287). -/
def Rec.inSpan (f : Rec) (off n : Nat) : Bool :=
  match f.span with
  | none => false
  | some (lo, hi) => decide (lo ≤ (off : Int)) && decide ((off + n : Int) ≤ hi)

/-- The size of the span in bytes. -/
def Rec.spanSize (f : Rec) : Nat := match f.span with
  | none => 0
  | some (lo, hi) => (hi - lo).toNat

/-- The number of elements. -/
def Rec.count (f : Rec) : Nat := f.ext0 * f.ext1 * f.ext2

/-- R296: no gap between rows and planes. -/
def Rec.dense (f : Rec) : Bool := f.s1 == ((f.ext0 * f.bytes : Nat) : Int) && f.s2 == f.s1 * f.ext1

/-- Formats that convert (R289). -/
def convFmt (f : Nat) : Bool := decide (f ≤ 0x06) || (decide (0x10 ≤ f) && decide (f ≤ 0x17))

/-- What the geometry of a packet gives: the ranges it can touch, its table, the range and the pins of that. -/
structure Geom where
  reach : List Reach := []
  data : List Byte := []
  table : List Reach := []
  pins : List Leaf := []

/-- The pins of a range of space 0, or the status (R286 step 7); other spaces only keep to their limit. -/
def State.reachPins (s : State) (p : Nat) (x : Reach) : Except Status (List Leaf) :=
  if x.hi ≤ x.lo then .ok []
  else if !x.inside then .error (cBAD_ADDRESS, 0)
  else if space x.base ≠ 0 then .ok []
  else
    let lo := x.lo.toNat
    let hi := x.hi.toNat
    match s.pinPages p { r := x.r, w := x.w, ce := true } (if x.w then accWrite else accRead) hi
        ((hi - 1) / 2 ^ 16 - lo / 2 ^ 16 + 1) lo with
    | .ok ls => .ok ls
    | .error f => .error (f.code, 0)

/-- The key of an address of a packet: inside its pins the pinned translation or, where the entry was changed since,
either frame; XLATE_HALT where that frame is outside HBM (16 R394, R396). -/
def State.pinKey (s : State) (p : Nat) (pins : List Leaf) (a : Word) : Except Fail Nat :=
  if space a = 0 then
    match pins.find? fun l => l.covers (offset a) with
    | none => .error { code := cXLATE_HALT, addr := a }
    | some l =>
      match s.walk p (offset a) with
      | .ok l' => .ok (if l' ≠ l ∧ s.stale (offset a) then l'.pa (offset a) else l.pa (offset a))
      | .error f =>
        if f.kind = 4 ∧ s.stale (offset a) then .error { code := cXLATE_HALT, addr := a } else .ok (l.pa (offset a))
  else if space a = 4 then
    (if s.linkUp (owner a) then .ok (s.peerKey a) else .error { code := cMEM_ERROR, addr := a })
  else .ok a.toNat

/-- The keys of n bytes at an absolute offset of a record's space. -/
def State.pinKeys (s : State) (p : Nat) (pins : List Leaf) (base : Word) (at' : Int) (n : Nat) : Except Fail (List Nat) :=
  (List.range n).mapM fun i => s.pinKey p pins (mkPtr (space base) (owner base) (at'.toNat + i))

/-- Bytes as a packet reads them. -/
def State.keyBytes (s : State) (ks : List Nat) : Except Fail (List Byte) :=
  match ks.findSome? fun k => (s.consumes k).map fun c => (k, c) with
  | some (k, c) => .error { code := c, gran := some k }
  | none => .ok (ks.map (memGet s.mem))

/-! Weight tables (R294) -/

/-- The length in bytes that a table's header asks for: the engine reads that much of the record's span (DESIGN CHOICE, log
entry 65). -/
def tableLen (h : Nat) : Nat :=
  if field h 0 8 = 2 then
    (List.range 8).foldl (fun m p => let n := field h (16 + 4 * p) 4; if n = 0 then m else max m (8 + 64 * p + 8 * n)) 8
  else 8 + 8 * field h 8 8

/-- The entry at a byte offset of a table. -/
def tableEntryAt (t : List Byte) (off : Nat) : Nat := leNat ((t.drop off).take 8)

/-- The offsets of the entries of a table. -/
def tableOffs (h : Nat) : List Nat :=
  if field h 0 8 = 2 then
    (List.range 8).flatMap fun p => (List.range (field h (16 + 4 * p) 4)).map fun t => 8 + 64 * p + 8 * t
  else (List.range (field h 8 8)).map fun t => 8 + 8 * t

/-- The parity classes that some fine element belongs to. -/
def tableClasses (c : Packet) (f : Rec) : List Nat :=
  (List.range 8).filter fun p => (List.range 3).all fun d =>
    field p d 1 == 0 || (c.coarsen d && decide (1 < [f.ext0, f.ext1, f.ext2].getD d 0))

/-- R294: BAD_TABLE. -/
def badTable (c : Packet) (fine : Rec) (t : List Byte) : Bool :=
  let h := leNat (t.take 8)
  let prol := c.type = tGRIDP
  decide (t.length < 8) || field h 48 16 != 0 || field h 0 8 != (if prol then 2 else 1) ||
  (if prol then
    field h 8 8 != 0 || ((List.range 8).any fun p => decide (8 < field h (16 + 4 * p) 4)) ||
      (tableClasses c fine).any fun p => field h (16 + 4 * p) 4 == 0
  else field h 16 32 != 0 || field h 8 8 == 0 || decide (27 < field h 8 8)) ||
  decide (t.length < tableLen h) ||
  (tableOffs h).any fun o =>
    let e := tableEntryAt t o
    field e 56 8 != 0 || field e 23 8 == 255

/-- The first n bytes of a table whose range is pinned, and what the read does to memory is in the keys. -/
def State.tablePart (s : State) (p : Nat) (pins : List Leaf) (x : Reach) (n : Nat) : Except Status (List Nat × List Byte) :=
  match s.pinKeys p pins x.base x.lo n with
  | .error e => .error (e.code, 0)
  | .ok ks => match s.keyBytes ks with
    | .error e => .error (e.code, 0)
    | .ok bs => .ok (ks, bs)

/-- The table of a grid packet: its range pinned, then read. -/
def State.readTable (s : State) (p : Nat) (f : Rec) : Except Status (List Byte × List Leaf) :=
  match f.spanReach true false with
  | [x] =>
    match s.reachPins p x with
    | .error e => .error e
    | .ok pins =>
      match s.tablePart p pins x (min f.spanSize 8) with
      | .error e => .error e
      | .ok hd => match s.tablePart p pins x (min f.spanSize (tableLen (leNat hd.2))) with
        | .error e => .error e
        | .ok t => .ok (t.2, pins)
  | _ => .ok ([], [])

/-- The keys of a table that the engine reads. -/
def State.tableKeys (s : State) (p : Nat) (f : Rec) : List Nat :=
  match f.spanReach true false with
  | [x] =>
    match s.reachPins p x with
    | .error _ => []
    | .ok pins =>
      let ks (n : Nat) : List Nat := (s.pinKeys p pins x.base x.lo n).toOption.getD []
      match s.tablePart p pins x (min f.spanSize 8) with
      | .error _ => ks (min f.spanSize 8)
      | .ok hd => ks (min f.spanSize (tableLen (leNat hd.2)))
  | _ => []

/-! Boxes of COPY4D (R289) and rows of GATHER (R290) -/

/-- The index triples of a box from a start, dimension 0 fastest. -/
def boxIdx (x0 x1 x2 : Int) (n0 n1 n2 : Nat) : List (Int × Int × Int) :=
  (List.range n2).flatMap fun (k2 : Nat) => (List.range n1).flatMap fun (k1 : Nat) => (List.range n0).map fun (k0 : Nat) =>
    (x0 + k0, x1 + k1, x2 + k2)

/-- The source and destination indices of a COPY4D in loop order. -/
def boxPairs (c : Packet) : List ((Int × Int × Int) × (Int × Int × Int)) :=
  let i (w : Word) (n : Nat) : Int := sextNat 16 (wf w (16 * n) 16)
  let n (k : Nat) : Nat := wf c.w4 (16 * k) 16
  (List.range (n 3)).flatMap fun (t : Nat) =>
    (boxIdx (i c.w2 0) (i c.w2 1) (i c.w2 2 + t * i c.w2 3) (n 0) (n 1) (n 2)).zip
      (boxIdx (i c.w3 0) (i c.w3 1) (i c.w3 2 + t * i c.w3 3) (n 0) (n 1) (n 2))

/-- The places of one element pair under the two bounds modes. -/
def pairPlaces (src dst : Rec) (x : (Int × Int × Int) × (Int × Int × Int)) :
    Except Nat (Option (Int × Nat) × Option (Int × Nat)) :=
  match src.locate false x.1.1 x.1.2.1 x.1.2.2, dst.locate true x.2.1 x.2.2.1 x.2.2.2 with
  | .error c, _ => .error c
  | _, .error c => .error c
  | .ok a, .ok b => .ok (a, b)

/-- The reach of one located element. -/
def Rec.placeReach (f : Rec) (r w : Bool) : Option (Int × Nat) → List Reach
  | none => []
  | some (d, _) => [f.reach d f.bytes r w]

/-! Geometry by type (R286 step 6) -/

def geomCopy (c : Packet) (src dst : Rec) : Except Status Geom := do
  let n := wf c.w4 0 40
  if n = 0 then return {}
  demand (src.inSpan (wf c.w2 0 48) n && dst.inSpan (wf c.w3 0 48) n) cBOUNDS
  return { reach := [src.reach (wf c.w2 0 48) n true false, dst.reach (wf c.w3 0 48) n false true] }

def geomFill (c : Packet) (dst : Rec) : Except Status Geom := do
  let n := wf c.w4 0 40
  if n = 0 then return {}
  demand (dst.inSpan (wf c.w2 0 48) n) cBOUNDS
  return { reach := [dst.reach (wf c.w2 0 48) n false true] }

/-- The cell-local byte offset of a BCAST (R288). -/
def bcastAt (dst : Rec) : Nat := offset dst.base % 2 ^ 22

def geomBcast (c : Packet) (src dst : Rec) : Except Status Geom := do
  let n := wf c.w4 0 22
  if n = 0 then return {}
  demand (src.inSpan (wf c.w2 0 48) n && dst.inSpan 0 n && decide (bcastAt dst + n ≤ 2 ^ 22)) cBOUNDS
  return { reach := [src.reach (wf c.w2 0 48) n true false] }

def geomCopy4d (c : Packet) (src dst : Rec) : Except Status Geom := do
  demand ((convFmt src.fmt && convFmt dst.fmt) || (!convFmt src.fmt && src.fmt == dst.fmt)) cBAD_FORMAT
  demand (convFmt src.fmt || c.rnd == 0) cBAD_PACKET
  match (boxPairs c).mapM (pairPlaces src dst) with
  | .error e => .error (e, 0)
  | .ok ps => return { reach := ps.flatMap fun x => src.placeReach true false x.1 ++ dst.placeReach false true x.2 }

/-- The first and the last index of dimension 0 that n positions from `first` on reach under the record's bounds mode. -/
def Rec.indexRange (f : Rec) (first n : Nat) : Int × Int :=
  let top : Int := (f.ext0 : Int) - 1
  if f.bounds = 3 then
    if first % f.ext0 + n ≤ f.ext0 then ((first % f.ext0 : Nat), (first % f.ext0 + n - 1 : Nat)) else (0, top)
  else if f.bounds = 2 then (min (first : Int) top, min ((first : Int) + n - 1) top)
  else (first, min ((first : Int) + n - 1) top)

def geomGather (c : Packet) (src dst idx : Rec) : Except Status Geom := do
  let n := wf c.w2 32 32
  let first := wf c.w3 0 48
  demand (idx.fmt == 0x04 && src.fmt == dst.fmt && src.ext0 == dst.ext0) cBAD_FORMAT
  let inRange (x : Except Nat (Option (Int × Nat))) : Bool := match x with
    | .ok _ => true
    | .error _ => false
  let ends (m : Nat) := [0, m]
  demand ((ends (n - 1)).all fun k => inRange (idx.locate false (first + k : Nat) 0 0)) cBOUNDS
  demand ((ends (n - 1)).all fun k => inRange ({ dst with ext0 := max 1 dst.ext0 }.locate true 0 (k : Nat) 0)) cBOUNDS
  let rows := min n dst.ext1
  let hullIf (ok : Bool) (x : Reach) : List Reach := if ok then [x] else []
  let (lo, hi) := idx.indexRange first n
  let a := hullIf (decide (lo ≤ hi) && idx.ext1 != 0 && idx.ext2 != 0) (idx.hull lo hi 0 0 0 0 true false)
  if src.ext0 = 0 then return { reach := a }
  let b := hullIf (src.ext1 != 0 && src.ext2 != 0) (src.hull 0 (src.ext0 - 1 : Nat) 0 (src.ext1 - 1 : Nat) 0 0 true false)
  let d := hullIf (rows != 0 && dst.ext2 != 0) (dst.hull 0 (dst.ext0 - 1 : Nat) 0 (rows - 1 : Nat) 0 0 false true)
  return { reach := a ++ b ++ d }

/-- The extent of a dimension. -/
def Rec.ext (f : Rec) (d : Nat) : Nat := if d = 0 then f.ext0 else if d = 1 then f.ext1 else f.ext2

/-- A grid record's interior with its halo. -/
def Rec.band (f : Rec) (h : Nat → Nat) (r w : Bool) : Reach :=
  f.hull (-(h 0 : Int)) (f.ext0 + h 0 - 1 : Int) (-(h 1 : Int)) (f.ext1 + h 1 - 1 : Int) (-(h 2 : Int)) (f.ext2 + h 2 - 1 : Int) r w

def State.geomGrid (s : State) (p : Nat) (c : Packet) (src dst : Rec) (table : Option Rec) : Except Status Geom := do
  let gridFmt (f : Nat) : Bool := decide (0x10 ≤ f) && decide (f ≤ 0x13)
  let ty := c.type
  demand (gridFmt src.fmt && (gridFmt dst.fmt || dst.fmt == 0x14 || dst.fmt == 0x15)) cBAD_FORMAT
  let (fine, coarse) := if ty = tGRIDR then (src, dst) else (dst, src)
  let fits (d : Nat) : Bool :=
    if ty ≠ tGRIDC ∧ c.coarsen d then
      fine.ext d + (if c.gmap = 0 then 1 else 0) == 2 * coarse.ext d
    else fine.ext d == coarse.ext d
  let haloS := if ty = tGRIDC then fun _ => 0 else c.halo
  let haloD := if ty = tGRIDC then c.halo else fun _ => 0
  let bandS := src.band haloS true false
  let bandD := dst.band haloD (ty == tGRIDP && c.gadd) true
  demand (src.count != 0 && dst.count != 0 && (List.range 3).all fits) cBAD_GRID
  demand ((if ty = tGRIDC then bandD else bandS).inside) cBAD_GRID
  match table with
  | none => return { reach := [bandS, bandD] }
  | some f =>
    let (t, pins) ← s.readTable p f
    demand (!badTable c fine t) cBAD_TABLE
    return { reach := [bandS, bandD], data := t, table := f.spanReach true false, pins := pins }

def geomEbz (c : Packet) (src dst : Rec) : Except Status Geom := do
  demand ((src.fmt == 0x10 || src.fmt == 0x11) && dst.fmt == 0x01 && src.dense && dst.dense) cBAD_FORMAT
  demand (src.fmt == 0x10 || (decide (-150 ≤ c.ebExp) && decide (c.ebExp ≤ 100))) cBAD_PACKET
  return { reach := src.spanReach true false ++ dst.spanReach false true }

def geomEbx (src dst : Rec) : Except Status Geom := do
  demand (src.fmt == 0x01 && (dst.fmt == 0x10 || dst.fmt == 0x11) && src.dense && dst.dense) cBAD_FORMAT
  return { reach := src.spanReach true false ++ dst.spanReach false true }

/-- A destination of fewer than m elements is BOUNDS, a RES that is no dense FP32 record of m elements BAD_FORMAT (DESIGN CHOICE,
log entry 65). -/
def geomCred (src dst : Rec) (res : Option Rec) : Except Status Geom := do
  let wire (f : Rec) : Bool := f.fmt == 0x11 && f.dense
  demand (wire src && convFmt dst.fmt && (match res with | some f => wire f && f.count == src.count | none => true)) cBAD_FORMAT
  demand (decide (src.count ≤ dst.count)) cBOUNDS
  return { reach := src.spanReach true false ++ dst.spanReach false true ++
    (match res with | some f => f.spanReach true true | none => []) }

def geomCgath (c : Packet) (src dst : Rec) : Except Status Geom := do
  demand (src.fmt == dst.fmt) cBAD_FORMAT
  demand (decide (c.shards * src.spanSize ≤ dst.spanSize)) cBOUNDS
  return { reach := src.spanReach true false ++ dst.spanReach false true }

def State.geometry (s : State) (p : Nat) (c : Packet) (fs : List Rec) : Except Status Geom :=
  let ty := c.type
  match fs with
  | [dst] => geomFill c dst
  | [a, b] =>
    if ty = tCOPY then geomCopy c a b
    else if ty = tCOPY4D then geomCopy4d c a b
    else if ty = tBCAST then geomBcast c a b
    else if ty = tGRIDC then s.geomGrid p c a b none
    else if ty = tEBZ then geomEbz c a b
    else if ty = tEBX then geomEbx a b
    else if ty = tCRED then geomCred a b none
    else geomCgath c a b
  | [a, b, t] =>
    if ty = tGATHER then geomGather c a b t
    else if ty = tCRED then geomCred a b (some t)
    else s.geomGrid p c a b (some t)
  | _ => .ok {}

/-! The acceptance checks (R286) -/

/-- The packet word of a completion address, from its alignment: the barrier object's or the flag's. -/
def completionWord (align : Nat) : Nat := if align = 16 then 6 else 7

/-- The checks of R47 on a completion address. -/
def State.completionOk (s : State) (d : Nat) (a : Word) (align : Nat) : Except Status Unit :=
  match s.spaceCheck (128 * d) .copy a accWrite with
  | .error f => .error (f.code, completionWord align)
  | .ok _ => if offset a % align = 0 then .ok () else .error (cBAD_ADDRESS, completionWord align)

/-- The completion addresses of a packet with their alignment. -/
def packetCompletions (c : Packet) : List (Word × Nat) :=
  (if c.withBarrier then [(c.w6, 16)] else []) ++ (if c.withFlag then [(c.w7, 8)] else [])

/-- The pins of a completion address in space 0: a barrier object is read and written, a flag written. -/
def State.completionPins (s : State) (p d : Nat) (x : Word × Nat) : Except Status (List Leaf) :=
  match s.completionOk d x.1 x.2 with
  | .error _ => .ok []
  | .ok _ => s.reachPins p ⟨x.1, offset x.1, offset x.1 + 8, x.2 == 16, true⟩

/-- The range of space 0 that a reach pins. -/
def Reach.range (x : Reach) : Option (Int × Int) := if space x.base = 0 ∧ x.lo < x.hi then some (x.lo, x.hi) else none

/-- What a packet latches: its operands' entries, its table, its pins and the ranges that they cover. -/
structure Latched where
  ops : List Entry
  data : List Byte
  pins : List Leaf
  ranges : List (Int × Int)
deriving DecidableEq, Repr

/-- The ranks that a BCAST writes, rows ascending (R288). -/
def bcastRanks (c : Packet) (dst : Rec) : List Nat :=
  ((List.range 8).filter fun row => wf c.w3 (16 + row) 1 == 1).map fun row => owner dst.base / 128 * 128 + 16 * row + owner dst.base % 16

/-- The targets of a BCAST: towers of the engine's die, none of a retired harness, whose tower space is unusable (17 R420). -/
def State.bcastOk (s : State) (d : Nat) (c : Packet) (src dst : Rec) : Bool :=
  space src.base == 0 && space dst.base == 2 && dieOf (owner dst.base) == d &&
    (bcastRanks c dst).all fun r => !(s.har r).ctl.retired

/-- The checks of R286 in order: what the packet latches, or the status (DEDUCED, log entry 40). -/
def State.checkPacket (s : State) (d : Nat) (q : Cew) (by' : Poster) (c : Packet) : Except Status Latched := do
  let p := q.part
  let ty := c.type
  demand (!packetBadLayout c) cBAD_PACKET
  demand (!((ty == tEBZ || ty == tEBX) && s.variant == .m2)) cUNSUPPORTED
  demand (decide (c.scope ≤ 4) && ((c.scope != 1 && !c.coll) || ((s.part p).groups.find c.group).isSome)) cBAD_SCOPE
  let es ← (packetOpnds c).mapM (s.packetEntry q by' c)
  let fs := es.map Entry.record
  match ((packetOpnds c).zip fs).findSome? fun of => match s.spaceCheck (128 * d) .copy of.2.base accRead with
    | .error e => some (e.code, of.1.word)
    | .ok _ => none with
  | some st => .error st
  | none =>
    let bcastOk := ty != tBCAST || match fs with
      | [a, b] => s.bcastOk d c a b
      | _ => true
    if bcastOk then pure () else throw (cBAD_SPACE, 1)
    let g ← s.geometry p c fs
    let ps ← g.reach.mapM (s.reachPins p)
    let cs ← (packetCompletions c).mapM (s.completionPins p d)
    (packetCompletions c).forM fun x => s.completionOk d x.1 x.2
    let ends := (packetCompletions c).map fun x => ({ base := x.1, lo := offset x.1, hi := offset x.1 + 8, r := true, w := true } : Reach)
    return { ops := es, data := g.data, pins := g.pins ++ ps.flatten ++ cs.flatten
             ranges := (g.reach ++ g.table ++ ends).filterMap Reach.range }

/-! Acceptance (R281) -/

/-- The address of the slot of an index. -/
def Cew.slot (q : Cew) (idx : Nat) : Nat := (q.hdr + 64 * (1 + idx % 2 ^ q.sz)) % 2 ^ 48

/-- Whether a watched queue has its next packet ready, or its slot cannot be read. -/
def State.acceptable (s : State) (d n : Nat) : Bool :=
  let q := s.cew d n
  q.en && !q.halt && match s.devWord q.part (q.slot q.acc) needCR with
    | .ok w => wf w 32 32 == (q.acc + 1) % 2 ^ 32
    | .error _ => true

/-- The watch entry that the die serves next, in rotation. -/
def State.nextAccept (s : State) (d : Nat) : Option Nat :=
  let x := s.die d
  if x.cew.isEmpty then none
  else ((List.range 64).map fun i => (x.lastCew + 1 + i) % 64).find? (s.acceptable d)

/-- Who wrote the tag of a slot (R307). -/
def State.posterOf (s : State) (q : Cew) (idx : Nat) : Poster :=
  match s.xlateP q.part (q.slot idx) needCR accRead with
  | .ok k => s.tagger.getD k .other
  | .error _ => .other

/-- The packet as accepted: checked and latched. -/
def State.latchPacket (s : State) (d n : Nat) (c : Packet) : Pkt :=
  let q := s.cew d n
  let by' := s.posterOf q q.acc
  let k : Pkt := { id := ⟨d, n, q.acc, q.ent⟩, c := c, poster := by', st := .ready }
  match s.checkPacket d q by' c with
  | .error (st, det) => { k with st := .ended st det 0 }
  | .ok x =>
    { k with st := if c.coll then .waiting else .ready, ops := x.ops, data := x.data, pins := x.pins, ranges := x.ranges }

/-- The keys of the weight table that acceptance reads. -/
def State.acceptTable (s : State) (q : Cew) (by' : Poster) (c : Packet) : List Nat :=
  if packetBadLayout c then []
  else match (if c.type = tGRIDR ∨ c.type = tGRIDP then (packetOpnds c)[2]? else none) with
    | none => []
    | some o => match s.packetEntry q by' c o with
      | .error _ => []
      | .ok e => s.tableKeys q.part e.record

/-- The granules of table entries and of a weight table that acceptance reads are checked (17 R407). -/
def State.scrubAccept (s : State) (q : Cew) (by' : Poster) (c : Packet) : State :=
  if s.latent.isEmpty ∨ packetBadLayout c then s
  else
    let os := packetOpnds c
    let s := os.foldl (fun s o =>
      s.devScrub q.part ((offset q.rtbase + 64 * (wf (c.word o.word) o.lo 32 / 2 ^ 12)) % 2 ^ 48) 40) s
    (s.acceptTable q by' c).foldl (fun s k => s.scrub k 1) s

/-- The next packet of watch entry n is accepted; an access of the engine that fails halts the queue (R453). -/
def State.accept (s : State) (d n : Nat) : State :=
  let s := s.modDie d fun x => { x with lastCew := n }
  let q := s.cew d n
  let va := q.slot q.acc
  match s.devRead q.part va 64 needCR with
  | .error f => ((s.devScrub q.part va 64).tally (128 * d) f).queueHalt d n q.ent (haltCode f) q.acc 0
  | .ok bs =>
    let s := s.devScrub q.part va 64
    let c := packetOf (bytesWords bs)
    let k := s.latchPacket d n c
    let s := s.scrubAccept q k.poster c
    match s.headerWrite q 8 (BitVec.ofNat 64 (q.acc + 1)) with
    | .error f => s.queueHalt d n q.ent (haltCode f) q.acc 0
    | .ok s =>
      let s := match k.st with
        | .ended c _ _ => if c = cPOISON ∨ c = cMEM_ERROR then s.count d 4 else s
        | _ => s
      let s := (beatsOf (s.acceptTable q k.poster c)).foldl (fun s b => s.post (256 * b) false k.id) s
      (s.modCew d n fun q => { q with acc := q.acc + 1 }).modDie d fun x => { x with pkts := x.pkts ++ [k] }

/-- R281: die a accepts the next packet. -/
def execPacketAccept (s : State) : Out :=
  let d := s.ev.a
  match s.nextAccept d with
  | none => .next s
  | some n => .next (s.accept d n)

end Sys2Proof.Machine
end

