-- ==== Sys2Proof/Machine/Carry.lean ====
section
/-!
DEFINITION. The shared part of every packet's run: outputs in output units, the halt of a packet and of its queue,
freeze-owner (09 R306-R308; 16 R402, R406), and the completion actions (09 R284, R453; 04 R120, R123, R126, R444).
-/

namespace Sys2Proof.Machine

/-- One output element of a packet: the width in bits of what it writes to the primary destination, the places it writes
(primary first) with their widths, the codes written there, and the keys it reads. -/
structure OutEl where
  size : Nat
  wrs : Except Fail (List (Spot × Nat))
  val : Except Fail (List Nat)
  reads : List Nat := []

/-! Reading and placing -/

/-- The keys of n bytes at an absolute offset of a record's space, and the failure of a read of them. -/
def State.pktRead (s : State) (p : Nat) (k : Pkt) (base : Word) (at' : Int) (n : Nat) : Except Fail (List Nat) :=
  match s.pinKeys p k.pins base at' n with
  | .error f => .error f
  | .ok ks =>
    match ks.findSome? fun k => (s.consumes k).map fun c => (k, c) with
    | some (a, c) => .error { code := c, addr := mkPtr (space base) (owner base) at'.toNat, gran := some a }
    | none => .ok ks

/-- The partition of a packet's queue. -/
def State.pktPart (s : State) (k : Pkt) : Nat := (s.queueOf k.id.die k.id.cew k.id.ent).part

/-- The element at a located place of a record, to be read. -/
def State.elRead (s : State) (k : Pkt) (f : Rec) (x : Int × Nat) : Except Fail (Spot × List Nat) :=
  match s.pktRead (s.pktPart k) k f.base (offset f.base + x.1) f.bytes with
  | .error e => .error e
  | .ok ks => .ok ({ p := 0, keys := ks, half := x.2 }, ks)

/-- The same place, to be written. -/
def State.elWrite (s : State) (k : Pkt) (f : Rec) (x : Int × Nat) : Except Fail (List (Spot × Nat)) :=
  match s.pinKeys (s.pktPart k) k.pins f.base (offset f.base + x.1) f.bytes with
  | .error e => .error e
  | .ok ks => .ok [({ p := 0, keys := ks, half := x.2 }, f.bits)]

/-- The code at a place, over bytes that the packet has already written. -/
def State.codeOver (s : State) (t : Table Byte) (bits : Nat) (x : Spot) : Nat :=
  let v := leNat (x.keys.map fun k => (t.find k).getD (memGet s.mem k))
  if bits = 4 then v / 2 ^ x.half % 16 else v

/-- The bytes that an output element writes, over those before it. -/
def State.elPut (s : State) (t : Table Byte) (ws : List ((Spot × Nat) × Nat)) : Table Byte :=
  ws.foldl (fun t w => s.spotPut w.1.2 t w.1.1 w.2) t

/-- Output elements formed one after another; each may read what those before it wrote. -/
def State.planSeq {α : Type} (s : State) (f : Table Byte → α → OutEl) : Table Byte → List α → List OutEl
  | _, [] => []
  | t, x :: xs =>
    let e := f t x
    let t' := match e.wrs, e.val with
      | .ok ws, .ok cs => s.elPut t (ws.zip cs)
      | _, _ => t
    e :: State.planSeq s f t' xs

/-! Output units (R306) -/

/-- An output unit in bits. -/
def unitBits : Nat := 8 * 2048

/-- The unit of each element, given the bits written before it. -/
def unitsOf : Nat → List OutEl → List (Nat × OutEl)
  | _, [] => []
  | n, e :: es => (n / unitBits, e) :: unitsOf (n + e.size) es

/-- What an element writes: codes latched by an earlier run of the packet stand (R308). -/
def OutEl.final (e : OutEl) (latched : Option (List Nat)) : Except Fail (List ((Spot × Nat) × Nat)) :=
  match e.wrs with
  | .error f => .error f
  | .ok ws =>
    match latched with
    | some cs => .ok (ws.zip cs)
    | none => match e.val with
      | .ok cs => .ok (ws.zip cs)
      | .error f => .error f

/-- The codes that a run has formed. -/
def OutEl.latch (e : OutEl) (latched : Option (List Nat)) : Option (List Nat) :=
  match latched, e.val with
  | some cs, _ => some cs
  | none, .ok cs => some cs
  | none, .error _ => none

/-- The payload bytes of writes: adjacent halves of one byte count once. -/
def payload (ws : List ((Spot × Nat) × Nat)) : Nat :=
  let small := ws.filter fun w => w.1.2 == 4
  (squeeze (small.flatMap fun w => w.1.1.keys)).length + ((ws.filter fun w => w.1.2 != 4).map fun w => w.1.2 / 8).sum

/-! Halts -/

/-- A freeze-owner halt of a harness (16 R400, R402, R406): its engines freeze; behind another fault it waits. -/
def Ctl.addOwner (c : Ctl) (b : BFault) : Ctl :=
  match c.bf with
  | none => { c with frozen := true, bf := some b }
  | some _ => { c with frozen := true, owner := c.owner ++ [b] }

/-- R307: the harness whose running node posted the packet freezes. -/
def State.freezeOwner (s : State) (k : Pkt) (code : Nat) (f : Fail) : State :=
  match k.poster with
  | .harness r nid =>
    if k.c.frz ∧ ((s.har r).ctl.node.map fun (n : Node) => n.nid) = some nid then
      s.modCtl r fun c => c.addOwner
        { cls := 5, code := code, eng := 3, arg := k.id.cew, sq := BitVec.ofNat 32 k.id.idx, status := BitVec.ofNat 64 code,
          addr := f.addr, fmcc := s.mcc, fframe := (s.har r).sp.frame }
    else s
  | _ => s

/-- The status word of a packet (R284). -/
def State.statusWrite (s : State) (k : Pkt) (st det : Nat) : Except Fail State :=
  let q := s.queueOf k.id.die k.id.cew k.id.ent
  s.devStore q.part ((offset q.stbase + 8 * (k.id.idx % 2 ^ q.sz)) % 2 ^ 48)
    (wordBytes [BitVec.ofNat 64 (k.c.tag * 2 ^ 32 + det % 2 ^ 16 * 2 ^ 16 + st)]) needCW

/-- A halting fault of a packet at a unit (R306): header, status word, supervisor, owner. A queue that is halted already
stays at its first packet; this one's halt follows when that one is cleared (DEDUCED, log entry 42). -/
def State.packetHalt (s : State) (k : Pkt) (f : Fail) (unit : Nat) : State :=
  let code := haltCode f
  let d := k.id.die
  let n := k.id.cew
  let s := (s.tally (128 * d) f).modPkt k.id fun k => { k with st := .halted code unit, unit := unit }
  let s := if (s.queueOf d n k.id.ent).halt then s else s.queueHalt d n k.id.ent code k.id.idx unit
  (orKeep s (s.statusWrite k code 0)).freezeOwner k code f

/-! The run -/

/-- A key lies in the span of an operand of space 2 whose record has placement policy 1: its access closes the row (02 R56). A
BCAST places all its bytes by its destination's record. -/
def Pkt.closes (k : Pkt) (a : Nat) : Bool :=
  (k.c.type == tBCAST && ((k.ops.getD 1 ⟨0, 0, 0, 0, 0⟩).record.place == 1)) ||
  k.ops.any fun e =>
    let f := e.record
    f.place == 1 && space f.base == 2 && match f.span with
      | some (lo, hi) => decide ((f.base.toNat : Int) + lo ≤ a) && decide ((a : Int) < f.base.toNat + hi)
      | none => false

/-- The packet's beats at those of its keys that lie in towers go to their banks, and the packet waits for them (02 R49, R50; DESIGN CHOICE, log entry 57). -/
def State.askBanks (s : State) (k : Pkt) (ks : List Nat) : State :=
  ((beatsOf ks).foldl (fun s b => s.post (256 * b) (k.closes (256 * b)) k.id) s).modPkt k.id fun k => { k with asked := true }

/-- The granules of source bytes that a copy engine reads are checked. -/
def State.readKeys (s : State) (ks : List Nat) : State :=
  if s.latent.isEmpty then s else (dedup (squeeze (ks.map (· / 64)))).foldl (fun s b => s.scrubGranule b) s

/-- A packet asks the tower banks for its beats; once they are served it runs from its unit: every unit from there on and below
the first that meets a fault is written; then it ends with `fin`, or halts there. -/
def State.carry (s : State) (k : Pkt) (els : List OutEl) (fin : Status) : State :=
  let lat (i : Nat) : Option (List Nat) := (k.vals[i]?).getD none
  let rows := (((unitsOf 0 els).zipIdx).map fun x => (x.1.1, x.1.2, x.1.2.final (lat x.2))).filter fun x => decide (k.unit ≤ x.1)
  let bad := rows.findSome? fun x => match x.2.2 with
    | .error f => some (x.1, f)
    | .ok _ => none
  let live := rows.filter fun x => match bad with
    | some (u, _) => decide (x.1 < u)
    | none => true
  let ws := live.flatMap fun x => match x.2.2 with
    | .ok ws => ws
    | .error _ => []
  let reads := live.flatMap fun x => x.2.1.reads
  let t := s.elPut [] ws
  if !k.asked then s.askBanks k (reads ++ t.map (·.1))
  else
    let s := (runs t).foldl (fun s kb => s.write kb.1 kb.2) ((s.readKeys reads).noteKeys (t.map (·.1)) .other)
    let n := k.bytes + payload ws
    let put (f : Pkt → Pkt) : State := s.modPkt k.id f
    match bad with
    | none => put fun k => { k with
        st := .ended fin.1 fin.2 0, bytes := n, vals := [], asked := false, unit := cdiv (els.map OutEl.size).sum unitBits }
    | some (u, f) =>
      let s := put fun k => { k with bytes := n, asked := false, vals := els.zipIdx.map fun x => x.1.latch (lat x.2) }
      s.packetHalt { k with bytes := n } f u

/-- ORD (R282): every earlier packet of the queue has ended. -/
def State.orderOk (s : State) (k : Pkt) : Bool :=
  !k.c.ord || (s.die k.id.die).pkts.all fun j => j.id.cew != k.id.cew || j.id.ent != k.id.ent || decide (k.id.idx ≤ j.id.idx)

def State.findPkt (s : State) (q : PktId) : Option Pkt := (s.die q.die).pkts.find? fun k => k.id == q

/-- The packet of an identity when it may run: of a type, in the state from which that type runs, in order, every beat that it
has asked for served (02 R50). -/
def State.runnable (s : State) (q : PktId) (ty : Nat) : Option Pkt :=
  match s.findPkt q with
  | none => none
  | some k =>
    if k.c.type = ty ∧ k.st = (if k.c.coll then PktSt.begun else PktSt.ready) ∧ s.orderOk k ∧ (k.asked → s.served k.id) then some k else none

/-- A packet of a type runs: `f` gives its output elements and its end. -/
def State.runPacket (s : State) (q : PktId) (ty : Nat) (f : Pkt → List OutEl × Status) : State :=
  match s.runnable q ty with
  | none => s
  | some k =>
    let x := f k
    s.carry k x.1 x.2

/-- The operand of a packet in position n (Packet.opnds). -/
def Pkt.op (k : Pkt) (n : Nat) : Rec := (k.ops.getD n ⟨0, 0, 0, 0, 0⟩).record

/-! Completion (R284) -/

/-- The key of a completion address. -/
def State.completionKey (s : State) (k : Pkt) (a : Word) : Except Fail Nat := s.pinKey (s.pktPart k) k.pins a

/-- The status that a packet ends with once its barrier object has been looked at: BAR_OVERFLOW where a chunk would leave
the range of BAL (04 R126, R444); a consumption of the object, or an address that cannot be reached, is met here. -/
def State.barrierStatus (s : State) (k : Pkt) (st : Nat) : Except Fail (Nat × Option (State × Nat)) :=
  if st = cOK ∧ k.c.withBarrier then
    match s.completionKey k k.c.w6 with
    | .error f => .error f
    | .ok a =>
      match s.consumesN a 8 with
      | some c => .error { code := c, addr := k.c.w6, gran := some a }
      | none =>
        let s := s.scrub a 8
        if k.bytes = 0 then
          match barUpdate (s.wordAt a) (.complete 0) with
          | some w => .ok (st, some (s.write a (leBytes 8 w.toNat), 0))
          | none => .ok (cBAR_OVERFLOW, some (s, 0))
        else
          let r := s.barChunks a (chunks k.bytes k.bytes)
          .ok (if r.2 = 0 then st else cBAR_OVERFLOW, some r)
  else .ok (st, none)

/-- The key of the flag. A packet that was refused holds no pins: its flag's address is translated now, and where that
fails no flag is written. -/
def State.flagKey (s : State) (k : Pkt) : Except Fail (Option Nat) :=
  if space k.c.w7 = 0 ∧ k.pins.isEmpty then
    .ok (s.xlateP (s.pktPart k) (offset k.c.w7) { w := true, ce := true } accWrite).toOption
  else (s.completionKey k k.c.w7).map some

/-- The flag write: FLAGVAL, with bit 63 inverted where the status is not OK; none after BAR_OVERFLOW. -/
def State.flagWrite (s : State) (k : Pkt) (st : Nat) : Except Fail State :=
  if k.c.withFlag ∧ st ≠ cBAR_OVERFLOW then
    match s.completionOk k.id.die k.c.w7 8 with
    | .error _ => .ok s
    | .ok _ =>
      match s.flagKey k with
      | .error f => .error f
      | .ok none => .ok s
      | .ok (some a) =>
        let v := if st = cOK then k.c.w5 else k.c.w5 ^^^ (1 <<< 63)
        .ok (s.write a (leBytes 8 v.toNat))
  else .ok s

/-- DONE rises to cover a packet (R284); its failure leaves everything as it was. -/
def State.doneWrite (s : State) (k : Pkt) : Except Fail State :=
  let d := k.id.die
  let n := k.id.cew
  let q := s.queueOf d n k.id.ent
  let (done, late) := doneWalk (q.late.length + 2) q.done (k.id.idx :: q.late)
  let put (s : State) : State :=
    ((s.modQueue d n k.id.ent fun q => { q with done := done, late := late }).dropPkt k.id).dropQueues d
  if done = q.done then .ok (put s)
  else (s.headerWrite q 16 (BitVec.ofNat 64 done)).map put

/-- Why a packet's completion stops: the failure, whether the access was one to the queue itself (R453), the stage to go on from,
the status, and the state so far. -/
structure Stop where
  f : Fail
  own : Bool
  stage : Nat
  st : Nat
  s : State

/-- The actions of stages 1 (status word and ERRSEEN), 2 (barrier), 3 (flag) and 4 (DONE), from the given one on; the
first failure gives the stage to go on from. A status word that a halt has written over is written again. -/
def State.complete (s : State) (k : Pkt) (st det stage : Nat) : Except Stop State :=
  -- the barrier object is looked at before the status word that names its outcome is written
  match (if stage ≤ 1 then s.barrierStatus k st else .ok (st, none)) with
  | .error f => .error ⟨f, false, stage, st, s⟩
  | .ok (st, _) =>
    let q := s.queueOf k.id.die k.id.cew k.id.ent
    let one : Except Fail State :=
      if 1 ≤ stage ∧ !k.restate then .ok s
      else (s.statusWrite k st det).bind fun s => if st = cOK then .ok s else s.headerFlags q (BitVec.ofNat 64 (2 ^ 10)) 0
    match one with
    | .error f => .error ⟨f, true, stage, st, s⟩
    | .ok s =>
      let two : Except Fail State :=
        if 2 ≤ stage then .ok s
        else if st = cBAR_OVERFLOW then (s.barrierStatus k cOK).map fun x => (x.2.map (·.1)).getD s
        else (s.barrierStatus k st).map fun x => (x.2.map (·.1)).getD s
      match two with
      | .error f => .error ⟨f, false, 1, st, s⟩
      | .ok s =>
        match (if 3 ≤ stage then .ok s else s.flagWrite k st) with
        | .error f => .error ⟨f, false, 2, st, s⟩
        | .ok s =>
          match s.doneWrite k with
          | .error f => .error ⟨f, true, 3, st, s⟩
          | .ok s => .ok s

/-- Whether an ended packet's completion may go on: not while its own failed access waits for the supervisor (R453), nor while
tower banks have still to serve it. -/
def State.completable (s : State) (k : Pkt) : Bool :=
  match k.st with
  | .ended _ _ _ => k.stuck.isNone && (!k.asked || s.served k.id)
  | _ => false

/-- The keys of the barrier object and of the flag of a packet. -/
def State.completionKeys (s : State) (k : Pkt) : List Nat :=
  (if k.c.withBarrier then (s.completionKey k k.c.w6).toOption.toList else []) ++
    if k.c.withFlag then ((s.flagKey k).toOption.getD none).toList else []

/-- A fault met in a packet's completion halts its queue and freezes its owner, as one met in its run does (R306, R307, R453). Its
status word takes the halt's status, unless the access was one to the queue itself (DESIGN CHOICE, log entry 42). -/
def Stop.halt (x : Stop) (k : Pkt) (det : Nat) : State :=
  let d := k.id.die
  let n := k.id.cew
  let code := haltCode x.f
  let s := (x.s.tally (128 * d) x.f).modPkt k.id fun k =>
    { k with st := .ended x.st det x.stage, stuck := some code, restate := k.restate || !x.own, asked := false }
  let s := if (s.queueOf d n k.id.ent).halt then s else s.queueHalt d n k.id.ent code k.id.idx k.unit
  (if x.own then s else orKeep s (s.statusWrite k code 0)).freezeOwner k code x.f

/-- R284: packet (a, b, c), of the queue's entering d, asks the tower banks of its completion addresses, and then makes its
completion actions. -/
def execPacketCompletion (s : State) : Out :=
  match s.findPkt ⟨s.ev.a, s.ev.b, s.ev.c, s.ev.d⟩ with
  | none => .next s
  | some k =>
    match k.st with
    | .ended st det stage =>
      if !s.completable k then .next s
      else if !k.asked then .next (s.askBanks k (s.completionKeys k))
      else match s.complete k st det stage with
        | .ok s => .next s
        | .error x => .next (x.halt k det)
    | _ => .next s

end Sys2Proof.Machine
end

