-- ==== Sys2Proof/Machine/Moves.lean ====
section
/-!
DEFINITION. Packets that move data: COPY, FILL, BCAST (09 R287, R288), COPY4D (R289), GATHER (R290).
-/

namespace Sys2Proof.Machine

/-- A byte written at an absolute offset of a record's space. -/
def State.byteOut (s : State) (k : Pkt) (base : Word) (at' : Int) (val : Except Fail (List Nat)) (reads : List Nat) : OutEl :=
  { size := 8
    wrs := (s.pinKeys (s.pktPart k) k.pins base at' 1).map fun ks => [({ p := 0, keys := ks, half := 0 }, 8)]
    val := val, reads := reads }

/-- R287: a byte that the copy has already overwritten gives the new value or the old one
(DESIGN CHOICE, log entry 12). -/
def State.copyPlan (s : State) (k : Pkt) : List OutEl :=
  let src := k.op 0
  let dst := k.op 1
  let so : Int := offset src.base + (wf k.c.w2 0 48 : Int)
  let do' : Int := offset dst.base + (wf k.c.w3 0 48 : Int)
  s.planSeq (fun t (i : Nat) =>
    let rd := s.pktRead (s.pktPart k) k src.base (so + i) 1
    let val := rd.map fun ks => ks.map fun a => match t.find a with
      | some b => if s.choice i then b.toNat else (memGet s.mem a).toNat
      | none => (memGet s.mem a).toNat
    s.byteOut k dst.base (do' + i) val (rd.toOption.getD [])) [] (List.range (wf k.c.w4 0 40))

/-- R287. -/
def execCopy (q : PktId) (s : State) : Out := .next (s.runPacket q tCOPY fun k => (s.copyPlan k, (cOK, 0)))

/-- R287. -/
def execFill (q : PktId) (s : State) : Out :=
  .next (s.runPacket q tFILL fun k =>
    let dst := k.op 0
    let at' : Int := offset dst.base + (wf k.c.w2 0 48 : Int)
    ((List.range (wf k.c.w4 0 40)).map fun (i : Nat) => s.byteOut k dst.base (at' + i) (.ok [wf k.c.w3 (8 * (i % 8)) 8]) [],
      (cOK, 0)))

/-- The tower bytes at which a BCAST writes its byte 0: rows ascending, then cells (R288). -/
def bcastTargets (c : Packet) (dst : Rec) : List Nat :=
  (bcastRanks c dst).flatMap fun r => cells.filterMap fun cell =>
    if wf c.w3 cell 1 = 0 then none else some (towerKey r (2 ^ 22 * cell + bcastAt dst))

/-- R288: the source is read once (DEDUCED, log entry 41). -/
def execBcast (q : PktId) (s : State) : Out :=
  .next (s.runPacket q tBCAST fun k =>
    let src := k.op 0
    let so : Int := offset src.base + (wf k.c.w2 0 48 : Int)
    let bytes := (List.range (wf k.c.w4 0 22)).map fun (i : Nat) => (i, s.pktRead (s.pktPart k) k src.base (so + i) 1)
    let el (first : Bool) (t : Nat) (x : Nat × Except Fail (List Nat)) : OutEl :=
      { size := 8, wrs := .ok [({ p := 0, keys := [t + x.1], half := 0 }, 8)]
        val := x.2.map fun ks => ks.map fun a => (memGet s.mem a).toNat
        reads := if first then x.2.toOption.getD [] else [] }
    ((bcastTargets k.c (k.op 1)).zipIdx.flatMap fun t => bytes.map (el (t.2 == 0) t.1), (cOK, 0)))

/-- The conversion of one element of COPY4D (R289, R85): codes of one format outside conversion move as they are. -/
def convCode (sf df rnd : Nat) (c : Nat) : Nat :=
  match elTy sf, elTy df with
  | some a, some b => (b.conv ((Num.Mode.ofCode rnd).getD .rne) 0 0 0 (a.value c)).1
  | _, _ => c

/-- R289, in its loop order. An element that the source's bounds mode leaves out reads as the code 0, in E8M0 too; E8M0 converts
by the value it names (DESIGN CHOICE, log entry 65). -/
def State.copy4dPlan (s : State) (k : Pkt) : List OutEl :=
  let src := k.op 0
  let dst := k.op 1
  let pairs := (boxPairs k.c).filterMap fun x => match pairPlaces src dst x with
    | .ok (a, some b) => some (a, b)
    | _ => none
  s.planSeq (fun t (x : Option (Int × Nat) × (Int × Nat)) =>
    let val : Except Fail Nat × List Nat := match x.1 with
      | none => (.ok 0, [])
      | some a => match s.elRead k src a with
        | .error f => (.error f, [])
        | .ok (sp, ks) => (.ok (s.codeOver t src.bits sp), ks)
    { size := dst.bits, wrs := s.elWrite k dst x.2, reads := val.2
      val := val.1.map fun c => [convCode src.fmt dst.fmt k.c.rnd c] }) [] pairs

/-- R289. -/
def execCopy4d (q : PktId) (s : State) : Out := .next (s.runPacket q tCOPY4D fun k => (s.copy4dPlan k, (cOK, 0)))

/-- The index that IDX gives for row j: a failure where it cannot be read. -/
def State.gatherIndex (s : State) (k : Pkt) (j : Nat) : Except Fail (Int × List Nat) :=
  let idx := k.op 2
  match idx.locate false ((wf k.c.w3 0 48 + j : Nat) : Int) 0 0 with
  | .ok (some x) => match s.elRead k idx x with
    | .ok (sp, ks) => .ok (sextNat 32 (s.codeOver [] 32 sp), ks)
    | .error f => .error f
  | _ => .ok (0, [])

/-- R290: under SRC's bounds mode 0 every index is read and checked before any row moves; a packet that ends so has read its
indices all the same (R309). -/
def State.gatherPlan (s : State) (k : Pkt) : List OutEl × Status :=
  let src := k.op 0
  let dst := k.op 1
  let rows := (List.range (wf k.c.w2 32 32)).map fun (j : Nat) => (j, s.gatherIndex k j)
  let unread := rows.findSome? fun x => match x.2 with
    | .error f => some f
    | .ok _ => none
  let outside := rows.any fun x => match x.2 with
    | .ok (i, _) => match { src with ext0 := max 1 src.ext0 }.locate false 0 i 0 with
      | .error _ => true
      | .ok _ => false
    | .error _ => false
  let ikeys := rows.flatMap fun x => match x.2 with
    | .ok (_, ks) => ks
    | .error _ => []
  if outside then ([{ size := 0, wrs := .ok [], val := .ok [], reads := ikeys }], (cBOUNDS, 0))
  else match (if src.bounds = 0 then unread else none) with
    | some f => ([{ size := 8, wrs := .ok [], val := .error f }], (cOK, 0))
    | none =>
      let els := rows.flatMap fun x => (List.range src.ext0).filterMap fun (i0 : Nat) =>
        match dst.locate true (i0 : Int) (x.1 : Int) 0 with
        | .ok (some d) => some (x.2, (i0 : Int), d)
        | _ => none
      (s.planSeq (fun t (x : Except Fail (Int × List Nat) × Int × (Int × Nat)) =>
        let val : Except Fail Nat × List Nat := match x.1 with
          | .error f => (.error f, [])
          | .ok (i, iks) => match src.locate false x.2.1 i 0 with
            | .ok (some a) => match s.elRead k src a with
              | .error f => (.error f, [])
              | .ok (sp, ks) => (.ok (s.codeOver t src.bits sp), iks ++ ks)
            | _ => (.ok 0, iks)
        { size := dst.bits, wrs := s.elWrite k dst x.2.2, reads := val.2, val := val.1.map fun c => [c] }) [] els, (cOK, 0))

/-- R290. -/
def execGather (q : PktId) (s : State) : Out := .next (s.runPacket q tGATHER s.gatherPlan)

end Sys2Proof.Machine
end

