-- ==== Sys2Proof/Machine/Grid.lean ====
section
/-!
DEFINITION. Grid transfers: GRIDR, GRIDP and GRIDC (09 R291-R295).
-/

namespace Sys2Proof.Machine

open Sys2Proof.Num

/-! Source elements (R292) -/

/-- The index that a boundary mode gives for x in one dimension: none where the element reads as +0. -/
def gridIndex (ext halo mode : Nat) (x : Int) : Option Int :=
  if -(halo : Int) ≤ x ∧ x < (ext : Int) + halo then some x
  else if mode = 0 then none
  else if mode = 1 then some (max 0 (min x ((ext : Int) - 1)))
  else some (x % ext)

/-- The source index that a grid packet reads at x. -/
def gridSource (c : Packet) (f : Rec) (halo : Nat → Nat) (x : Int × Int × Int) : Option (Int × Int × Int) :=
  match gridIndex f.ext0 (halo 0) (c.bnd 0) x.1, gridIndex f.ext1 (halo 1) (c.bnd 1) x.2.1,
      gridIndex f.ext2 (halo 2) (c.bnd 2) x.2.2 with
  | some a, some b, some d => some (a, b, d)
  | _, _, _ => none

/-- The byte distance of an element of a grid record, halo included. -/
def Rec.gridPlace (f : Rec) (x : Int × Int × Int) : Int × Nat := (x.1 * f.bytes + x.2.1 * f.s1 + x.2.2 * f.s2, 0)

/-- The value of an element: exact in FP64. -/
def fmtValue (fmt c : Nat) : Val := match elTy fmt with
  | some t => t.value c
  | none => .zero false

/-- An element of a grid record: value and keys read. -/
def State.gridRead (s : State) (k : Pkt) (f : Rec) (x : Int × Int × Int) : Except Fail (Val × List Nat) :=
  match s.elRead k f (f.gridPlace x) with
  | .error e => .error e
  | .ok (sp, ks) => .ok (fmtValue f.fmt (s.codeOver [] f.bits sp), ks)

/-! The sum (R295) -/

/-- An entry of a weight table: weight and offsets. -/
structure Stencil where
  w : Val
  d : Int × Int × Int

/-- The entry at a byte offset. -/
def stencilAt (t : List Byte) (off : Nat) : Stencil :=
  let e := tableEntryAt t off
  { w := ofCode fp32 (field e 0 32), d := (sextNat 8 (field e 32 8), sextNat 8 (field e 40 8), sextNat 8 (field e 48 8)) }

/-- The entries of a restriction table, or of a parity class of a prolongation table. -/
def stencils (c : Packet) (t : List Byte) (cls : Nat) : List Stencil :=
  let h := leNat (t.take 8)
  if c.type = tGRIDP then (List.range (field h (16 + 4 * cls) 4)).map fun i => stencilAt t (8 + 64 * cls + 8 * i)
  else (List.range (field h 8 8)).map fun i => stencilAt t (8 + 8 * i)

/-- One fused step, rounded RNE to FP64; a NaN is canonical. -/
def gridStep (acc w x : Val) : Val := (round fp64 .rne 0 (fma .rne w x acc).1).1

/-- The steps of one output in table order. -/
def State.gridSum (s : State) (k : Pkt) (halo : Nat → Nat) (base : Int × Int × Int) :
    Val → List Nat → List Stencil → Except Fail (Val × List Nat)
  | acc, ks, [] => .ok (acc, ks)
  | acc, ks, e :: es =>
    let x := (base.1 + e.d.1, base.2.1 + e.d.2.1, base.2.2 + e.d.2.2)
    match gridSource k.c (k.op 0) halo x with
    | none => State.gridSum s k halo base (gridStep acc e.w (.zero false)) ks es
    | some y =>
      match s.gridRead k (k.op 0) y with
      | .error f => .error f
      | .ok (v, ks') => State.gridSum s k halo base (gridStep acc e.w v) (ks ++ ks') es

/-- The conversion of an output to the destination format: SR draws on SEED and the output's index. -/
def gridOut (c : Packet) (fmt : Nat) (n : Nat) (v : Val) : Nat :=
  match elTy fmt with
  | some t => (t.conv ((Num.Mode.ofCode c.rnd).getD .rne) (srBits c.w3.toNat 0 n) 0 0 v).1
  | none => 0

/-- The source index from which an output's offsets count, and its parity class. -/
def gridBase (c : Packet) (x : Int × Int × Int) : (Int × Int × Int) × Nat :=
  let f (d : Nat) (i : Int) : Int :=
    if !c.coarsen d then i else if c.type = tGRIDR then 2 * i else if c.type = tGRIDP then i / 2 else i
  let p (d : Nat) (i : Int) : Nat := if c.coarsen d ∧ i % 2 = 1 then 2 ^ d else 0
  ((f 0 x.1, f 1 x.2.1, f 2 x.2.2), p 0 x.1 + p 1 x.2.1 + p 2 x.2.2)

/-- The outputs of a grid packet: destination indices in ascending order, dimension 0 fastest; every element read before
any is written. -/
def State.gridPlan (s : State) (k : Pkt) : List OutEl :=
  let c := k.c
  let dst := k.op 1
  let copy : Bool := c.type == tGRIDC
  let haloD := if copy then c.halo else fun _ => 0
  let haloS := if copy then fun _ => 0 else c.halo
  let idx := boxIdx (-(haloD 0 : Int)) (-(haloD 1 : Int)) (-(haloD 2 : Int))
    (dst.ext0 + 2 * haloD 0) (dst.ext1 + 2 * haloD 1) (dst.ext2 + 2 * haloD 2)
  idx.zipIdx.map fun xn =>
    let (b, cls) := gridBase c xn.1
    let es := if copy then [{ w := .fin false 1 0 false, d := (0, 0, 0) }] else stencils c k.data cls
    let start : Except Fail (Val × List Nat) :=
      if c.type = tGRIDP ∧ c.gadd then s.gridRead k dst xn.1 else .ok (.zero false, [])
    let r : Except Fail (Val × List Nat) := match start with
      | .error f => .error f
      | .ok (acc, ks) => s.gridSum k haloS b acc ks es
    { size := dst.bits, wrs := s.elWrite k dst (dst.gridPlace xn.1)
      val := r.map fun v => [gridOut c dst.fmt xn.2 v.1]
      reads := match r with
        | .ok v => v.2
        | .error _ => [] }

/-- R295: restriction. -/
def execGridr (q : PktId) (s : State) : Out := .next (s.runPacket q tGRIDR fun k => (s.gridPlan k, (cOK, 0)))

/-- R295: prolongation. -/
def execGridp (q : PktId) (s : State) : Out := .next (s.runPacket q tGRIDP fun k => (s.gridPlan k, (cOK, 0)))

/-- R295: a level copied with conversion and halo fill. -/
def execGridc (q : PktId) (s : State) : Out := .next (s.runPacket q tGRIDC fun k => (s.gridPlan k, (cOK, 0)))

end Sys2Proof.Machine
end

