-- ==== Sys2Proof/Machine/Codec.lean ====
section
/-!
DEFINITION. The error-bounded codec: EBZ and EBX (09 R296-R300).
-/

namespace Sys2Proof.Machine

open Sys2Proof.Num

/-! Blocks (R297, R298) -/

/-- The quotient of R298: x / 2^(e+1) rounded RNE to an integer; none for an escape. -/
def ebQuot (e : Int) (x : Val) : Option Int :=
  match x with
  | .fin n m xe _ =>
    let r := (roundAt .rne 0 n m (xe - (e + 1)) false 0).1
    if r < 2 ^ 31 then some (if n then -(r : Int) else r) else none
  | _ => none

/-- A signed 32-bit value of an integer. -/
def s32 (v : Int) : Int := sextNat 32 (v % 2 ^ 32).toNat

/-- The zigzag code of a difference. -/
def zigzag (d : Int) : Nat := if 0 ≤ d then (2 * d).toNat else (-2 * d - 1).toNat

def unzigzag (z : Nat) : Int := if z % 2 = 0 then (z / 2 : Nat) else -((z / 2 : Nat) : Int) - 1

/-- The zigzag codes of a block, given q' of the value before. -/
def ebCodes : Int → List Int → List Nat
  | _, [] => []
  | prev, q :: qs => zigzag (s32 (q - prev)) :: ebCodes q qs

/-- Codes packed from the least significant bit up, w bits each. -/
def packBits (w : Nat) : List Nat → Nat
  | [] => 0
  | z :: zs => z % 2 ^ w + 2 ^ w * packBits w zs

/-- The bytes of a block of raw codes; `size` is the element size, `prev` is 0 at a block's start. -/
def ebBlock (fmt : Fmt) (size : Nat) (e : Int) (xs : List Nat) : List Byte :=
  let qs := xs.map fun c => ebQuot e (ofCode fmt c)
  let zs := ebCodes 0 (qs.map fun q => q.getD 0)
  let w := zs.foldl (fun m z => max m (bitLen z)) 0
  let esc := qs.any Option.isNone
  let mask := (qs.zipIdx.map fun q => if q.1.isNone then 2 ^ q.2 else 0).sum
  let raw := ((qs.zip xs).filter fun q => q.1.isNone).flatMap fun q => leBytes size q.2
  BitVec.ofNat 8 (w + if esc then 64 else 0) :: (if esc then leBytes 8 mask else []) ++
    leBytes (cdiv (xs.length * w) 8) (packBits w zs) ++ raw

/-- Lists of n. -/
def codeBlocks (n : Nat) : Nat → List Nat → List (List Nat)
  | 0, _ => []
  | fuel + 1, xs => if xs.isEmpty then [] else xs.take n :: codeBlocks n fuel (xs.drop n)

/-- Blocks laid down while they fit: the bytes, and the first block that does not. -/
def fitBlocks (cap : Nat) : List Byte → Nat → List (List Byte) → List Byte × Option Nat
  | acc, _, [] => (acc, none)
  | acc, b, x :: xs => if acc.length + x.length ≤ cap then fitBlocks cap (acc ++ x) (b + 1) xs else (acc, some b)

/-- The header of R297; `len` is L. -/
def ebHeader (fmt : Nat) (e : Int) (n len : Nat) : List Byte :=
  leBytes 2 0x4542 ++ leBytes 1 1 ++ leBytes 1 fmt ++ leBytes 2 (e % 2 ^ 16).toNat ++ leBytes 2 0 ++ leBytes 4 n ++ leBytes 4 len

/-- The elements of a dense record in address order, or the failure of the first that cannot be read. -/
def State.denseRead (s : State) (k : Pkt) (f : Rec) : Except Fail (List Nat × List Nat) :=
  match (List.range f.count).mapM fun (i : Nat) => s.elRead k f (((i * f.bytes : Nat) : Int), 0) with
  | .error e => .error e
  | .ok xs => .ok (xs.map fun x => s.codeOver [] f.bits x.1, xs.flatMap (·.2))

/-- Bytes written from the start of a record. -/
def State.bytesOut (s : State) (k : Pkt) (f : Rec) (bs : List Byte) (reads : List Nat) : List OutEl :=
  bs.zipIdx.map fun b => s.byteOut k f.base ((offset f.base : Int) + b.2) (.ok [b.1.toNat]) (if b.2 = 0 then reads else [])

/-- After EB_OVERRUN the bytes of the destination are unspecified but for L, which is not written (R299). -/
def State.overrunOut (s : State) (k : Pkt) (f : Rec) (reads : List Nat) : List OutEl :=
  let at' := (List.range f.spanSize).filter fun i => (decide (i < 12) || decide (16 ≤ i)) && s.choice i
  at'.zipIdx.map fun i =>
    s.byteOut k f.base ((offset f.base : Int) + i.1) (.ok [(Config.freeByte s.freeCtr i.1).toNat]) (if i.2 = 0 then reads else [])

/-- R298: nothing of the stream is formed before every value is read, since L stands in its first unit. -/
def State.ebzPlan (s : State) (k : Pkt) : List OutEl × Status :=
  let src := k.op 0
  let dst := k.op 1
  match s.denseRead k src with
  | .error f => ([{ size := 8, wrs := .ok [], val := .error f }], (cOK, 0))
  | .ok (xs, ks) =>
    let e := k.c.ebExp
    let fmt := if src.fmt = 0x10 then fp64 else fp32
    let blocks := (codeBlocks 64 xs.length xs).map (ebBlock fmt src.bytes e)
    if dst.spanSize < 16 then (s.overrunOut k dst ks, (cEB_OVERRUN, 0))
    else match fitBlocks (dst.spanSize - 16) [] 0 blocks with
      | (body, none) => (s.bytesOut k dst (ebHeader src.fmt e xs.length (16 + body.length) ++ body) ks, (cOK, 0))
      | (_, some b) => (s.overrunOut k dst ks, (cEB_OVERRUN, b % 2 ^ 16))

/-- R298. -/
def execEbz (q : PktId) (s : State) : Out := .next (s.runPacket q tEBZ s.ebzPlan)

/-! Expansion (R298, R300) -/

/-- A header's fields: element size, e, n, L; none where a check of R300 fails. -/
def ebParse (cap count : Nat) (h : List Byte) : Option (Nat × Int × Nat × Nat) :=
  let at' (o n : Nat) : Nat := leNat ((h.drop o).take n)
  let fmt := at' 3 1
  let e := sextNat 16 (at' 4 2)
  let range : Bool :=
    if fmt = 0x11 then decide (-150 ≤ e) && decide (e ≤ 100) else decide (-1075 ≤ e) && decide (e ≤ 970)
  if at' 0 2 = 0x4542 ∧ at' 2 1 = 1 ∧ (fmt = 0x10 ∨ fmt = 0x11) ∧ range ∧ at' 6 2 = 0 ∧ at' 12 4 ≤ cap ∧ at' 8 4 ≤ count then
    some (fmt, e, at' 8 4, at' 12 4)
  else none

/-- The values of a block from its q' differences and escapes, converted to the destination. -/
def ebValues (sf : Fmt) (df : Fmt) (size : Nat) (e : Int) : Int → List (Nat × Bool) → List Byte → List Nat
  | _, [], _ => []
  | prev, (z, esc) :: t, raw =>
    let q := s32 (prev + unzigzag z)
    if esc then
      (destF df .rne 0 0 0 (ofCode sf (leNat (raw.take size)))).1 :: ebValues sf df size e q t (raw.drop size)
    else (destF df .rne 0 0 0 ((ofIntVal q).scale (e + 1))).1 :: ebValues sf df size e q t raw

/-- The length of a block and whether it passes R300, from its bytes up to L. -/
def ebCheck (size nb left : Nat) (last : Bool) (b : List Byte) : Option (Nat × Nat × Nat) :=
  let h := (b.getD 0 0).toNat
  let w := h % 64
  let esc := field h 6 1
  let mask := if esc = 1 then leNat ((b.drop 1).take 8) else 0
  let nEsc := ((List.range 64).map fun i => field mask i 1).sum
  let packed := cdiv (nb * w) 8
  let len := 1 + 8 * esc + packed + size * nEsc
  if w ≤ 32 ∧ h < 128 ∧ len ≤ left ∧ (last → len = left) ∧ mask < 2 ^ nb ∧
      leNat ((b.drop (1 + 8 * esc)).take packed) < 2 ^ (nb * w) then some (len, w, mask)
  else none

/-- What a run of EBX has come to: the codes written so far in reverse, and its end. -/
inductive EbEnd where
  | done
  | corrupt (b : Nat)
  | failed (f : Fail)

/-- Bytes of the stream from position `pos`, at most n. -/
def State.ebBytes (s : State) (k : Pkt) (src : Rec) (pos n : Nat) : Except Fail (List Byte × List Nat) :=
  match s.pktRead (s.pktPart k) k src.base ((offset src.base : Int) + pos) n with
  | .error f => .error f
  | .ok ks => .ok (ks.map (memGet s.mem), ks)

/-- Whether a block's bytes can be read: as much of it as its header and mask ask for, within L. -/
def State.ebBlockBytes (s : State) (k : Pkt) (src : Rec) (size nb pos left : Nat) : Except Fail (List Byte × List Nat) :=
  match s.ebBytes k src pos (min left 1) with
  | .error f => .error f
  | .ok (h, _) =>
    let hd := (h.getD 0 0).toNat
    match s.ebBytes k src pos (min left (1 + 8 * field hd 6 1)) with
    | .error f => .error f
    | .ok (m, _) =>
      let mask := if field hd 6 1 = 1 then leNat ((m.drop 1).take 8) else 0
      let nEsc := ((List.range 64).map fun i => field mask i 1).sum
      s.ebBytes k src pos (min left (1 + 8 * field hd 6 1 + cdiv (nb * (hd % 64)) 8 + size * nEsc))

/-- The blocks of a stream from one on: codes, keys read, end. -/
def State.ebBlocks (s : State) (k : Pkt) (src : Rec) (sf df : Fmt) (size : Nat) (e : Int) (len : Nat) :
    Nat → Nat → Nat → Nat → List Nat × List Nat × EbEnd
  | 0, _, pos, b => ([], [], if pos = len then .done else .corrupt b)
  | fuel + 1, n, pos, b =>
    if n = 0 then ([], [], if pos = len then .done else .corrupt b)
    else
      let nb := min n 64
      match s.ebBlockBytes k src size nb pos (len - pos) with
      | .error f => ([], [], .failed f)
      | .ok (bs, ks) =>
        match ebCheck size nb (len - pos) (n ≤ 64) bs with
        | none => ([], ks, .corrupt b)
        | some (bl, w, mask) =>
          let esc := field (bs.getD 0 0).toNat 6 1
          let packed := leNat ((bs.drop (1 + 8 * esc)).take (cdiv (nb * w) 8))
          let zs := (List.range nb).map fun i => (field packed (w * i) w, field mask i 1 == 1)
          let vs := ebValues sf df size e 0 zs (bs.drop (1 + 8 * esc + cdiv (nb * w) 8))
          let r := State.ebBlocks s k src sf df size e len fuel (n - nb) (pos + bl) (b + 1)
          (vs ++ r.1, ks ++ r.2.1, r.2.2)

/-- R298, R300 (DEDUCED, log entry 41). -/
def State.ebxPlan (s : State) (k : Pkt) : List OutEl × Status :=
  let src := k.op 0
  let dst := k.op 1
  match s.ebBytes k src 0 (min 16 src.spanSize) with
  | .error f => ([{ size := 8, wrs := .ok [], val := .error f }], (cOK, 0))
  | .ok (h, hk) =>
    match (if h.length < 16 then none else ebParse src.spanSize dst.count h) with
    | none => ([{ size := 0, wrs := .ok [], val := .ok [], reads := hk }], (cEB_CORRUPT, 0))
    | some (fmt, e, n, len) =>
      let sf := if fmt = 0x10 then fp64 else fp32
      let df := if dst.fmt = 0x10 then fp64 else fp32
      let r := s.ebBlocks k src sf df (if fmt = 0x10 then 8 else 4) e len (n / 64 + 1) n 16 0
      let els : List OutEl := r.1.zipIdx.map fun v =>
        { size := dst.bits, wrs := s.elWrite k dst (((v.2 * dst.bytes : Nat) : Int), 0), val := .ok [v.1] }
      let els := { size := 0, wrs := .ok [], val := .ok [], reads := hk ++ r.2.1 } :: els
      match r.2.2 with
      | .done => (els, (cOK, 0))
      | .corrupt b => (els, (cEB_CORRUPT, b % 2 ^ 16))
      | .failed f => (els ++ [{ size := 8, wrs := .ok [], val := .error f }], (cOK, 0))

/-- R298, R300. -/
def execEbx (q : PktId) (s : State) : Out := .next (s.runPacket q tEBX s.ebxPlan)

end Sys2Proof.Machine
end

