-- ==== Sys2Proof/Machine/Priv.lean ====
section
/-!
DEFINITION. Special registers: numbers 0x000-0x00B (05 R133), the privileged registers by number (14 R349-R362, 18 R429),
and the effects of their writes.
-/

namespace Sys2Proof.Machine

/-- A number clamped to a range (R349: the nearest legal value). -/
def clampN (lo hi v : Nat) : Nat := max lo (min v hi)

/-- CAP (00 R3). -/
def State.cap (s : State) : Word :=
  match s.variant with
  | .m4 => BitVec.ofNat 64 (1 * 2 ^ 16 + 8 * 2 ^ 8 + 4 * 2 ^ 2 + 2 + 1)
  | .m2 => BitVec.ofNat 64 (1 * 2 ^ 16 + 4 * 2 ^ 8 + 2 * 2 ^ 2)

/-- FP64 lane arithmetic and the error-bounded codec are present (00 R3, R4). -/
def State.lf64 (s : State) : Bool := s.variant == .m4
def State.ebc (s : State) : Bool := s.variant == .m4

/-- A special register below 0x100, for rank r (05 R133); none where reserved. -/
def State.specialRead (s : State) (r n : Nat) : Option Word :=
  let sp := (s.har r).sp
  match n with
  | 0x000 => some s.mcc
  | 0x001 => some sp.frame
  | 0x002 => some (BitVec.ofNat 64 r)
  | 0x003 => some s.cap
  | 0x004 => some 1
  | 0x005 => some (sp.vflag.setWidth 64)
  | 0x006 => some (sp.dflag.setWidth 64)
  | 0x007 => some sp.seed
  | 0x008 => some (sp.defgrp.setWidth 64)
  | 0x009 => some sp.fref
  | 0x00A => some sp.dalrt
  | 0x00B => some sp.dboff
  | _ => none

/-- A write below 0x100: the registers marked RO drop it. -/
def Special.write (p : Special) (n : Nat) (v : Word) : Special :=
  match n with
  | 0x005 => { p with vflag := v.setWidth 6 }
  | 0x006 => { p with dflag := v.setWidth 6 }
  | 0x007 => { p with seed := v }
  | 0x008 => { p with defgrp := v.setWidth 8 }
  | _ => p

/-- A watch entry as read (14 R361): CMD reads zero. -/
def Cew.word (c : Cew) : Word :=
  BitVec.ofNat 64 (b2n c.en * 2 ^ 63 + b2n c.halt * 2 ^ 60 + b2n c.ref * 2 ^ 59 + c.hdr % 2 ^ 48 / 64 * 64)

/-- GTSTAT as read (14 R358). -/
def Part.gtstat (p : Part) : Word :=
  BitVec.ofNat 64 (p.gtEntry.toNat * 2 ^ 16 + p.gtCode.toNat * 4 + b2n p.gtPend * 2 + b2n p.gtAct)

/-- A privileged register as rank r reads it (R350). -/
def State.privRead (s : State) (r n : Nat) : Word :=
  let h := s.har r
  let p := s.part (s.partOf r)
  let d := s.die (dieOf r)
  match n with
  | 0x100 => BitVec.ofNat 64 (h.sp.prev.toNat * 4 + h.sp.cur.toNat)
  | 0x101 => h.sp.tvec
  | 0x102 => h.sp.tscr0
  | 0x103 => h.sp.tscr1
  | 0x104 => h.sp.fvec
  | 0x200 => p.slip.setWidth 64
  | 0x201 => p.wdog
  | 0x202 => p.rtlim.setWidth 64
  | 0x203 => p.gtbase
  | 0x204 => p.gtstat
  | 0x205 => p.xlroot
  | 0x206 => BitVec.ofNat 64 (p.pmax.toNat * 2 ^ 16 + p.share.toNat)
  | 0x207 => p.suprank.setWidth 64
  | 0x300 => d.tdmt.setWidth 64
  | 0x301 => d.rguard.setWidth 64
  | 0x302 => d.rperiod.setWidth 64
  | 0x400 => s.partmap.setWidth 64
  | _ =>
    if 0x340 ≤ n ∧ n ≤ 0x37F then (s.cew (dieOf r) (n - 0x340)).word
    else if 0x410 ≤ n ∧ n ≤ 0x41F then s.ppbind.getD (n - 0x410) 0
    else 0

/-- The health bytes of a die in its scheduler block (17 R411), from 0x2800 to 0x28FF: counters, counts of records and
frames, retired harnesses, spare cells and rows, zeros. -/
def State.healthWords (s : State) (d : Nat) : List Word :=
  let mask := ((List.range 128).map fun h => b2n (s.har (128 * d + h)).ctl.retired * 2 ^ h).sum
  let cnt (i : Nat) : Word := (s.die d).cnt.getD i 0
  let n := s.hbm.getD (2 * d) {}
  let so := s.hbm.getD (2 * d + 1) {}
  [cnt 0, cnt 1, cnt 2, cnt 3, BitVec.ofNat 64 (so.recs.length * 2 ^ 16 + n.recs.length),
    BitVec.ofNat 64 (so.quar.length * 2 ^ 16 + n.quar.length), cnt 4, cnt 5, cnt 6, 0,
    BitVec.ofNat 64 mask, BitVec.ofNat 64 (mask / 2 ^ 64), cnt 7, cnt 8] ++ List.replicate 18 0

/-- The health bytes of a die are put into the block that a new GTBASE names, quarantined frames behind them (17 R411)
(DESIGN CHOICE, log entry 38). -/
def State.repairSummary (s : State) (d : Nat) : State :=
  let p := s.partOfDie d
  let s := match s.devStore p ((s.block d + 0x2800) % 2 ^ 48) (wordBytes (s.healthWords d)) needW with
    | .ok s => s
    | .error _ => s
  s.hbmSummary (2 * d)

/-- A write of GTBASE (R357): activation is pending. -/
def State.gtbaseWrite (s : State) (p : Nat) (v : Word) : State :=
  (s.diesOf p).foldl State.repairSummary
    (s.modPart p fun x => { x with gtbase := (v >>> 15) <<< 15, gtPend := true })

/-- A write of PARTMAP (R362): a new division is wanted; on the HL9-M2 PD2 and PD3 stay zero. -/
def State.partmapWrite (s : State) (v : Word) : State :=
  let b : BitVec 8 := v.setWidth 8
  { s with partmapNew := some (if s.variant = .m2 then b &&& 0x0F else b) }

/-- A bank deadline pulled in to now + D (R360). -/
def pullIn (now d : Nat) (b : Bank) : Bank := { b with deadline := min b.deadline (now + d) }

/-- A write of RPERIOD (R360): the nearest legal value; a shortened period pulls every deadline of the die in. -/
def State.rperiodWrite (s : State) (d : Nat) (v : Word) : State :=
  let x := s.die d
  let n := clampN (x.rguard.toNat + 196800) 28200000000 (wf v 0 36)
  let s' := s.modDie d fun y => { y with rperiod := BitVec.ofNat 36 n }
  if n < x.rperiod.toNat then
    (List.range' (128 * d) 128).foldl (fun s r => s.modHar r fun h =>
      { h with dl0 := min h.dl0 (s.mcc.toNat + n), banks := h.banks.map fun kb => (kb.1, pullIn s.mcc.toNat n kb.2) }) s'
  else s'

/-- A write of PWRSHARE (R355, R383): PMAX at F only; SHARE at most PMAX. -/
def State.pwrshareWrite (s : State) (p : Nat) (level : Nat) (v : Word) : State :=
  s.modPart p fun x =>
    let pm := if level = 2 then wf v 16 16 else x.pmax.toNat
    { x with pmax := BitVec.ofNat 16 pm, share := BitVec.ofNat 16 (min (wf v 0 16) pm) }

/-- A watch-entry write (R361): the command first, then EN (DEDUCED, log entry 37). -/
def State.cewWrite (s : State) (d n : Nat) (v : Word) : State :=
  let s := if wf v 61 2 = 1 then s.queueRetry d n else if wf v 61 2 = 2 then s.queueAbandon d n else s
  let hdr := wf v 6 42 * 64
  if wf v 63 1 = 0 then s.queueStop d n hdr else s.queueEnter d n hdr

/-- The plain registers: each field takes its written bits, clamped to its legal range (R349). -/
def State.plainWrite (s : State) (r n : Nat) (v : Word) : State :=
  let p := s.partOf r
  let d := dieOf r
  match n with
  | 0x100 => s.modSp r fun x => { x with prev := BitVec.ofNat 2 (min (wf v 2 2) 2) }
  | 0x101 => s.modSp r fun x => { x with tvec := (v >>> 6) <<< 6 }
  | 0x102 => s.modSp r fun x => { x with tscr0 := v }
  | 0x103 => s.modSp r fun x => { x with tscr1 := v }
  | 0x104 => s.modSp r fun x => { x with fvec := (v >>> 6) <<< 6 }
  | 0x200 => s.modPart p fun x => { x with slip := BitVec.ofNat 4 (clampN 1 8 (wf v 0 4)) }
  | 0x201 => s.modPart p fun x => { x with wdog := v }
  | 0x202 => s.modPart p fun x => { x with rtlim := BitVec.ofNat 21 (min (wf v 0 21) (2 ^ 20)) }
  | 0x205 => s.modPart p fun x => { x with xlroot := ((v >>> 16) <<< 16) ||| (v &&& 1) }
  | 0x207 =>
    let k := wf v 0 9
    s.modPart p fun x => { x with suprank := if (s.ranksOf p).contains k then BitVec.ofNat 9 k else (s.freshPart p).suprank }
  | 0x300 => s.modDie d fun x => { x with tdmt := BitVec.ofNat 12 (clampN 256 4000 (wf v 0 12)) }
  | 0x301 => s.modDie d fun x => { x with rguard := BitVec.ofNat 32 (clampN 196800 (2 ^ 32 - 1) (wf v 0 32)) }
  | _ =>
    if 0x410 ≤ n ∧ n ≤ 0x41F then
      let old := (s.ppbind.getD (n - 0x410) 0).toNat
      let keep := field old 62 1 * 2 ^ 62 + field old 0 32
      { s with ppbind := s.ppbind.set (n - 0x410) (BitVec.ofNat 64 (wf v 63 1 * 2 ^ 63 + wf v 58 4 * 2 ^ 58 + keep)) }
    else s

/-- A privileged register written by rank r at the level of its store's issue, in the cycle in which the store performs
(R349). -/
def State.privWrite (s : State) (r n level : Nat) (v : Word) : State :=
  if n = 0x203 then s.gtbaseWrite (s.partOf r) v
  else if n = 0x206 then s.pwrshareWrite (s.partOf r) level v
  else if n = 0x302 then s.rperiodWrite (dieOf r) v
  else if n = 0x400 then s.partmapWrite v
  else if 0x340 ≤ n ∧ n ≤ 0x37F then s.cewWrite (dieOf r) (n - 0x340) v
  else s.plainWrite r n v

/-! The events of these writes. The subject is in State.ev: rank a (die a for a watch entry), register or entry b, value v. -/

/-- R361: a watch-entry write with EN = 1. -/
def execQueueEnter (s : State) : Out := .next (s.queueEnter s.ev.a s.ev.b (wf s.ev.v 6 42 * 64))

/-- R361: a watch-entry write with EN = 0. -/
def execQueueStop (s : State) : Out := .next (s.queueStop s.ev.a s.ev.b (wf s.ev.v 6 42 * 64))

/-- R308, R361. -/
def execRetry (s : State) : Out := .next (s.queueRetry s.ev.a s.ev.b)

/-- R308, R361. -/
def execAbandon (s : State) : Out := .next (s.queueAbandon s.ev.a s.ev.b)

/-- R357: the partition of rank a. -/
def execGtbaseWrite (s : State) : Out := .next (s.gtbaseWrite (s.partOf s.ev.a) s.ev.v)

/-- R362. -/
def execPartmapWrite (s : State) : Out := .next (s.partmapWrite s.ev.v)

/-- R360: the die of rank a. -/
def execRperiodWrite (s : State) : Out := .next (s.rperiodWrite (dieOf s.ev.a) s.ev.v)

/-- R383: by rank a, at its level. -/
def execPwrshareWrite (s : State) : Out :=
  .next (s.pwrshareWrite (s.partOf s.ev.a) (s.har s.ev.a).level s.ev.v)

/-- R349: register b, by rank a. -/
def execPrivilegedRegisterWrite (s : State) : Out := .next (s.plainWrite s.ev.a s.ev.b s.ev.v)

/-- Whether no harness of some ranks runs, holds or saves a node (R357, R362) (DESIGN CHOICE, log entry 51). -/
def State.quiet (s : State) (rs : List Nat) : Bool :=
  rs.all fun r => match (s.har r).ctl.mode with
    | .idle => true
    | .test _ _ => true
    | _ => (s.har r).ctl.mode == .run && (s.har r).ctl.node.isNone

/-- The dies whose partition a new map changes. -/
def State.changedDies (s : State) (m : BitVec 8) : List Nat :=
  (List.range s.nDies).filter fun d => field m.toNat (2 * d) 2 != s.partOfDie d

/-- Whether a die is idle for R362. -/
def State.dieIdle (s : State) (d : Nat) : Bool :=
  s.quiet (List.range' (128 * d) 128) && !((s.die d).sched.ready.any (·.saved) || (s.die d).sched.late.any (·.1.saved)) &&
    (s.die d).pkts.isEmpty && (s.die d).cew.all fun kc => !kc.2.en

/-- The new partition map takes effect once every die that changes is idle (R362). -/
def execPartmapChange (s : State) : Out :=
  match s.partmapNew with
  | none => .next s
  | some m =>
    if (s.changedDies m).all s.dieIdle then .next { s with partmap := m, partmapNew := none } else .next s

end Sys2Proof.Machine
end

