-- ==== Sys2Proof/Machine/Transc.lean ====
section
/-!
DEFINITION. The correctly rounded functions of 03 R96 and the seeds of R98-R100. A value that is irrational is found as an
interval of integers at a working precision that doubles until the first 100 bits of both ends agree; with the sticky
mark these decide every rounding, the 32 bits of SR included.
-/

namespace Sys2Proof.Num

/-! Constants and series, at w fractional bits -/

/-- The terms of atanh(1/k) * 2^w, each rounded down. -/
def atanhInv (k : Nat) : Nat → Nat → Nat → Nat
  | 0, _, _ => 0
  | fuel + 1, pow, n => if pow = 0 then 0 else pow / n + atanhInv k fuel (pow / (k * k)) (n + 2)

/-- ln 2 * 2^w, within w units below. -/
def ln2Fix (w : Nat) : Nat := 2 * atanhInv 3 w (2 ^ w / 3) 1

/-- The terms of arctan(1/k) * 2^w. -/
def atanInv (k : Nat) : Nat → Nat → Nat → Bool → Int
  | 0, _, _, _ => 0
  | fuel + 1, pow, n, neg =>
    if pow = 0 then 0
    else (if neg then -((pow / n : Nat) : Int) else ((pow / n : Nat) : Int)) + atanInv k fuel (pow / (k * k)) (n + 2) !neg

/-- pi * 2^w, within 20 w units. -/
def piFix (w : Nat) : Nat := (16 * atanInv 5 w (2 ^ w / 5) 1 false - 4 * atanInv 239 w (2 ^ w / 239) 1 false).toNat

/-- Σ x^n / n! from the term t on: e^x - (the terms before), for 0 ≤ x < 1. -/
def expTerms (w x : Nat) : Nat → Nat → Nat → Nat
  | 0, _, _ => 0
  | fuel + 1, t, n => if t = 0 then 0 else t + expTerms w x fuel (t * x / 2 ^ w / n) (n + 1)

/-- e^x * 2^w for x / 2^w in [0, 1), within 4 w units below. -/
def expFix (w x : Nat) : Nat := expTerms w x (w + 8) (2 ^ w) 1

/-- Σ z^(2k+1) / (2k+1). -/
def atanhTerms (w z2 : Nat) : Nat → Nat → Nat → Nat
  | 0, _, _ => 0
  | fuel + 1, pow, n => if pow = 0 then 0 else pow / n + atanhTerms w z2 fuel (pow * z2 / 2 ^ w) (n + 2)

/-- Alternating sums of x^2-series: the term t, divided by d(n) at each step. -/
def altTerms (w x2 : Nat) (den : Nat → Nat) : Nat → Nat → Nat → Bool → Int
  | 0, _, _, _ => 0
  | fuel + 1, t, n, neg =>
    if t = 0 then 0
    else (if neg then -(t : Int) else (t : Int)) + altTerms w x2 den fuel (t * x2 / 2 ^ w / den n) (n + 1) !neg

/-- Σ (-1)^n x^(2n+1) / (n! (2n+1)): p is x^(2n+1)/n!. -/
def erfTerms (w x2 : Nat) : Nat → Nat → Nat → Bool → Int
  | 0, _, _, _ => 0
  | fuel + 1, p, n, neg =>
    if p = 0 then 0
    else
      let t := p / (2 * n + 1)
      (if neg then -(t : Int) else (t : Int)) + erfTerms w x2 fuel (p * x2 / 2 ^ w / (n + 1)) (n + 1) !neg

/-- m * 2^e at w fractional bits, rounded down. -/
def fixAt (m : Nat) (e : Int) (w : Nat) : Nat :=
  let q := e + w
  if 0 ≤ q then m * 2 ^ q.toNat else m / 2 ^ (-q).toNat

/-- An irrational magnitude between lo and hi units of 2^e. -/
structure Bounds where
  lo : Nat
  hi : Nat
  e : Int
deriving DecidableEq, Repr

/-- The first 100 bits of an irrational magnitude, with the sticky mark (DESIGN CHOICE, log entry 54). -/
def certify (neg : Bool) (f : Nat → Bounds) : Nat → Nat → Val
  | 0, w => let b := f w; .fin neg b.lo b.e true
  | fuel + 1, w =>
    let b := f w
    let g := bitLen b.lo - 100
    if 110 ≤ bitLen b.lo ∧ b.lo / 2 ^ g = b.hi / 2 ^ g then .fin neg (b.lo / 2 ^ g) (b.e + g) true
    else certify neg f fuel (2 * w)

/-- An irrational magnitude by its bounds at each working precision. -/
def irrational (neg : Bool) (f : Nat → Bounds) : Val := certify neg f 8 256

/-- A value a little below 1, and a little above it. -/
def belowOne (neg : Bool) : Val := .fin neg (2 ^ 90 - 1) (-90) true
def aboveOne : Val := .fin false (2 ^ 90) (-90) true

/-- Magnitude m * 2^e is at least 2^k, below 2^k. -/
def atLeast (m : Nat) (e k : Int) : Bool := decide (m ≠ 0) && decide (k ≤ (bitLen m : Int) - 1 + e)

/-! Exponentials -/

/-- e^x for x = ±m 2^e, away from 0 and within 2^14: floor(x / ln 2) halves of the range taken out. -/
def expBounds (neg : Bool) (m : Nat) (e : Int) (w : Nat) : Bounds :=
  let w := w + 64
  let l2 := ln2Fix w
  let x := fixAt m e w
  let k : Int := if neg then -((x / l2 : Nat) : Int) - 1 else ((x / l2 : Nat) : Int)
  let r : Int := (if neg then -(x : Int) else (x : Int)) - k * l2
  let r := max 0 r
  let y := expFix w r.toNat
  let err := 2 ^ 20 * w
  ⟨y - err, y + err, k - w⟩

/-- e^x (R96). -/
def expVal (a : Val) : Val × Flags :=
  match a with
  | .nan => (.nan, 0)
  | .inf n => (if n then .zero false else .inf false, 0)
  | .fin n m e _ =>
    if m = 0 then (.fin false 1 0 false, 0)
    else if atLeast m e 14 then (if n then .fin false 1 (-20000) true else .fin false 1 20000 true, 0)
    else if !atLeast m e (-100) then (if n then belowOne false else aboveOne, 0)
    else (irrational false (expBounds n m e), 0)

/-- 2^x: the integer part is exact. -/
def exp2Val (a : Val) : Val × Flags :=
  match a with
  | .nan => (.nan, 0)
  | .inf n => (if n then .zero false else .inf false, 0)
  | .fin n m e _ =>
    if m = 0 then (.fin false 1 0 false, 0)
    else if atLeast m e 15 then (if n then .fin false 1 (-40000) true else .fin false 1 40000 true, 0)
    else if !atLeast m e (-100) then (if n then belowOne false else aboveOne, 0)
    else
      let (ip, frac) := if 0 ≤ e then (m * 2 ^ e.toNat, false) else (m / 2 ^ (-e).toNat, m % 2 ^ (-e).toNat != 0)
      if !frac then (.fin false 1 (if n then -(ip : Int) else ip) false, 0)
      else
        -- x = k + f with 0 < f < 1
        let k : Int := if n then -(ip : Int) - 1 else ip
        let d := (-e).toNat
        let f := if n then 2 ^ d - m % 2 ^ d else m % 2 ^ d
        (irrational false fun w =>
          let w := w + 64
          let r := fixAt f e w * ln2Fix w / 2 ^ w
          let y := expFix w r
          let err := 2 ^ 20 * w
          ⟨y - err, y + err, k - w⟩, 0)

/-! Logarithms -/

/-- |ln x| and its sign, for x = m 2^e > 0 that is not 1: x = 2^k c with c in [3/4, 3/2). -/
def lnBounds (m : Nat) (e : Int) (w : Nat) : Bool × Nat × Nat :=
  let l := bitLen m
  -- c = m / 2^(l-1) or half of it
  let big := decide (3 * 2 ^ l ≤ 4 * m)
  let k : Int := e + l - (if big then 0 else 1)
  let d : Nat := if big then 2 ^ l else 2 ^ (l - 1)
  let zneg := decide (m < d)
  let num := if zneg then d - m else m - d
  let z := num * 2 ^ w / (m + d)
  let t : Int := 2 * atanhTerms w (z * z / 2 ^ w) (w + 8) z 1
  let y : Int := k * ln2Fix w + (if zneg then -t else t)
  let err := 2 ^ 13 * w
  (decide (y < 0), y.natAbs - err, y.natAbs + err)

/-- ln x (R96). -/
def lnVal (a : Val) : Val × Flags :=
  match a with
  | .nan => (.nan, 0)
  | .inf n => if n then (.nan, fIV) else (.inf false, 0)
  | .fin n m e _ =>
    if m = 0 then (.inf true, fDZ)
    else if n then (.nan, fIV)
    else if eqVal a (.fin false 1 0 false) then (.zero false, 0)
    else
      let neg := ltVal a (.fin false 1 0 false)
      (irrational neg fun w => let (_, lo, hi) := lnBounds m e w; ⟨lo, hi, -(w : Int)⟩, 0)

/-- log2 x: exact for powers of two. -/
def log2Val (a : Val) : Val × Flags :=
  match a with
  | .nan => (.nan, 0)
  | .inf n => if n then (.nan, fIV) else (.inf false, 0)
  | .fin n m e _ =>
    if m = 0 then (.inf true, fDZ)
    else if n then (.nan, fIV)
    else if m = 2 ^ (bitLen m - 1) then (ofInt (e + bitLen m - 1) 0 false, 0)
    else
      let neg := ltVal a (.fin false 1 0 false)
      (irrational neg fun w =>
        let (_, lo, hi) := lnBounds m e w
        let l2 := ln2Fix w
        ⟨lo * 2 ^ w / (l2 + 4 * w), hi * 2 ^ w / l2 + 1, -(w : Int)⟩, 0)

/-! sin and cos of multiples of pi -/

/-- sin(pi u) and cos(pi u) for u = a / 2^d in (0, 1/4], at w bits. -/
def sinPiFix (a d w : Nat) : Int :=
  let x := a * piFix w / 2 ^ d
  altTerms w (x * x / 2 ^ w) (fun n => (2 * n + 2) * (2 * n + 3)) (w + 8) x 0 false

def cosPiFix (a d w : Nat) : Int :=
  let x := a * piFix w / 2 ^ d
  altTerms w (x * x / 2 ^ w) (fun n => (2 * n + 1) * (2 * n + 2)) (w + 8) (2 ^ w) 0 false

/-- sin(pi t) for t = a / 2^d in (0, 1/2), as a magnitude. -/
def sinFirst (neg : Bool) (a d : Nat) : Val :=
  irrational neg fun w =>
    let w := w + 32
    let y := if 4 * a ≤ 2 ^ d then sinPiFix a d w else cosPiFix (2 ^ d - 2 * a) (d + 1) w
    let err := 2 ^ 8 * w
    ⟨y.toNat - err, y.toNat + err, -(w : Int)⟩

/-- sin(pi t) for t = a / 2^d in [0, 2), d ≥ 1, not a multiple of 1/2: by quarter turns. -/
def sinTurn (neg : Bool) (a d : Nat) : Val :=
  let half := 2 ^ (d - 1)
  let q := a / half
  let r := a % half
  -- the first half-turn rises in quarter 0 and falls in quarter 1
  let neg := if 2 ≤ q then !neg else neg
  sinFirst neg (if q % 2 = 0 then r else half - r) d

/-- sin(pi x) (R96). -/
def sinpiVal (a : Val) : Val × Flags :=
  match a with
  | .nan => (.nan, 0)
  | .inf _ => (.nan, fIV)
  | .fin n m e _ =>
    if m = 0 then (.zero n, 0)
    else if 0 ≤ e then (.zero n, 0)
    else
      let d := (-e).toNat
      let t := m % 2 ^ (d + 1)
      if t % 2 ^ d = 0 then (.zero n, 0)
      else if t % 2 ^ (d - 1) = 0 then (.fin (xor n (decide (2 ^ d < t))) 1 0 false, 0)
      else (sinTurn n t d, 0)

/-- cos(pi x) (R96): sin(pi (x + 1/2)). -/
def cospiVal (a : Val) : Val × Flags :=
  match a with
  | .nan => (.nan, 0)
  | .inf _ => (.nan, fIV)
  | .fin _ m e _ =>
    if m = 0 then (.fin false 1 0 false, 0)
    else
      let d := if 0 ≤ e then 1 else (-e).toNat
      let x := if 0 ≤ e then m * 2 ^ (e.toNat + 1) else m
      let t := (x + 2 ^ (d - 1)) % 2 ^ (d + 1)
      if t % 2 ^ d = 0 then (.zero false, 0)
      else if t % 2 ^ (d - 1) = 0 then (.fin (decide (2 ^ d < t)) 1 0 false, 0)
      else if 1 < d ∧ !atLeast m e (-60) then (belowOne false, 0)
      else (sinTurn false t d, 0)

/-! tanh and erf -/

/-- A value just below |x|. -/
def below (neg : Bool) (m : Nat) (e : Int) : Val := .fin neg (m * 2 ^ 120 - 1) (e - 120) true

/-- tanh x (R96). -/
def tanhVal (a : Val) : Val × Flags :=
  match a with
  | .nan => (.nan, 0)
  | .inf n => (.fin n 1 0 false, 0)
  | .fin n m e _ =>
    if m = 0 then (.zero n, 0)
    else if atLeast m e 6 then (belowOne n, 0)
    else if !atLeast m e (-100) then (below n m e, 0)
    else
      (irrational n fun w =>
        let b := expBounds false m (e + 1) w
        -- y = (E - 1) / (E + 1), E between b.lo and b.hi units of 2^b.e
        let one := 2 ^ (-b.e).toNat
        let lo := (b.lo - one) * 2 ^ w / (b.lo + one)
        let hi := (b.hi - one) * 2 ^ w / (b.hi + one) + 1
        ⟨lo, hi, -(w : Int)⟩, 0)

/-- erf x (R96): 2 / sqrt(pi) times its series. -/
def erfVal (a : Val) : Val × Flags :=
  match a with
  | .nan => (.nan, 0)
  | .inf n => (.fin n 1 0 false, 0)
  | .fin n m e _ =>
    if m = 0 then (.zero n, 0)
    else if atLeast m e 3 then (belowOne n, 0)
    else
      (irrational n fun w =>
        let w := w + 160
        let x := fixAt m e w
        let s := erfTerms w (x * x / 2 ^ w) (4 * w) x 0 false
        let rp := isqrt (piFix (2 * w))
        let y := 2 * s.toNat * 2 ^ w / rp
        let err := 2 ^ 130 * w
        ⟨y - err, y + err, -(w : Int)⟩, 0)

/-- 1 / a (R96). -/
def rcpVal (a : Val) : Val × Flags :=
  match a with
  | .fin n m _ _ => if m = 0 then (.inf n, fDZ) else div (.fin false 1 0 false) a
  | _ => div (.fin false 1 0 false) a

/-! The seeds (R98-R100) -/

/-- num / den rounded to an integer, ties to even. -/
def rneDiv (num den : Nat) : Nat :=
  let q := num / den
  let r := num % den
  if 2 * r > den ∨ (2 * r = den ∧ q % 2 = 1) then q + 1 else q

/-- The top k fraction bits of a non-zero mantissa, and the exponent E of R98. -/
def topBits (m : Nat) (e : Int) (k : Nat) : Nat × Int :=
  let l := bitLen m
  ((m * 2 ^ (k + 1) / 2 ^ l) % 2 ^ k, e + l - 1)

/-- VRCPE on a value; T is a multiple of 2^-14. -/
def rcpSeed (a : Val) : Val × Flags :=
  match a with
  | .nan => (.nan, 0)
  | .inf n => (.zero n, 0)
  | .fin n m e _ =>
    if m = 0 then (.inf n, fDZ)
    else
      let (jj, ex) := topBits m e 12
      (.fin n (rneDiv (2 ^ 14 * 8192) (8192 + 2 * jj + 1)) (-14 - ex) false, 0)

/-- The integer T with T / 2^14 nearest to 1 / sqrt(c), c = c2 / 4096: T is nearest where (2 T - 1)^2 c < 2^30 < (2 T + 1)^2 c. -/
def rsqSeedT (c2 : Nat) : Nat :=
  -- floor(2^15 / sqrt c), then the nearest half
  let f := isqrt (2 ^ 30 * 4096 / c2)
  (f + 1) / 2

/-- VRSQE on a value. -/
def rsqSeed (a : Val) : Val × Flags :=
  match a with
  | .nan => (.nan, 0)
  | .inf n => if n then (.nan, fIV) else (.zero false, 0)
  | .fin n m e _ =>
    if m = 0 then (.inf n, fDZ)
    else if n then (.nan, fIV)
    else
      let (top, ex) := topBits m e 11
      let p := (ex % 2).toNat
      let q := (ex - p) / 2
      (.fin false (rsqSeedT ((4096 + 2 * top + 1) * 2 ^ p)) (-14 - q) false, 0)

/-- A seed in a type (R100): a magnitude above the largest finite value is that value, with no flag; else RNE without
flags. -/
def seedDest (f : Fmt) (v : Val) : Nat :=
  match v with
  | .fin n m e _ =>
    if ltScaled f.maxM f.maxE m e then toCode f (.fin n f.maxM f.maxE false) else toCode f (round f .rne 0 v).1
  | v => toCode f v

end Sys2Proof.Num
end

