-- ==== Sys2Proof/Machine/VArith.lean ====
section
/-!
DEFINITION. V instructions that act element by element: arithmetic, scalar forms, dot products, functions and seeds,
comparison, classification, selection, logic, shifts (07 R205-R221), and what every V instruction shares.
-/

namespace Sys2Proof.Machine

open Sys2Proof.Num

/-! What every V instruction shares -/

/-- What a V instruction is, beyond its effect: the failing check of its word, the register areas in bytes it reads and
writes (R206), the size for its occupancy (R208), whether its occupancy follows vl, its latency, its fills, whether it rounds
by SR. -/
structure VForm where
  bad : Bool
  areas : List Nat := []
  size : Nat := 0
  lat : Nat
  fills : List FeReg := []
  sr : Bool := false

/-- The occupancy of R208. -/
def occupancy (vl size : Nat) : Nat := max 1 (cdiv (vl * size) 128)

/-- A V instruction issues; `body` gives its result from the harness, the ordinal J and the seed. -/
def State.vIssue (s : State) (w : VWord) (f : VForm) (body : Harness → Nat → Nat → List Eff) : State :=
  let vl := (s.har s.cur).vl.toNat
  let occ := if f.size = 0 then 1 else occupancy vl f.size
  let bad : Option Nat :=
    if f.bad then some cILLEGAL_INSTR else if f.areas.any (fun n => decide (2048 < n)) then some cVL_RANGE else none
  s.issue { e := .v, gk := w.gk, gn := w.gn, bad := bad, takes := vTakes w, fills := f.fills, occ := occ } fun s =>
    let (s', j) := s.nextJ .v f.sr
    s'.at .v (f.lat + occ - 1) (body (s.har s.cur) j (s.eng .v).seed)

/-- The fill of VD. -/
def vFill (w : VWord) : List FeReg := if w.fd then [.v w.vd.toNat] else []

/-- The random bits of element j of a cell (03 R78). -/
def vRandom (seed j cell el : Nat) : Nat := srBits seed j (4096 * cell + el)

/-- The results of one cell: element codes of w bytes from element 0 of VD on, with their flags. -/
def cellEffs (w : VWord) (size cell : Nat) (rs : List (Nat × Flags)) : List Eff :=
  (if rs.isEmpty then [] else [.v cell w.vd.toNat 0 (elemBytes size (rs.map (·.1)))]) ++ vflagEff (orFlags (rs.map (·.2)))

/-- An element-wise instruction: `src` are the operands' registers with their element sizes, `el` computes element j of a
cell from its operands. -/
def vMap (h : Harness) (w : VWord) (size : Nat) (srcs : List (Nat × Nat)) (el : Nat → Nat → List Nat → Nat × Flags) :
    List Eff :=
  let vl := h.vl.toNat
  cells.flatMap fun cell =>
    let cols := srcs.map fun s => h.velems cell s.1 s.2 vl
    let rs := (List.range vl).zip (cols.foldr (fun c rows => List.zipWith (· :: ·) c rows) (List.replicate vl []))
    cellEffs w size cell (rs.map fun jr => el cell jr.1 jr.2)

/-- R212: EXT holds a rounding for F types and zero for I types. -/
def extRound (w : VWord) : Bool := if vIsF w then decide (w.ext.toNat ≤ 4) else w.ext == 0

/-- The rounding is SR. -/
def vSr (w : VWord) : Bool := vIsF w && vRnd w == 4

/-! Arithmetic (R213, R214) -/

/-- The operations of 0x01-0x08 and 0x11-0x16. -/
inductive ArOp where
  | add | sub | mul | fma | min | max | mulh | absd
deriving DecidableEq, Repr

/-- The exact value on floating operands. -/
def ArOp.float (o : ArOp) (mode : Sys2Proof.Num.Mode) (a b c : Val) : Val × Flags :=
  match o with
  | .add => Num.add mode a b
  | .sub => Num.add mode a (negate b)
  | .mul => Num.mul a b
  | .fma => Num.fma mode a b c
  | .min => (minVal a b, 0)
  | .max => (maxVal a b, 0)
  | .mulh => (.nan, 0)
  | .absd => let (d, f) := Num.add mode a (negate b); (d.abs, f)

/-- The exact value on integer operands; VMULH shifts the exact product, also a negative one of an N type whose operand is negated
(DESIGN CHOICE, log entry 64). -/
def ArOp.int (o : ArOp) (width : Nat) (a b c : Int) : Int :=
  match o with
  | .add => a + b
  | .sub => a - b
  | .mul => a * b
  | .fma => a * b + c
  | .min => Min.min a b
  | .max => Max.max a b
  | .mulh => a * b / ((2 ^ width : Nat) : Int)
  | .absd => ((a - b).natAbs : Int)

/-- DEST of a modified operation on element codes (R83, R84). -/
def arElem (w : VWord) (o : ArOp) (r32 a b c : Nat) : Nat × Flags :=
  match vT w with
  | .f t =>
    let (v, f) := o.float (vMode w) ((ofCode t a).modify w.na w.aa) ((ofCode t b).modify w.nb w.ab)
      ((ofCode t c).modify w.nc w.ac)
    let (r, g) := destF t (vMode w) r32 (vP w) w.clamp.toNat v
    (r, f ||| g)
  | .i t =>
    let v := o.int t.w (modInt w.na w.aa (t.ofCode a)) (modInt w.nb w.ab (t.ofCode b)) (modInt w.nc w.ac (t.ofCode c))
    (destI t (vP w) w.clamp.toNat v, 0)

/-- The use of the word by an arithmetic form. -/
def arUse (o : ArOp) (scalar : Bool) : VUse :=
  { types := if o = .mulh then tyI else tyA
    b := if scalar then .c else .v
    c := if o = .fma then .v else .z
    ma := true, mb := true, mc := o == .fma, cp := true }

/-- Occupancy size of arithmetic: 16 for F64 (R208). -/
def arSize (w : VWord) : Nat := if w.ty = 0 then 16 else (vT w).size

/-- Opcodes 0x01-0x08, and with `scalar` 0x11-0x16. -/
def State.vArith (s : State) (w : VWord) (o : ArOp) (scalar : Bool) : State :=
  let vl := (s.har s.cur).vl.toNat
  let size := (vT w).size
  let form : VForm :=
    { bad := vBad w (arUse o scalar) s.lf64 || !extRound w, areas := [vl * size], size := arSize w
      lat := if vIsF w then 6 else 2, fills := vFill w, sr := vSr w }
  s.vIssue w form fun h j seed =>
    let sc := (h.vc.getD w.vb.toNat 0).toNat % 2 ^ (8 * size)
    let srcs := [(w.va.toNat, size)] ++ (if scalar then [] else [(w.vb.toNat, size)]) ++
      (if o = .fma then [(w.vc.toNat, size)] else [])
    vMap h w size srcs fun cell i xs =>
      let xs := if scalar then xs.take 1 ++ [sc] ++ xs.drop 1 else xs
      arElem w o (vRandom seed j cell i) (xs.getD 0 0) (xs.getD 1 0) (xs.getD 2 0)

def execVadd (w : VWord) (s : State) : Out := .next (s.vArith w .add false)
def execVsub (w : VWord) (s : State) : Out := .next (s.vArith w .sub false)
def execVmul (w : VWord) (s : State) : Out := .next (s.vArith w .mul false)
def execVfma (w : VWord) (s : State) : Out := .next (s.vArith w .fma false)
def execVmin (w : VWord) (s : State) : Out := .next (s.vArith w .min false)
def execVmax (w : VWord) (s : State) : Out := .next (s.vArith w .max false)
def execVmulh (w : VWord) (s : State) : Out := .next (s.vArith w .mulh false)
def execVabsd (w : VWord) (s : State) : Out := .next (s.vArith w .absd false)
def execVadds (w : VWord) (s : State) : Out := .next (s.vArith w .add true)
def execVsubs (w : VWord) (s : State) : Out := .next (s.vArith w .sub true)
def execVmuls (w : VWord) (s : State) : Out := .next (s.vArith w .mul true)
def execVfmas (w : VWord) (s : State) : Out := .next (s.vArith w .fma true)
def execVmins (w : VWord) (s : State) : Out := .next (s.vArith w .min true)
def execVmaxs (w : VWord) (s : State) : Out := .next (s.vArith w .max true)

/-! Dot products (R215) -/

def dotUse (ty : Nat) : VUse := { types := [ty], c := .v, cp := true }

/-- Four INT8 products and an INT32 addend. -/
def dot4 (a b c : Nat) : Int :=
  ((List.range 4).map fun k => i8.ofCode (field a (8 * k) 8) * i8.ofCode (field b (8 * k) 8)).foldl (· + ·) (i32.ofCode c)

/-- Two BF16 products and an FP32 addend, exact. -/
def dot2 (a b c : Nat) : Val × Flags :=
  let bf (x k : Nat) : Val := ofCode bf16 (field x (16 * k) 16)
  if (bf a 0).isNan || (bf a 1).isNan || (bf b 0).isNan || (bf b 1).isNan || (ofCode fp32 c).isNan then (.nan, 0)
  else
    let (p, f) := Num.mul (bf a 0) (bf b 0)
    let (q, g) := Num.mul (bf a 1) (bf b 1)
    if p.isNan || q.isNan then (.nan, f ||| g)
    else
      let (t, k) := Num.add .rne p q
      if t.isNan then (.nan, k)
      else Num.add .rne t (ofCode fp32 c)

def State.vDot (s : State) (w : VWord) (ty lat : Nat) (el : Nat → Nat → Nat → Nat × Flags) : State :=
  let vl := (s.har s.cur).vl.toNat
  let form : VForm :=
    { bad := vBad w (dotUse ty) s.lf64 || w.ext != 0, areas := [4 * vl], size := 4, lat := lat, fills := vFill w }
  s.vIssue w form fun h _ _ => vMap h w 4 [(w.va.toNat, 4), (w.vb.toNat, 4), (w.vc.toNat, 4)] fun _ _ xs =>
    el (xs.getD 0 0) (xs.getD 1 0) (xs.getD 2 0)

def execVdot4 (w : VWord) (s : State) : Out :=
  .next (s.vDot w 5 4 fun a b c => (destI i32 (vP w) w.clamp.toNat (dot4 a b c), 0))

def execVdot2 (w : VWord) (s : State) : Out :=
  .next (s.vDot w 1 6 fun a b c =>
    let (v, f) := dot2 a b c
    let (r, g) := destF fp32 .rne 0 (vP w) w.clamp.toNat v
    (r, f ||| g))

/-! Functions and seeds (R216) -/

/-- A function of F operands: its exact value with flags, rounded once. -/
def State.vFunc (s : State) (w : VWord) (two : Bool) (fn : Val → Val → Val × Flags) : State :=
  let vl := (s.har s.cur).vl.toNat
  let size := (vT w).size
  let use : VUse := { types := tyF, b := if two then .v else .z, ma := true, mb := two, cp := true }
  let form : VForm :=
    { bad := vBad w use s.lf64 || !extRound w, areas := [vl * size], size := arSize w, lat := 14, fills := vFill w
      sr := vSr w }
  s.vIssue w form fun h j seed =>
    vMap h w size ([(w.va.toNat, size)] ++ if two then [(w.vb.toNat, size)] else []) fun cell i xs =>
      match vT w with
      | .i _ => (0, 0)
      | .f t =>
        let (v, f) := fn ((ofCode t (xs.getD 0 0)).modify w.na w.aa) ((ofCode t (xs.getD 1 0)).modify w.nb w.ab)
        let (r, g) := destF t (vMode w) (vRandom seed j cell i) (vP w) w.clamp.toNat v
        (r, f ||| g)

def execVrcp (w : VWord) (s : State) : Out := .next (s.vFunc w false fun a _ => rcpVal a)
def execVrsq (w : VWord) (s : State) : Out := .next (s.vFunc w false fun a _ => Num.rsqrt a)
def execVsqrt (w : VWord) (s : State) : Out := .next (s.vFunc w false fun a _ => Num.sqrt a)
def execVexp2 (w : VWord) (s : State) : Out := .next (s.vFunc w false fun a _ => exp2Val a)
def execVlog2 (w : VWord) (s : State) : Out := .next (s.vFunc w false fun a _ => log2Val a)
def execVexp (w : VWord) (s : State) : Out := .next (s.vFunc w false fun a _ => expVal a)
def execVlog (w : VWord) (s : State) : Out := .next (s.vFunc w false fun a _ => lnVal a)
def execVsinp (w : VWord) (s : State) : Out := .next (s.vFunc w false fun a _ => sinpiVal a)
def execVcosp (w : VWord) (s : State) : Out := .next (s.vFunc w false fun a _ => cospiVal a)
def execVtanh (w : VWord) (s : State) : Out := .next (s.vFunc w false fun a _ => tanhVal a)
def execVerf (w : VWord) (s : State) : Out := .next (s.vFunc w false fun a _ => erfVal a)
def execVdiv (w : VWord) (s : State) : Out := .next (s.vFunc w true Num.div)

/-- A seed: EXT[2:0] is not read (R216). -/
def State.vSeed (s : State) (w : VWord) (fn : Val → Val × Flags) : State :=
  let vl := (s.har s.cur).vl.toNat
  let size := (vT w).size
  let form : VForm :=
    { bad := vBad w { types := tyF, b := .z, ma := true } s.lf64 || decide (8 ≤ w.ext.toNat), areas := [vl * size]
      size := arSize w, lat := 4, fills := vFill w }
  s.vIssue w form fun h _ _ => vMap h w size [(w.va.toNat, size)] fun _ _ xs =>
    match vT w with
    | .i _ => (0, 0)
    | .f t => let (v, f) := fn ((ofCode t (xs.getD 0 0)).modify w.na w.aa); (seedDest t v, f)

def execVrcpe (w : VWord) (s : State) : Out := .next (s.vSeed w rcpSeed)
def execVrsqe (w : VWord) (s : State) : Out := .next (s.vSeed w rsqSeed)

/-! Comparison, classification, selection, logic, shifts (R217-R221) -/

/-- A condition on two floating values: 6 is unordered. -/
def condF (cc : Nat) (a b : Val) : Bool :=
  if a.isNan || b.isNan then cc == 1 || cc == 6
  else match cc with
    | 0 => eqVal a b
    | 1 => !eqVal a b
    | 2 => ltVal a b
    | 3 => ltVal a b || eqVal a b
    | 4 => ltVal b a
    | 5 => ltVal b a || eqVal a b
    | _ => false

/-- A condition on two integers. -/
def condI (cc : Nat) (a b : Int) : Bool :=
  match cc with
  | 0 => a == b
  | 1 => a != b
  | 2 => decide (a < b)
  | 3 => decide (a ≤ b)
  | 4 => decide (b < a)
  | _ => decide (b ≤ a)

/-- An instruction on element bits without rounding or flags. -/
def State.vBits (s : State) (w : VWord) (use : VUse) (extOk : Bool) (el : VTy → List Nat → Nat) : State :=
  let vl := (s.har s.cur).vl.toNat
  let size := (vT w).size
  let form : VForm :=
    { bad := vBad w use s.lf64 || !extOk, areas := [vl * size], size := size, lat := 2, fills := vFill w }
  let srcs := [(w.va.toNat, size)] ++ (if use.b = .v then [(w.vb.toNat, size)] else []) ++
    (if use.c = .v then [(w.vc.toNat, size)] else [])
  s.vIssue w form fun h _ _ => vMap h w size srcs fun _ _ xs => (el (vT w) xs, 0)

def execVcmp (w : VWord) (s : State) : Out :=
  let ok := decide (w.ext.toNat ≤ if vIsF w then 6 else 5)
  .next (s.vBits w { types := tyA, ma := true, mb := true } ok fun t xs =>
    match t with
    | .f t => b2n (condF w.ext.toNat ((ofCode t (xs.getD 0 0)).modify w.na w.aa) ((ofCode t (xs.getD 1 0)).modify w.nb w.ab))
    | .i t => b2n (condI w.ext.toNat (modInt w.na w.aa (t.ofCode (xs.getD 0 0))) (modInt w.nb w.ab (t.ofCode (xs.getD 1 0)))))

/-- The class bit of a code (R218). -/
def classBit (t : Fmt) (c : Nat) : Nat :=
  let neg := field c (t.eb + t.mb) 1 == 1
  match ofCode t c with
  | .nan => if neg then 9 else 8
  | .inf _ => if neg then 0 else 7
  | .fin _ m _ _ =>
    if m = 0 then (if neg then 3 else 4)
    else if field c t.mb t.eb = 0 then (if neg then 2 else 5)
    else (if neg then 1 else 6)

def execVclass (w : VWord) (s : State) : Out :=
  .next (s.vBits w { types := tyF, b := .z } (w.ext == 0) fun t xs => match t with
    | .f t => 2 ^ classBit t (xs.getD 0 0)
    | .i _ => 0)

def execVsel (w : VWord) (s : State) : Out :=
  .next (s.vBits w { types := tyA, c := .v } (w.ext == 0) fun _ xs =>
    if xs.getD 2 0 ≠ 0 then xs.getD 0 0 else xs.getD 1 0)

def execVand (w : VWord) (s : State) : Out :=
  .next (s.vBits w { types := tyA } (w.ext == 0) fun _ xs => xs.getD 0 0 &&& xs.getD 1 0)
def execVor (w : VWord) (s : State) : Out :=
  .next (s.vBits w { types := tyA } (w.ext == 0) fun _ xs => xs.getD 0 0 ||| xs.getD 1 0)
def execVxor (w : VWord) (s : State) : Out :=
  .next (s.vBits w { types := tyA } (w.ext == 0) fun _ xs => xs.getD 0 0 ^^^ xs.getD 1 0)
def execVnot (w : VWord) (s : State) : Out :=
  .next (s.vBits w { types := tyA, b := .z } (w.ext == 0) fun t xs => 2 ^ t.bits - 1 - xs.getD 0 0)

def execVshl (w : VWord) (s : State) : Out :=
  .next (s.vBits w { types := tyI } (w.ext == 0) fun t xs =>
    xs.getD 0 0 * 2 ^ (xs.getD 1 0 % t.bits) % 2 ^ t.bits)
def execVshr (w : VWord) (s : State) : Out :=
  .next (s.vBits w { types := tyI } (w.ext == 0) fun t xs => xs.getD 0 0 / 2 ^ (xs.getD 1 0 % t.bits))

/-- Copies of bit w - 1 come in for every integer type. -/
def execVsra (w : VWord) (s : State) : Out :=
  .next (s.vBits w { types := tyI } (w.ext == 0) fun t xs =>
    (sextNat t.bits (xs.getD 0 0) / ((2 ^ (xs.getD 1 0 % t.bits) : Nat) : Int) % ((2 ^ t.bits : Nat) : Int)).toNat)

end Sys2Proof.Machine
end

