-- ==== Sys2Proof/Machine/VConv.lean ====
section
/-!
DEFINITION. V instructions that convert, pack, quantise and reduce (07 R222-R229, R455).
-/

namespace Sys2Proof.Machine

open Sys2Proof.Num

/-! Conversion and packing -/

/-- R222. -/
def execVcvt (w : VWord) (s : State) : Out :=
  let vl := (s.har s.cur).vl.toNat
  let src := w.ext.toNat / 8
  let from' := vty src
  let bad := vBad w { types := tyA, b := .z, ma := true, cp := true } s.lf64 || decide (10 < src) ||
    (src == 0 && !s.lf64) || decide (4 < vRnd w)
  let sz := from'.size
  let dz := (vT w).size
  let form : VForm :=
    { bad := bad, areas := [vl * sz, vl * dz], size := if src = 0 then 16 else max sz dz, lat := 4
      fills := vFill w, sr := vRnd w == 4 }
  .next (s.vIssue w form fun h j seed => vMap h w dz [(w.va.toNat, sz)] fun cell i xs =>
    let x : Val := match from' with
      | .f t => (ofCode t (xs.getD 0 0)).modify w.na w.aa
      | .i t => ofIntVal (modInt w.na w.aa (t.ofCode (xs.getD 0 0)))
    -- an integer zero has no sign
    (vT w).el.conv (vMode w) (vRandom seed j cell i) (vP w) w.clamp.toNat x)

/-- The packed formats of R223. -/
def packTy (c : Nat) : ElTy := if c = 0 then .f e4m3 else if c = 1 then .f e5m2 else if c = 2 then .f e2m1 else .e8m0

/-- The bytes of vl packed codes, as effects; an odd nibble leaves the upper half of its byte (R223). -/
def packEffs (fmt cell vd : Nat) (codes : List Nat) : List Eff :=
  if fmt ≠ 2 then (if codes.isEmpty then [] else [.v cell vd 0 (elemBytes 1 codes)])
  else
    let n := codes.length / 2 * 2
    let whole := nibbleBytes (codes.take n)
    (if whole.isEmpty then [] else [.v cell vd 0 whole]) ++
      (codes.drop n).map fun c => .vlo cell vd (n / 2) c

/-- R223, R455. -/
def execVpack (w : VWord) (s : State) : Out :=
  let vl := (s.har s.cur).vl.toNat
  let fmt := w.ext.toNat / 8
  let size := (vT w).size
  let bad := vBad w { types := tyF, b := .z, ma := true, cp := true } s.lf64 || decide (3 < fmt) || decide (4 < vRnd w)
  let form : VForm :=
    { bad := bad, areas := [vl * size], size := arSize w, lat := 4, fills := vFill w, sr := vRnd w == 4 }
  .next (s.vIssue w form fun h j seed => cells.flatMap fun cell =>
    let rs := (h.velems cell w.va.toNat size vl).zipIdx.map fun x =>
      match vT w with
      | .i _ => (0, (0 : Flags))
      | .f t =>
        let (c, f) := (packTy fmt).conv (vMode w) (vRandom seed j cell x.2) (vP w) w.clamp.toNat
          ((ofCode t x.1).modify w.na w.aa)
        (if fmt = 2 ∧ c = 8 then 0 else c, f)
    packEffs fmt cell w.vd.toNat (rs.map (·.1)) ++ vflagEff (orFlags (rs.map (·.2))))

/-- vl packed codes of a register of a cell. -/
def Harness.vcodes (h : Harness) (cell r : Nat) (nibble : Bool) (vl : Nat) : List Nat :=
  if nibble then nibblesOf vl (h.vget cell r) else h.velems cell r 1 vl

/-- R224. -/
def execVunpk (w : VWord) (s : State) : Out :=
  let vl := (s.har s.cur).vl.toNat
  let fmt := w.ext.toNat / 8
  let size := (vT w).size
  let bad := vBad w { types := tyF, b := .z } s.lf64 || decide (3 < fmt) || vRnd w != 0
  let form : VForm := { bad := bad, areas := [vl * size], size := size, lat := 4, fills := vFill w }
  .next (s.vIssue w form fun h _ _ => cells.flatMap fun cell =>
    cellEffs w size cell ((h.vcodes cell w.va.toNat (fmt == 2) vl).map fun c =>
      match vT w with
      | .i _ => (0, 0)
      | .f t => destF t .rne 0 0 0 ((packTy fmt).value c)))

/-! Block formats -/

/-- The elements of one block (of 32). -/
def blocksOf {α : Type} : Nat → List α → List (List α)
  | 0, _ => []
  | n + 1, xs => xs.take 32 :: blocksOf n (xs.drop 32)

/-- The largest magnitude of values, NaN if any is (R227, R93). -/
def maxAbs (xs : List Val) : Val := (xs.map Val.abs).foldl maxVal (.zero false)

/-- R225: codes and scale entries of one cell. -/
def quantCell (k : Blk) (w : VWord) (t : Fmt) (codes : List Nat) : List Nat × List Nat × Flags :=
  let bs := (blocksOf (cdiv codes.length 32) codes).map fun cs =>
    let xs := cs.map (ofCode t)
    let q := quantBlock k (xs.map fun x => x.modify w.na w.aa) (maxAbs xs)
    ((q.codes ++ List.replicate (32 - cs.length) 0), q.scale + 256 * q.special, q.flags)
  (bs.flatMap (·.1), bs.map (·.2.1), orFlags (bs.map (·.2.2)))

/-- R225 (DEDUCED, log entry 26). Where VD and VC name one register the scales are written over the codes (DESIGN CHOICE, log
entry 64). -/
def execVquant (w : VWord) (s : State) : Out :=
  let vl := (s.har s.cur).vl.toNat
  let bf := w.ext.toNat / 8
  let size := (vT w).size
  let bad := vBad w { types := tyF, b := .z, c := .v, ma := true, cDest := true } s.lf64 || decide (2 < bf) || vRnd w != 0
  let nb := cdiv vl 32
  let fills := if w.fd then [.v w.vd.toNat, .v w.vc.toNat] else []
  let form : VForm :=
    { bad := bad, areas := [vl * size, if bf = 2 then 16 * nb else 32 * nb, 2 * nb], size := arSize w, lat := 12
      fills := fills }
  .next (s.vIssue w form fun h _ _ => if vl = 0 then [] else cells.flatMap fun cell =>
    match vT w with
    | .i _ => []
    | .f t =>
      let (codes, scales, fl) := quantCell (blkOf bf) w t (h.velems cell w.va.toNat size vl)
      [.v cell w.vd.toNat 0 (if bf = 2 then nibbleBytes codes else elemBytes 1 codes),
        .v cell w.vc.toNat 0 (elemBytes 2 scales)] ++ vflagEff fl)

/-- R226. -/
def execVdeq (w : VWord) (s : State) : Out :=
  let vl := (s.har s.cur).vl.toNat
  let bf := w.ext.toNat / 8
  let size := (vT w).size
  let bad := vBad w { types := tyF, cp := true } s.lf64 || decide (2 < bf) || decide (4 < vRnd w)
  let form : VForm :=
    { bad := bad, areas := [vl * size, 2 * cdiv vl 32], size := size, lat := 4, fills := vFill w, sr := vRnd w == 4 }
  .next (s.vIssue w form fun h j seed => cells.flatMap fun cell =>
    let ents := h.velems cell w.vb.toNat 2 (cdiv vl 32)
    cellEffs w size cell ((h.vcodes cell w.va.toNat (bf == 2) vl).zipIdx.map fun x =>
      match vT w with
      | .i _ => (0, 0)
      | .f t =>
        destF t (vMode w) (vRandom seed j cell x.2) (vP w) w.clamp.toNat
          (blkValue (blkOf bf) (ents.getD (x.2 / 32) 0) x.1)))

/-- R227: no flag. -/
def execVbmax (w : VWord) (s : State) : Out :=
  let vl := (s.har s.cur).vl.toNat
  let size := (vT w).size
  let form : VForm :=
    { bad := vBad w { types := tyF, b := .z } s.lf64 || w.ext != 0, areas := [vl * size], size := arSize w, lat := 10
      fills := vFill w }
  .next (s.vIssue w form fun h _ _ => cells.flatMap fun cell =>
    match vT w with
    | .i _ => []
    | .f t =>
      cellEffs w size cell ((blocksOf (cdiv vl 32) (h.velems cell w.va.toNat size vl)).map fun cs =>
        (toCode t (maxAbs (cs.map (ofCode t))), 0)))

/-! Reductions and scans (R228, R229; 03 R91, R92) -/

/-- The operations of reductions and scans. -/
inductive RedOp where
  | add | max | min
deriving DecidableEq, Repr

/-- One step on floating values: an addition rounds once. -/
def RedOp.float (o : RedOp) (t : Fmt) (mode : Sys2Proof.Num.Mode) (a b : Val × Flags) : Val × Flags :=
  match o with
  | .add =>
    let (v, f) := Num.add mode a.1 b.1
    let (r, g) := round t mode 0 v
    (r, a.2 ||| b.2 ||| f ||| g)
  | .max => (maxVal a.1 b.1, a.2 ||| b.2)
  | .min => (minVal a.1 b.1, a.2 ||| b.2)

/-- One step on integers: a sum wraps. -/
def RedOp.int (o : RedOp) (t : IFmt) (a b : Int) : Int :=
  match o with
  | .add => t.ofCode (t.wrap (a + b))
  | .max => Max.max a b
  | .min => Min.min a b

/-- The leaves of a reduction from element codes: modified, and for VRSSQ squared (R228). -/
def redLeafF (w : VWord) (t : Fmt) (sq : Bool) (c : Nat) : Val × Flags :=
  let x := (ofCode t c).modify w.na w.aa
  if sq then
    let (v, f) := Num.mul x x
    let (r, g) := round t (vMode w) 0 v
    (r, f ||| g)
  else (x, 0)

def redLeafI (w : VWord) (t : IFmt) (sq : Bool) (c : Nat) : Int :=
  let x := modInt w.na w.aa (t.ofCode c)
  if sq then t.ofCode (t.wrap (x * x)) else x

/-- A sequence of codes combined by `comb`, as result codes and flags. -/
def redSeq (w : VWord) (o : RedOp) (sq : Bool) (scanIt : Bool) (codes : List Nat) : List (Nat × Flags) :=
  match vT w with
  | .f t =>
    let leaves := codes.map (redLeafF w t sq)
    let op := o.float t (vMode w)
    (if scanIt then Num.scan op leaves else tree op codes.length leaves).map fun r => (toCode t r.1, r.2)
  | .i t =>
    let leaves := codes.map (redLeafI w t sq)
    let op := o.int t
    (if scanIt then Num.scan op leaves else tree op codes.length leaves).map fun r => (t.wrap r, 0)

/-- The check of a reduction's word: SR is illegal, and for I types the rounding field is zero. -/
def redBad (w : VWord) (lf64 : Bool) : Bool :=
  vBad w { types := tyA, b := .z, ma := true } lf64 || (if vIsF w then decide (3 < vRnd w) else vRnd w != 0)

def State.vReduce (s : State) (w : VWord) (o : RedOp) (sq : Bool) : State :=
  let vl := (s.har s.cur).vl.toNat
  let size := (vT w).size
  let form : VForm :=
    { bad := redBad w s.lf64 || decide (16 ≤ w.ext.toNat), areas := [vl * size], size := arSize w, lat := 10
      fills := vFill w }
  s.vIssue w form fun h _ _ =>
    let seqOf (cell : Nat) := h.velems cell w.va.toNat size vl
    if w.ext.getLsbD 3 then
      let r := redSeq w o sq false (cells.flatMap seqOf)
      cells.flatMap fun cell => cellEffs w size cell (r.take 1)
    else cells.flatMap fun cell => cellEffs w size cell ((redSeq w o sq false (seqOf cell)).take 1)

def execVrsum (w : VWord) (s : State) : Out := .next (s.vReduce w .add false)
def execVrmax (w : VWord) (s : State) : Out := .next (s.vReduce w .max false)
def execVrmin (w : VWord) (s : State) : Out := .next (s.vReduce w .min false)
def execVrssq (w : VWord) (s : State) : Out := .next (s.vReduce w .add true)

/-- R229. -/
def execVscan (w : VWord) (s : State) : Out :=
  let vl := (s.har s.cur).vl.toNat
  let size := (vT w).size
  let opc := w.ext.toNat / 16
  let o : RedOp := if opc = 0 then .add else if opc = 1 then .max else .min
  let form : VForm :=
    { bad := redBad w s.lf64 || decide (2 < opc), areas := [vl * size], size := arSize w, lat := 10, fills := vFill w }
  .next (s.vIssue w form fun h _ _ =>
    let seqOf (cell : Nat) := h.velems cell w.va.toNat size vl
    if w.ext.getLsbD 3 then
      let r := redSeq w o false true (cells.flatMap seqOf)
      cells.flatMap fun cell => cellEffs w size cell ((r.drop (cell * vl)).take vl)
    else cells.flatMap fun cell => cellEffs w size cell (redSeq w o false true (seqOf cell)))

end Sys2Proof.Machine
end

