-- ==== Sys2Proof/Machine/Collect.lean ====
section
/-!
DEFINITION. Collectives: instances, CRED and CGATH (09 R301-R305).
-/

namespace Sys2Proof.Machine

open Sys2Proof.Num

/-! Contributions and the tree (R302) -/

/-- The sum and the comparisons of a reduction, each rounded RNE to FP32. -/
def collOp (op : Nat) (a b : Val) : Val :=
  if op = 0 then (round fp32 .rne 0 (add .rne a b).1).1 else if op = 1 then maxVal a b else minVal a b

/-- One level of the tree: neighbours pair up, an unpaired last element passes up. -/
def pairUp (f : Val → Val → Val) : List Val → List Val
  | a :: b :: t => f a b :: pairUp f t
  | t => t

/-- The levels of the tree down to one value. -/
def collTree (f : Val → Val → Val) : Nat → List Val → Val
  | 0, xs => xs.headD (.zero false)
  | n + 1, xs => if xs.length ≤ 1 then xs.headD (.zero false) else collTree f n (pairUp f xs)

/-- The element (i0, i1, i2) that stands in position i of a record, dimension 0 fastest. -/
def Rec.nth (f : Rec) (i : Nat) : Int × Nat :=
  match f.locate false (i % f.ext0 : Nat) (i / f.ext0 % f.ext1 : Nat) (i / f.ext0 / f.ext1 : Nat) with
  | .ok (some x) => x
  | _ => (0, 0)

/-- An FP32 element of a record. -/
def State.credRead (s : State) (k : Pkt) (f : Rec) (i : Nat) : Except Fail (Val × List Nat) :=
  match s.elRead k f (f.nth i) with
  | .error e => .error e
  | .ok (sp, ks) => .ok (ofCode fp32 (s.codeOver [] 32 sp), ks)

/-- u of R302, with the keys read. -/
def State.credInput (s : State) (k : Pkt) (i : Nat) : Except Fail (Val × List Nat) :=
  match s.credRead k (k.op 0) i with
  | .error e => .error e
  | .ok (x, ks) =>
    if k.c.resv then
      match s.credRead k (k.op 2) i with
      | .error e => .error e
      | .ok (r, ks') => .ok ((round fp32 .rne 0 (add .rne x r).1).1, ks ++ ks')
    else .ok (x, ks)

/-- The contributions of a block of 32 inputs on the wire: one input that cannot be read leaves the block of VF8 unformed. -/
def wireBlock (wire : Nat) (us : List (Except Fail Val)) : List (Except Fail Val) :=
  if wire = 0 then us
  else if wire = 1 then us.map fun u => u.map fun v => (round bf16 .rne 0 v).1
  else match us.mapM id with
    | .error f => us.map fun _ => .error f
    | .ok vs =>
      let q := quantBlock .vf8 vs (maxAbs vs)
      q.codes.map fun c => .ok (blkValue .vf8 (q.special * 256 + q.scale) c)

/-- The contributions of m inputs, block by block: the blocks of 32 run over the elements in order, dimension 0 fastest
(DESIGN CHOICE, log entry 65). -/
def wireAll (wire : Nat) : Nat → List (Except Fail Val) → List (Except Fail Val)
  | 0, _ => []
  | fuel + 1, us => if us.isEmpty then [] else wireBlock wire (us.take 32) ++ wireAll wire fuel (us.drop 32)

/-- What a participant brings as its memory stands: u and c for every element. -/
def State.contribution (s : State) (k : Pkt) : List (Except Fail Val × Except Fail Val) :=
  let us := (List.range (k.op 0).count).map fun (i : Nat) => (s.credInput k i).map (·.1)
  us.zip (wireAll k.c.wire us.length us)

/-- The same, what is latched standing (R308): a block of VF8 that could not be formed is formed anew. -/
def State.brings (s : State) (k : Pkt) : List (Except Fail (Val × Val)) :=
  if k.brought.all Option.isSome && k.brought.length == (k.op 0).count then k.brought.filterMap fun x => x.map .ok
  else (s.contribution k).zipIdx.map fun x => match (k.brought[x.2]?).getD none, x.1 with
    | some v, _ => .ok v
    | none, (.ok u, .ok c) => .ok (u, c)
    | none, (.error f, _) => .error f
    | none, (_, .error f) => .error f

/-! Participants (R301, R305) -/

/-- The participants of the instance a packet belongs to: the accepted packets of its type, GROUP and COLLID in its
partition that wait and may start. -/
def State.participants (s : State) (k : Pkt) : List Pkt :=
  (s.diesOf (s.pktPart k)).flatMap fun d => (s.die d).pkts.filter fun j =>
    j.st == .waiting && j.c.type == k.c.type && j.c.group == k.c.group && j.c.collId == k.c.collId && s.orderOk j

/-- The participants of an instance among those held: the first of each shard index, where all name one shard count and every
index is there; else all of them, which disagree (R301, R305). -/
def instanceOf (ps : List Pkt) (need : Nat) : List Pkt :=
  let pick := (List.range need).filterMap fun i => ps.find? fun j => j.c.shard == i
  if ps.all (fun j => j.c.shards == need) ∧ pick.length = need then pick else ps

/-- An instance is judged once as many participants are held as the smallest shard count named among them
(DESIGN CHOICE, log entry 43). -/
def State.instanceReady (s : State) : Option (List Pkt) :=
  (List.range s.nDies).findSome? fun d => (s.die d).pkts.findSome? fun k =>
    if k.st = .waiting ∧ k.c.coll then
      match s.participants k with
      | [] => none
      | p :: ps =>
        let need := ps.foldl (fun m j => min m j.c.shards) p.c.shards
        if need ≤ ps.length + 1 then some (instanceOf (p :: ps) need) else none
    else none

/-- R305; participants of a CGATH whose sources differ in size disagree too (DESIGN CHOICE, log entry 65). -/
def disagree (ps : List Pkt) : Bool :=
  match ps with
  | [] => false
  | k :: _ =>
    ps.any (fun j =>
      j.c.shards != k.c.shards || j.c.op != k.c.op || j.c.wire != k.c.wire || (j.op 0).count != (k.op 0).count ||
      (k.c.type == tCGATH && ((j.op 0).fmt != (k.op 0).fmt || (j.op 0).spanSize != (k.op 0).spanSize))) ||
    (dedup (ps.map fun j => j.c.shard)).length != ps.length

/-- Participants in order of their shard index. -/
def byShard (ps : List Pkt) : List Pkt := (List.range ps.length).filterMap fun i => ps.find? fun j => j.c.shard == i

/-! The outputs of a participant -/

/-- The codes of participant k's outputs: its destination's and, with RESV, its residual's (R302). -/
def State.credCodes (s : State) (k : Pkt) (ps : List Pkt) : List (Except Fail (List Nat)) :=
  let cs := ps.map s.brings
  let own := s.brings k
  let dst := k.op 1
  let zero : Except Fail (Val × Val) := .ok (.zero false, .zero false)
  (List.range (k.op 0).count).map fun i =>
    match cs.mapM fun c => (c.getD i zero).map (·.2), own.getD i zero with
    | .error f, _ => .error f
    | _, .error f => .error f
    | .ok vs, .ok (u, c) =>
      let v := collTree (collOp k.c.op) vs.length vs
      let code := match elTy dst.fmt with
        | some t => (t.conv ((Num.Mode.ofCode k.c.rnd).getD .rne) (srBits k.c.w4.toNat 0 i) 0 0 v).1
        | none => 0
      .ok (code :: if k.c.resv then [toCode fp32 (round fp32 .rne 0 (add .rne u (negate c)).1).1] else [])

/-- The source bytes of a participant of a CGATH, what is latched standing (R303, R308). -/
def State.offers (s : State) (j : Pkt) : List (Except Fail Nat) :=
  let src := j.op 0
  match src.span with
  | none => []
  | some (lo, _) => (List.range src.spanSize).map fun (i : Nat) =>
    match (j.source[i]?).getD none with
    | some b => .ok b
    | none => (s.pktRead (s.pktPart j) j src.base ((offset src.base : Int) + lo + i) 1).map fun ks =>
      leNat (ks.map fun a => memGet s.mem a)

/-- The bytes that CGATH places (R303). -/
def State.gathCodes (s : State) (ps : List Pkt) : List (Except Fail (List Nat)) :=
  ps.flatMap fun j => (s.offers j).map fun b => b.map fun x => [x]

/-- A participant of an instance that has begun: as it stands, or as it ended before others of its instance (R308). -/
def State.findMate (s : State) (q : PktId) : Option Pkt := s.findPkt q <|> (s.die q.die).spent.find? fun k => k.id == q

/-- What a participant brings is latched, as far as it can be read now (R308). -/
def State.latchInputs (s : State) (k : Pkt) : Pkt :=
  if k.c.type = tCRED then { k with brought := (s.brings k).map (·.toOption) }
  else { k with source := (s.offers k).map (·.toOption) }

/-- The inputs of the packet's instance are latched, those that could not be read when it began included. -/
def State.latchMates (s : State) (k : Pkt) : State :=
  if k.vals.all Option.isSome then s
  else k.mates.foldl (fun s q => match s.findMate q with
    | none => s
    | some j =>
      let f (x : Pkt) : Pkt := if x.id = q then s.latchInputs j else x
      s.modDie q.die fun d => { d with pkts := d.pkts.map f, spent := d.spent.map f }) s

/-- The participants of a packet's instance. -/
def State.mates (s : State) (k : Pkt) : Option (List Pkt) := k.mates.mapM s.findMate

/-- Codes for what the beginning of the instance could not form, formed now. -/
def State.reform (s : State) (k : Pkt) (f : List Pkt → List (Except Fail (List Nat))) : List (Except Fail (List Nat)) :=
  if k.vals.all Option.isSome then k.vals.map fun _ => .ok []
  else match s.mates k with
    | some ps => f ps
    | none => k.vals.map fun _ => .error { code := cPOISON }

/-- R302, R304: the destination's elements, and the residual's with them. -/
def State.credPlan (s : State) (k : Pkt) : List OutEl :=
  let dst := k.op 1
  (s.reform k (s.credCodes k)).zipIdx.map fun x =>
    let d := s.elWrite k dst (dst.nth x.2)
    { size := dst.bits
      wrs := if k.c.resv then
          match d, s.elWrite k (k.op 2) ((k.op 2).nth x.2) with
          | .ok a, .ok b => .ok (a ++ b)
          | .error f, _ => .error f
          | _, .error f => .error f
        else d
      val := x.1
      reads := match s.credInput k x.2 with
        | .ok v => v.2
        | .error _ => [] }

/-- R302. -/
def execCred (q : PktId) (s : State) : Out :=
  .next (match s.runnable q tCRED with
    | none => s
    | some k =>
      let s := s.latchMates k
      s.carry k (s.credPlan k) (cOK, 0))

/-- The low end of a span. -/
def Rec.spanLow (f : Rec) : Int := (f.span.map (·.1)).getD 0

/-- The keys that participant k reads for byte i of the outputs: those of its own source (R309). -/
def State.gathReads (s : State) (k : Pkt) (i : Nat) : List Nat :=
  let src := k.op 0
  let at' := k.c.shard * src.spanSize
  if at' ≤ i ∧ i < at' + src.spanSize then
    (s.pktRead (s.pktPart k) k src.base ((offset src.base : Int) + src.spanLow + ((i - at' : Nat) : Int)) 1).toOption.getD []
  else []

/-- R303, R304. -/
def State.gathPlan (s : State) (k : Pkt) : List OutEl :=
  let dst := k.op 1
  (s.reform k s.gathCodes).zipIdx.map fun x =>
    s.byteOut k dst.base ((offset dst.base : Int) + dst.spanLow + x.2) x.1 (s.gathReads k x.2)

/-- R303. -/
def execCgath (q : PktId) (s : State) : Out :=
  .next (match s.runnable q tCGATH with
    | none => s
    | some k =>
      let s := s.latchMates k
      s.carry k (s.gathPlan k) (cOK, 0))

/-! Beginning and cancelling an instance -/

def State.setPktSt (s : State) (k : Pkt) (f : Pkt → Pkt) : State := s.modPkt k.id f

/-- R301, R305: the participants' inputs are latched as the instance begins, or all end with BAD_COLL. -/
def State.beginInstance (s : State) (ps : List Pkt) : State :=
  if disagree ps then ps.foldl (fun s k => s.setPktSt k fun k => { k with st := .ended cBAD_COLL 0 0 }) s
  else
    let qs := byShard ps
    ps.foldl (fun t k =>
      let codes := if k.c.type = tCRED then s.credCodes k qs else s.gathCodes qs
      t.setPktSt k fun k => { s.latchInputs k with st := .begun, mates := qs.map (·.id), vals := codes.map (·.toOption) }) s

/-- R301. -/
def execCollectiveInstanceBegin (s : State) : Out :=
  match s.instanceReady with
  | none => .next s
  | some ps => .next (s.beginInstance ps)

/-- R305: the supervisor of partition a cancels the waiting instance of type b, GROUP c and COLLID d
(DESIGN CHOICE, log entry 43). -/
def execCollectiveCancel (s : State) : Out :=
  let e := s.ev
  .next ((s.diesOf e.a).foldl (fun s d => s.modDie d fun x =>
    { x with pkts := x.pkts.map fun k =>
        if k.st = .waiting ∧ k.c.type = e.b ∧ k.c.group = e.c ∧ k.c.collId = e.d then { k with st := .ended cBAD_COLL 0 0 }
        else k }) s)

end Sys2Proof.Machine
end

