-- ==== Sys2Proof/Machine/Dot.lean ====
section
/-!
DEFINITION. D instructions other than the decoder's: slots, accumulators, scale memory and the dot array
(08 R240-R254, R258; 03 R87-R90).
-/

namespace Sys2Proof.Machine

open Sys2Proof.Num

/-! The word (05 R144; 08 R243) -/

/-- How a D instruction uses its word: the fields it reads, the takes it accepts, whether FILD may or must be set, and the
bits of IMM32 it reads. -/
structure DUse where
  acc : Bool := false
  slot : Bool := false
  vreg : Bool := false
  brec : Bool := false
  creg : Bool := false
  fmt : Bool := false
  sidx : Bool := false
  /-- RND, CLAMP and P -/
  dest : Bool := false
  tkv : Bool := false
  tkc : Bool := false
  fild : Bool := false
  must : Bool := false
  imm : Nat := 0
deriving DecidableEq, Repr

/-- The check of R140 on a D word. -/
def dBad (w : DWord) (u : DUse) : Bool :=
  (!u.acc && w.acc != 0) || (!u.slot && w.slot != 0) || (!u.vreg && w.vreg != 0) || (!u.brec && w.brec != 0) ||
  (!u.creg && w.creg != 0) || (!u.fmt && w.fmt != 0) || (!u.sidx && w.sidx != 0) ||
  (if u.dest then decide (4 < w.rnd.toNat) else w.rnd != 0 || w.clamp != 0 || w.p != 0) ||
  (!u.tkv && w.tkv) || w.tks || (!u.tkc && w.tkc) || (!u.fild && w.fild) || (u.must && !w.fild) ||
  w.zero != 0 || w.imm.toNat &&& (2 ^ 32 - 1 - u.imm) != 0

/-- The takes of a D word. -/
def dTakes (w : DWord) : List FeReg :=
  (if w.tkv then [.v w.vreg.toNat] else []) ++ (if w.tkc then [.a w.acc.toNat] else [])

/-- The front of a D word; `fill` is the register that FILD names. -/
def dFront (w : DWord) (u : DUse) (more : Bool) (fill : FeReg) : Front :=
  { e := .d, gk := w.gk, gn := w.gn, bad := if dBad w u || more then some cILLEGAL_INSTR else none, takes := dTakes w
    fills := if w.fild then [fill] else [] }

/-- c(n) of the D engine, bits 31:0 as FP32. -/
def Harness.dScale (h : Harness) (n : BitVec 4) : Val := ofCode fp32 ((h.dc.getD n.toNat 0).toNat % 2 ^ 32)

/-! Slots (R241, R242) -/

/-- A slot is claimed. -/
def Harness.claimed (h : Harness) (n : Nat) : Bool := h.claim.getLsbD n

/-- A result writes a slot. -/
def Pend.onSlot (p : Pend) (n : Nat) : Bool := p.effs.any fun x => x.target == some (.s n)

/-- A slot has a pending write of the D engine. -/
def Harness.slotPending (h : Harness) (n : Nat) : Bool := h.de.pend.any fun p => !p.isFree && p.onSlot n

/-- A decode into a slot has not completed. -/
def Harness.slotDecoding (h : Harness) (n : Nat) : Bool := h.de.pend.any fun p => p.due == .free .decode && p.onSlot n

/-- The check of a D instruction that writes a slot. -/
def Harness.slotCheck (h : Harness) (n : Nat) : Option Nat :=
  if !h.claimed n then some cSLOT_STATE else if h.slotPending n then some cSLOT_ALIAS else none

/-- The slots of a mask. -/
def slotsOf (m : BitVec 32) : List Nat := (List.range 32).filter m.getLsbD

/-- R244. -/
def execDclaim (w : DWord) (s : State) : Out :=
  .next (s.issue (dFront w { imm := 2 ^ 32 - 1 } false (.s 0)) fun s =>
    if (slotsOf w.imm).any (s.har s.cur).claimed then .fault { code := cSLOT_STATE }
    else s.at .d 1 (if w.imm = 0 then [] else [.claim w.imm]))

/-- R244. -/
def execDrel (w : DWord) (s : State) : Out :=
  .next (s.issue (dFront w { imm := 2 ^ 32 - 1 } false (.s 0)) fun s =>
    let h := s.har s.cur
    let ns := slotsOf w.imm
    if ns.any fun n => !h.claimed n then .fault { code := cSLOT_STATE }
    else if ns.any h.slotPending then .fault { code := cSLOT_ALIAS }
    else if ns.any h.slotDecoding then .wait
    else s.at .d 1 (if w.imm = 0 then [] else [.release w.imm]))

/-! DMMA (R245-R249; 03 R87-R90) -/

/-- What a short format code stands for (03 R87): element width in bits, elements per slot row, element format, block
format; none for INT8 in `fmt`. -/
structure Short where
  bits : Nat
  fmt : Option Fmt
  blk : Option Blk := none
deriving DecidableEq, Repr

def shortOf (c : Nat) : Option Short :=
  match c with
  | 0 => some ⟨16, some bf16, none⟩
  | 1 => some ⟨8, some e4m3, none⟩
  | 2 => some ⟨8, some e5m2, none⟩
  | 3 => some ⟨4, some e2m1, none⟩
  | 4 => some ⟨8, none, none⟩
  | 5 => some ⟨8, some e4m3, some .vf8⟩
  | 6 => some ⟨8, some e5m2, some .vf8e⟩
  | 7 => some ⟨4, some e2m1, some .vf4⟩
  | _ => none

/-- Elements in a slot row. -/
def Short.perRow (t : Short) : Nat := 512 / t.bits

/-- Blocks in a slot row. -/
def Short.blocks (t : Short) : Nat := t.perRow / 32

/-- The check of R249's first row and of the fields that are not read (R143). -/
def mmaBad (w : MWord) : Bool :=
  match shortOf w.afmt.toNat, shortOf w.bfmt.toNat with
  | some a, some b =>
    a.bits != b.bits || a.fmt.isNone != b.fmt.isNone || w.rfl != 0 || w.zero != 0 ||
    (a.blk.isNone && w.ascl != 0) || (b.blk.isNone && w.bscl != 0) ||
    (a.fmt.isNone && (w.ats != 0 || w.bts != 0))
  | _, _ => true

/-- The class that a pair needs (R248). -/
def mmaClass (a : Short) : Nat := if a.bits = 16 then 1 else if a.bits = 8 then 2 else 3

/-- The element codes of row r of a slot. -/
def slotRow (bytes : List Byte) (bits r : Nat) : List Nat :=
  let row := (bytes.drop (64 * r)).take 64
  if bits = 4 then nibblesOf 128 row else elemsOf (bits / 8) (512 / bits) row

/-- A block of an operand row: its elements' exact values and its scale (R247, 03 R74). -/
structure OpBlock where
  els : List Val
  scale : Val
deriving DecidableEq, Repr

/-- The exact value of an element whose block has an entry of scale memory; the scale apart. -/
def opElem (t : Short) (entry c : Nat) : Val :=
  match t.fmt with
  | none => ofIntVal (i8.ofCode c)
  | some f =>
    if t.blk = some .vf4 ∧ c = 8 then (vf4Special (entry / 256 % 256)).getD (.zero false) else ofCode f c

/-- The scale of an entry. -/
def opScale (t : Short) (entry : Nat) : Val :=
  match t.blk with
  | none => .fin false 1 0 false
  | some .vf4 => ofCode e4m3 (entry % 256)
  | some _ => ofE8m0 (entry % 256)

/-- One row of an operand, in blocks; `sm` is the scale memory of the cell. -/
def opRow (t : Short) (base : Nat) (sm slot : List Byte) (r : Nat) : List OpBlock :=
  let codes := slotRow slot t.bits r
  (List.range t.blocks).map fun b =>
    let entry := leNat ((sm.drop (2 * (base + r * t.blocks + b))).take 2)
    { els := ((codes.drop (32 * b)).take 32).map (opElem t entry), scale := opScale t entry }

/-- The exact sum of products of one block (03 R88, R89). -/
def dotBlock (a b : List Val) : Val × Flags :=
  (List.zip a b).foldl (fun acc xy =>
    let (p, f) := mul xy.1 xy.2
    let (t, g) := add .rne acc.1 p
    (t, acc.2 ||| f ||| g)) (.zero false, 0)

/-- T of 03 R88, with the special cases of R89. -/
def dotSum (a b : List OpBlock) (ta tb : Val) : Val × Flags :=
  let nan (x : OpBlock) : Bool := x.scale.isNan || x.els.any Val.isNan
  if ta.isNan || tb.isNan || a.any nan || b.any nan then (.nan, 0)
  else
    let (t, f) := (List.zip a b).foldl (fun acc xy =>
      let (p, f0) := dotBlock xy.1.els xy.2.els
      let (p, f1) := mul p xy.1.scale
      let (p, f2) := mul p xy.2.scale
      let (t, f3) := add .rne acc.1 p
      (t, acc.2 ||| f0 ||| f1 ||| f2 ||| f3)) (Val.zero false, (0 : Flags))
    let (t, f4) := mul t ta
    let (t, f5) := mul t tb
    (if t.isZero then .zero false else t, f ||| f4 ||| f5)

/-- The exact sum of an INT8 pair (03 R90). -/
def dotInt (a b : List Nat) : Int :=
  ((List.zip a b).map fun xy => i8.ofCode xy.1 * i8.ofCode xy.2).foldl (· + ·) 0

/-- The sums of one cell, in order of the elements 32 i + j. -/
def dotCell (w : MWord) (a b : Short) (h : Harness) (cell : Nat) : List Eff :=
  let sa := h.sget cell w.aslot.toNat
  let sb := h.sget cell w.bslot.toNat
  let acc := w.acc.toNat
  if a.fmt.isNone then
    let ra := (List.range 32).map (slotRow sa 8)
    let rb := (List.range 32).map (slotRow sb 8)
    [.maci cell acc w.zf (ra.flatMap fun x => rb.map fun y => dotInt x y)]
  else
    let sm := h.smget cell
    let ra := (List.range 32).map (opRow a w.ascl.toNat sm sa)
    let rb := (List.range 32).map (opRow b w.bscl.toNat sm sb)
    let ts := ra.flatMap fun x => rb.map fun y => dotSum x y (h.dScale w.ats) (h.dScale w.bts)
    [.mac cell acc w.zf (ts.map (·.1))] ++ dflagEff (ts.foldl (fun f t => f ||| t.2) 0)

/-- R246-R249. The accumulator is read as the result becomes visible: nothing becomes visible between cycle i + 39 and
that (DEDUCED, log entry 17). -/
def execDmma (w : MWord) (s : State) : Out :=
  let x := s.eng .d
  let front : Front :=
    { e := .d, gk := w.gk, gn := w.gn, bad := if mmaBad w then some cILLEGAL_INSTR else none
      takes := (if w.takea then [.s w.aslot.toNat] else []) ++ (if w.takeb then [.s w.bslot.toNat] else [])
      fills := if w.fla then [.a w.acc.toNat] else [], hold := decide (x.cyc < x.array) }
  .next (s.issue front fun s =>
    let h := s.har s.cur
    match shortOf w.afmt.toNat, shortOf w.bfmt.toNat with
    | some a, some b =>
      let range (t : Short) (base : BitVec 10) : Bool := t.blk.isSome && decide (1024 < base.toNat + 32 * t.blocks)
      let need := mmaClass a
      if !h.claimed w.aslot.toNat || !h.claimed w.bslot.toNat then .fault { code := cSLOT_STATE }
      else if h.slotPending w.aslot.toNat || h.slotPending w.bslot.toNat then .fault { code := cSLOT_ALIAS }
      else if range a w.ascl || range b w.bscl then .fault { code := cSCALE_RANGE }
      else if h.ctl.pwr < need then .fault { code := cLEAVE_FAULT, hi := need * 4 + h.ctl.pwr }
      else
        let s' := s.modEng .d fun x => { x with array := x.cyc + 32 }
        s'.at .d 40 (cells.flatMap (dotCell w a b h))
    | _, _ => .fault { code := cILLEGAL_INSTR })

/-! Accumulators (R250-R252) -/

/-- R250. -/
def execDzero (w : DWord) (s : State) : Out :=
  .next (s.issue (dFront w { acc := true, fild := true } false (.a w.acc.toNat)) fun s =>
    s.at .d 2 (cells.map fun cell => .a cell w.acc.toNat 0 (List.replicate 4096 0)))

/-- R250 (DEDUCED, log entry 25). -/
def execDfill (w : DWord) (s : State) : Out :=
  let f := w.fmt.toNat
  let half := w.imm.toNat % 2
  let more := !([0x11, 0x04, 0x13].contains f) || (f == 0x13 && half == 1)
  let use : DUse := { acc := true, vreg := true, fmt := true, tkv := true, fild := true, imm := 1 }
  .next (s.issue (dFront w use more (.a w.acc.toNat)) fun s =>
    let h := s.har s.cur
    s.at .d 2 (cells.map fun cell =>
      if f = 0x13 then
        .a cell w.acc.toNat 0 (elemBytes 4 ((h.velems cell w.vreg.toNat 2 1024).map fun c => toCode fp32 (ofCode bf16 c)))
      else .a cell w.acc.toNat (2048 * half) (h.vget cell w.vreg.toNat)))

/-- The conversion that DREAD and DCVT share (R251): an accumulator element to a format. -/
structure AccConv where
  fmt : ElTy
  int : Bool
  scale : Val
  mode : Sys2Proof.Num.Mode
  p : Int
  clamp : Nat
deriving DecidableEq, Repr

def AccConv.elem (k : AccConv) (r32 x : Nat) : Nat × Flags :=
  let v := if k.int then ofIntVal (i32.ofCode x) else ofCode fp32 x
  let (y, f) := mul v k.scale
  let (r, g) := k.fmt.conv k.mode r32 k.p k.clamp y
  (r, f ||| g)

/-- The conversion that a word selects. -/
def accConv (w : DWord) (h : Harness) (int ts : Bool) : AccConv where
  fmt := (elTy w.fmt.toNat).getD (.f fp32)
  int := int
  scale := if ts then h.dScale w.creg else .fin false 1 0 false
  mode := (Mode.ofCode w.rnd.toNat).getD .rne
  p := w.p.toInt
  clamp := w.clamp.toNat

/-- R251. -/
def execDread (w : DWord) (s : State) : Out :=
  let f := w.fmt.toNat
  let imm := w.imm.toNat
  let half := field imm 0 1
  let ts := field imm 2 1 == 1
  let size := cdiv ((fmtBits f).getD 8) 8
  let more := !([0x11, 0x13, 0x12, 0x04, 0x02, 0x00, 0x14, 0x15].contains f) || (half == 1 && size != 4) ||
    (!ts && w.creg != 0)
  let use : DUse := { acc := true, vreg := true, creg := true, fmt := true, dest := true, tkc := true, fild := true
                      imm := 7 }
  .next (s.issue (dFront w use more (.v w.vreg.toNat)) fun s =>
    let h := s.har s.cur
    let (s', j) := s.nextJ .d (w.rnd == 4)
    let k := accConv w h (field imm 1 1 == 1) ts
    let seed := (s.eng .d).seed
    s'.at .d 12 (cells.flatMap fun cell =>
      let xs := h.accCodes cell w.acc.toNat
      let xs := if size = 4 then (xs.drop (512 * half)).take 512 else xs
      let rs := xs.zipIdx.map fun xe => k.elem (srBits seed j (4096 * cell + xe.2)) xe.1
      [.v cell w.vreg.toNat 0 (elemBytes size (rs.map (·.1)))] ++ dflagEff (orFlags (rs.map (·.2)))))

/-- The greatest q of DCVT for a format; none for a format it does not accept (R252). -/
def cvtMaxQ (f : Nat) : Option Nat :=
  if f = 0x13 then some 0 else if f = 0x14 ∨ f = 0x15 ∨ f = 0x00 then some 1 else if f = 0x16 then some 3 else none

/-- R252: 32 × 32 elements into columns 32 q to 32 q + 31 of the slot's rows; E2M1 has no -0. -/
def execDcvt (w : DWord) (s : State) : Out :=
  let f := w.fmt.toNat
  let imm := w.imm.toNat
  let q := imm % 4
  let tr := field imm 2 1 == 1
  let ts := field imm 4 1 == 1
  let more := (match cvtMaxQ f with | none => true | some m => decide (m < q)) || (!ts && w.creg != 0)
  let use : DUse := { acc := true, slot := true, creg := true, fmt := true, dest := true, tkc := true, fild := true
                      imm := 31 }
  .next (s.issue (dFront w use more (.s w.slot.toNat)) fun s =>
    let h := s.har s.cur
    match h.slotCheck w.slot.toNat with
    | some c => .fault { code := c }
    | none =>
      let (s', j) := s.nextJ .d (w.rnd == 4)
      let k := accConv w h (field imm 3 1 == 1) ts
      let seed := (s.eng .d).seed
      let width := (fmtBits f).getD 8
      s'.at .d 12 (cells.flatMap fun cell =>
        let xs := (h.accCodes cell w.acc.toNat).toArray
        (List.range 32).flatMap fun i =>
          let rs := (List.range 32).map fun c =>
            let x := if tr then xs.getD (32 * c + i) 0 else xs.getD (32 * i + c) 0
            k.elem (srBits seed j (4096 * cell + (i * (512 / width) + 32 * q + c))) x
          let codes := rs.map fun r => if f = 0x16 ∧ r.1 = 8 then 0 else r.1
          [.s cell w.slot.toNat (64 * i + 4 * q * width) (if width = 4 then nibbleBytes codes else elemBytes (width / 8) codes)]
            ++ dflagEff (orFlags (rs.map (·.2)))))

/-! Slot and scale loads (R253, R254) -/

/-- R253. -/
def execDlds (w : DWord) (s : State) : Out :=
  let use : DUse := { slot := true, vreg := true, tkv := true, fild := true }
  .next (s.issue (dFront w use false (.s w.slot.toNat)) fun s =>
    let h := s.har s.cur
    match h.slotCheck w.slot.toNat with
    | some c => .fault { code := c }
    | none => s.at .d 8 (cells.map fun cell => .s cell w.slot.toNat 0 (h.vget cell w.vreg.toNat)))

/-- The element width that DLDT's format supplies. -/
def ldtWidth (f : Nat) : Option Nat :=
  if f = 0x12 ∨ f = 0x13 then some 16
  else if f = 0x00 ∨ f = 0x01 ∨ f = 0x14 ∨ f = 0x15 ∨ f = 0x21 ∨ f = 0x22 then some 8
  else if f = 0x16 ∨ f = 0x20 then some 4
  else none

/-- A register read as rows of 32 elements, written with rows and columns exchanged. -/
def transposed (width : Nat) (bytes : List Byte) : List Byte :=
  let n := 16384 / width
  let xs := (if width = 4 then nibblesOf n bytes else elemsOf (width / 8) n bytes).toArray
  let out := (List.range 32).flatMap fun r => (List.range (n / 32)).map fun k => xs.getD (32 * k + r) 0
  if width = 4 then nibbleBytes out else elemBytes (width / 8) out

/-- R253. -/
def execDldt (w : DWord) (s : State) : Out :=
  let use : DUse := { slot := true, vreg := true, fmt := true, tkv := true, fild := true }
  let width := ldtWidth w.fmt.toNat
  .next (s.issue (dFront w use width.isNone (.s w.slot.toNat)) fun s =>
    let h := s.har s.cur
    match h.slotCheck w.slot.toNat with
    | some c => .fault { code := c }
    | none => s.at .d 8 (cells.map fun cell =>
        .s cell w.slot.toNat 0 (transposed (width.getD 8) (h.vget cell w.vreg.toNat))))

/-- R254. -/
def execDscl (w : DWord) (s : State) : Out :=
  let n := w.imm.toNat
  let use : DUse := { vreg := true, sidx := true, tkv := true, imm := 2 ^ 11 - 1 }
  .next (s.issue (dFront w use false (.v 0)) fun s =>
    let h := s.har s.cur
    if n = 0 ∨ 1024 < w.sidx.toNat + n then .fault { code := cSCALE_RANGE }
    else s.at .d 4 (cells.map fun cell => .smem cell (2 * w.sidx.toNat) ((h.vget cell w.vreg.toNat).take (2 * n))))

/-! Scalars (R258) -/

/-- A decode or a seek on a decoder position has not completed. -/
def Harness.posBusy (h : Harness) (p : Nat) : Bool :=
  h.de.pend.any fun q => (q.due == .free .decode || q.due == .free .seek) && q.pos == p

/-- R258 (DESIGN CHOICE, log entry 12). -/
def execDstat (w : DWord) (s : State) : Out :=
  let p := w.imm.toNat
  .next (s.issue (dFront w { creg := true, imm := 3 } false (.v 0)) fun s =>
    let h := s.har s.cur
    if h.posBusy p then .wait
    else
      let pos := (h.dpos.getD p 0).toNat % 2 ^ 64
      let v := field pos 0 49 + h.tvalid.toNat * 2 ^ 49 + field pos 57 7 * 2 ^ 57
      s.at .d 2 [.dc w.creg (BitVec.ofNat 64 v)])

/-- R258. -/
def execDcadd (w : DWord) (s : State) : Out :=
  let imm := w.imm.toNat
  .next (s.issue (dFront w { creg := true, imm := 2 ^ 32 - 1 } false (.v 0)) fun s =>
    let h := s.har s.cur
    s.at .d 1 [.dc w.creg (h.dc.getD (field imm 0 4) 0 + h.dc.getD (field imm 4 4) 0 +
      BitVec.ofInt 64 (sextNat 24 (field imm 8 24)))])

end Sys2Proof.Machine
end

