-- ==== Sys2Proof/Machine/Decoder.lean ====
section
/-!
DEFINITION. The operand-port decoder (10 R310-R328; 08 R255-R257; 13 R340): tables, positions, segments, rANS, and the
completion of a decode with its barrier subtraction (04 R444).
-/

namespace Sys2Proof.Machine

/-! Fault codes (R324) -/

def cSTREAM_BAD_MAGIC : Nat := 0x40
def cSTREAM_NO_TABLE : Nat := 0x41
def cSTREAM_COUNT : Nat := 0x42
def cSTREAM_OVERREAD : Nat := 0x43
def cSTREAM_BAD_STATE : Nat := 0x44
def cSTREAM_CRC : Nat := 0x45
def cSTREAM_BAD_CODE : Nat := 0x46
def cSTREAM_BAD_INDEX : Nat := 0x47
def cSTREAM_BAD_TABLE : Nat := 0x48

/-- The fault of a stream with the status fields of R324. -/
def streamFail (code pos sub cell sym : Nat) : Fail :=
  { code := code, hi := sym * 2 ^ 16 + pos * 2 ^ 12 + sub * 2 ^ 4 + cell }

/-! Positions (01 R44) -/

/-- A decoder position. -/
structure Pos where
  valid : Bool
  brec : Nat
  tbl : Nat
  sub : Nat
  tile : Nat
  seg : Nat
deriving DecidableEq, Repr

def posOf (x : BitVec 128) : Pos :=
  let w := x.toNat
  { valid := field w 63 1 == 1, brec := field w 43 6, tbl := field w 40 3, sub := field w 32 8, tile := field w 0 32
    seg := field w 64 40 }

def Pos.bits (p : Pos) : BitVec 128 :=
  BitVec.ofNat 128 (p.seg * 2 ^ 64 + b2n p.valid * 2 ^ 63 + p.brec * 2 ^ 43 + p.tbl * 2 ^ 40 + p.sub * 2 ^ 32 + p.tile)

/-! Tables (R316, R317) -/

/-- The table slot chosen for a table id. -/
def Harness.chooseTable (h : Harness) (tid : Nat) : Option Nat :=
  (List.range 8).find? fun t => h.tvalid.getLsbD t && ((h.dtab.getD t []).getD 0 0).toNat == tid

/-- The alphabet of a table slot. -/
def Harness.tableAlph (h : Harness) (t : Nat) : Nat := ((h.dtab.getD t []).getD 1 0).toNat

/-- Frequencies of symbols 0 to 255. -/
def tableFreqs (t : List Byte) : List Nat := (List.range 256).map (tabF t)

/-- The symbol of a probability slot with its frequency and cumulative frequency (R318). -/
def symOf (slot : Nat) : Nat → Nat → List Nat → Nat × Nat × Nat
  | sym, cum, [] => (sym, 0, cum)
  | sym, cum, f :: fs => if slot < cum + f then (sym, f, cum) else symOf slot (sym + 1) (cum + f) fs

/-! Reading coded tensors (R310-R315, R320) -/

/-- What the decoder reads: through a record, for a cell. -/
structure Tensor where
  b : BufRec
  cell : Nat
deriving DecidableEq, Repr

/-- n bytes of a tensor from byte k on, as spots. -/
def State.tensorSpots (s : State) (r : Nat) (t : Tensor) (k n : Nat) : Except Fail (List Spot) :=
  (List.range n).mapM fun (i : Nat) =>
    match s.spot r t.b t.cell (k + i) 1 0 accRead with
    | .error e => .error e
    | .ok (ks, p) => .ok { p := p, keys := ks, half := 0 }

/-- The outcome of a reading: a failure of the access with the key consumed, a failing check, or the value. -/
inductive Read (α : Type) where
  | fail (k : Option Nat) (f : Fail)
  | bad (code : Nat)
  | ok (x : α)

def Read.bind {α β : Type} (x : Read α) (g : α → Read β) : Read β :=
  match x with
  | .fail k f => .fail k f
  | .bad c => .bad c
  | .ok a => g a

/-- n bytes of a tensor. -/
def State.tensorBytes (s : State) (r : Nat) (t : Tensor) (k n : Nat) : Read (List Byte) :=
  match s.tensorSpots r t k n with
  | .error e => .fail none e
  | .ok sps =>
    match s.spotsConsume accRead sps with
    | some (key, e) => .fail (some key) e
    | none => .ok (sps.map fun x => BitVec.ofNat 8 (s.spotCode 8 (some x)))

/-- A little-endian field of bytes. -/
def at' (bs : List Byte) (off n : Nat) : Nat := leNat ((bs.drop off).take n)

/-- Every byte is zero. -/
def zeros (bs : List Byte) : Bool := bs.all (· == 0)

/-- The tile formats of R310. -/
def tileFmt (f : Nat) : Bool := [0x16, 0x14, 0x15, 0x00, 0x01].contains f

/-- An index entry that has passed its checks (R311, R321), with the tensor's format. -/
structure Tile where
  fmt : Nat
  tid : Nat
  slen : Nat
  soff : Nat
deriving DecidableEq, Repr

/-- The checks of R321 from the header on, in one cell. -/
def State.tileOf (s : State) (r : Nat) (t : Tensor) (tile : Nat) : Read Tile :=
  let ext := t.b.fields.ext0
  if ext < 16 then .bad cSTREAM_BAD_MAGIC
  else (s.tensorBytes r t 0 16).bind fun hd =>
    let fmt := at' hd 2 1
    if at' hd 0 2 ≠ 0x5749 ∨ !tileFmt fmt ∨ !zeros ((hd.drop 3).take 1) ∨ !zeros (hd.drop 8) then .bad cSTREAM_BAD_MAGIC
    else if tile ≥ at' hd 4 4 ∨ 16 + 8 * tile + 8 > ext then .bad cSTREAM_BAD_INDEX
    else (s.tensorBytes r t (16 + 8 * tile) 8).bind fun en =>
      let e := leNat en
      let x : Tile := { fmt := fmt, tid := field e 56 8, slen := field e 40 16, soff := field e 0 40 }
      if x.slen = 0 ∨ x.soff % 16 ≠ 0 ∨ x.soff + 16 * x.slen > ext then .bad cSTREAM_BAD_INDEX else .ok x

/-- Sub-streams of a tile, and bytes of one in the slot. -/
def Tile.subs (t : Tile) : Nat := if t.fmt = 0x16 then 4 else 2
def Tile.subBytes (t : Tile) : Nat := 2048 / t.subs

/-- One step of the CRC of R315. -/
def crcBit (c : Nat) : Nat := if 32768 ≤ c then (2 * c % 65536) ^^^ 0x1021 else 2 * c

def crcByte (c : Nat) (b : Byte) : Nat := (List.range 8).foldl (fun c _ => crcBit c) (c ^^^ (b.toNat * 256))

def crc16 (bs : List Byte) : Nat := bs.foldl crcByte 0xFFFF

/-- The checks of R322 from 4 on in one cell: the bytes of each sub-stream. -/
def State.segment (s : State) (r : Nat) (h : Harness) (t : Tensor) (x : Tile) (psub : Nat) : Read (List (List Byte)) :=
  let tableFits : Bool := match h.chooseTable x.tid with
    | some n => h.tableAlph n == (if x.fmt = 0x16 then 0 else 1)
    | none => false
  if !tableFits then .bad cSTREAM_NO_TABLE
  else (s.tensorBytes r t x.soff 16).bind fun hd =>
    let n := x.subs
    if at' hd 0 2 ≠ 0x5A57 ∨ at' hd 2 1 ≠ x.tid ∨ !zeros (hd.drop 10) then .bad cSTREAM_BAD_MAGIC
    else if at' hd 3 1 ≠ n ∨ at' hd 4 4 ≠ 1024 * n ∨ psub ≥ n then .bad cSTREAM_COUNT
    else if 16 + 4 * (n + 1) > 16 * x.slen then .bad cSTREAM_OVERREAD
    else (s.tensorBytes r t (x.soff + 16) (4 * (n + 1))).bind fun tb =>
      let offs := elemsOf 4 (n + 1) tb
      let lens := List.zipWith (fun a b => (a, b)) offs (offs.drop 1)
      let last := offs.getD n 0
      if offs.getD 0 0 ≠ 16 + 4 * (n + 1) ∨ lens.any (fun ab => ab.2 < ab.1 + 4 || (ab.2 - ab.1) % 2 != 0) ∨
          last > 16 * x.slen then .bad cSTREAM_OVERREAD
      else
        let first := 16 + 4 * (n + 1)
        (s.tensorBytes r t (x.soff + first) (last - first)).bind fun body =>
          if crc16 body ≠ at' hd 8 2 then .bad cSTREAM_CRC
          else .ok (lens.map fun ab => (body.drop (ab.1 - first)).take (ab.2 - ab.1))

/-! rANS (R318, R319) -/

/-- A code that a tile format does not allow. -/
def illegalCode (fmt c : Nat) : Bool :=
  (fmt == 0x14 && c % 128 == 0x7F) || (fmt == 0x15 && decide (0x7C ≤ c % 128))

/-- The words of a sub-stream after its state. -/
def words16 : List Byte → List Nat
  | a :: b :: t => (a.toNat + 256 * b.toNat) :: words16 t
  | _ => []

/-- The loop of R318 from symbol k on: symbols, or the fault with its symbol index. -/
def ransLoop (fmt : Nat) (fs : List Nat) : Nat → Nat → Nat → List Nat → Except (Nat × Nat) (List Nat)
  | 0, _, x, ws => if x ≠ 2 ^ 16 ∨ !ws.isEmpty then .error (cSTREAM_BAD_STATE, 0) else .ok []
  | fuel + 1, k, x, ws =>
    let slot := x % 4096
    let (sym, f, c) := symOf slot 0 0 fs
    if illegalCode fmt sym then .error (cSTREAM_BAD_CODE, k)
    else
      let x := f * (x / 4096) + slot - c
      let next : Except (Nat × Nat) (List Nat) :=
        if x < 2 ^ 16 then
          match ws with
          | [] => .error (cSTREAM_OVERREAD, k)
          | w :: ws => ransLoop fmt fs fuel (k + 1) (x * 2 ^ 16 + w) ws
        else ransLoop fmt fs fuel (k + 1) x ws
      next.map (sym :: ·)

/-- One sub-stream. -/
def rans (fmt : Nat) (fs : List Nat) (bytes : List Byte) : Except (Nat × Nat) (List Nat) :=
  if bytes.length < 4 ∨ bytes.length % 2 ≠ 0 then .error (cSTREAM_OVERREAD, 0)
  else if at' bytes 0 4 < 2 ^ 16 then .error (cSTREAM_BAD_STATE, 0)
  else ransLoop fmt fs 1024 0 (at' bytes 0 4) (words16 (bytes.drop 4))

/-! Cells -/

/-- The cells that read tensors of their own: all for space 1, else one for all. -/
def tensorCells (b : BufRec) : List Nat := if space b.fields.base = 1 then cells else [0]

/-- The first failure of a reading over cells in ascending order; a failing check names its cell. -/
def readCells {α : Type} (g : Nat → Read α) : List Nat → Read (List α) × Nat
  | [] => (.ok [], 0)
  | c :: cs =>
    match g c with
    | .fail k f => (.fail k f, c)
    | .bad e => (.bad e, c)
    | .ok x =>
      match readCells g cs with
      | (.ok xs, n) => (.ok (x :: xs), n)
      | (.fail k f, n) => (.fail k f, n)
      | (.bad e, n) => (.bad e, n)

/-- The entry of a tile in one cell, which must agree with cell 0's in TID and TFMT (R321). -/
def State.tileIn (s : State) (r : Nat) (b : BufRec) (tile c : Nat) : Read Tile :=
  (s.tileOf r ⟨b, c⟩ tile).bind fun x =>
    match s.tileOf r ⟨b, 0⟩ tile with
    | .ok y => if x.tid = y.tid ∧ x.fmt = y.fmt then .ok x else .bad cSTREAM_BAD_INDEX
    | _ => .ok x

/-- The entries of a tile in every cell. -/
def State.tiles (s : State) (r : Nat) (b : BufRec) (tile : Nat) : Read (List Tile) × Nat :=
  readCells (s.tileIn r b tile) (tensorCells b)

/-- Checks 3 to 8 of R322 in every cell; the lowest failing cell decides, and in it the first failing check (R323). -/
def State.segments (s : State) (r : Nat) (b : BufRec) (tile psub : Nat) : Read (List (Tile × List (List Byte))) × Nat :=
  readCells (fun c => (s.tileIn r b tile c).bind fun x => (s.segment r (s.har r) ⟨b, c⟩ x psub).bind fun g => .ok (x, g))
    (tensorCells b)

/-- The keys of the bytes that a decoder instruction has read: header, index entry, segment. -/
def State.tensorKeys (s : State) (r : Nat) (b : BufRec) (tile : Nat) (segs : List (Nat × Nat)) : List Nat :=
  (tensorCells b).zipIdx.flatMap fun c =>
    let seg := segs.getD c.2 (0, 0)
    [(0, 16), (16 + 8 * tile, 8), seg].flatMap fun r0 =>
      match s.tensorSpots r ⟨b, c.1⟩ r0.1 r0.2 with
      | .ok sps => sps.flatMap (·.keys)
      | .error _ => []

/-- The outcome of a failed reading through a record, which leaves `s`: a block fault with R324's fields. A consumption is
judged once the bank has served its read (17 R424). -/
def State.readFault (s : State) (b : Rec) (pos cell : Nat) : Read Unit → Issue
  | .fail (some k) f => match s.banks .d b [k] with
    | .error w => .waitAt w
    | .ok (s', _) => engConsume s' k f
  | .fail none f => .faultAt s f
  | .bad c => .faultAt s (streamFail c pos 0 cell 0)
  | .ok _ => .wait

def Read.void {α : Type} (x : Read α) : Read Unit := x.bind fun _ => .ok ()

/-- A record of coded weights in use (R256): unloaded or of another format fails; one without read permission (02 R61). -/
def Harness.vwsRec (h : Harness) (n : Nat) : Except Nat BufRec :=
  match h.brec .d n with
  | none => .error cBAD_BUFREC
  | some b => if b.fields.fmt ≠ 0x40 then .error cBAD_BUFREC else if b.nr then .error cNO_PERMISSION else .ok b

/-! DTBL, DSEEK (R255, R256, R317, R321) -/

/-- A table load into a slot, or a decode that latched it, has not completed. -/
def Harness.tableLoading (h : Harness) : Bool := h.de.pend.any fun p => p.due == .free .table
def Harness.tableLatched (h : Harness) (t : Nat) : Bool := h.de.pend.any fun p => p.due == .free .decode && p.tslot == t

/-- A decode from a position has not completed. -/
def Harness.posDecoding (h : Harness) (p : Nat) : Bool := h.de.pend.any fun q => q.due == .free .decode && q.pos == p

/-- R255, R317: a malformed table leaves its slot invalid. -/
def execDtbl (w : DWord) (s : State) : Out :=
  let t := w.imm.toNat % 8
  .next (s.issue (dFront w { vreg := true, tkv := true, imm := 7 } false (.v 0)) fun s =>
    let h := s.har s.cur
    let bytes := (h.vget 0 w.vreg.toNat).take 1024
    if h.tableLatched t then .wait
    else if tableOk bytes then .goP s { age := 0, due := .free .table, effs := [.dtab t true bytes], tslot := t }
    else .faultAt (s.modHar s.cur fun h => { h with tvalid := setBit h.tvalid t false }) { code := cSTREAM_BAD_TABLE })

/-- R256, R321 (DEDUCED, log entry 19). -/
def execDseek (w : DWord) (s : State) : Out :=
  let p := w.imm.toNat % 4
  .next (s.issue (dFront w { brec := true, creg := true, imm := 3 } false (.v 0)) fun s =>
    let h := s.har s.cur
    let c := (h.dc.getD w.creg.toNat 0).toNat
    if h.posDecoding p then .wait
    else match h.vwsRec w.brec.toNat with
      | .error e => .fault { code := e }
      | .ok b =>
        if field c 40 24 ≠ 0 then .fault { code := cILLEGAL_INSTR }
        else match s.tiles s.cur b (field c 0 32) with
          | (.ok (x :: xs), _) =>
            let ks := s.tensorKeys s.cur b (field c 0 32) ((x :: xs).map fun _ => (0, 0))
            if h.atLimit then .wait
            else match s.banks .d b.fields ks with
            | .error w => .waitAt w
            | .ok (s', _) =>
              let pos : Pos := { valid := true, brec := w.brec.toNat, tbl := (h.chooseTable x.tid).getD 0, sub := field c 32 8
                                 tile := field c 0 32, seg := x.soff }
              .goP s' { age := 0, due := .free .seek, effs := [.dpos p pos.bits], pos := p, via := viaOf b.fields }
          | (x, cell) => s.readFault b.fields p cell x.void)

/-! DDEC (R257, R322, R323) -/

/-- The bytes of one sub-stream's symbols. -/
def subData (fmt : Nat) (syms : List Nat) : List Byte := if fmt = 0x16 then nibbleBytes syms else elemBytes 1 syms

/-- Sub-streams `sub` to the last, in step: the data of those that pass in every cell, and the first failure: its code, its
sub-stream, its cell, its symbol (R323). -/
def decodeSubs (fmt : Nat) (fs : List Nat) (segs : List (Nat × List (List Byte))) :
    Nat → Nat → List (Nat × List (List Byte)) × Option (Nat × Nat × Nat × Nat)
  | 0, _ => ([], none)
  | fuel + 1, sub =>
    let outs := segs.map fun cs => (cs.1, rans fmt fs (cs.2.getD sub []))
    match outs.findSome? fun o => match o.2 with | .error e => some (e.1, sub, o.1, e.2) | .ok _ => none with
    | some e => ([], some e)
    | none =>
      let data := outs.map fun o => match o.2 with | .ok xs => subData fmt xs | .error _ => []
      let (rest, e) := decodeSubs fmt fs segs fuel (sub + 1)
      ((sub, data) :: rest, e)

/-- The parts of the result that sub-streams write into a slot of every cell. -/
def subEffs (slot unit : Nat) (done : List (Nat × List (List Byte))) : List Eff :=
  done.flatMap fun d => cells.map fun cell =>
    .s cell slot (unit * d.1) (if d.2.length = 16 then d.2.getD cell [] else d.2.getD 0 [])

/-- The barrier object of a DDEC, where it has one (R257, R322 check 2; 02 R54): its key and its address. -/
def State.ddecBar (s : State) (h : Harness) (w : DWord) : Except Fail (Option (Word × Word)) :=
  if !w.imm.getLsbD 2 then .ok none
  else match h.brec .d w.brec.toNat with
    | none => .error { code := cBAD_BUFREC }
    | some b =>
      if !h.scaleOk .d w.brec.toNat b.fields then .error { code := cBAD_SCALE_PLANE }
      else match s.barObject s.cur b 0 with
      | .error e => .error e
      | .ok (k, a) => .ok (some (BitVec.ofNat 64 k, a))

/-- A decode whose checks 1 to 8 have passed: the sub-streams before a failure are written at once, and PSUB stands at
the failing one. -/
def State.decode (s s' : State) (w : DWord) (pos : Pos) (x : Tile) (tslot : Nat) (bar : Option (Word × Word)) (via : Option Word)
    (segs : List (Nat × List (List Byte))) : Issue :=
  let p := w.imm.toNat % 4
  let slot := w.slot.toNat
  let fs := tableFreqs ((s.har s.cur).dtab.getD tslot [])
  let (done, e) := decodeSubs x.fmt fs segs (x.subs - pos.sub) pos.sub
  let effs := subEffs slot x.subBytes done
  match e with
  | some (code, sub, cell, sym) =>
    let left : Pos := { pos with sub := sub, seg := x.soff }
    .faultAt (s.modHar s.cur fun h => h.applyAll (effs ++ [.dpos p left.bits])) (streamFail code p sub cell sym)
  | none =>
    let next : Pos := { pos with tbl := tslot, sub := 0, tile := (pos.tile + 1) % 2 ^ 32, seg := 0 }
    .goP s' { age := 0, due := .free .decode, effs := effs ++ [.dpos p next.bits], pos := p, tslot := tslot, bar := bar.map (·.1)
              barAddr := (bar.map (·.2)).getD 0, bytes := 16 * (2048 - pos.sub * x.subBytes), via := via }

/-- The latch of a DDEC fills PSEG from cell 0's index entry (R323). -/
def State.latchSeg (s : State) (p : Nat) (pos : Pos) (b : BufRec) : State :=
  match s.tileIn s.cur b pos.tile 0 with
  | .ok x => s.modHar s.cur fun h => h.apply (.dpos p { pos with seg := x.soff : Pos }.bits)
  | _ => s

/-- R257, R322 (DEDUCED, log entry 19). -/
def execDdec (w : DWord) (s : State) : Out :=
  let p := w.imm.toNat % 4
  let use : DUse := { slot := true, brec := w.imm.getLsbD 2, fild := true, must := true, imm := 7 }
  .next (s.issue (dFront w use false (.s w.slot.toNat)) fun s =>
    let h := s.har s.cur
    match h.slotCheck w.slot.toNat with
    | some c => .fault { code := c }
    | none =>
      if h.tableLoading || h.posBusy p then .wait
      else
        let pos := posOf (h.dpos.getD p 0)
        if !pos.valid then .fault (streamFail cSTREAM_BAD_INDEX p 0 0 0)
        else match h.vwsRec pos.brec with
          | .error e => .fault { code := e }
          | .ok b =>
            match s.ddecBar h w with
            | .error e => .fault e
            | .ok bar =>
              let rank := s.cur
              match s.segments rank b pos.tile pos.sub with
              | (.ok (x :: xs), _) =>
                let cs := x :: xs
                let lens := cs.map fun y => (y.1.soff, 20 + 4 * y.1.subs + (y.2.map List.length).foldl (· + ·) 0)
                if h.atLimit then .wait
                else (match s.banks .d b.fields (s.tensorKeys rank b pos.tile lens) with
                | .error w => .waitAt w
                | .ok (s', _) =>
                  s.decode s' w pos x.1 ((h.chooseTable x.1.tid).getD 0) bar (viaOf b.fields) ((tensorCells b).zip (cs.map (·.2))))
              | (y, cell) => (s.latchSeg p pos b).readFault b.fields p cell y.void)

/-! Completion (R323, R325; 04 R444) -/

/-- The decoder of a rank, as an asker at the bank of a barrier object. -/
def decodeAsker (r : Nat) : Asker := { rank := r, port := 5 }

/-- A decode of a rank that may complete: the bank of its barrier object, in a tower, serves it. -/
def State.decodeDue (s : State) (r : Nat) : Option Pend :=
  (s.arrives r .d .decode).filter fun p => p.bar.all fun k => s.serves (decodeAsker r) k.toNat

/-- A decode that its barrier object's bank does not serve waits there. -/
def State.askDecode (s : State) (r : Nat) : State :=
  match s.arrives r .d .decode with
  | some p => p.bar.elim s fun k => if s.serves (decodeAsker r) k.toNat then s else s.ask (decodeAsker r) k.toNat
  | none => s

/-- R323: a decode of rank a completes: its slot is full, its position advanced, and then its bytes are subtracted from its
barrier object in chunks. -/
def execDecodeComplete (s : State) : Out :=
  let r := s.ev.a
  match s.decodeDue r with
  | none => .next s
  | some p =>
    if s.viaDown p then .next (s.linkFault r .d p)
    else
    let s := s.arrive1 r .d p
    match p.bar with
    | none => .next s
    | some k =>
      let key := k.toNat
      let stay (s : State) (n : Nat) : State :=
        s.modHar r fun h => h.modEng .d fun x => { x with pend := { p with effs := [], bytes := n } :: x.pend }
      match s.consumesN key 8 with
      | some c =>
        .next ((((stay s p.bytes).scrub key 8).count (dieOf r) 4).lateFaultAt r .d p { code := c, addr := p.barAddr, acc := accAtomic })
      | none =>
        let (s, left) := (s.touch (decodeAsker r) key).barChunks key (chunks (p.bytes / 2048 + 1) p.bytes)
        .next (if left = 0 then s else (stay s left).lateFaultAt r .d p { code := cBAR_OVERFLOW })

end Sys2Proof.Machine
end

