-- ==== Sys2Proof/Machine/Transfer.lean ====
section
/-!
DEFINITION. T instructions (08 R260-R278): loads, stores, gather, scatter, sparse vectors, barrier arrival, tower atomics,
address registers and the exchange word. Shifts and express messages stand in Express.lean.
-/

namespace Sys2Proof.Machine

/-! The word (05 R146; 08 R260, R261) -/

/-- What REG names. -/
inductive TReg where
  | none | v | slot
deriving DecidableEq, Repr

/-- How a T instruction uses its word; `ext` says that EXT is legal. -/
structure TUse where
  reg : TReg := .none
  brec : Bool := false
  ereg : Bool := false
  fild : Bool := false
  take : Bool := false
  imm : Bool := false
  ext : Bool
deriving DecidableEq, Repr

/-- The check of R140 on a T word. -/
def tBad (w : TWord) (u : TUse) : Bool :=
  (match u.reg with
    | .none => w.reg != 0
    | .v => false
    | .slot => decide (32 ≤ w.reg.toNat)) ||
  (!u.brec && w.brec != 0) || (!u.ereg && w.ereg != 0) || (!u.fild && w.fild) || (!u.take && w.take) ||
  (!u.imm && w.imm != 0) || !u.ext

/-- Fields of EXT in memory instructions (R261). -/
def tIx (w : TWord) : Bool := w.ext.getLsbD 9
def tCs (w : TWord) : Bool := w.ext.getLsbD 8
def tVi (w : TWord) : Nat := field w.ext.toNat 2 6

/-- EXT of a memory instruction: EI only with IX, VI only where an index register is named. -/
def tExtMem (w : TWord) (vi : Bool) : Bool :=
  field w.ext.toNat 0 2 == 0 && (vi || tVi w == 0) && (tIx w || field w.ext.toNat 10 4 == 0)

/-- The register that REG names, where it has a full/empty bit. -/
def tFe (w : TWord) (k : TReg) : List FeReg :=
  match k with
  | .none => []
  | .v => [.v w.reg.toNat]
  | .slot => [.s w.reg.toNat]

/-- The front of a T word. -/
def tFront (w : TWord) (u : TUse) : Front :=
  { e := .t, gk := w.gk, gn := w.gn, bad := if tBad w u then some cILLEGAL_INSTR else none
    takes := if w.take then tFe w u.reg else [], fills := if w.fild then tFe w u.reg else [] }

/-! Addressing (R262) -/

/-- e(n). -/
def Harness.er (h : Harness) (n : Nat) : Nat := (h.e.getD n 0).toNat

/-- The byte displacement o. -/
def tDisp (h : Harness) (w : TWord) : Int := sextNat 48 (((h.er w.ereg.toNat : Int) + w.imm.toInt) % 2 ^ 48).toNat

/-- The start indices. -/
def tStart (h : Harness) (w : TWord) : Int × Int × Int :=
  if tIx w then
    let e := h.er (field w.ext.toNat 10 4)
    (sextNat 16 (field e 0 16), sextNat 16 (field e 16 16), sextNat 16 (field e 32 16))
  else (0, 0, 0)

/-- What CS adds to i2 in a cell. -/
def tSplit (w : TWord) (cell : Nat) : Int := if tCs w then cell else 0

/-- Indices of elements 0 to n - 1 in a cell. -/
def tIdx (h : Harness) (w : TWord) (n : Nat) (cell : Nat) : List (Int × Int × Int) :=
  let x := tStart h w
  (List.range n).map fun (k : Nat) => (x.1 + k, x.2.1, x.2.2 + tSplit w cell)

/-- The record checks that every T memory instruction makes at issue (R54, R59, R61, R262). -/
def State.tRec (s : State) (w : TWord) (sparse reads writes : Bool) : Except Fail (BufRec × Rec) :=
  let h := s.har s.cur
  let bad (c : Nat) : Except Fail (BufRec × Rec) := .error { code := c }
  match h.brec .t w.brec.toNat with
  | none => bad cBAD_BUFREC
  | some b =>
    let f := b.fields
    if f.spf != sparse then bad cBAD_BUFREC
    else if !h.scaleOk .t w.brec.toNat f then bad cBAD_SCALE_PLANE
    else if tCs w && space f.base == 1 then .error { code := cBAD_SPACE, addr := f.base }
    else if writes && f.rof then bad cREAD_ONLY
    else if reads && b.nr then bad cNO_PERMISSION
    else .ok (b, f)

/-- When a load's result becomes visible: from space 1 at the latency of 05 R152, else without fixed latency. -/
def State.loadDue (s : State) (f : Rec) (fixed : Bool) (lat : Nat) : Due :=
  if space f.base = 1 ∧ fixed then .cycle ((s.eng .t).cyc + lat) else .free .load

/-- A load whose result has no fixed latency, or a store or update outside space 1, is one memory request: at 2048 outstanding
the engine stalls (01 R27; log entry 24, DESIGN CHOICE). -/
def State.loadStalls (s : State) (f : Rec) (fixed : Bool) : Bool := !(space f.base == 1 && fixed) && (s.har s.cur).atLimit

/-- Codes of w bits as bytes. -/
def codeBytes (bits : Nat) (cs : List Nat) : List Byte := if bits = 4 then nibbleBytes cs else elemBytes (bits / 8) cs

/-- The result that writes codes of w bits into v(reg) of a cell; an odd nibble leaves the rest of its byte. -/
def codeEffs (bits cell reg : Nat) (cs : List Nat) : List Eff :=
  let n := if bits = 4 then cs.length / 2 * 2 else cs.length
  let whole := codeBytes bits (cs.take n)
  (if whole.isEmpty then [] else [Eff.v cell reg 0 whole]) ++ (cs.drop n).map fun c => Eff.vlo cell reg (n / 2) c

/-- The first n elements of w bits of v(r) of a cell. -/
def Harness.tcodes (h : Harness) (cell r bits n : Nat) : List Nat :=
  if bits = 4 then nibblesOf n (h.vget cell r) else h.velems cell r (bits / 8) n

/-! Loads and stores (R263, R264) -/

/-- A load: its elements become `effs` of the codes by cell (DEDUCED, log entry 9). -/
def State.tLoad (s : State) (b : BufRec) (f : Rec) (fixed : Bool) (rows : Except Fail (List (List (Option Spot))))
    (effs : Nat → List Nat → List Eff) : Issue :=
  match rows with
  | .error e => .fault e
  | .ok rows =>
    let live := liveSpots rows
    if s.loadStalls f fixed then .wait
    else match s.banks .t f (live.flatMap (·.keys)) with
    | .error w => .waitAt w
    | .ok (s', lat) =>
      match s.spotsConsume accRead live with
      | some (k, e) => engConsume s' k e
      | none =>
        let s' := (s'.scrubSpots live).cacheSpots s.cur b live
        .goP s' { age := 0, due := s.loadDue f fixed lat, via := viaOf f
                  effs := (cells.zip rows).flatMap fun x => effs x.1 (x.2.map (s.spotCode f.bits)) }

/-- A store of codes by cell (DEDUCED, log entry 9); at the limit of R27 one to another space than 1 waits. -/
def State.tStore (s : State) (b : BufRec) (f : Rec) (rows : Except Fail (List (List (Option Spot))))
    (codes : Nat → List Nat) : Issue :=
  match rows with
  | .error e => .fault e
  | .ok rows =>
    let live := liveSpots rows
    if s.loadStalls f true then .wait
    else match s.banks .t f (live.flatMap (·.keys)) with
    | .error w => .waitAt w
    | .ok (s', _) =>
      let (s', n) := (s'.cacheSpots s.cur b live).putCells f.bits ((cells.zip rows).map fun x => (x.2, codes x.1))
      .go (s'.countBytes n) (.cycle (s.eng .t).cyc) []

/-- vl elements of the record's width lie within a register. -/
def vlFits (vl bits : Nat) : Bool := decide (vl * bits ≤ 16384)

def memUse (w : TWord) (store vi : Bool) : TUse :=
  { reg := .v, brec := true, ereg := true, fild := !store, take := store, imm := true, ext := tExtMem w vi }

/-- R263. -/
def execTld (w : TWord) (s : State) : Out :=
  .next (s.issue (tFront w (memUse w false false)) fun s =>
    let h := s.har s.cur
    match s.tRec w false true false with
    | .error e => .fault e
    | .ok (b, f) =>
      if !vlFits h.vl.toNat f.bits then .fault { code := cVL_RANGE }
      else s.tLoad b f true (s.elSpots s.cur b f false 0 accRead (tDisp h w) (tCs w) (tIdx h w h.vl.toNat)) fun cell cs =>
        codeEffs f.bits cell w.reg.toNat cs)

/-- R263. -/
def execTst (w : TWord) (s : State) : Out :=
  .next (s.issue (tFront w (memUse w true false)) fun s =>
    let h := s.har s.cur
    match s.tRec w false false true with
    | .error e => .fault e
    | .ok (b, f) =>
      if !vlFits h.vl.toNat f.bits then .fault { code := cVL_RANGE }
      else s.tStore b f (s.elSpots s.cur b f true 1 accWrite (tDisp h w) (tCs w) (tIdx h w h.vl.toNat)) fun cell =>
        h.tcodes cell w.reg.toNat f.bits h.vl.toNat)

/-- R263: a slot's worth of elements. -/
def execTlds (w : TWord) (s : State) : Out :=
  let use : TUse := { reg := .slot, brec := true, ereg := true, fild := true, imm := true, ext := tExtMem w false }
  .next (s.issue (tFront w use) fun s =>
    let h := s.har s.cur
    if !h.claim.getLsbD w.reg.toNat then .fault { code := cSLOT_STATE }
    else match s.tRec w false true false with
      | .error e => .fault e
      | .ok (b, f) =>
        s.tLoad b f true (s.elSpots s.cur b f false 0 accRead (tDisp h w) (tCs w) (tIdx h w (16384 / f.bits)))
          fun cell cs => [.s cell w.reg.toNat 0 (codeBytes f.bits cs)])

/-- Indices of gather and scatter (R264). -/
def tGatherIdx (h : Harness) (w : TWord) (cell : Nat) : List (Int × Int × Int) :=
  let x := tStart h w
  (h.velems cell (tVi w) 4 h.vl.toNat).map fun d =>
    (x.1 + sextNat 16 (field d 0 16), x.2.1 + sextNat 16 (field d 16 16), x.2.2 + tSplit w cell)

/-- R264. -/
def execTgath (w : TWord) (s : State) : Out :=
  .next (s.issue (tFront w (memUse w false true)) fun s =>
    let h := s.har s.cur
    match s.tRec w false true false with
    | .error e => .fault e
    | .ok (b, f) =>
      if !vlFits h.vl.toNat (max 32 f.bits) then .fault { code := cVL_RANGE }
      else s.tLoad b f false (s.elSpots s.cur b f false 0 accRead (tDisp h w) true (tGatherIdx h w)) fun cell cs =>
        codeEffs f.bits cell w.reg.toNat cs)

/-- R264. -/
def execTscat (w : TWord) (s : State) : Out :=
  .next (s.issue (tFront w (memUse w true true)) fun s =>
    let h := s.har s.cur
    match s.tRec w false false true with
    | .error e => .fault e
    | .ok (b, f) =>
      if !vlFits h.vl.toNat (max 32 f.bits) then .fault { code := cVL_RANGE }
      else s.tStore b f (s.elSpots s.cur b f true 1 accWrite (tDisp h w) true (tGatherIdx h w)) fun cell =>
        h.tcodes cell w.reg.toNat f.bits h.vl.toNat)

/-! Sparse vectors (R270-R272, R452; 11 R329, R330) -/

/-- M of R270. -/
def sparseMask (f : Rec) : Nat := 8 * cdiv f.ext0 64

/-- The byte distance of the vector of each cell from BASE, or nothing where the bounds mode drops it (R452). -/
def tVectors (h : Harness) (w : TWord) (f : Rec) (write : Bool) : Except Fail (List (Option Int)) :=
  let x := tStart h w
  cells.mapM fun cell =>
    match { f with ext0 := max 1 f.ext0 }.locate write 0 x.2.1 (x.2.2 + tSplit w cell) with
    | .error c => .error { code := c }
    | .ok d => .ok (d.map fun y => y.1 + tDisp h w)

/-- The packed bytes of a vector (R270): header, mask, values, padding. -/
def packed (f : Rec) (codes : List Nat) : List Byte :=
  let size := f.bits / 8
  let ks := codes.zipIdx.filter fun x => x.1 ≠ 0
  let len := 8 + sparseMask f + size * ks.length
  let hd := ks.length % 2 ^ 16 + len % 2 ^ 16 * 2 ^ 16 + f.fmt * 2 ^ 32
  let mask := ks.foldl (fun m x => m + 2 ^ x.2) 0
  leBytes 8 hd ++ leBytes (sparseMask f) mask ++ elemBytes size (ks.map (·.1)) ++
    List.replicate (8 * cdiv len 8 - len) 0

/-- The bytes of a vector as spots of one byte each. -/
def State.byteSpots (s : State) (r : Nat) (b : BufRec) (cell : Nat) (d : Int) (n w acc : Nat) : Except Fail (List (Option Spot)) :=
  (List.range n).mapM fun (i : Nat) =>
    match s.spot r b cell (d + i) 1 w acc with
    | .error e => .error e
    | .ok (ks, p) => .ok (some { p := p, keys := ks, half := 0 })

/-- The status bits of a sparse fault (R329). -/
def sparseHi (need cell : Nat) : Nat := need % 2 ^ 16 * 2 ^ 16 + cell

/-- R271. -/
def execTspst (w : TWord) (s : State) : Out :=
  .next (s.issue (tFront w (memUse w true false)) fun s =>
    let h := s.har s.cur
    let vl := h.vl.toNat
    match s.tRec w true false true with
    | .error e => .fault e
    | .ok (b, f) =>
      if !vlFits vl f.bits then .fault { code := cVL_RANGE }
      else if f.ext0 < vl then .fault { code := cBOUNDS }
      else match tVectors h w f true with
        | .error e => .fault e
        | .ok ds =>
          let vecs := cells.map fun cell => packed f (h.tcodes cell w.reg.toNat f.bits vl)
          match vecs.zipIdx.find? fun x => (x.1.length : Int) > f.s1 with
          | some x => .fault { code := cSPARSE_OVERRUN, hi := sparseHi x.1.length x.2 }
          | none =>
            let row (x : Nat × Option Int × List Byte) : Except Fail (List (Option Spot)) :=
              match x.2.1 with
              | none => .ok []
              | some d => s.byteSpots s.cur b x.1 d x.2.2.length 1 accWrite
            s.tStore b { f with fmt := 0x01 } ((cells.zip (ds.zip vecs)).mapM row) fun cell =>
              (vecs.getD cell []).map (·.toNat))

/-- What a packed vector holds: its checked length P and the codes of elements 0 to vl - 1; or the number of the failing
check of R272. `read` gives bytes of the vector. -/
def unpack {m : Type} (f : Rec) (vl : Nat) (read : Nat → Nat → Except m (List Byte)) : Except m (Except Nat (Nat × List Nat)) :=
  let size := f.bits / 8
  let mlen := sparseMask f
  match read 0 8 with
  | .error e => .error e
  | .ok hd =>
    let hd := leNat hd
    let nnz := field hd 0 16
    let len := field hd 16 16
    let pad := 8 * cdiv len 8
    if field hd 32 16 ≠ f.fmt then .ok (.error 1)
    else if nnz > f.ext0 ∨ len ≠ 8 + mlen + size * nnz ∨ (pad : Int) > f.s1 then .ok (.error 2)
    else match read 8 mlen with
      | .error e => .error e
      | .ok mb =>
        let ones := (mb.zipIdx.flatMap fun x => (List.range 8).filterMap fun i =>
          if x.1.getLsbD i then some (8 * x.2 + i) else none)
        if ones.length ≠ nnz ∨ ones.any (f.ext0 ≤ ·) then .ok (.error 3)
        else if field hd 48 16 ≠ 0 then .ok (.error 4)
        else match read (8 + mlen) (size * nnz) with
          | .error e => .error e
          | .ok vb =>
            let vals : Table Nat := ones.zip (elemsOf size nnz vb)
            .ok (.ok (pad, (List.range vl).map fun k => vals.getD k 0))

/-- The bytes of a vector of a cell, consumption included. -/
def State.vecBytes (s : State) (b : BufRec) (cell : Nat) (d : Int) (off n : Nat) : Except (Option Nat × Fail) (List Byte) :=
  match s.byteSpots s.cur b cell (d + off) n 0 accRead with
  | .error e => .error (none, e)
  | .ok sps =>
    match s.spotsConsume accRead (sps.filterMap id) with
    | some (k, e) => .error (some k, e)
    | none => .ok (sps.map fun x => BitVec.ofNat 8 (s.spotCode 8 x))

/-- The elements of one cell's vector and its spots. -/
def State.vecLoad (s : State) (b : BufRec) (f : Rec) (vl cell : Nat) (d : Option Int) :
    Except (Option Nat × Fail) (List Nat × List Spot) :=
  match d with
  | none => .ok (List.replicate vl 0, [])
  | some d =>
    match unpack f vl (s.vecBytes b cell d) with
    | .error e => .error e
    | .ok (.error n) => .error (none, { code := cSPARSE_FORMAT, hi := sparseHi n cell })
    | .ok (.ok (pad, cs)) =>
      match s.byteSpots s.cur b cell d pad 0 accRead with
      | .error e => .error (none, e)
      | .ok sps => .ok (cs, sps.filterMap id)

/-- R272. -/
def execTspld (w : TWord) (s : State) : Out :=
  .next (s.issue (tFront w (memUse w false false)) fun s =>
    let h := s.har s.cur
    let vl := h.vl.toNat
    match s.tRec w true true false with
    | .error e => .fault e
    | .ok (b, f) =>
      if !vlFits vl f.bits then .fault { code := cVL_RANGE }
      else if f.ext0 < vl then .fault { code := cBOUNDS }
      else match tVectors h w f false with
        | .error e => .fault e
        | .ok ds =>
          if s.loadStalls f true then .wait
          else match (cells.zip ds).mapM fun x => s.vecLoad b f vl x.1 x.2 with
          | .error (none, e) => .fault e
          | .error (some k, e) =>
            match s.banks .t f [k] with
            | .error w => .waitAt w
            | .ok (s', _) => engConsume s' k e
          | .ok vecs =>
            let live := vecs.flatMap (·.2)
            match s.banks .t f (live.flatMap (·.keys)) with
            | .error w => .waitAt w
            | .ok (s', lat) =>
              let s' := (s'.scrubSpots live).cacheSpots s.cur b live
              .goP s' { age := 0, due := s.loadDue f true lat, via := viaOf f
                        effs := (cells.zip vecs).flatMap fun x => codeEffs f.bits x.1 w.reg.toNat x.2.1 })

/-! Barrier arrival and atomics (R273, R274) -/

/-- The bytes that a TBARR subtracts: those left by a fault of it, or the node's count. -/
def State.barrBytes (s : State) : Nat :=
  match (s.eng .t).tbLeft with
  | some n => n
  | none => ((s.har s.cur).ctl.node.map fun (x : Node) => x.tbytes).getD 0

/-- The count starts again; `left` bytes wait for a retry of the TBARR. -/
def State.barrTaken (s : State) (left : Option Nat) : State :=
  (s.modCtl s.cur fun c => { c with node := c.node.map fun (x : Node) => { x with tbytes := 0 } }).modEng .t fun x =>
    { x with tbLeft := left }

/-- The updates of a TBARR on the object at a key: a state, and whether one of them left the range (R126, R444). -/
def State.barrUpdates (s : State) (k n : Nat) (arr : Bool) : State × Bool :=
  let (s, left) := s.barChunks k (chunks (n / 2048 + 1) n)
  if left ≠ 0 then (s.barrTaken (some left), true)
  else if !arr then (s.barrTaken none, false)
  else match barUpdate (s.wordAt k) .arrive with
    | some w => ((s.write k (leBytes 8 w.toNat)).barrTaken none, false)
    | none => (s.barrTaken (some 0), true)

/-- R273 (DEDUCED, log entry 22). -/
def execTbarr (w : TWord) (s : State) : Out :=
  let arr := w.ext.getLsbD 0
  let use : TUse := { brec := true, ereg := true, imm := true, ext := decide (w.ext.toNat ≤ 1) }
  .next (s.issue (tFront w use) fun s =>
    let h := s.har s.cur
    match h.brec .t w.brec.toNat with
    | none => .fault { code := cBAD_BUFREC }
    | some b =>
      let f := b.fields
      if f.spf then .fault { code := cBAD_BUFREC }
      else if !h.scaleOk .t w.brec.toNat f then .fault { code := cBAD_SCALE_PLANE }
      else match s.barObject s.cur b (tDisp h w) with
        | .error e => .fault e
        | .ok (k, p) =>
          let n := s.barrBytes
          if n = 0 ∧ !arr then .go (s.barrTaken none) (.cycle (s.eng .t).cyc) []
          else
            let sp : Spot := { p := p, keys := (List.range 8).map (k + ·), half := 0 }
            if s.loadStalls f true then .wait
            else match s.banks .t f sp.keys with
            | .error w => .waitAt w
            | .ok (s', _) =>
              match s.spotsConsume accAtomic [sp] with
              | some (k, e) => engConsume s' k e
              | none =>
                let (s', out) := ((s'.scrubSpots [sp]).cacheSpots s.cur b [sp]).barrUpdates k n arr
                if out then .faultAt s' { code := cBAR_OVERFLOW } else .go s' (.cycle (s.eng .t).cyc) [])

/-- One atomic addition of R274. -/
def atomAdd (f : Rec) (old x : Nat) : Nat :=
  if f.fmt = 0x11 then
    Num.toCode Num.fp32 (Num.round Num.fp32 .rne 0 (Num.add .rne (Num.ofCode Num.fp32 old) (Num.ofCode Num.fp32 x)).1).1
  else (old + x) % 2 ^ 32

/-- The additions of R274 in ascending cell and then ascending k. -/
def State.atomAll (s : State) (f : Rec) (rows : List (List (Option Spot) × List Nat)) : State :=
  rows.foldl (fun s row => (row.1.zip row.2).foldl (fun s x =>
    match x.1 with
    | none => s
    | some sp =>
      (s.noteKeys sp.keys (s.asPoster s.cur)).writeKeys sp.keys (leBytes 4 (atomAdd f (s.spotCode 32 (some sp)) x.2))) s) s

/-- R274. -/
def execTatom (w : TWord) (s : State) : Out :=
  .next (s.issue (tFront w (memUse w true false)) fun s =>
    let h := s.har s.cur
    let vl := h.vl.toNat
    match s.tRec w false true true with
    | .error e => .fault e
    | .ok (b, f) =>
      if space f.base ≠ 1 ∧ space f.base ≠ 2 then .fault { code := cBAD_SPACE, addr := f.base }
      else if f.fmt ≠ 0x04 ∧ f.fmt ≠ 0x05 ∧ f.fmt ≠ 0x11 then .fault { code := cBAD_BUFREC }
      else if !vlFits vl f.bits then .fault { code := cVL_RANGE }
      else match s.elSpots s.cur b f true 2 accAtomic (tDisp h w) (tCs w) (tIdx h w vl) with
        | .error e => .fault e
        | .ok rows =>
          let live := liveSpots rows
          if s.loadStalls f true then .wait
          else match s.banks .t f (live.flatMap (·.keys)) with
          | .error w => .waitAt w
          | .ok (s', _) =>
            match s.spotsConsume accAtomic live with
            | some (k, e) => engConsume s' k e
            | none =>
              let s' := (s'.scrubSpots live).atomAll f ((cells.zip rows).map fun x => (x.2, h.velems x.1 w.reg.toNat 4 vl))
              .go (s'.countBytes (4 * live.length)) (.cycle (s.eng .t).cyc) [])

/-! Address registers and the exchange word (R275, R276) -/

/-- R275. -/
def execTeadd (w : TWord) (s : State) : Out :=
  let x := w.ext.toNat
  let two := w.ext.getLsbD 5
  let use : TUse := { ereg := true, imm := true, ext := field x 0 5 == 0 && (two || field x 6 4 == 0) }
  .next (s.issue (tFront w use) fun s =>
    let h := s.har s.cur
    let b := if two then h.er (field x 6 4) else 0
    s.at .t 1 [.te w.ereg (BitVec.ofNat 48 (h.er (field x 10 4) + b) + w.imm.signExtend 48)])

/-- R275. -/
def execTemov (w : TWord) (s : State) : Out :=
  let x := w.ext.toNat
  let form := field x 0 2
  let use : TUse :=
    { ereg := true, imm := form == 0 || form == 3, ext := field x 2 8 == 0 && (form == 1 || field x 10 4 == 0) }
  .next (s.issue (tFront w use) fun s =>
    let h := s.har s.cur
    let imm : BitVec 48 := w.imm.signExtend 48
    let v : BitVec 48 :=
      if form = 0 then imm
      else if form = 1 then BitVec.ofNat 48 (h.er (field x 10 4))
      else if form = 2 then h.vl.setWidth 48
      else imm <<< 20 + BitVec.ofNat 48 (h.er w.ereg.toNat % 2 ^ 20)
    s.at .t 1 [.te w.ereg v])

/-- R276. -/
def execTxch (w : TWord) (s : State) : Out :=
  let x := w.ext.toNat
  let size := 2 ^ field x 0 2
  let use : TUse := { reg := .v, ereg := true, take := true, imm := decide (w.imm.toNat < 64), ext := decide (x < 8) }
  .next (s.issue (tFront w use) fun s =>
    let h := s.har s.cur
    let e := h.er w.ereg.toNat
    let j := field e 0 11
    let v := leNat (((h.vget (field e 11 4) w.reg.toNat).drop (j * size)).take size)
    let word : Word :=
      if 2048 ≤ j * size then 0
      else if field x 2 1 = 1 then BitVec.ofInt 64 (sextNat (8 * size) v) else BitVec.ofNat 64 v
    .go s (.free .load) [.g (BitVec.ofNat 6 w.imm.toNat) word])

end Sys2Proof.Machine
end

