-- ==== Sys2Proof/Machine/Express.lean ====
section
/-!
DEFINITION. Systolic shifts and express messages (08 R265-R269), and their arrival at the other harness.
-/

namespace Sys2Proof.Machine

/-! Geometry (01 R11, R12) -/

/-- Steps in x and y of a direction: north, east, south, west. -/
def dirStep (d : Nat) : Int × Int := if d = 0 then (0, -1) else if d = 1 then (1, 0) else if d = 2 then (0, 1) else (-1, 0)

/-- The harness one step away in a direction on the module: none beyond its edge. -/
def State.adjacent (s : State) (r d : Nat) : Option Nat :=
  let die := dieOf r
  let st := dirStep d
  let y : Int := 8 * (die / 2) + r % 128 / 16 + st.2
  let x : Int := 16 * (die % 2) + r % 16 + st.1
  if x < 0 ∨ 32 ≤ x ∨ y < 0 ∨ 4 * s.nDies ≤ y then none
  else
    let (xn, yn) := (x.toNat, y.toNat)
    some (128 * (2 * (yn / 8) + xn / 16) + 16 * (yn % 8) + xn % 16)

/-- The neighbour that a mode-1 shift uses: one of another partition is as the edge of the module (R269). -/
def State.neighbour (s : State) (r d : Nat) : Option Nat :=
  match s.adjacent r d with
  | some n => if s.partOf n = s.partOf r then some n else none
  | none => none

/-! TSHIFT (R265, R266) -/

/-- Where a cell receives from: the cell behind it, or the edge at a place along it. -/
def shiftSource (d cell : Nat) : Nat ⊕ Nat :=
  let st := dirStep d
  let x : Int := (cell % 4 : Nat) - st.1
  let y : Int := (cell / 4 : Nat) - st.2
  if 0 ≤ x ∧ x < 4 ∧ 0 ≤ y ∧ y < 4 then .inl (4 * y.toNat + x.toNat)
  else .inr (if st.1 = 0 then cell % 4 else cell / 4)

/-- The opposite edge's cell of the same row or column. -/
def wrapSource (d cell : Nat) : Nat :=
  let st := dirStep d
  let x := (((cell % 4 : Nat) : Int) - st.1) % 4
  let y := (((cell / 4 : Nat) : Int) - st.2) % 4
  4 * y.toNat + x.toNat

/-- The cells whose data leaves the harness, in order along the edge. -/
def leavingCells (d : Nat) : List Nat :=
  if d = 0 then [0, 1, 2, 3] else if d = 1 then [3, 7, 11, 15] else if d = 2 then [12, 13, 14, 15] else [0, 4, 8, 12]

/-- The side of a buffer that a shift in a direction fills and empties. -/
def sourceSide (d : Nat) : Nat := (d + 2) % 4

/-- A neighbour's inbound buffer holds data, or data is on its way to it. -/
def State.edgeTaken (s : State) (n side : Nat) : Bool :=
  ((s.har n).edge.getD side none).isSome || s.efly.any fun x => x.1 == n && x.2.1 == side

/-- R265, R266, R269: both waits of mode 1 are tested before anything moves (DEDUCED, log entry 23). -/
def execTshift (w : TWord) (s : State) : Out :=
  let x := w.ext.toNat
  let d := field x 12 2
  let mode := field x 10 2
  let use : TUse := { reg := .v, fild := true, take := true, ext := field x 0 10 == 0 && mode != 3 }
  .next (s.issue (tFront w use) fun s =>
    let r := s.cur
    let h := s.har r
    let reg := w.reg.toNat
    let side := sourceSide d
    let fwd := if mode = 1 then s.neighbour r d else none
    let back := if mode = 1 then s.neighbour r side else none
    let live (n : Nat) : Bool := (s.har n).running
    let full : Bool := match fwd with
      | some n => live n && s.edgeTaken n side
      | none => false
    let inb := h.edge.getD side none
    if full || (back.isSome && inb.isNone) then .wait
    else
      let s := match fwd with
        | some n => { s with efly := s.efly ++ [(n, side, (leavingCells d).map fun c => h.vget c reg)] }
        | none => s
      let s := if back.isSome then s.modHar r fun h => { h with edge := h.edge.setIfInBounds side none } else s
      let zero : List Byte := List.replicate 2048 0
      let new (cell : Nat) : List Byte :=
        match shiftSource d cell with
        | .inl c => h.vget c reg
        | .inr i =>
          if mode = 2 then h.vget (wrapSource d cell) reg
          else if back.isSome then (inb.getD []).getD i zero
          else zero
      s.at .t 4 (cells.map fun cell => .v cell reg 0 (new cell)))

/-- R266, R269: edge data reaches a harness: held while it runs a node, discarded otherwise. -/
def execEdgeDataArrival (s : State) : Out :=
  match s.efly with
  | [] => .next s
  | (n, side, data) :: rest =>
    let s := { s with efly := rest }
    .next (if (s.har n).running then s.modHar n fun h => { h with edge := h.edge.setIfInBounds side (some data) } else s)

/-! Express messages (R267, R268) -/

/-- The rank that EREG names: none where R267 refuses it. -/
def State.expressRank (s : State) (h : Harness) (w : TWord) : Option Nat :=
  let r := h.er w.ereg.toNat
  if 512 ≤ r ∨ s.ranks ≤ r ∨ s.partOf r ≠ s.partOf s.cur then none else some r

/-- The remote cell of cell n under a map. -/
def mapCell (m rot n : Nat) : Nat :=
  if m = 0 then n else if m = 1 then 4 * (n % 4) + n / 4 else if m = 2 then (n + rot) % 16 else 15 - n

/-- The messages of a channel that a harness holds or that are on their way to it. -/
def State.channelLoad (s : State) (n ch : Nat) : Nat :=
  ((s.har n).xmsg.filter fun m => m.chan == ch).length + (s.xfly.filter fun x => x.1 == n && x.2.chan == ch).length

/-- R267 (DEDUCED, log entry 23). -/
def execTxsend (w : TWord) (s : State) : Out :=
  let x := w.ext.toNat
  let m := field x 10 4
  let rot := w.imm.toNat
  let use : TUse :=
    { reg := .v, ereg := true, take := true, imm := m == 2 && decide (rot < 16), ext := decide (m < 4) && field x 4 6 == 0 }
  .next (s.issue (tFront w use) fun s =>
    let h := s.har s.cur
    match s.expressRank h w with
    | none => .fault { code := cBAD_SPACE }
    | some n =>
      let ch := field x 0 4
      if (s.har n).running && decide (2 ≤ s.channelLoad n ch) then .wait
      else
        -- cell c of the receiver gets the register of the cell that maps to it
        let src (c : Nat) : Nat := (cells.find? fun k => mapCell m rot k == c).getD 0
        let msg : XMsg := { chan := ch, src := s.cur, data := cells.map fun c => h.vget (src c) w.reg.toNat }
        .go { s with xfly := s.xfly ++ [(n, msg)] } (.cycle (s.eng .t).cyc) [])

/-- R267: the oldest message of the named source on the channel. -/
def execTxrecv (w : TWord) (s : State) : Out :=
  let use : TUse := { reg := .v, ereg := true, fild := true, ext := decide (w.ext.toNat < 16) }
  .next (s.issue (tFront w use) fun s =>
    let h := s.har s.cur
    match s.expressRank h w with
    | none => .fault { code := cBAD_SPACE }
    | some n =>
      let mine (m : XMsg) : Bool := m.chan == w.ext.toNat && m.src == n
      match h.xmsg.find? mine with
      | none => .wait
      | some m =>
        .go (s.modHar s.cur fun h => { h with xmsg := dropFirst mine h.xmsg }) (.free .load)
          (cells.map fun cell => .v cell w.reg.toNat 0 (m.data.getD cell [])))

/-- R268, R269: an express message reaches a harness. -/
def execExpressMessageArrival (s : State) : Out :=
  match s.xfly with
  | [] => .next s
  | (n, m) :: rest =>
    let s := { s with xfly := rest }
    .next (if (s.har n).running then s.modHar n fun h => { h with xmsg := h.xmsg ++ [m] } else s)

end Sys2Proof.Machine
end

