-- ==== Sys2Proof/Machine/SeqQueue.lean ====
section
/-!
DEFINITION. The load and store queues perform on their own (04 R107-R109, 06 R175), and the register instructions that
share them: MFS, MTS, SPAWN (06 R193, R198).
-/

namespace Sys2Proof.Machine

/-- The value a load delivers. -/
def loadValue (size : Nat) (sext : Bool) (bytes : List Byte) : Word :=
  let n := leNat bytes
  if sext then BitVec.ofInt 64 (sextNat (8 * size) n) else BitVec.ofNat 64 n

/-- The load queue and the store queue of a harness, as askers of a tower bank. -/
def loadAsker (r : Nat) : Asker := { rank := r, port := 3 }
def storeAsker (r : Nat) : Asker := { rank := r, port := 4 }

/-- The oldest load that no access before a separation holds back. -/
def Seq.nextLoad (q : Seq) : Option LoadReq :=
  match q.loadQ with
  | [] => none
  | l :: _ =>
    if q.storeQ.all (fun t => !decide (t.epoch < l.epoch)) && q.back.all fun t => !decide (t.epoch < l.epoch) then some l else none

/-- A load on its way back that has come. -/
def State.loadBack (s : State) (r : Nat) : Option LoadBack := (s.har r).seq.back.find? fun l => decide (l.at' ≤ s.mcc.toNat)

/-- It writes its register and releases its slot (R109, R161). -/
def State.takeBack (s : State) (r : Nat) (l : LoadBack) : State :=
  s.modSeq r fun q => (({ q with back := eraseOne l q.back }.wg l.d l.v).clearSb l.sb).readyAt l.d (s.mcc.toNat + 1)

/-- A load may return from a tower, or the oldest one may perform: nothing stands before a separation that precedes it, and its
bank serves it. -/
def State.loadReady (s : State) (r : Nat) : Bool :=
  (s.loadBack r).isSome || match (s.har r).seq.nextLoad with
  | none => false
  | some l =>
    match l.place with
    | .mem k => s.serves (loadAsker r) k
    | .reg _ => true

/-- Why a queued load delivers no byte: a granule of it became poisoned while it waited (17 R424), or its link went down
(18 R430). -/
def State.loadFails (s : State) (l : LoadReq) : Option Fail :=
  match l.place with
  | .reg _ => none
  | .mem k =>
    if k / 2 ^ 60 = 4 ∧ !s.linkUp (owner l.ptr) then some { code := cMEM_ERROR, addr := l.ptr }
    else (s.consumesN k l.size).map fun c => { code := c, addr := l.ptr, gran := some k }

/-- The fault of an access of rank r that was already in its queue: of class 0, at the instruction in issue; a sequencer that
does not issue only counts it (DESIGN CHOICE, log entry 27). -/
def State.lateFault (s : State) (r : Nat) (f : Fail) : State :=
  if (s.har r).seq.active then s.preciseF r f else s.tally r f

/-- The oldest load performs and its value returns (R109, R175); from a tower it returns after the cycles of its beat (02 R49). -/
def State.performLoad (s : State) (r : Nat) : State :=
  match s.loadBack r, (s.har r).seq.loadQ with
  | some l, _ => s.takeBack r l
  | none, [] => s
  | none, l :: rest =>
    match s.loadFails l with
    | some f => (s.modSeq r fun q => { q with loadQ := rest }.clearSb l.sb).lateFault r f
    | none =>
      let v := match l.place with
        | .mem k => loadValue l.size l.sext (memRead s.mem k l.size)
        | .reg n => s.privRead r n
      let (s, lat) := match l.place with
        | .mem k => (s.scrub k l.size).touchLat (loadAsker r) k
        | .reg _ => (s, 0)
      let now := s.mcc.toNat
      if lat = 0 then s.modSeq r fun q => (({ q with loadQ := rest }.wg l.d v).clearSb l.sb).readyAt l.d (now + 1)
      else s.modSeq r fun q => { q with loadQ := rest, back := q.back ++ [⟨l.d, v, l.sb, l.epoch, now + lat⟩] }

/-- R109: the event of rank a. -/
def execSeqLoadReturn (s : State) : Out :=
  .next (if s.loadReady s.ev.a then s.performLoad s.ev.a else s)

/-- A continuation handed over by SPAWN: held until NEND in a replayable node (17 R417), else enqueued (R193). -/
def State.spawnRecord (s : State) (r : Nat) (c : Cont) : State :=
  match (s.har r).ctl.node with
  | some n =>
    if launchRepl n.launch then s.modCtl r fun x => { x with node := some { n with held := n.held ++ [(s.mcc.toNat, c)] } }
    else (s.enqueue (dieOf r) c none false false (.spawn r)).1
  | none => (s.enqueue (dieOf r) c none false false (.spawn r)).1

/-- The effect of a store (R109). One that is caught in its queue by a link that goes down is not performed, and faults
(18 R430). -/
def State.storeEffect (s : State) (r : Nat) (w : StoreWhat) : State :=
  match w with
  | .mem k bytes =>
    if k / 2 ^ 60 = 4 ∧ !s.linkUp (peerPort k) then
      s.lateFault r { code := cMEM_ERROR, addr := peerPtr k, acc := accWrite }
    else
      ((s.write k bytes).touch (storeAsker r) k).noteTag k bytes.length (s.asPoster r)
  | .reg n level v => s.privWrite r n level v
  | .spawn c => s.spawnRecord r c

/-- The oldest store that no load before a separation holds back. -/
def Seq.nextStore (q : Seq) : Option StoreReq :=
  match q.storeQ with
  | [] => none
  | t :: _ =>
    if q.loadQ.all (fun l => !decide (l.epoch < t.epoch)) && q.back.all fun l => !decide (l.epoch < t.epoch) then some t else none

/-- The oldest store may perform: no load before a separation that precedes it, its bank serves it; a SPAWN whose record waits
for room stays (15 R377). -/
def State.storeReady (s : State) (r : Nat) : Bool :=
  match (s.har r).seq.nextStore with
  | none => false
  | some t =>
    match t.what with
    | .mem k _ => s.serves (storeAsker r) k
    | .spawn _ => !s.waits (.spawn r)
    | .reg _ _ _ => true

/-- The oldest store leaves the queue. -/
def Seq.popStore (q : Seq) : Seq :=
  match q.storeQ with
  | [] => q
  | t :: rest => { q with storeQ := rest }.clearSb t.sb

/-- The oldest store performs. A SPAWN whose record finds no room is held in the queue (15 R377). -/
def State.performStore (s : State) (r : Nat) : State :=
  match (s.har r).seq.storeQ with
  | [] => s
  | t :: _ =>
    match t.what with
    | .spawn c =>
      let s := s.spawnRecord r c
      if s.waits (.spawn r) then s else s.modSeq r Seq.popStore
    | w => (s.modSeq r Seq.popStore).storeEffect r w

/-- The oldest load and store that a tower bank does not serve in this cycle wait there. -/
def State.askQueues (s : State) (r : Nat) : State :=
  let q := (s.har r).seq
  let s := match q.nextLoad with
    | some l => (match l.place with | .mem k => s.ask (loadAsker r) k | .reg _ => s)
    | none => s
  match q.nextStore with
  | some t => (match t.what with | .mem k _ => s.ask (storeAsker r) k | _ => s)
  | none => s

/-- R109: the event of rank a. -/
def execSeqStorePerform (s : State) : Out :=
  .next (if s.storeReady s.ev.a then s.performStore s.ev.a else s)

/-- R198: numbers below 0x100 at issue; privileged numbers through the load queue. -/
def execMfs (d : BitVec 6) (n : BitVec 12) (s : State) : Out :=
  let r := s.cur
  if n.toNat < 0x100 then
    match s.specialRead r n.toNat with
    | some v => .next (s.toG d v)
    | none => .next (s.preciseC r cILLEGAL_INSTR)
  else
    let p := mkPtr 15 0 (8 * n.toNat)
    match privCheck n.toNat (s.har r).level p accRead with
    | .error f => .next (s.precise r f)
    | .ok _ =>
      if (s.har r).atLimit then .next s.stall
      else .next (s.retireSeq fun q => { q with loadQ := q.loadQ ++ [LoadReq.mk d (.reg n.toNat) 8 false 0 q.epoch p] })

/-- R198: numbers below 0x100 at issue, dropped where RO; privileged numbers through the store queue. -/
def execMts (a : BitVec 6) (n : BitVec 12) (s : State) : Out :=
  let r := s.cur
  let v := s.g a
  if n.toNat < 0x100 then
    match s.specialRead r n.toNat with
    | some _ => .next (s.retire fun h => { h with sp := h.sp.write n.toNat v })
    | none => .next (s.preciseC r cILLEGAL_INSTR)
  else
    let p := mkPtr 15 0 (8 * n.toNat)
    match privCheck n.toNat (s.har r).level p accWrite with
    | .error f => .next (s.precise r f)
    | .ok _ =>
      if (s.har r).atLimit then .next s.stall
      else .next (s.retireSeq fun q => { q with storeQ := q.storeQ ++ [StoreReq.mk (.reg n.toNat (s.har r).level v) 0 q.epoch] })

/-- R193: the record of g(a) to g(a+3) enters the store queue; a above 60 is illegal. -/
def execSpawn (a : BitVec 6) (s : State) : Out :=
  let r := s.cur
  if a.toNat > 60 then .next (s.preciseC r cILLEGAL_INSTR)
  else if (s.har r).atLimit then .next s.stall
  else
    let q := (s.har r).seq
    let c : Cont := ⟨q.rgN a.toNat, q.rgN (a.toNat + 1), q.rgN (a.toNat + 2), q.rgN (a.toNat + 3)⟩
    .next (s.retireSeq fun q => { q with storeQ := q.storeQ ++ [StoreReq.mk (.spawn c) 0 q.epoch] })

end Sys2Proof.Machine
end

