-- ==== Sys2Proof/Machine/System.lean ====
section
/-!
DEFINITION. The end and the suspension of a node: YIELD, NEND, ERET, abort, TLBI, gang starts and aborts (01 R34-R41, R445,
R446; 06 R187, R201, R202; 16 R393, R401; 17 R413-R417).
-/

namespace Sys2Proof.Machine

/-! Quiescence -/

/-- An engine whose queue is empty with every block retired. -/
def EngSt.idle (x : EngSt) : Bool := x.queue.isEmpty && x.blk.isNone && x.ended.isEmpty

/-- Steps 1 of R39 and of NEND: queues empty, engines retired. -/
def Harness.quiesced (h : Harness) : Bool := h.seq.drained && h.ve.idle && h.de.idle && h.te.idle

/-- Every scoreboard slot is clear. -/
def Seq.sbClear (q : Seq) : Bool := q.sbn.toList.all (· == 0)

/-! Gangs of running nodes -/

def State.gang (s : State) (id : Nat) : Option Gang := s.gangs.find? fun g => g.id == id

def State.modGang (s : State) (id : Nat) (f : Gang → Gang) : State :=
  { s with gangs := s.gangs.map fun g => if g.id = id then f g else g }

/-- The gang of the node of a rank. -/
def State.gangOf (s : State) (r : Nat) : Option Gang :=
  match (s.har r).ctl.node with
  | some n => n.gang.bind s.gang
  | none => none

/-- A member of a gang ends, by whatever way: whether it was the last, and the state without it. A gang without members
left is forgotten. -/
def State.leaveGang (s : State) (r : Nat) : State × Bool :=
  match s.gangOf r with
  | none => (s, true)
  | some g =>
    let live := g.live.filter (· != r)
    let s := s.modGang g.id fun g => { g with live := live, atYield := g.atYield.filter (· != r) }
    if live.isEmpty then ({ s with gangs := s.gangs.filter fun x => x.id != g.id }, true) else (s, false)

def State.modNode (s : State) (r : Nat) (f : Node → Node) : State :=
  s.modCtl r fun c => { c with node := c.node.map f }

/-! YIELD (R39, R40, R446) -/

/-- A YIELD that does not save completes: the watchdog count starts again (15 R380). -/
def State.yieldOn (s : State) (r : Nat) : State := (s.modNode r fun n => { n with count := 0 }).modSeq r Seq.advance

/-- The records that a node's SPAWNs have handed over, with those of the other members of its gang (17 R417). -/
def State.heldOf (s : State) (r : Nat) (n : Node) : Table (List (Nat × Cont)) :=
  let had := match s.gangOf r with
    | some g => g.record.held
    | none => []
  if n.held.isEmpty then had.erase r else had.set r n.held

/-- The state in which the other members of a gang find what rank r has handed over. -/
def State.keepHeld (s : State) (r : Nat) (n : Node) : State :=
  match n.gang with
  | some g =>
    let held := s.heldOf r n
    s.modGang g fun x => { x with record := { x.record with held := held } }
  | none => s

/-- A record handed over in a cycle takes its place behind those of that cycle and of earlier ones. -/
def heldIn (x : Nat × Cont) : List (Nat × Cont) → List (Nat × Cont)
  | [] => [x]
  | y :: t => if y.1 ≤ x.1 then y :: heldIn x t else x :: y :: t

/-- All held records in issue order, those of one cycle by rank (R417). -/
def heldOrder (t : Table (List (Nat × Cont))) : List (Nat × Cont) := (t.flatMap (·.2)).foldl (fun l x => heldIn x l) []

/-- The context is in memory: grants and pins go, the continuation is queued again by the last member, the line is
lowered. Records held under 17 R417 stay with the node. -/
def State.saved (s : State) (r : Nat) (n : Node) : State :=
  let s := (s.returnPower r).modHar r fun h =>
    { h with recs := [], ctl := { h.ctl with line := false, node := some { n with ending := 1 } } }
  let held := s.heldOf r n
  let (s, last) := (s.keepHeld r n).leaveGang r
  if last then (s.enqueue (dieOf r) n.cont n.gid true false (.yield r) held).1 else s

/-- The node's YIELD found the line high and waits. -/
def State.yieldWait (s : State) (r : Nat) : State := s.stall.modSeq r fun q => { q with wait := { stage := 1 } }

/-- The save of a node whose YIELD found the line high, once its sends and arrivals are done (R187) (DESIGN CHOICE, log entry
32). -/
def State.saveNode (s : State) (r : Nat) (n : Node) : State :=
  let h := s.har r
  if !(s.sendsGone r && h.arrivalsDone) then s.yieldWait r
  else match s.devStore (s.partOf r) (saveAt n.cont.fp) (h.saveBytes (h.seq.pc + 4)) needW with
  | .error f => s.preciseF r f
  | .ok s =>
    let s := s.saved r n
    if s.waits (.yield r) then s.stall else s.leaveNode r

/-- A YIELD with the line high in a gang waits for the other members; when one has ended they continue (R40). A member that
reaches its YIELD after another has ended continues as well, its line lowered (DESIGN CHOICE, log entry 61). -/
def State.yieldGang (s : State) (r : Nat) (n : Node) (g : Gang) : State :=
  if g.live.length < g.members.length ∧ !g.saving then
    (s.modHar r fun h => { h with ctl := { h.ctl with line := false } }).yieldOn r
  else
    let at' := if g.atYield.contains r then g.atYield else g.atYield ++ [r]
    let all := g.saving || g.live.all at'.contains
    let s := s.modGang g.id fun g => { g with atYield := at', saving := all }
    if all then s.saveNode r n else s.yieldWait r

/-- R39, R201: a delay slot is illegal; stage 1 is a YIELD that has found the line high. -/
def execYield (s : State) : Out :=
  let r := s.cur
  let h := s.har r
  if s.inSlot then .next (s.preciseC r cILLEGAL_INSTR)
  else match h.ctl.node with
    | none => .next (if h.quiesced && h.seq.sbClear then s.modSeq r Seq.advance else s.stall)
    | some n =>
      if h.ctl.abort.isSome then .next s.stall
      else if n.ending = 1 then .next (if s.waits (.yield r) then s.stall else s.leaveNode r)
      else if h.seq.wait.stage = 0 ∧ !(h.quiesced && h.seq.sbClear) then .next s.stall
      else if h.seq.wait.stage = 0 ∧ !h.ctl.line then .next (s.yieldOn r)
      else match s.gangOf r with
        | some g => .next (s.yieldGang r n g)
        | none => .next (s.saveNode r n)

/-! NEND (R34, R445) -/

/-- The successors of an entry. -/
def State.successors (s : State) (gid : Option Nat) : List Nat :=
  match gid with
  | some g => ((s.die (g / 4096)).sched.tab.find (g % 4096)).elim [] (·.succ)
  | none => []

/-- NEND begins its step 1, of a gang by its last member: the records that SPAWN handed over (17 R417) and the successors stand
ready. Another member leaves the records that it handed over to the last one. -/
def State.nendOut (s : State) (r : Nat) (n : Node) : State :=
  let held := heldOrder (s.heldOf r n)
  let (s, last) := (s.keepHeld r n).leaveGang r
  s.modNode r fun m =>
    { m with ending := 2, held := if last then held else [], succ := if last then s.successors n.gid else []
             gang := if last then none else m.gang }

/-- Step 1 of R34 goes on: held records are enqueued in their order, then the successors are decremented in list order, as far
as there is room (15 R377). What has been done is remembered, since an abort takes back what has not run. -/
def State.nendStep (s : State) (r : Nat) : Nat → State
  | 0 => s
  | fuel + 1 =>
    match (s.har r).ctl.node with
    | none => s
    | some n =>
      if s.waits (.nend r) then s
      else match n.held, n.succ with
        | c :: cs, _ =>
          let at' := s.placeOf (dieOf r) c.2 none false (.nend r)
          let (s, st) := s.enqueue (dieOf r) c.2 none false false (.nend r)
          (s.modNode r fun m => { m with held := cs, sent := if st = cOK then at' :: m.sent else m.sent }).nendStep r fuel
        | [], g :: gs =>
          let (s, st) := s.decrement (dieOf r) g (.nend r)
          (s.modNode r fun m => { m with succ := gs, gone := if st = cOK then g :: m.gone else m.gone }).nendStep r fuel
        | [], [] => s

/-- The access of the join decrement. -/
def joinAcc : SeqAcc := ⟨8, 8, accAtomic, true, true, true, true⟩

/-- The harness becomes idle by NEND, which lowers its line (15 R378). -/
def State.nended (s : State) (r : Nat) : State := (s.modCtl r fun c => { c with line := false }).leaveNode r

/-- The end of the node of rank r: its entry becomes FREE, of a gang with the last member. -/
def State.nendFree (s : State) (r : Nat) (n : Node) : State := (s.freeEntry (if n.gang.isNone then n.gid else none)).nended r

/-- The node has ended and its join word could not be decremented, which is reported (R445). -/
def State.joinLost (s : State) (r : Nat) (n : Node) (f : Fail) : State :=
  ((s.tally r f).message (dieOf r) f.code r n.cont.join (gidWord n.gid)).nendFree r n

/-- Step 2 of R34 and the end of the node; of a gang, the last member makes it (17 R416) (DEDUCED, log entry 29). A consumption
leaves the word and is reported (R445). -/
def State.nendJoin (s : State) (r : Nat) (n : Node) : State :=
  if n.cont.join = 0 ∨ n.gang.isSome then s.nendFree r n
  else match s.seqAccess r n.cont.join joinAcc with
    | .ok (.mem k) =>
      if !s.towerFree k then (s.ask s.issuer k).stall
      else match s.consumesN k 8 with
        | some c => (s.unask s.issuer k).joinLost r n { code := c, gran := some k }
        | none =>
          let old : Word := BitVec.ofNat 64 (leNat (memRead s.mem k 8))
          ((((s.scrub k 8).touch s.issuer k).write k (leBytes 8 (old - 1).toNat)).noteTag k 8 (s.asPoster r)).nendFree r n
    | .ok (.reg _) => s.nendFree r n
    | .error f => s.joinLost r n f

/-- Steps 1 and 2 of R34 as far as they go. -/
def State.nendOn (s : State) (r : Nat) (n : Node) : State :=
  let s := s.nendStep r (n.held.length + n.succ.length)
  if s.waits (.nend r) then s.stall else s.nendJoin r n

/-- R34, R202, R187, R445 (DEDUCED, log entry 29). -/
def execNend (s : State) : Out :=
  let r := s.cur
  let h := s.har r
  if s.inSlot then .next (s.preciseC r cILLEGAL_INSTR)
  else match h.ctl.node with
    | none => .next (if h.quiesced && s.sendsGone r then (s.modSeq r fun q => { q with active := false }).nended r else s.stall)
    | some n =>
      if n.ending = 2 then .next (s.nendOn r n)
      else if h.ctl.abort.isSome || !(h.quiesced && s.sendsGone r) then .next s.stall
      else
        let chk := if n.cont.join = 0 then (.ok (.mem 0)) else s.seqAccess r n.cont.join joinAcc
        match chk with
        | .error f => .next (s.preciseF r f)
        | .ok (.reg _) => .next (s.precise r { code := cBAD_SPACE, addr := n.cont.join, acc := accAtomic })
        | .ok (.mem _) =>
          let s := s.nendOut r n
          .next (match (s.har r).ctl.node with
            | some n => s.nendOn r n
            | none => s)

/-! Abort (17 R413-R417) -/

/-- The stores that a sequencer has issued complete; its loads are discarded. A SPAWN that waits for room is no longer the
harness's. -/
def State.flushQueues (s : State) (r : Nat) : State :=
  let ws := (s.har r).seq.storeQ
  let ws := if s.waits (.spawn r) then ws.tail else ws
  let s := s.modSeq r fun q => { q with storeQ := [], loadQ := [], back := [], sbn := Vector.replicate 16 0 }
  let s := ws.foldl (fun s t => s.storeEffect r t.what) s
  (List.range s.nDies).foldl (fun s d => s.modSched d fun q =>
    { q with late := q.late.map fun x => if x.2 == .spawn r then (x.1, .none) else x }) s

/-- The other members of a gang abort L cycles after the first (R415). -/
def State.spreadAbort (s : State) (r : Nat) : State :=
  match s.gangOf r with
  | none => s
  | some g =>
    if (s.har r).ctl.abort.isSome then s
    else
      let l := s.groupLatency g.part ((launchGroup g.record.launch 0).getD 0)
      g.live.foldl (fun s m => if m = r then s else s.modCtl m fun c =>
        { c with abort := some ((c.abort.getD (s.mcc.toNat + l)).min (s.mcc.toNat + l)) }) s

/-- Records leave the queues and waits of a die. -/
def State.dropRecords (s : State) (d : Nat) (out : Ready × Waiter → Bool) : State :=
  (List.range 8).foldl (fun s prio => s.unspill d prio) (s.modSched d fun q =>
    { q with ready := q.ready.filter (fun r => !out (r, .none)), late := q.late.filter (fun x => !out x) })

/-- A record is that of an entry. -/
def ofGid (gid : Nat) (x : Ready × Waiter) : Bool := x.1.gid == some gid

/-- A decrement is taken back: a successor that still waits, or has not been started, counts one more (R416). -/
def State.undoDecrement (s : State) (gid : Nat) : State :=
  let d := gid / 4096
  match (s.die d).sched.tab.find (gid % 4096) with
  | none => s
  | some e =>
    let put (s : State) : State := s.modSched d fun q =>
      { q with tab := q.tab.set (gid % 4096) { e with ctr := e.ctr + 1, st := .waiting } }
    match e.st with
    | .waiting => put s
    | .ready => put ((List.range s.nDies).foldl (fun s d => s.dropRecords d (ofGid gid)) s)
    | .running => s

/-- What the NEND or the saving YIELD of an aborted node had begun is taken back, as far as it has not run: the record of its
save, the decrements and the held records of its NEND (R414, R416, R417) (DESIGN CHOICE, log entry 29). -/
def State.undoEnding (s : State) (r : Nat) (n : Node) : State :=
  let s := (List.range s.nDies).foldl (fun s d => s.dropRecords d fun x =>
    x.2 == .yield r || (x.2 == .nend r && x.1.gid.isNone) || n.sent.contains (d, x.1.sq)) s
  n.gone.foldl State.undoDecrement s

/-- What becomes of an aborted node's entry or record (R414). -/
def State.abortEntry (s : State) (r : Nat) (n : Node) : State :=
  let s := if n.ending = 0 then s else s.undoEnding r n
  if launchRepl n.launch then (s.enqueue (dieOf r) n.cont n.gid false true .none).1 else s.freeEntry n.gid

/-- R413: the node of rank r is aborted. -/
def State.abortNode (s : State) (r : Nat) : State :=
  let s := s.spreadAbort r
  let s := s.modHar r Harness.dropEngines
  let s := s.flushQueues r
  let s := { s with bugle := { s.bugle with sends := s.bugle.sends.filter fun x => x.rank != r } }
  let s := s.modHar r fun h =>
    { h with
      bg := h.bg.map fun kv => (kv.1, ({} : Member))
      claim := 0, feV := 0, feS := 0, feA := 0
      dpos := Vector.replicate 4 0
      sp := { h.sp with cur := 0, prev := 0 } }
  let node := (s.har r).ctl.node
  let (s, last) := s.leaveGang r
  let s := match node with
    | some n => if last then s.abortEntry r n else s
    | none => s
  (s.leaveNode r).count (dieOf r) 5

/-- R415: rank a, whose gang was aborted L cycles ago, aborts; a member at S waits for its ERET. -/
def execGangAbort (s : State) : Out :=
  let r := s.ev.a
  let h := s.har r
  match h.ctl.abort with
  | some c => .next (if c ≤ s.mcc.toNat + 1 ∧ h.level = 0 then s.abortNode r else s)
  | none => .next s

/-! ERET (R401) -/

/-- A block that SCHED_MISS kept from starting issues no word and retires, once the blocks before it have retired (01 R21). -/
def EngSt.retireHead (x : EngSt) : EngSt :=
  match x.queue with
  | [] => x
  | c :: rest =>
    if x.blk.isSome then { x with queue := { c with dropped := true } :: rest }
    else { x with queue := rest, ended := x.ended ++ [c] }

/-- The head of the queue becomes untimed. -/
def EngSt.untimeHead (x : EngSt) : EngSt :=
  match x.queue with
  | [] => x
  | c :: rest => { x with queue := { c with timed := false } :: rest }

def EngSt.untimeBlk (x : EngSt) : EngSt :=
  { x with blk := x.blk.map fun (b : Block) => { b with cmd := { b.cmd with timed := false } } }

/-- A word whose fetch failed as its block was fetched is passed over (DESIGN CHOICE, log entry 55). -/
def Block.passOver (b : Block) (pc : Nat) : Block := { b with holes := pc :: b.holes }

/-- The action of an ERET on the engine that a class 1 record names; `epc` is the word that the record names. -/
def EngSt.eret (x : EngSt) (action epc : Nat) (status : Word) : EngSt :=
  let missed := wf status 0 16 == cSCHED_MISS && (wf status 16 4 == 1 || wf status 16 4 == 2)
  let late := x.late
  let gone (p : Pend) : Bool := p.isFree && (p.effs.isEmpty || p.lost)
  let kept := if action = 1 ∧ late then dropFirst gone x.pend else x.pend
  let x := { x with late := false, pend := kept.map fun p => { p with lost := false } }
  match action with
  | 1 =>
    if missed then x.retireHead
    else if late then x
    else match x.blk with
      | some b => if b.fetched then { x with skip := true, tbLeft := none } else { x with blk := some (b.passOver epc) }
      | none => { x with skip := true, tbLeft := none }
  | 2 =>
    if wf status 0 16 ≠ cSCHED_MISS then x
    else if missed then x.untimeHead else x.untimeBlk
  | _ => x

/-- Where the sequencer continues: pc and the branch whose delay slot it re-executes. -/
def eretPc (ws : List Word) : Word × Option DelaySlot :=
  let w0 := ws.getD 0 0
  let cls := wf w0 0 4
  let ds := wf w0 5 1 == 1
  let taken := wf w0 6 1 == 1
  let pc := ws.getD 1 0
  let target := ws.getD 2 0
  let past : Word × Option DelaySlot := (if ds then (if taken then target else pc + 8) else pc + 4, none)
  if cls = 2 ∨ cls = 3 then past
  else if wf (ws.getD 12 0) 0 2 = 1 ∧ cls ≠ 1 ∧ cls ≠ 5 then past
  else if ds then (pc + 4, some ⟨pc, target, taken⟩)
  else (pc, none)

/-- The return proper: the level, the pc, the engine, the resume cycle; a pending fault enters again at the point of
return (R406). -/
def State.eret (s : State) (r : Nat) (ws : List Word) : State :=
  let cls := wf (ws.getD 0 0) 0 4
  let action := wf (ws.getD 12 0) 0 2
  let frozenCls := cls == 1 || cls == 4 || cls == 5
  let (pc, ds) := eretPc ws
  let e := s.mcc.toNat
  let s := s.modHar r fun h =>
    let h := { h with
      sp := { h.sp with cur := h.sp.prev, prev := 0 }
      seq := { h.seq with pc := pc, ds := ds, wait := {}, stalled := false }
      ctl := { h.ctl with resume := if frozenCls then some (max (ws.getD 13 0).toNat (e + 1)) else h.ctl.resume } }
    match (if cls = 1 then engOf (wf (ws.getD 0 0) 10 2) else none) with
    | some en => h.modEng en fun x => x.eret action (wf (ws.getD 4 0) 0 32) (ws.getD 7 0)
    | none => h
  let s := if cls = 4 then s.modNode r fun n => { n with count := 0 } else s
  let h := s.har r
  match h.ctl.bf with
  | some b =>
    if h.level = 0 then (s.modCtl r fun c => { c with resume := none }).enterPending r b else s
  | none => s

/-- R401, R204. An abort that fell due at S is made whatever ACTION says (17 R415). -/
def execEret (s : State) : Out :=
  let r := s.cur
  match s.privBar with
  | some c => .next (s.preciseC r c)
  | none =>
    match s.devRead (s.partOf r) (s.recordAt r (s.har r).level) 128 needR with
    | .error f => .next (s.preciseF r f)
    | .ok bs =>
      let s := s.devScrub (s.partOf r) (s.recordAt r (s.har r).level) 128
      let ws := bytesWords bs
      let due := match (s.har r).ctl.abort with
        | some c => decide (c ≤ s.mcc.toNat)
        | none => false
      .next (if wf (ws.getD 12 0) 0 2 = 3 || due then s.abortNode r else s.eret r ws)

/-! TLBI (16 R393) -/

/-- A region of space 0: first byte and length. -/
def tlbiRegion (size : Nat) (va : Nat) : Nat × Nat :=
  let b := if size = 0 then 16 else if size = 1 then 25 else if size = 2 then 34 else 48
  (va / 2 ^ b * 2 ^ b, 2 ^ b)

def Leaf.overlaps (l : Leaf) (lo len : Nat) : Bool := decide (l.va < lo + len) && decide (lo < l.va + 2 ^ l.sz)

/-- A range of offsets, high end excluded, overlaps a region. -/
def rangeMeets (x : Int × Int) (lo len : Nat) : Bool := decide (x.1 < (lo + len : Nat)) && decide ((lo : Int) < x.2)

/-- A record's pin overlaps a region. -/
def BufRec.pinMeets (b : BufRec) (lo len : Nat) : Bool :=
  match b.pinned with
  | some x => rangeMeets x lo len
  | none => false

/-- A packet's pin overlaps a region. -/
def Pkt.pinMeets (k : Pkt) (lo len : Nat) : Bool := !k.pins.isEmpty && k.ranges.any fun x => rangeMeets x lo len

/-- Cached translations of a region go in every harness of a partition. -/
def State.invalidate (s : State) (p lo len : Nat) : State :=
  { s with hs := s.hs.map fun kv =>
      if s.partOf kv.1 = p then (kv.1, { kv.2 with tlb := kv.2.tlb.filter fun l => !l.overlaps lo len }) else kv }

/-- The records that an engine instruction names (02 R59): a decode names the record of its position too. -/
def Harness.names (h : Harness) : Instr → List Nat
  | .tld w | .tst w | .tlds w | .tgath w | .tscat w | .tatom w | .tspst w | .tspld w | .tbarr w => [w.brec.toNat]
  | .dseek w => [w.brec.toNat]
  | .ddec w =>
    field (h.dpos.getD (w.imm.toNat % 4) 0).toNat 43 6 :: if w.imm.getLsbD 2 then [w.brec.toNat] else []
  | _ => []

/-- An end word. -/
def endsBlock : Instr → Bool
  | .vend | .dend | .tend => true
  | _ => false

/-- A block of engine e of rank r names a record, from a word on. -/
def State.blockNames (s : State) (r : Nat) (e : Eng) (l : Packet) (n : Nat) : Nat → Nat → Bool
  | 0, _ => false
  | fuel + 1, pc => match s.fetchN r (wordPtr e l pc) (wordSize e) true with
    | .error _ => false
    | .ok w =>
      let i := fetchedEng e w
      !endsBlock i && (((s.har r).names i).contains n || State.blockNames s r e l n fuel (pc + 1))

/-- The commands of an engine that have not retired. -/
def EngSt.commands (x : EngSt) : List Cmd := x.ended ++ (x.blk.map (·.cmd)).toList ++ x.queue

/-- A version of record n that has been unloaded still has a command in flight that names it (R394): one issued from
`lo` on, before `hi`. -/
def State.inFlight (s : State) (r n lo hi : Nat) : Bool :=
  let h := s.har r
  match h.ctl.node with
  | none => false
  | some node => [Eng.d, Eng.t].any fun e => (h.eng e).commands.any fun c =>
      decide (lo ≤ c.age) && decide (c.age < hi) && s.blockNames r e node.launch n (2 ^ 20) c.off

/-- The versions of record n of rank r whose pins overlap a region: the loaded one, and those that commands in flight still
name. `hi` is the age from which a newer version stands; none at the newest. -/
def State.pinVersions (s : State) (r n lo len : Nat) : Option Nat → List BufRec → List BufRec
  | _, [] => []
  | hi, b :: t =>
    let rest := State.pinVersions s r n lo len (some b.fromAge) t
    if b.pinMeets lo len && (match hi with | none => true | some a => s.inFlight r n b.fromAge a) then b :: rest else rest

/-- The loads and packets of a partition that hold a pin overlapping a region, each by a number of its own. -/
def State.pinHolders (s : State) (p lo len : Nat) : List Nat :=
  let recs := (s.hs.filter fun kv => s.partOf kv.1 == p).flatMap fun kv => kv.2.recs.flatMap fun nb =>
    (s.pinVersions kv.1 nb.1 lo len none nb.2).map fun b => 2 * (64 * b.pinId + nb.1)
  let pkts := (s.diesOf p).flatMap fun d => ((s.die d).pkts.filter fun k => k.pinMeets lo len).map
    fun k => 2 * (2 ^ 64 * (2 ^ 64 * (64 * k.id.die + k.id.cew) + k.id.ent) + k.id.idx) + 1
  recs ++ pkts

/-- R393: stage 1 waits for the pins that stood when it invalidated. -/
def execTlbi (sz : BitVec 2) (n : BitVec 6) (s : State) : Out :=
  let r := s.cur
  let va := s.g n
  match s.privBar with
  | some c => .next (s.preciseC r c)
  | none =>
    let p := s.partOf r
    let (lo, len) := tlbiRegion sz.toNat (offset va)
    if sz = 3 ∧ n ≠ 0 then .next (s.preciseC r cILLEGAL_INSTR)
    else if sz ≠ 3 ∧ (space va ≠ 0 ∨ owner va ≠ 0) then .next (s.precise r { code := cBAD_SPACE, addr := va })
    else
      let now := s.pinHolders p lo len
      let first := (s.har r).seq.wait.stage = 0
      let waitFor := if first then now else (s.har r).seq.wait.list.filter now.contains
      let s := if first then s.invalidate p lo len else s
      if waitFor.isEmpty then .next (s.retireSeq id)
      else .next (s.stall.modSeq r fun q => { q with wait := { stage := 1, list := waitFor } })

/-! What the scheduler starts -/

/-- R37: a gang whose start cycle is the next one starts on every member. -/
def execGangStart (s : State) : Out :=
  let due (g : Gang) : Bool := !g.started && (match g.start with
    | some c => decide (c ≤ s.mcc.toNat + 1)
    | none => false)
  match s.gangs.find? due with
  | none => .next s
  | some g =>
    let s := s.modGang g.id fun g => { g with started := true, live := g.members }
    let s := g.members.foldl (fun s m => (s.modCtl m fun c => { c with mode := .idle }).beginNode m g.record) s
    let live := g.members.filter fun m => (s.har m).running
    let s := s.modGang g.id fun x => { x with live := live }
    let s := if live.isEmpty then { s with gangs := s.gangs.filter fun x => x.id != g.id } else s
    .next ((g.members.filter fun m => !live.contains m).foldl (fun s m => s.fellIdle m) s)

/-- The harness that chooses next (R373): the lowest rank that is free and finds a record. -/
def State.chooser (s : State) : Option Nat :=
  let ds := (List.range s.nDies).filter fun d => !(s.die d).sched.ready.isEmpty
  (ds.flatMap fun d => List.range' (128 * d) 128).find? fun r => (s.har r).ctl.free && (s.choose r).isSome

/-- R373: an idle harness chooses a ready record. -/
def execNodeStart (s : State) : Out :=
  match s.chooser with
  | some r => .next (s.take r)
  | none => .next s

end Sys2Proof.Machine
end

