-- ==== Sys2Proof/Machine/Sched.lean ====
section
/-!
DEFINITION. The work scheduler: its parameter block and command queue, its commands, waiting enqueues, pre-emption lines,
self-test and checkpoints (15 R365-R387; 17 R420, R423), and the activation of a group table (14 R356-R358, R454).
-/

namespace Sys2Proof.Machine

/-! The parameter block (R365, R366) -/

/-- The parameter block of a die, in the block that was entered last, is read; its status. -/
def State.readParams (s : State) (d : Nat) : State × Nat :=
  let at' := (s.die d).sched.cbase
  let subj : Word := BitVec.ofNat 64 at'
  let params := s.devRead (s.partOfDie d) at' 64 needR
  let s := s.devScrub (s.partOfDie d) at' 64
  match params with
  | .error f => ((s.tally (128 * d) f).message d f.code 0 subj 0, f.code)
  | .ok bs =>
    let w := bytesWords bs
    let bad := wf (w.getD 0 0) 35 29 != 0 || wf (w.getD 1 0) 0 6 != 0 || wf (w.getD 2 0) 5 59 != 0 ||
      decide (wf (w.getD 2 0) 0 5 > 20) || (w.drop 3).any (· != 0)
    if bad then (s.message d cBAD_RECORD 0 subj 0, cBAD_RECORD)
    else
      (s.modSched d fun q => { q with agep := wf (w.getD 0 0) 0 32, pdelta := wf (w.getD 0 0) 32 3, spbase := w.getD 1 0,
                                      spsz := wf (w.getD 2 0) 0 5 }, cOK)

/-- The address of a die's command queue header, in the block that was entered last. -/
def State.cmdHeader (s : State) (d : Nat) : Nat := ((s.die d).sched.cbase + 0x40) % 2 ^ 48

/-- The address of the slot of a die's next command. -/
def State.cmdSlot (s : State) (d : Nat) : Nat :=
  let q := (s.die d).sched
  (q.cbase + 0x80 + 64 * (q.cidx % 2 ^ q.csz)) % 2 ^ 48

/-- The scheduler turns to the block that GTBASE names (R366). -/
def State.newBlock (s : State) (d : Nat) : State := s.modSched d fun q => { q with cbase := s.block d }

/-- The command queue of a die is entered, or refused with BAD_QUEUE (R366). -/
def State.enterCommands (s : State) (d : Nat) : State :=
  let hdr := s.cmdHeader d
  let refuse (s : State) (c : Nat) : State :=
    (s.modSched d fun q => { q with cen := false }).message d c 0 (BitVec.ofNat 64 hdr) 0
  let header := s.devRead (s.partOfDie d) hdr 64 needR
  let s := s.devScrub (s.partOfDie d) hdr 64
  match header with
  | .error f => refuse (s.tally (128 * d) f) f.code
  | .ok bs =>
    let w := bytesWords bs
    if headerBad w || decide (wf (w.getD 3 0) 0 5 > 7) || w.getD 4 0 != 0 || w.getD 6 0 != 0 then refuse s cBAD_QUEUE
    else s.modSched d fun q => { q with cen := true, csz := wf (w.getD 3 0) 0 5, cst := w.getD 5 0,
                                        cidx := (w.getD 1 0).toNat, cwait := none }

/-! The command queue (R367) -/

/-- The next command of a die, once its tag stands in its slot and no command waits (DEDUCED, log entry 33). -/
def State.nextCommand (s : State) (d : Nat) : Option Packet :=
  let q := (s.die d).sched
  if !q.cen || q.cwait.isSome || decide (s.mcc.toNat < q.cnext) then none
  else
    let at' := s.cmdSlot d
    match s.devWord (s.partOfDie d) at' needR with
    | .error _ => none
    | .ok w =>
      if wf w 32 32 ≠ (q.cidx + 1) % 2 ^ 32 then none
      else match s.devRead (s.partOfDie d) at' 64 needR with
        | .ok bs => some (packetOf (bytesWords bs))
        | .error _ => none

/-- A word of the command queue's header, or of its status ring, written where it can be. -/
def State.cmdWrite (s : State) (d va : Nat) (w : Word) : State :=
  orKeep s (s.devStore (s.partOfDie d) (va % 2 ^ 48) (wordBytes [w]) needW)

/-- A command completes (R284, R367): status word, ERRSEEN, DONE. -/
def State.finishCommand (s : State) (d status : Nat) : State :=
  let q := (s.die d).sched
  let hdr := s.cmdHeader d
  let tag := (q.cidx + 1) % 2 ^ 32
  let s := s.cmdWrite d (offset q.cst + 8 * (q.cidx % 2 ^ q.csz)) (BitVec.ofNat 64 (tag * 2 ^ 32 + status))
  let s := if status = cOK then s
    else match s.devWord (s.partOfDie d) ((hdr + 24) % 2 ^ 48) needR with
      | .ok w => s.cmdWrite d (hdr + 24) (w ||| (1 <<< 10))
      | .error _ => s
  let s := s.cmdWrite d (hdr + 16) (BitVec.ofNat 64 (q.cidx + 1))
  s.modSched d fun q => { q with cidx := q.cidx + 1, cwait := none }

/-- The command in execution of a die still waits for its enqueue. -/
def State.commandWaits (s : State) (d : Nat) : Bool := s.waits (.cmd d) || s.waits (.dec d)

/-- A command is accepted, runs, and completes unless its enqueue waits (R377). -/
def State.runCommand (s : State) (d : Nat) (f : State → State × Nat) : State :=
  let q := (s.die d).sched
  let s := s.devScrub (s.partOfDie d) (s.cmdSlot d) 64
  let s := s.cmdWrite d (s.cmdHeader d + 8) (BitVec.ofNat 64 (q.cidx + 1))
  let (s, status) := f s
  if s.commandWaits d then s.modSched d fun q => { q with cwait := some status } else s.finishCommand d status

/-- A command with an unassigned CMD. -/
def State.rejectCommand (s : State) (d : Nat) : State := s.runCommand d fun s => (s, cBAD_PACKET)

/-- Word 0 bits 23:0 and the operand words from 2 on are zero. -/
def plainCommand (c : Packet) : Bool :=
  wf c.w0 0 24 == 0 && c.w2 == 0 && c.w3 == 0 && c.w4 == 0 && c.w5 == 0 && c.w6 == 0 && c.w7 == 0

/-- The 16-bit words of bytes. -/
def halfWords : List Byte → List Nat
  | a :: b :: t => leNat [a, b] :: halfWords t
  | _ => []

/-- The effect of NODE on die d (DEDUCED, log entry 33). -/
def State.nodeCommand (s : State) (d : Nat) (c : Packet) : State × Nat :=
  let idx := wf c.w5 0 12
  let nsucc := wf c.w5 32 12
  let gid := 4096 * d + idx
  let cont : Cont := ⟨c.w1, c.w2, c.w3, c.w4⟩
  if wf c.w0 0 24 ≠ 0 ∨ wf c.w5 12 4 ≠ 0 ∨ wf c.w5 44 20 ≠ 0 ∨ c.w7 ≠ 0 ∨ (nsucc = 0 ∧ c.w6 ≠ 0) ∨ wf c.w6 0 1 ≠ 0 then
    (s, cBAD_PACKET)
  else if space c.w6 ≠ 0 ∨ owner c.w6 ≠ 0 then (s, cBAD_SPACE)
  else if ((s.die d).sched.tab.find idx).isSome then
    (s.message d cENTRY_BUSY 0 cont.launch (BitVec.ofNat 64 gid), cENTRY_BUSY)
  else match s.devRead (s.partOfDie d) (offset c.w6) (2 * nsucc) needR with
    | .error f => ((s.tally (128 * d) f).message d f.code 0 cont.launch (BitVec.ofNat 64 gid), f.code)
    | .ok bs =>
      let e : NodeEnt := { cont := cont, ctr := wf c.w5 16 16, succ := halfWords bs, st := .waiting }
      let s := (s.devScrub (s.partOfDie d) (offset c.w6) (2 * nsucc)).modSched d fun q => { q with tab := q.tab.set idx e }
      if e.ctr > 0 then (s, cOK) else s.enqueue d cont (some gid) false false (.cmd d)

/-- R367, R369, R370. -/
def execNode (die : Nat) (c : Packet) (s : State) : Out := .next (s.runCommand die fun s => s.nodeCommand die c)

/-- R367: as NEND decrements. -/
def execDec (die : Nat) (c : Packet) (s : State) : Out :=
  .next (s.runCommand die fun s =>
    if !plainCommand c || wf c.w1 14 50 != 0 then (s, cBAD_PACKET) else s.decrement die (wf c.w1 0 14) (.dec die))

/-- A command that waited for an enqueue completes once nothing of it waits (R377). -/
def State.freeCommand (s : State) (d : Nat) : State :=
  match (s.die d).sched.cwait with
  | some st => if s.commandWaits d then s else s.finishCommand d st
  | none => s

/-- A record of an entry leaves every queue and every wait; spilled records return (R376), and a command that waited for it
completes. -/
def State.dropGid (s : State) (gid : Nat) : State :=
  (List.range s.nDies).foldl State.freeCommand
    ((List.range s.nDies).foldl (fun s d => s.dropRecords d (ofGid gid)) s)

/-- REMOVE of an entry (R370). -/
def State.removeEntry (s : State) (d gid : Nat) : State × Nat :=
  let g := gid / 4096
  let ent := if g < s.nDies ∧ s.partOfDie g = s.partOfDie d then (s.die g).sched.tab.find (gid % 4096) else none
  match ent with
  | none => (s, cOK)
  | some e =>
    if e.st = .running then (s.message d cNODE_RUNNING 0 e.cont.launch (BitVec.ofNat 64 gid), cNODE_RUNNING)
    else ((s.dropGid gid).freeEntry (some gid), cOK)

/-- REMOVE of the armed gang that holds a rank (R375) (DEDUCED, log entry 33). -/
def State.removeGang (s : State) (d r : Nat) : State × Nat :=
  match s.gangs.find? fun g => !g.started && g.held.contains r with
  | some g =>
    let s := { s with gangs := s.gangs.filter fun x => x.id != g.id }
    let s := g.held.foldl (fun s m => s.modCtl m fun c => { c with mode := .idle }) s
    let s := g.held.foldl State.fellIdle s
    (s.freeEntry g.record.gid, cOK)
  | none =>
    match s.gangOf r with
    | some g =>
      (s.message d cNODE_RUNNING r g.record.cont.launch (gidWord g.record.gid), cNODE_RUNNING)
    | none => (s, cOK)

/-- R367, R370, R375. -/
def execRemove (die : Nat) (c : Packet) (s : State) : Out :=
  .next (s.runCommand die fun s =>
    let byRank := wf c.w1 63 1 == 1
    let named := if byRank then wf c.w1 9 54 == 0 else wf c.w1 14 50 == 0
    let r := wf c.w1 0 9
    if !plainCommand c || !named then (s, cBAD_PACKET)
    else if byRank then
      if (s.ranksOf (s.partOfDie die)).contains r then s.removeGang die r else (s, cBAD_SPACE)
    else s.removeEntry die (wf c.w1 0 14))

/-- A change of a line by the scheduler reaches its harness 18 cycles later (R378). -/
def State.sendLine (s : State) (r : Nat) (v : Bool) : State :=
  s.modCtl r fun c => { c with lineChg := c.lineChg ++ [(s.mcc.toNat + 18, v)] }

/-- R367, R378. -/
def execPreempt (die : Nat) (c : Packet) (s : State) : Out :=
  .next (s.runCommand die fun s =>
    let lo := wf c.w1 0 9
    let hi := wf c.w1 16 9
    if !plainCommand c || wf c.w1 9 7 != 0 || wf c.w1 25 7 != 0 || wf c.w1 33 31 != 0 then (s, cBAD_PACKET)
    else
      let rs := List.range' lo (hi + 1 - lo)
      if lo > hi || !rs.all (s.ranksOf (s.partOfDie die)).contains then (s, cBAD_SPACE)
      else (rs.foldl (fun s r => s.sendLine r (wf c.w1 32 1 == 1)) s, cOK))

/-- R366. -/
def execParam (die : Nat) (c : Packet) (s : State) : Out :=
  .next (s.runCommand die fun s => if !plainCommand c || c.w1 != 0 then (s, cBAD_PACKET) else s.readParams die)

/-! Checkpoints (R387) -/

/-- The 128 bytes of a checkpoint record. -/
def ckptBytes (st : Nat) (mark : Nat) (pending : BitVec 512) : List Byte :=
  leBytes 8 st ++ leBytes 8 mark ++ List.replicate 48 0 ++ leBytes 64 pending.toNat

/-- R387. -/
def execCkpt (die : Nat) (c : Packet) (s : State) : Out :=
  .next (s.runCommand die fun s =>
    let p := s.partOfDie die
    let x := s.part p
    if !plainCommand c || wf c.w1 0 7 != 0 then (s, cBAD_PACKET)
    else if space c.w1 ≠ 0 ∨ owner c.w1 ≠ 0 then (s, cBAD_SPACE)
    else if x.ckpts.length ≥ 16 then (s.message die cCKPT_LIMIT 0 c.w1 0, cCKPT_LIMIT)
    else
      let now := s.mcc.toNat
      match s.devStore p (offset c.w1) (ckptBytes (if x.dirty = 0 then 1 else 0) now x.dirty) needW with
      | .error f => (s.message die f.code 0 c.w1 0, f.code)
      | .ok s =>
        (s.modPart p fun y => { y with
          dirty := 0
          ckpts := if x.dirty = 0 then y.ckpts else y.ckpts ++ [{ addr := c.w1, pending := x.dirty, mark := now }] }, cOK))

/-- A record after a test of rank r that began at `began`: none where it is no longer provisional, and the words written. -/
def Ckpt.passed (k : Ckpt) (r began : Nat) : Option Ckpt :=
  if k.mark < began ∧ k.pending.getLsbD r then
    let p := setBit k.pending r false
    if p = 0 then none else some { k with pending := p }
  else some k

/-- A harness passed a test: its bit goes in every provisional record, and an empty set confirms the record. -/
def State.ckptPass (s : State) (r began : Nat) : State :=
  let p := s.partOf r
  let ks := (s.part p).ckpts
  let s := ks.foldl (fun s k =>
    if k.mark < began ∧ k.pending.getLsbD r then
      let pend := setBit k.pending r false
      let s := orKeep s (s.devStore p ((offset k.addr + 64) % 2 ^ 48) (leBytes 64 pend.toNat) needW)
      if pend = 0 then orKeep s (s.devStore p (offset k.addr) (leBytes 8 1) needW) else s
    else s) s
  s.modPart p fun x => { x with ckpts := ks.filterMap fun k => k.passed r began }

/-- A pending harness failed: the records that wait for it are VOID. -/
def State.ckptFail (s : State) (r : Nat) : State :=
  let p := s.partOf r
  let ks := (s.part p).ckpts
  let s := s.modPart p fun x => { x with ckpts := ks.filter fun k => !k.pending.getLsbD r }
  (ks.filter fun k => k.pending.getLsbD r).foldl (fun s k =>
    (orKeep s (s.devStore p (offset k.addr) (leBytes 8 2) needW)).message (dieOf r) cCKPT_VOID r k.addr 0) s

/-! Fences and self-test (R385, R386; 17 R420, R423) -/

/-- A harness that runs no node, is not held and is under no test. -/
def Ctl.bare (c : Ctl) : Bool := c.mode == .idle && c.node.isNone

/-- R386: fence or return. A returned harness is eligible from the next cycle. A member that an armed gang holds stays held: the
gang starts, even where its start is fixed already, and the member is fenced when it falls idle; 01 R37 speaks only of a member
fenced before the last is held (DESIGN CHOICE, log entry 61). -/
def execFenceCmd (die : Nat) (c : Packet) (s : State) : Out :=
  .next (s.runCommand die fun s =>
    let r := wf c.w1 0 9
    if !plainCommand c || wf c.w1 9 23 != 0 || wf c.w1 33 31 != 0 then (s, cBAD_PACKET)
    else if !(s.ranksOf (s.partOfDie die)).contains r then (s, cBAD_SPACE)
    else if wf c.w1 32 1 = 1 then
      if (s.har r).ctl.bare then (s.modCtl r fun c => { c with fencing := false, fenced := true }, cOK)
      else ((s.modCtl r fun c => { c with fencing := true }).sendLine r true, cOK)
    else if (s.har r).ctl.retired then (s, cBAD_SPACE)
    else
      (s.modCtl r fun c => { c with fencing := false, fenced := false, back := true }, cOK))

/-- The next harness of a die to drain: harness numbers ascending from `next`, fenced and retired ones passed over. -/
def State.drainNext (s : State) (d : Nat) : Option Nat :=
  ((List.range 128).map fun i => ((s.die d).sched.next + i) % 128).find? fun n =>
    let c := (s.har (128 * d + n)).ctl
    !c.fenced && !c.retired

/-- R385: die a's period ends with the next cycle: its next harness is drained, unless a drain is in progress. -/
def execSelftestDrain (s : State) : Out :=
  let d := s.ev.a
  let q := (s.die d).sched
  if s.mcc.toNat + 1 < q.due then .next s
  else
    let s := s.modSched d fun q => { q with due := q.due + 47000000 }
    match q.drain, s.drainNext d with
    | none, some n =>
      let r := 128 * d + n
      let s := s.modSched d fun q => { q with drain := some r, next := (n + 1) % 128 }
      let bare := (s.har r).ctl.bare
      let s := s.modCtl r fun c => { c with draining := true, drainLine := !bare && !c.line }
      .next (if bare then s.fellIdle r else s.sendLine r true)
    | _, _ => .next s

/-- The harness of a test returns to service, its line lowered if the drain raised it, or stays out of service. -/
def State.endTest (s : State) (r : Nat) (fence : Bool) : State :=
  let lower := (s.har r).ctl.drainLine && !fence
  let s := s.modSched (dieOf r) fun q => { q with drain := none }
  let s := s.modCtl r fun c =>
    { c with mode := .idle, draining := false, fenced := c.fenced || fence, drainLine := false }
  let s := if lower then s.sendLine r false else s
  if (s.har r).ctl.fencing then s.modCtl r fun c => { c with fencing := false, fenced := true } else s

/-- A failed cell is logged for the next boot (17 R420). -/
def State.logScan (s : State) (r u : Nat) : State :=
  let h := s.har r
  let spare := ((List.range 17).find? fun c => !(List.range 16).any fun n => h.physCell n == c).getD 16
  if 16 < u then s else { s with scanLog := s.scanLog ++ [(r, if u = 16 then spare else h.physCell u)] }

/-- R385, R423: the test of rank a ends with the result in the event. A failing spare cell alone leaves the harness in
service (DEDUCED, log entry 52). -/
def execScanTest (s : State) : Out :=
  let r := s.ev.a
  match (s.har r).ctl.mode with
  | .test began till =>
    if s.mcc.toNat + 1 < till then .next s
    else match s.ev.scan with
      | .pass => .next ((s.ckptPass r began).endTest r false)
      | .fail u =>
        let s := (s.message (dieOf r) cSELFTEST_FAIL r 0 (BitVec.ofNat 64 u)).logScan r u
        .next ((s.ckptFail r).endTest r (u != 0x10))
  | _ => .next s

/-! Waiting enqueues, pre-emption lines -/

/-- The first waiting record of a die for which there is room. -/
def State.lateReady (s : State) (d : Nat) : Option (Ready × Waiter) := (s.die d).sched.late.find? fun x => s.room d x.1.cont.prio

/-- R377: a waiting record of die a enters its queue, with the u and sq of this cycle (R372); a command that waited for it
completes, and a SPAWN leaves its store queue. -/
def execEnqueueResume (s : State) : Out :=
  let d := s.ev.a
  match s.lateReady d with
  | none => .next s
  | some x =>
    let now := s.mcc.toNat
    let n := (s.die d).sched.sq
    let s := s.modSched d fun q => { q with late := eraseOne x q.late, sq := n + 1 }
    let s := s.addReady d { x.1 with u := now, sq := sqOf now n x.1.gid (x.1.saved || x.1.replay) x.2 }
    match x.2 with
    | .cmd c => .next (s.freeCommand c)
    | .dec c => .next (s.freeCommand c)
    | .spawn r => .next (if s.waits (.spawn r) then s else s.modSeq r Seq.popStore)
    | _ => .next s

/-- R378: a change of the line of rank a arrives; a line raised at an idle harness has no effect. -/
def execPreemptLineChange (s : State) : Out :=
  let r := s.ev.a
  let due (x : Nat × Bool) : Bool := decide (x.1 ≤ s.mcc.toNat + 1)
  match (s.har r).ctl.lineChg.find? due with
  | none => .next s
  | some x =>
    .next (s.modCtl r fun c =>
      { c with lineChg := dropFirst due c.lineChg, line := x.2 && (c.node.isSome || c.line) })

/-- The line of a harness as its scheduler last set it. -/
def Ctl.lineSet (c : Ctl) : Bool := (c.lineChg.getLast?.map (·.2)).getD c.line

/-- The harness whose line a ready record raises (R379): none while an eligible harness is idle, or a line raised for the
record stays high (DEDUCED, log entry 34). -/
def State.preemptFor (s : State) (d : Nat) (x : Ready) : Option Nat :=
  let q := (s.die d).sched
  let rs := (List.range' (128 * d) 128).filter (s.eligible (s.partOfDie d) x.cont x.launch)
  if launchGang x.launch && !s.gangFree (s.partOfDie d) x.launch then none
  else if rs.any (fun r => (s.har r).ctl.free) || q.auto.any (fun a => a.1 == x.sq && (s.har a.2).ctl.lineSet) then none
  else
    let low := rs.filterMap fun r =>
      let c := (s.har r).ctl
      match c.node with
      | some n => if c.lineSet then none else some (n.cont.prio, r)
      | none => none
    match low.foldl (fun (best : Option (Nat × Nat)) y => match best with
        | none => some y
        | some b => if y.1 < b.1 ∨ (y.1 = b.1 ∧ b.2 < y.2) then some y else some b) none with
    | some (prio, r) => if effPrio q.agep s.mcc.toNat x ≥ prio + q.pdelta then some r else none
    | none => none

/-- The record and harness of an automatic pre-emption of a die. -/
def State.autoDue (s : State) (d : Nat) : Option (Nat × Nat) :=
  let q := (s.die d).sched
  if q.pdelta = 0 then none
  else q.ready.findSome? fun x => (s.preemptFor d x).map fun r => (x.sq, r)

/-- R379: die a raises a line. -/
def execAutoPreempt (s : State) : Out :=
  let d := s.ev.a
  match s.autoDue d with
  | none => .next s
  | some (sq, r) =>
    .next ((s.modSched d fun q =>
      { q with auto := (sq, r) :: q.auto.filter fun a => (s.har a.2).ctl.lineSet }).sendLine r true)

/-! The group table (14 R356-R358, R454) -/

/-- Why a group-table entry is refused: the GTSTAT code, with the read's own code for code 4. -/
structure GroupErr where
  code : Nat
  read : Nat := 0
deriving DecidableEq, Repr

/-- One entry of the table, given how many valid entries before it name each rank. -/
def State.groupEntry (s : State) (p i : Nat) (seen : List (BitVec 512)) : Except GroupErr (Option Group) :=
  match s.devRead p (((s.part p).gtbase.toNat + 128 * i) % 2 ^ 48) 128 needR with
  | .error f => .error ⟨4, f.code⟩
  | .ok bs =>
    let m : BitVec 512 := BitVec.ofNat 512 (leNat (bs.take 64))
    let w : Word := BitVec.ofNat 64 (leNat ((bs.drop 64).take 8))
    let ranks := (List.range 512).filter fun r => m.getLsbD r
    let dies := (List.range 4).filter fun d => ranks.any fun r => dieOf r == d
    if wf w 17 46 ≠ 0 ∨ (bs.drop 72).any (· != 0) then .error ⟨1, 0⟩
    else if wf w 63 1 = 0 then .ok none
    else if wf w 0 16 ≠ ranks.length then .error ⟨1, 0⟩
    else if (wf w 16 1 == 1) != decide (dies.length > 1) then .error ⟨1, 0⟩
    else if !ranks.all (s.ranksOf p).contains then .error ⟨2, 0⟩
    else if ranks.any fun r => decide ((seen.filter fun x => x.getLsbD r).length ≥ 4) then .error ⟨3, 0⟩
    else .ok (some { members := m, span := wf w 16 1 == 1 })

/-- The entries from `i` on: the table, or the first failing entry. -/
def State.groupWalk (s : State) (p : Nat) : Nat → Nat → List (BitVec 512) → Table Group →
    Except (Nat × GroupErr) (Table Group)
  | 0, _, _, acc => .ok acc
  | fuel + 1, i, seen, acc =>
    match s.groupEntry p i seen with
    | .error e => .error (i, e)
    | .ok none => State.groupWalk s p fuel (i + 1) seen acc
    | .ok (some g) => State.groupWalk s p fuel (i + 1) (g.members :: seen) (acc ++ [(i, g)])

/-- The granules of the first n entries of a table are checked as they are read (17 R407). -/
def State.tableScrub (s : State) (p n : Nat) : State := s.devScrub p (s.part p).gtbase.toNat (128 * n)

/-- A consumption is counted (17 R411). -/
def State.countIf (s : State) (d code : Nat) : State := if code = cPOISON ∨ code = cMEM_ERROR then s.count d 4 else s

/-- The loader status of a GTSTAT code (14 R357, 16 R405). -/
def gtLoad (code : Nat) : Nat :=
  if code = 0 then cOK
  else if code = 1 then cBAD_GROUP else if code = 2 then cGROUP_RANGE else if code = 3 then cLOAD_GROUP_LIMIT else cLOAD_GROUP_READ

/-- A loader that waited for the activation reports its result (18 R439). -/
def State.loadReport (s : State) (p code ix : Nat) : State :=
  if s.loadWait.contains p then
    { s with loadWait := eraseOne p s.loadWait, hostOut := s.hostOut ++ [.loader (ix % 2 ^ 16 * 2 ^ 16 + gtLoad code)] }
  else s

/-- R357, R366: the pending activation of partition a, in a cycle in which it is idle. -/
def execGroupTableActivation (s : State) : Out :=
  let p := s.ev.a
  if !(s.part p).gtPend || !s.quiet (s.ranksOf p) then .next s
  else match s.groupWalk p 256 0 [] [] with
    | .error (i, e) =>
      let s := (s.tableScrub p (i + 1)).loadReport p e.code i
      let s := s.modPart p fun x =>
        { x with gtPend := false, gtCode := BitVec.ofNat 6 e.code, gtEntry := BitVec.ofNat 8 i }
      let d := (s.diesOf p).head?.getD 0
      .next (if e.code = 4 then ((s.countIf d e.read).message d e.read 0 (s.part p).gtbase (BitVec.ofNat 64 i)) else s)
    | .ok gs =>
      let s := (s.tableScrub p 256).loadReport p 0 0
      let s := s.modPart p fun x => { x with gtPend := false, gtCode := 0, gtEntry := 0, gtAct := true, groups := gs }
      .next ((s.diesOf p).foldl (fun s d => ((s.newBlock d).readParams d).1.enterCommands d) s)

end Sys2Proof.Machine
end

