-- ==== Sys2Proof/Machine/Loader.lean ====
section
/-!
DEFINITION. Fingivo containers and the loader (18 R435-R442). The loader is the supervisor's; what the spec leaves to it
(where it places things) comes with the event.
-/

namespace Sys2Proof.Machine

/-- A refusal: the code and the index of the failing section, note or entry (R441). -/
abbrev LoadErr := Nat × Nat

def loadDemand (ok : Bool) (code : Nat) (ix : Nat := 0) : Except LoadErr Unit := if ok then .ok () else .error (code, ix)

/-- A section entry (R436). -/
structure Section where
  type : Nat
  mu : Bool
  off : Nat
  len : Nat
  align : Nat
  bytes : List Byte
deriving DecidableEq, Repr

/-- The types that the loader understands. -/
def knownSection (t : Nat) : Bool :=
  [0x0001, 0x0002, 0x0003, 0x0004, 0x0005, 0x0010, 0x0011, 0x0012, 0x0013, 0x0020, 0x00FF].contains t

/-- The entry size that a section's content comes in. -/
def sectionUnit (t : Nat) : Nat :=
  if t = 0x0010 ∨ t = 0x0012 then 64 else if t = 0x0011 then 72 else if t = 0x0013 then 16 else 1

def sectionAt (c : List Byte) (i : Nat) : Section :=
  let o := numAt c 32 8 + 32 * i
  let off := numAt c (o + 8) 8
  let len := numAt c (o + 16) 8
  { type := numAt c o 2, mu := numAt c (o + 2) 2 % 2 == 1, off := off, len := len, align := numAt c (o + 24) 1,
    bytes := (c.drop off).take len }

/-- The zero fields and bounds of a section entry. -/
def sectionLayoutOk (c : List Byte) (i : Nat) : Bool :=
  let o := numAt c 32 8 + 32 * i
  let x := sectionAt c i
  decide (numAt c (o + 2) 2 ≤ 1) && numAt c (o + 4) 4 == 0 && numAt c (o + 25) 7 == 0 && decide (x.align ≤ 16) &&
    decide (x.off + x.len ≤ c.length)

/-! Checks 1 to 6 (R441) -/

/-- Check 1. -/
def containerOk (c : List Byte) : Bool :=
  let n := numAt c 8 2
  let so := numAt c 32 8
  let sigs := (List.range n).filter fun i => numAt c (so + 32 * i) 2 == 0x00FF
  decide (64 ≤ c.length) && numAt c 0 4 == 0x4F564746 && numAt c 4 2 == 1 && numAt c 6 2 == 0 && numAt c 13 3 == 0 &&
  numAt c 28 4 == 0 && numAt c 56 8 == 0 && decide (numAt c 12 1 ≤ 7) && so % 8 == 0 && numAt c 40 8 % 8 == 0 &&
  numAt c 48 8 == c.length && decide (so + 32 * n ≤ c.length) &&
  match sigs with
  | [i] => (sectionAt c i).len == sigLen && (sectionAt c i).off + sigLen == c.length
  | _ => false

/-- Check 5, from section i on. -/
def checkSections (c : List Byte) : Nat → Nat → List Nat → Except LoadErr Unit
  | 0, _, _ => .ok ()
  | fuel + 1, i, seen => do
    let x := sectionAt c i
    loadDemand (sectionLayoutOk c i) cLOAD_FORMAT i
    loadDemand (knownSection x.type || !x.mu) cLOAD_UNKNOWN_SECTION i
    loadDemand (!(knownSection x.type && x.type != 0x0020 && seen.contains x.type)) cLOAD_FORMAT i
    loadDemand (!knownSection x.type || x.len % sectionUnit x.type == 0) cLOAD_FORMAT i
    checkSections c fuel (i + 1) (x.type :: seen)

/-- MREV (03 R97). -/
def mrev : Nat := 1

/-- Check 6 (R437), from note i at an offset. -/
def checkNotes (c : List Byte) : Nat → Nat → Nat → Except LoadErr Unit
  | 0, _, _ => .ok ()
  | fuel + 1, i, o => do
    let ty := numAt c o 2
    let fl := numAt c (o + 2) 2
    let len := numAt c (o + 4) 4
    let pad := (len + 7) / 8 * 8
    loadDemand (decide (o + 8 + pad ≤ c.length) && decide (fl ≤ 1) && numAt c (o + 8 + len) (pad - len) == 0) cLOAD_FORMAT i
    if ty = 0x0001 then
      loadDemand (len == 2) cLOAD_FORMAT i
      loadDemand (decide (numAt c (o + 8) 2 ≤ mrev)) cLOAD_CAPABILITY i
    else loadDemand (ty == 0x0002 || fl == 0) cLOAD_UNKNOWN_SECTION i
    checkNotes c fuel (i + 1) (o + 8 + pad)

/-- Bits 1:0 of CAP: lf64, ebc (00 R4): both on the HL9-M4, neither on the HL9-M2. -/
def State.capBits (s : State) : Nat := s.cap.toNat % 4

/-! Placement -/

/-- The loader at work: the state with what it has placed, the next free address of space 0 and of the tower, the patched
sections and the addresses of those placed. -/
structure Load where
  s : State
  hbm : Nat
  tower : Nat
  at' : Table Nat := []
  bytes : Table (List Byte) := []
  /-- the container's groups, where it has any -/
  groups : Option (Table Group) := none
  bases : Table Word := []

/-- The next multiple of 2^a. -/
def alignUp (x a : Nat) : Nat := (x + 2 ^ a - 1) / 2 ^ a * 2 ^ a

/-- A write of the loader to space 0; memory that the partition does not offer refuses the load. Code goes to pages that may be
executed (R436). -/
def Load.put (l : Load) (p va : Nat) (bs : List Byte) (ix : Nat) (code : Bool := false) : Except LoadErr Load :=
  match l.s.devStore p va bs { w := true, x := code } with
  | .ok s => if va + bs.length ≤ 2 ^ 48 then .ok { l with s := s } else .error (cLOAD_CAPABILITY, ix)
  | .error _ => .error (cLOAD_CAPABILITY, ix)

/-- Code, data and launch sections get their addresses. -/
def Load.place (l : Load) (xs : List (Section × Nat)) : Load :=
  xs.foldl (fun l x =>
    if [1, 2, 3, 4, 5, 0x12].contains x.1.type then
      let a := alignUp l.hbm (max x.1.align (if x.1.type = 0x12 then 6 else 0))
      { l with hbm := a + x.1.len, at' := l.at'.set x.1.type a, bytes := l.bytes.set x.2 x.1.bytes }
    else { l with bytes := l.bytes.set x.2 x.1.bytes }) l

/-! Groups (R439) -/

/-- The table entry of a group record. -/
def groupBytes (rec : List Byte) : List Byte :=
  let m := numAt rec 8 64
  let ranks := (List.range 512).filter fun r => field m r 1 == 1
  let dies := (List.range 4).filter fun d => ranks.any fun r => dieOf r == d
  (rec.drop 8).take 64 ++ leBytes 8 (2 ^ 63 + b2n (decide (1 < dies.length)) * 2 ^ 16 + ranks.length) ++ leBytes 56 0

/-- Lists of n bytes. -/
def recordsOf (n : Nat) : Nat → List Byte → List (List Byte)
  | 0, _ => []
  | fuel + 1, bs => if bs.isEmpty then [] else bs.take n :: recordsOf n fuel (bs.drop n)

/-- Check 7: the table of R356 where GTBASE stands, and the write of GTBASE that starts its activation (R439). -/
def Load.takeGroups (l : Load) (p : Nat) (x : Section) : Except LoadErr Load := do
  let recs := recordsOf 72 x.len x.bytes
  let ids := recs.map fun r => numAt r 0 1
  recs.zipIdx.forM fun r =>
    loadDemand (numAt r.1 1 7 == 0 && !(ids.take r.2).contains (numAt r.1 0 1)) cLOAD_FORMAT r.2
  let table := (List.range 256).flatMap fun (i : Nat) => match recs.find? fun r => numAt r 0 1 == i with
    | some r => groupBytes r
    | none => leBytes 128 0
  let gt := (l.s.part p).gtbase.toNat
  let l ← l.put p gt table 0
  match l.s.groupWalk p 256 0 [] [] with
  | .error (i, e) => .error (gtLoad e.code, i)
  | .ok gs => return { l with s := l.s.gtbaseWrite p (BitVec.ofNat 64 gt), groups := some gs }

/-! Resources (R438) -/

/-- Whether every entry of the partition's table is clear. -/
def State.tableClear (s : State) (p base : Nat) : Bool :=
  (List.range (s.part p).rtlim.toNat).all fun i =>
    match s.devWord p ((base + 64 * i + 32) % 2 ^ 48) needR with
    | .ok w => w == 0
    | .error _ => false

/-- The generation of an index: one above that of the entry that stands there, whoever wrote it (02 R62); of a cleared one, one
above the one that the loader last found or left there, and 0 where there is none since the table was last cleared
(DESIGN CHOICE, log entry 47). -/
def State.nextGen (s : State) (p table i : Nat) : Nat :=
  let kept := match s.loadGen.find (p * 2 ^ 20 + i) with
    | none => 0
    | some g => (g.1 + 1) % 4096
  match s.devWord p ((table + 64 * i + 32) % 2 ^ 48) needR with
  | .ok w => if w = 0 then kept else (wf w 0 12 + 1) % 4096
  | .error _ => kept

/-- One resource: its span allocated and filled, its image copied, its entry written. The image is copied as the container holds
it: a `.word` of it that the loader also relocates is relocated in the data section alone, as R438 and R440 give no order of the
two (DESIGN CHOICE, log entry 47). A BASE of space 1 names the tower of the loading rank. -/
def Load.resource (l : Load) (p rb table rank : Nat) (data : List Byte) (k : Nat) (ws : List Word) : Except LoadErr Load := do
  let w (i : Nat) : Word := ws.getD i 0
  let f := recOf (w 0) (w 1) (w 2) (w 3)
  let gen := l.s.nextGen p table (rb + k)
  let image := if w 5 = BitVec.allOnes 64 then [] else (data.drop (w 5).toNat).take (w 6).toNat
  let size := f.spanSize
  let lo : Nat := match f.span with
    | some (lo, _) => (-lo).toNat
    | none => 0
  loadDemand (f.ok (wf (w 3) 62 2)) cLOAD_FORMAT k
  loadDemand (wf (w 4) 16 1 == 1 && wf (w 4) 0 12 == 0 && wf (w 4) 34 30 == 0 && wf (w 4) 21 3 == 0 && wf (w 4) 12 4 == 0) cLOAD_FORMAT k
  loadDemand (decide ((w 7).toNat ≤ 1)) cLOAD_FORMAT k
  loadDemand (w 5 == BitVec.allOnes 64 || (decide ((w 6).toNat ≤ size) && decide ((w 5).toNat + (w 6).toNat ≤ data.length))) cLOAD_FORMAT k
  loadDemand (decide (rb + k < (l.s.part p).rtlim.toNat)) cLOAD_CAPABILITY k
  let tower := w 7 = 1
  let alloc := offset f.base = 0
  let start := if tower then alignUp l.tower 6 else alignUp l.hbm 6
  let base : Word := if alloc then (if tower then mkPtr 2 rank (start + lo) else mkPtr 0 0 (start + lo)) else f.base
  let first := offset base - lo
  let bytes := image ++ List.replicate (size - image.length) (0 : Byte)
  let l := if !alloc then l else if tower then { l with tower := start + size } else { l with hbm := start + size }
  let l ← if size = 0 ∨ (!alloc ∧ image.isEmpty) then pure l
    else if space base = 2 then do
      loadDemand (decide (first + size ≤ 2 ^ 26) && (l.s.ranksOf p).contains (owner base) &&
        !(l.s.har (owner base)).ctl.retired) cLOAD_CAPABILITY k
      pure { l with s := l.s.write (towerKey (owner base) first) (if alloc then bytes else image) }
    else if space base = 0 then l.put p first (if alloc then bytes else image) k
    else do
      loadDemand ((l.s.spaceCheck rank .eng base accWrite).isOk && (space base != 4 || l.s.linkUp (owner base))) cLOAD_CAPABILITY k
      pure { l with s := l.s.write ((if space base = 4 then l.s.peerKey base else rawKey rank base) - lo) image }
  let entry := wordBytes [base, w 1, w 2, w 3, BitVec.ofNat 64 ((w 4).toNat / 2 ^ 12 * 2 ^ 12 + gen), 0, 0, 0]
  let l ← l.put p ((table + 64 * (rb + k)) % 2 ^ 48) entry k
  return { l with s := { l.s with loadGen := l.s.loadGen.set (p * 2 ^ 20 + rb + k) (gen, 0) }, bases := l.bases.set k base }

/-- Check 8. -/
def Load.resources (l : Load) (p rb table rank : Nat) (data : List Byte) (x : Section) : Except LoadErr Load :=
  let l := if l.s.tableClear p table then
      { l with s := { l.s with loadGen := l.s.loadGen.filter fun kv => kv.1 / 2 ^ 20 != p } } else l
  (recordsOf 64 x.len x.bytes).zipIdx.foldlM (fun l r => l.resource p rb table rank data r.2 (bytesWords r.1)) l

/-! Launch records and relocations (R440, R441 check 9) -/

/-- A launch record with its section offsets made addresses and its table base set (log entry 47, DESIGN CHOICE). -/
def launchFix (l : Load) (table : Nat) (ws : List Word) : List Word :=
  let fix (i ty : Nat) : Word := mkPtr 0 0 (l.at'.getD ty 0) + ws.getD i 0
  [fix 0 1, fix 1 2, fix 2 3, fix 3 4, mkPtr 0 0 table, ws.getD 5 0, ws.getD 6 0, ws.getD 7 0]

/-- n bytes put into a section at an offset: none where they do not fit. -/
def patch (bs : List Byte) (off : Nat) (new : List Byte) : Option (List Byte) :=
  if off + new.length ≤ bs.length then some (splice bs off new) else none

/-- One relocation: the patched sections, or none where R440 refuses it. -/
def relocate (l : Load) (xs : List (Section × Nat)) (rb p : Nat) (w0 w1 : Word) : Option Load := do
  let kind := wf w0 56 8
  let ix := wf w0 48 8
  let off := wf w0 0 48
  let target ← l.bytes.find ix
  let sec (ty : Nat) : Option Section := (xs.find? fun x => x.1.type == ty).map (·.1)
  let value : Nat ← if 3 ≤ kind ∧ kind ≤ 5 then do
      let ty := if wf w1 63 1 = 1 then 0x12 else 1
      let src ← sec ty
      if wf w1 0 63 ≤ src.len then some (l.at'.getD ty 0 + wf w1 0 63) else none
    else if 6 ≤ kind ∧ kind ≤ 8 then do
      let res ← sec 0x10
      if 64 * w1.toNat < res.len then
        some ((rb + w1.toNat) * 2 ^ 12 + ((l.s.loadGen.getD (p * 2 ^ 20 + rb + w1.toNat) (0, 0)).1))
      else none
    else none
  let old := numAt target off 4
  let width := if kind = 6 then 32 else 20
  let shift := if kind = 4 ∨ kind = 8 then 20 else if kind = 5 then 40 else 0
  let fits : Bool := decide (value < 2 ^ (if kind < 6 then 60 else 32))
  if old % 2 ^ width = 0 ∧ fits ∧ off + 4 ≤ target.length then do
    let bs ← patch target off (leBytes 4 (old + value / 2 ^ shift % 2 ^ width))
    some { l with bytes := l.bytes.set ix bs }
  else none

/-- A harness of the partition meets the group condition of a launch record (01 R31), under the container's groups where it has
any. -/
def Load.eligible (l : Load) (p : Nat) (x : Packet) : Bool :=
  let s := match l.groups with
    | some gs => l.s.modPart p fun q => { q with groups := gs }
    | none => l.s
  (s.ranksOf p).any (s.inGroups p x)

/-- Check 9, and the placement of what it has patched. -/
def Load.finish (l : Load) (p rb table : Nat) (xs : List (Section × Nat)) : Except LoadErr Load := do
  let launch := xs.filter fun x => x.1.type == 0x12
  let recs := launch.flatMap fun x => recordsOf 64 x.1.len x.1.bytes
  recs.zipIdx.forM fun r =>
    let ws := bytesWords r.1
    loadDemand (!launchBad (packetOf ws) && (((launchFix l table ws).take 4).all fun w => space w == 0) &&
      l.eligible p (packetOf ws)) cLOAD_FORMAT r.2
  let rels := xs.flatMap fun x => if x.1.type = 0x13 then recordsOf 16 x.1.len x.1.bytes else []
  let l ← rels.zipIdx.foldlM (fun l r =>
    let ws := bytesWords r.1
    match relocate l xs rb p (ws.getD 0 0) (ws.getD 1 0) with
    | some l => .ok l
    | none => .error (cLOAD_FORMAT, r.2)) l
  xs.foldlM (fun l x =>
    match l.at'.find x.1.type with
    | none => .ok l
    | some a =>
      let bs := l.bytes.getD x.2 []
      let bs := if x.1.type = 0x12 then
          (recordsOf 64 bs.length bs).flatMap fun r => wordBytes (launchFix l table (bytesWords r))
        else bs
      l.put p a bs x.2 (decide (x.1.type ≤ 4))) l

/-- A container key stands in the signed bytes of the image under which the partition's supervisor runs (R441). -/
def State.keyKnown (s : State) (p : Nat) (k : List Byte) : Bool :=
  let x := s.supSigned.getD p []
  k.length == 64 && (List.range x.length).any fun i => (x.drop i).take 64 == k

/-- The load of a container: the state it leaves, or the refusal (DESIGN CHOICE, log entry 47). -/
def State.loadContainer (s : State) (p rb hbm table tower : Nat) (keys : List (List Byte)) (c : List Byte) :
    Except LoadErr State := do
  loadDemand (containerOk c) cLOAD_FORMAT
  loadDemand (match keys[numAt c 12 1]? with
    | some k => s.keyKnown p k && Config.slhDsaVerify k (c.take (c.length - sigLen)) (c.drop (c.length - sigLen))
    | none => false) cLOAD_BAD_SIGNATURE
  loadDemand (decide (s.fuses ≤ numAt c 24 4)) cLOAD_ROLLBACK
  let mask := numAt c 16 8
  loadDemand (decide (mask < 4) && mask &&& s.capBits == mask) cLOAD_CAPABILITY
  checkSections c (numAt c 8 2) 0 []
  checkNotes c (numAt c 10 2) 0 (numAt c 40 8)
  let xs := ((List.range (numAt c 8 2)).map fun i => (sectionAt c i, i)).filter fun x => knownSection x.1.type
  let one (ty : Nat) : Option Section := (xs.find? fun x => x.1.type == ty).map (·.1)
  let l := ({ s := s, hbm := hbm, tower := tower } : Load).place xs
  let l ← match one 0x11 with
    | some x => l.takeGroups p x
    | none => pure l
  let data := ((one 0x05).map (·.bytes)).getD []
  let rank := (s.part p).suprank.toNat
  let l ← match one 0x10 with
    | some x => l.resources p rb table rank data x
    | none => pure l
  let l ← l.finish p rb table xs
  return l.s

/-- R441: the loader of partition a loads the container `bytes` under the keys of its supervisor: b is the first resource
index, c the first free address of space 0, d the table base, v the first free offset of the tower of SUPRANK. A refused load
leaves nothing but its status. With groups the status comes once GTSTAT.PEND clears (R439). -/
def execContainerLoad (s : State) : Out :=
  let e := s.ev
  match s.loadContainer e.a e.b e.c e.d e.v.toNat e.keys e.bytes with
  | .ok t =>
    let groups := (List.range (numAt e.bytes 8 2)).any fun i => (sectionAt e.bytes i).type == 0x11
    .next (if groups then { t with loadWait := t.loadWait ++ [e.a] } else t.reply (.loader cOK))
  | .error (code, ix) => .next (s.reply (.loader (ix % 2 ^ 16 * 2 ^ 16 + code)))

end Sys2Proof.Machine
end

