-- ==== Sys2Proof/Machine/VMove.lean ====
section
/-!
DEFINITION. V instructions that move data and generate indices, and the engine's scalars (07 R230-R238).
-/

namespace Sys2Proof.Machine

open Sys2Proof.Num

/-! Partition and index generation -/

/-- The indices of keys 0 to k - 1, grouped by ascending key, and the counts (R230). -/
def partition (keys : List Int) (k : Nat) : List Nat × List Nat :=
  let groups := (List.range k).map fun (g : Nat) => (keys.zipIdx.filter fun x => x.1 == (g : Int)).map (·.2)
  (groups.flatten, groups.map (·.length))

/-- R230 (DEDUCED, log entry 26). Where VD and VC name one register the counts are written over the indices (DESIGN CHOICE, log
entry 64). -/
def execVpart (w : VWord) (s : State) : Out :=
  let vl := (s.har s.cur).vl.toNat
  let k := w.ext.toNat % 32 + 1
  let bad := vBad w { types := [5, 8], b := .z, c := .v, cDest := true } s.lf64 || w.ext.getLsbD 6
  let fills := if w.fd then [.v w.vd.toNat, .v w.vc.toNat] else []
  let form : VForm := { bad := bad, areas := [4 * vl, 4 * k], size := 4, lat := 12, fills := fills }
  .next (s.vIssue w form fun h _ _ => if vl = 0 then [] else
    let t : IFmt := if w.ty = 5 then i32 else n32
    let keysOf (cell : Nat) := (h.velems cell w.va.toNat 4 vl).map t.ofCode
    let pad (xs : List Nat) (n : Nat) := xs ++ List.replicate (n - xs.length) 0xFFFFFFFF
    let put (cell : Nat) (idx counts : List Nat) : List Eff :=
      [.v cell w.vd.toNat 0 (elemBytes 4 idx), .v cell w.vc.toNat 0 (elemBytes 4 counts)]
    if w.ext.getLsbD 5 then
      let (idx, counts) := partition (cells.flatMap keysOf) k
      let all := pad idx (16 * vl)
      cells.flatMap fun cell => put cell ((all.drop (cell * vl)).take vl) counts
    else cells.flatMap fun cell =>
      let (idx, counts) := partition (keysOf cell) k
      put cell (pad idx vl) counts)

/-- R231. -/
def execViota (w : VWord) (s : State) : Out :=
  let vl := (s.har s.cur).vl.toNat
  let size := (vT w).size
  let form : VForm :=
    { bad := vBad w { types := tyI, a := .z, b := .c } s.lf64 || decide (1 < w.ext.toNat), areas := [vl * size]
      size := size, lat := 2, fills := vFill w }
  .next (s.vIssue w form fun h _ _ => cells.flatMap fun cell =>
    let base := (h.vc.getD w.vb.toNat 0).toNat + w.ext.toNat * cell * vl
    cellEffs w size cell ((List.range vl).map fun j => ((base + j) % 2 ^ (8 * size), 0)))

/-! Permutation, gather, scatter -/

/-- The element size of indices (R232). -/
def idxSize (w : VWord) : Nat := max 2 (vT w).size

def permUse : VUse := { types := tyA }

/-- The form of VPERM, VGATH and VSCAT. -/
def permForm (s : State) (w : VWord) : VForm :=
  let vl := (s.har s.cur).vl.toNat
  { bad := vBad w permUse s.lf64 || w.ext != 0, areas := [vl * (vT w).size, vl * idxSize w], size := idxSize w, lat := 4
    fills := vFill w }

/-- R232. -/
def execVperm (w : VWord) (s : State) : Out :=
  .next (s.vIssue w (permForm s w) fun h _ _ => cells.flatMap fun cell =>
    let vl := h.vl.toNat
    let size := (vT w).size
    let src := (h.velems cell w.va.toNat size vl).toArray
    cellEffs w size cell ((h.velems cell w.vb.toNat (idxSize w) vl).map fun i => (src.getD i 0, 0)))

/-- R233. -/
def execVgath (w : VWord) (s : State) : Out :=
  .next (s.vIssue w (permForm s w) fun h _ _ =>
    let vl := h.vl.toNat
    let size := (vT w).size
    let src := (cells.flatMap fun cell => h.velems cell w.va.toNat size vl).toArray
    cells.flatMap fun cell =>
      cellEffs w size cell ((h.velems cell w.vb.toNat (idxSize w) vl).map fun i => (src.getD i 0, 0)))

/-- R234: sources in ascending (n, j), so that the highest prevails. -/
def execVscat (w : VWord) (s : State) : Out :=
  .next (s.vIssue w (permForm s w) fun h _ _ =>
    let vl := h.vl.toNat
    let size := (vT w).size
    cells.flatMap fun cell =>
      ((h.velems cell w.va.toNat size vl).zip (h.velems cell w.vb.toNat (idxSize w) vl)).filterMap fun xi =>
        if xi.2 < 16 * vl then some (.v (xi.2 / vl) w.vd.toNat (size * (xi.2 % vl)) (leBytes size xi.1)) else none)

/-! Plain moves -/

/-- R235. -/
def execVmov (w : VWord) (s : State) : Out :=
  .next (s.vBits w { types := tyA, b := .z } (w.ext == 0) fun _ xs => xs.getD 0 0)

/-- R235. -/
def execVsplat (w : VWord) (s : State) : Out :=
  let vl := (s.har s.cur).vl.toNat
  let size := (vT w).size
  let form : VForm :=
    { bad := vBad w { types := tyA, a := .z, b := .c } s.lf64 || w.ext != 0, areas := [vl * size], size := size, lat := 2
      fills := vFill w }
  .next (s.vIssue w form fun h _ _ => cells.flatMap fun cell =>
    cellEffs w size cell (List.replicate vl ((h.vc.getD w.vb.toNat 0).toNat % 2 ^ (8 * size), 0)))

/-- R235. -/
def execVbcst (w : VWord) (s : State) : Out :=
  let vl := (s.har s.cur).vl.toNat
  let size := (vT w).size
  let form : VForm :=
    { bad := vBad w { types := tyA, b := .z } s.lf64 || decide (15 < w.ext.toNat), areas := [vl * size], size := size
      lat := 4, fills := vFill w }
  .next (s.vIssue w form fun h _ _ =>
    let xs := (h.velems w.ext.toNat w.va.toNat size vl).map fun x => (x, (0 : Flags))
    cells.flatMap fun cell => cellEffs w size cell xs)

/-- R236: an element of one cell into a c register. -/
def execVextr (w : VWord) (s : State) : Out :=
  let size := (vT w).size
  let form : VForm := { bad := vBad w { types := tyA, d := .c, b := .c } s.lf64 || decide (15 < w.ext.toNat), lat := 2 }
  .next (s.vIssue w form fun h _ _ =>
    let i := (h.vc.getD w.vb.toNat 0).toNat % 2 ^ 11
    let v : Word :=
      if 2048 ≤ i * size then 0
      else
        let c := leNat (((h.vget w.ext.toNat w.va.toNat).drop (i * size)).take size)
        match vT w with
        | .i t => if t.signed then BitVec.ofInt 64 (t.ofCode c) else BitVec.ofNat 64 c
        | .f _ => BitVec.ofNat 64 c
    [.vc (BitVec.ofNat 4 w.vd.toNat) v])

/-- R236: a c register into an element of one cell or of all; the cell field is not looked at where all are meant
(DESIGN CHOICE, log entry 64). -/
def execVins (w : VWord) (s : State) : Out :=
  let size := (vT w).size
  let form : VForm :=
    { bad := vBad w { types := tyA, a := .c, b := .c } s.lf64 || decide (31 < w.ext.toNat), lat := 2, fills := vFill w }
  .next (s.vIssue w form fun h _ _ =>
    let i := (h.vc.getD w.vb.toNat 0).toNat % 2 ^ 11
    let bytes := leBytes size (h.vc.getD w.va.toNat 0).toNat
    if 2048 ≤ i * size then []
    else (if w.ext.getLsbD 4 then cells else [w.ext.toNat % 16]).map fun cell => .v cell w.vd.toNat (i * size) bytes)

/-! Engine scalars -/

/-- R237: an immediate in VA and VB, or a c register. A value above 2048 is VL_RANGE and leaves vl. -/
def execVsetl (w : VWord) (s : State) : Out :=
  let reg := w.ext.getLsbD 0
  let use : VUse := { types := [0], d := .z, a := if reg then .z else .any, b := if reg then .c else .any }
  let bad := vBad w use s.lf64 || decide (1 < w.ext.toNat)
  let h := s.har s.cur
  let n := if reg then (h.vc.getD w.vb.toNat 0).toNat else w.va.toNat * 64 + w.vb.toNat
  .next (s.issue { e := .v, gk := w.gk, gn := w.gn, bad := if bad then some cILLEGAL_INSTR else none } fun s =>
    if 2048 < n then .fault { code := cVL_RANGE } else s.at .v 1 [.vl (BitVec.ofNat 12 n)])

/-- R238. -/
def execVcadd (w : VWord) (s : State) : Out :=
  let form : VForm := { bad := vBad w { types := [0], d := .c, a := .c, b := .c } s.lf64, lat := 1 }
  .next (s.vIssue w form fun h _ _ =>
    [.vc (BitVec.ofNat 4 w.vd.toNat) (h.vc.getD w.va.toNat 0 + h.vc.getD w.vb.toNat 0 + w.ext.signExtend 64)])

end Sys2Proof.Machine
end

