-- ==== Sys2Proof/Machine/Dispatch.lean ====
section
/-!
DEFINITION. One arm per constructor of Instr.
-/

namespace Sys2Proof.Machine

/-- The meaning of each instruction and event. -/
def exec (i : Instr) (s : State) : Host.Outcome State Fault Refusal :=
  match i with
  | .add d a b => Sys2Proof.Machine.execAdd d a b s
  | .sub d a b => Sys2Proof.Machine.execSub d a b s
  | .and d a b => Sys2Proof.Machine.execAnd d a b s
  | .or d a b => Sys2Proof.Machine.execOr d a b s
  | .xor d a b => Sys2Proof.Machine.execXor d a b s
  | .andn d a b => Sys2Proof.Machine.execAndn d a b s
  | .orn d a b => Sys2Proof.Machine.execOrn d a b s
  | .shl d a b => Sys2Proof.Machine.execShl d a b s
  | .shr d a b => Sys2Proof.Machine.execShr d a b s
  | .sra d a b => Sys2Proof.Machine.execSra d a b s
  | .rol d a b => Sys2Proof.Machine.execRol d a b s
  | .mul d a b => Sys2Proof.Machine.execMul d a b s
  | .mulh d a b => Sys2Proof.Machine.execMulh d a b s
  | .mulhu d a b => Sys2Proof.Machine.execMulhu d a b s
  | .div d a b => Sys2Proof.Machine.execDiv d a b s
  | .divu d a b => Sys2Proof.Machine.execDivu d a b s
  | .rem d a b => Sys2Proof.Machine.execRem d a b s
  | .remu d a b => Sys2Proof.Machine.execRemu d a b s
  | .min d a b => Sys2Proof.Machine.execMin d a b s
  | .max d a b => Sys2Proof.Machine.execMax d a b s
  | .minu d a b => Sys2Proof.Machine.execMinu d a b s
  | .maxu d a b => Sys2Proof.Machine.execMaxu d a b s
  | .clz d a => Sys2Proof.Machine.execClz d a s
  | .ctz d a => Sys2Proof.Machine.execCtz d a s
  | .popc d a => Sys2Proof.Machine.execPopc d a s
  | .sext d a z => Sys2Proof.Machine.execSext d a z s
  | .bswap d a => Sys2Proof.Machine.execBswap d a s
  | .addi d a imm => Sys2Proof.Machine.execAddi d a imm s
  | .andi d a imm => Sys2Proof.Machine.execAndi d a imm s
  | .ori d a imm => Sys2Proof.Machine.execOri d a imm s
  | .xori d a imm => Sys2Proof.Machine.execXori d a imm s
  | .shli d a n => Sys2Proof.Machine.execShli d a n s
  | .shri d a n => Sys2Proof.Machine.execShri d a n s
  | .srai d a n => Sys2Proof.Machine.execSrai d a n s
  | .roli d a n => Sys2Proof.Machine.execRoli d a n s
  | .movi d imm => Sys2Proof.Machine.execMovi d imm s
  | .movm d imm => Sys2Proof.Machine.execMovm d imm s
  | .movh d imm => Sys2Proof.Machine.execMovh d imm s
  | .cmp k c a b => Sys2Proof.Machine.execCmp k c a b s
  | .cmpi k c a imm => Sys2Proof.Machine.execCmpi k c a imm s
  | .kand d a b => Sys2Proof.Machine.execKand d a b s
  | .kor d a b => Sys2Proof.Machine.execKor d a b s
  | .kxor d a b => Sys2Proof.Machine.execKxor d a b s
  | .kandn d a b => Sys2Proof.Machine.execKandn d a b s
  | .kset d a => Sys2Proof.Machine.execKset d a s
  | .kget d a => Sys2Proof.Machine.execKget d a s
  | .sel d a b n => Sys2Proof.Machine.execSel d a b n s
  | .ptag d a b => Sys2Proof.Machine.execPtag d a b s
  | .pspace d a => Sys2Proof.Machine.execPspace d a s
  | .prank d a => Sys2Proof.Machine.execPrank d a s
  | .padd d a b => Sys2Proof.Machine.execPadd d a b s
  | .br k n disp => Sys2Proof.Machine.execBr k n disp s
  | .brl k n disp => Sys2Proof.Machine.execBrl k n disp s
  | .jr a => Sys2Proof.Machine.execJr a s
  | .jrl d a => Sys2Proof.Machine.execJrl d a s
  | .ldb d a imm sb => Sys2Proof.Machine.execLdb d a imm sb s
  | .ldbu d a imm sb => Sys2Proof.Machine.execLdbu d a imm sb s
  | .ldh d a imm sb => Sys2Proof.Machine.execLdh d a imm sb s
  | .ldhu d a imm sb => Sys2Proof.Machine.execLdhu d a imm sb s
  | .ldw d a imm sb => Sys2Proof.Machine.execLdw d a imm sb s
  | .ldwu d a imm sb => Sys2Proof.Machine.execLdwu d a imm sb s
  | .ldd d a imm sb => Sys2Proof.Machine.execLdd d a imm sb s
  | .stb d a imm sb => Sys2Proof.Machine.execStb d a imm sb s
  | .sth d a imm sb => Sys2Proof.Machine.execSth d a imm sb s
  | .stw d a imm sb => Sys2Proof.Machine.execStw d a imm sb s
  | .std d a imm sb => Sys2Proof.Machine.execStd d a imm sb s
  | .qsync => Sys2Proof.Machine.execQsync s
  | .wait m => Sys2Proof.Machine.execWait m s
  | .fence sc o => Sys2Proof.Machine.execFence sc o s
  | .nop => Sys2Proof.Machine.execNop s
  | .yield => Sys2Proof.Machine.execYield s
  | .nend => Sys2Proof.Machine.execNend s
  | .trap c => Sys2Proof.Machine.execTrap c s
  | .brk c => Sys2Proof.Machine.execBrk c s
  | .waita c a b sc => Sys2Proof.Machine.execWaita c a b sc s
  | .barinit a b => Sys2Proof.Machine.execBarinit a b s
  | .barexp a b => Sys2Proof.Machine.execBarexp a b s
  | .bararr a => Sys2Proof.Machine.execBararr a s
  | .barwait a b => Sys2Proof.Machine.execBarwait a b s
  | .bartest k a b => Sys2Proof.Machine.execBartest k a b s
  | .bgbar a => Sys2Proof.Machine.execBgbar a s
  | .bgarr a => Sys2Proof.Machine.execBgarr a s
  | .bgwait a => Sys2Proof.Machine.execBgwait a s
  | .bgsend a b => Sys2Proof.Machine.execBgsend a b s
  | .bgrecv d a => Sys2Proof.Machine.execBgrecv d a s
  | .bgtime d a => Sys2Proof.Machine.execBgtime d a s
  | .exec e t a o => Sys2Proof.Machine.execExec e t a o s
  | .engwait a e => Sys2Proof.Machine.execEngwait a e s
  | .engseq d e => Sys2Proof.Machine.execEngseq d e s
  | .framego => Sys2Proof.Machine.execFramego s
  | .pwrreq n => Sys2Proof.Machine.execPwrreq n s
  | .pwrrel => Sys2Proof.Machine.execPwrrel s
  | .qpost d a b => Sys2Proof.Machine.execQpost d a b s
  | .spawn a => Sys2Proof.Machine.execSpawn a s
  | .join k a => Sys2Proof.Machine.execJoin k a s
  | .brld d a => Sys2Proof.Machine.execBrld d a s
  | .brfree d => Sys2Proof.Machine.execBrfree d s
  | .brget d a => Sys2Proof.Machine.execBrget d a s
  | .mfs d n => Sys2Proof.Machine.execMfs d n s
  | .mts a n => Sys2Proof.Machine.execMts a n s
  | .tref n a b => Sys2Proof.Machine.execTref n a b s
  | .trefq d => Sys2Proof.Machine.execTrefq d s
  | .aadd o d a b sc => Sys2Proof.Machine.execAadd o d a b sc s
  | .aand o d a b sc => Sys2Proof.Machine.execAand o d a b sc s
  | .aor o d a b sc => Sys2Proof.Machine.execAor o d a b sc s
  | .axor o d a b sc => Sys2Proof.Machine.execAxor o d a b sc s
  | .amin o d a b sc => Sys2Proof.Machine.execAmin o d a b sc s
  | .amax o d a b sc => Sys2Proof.Machine.execAmax o d a b sc s
  | .aminu o d a b sc => Sys2Proof.Machine.execAminu o d a b sc s
  | .amaxu o d a b sc => Sys2Proof.Machine.execAmaxu o d a b sc s
  | .aswap o d a b sc => Sys2Proof.Machine.execAswap o d a b sc s
  | .acas o d a b sc => Sys2Proof.Machine.execAcas o d a b sc s
  | .aload o d a sc => Sys2Proof.Machine.execAload o d a sc s
  | .astore o a b sc => Sys2Proof.Machine.execAstore o a b sc s
  | .eret => Sys2Proof.Machine.execEret s
  | .tlbi sc n => Sys2Proof.Machine.execTlbi sc n s
  | .halt => Sys2Proof.Machine.execHalt s
  | .waitint => Sys2Proof.Machine.execWaitint s
  | .vadd w => Sys2Proof.Machine.execVadd w s
  | .vsub w => Sys2Proof.Machine.execVsub w s
  | .vmul w => Sys2Proof.Machine.execVmul w s
  | .vfma w => Sys2Proof.Machine.execVfma w s
  | .vmin w => Sys2Proof.Machine.execVmin w s
  | .vmax w => Sys2Proof.Machine.execVmax w s
  | .vmulh w => Sys2Proof.Machine.execVmulh w s
  | .vabsd w => Sys2Proof.Machine.execVabsd w s
  | .vdot4 w => Sys2Proof.Machine.execVdot4 w s
  | .vdot2 w => Sys2Proof.Machine.execVdot2 w s
  | .vadds w => Sys2Proof.Machine.execVadds w s
  | .vsubs w => Sys2Proof.Machine.execVsubs w s
  | .vmuls w => Sys2Proof.Machine.execVmuls w s
  | .vfmas w => Sys2Proof.Machine.execVfmas w s
  | .vmins w => Sys2Proof.Machine.execVmins w s
  | .vmaxs w => Sys2Proof.Machine.execVmaxs w s
  | .vrcpe w => Sys2Proof.Machine.execVrcpe w s
  | .vrsqe w => Sys2Proof.Machine.execVrsqe w s
  | .vrcp w => Sys2Proof.Machine.execVrcp w s
  | .vrsq w => Sys2Proof.Machine.execVrsq w s
  | .vsqrt w => Sys2Proof.Machine.execVsqrt w s
  | .vexp2 w => Sys2Proof.Machine.execVexp2 w s
  | .vlog2 w => Sys2Proof.Machine.execVlog2 w s
  | .vexp w => Sys2Proof.Machine.execVexp w s
  | .vlog w => Sys2Proof.Machine.execVlog w s
  | .vsinp w => Sys2Proof.Machine.execVsinp w s
  | .vcosp w => Sys2Proof.Machine.execVcosp w s
  | .vtanh w => Sys2Proof.Machine.execVtanh w s
  | .verf w => Sys2Proof.Machine.execVerf w s
  | .vdiv w => Sys2Proof.Machine.execVdiv w s
  | .vcmp w => Sys2Proof.Machine.execVcmp w s
  | .vclass w => Sys2Proof.Machine.execVclass w s
  | .vsel w => Sys2Proof.Machine.execVsel w s
  | .vand w => Sys2Proof.Machine.execVand w s
  | .vor w => Sys2Proof.Machine.execVor w s
  | .vxor w => Sys2Proof.Machine.execVxor w s
  | .vnot w => Sys2Proof.Machine.execVnot w s
  | .vshl w => Sys2Proof.Machine.execVshl w s
  | .vshr w => Sys2Proof.Machine.execVshr w s
  | .vsra w => Sys2Proof.Machine.execVsra w s
  | .vcvt w => Sys2Proof.Machine.execVcvt w s
  | .vpack w => Sys2Proof.Machine.execVpack w s
  | .vunpk w => Sys2Proof.Machine.execVunpk w s
  | .vquant w => Sys2Proof.Machine.execVquant w s
  | .vdeq w => Sys2Proof.Machine.execVdeq w s
  | .vbmax w => Sys2Proof.Machine.execVbmax w s
  | .vrsum w => Sys2Proof.Machine.execVrsum w s
  | .vrmax w => Sys2Proof.Machine.execVrmax w s
  | .vrmin w => Sys2Proof.Machine.execVrmin w s
  | .vrssq w => Sys2Proof.Machine.execVrssq w s
  | .vscan w => Sys2Proof.Machine.execVscan w s
  | .vpart w => Sys2Proof.Machine.execVpart w s
  | .viota w => Sys2Proof.Machine.execViota w s
  | .vperm w => Sys2Proof.Machine.execVperm w s
  | .vgath w => Sys2Proof.Machine.execVgath w s
  | .vscat w => Sys2Proof.Machine.execVscat w s
  | .vmov w => Sys2Proof.Machine.execVmov w s
  | .vsplat w => Sys2Proof.Machine.execVsplat w s
  | .vbcst w => Sys2Proof.Machine.execVbcst w s
  | .vextr w => Sys2Proof.Machine.execVextr w s
  | .vins w => Sys2Proof.Machine.execVins w s
  | .vsetl w => Sys2Proof.Machine.execVsetl w s
  | .loopV w => Sys2Proof.Machine.execLoopV w s
  | .vcadd w => Sys2Proof.Machine.execVcadd w s
  | .vnop => Sys2Proof.Machine.execVnop s
  | .vend => Sys2Proof.Machine.execVend s
  | .dclaim w => Sys2Proof.Machine.execDclaim w s
  | .drel w => Sys2Proof.Machine.execDrel w s
  | .dmma w => Sys2Proof.Machine.execDmma w s
  | .dzero w => Sys2Proof.Machine.execDzero w s
  | .dfill w => Sys2Proof.Machine.execDfill w s
  | .dread w => Sys2Proof.Machine.execDread w s
  | .dcvt w => Sys2Proof.Machine.execDcvt w s
  | .dlds w => Sys2Proof.Machine.execDlds w s
  | .dldt w => Sys2Proof.Machine.execDldt w s
  | .dscl w => Sys2Proof.Machine.execDscl w s
  | .dtbl w => Sys2Proof.Machine.execDtbl w s
  | .dseek w => Sys2Proof.Machine.execDseek w s
  | .ddec w => Sys2Proof.Machine.execDdec w s
  | .dstat w => Sys2Proof.Machine.execDstat w s
  | .dcadd w => Sys2Proof.Machine.execDcadd w s
  | .loopD w => Sys2Proof.Machine.execLoopD w s
  | .dnop => Sys2Proof.Machine.execDnop s
  | .dend => Sys2Proof.Machine.execDend s
  | .tld w => Sys2Proof.Machine.execTld w s
  | .tst w => Sys2Proof.Machine.execTst w s
  | .tlds w => Sys2Proof.Machine.execTlds w s
  | .tgath w => Sys2Proof.Machine.execTgath w s
  | .tscat w => Sys2Proof.Machine.execTscat w s
  | .tshift w => Sys2Proof.Machine.execTshift w s
  | .txsend w => Sys2Proof.Machine.execTxsend w s
  | .txrecv w => Sys2Proof.Machine.execTxrecv w s
  | .tspst w => Sys2Proof.Machine.execTspst w s
  | .tspld w => Sys2Proof.Machine.execTspld w s
  | .tbarr w => Sys2Proof.Machine.execTbarr w s
  | .tatom w => Sys2Proof.Machine.execTatom w s
  | .teadd w => Sys2Proof.Machine.execTeadd w s
  | .temov w => Sys2Proof.Machine.execTemov w s
  | .txch w => Sys2Proof.Machine.execTxch w s
  | .loopT w => Sys2Proof.Machine.execLoopT w s
  | .tnop => Sys2Proof.Machine.execTnop s
  | .tend => Sys2Proof.Machine.execTend s
  | .copy q => Sys2Proof.Machine.execCopy q s
  | .copy4d q => Sys2Proof.Machine.execCopy4d q s
  | .bcast q => Sys2Proof.Machine.execBcast q s
  | .fill q => Sys2Proof.Machine.execFill q s
  | .gather q => Sys2Proof.Machine.execGather q s
  | .gridr q => Sys2Proof.Machine.execGridr q s
  | .gridp q => Sys2Proof.Machine.execGridp q s
  | .gridc q => Sys2Proof.Machine.execGridc q s
  | .ebz q => Sys2Proof.Machine.execEbz q s
  | .ebx q => Sys2Proof.Machine.execEbx q s
  | .cred q => Sys2Proof.Machine.execCred q s
  | .cgath q => Sys2Proof.Machine.execCgath q s
  | .node die c => Sys2Proof.Machine.execNode die c s
  | .dec die c => Sys2Proof.Machine.execDec die c s
  | .remove die c => Sys2Proof.Machine.execRemove die c s
  | .preempt die c => Sys2Proof.Machine.execPreempt die c s
  | .param die c => Sys2Proof.Machine.execParam die c s
  | .ckpt die c => Sys2Proof.Machine.execCkpt die c s
  | .fenceCmd die c => Sys2Proof.Machine.execFenceCmd die c s
  | .unassignedSEncoding w => Sys2Proof.Machine.execUnassignedSEncoding w s
  | .unassignedEngineOpcode e w => Sys2Proof.Machine.execUnassignedEngineOpcode e w s
  | .blockDispatch => Sys2Proof.Machine.execBlockDispatch s
  | .timedBlockStart => Sys2Proof.Machine.execTimedBlockStart s
  | .blockRetire => Sys2Proof.Machine.execBlockRetire s
  | .seqLoadReturn => Sys2Proof.Machine.execSeqLoadReturn s
  | .seqStorePerform => Sys2Proof.Machine.execSeqStorePerform s
  | .tLoadArrival => Sys2Proof.Machine.execTLoadArrival s
  | .decodeComplete => Sys2Proof.Machine.execDecodeComplete s
  | .expressMessageArrival => Sys2Proof.Machine.execExpressMessageArrival s
  | .edgeDataArrival => Sys2Proof.Machine.execEdgeDataArrival s
  | .bgsendDeparture => Sys2Proof.Machine.execBgsendDeparture s
  | .bugleDelivery => Sys2Proof.Machine.execBugleDelivery s
  | .barrierInstanceComplete => Sys2Proof.Machine.execBarrierInstanceComplete s
  | .gangStart => Sys2Proof.Machine.execGangStart s
  | .preemptLineChange => Sys2Proof.Machine.execPreemptLineChange s
  | .autoPreempt => Sys2Proof.Machine.execAutoPreempt s
  | .nodeStart => Sys2Proof.Machine.execNodeStart s
  | .enqueueResume => Sys2Proof.Machine.execEnqueueResume s
  | .powerGrant => Sys2Proof.Machine.execPowerGrant s
  | .wdogExpire => Sys2Proof.Machine.execWdogExpire s
  | .blockFaultEntry => Sys2Proof.Machine.execBlockFaultEntry s
  | .interruptEntry => Sys2Proof.Machine.execInterruptEntry s
  | .gangAbort => Sys2Proof.Machine.execGangAbort s
  | .forcedRefresh => Sys2Proof.Machine.execForcedRefresh s
  | .trefBankRefresh => Sys2Proof.Machine.execTrefBankRefresh s
  | .refreshComplete => Sys2Proof.Machine.execRefreshComplete s
  | .backoffEnd => Sys2Proof.Machine.execBackoffEnd s
  | .packetAccept => Sys2Proof.Machine.execPacketAccept s
  | .collectiveInstanceBegin => Sys2Proof.Machine.execCollectiveInstanceBegin s
  | .collectiveCancel => Sys2Proof.Machine.execCollectiveCancel s
  | .packetCompletion => Sys2Proof.Machine.execPacketCompletion s
  | .selftestDrain => Sys2Proof.Machine.execSelftestDrain s
  | .scanTest => Sys2Proof.Machine.execScanTest s
  | .queueEnter => Sys2Proof.Machine.execQueueEnter s
  | .queueStop => Sys2Proof.Machine.execQueueStop s
  | .retry => Sys2Proof.Machine.execRetry s
  | .abandon => Sys2Proof.Machine.execAbandon s
  | .gtbaseWrite => Sys2Proof.Machine.execGtbaseWrite s
  | .groupTableActivation => Sys2Proof.Machine.execGroupTableActivation s
  | .partmapWrite => Sys2Proof.Machine.execPartmapWrite s
  | .partmapChange => Sys2Proof.Machine.execPartmapChange s
  | .rperiodWrite => Sys2Proof.Machine.execRperiodWrite s
  | .pwrshareWrite => Sys2Proof.Machine.execPwrshareWrite s
  | .privilegedRegisterWrite => Sys2Proof.Machine.execPrivilegedRegisterWrite s
  | .hostAccess => Sys2Proof.Machine.execHostAccess s
  | .consoleSend => Sys2Proof.Machine.execConsoleSend s
  | .consoleReceive => Sys2Proof.Machine.execConsoleReceive s
  | .flitReceive => Sys2Proof.Machine.execFlitReceive s
  | .linkDown => Sys2Proof.Machine.execLinkDown s
  | .linkTrain => Sys2Proof.Machine.execLinkTrain s
  | .moduleReset => Sys2Proof.Machine.execModuleReset s
  | .firmwareBoot => Sys2Proof.Machine.execFirmwareBoot s
  | .partitionStart => Sys2Proof.Machine.execPartitionStart s
  | .containerLoad => Sys2Proof.Machine.execContainerLoad s
  | .resumeCycle => Sys2Proof.Machine.execResumeCycle s
  | .antiRollbackRaise => Sys2Proof.Machine.execAntiRollbackRaise s

end Sys2Proof.Machine
end

