-- ==== Sys2Proof/Machine/Schedule.lean ====
section
/-!
DEFINITION. Whose turn it is (log entry 5, DESIGN CHOICE): within a cycle each harness that is listed takes its T, D and V engines, its
sequencer and its queues in turn; then everything that happens by itself for the next cycle; then the cycle ends.
Also how an instruction is fetched for its turn, and which registers hold an instruction in issue (06 R161).
-/

namespace Sys2Proof.Machine

/-! The interlock of R161 -/

/-- The g registers that an S instruction reads. -/
def gReads : Instr → List (BitVec 6)
  | .add _ a b | .sub _ a b | .and _ a b | .or _ a b | .xor _ a b | .andn _ a b | .orn _ a b | .shl _ a b | .shr _ a b
  | .sra _ a b | .rol _ a b | .mul _ a b | .mulh _ a b | .mulhu _ a b | .div _ a b | .divu _ a b | .rem _ a b
  | .remu _ a b | .min _ a b | .max _ a b | .minu _ a b | .maxu _ a b | .ptag _ a b | .padd _ a b => [a, b]
  | .clz _ a | .ctz _ a | .popc _ a | .sext _ a _ | .bswap _ a | .pspace _ a | .prank _ a => [a]
  | .addi _ a _ | .andi _ a _ | .ori _ a _ | .xori _ a _ => [a]
  | .shli _ a _ | .shri _ a _ | .srai _ a _ | .roli _ a _ => [a]
  | .movm d _ | .movh d _ => [d]
  | .cmp _ _ a b => [a, b]
  | .cmpi _ _ a _ => [a]
  | .kset _ a => [a]
  | .sel _ a b _ => [a, b]
  | .jr a | .jrl _ a => [a]
  | .ldb _ a _ _ | .ldbu _ a _ _ | .ldh _ a _ _ | .ldhu _ a _ _ | .ldw _ a _ _ | .ldwu _ a _ _ | .ldd _ a _ _ => [a]
  | .stb d a _ _ | .sth d a _ _ | .stw d a _ _ | .std d a _ _ => [d, a]
  | .waita _ a b _ | .barinit a b | .barexp a b | .barwait a b | .bartest _ a b => [a, b]
  | .bararr a | .bgbar a | .bgarr a | .bgwait a | .bgrecv _ a | .bgtime _ a => [a]
  | .bgsend a b => [a, b]
  | .exec _ t a _ => (List.range (if t then 5 else 4)).map fun i => a + BitVec.ofNat 6 i
  | .engwait a _ => [a]
  | .qpost _ a b => a :: (List.range 8).map fun i => b + BitVec.ofNat 6 i
  | .spawn a => (List.range 4).map fun i => a + BitVec.ofNat 6 i
  | .join _ a => [a]
  | .brld _ a => [a]
  | .mts a _ => [a]
  | .tref _ a b => [a, b]
  | .aadd _ _ a b _ | .aand _ _ a b _ | .aor _ _ a b _ | .axor _ _ a b _ | .amin _ _ a b _ | .amax _ _ a b _
  | .aminu _ _ a b _ | .amaxu _ _ a b _ | .aswap _ _ a b _ => [a, b]
  | .acas _ d a b _ => [d, a, b]
  | .aload _ _ a _ => [a]
  | .astore _ a b _ => [a, b]
  | .tlbi _ n => [n]
  | _ => []

/-- The g registers that an S instruction writes. -/
def gWrites : Instr → List (BitVec 6)
  | .add d _ _ | .sub d _ _ | .and d _ _ | .or d _ _ | .xor d _ _ | .andn d _ _ | .orn d _ _ | .shl d _ _ | .shr d _ _
  | .sra d _ _ | .rol d _ _ | .mul d _ _ | .mulh d _ _ | .mulhu d _ _ | .div d _ _ | .divu d _ _ | .rem d _ _
  | .remu d _ _ | .min d _ _ | .max d _ _ | .minu d _ _ | .maxu d _ _ | .ptag d _ _ | .padd d _ _ => [d]
  | .clz d _ | .ctz d _ | .popc d _ | .sext d _ _ | .bswap d _ | .pspace d _ | .prank d _ => [d]
  | .addi d _ _ | .andi d _ _ | .ori d _ _ | .xori d _ _ => [d]
  | .shli d _ _ | .shri d _ _ | .srai d _ _ | .roli d _ _ => [d]
  | .movi d _ | .movm d _ | .movh d _ => [d]
  | .kget d _ => [d]
  | .sel d _ _ _ => [d]
  | .jrl d _ => [d]
  | .brl _ _ _ => []
  | .ldb d _ _ _ | .ldbu d _ _ _ | .ldh d _ _ _ | .ldhu d _ _ _ | .ldw d _ _ _ | .ldwu d _ _ _ | .ldd d _ _ _ => [d]
  | .bgrecv d _ | .bgtime d _ | .engseq d _ | .qpost d _ _ | .mfs d _ | .trefq d => [d]
  | .brget d _ => (List.range 4).map fun i => d + BitVec.ofNat 6 i
  | .aadd _ d _ _ _ | .aand _ d _ _ _ | .aor _ d _ _ _ | .axor _ d _ _ _ | .amin _ d _ _ _ | .amax _ d _ _ _
  | .aminu _ d _ _ _ | .amaxu _ d _ _ _ | .aswap _ d _ _ _ | .acas _ d _ _ _ | .aload _ d _ _ => [d]
  | _ => []

/-- A load that has not returned writes register d. -/
def Seq.loading (q : Seq) (d : BitVec 6) : Bool := d != 0 && ((q.loadQ.any fun l => l.d == d) || q.back.any fun l => l.d == d)

/-- The g registers that an S instruction writes in a state of the sequencer: a BRL that is taken writes g62. -/
def Seq.gWrites (q : Seq) : Instr → List (BitVec 6)
  | .brl k n _ => if xor (q.rk k) n then [62] else []
  | i => Machine.gWrites i

/-- The instruction stalls in issue for a register: one it reads is not yet usable, or one it reads or writes is the
destination of a load that has not returned. -/
def Seq.interlocked (q : Seq) (now : Nat) (i : Instr) : Bool :=
  !(q.loadQ.isEmpty && q.back.isEmpty && q.ready.isEmpty) &&
    ((gReads i).any (fun d => q.loading d || decide (now < q.ready.getD d.toNat 0)) || (q.gWrites i).any q.loading)

/-- The registers that the instruction in issue writes are known for the cycle: no word of a TXCH lands there meanwhile
(08 R276). -/
def State.claimG (s : State) (r : Nat) (i : Instr) : State :=
  let ds := (s.har r).seq.gWrites i
  if ds.isEmpty then s else s.modSeq r fun q => { q with inIssue := ds }

/-! Turns -/

/-- What a step does: an instruction or event with its subject, on a state; or only the state's own motion. -/
inductive Turn where
  | run (i : Instr) (a : Arg) (s : State)
  | move (s : State)

/-- A harness that has put its turn off takes it: the first whose word goes to no tower of another that waits too, so that an
owner comes before those who come to it (02 R50); after the last the dies do. -/
def State.nextLater (s : State) : State :=
  match (s.later.find? fun x => !s.later.any fun y => y.1 == x.2) <|> s.later.head? with
  | some x => { s with cur := x.1, phase := .t, later := eraseOne x s.later, second := true }
  | none => { s with phase := .dev, second := false }

/-- The first listed harness from rank r on takes its turn; after the last, those that have put theirs off. -/
def State.nextHar (s : State) (r : Nat) : State :=
  if s.second then s.nextLater
  else match s.hs.find? fun kv => decide (r ≤ kv.1) with
    | some kv => { s with cur := kv.1, phase := .t }
    | none => s.nextLater

/-- The other harness whose tower an engine instruction of the current harness reaches through a record (02 R50). -/
def State.remote (s : State) (e : Eng) (i : Instr) : Option Nat :=
  let h := s.har s.cur
  (h.names i).findSome? fun n => match h.brec e n with
    | some b => if space b.fields.base = 2 ∧ owner b.fields.base ≠ s.cur then some (owner b.fields.base) else none
    | none => none

/-- The phase after an engine's. -/
def afterEng : Eng → Phase
  | .t => .d
  | .d => .v
  | .v => .seq

/-- The harness with the results that fall due in the turn of an engine: plain slot writes of T wait for the end of D's
turn (R24; 08 R278). -/
def Harness.landDue (h : Harness) : Eng → Harness
  | .t => h.landT false
  | .d => h.land .d
  | .v => (h.landT true).land .v

/-- The results in flight of an engine, and the fills that nobody has had yet: what landing makes fewer. -/
def EngSt.inFlight (x : EngSt) : Nat := (x.pend.map fun p => 1 + (p.effs.filter fun y => y.trace.isSome).length).sum

/-- Whether landing changes anything. -/
def Harness.dueNow (h : Harness) (e : Eng) : Bool :=
  let h' := h.landDue e
  decide (h'.ve.inFlight + h'.te.inFlight + h'.de.inFlight < h.ve.inFlight + h.te.inFlight + h.de.inFlight)

/-- Whether the head command of an engine begins, or misses, in this cycle; one that an ERET has dropped does neither. -/
def Harness.starts (h : Harness) (e : Eng) : Option Instr :=
  let x := h.eng e
  match x.queue with
  | [] => none
  | c :: _ =>
    if x.stalled || c.dropped then none
    else if c.timed then
      (if h.sp.frame.toNat < c.stamp.toNat then none else some .timedBlockStart)
    else if h.mayStart e c then some .blockDispatch else none

/-- The head command of an engine that an ERET has dropped ends once the block before it has (01 R21). -/
def EngSt.dropHead (x : EngSt) : Option EngSt :=
  match x.queue with
  | c :: rest => if c.dropped && x.blk.isNone then some { x with queue := rest, ended := x.ended ++ [c] } else none
  | [] => none

/-- The word in issue of an engine of the current harness: a block is fetched first; a word that goes to another harness's tower
waits until the harnesses have had their turns, so that the owner of the tower comes first (02 R50) (DESIGN CHOICE, log
entry 57). -/
def State.wordTurn (s : State) (e : Eng) : Turn :=
  let s' := { s with phase := afterEng e }
  let h := s.har s.cur
  match (h.eng e).blk with
  | none => .move s'
  | some b =>
    if !b.fetched then .move (s.fetchBlock e fun w => endsBlock (fetchedEng e w))
    else match s.fetchEng e, h.ctl.node with
      | .error f, _ => .move (s'.fetchFault e f)
      | .ok none, _ => .move (s'.finishWord e 1)
      | .ok (some w), node =>
        let i := fetchedEng e w
        match (if s.second then none else s.remote e i) with
        | some o => .move ({ s with later := s.later ++ [(s.cur, o)] }.nextHar (s.cur + 1))
        | none =>
          let p := node.elim 0 fun n => wordPtr e n.launch b.pc
          .run i { e := e } (if b.word.isSome then s' else s'.fetchScrub s.cur p (wordSize e))

/-- The turn of an engine of the current harness. -/
def State.engTurn (s : State) (e : Eng) : Turn :=
  let h := s.har s.cur
  let x := h.eng e
  let s' := { s with phase := afterEng e }
  if !h.ctl.enginesRun s.mcc then .move s'
  else if h.dueNow e then .move (s.setHar s.cur (h.landDue e))
  else if x.retires then .run .blockRetire { e := e } s
  else match x.dropHead, h.starts e with
    | some x, _ => .move (s.modEng e fun _ => x)
    | none, some i => .run i { e := e } s
    | none, none => if x.blk.isSome && decide (x.busy ≤ x.cyc) && !x.stalled then s.wordTurn e else .move s'

/-- The turn of the sequencer of the current harness: a blocking access to a tower that has not returned holds it (02 R49), and a
SPAWN whose record waits for room keeps it from issuing (15 R377). -/
def State.seqTurn (s : State) : Turn :=
  let r := s.cur
  let h := s.har r
  let s' := { s with phase := .mem }
  if !h.seq.active || h.ctl.halted || h.ctl.resume.isSome || decide (s.mcc.toNat < h.reply) then .move s'
  else if s.faultEnters r then .run .blockFaultEntry { a := r } s'
  else if s.wdogDue r then .run .wdogExpire { a := r } s'
  else if h.intEnters then .run .interruptEntry { a := r } s'
  else if s.waits (.spawn r) then .move s'
  else match s.fetchSeq r with
    | .error f => .move (s'.preciseF r f)
    | .ok i => if h.seq.interlocked s.mcc.toNat i then .move s' else .run i {} ((s'.fetchScrub r h.seq.pc 4).claimG r i)

/-- The turn of the load and store queues; what a tower bank does not serve waits there, and so does a decode that completes. The
queues go on while the harness is halted (DESIGN CHOICE, log entry 5). -/
def State.memTurn (s : State) : Turn :=
  let r := s.cur
  if s.storeReady r then .run .seqStorePerform { a := r } s
  else if s.loadReady r then .run .seqLoadReturn { a := r } s
  else .move (((s.askQueues r).askDecode r).nextHar (r + 1))

/-! The end of a cycle -/

/-- FRAME, the watchdog count and the pipelines of a harness at the end of a cycle (01 R28, R42). -/
def Harness.endCycle (h : Harness) : Harness :=
  let h' := h.endEngines
  let go := !h.ctl.frozen && !h.ctl.halted && !h.ctl.begun && h.running
  { h' with
    sp := { h.sp with frame := if h.sp.frameGo then 0 else if go then h.sp.frame + 1 else h.sp.frame, frameGo := false }
    ctl := { h.ctl with
      begun := false, back := false
      node := if go && h.sp.cur == 0 then h.ctl.node.map fun (n : Node) => { n with count := n.count + 1 } else h.ctl.node } }

/-- Register readiness that has come. -/
def Harness.settle (h : Harness) (now : Nat) : Harness :=
  { h with seq := { h.seq with ready := h.seq.ready.filter fun kv => decide (now < kv.2), inIssue := [] } }

/-- The end of a cycle of the module: tower banks serve the posted beats that nobody goes before, and the cycle counter rises. -/
def State.endCycle (s : State) : State :=
  let s := s.drainLate
  let now := s.mcc.toNat + 1
  let s := { s with
    mcc := s.mcc + 1
    hs := s.hs.map fun (kv : Nat × Harness) => (kv.1, kv.2.endCycle.settle now)
    dies := s.dies.map fun (kv : Nat × Die) => (kv.1, { kv.2 with gov := kv.2.gov.settle now }) }
  s.nextHar 0

end Sys2Proof.Machine
end

