-- ==== Sys2Proof/Machine/Events.lean ====
section
/-!
DEFINITION. What happens by itself between two cycles (95_what_each_step_holds.md): the first event of the list whose time
has come; each happens for the next cycle. An event that is given from outside (the host, a link, firmware) comes through
State.agenda instead.
-/

namespace Sys2Proof.Machine

/-- The free outcome of a scan test (17 R423): pass, or any unit code. -/
def freeScan (n : Nat) : ScanResult :=
  if Config.freeBit n then .pass else .fail ((Config.freeWord n).toNat % 18)

/-- The first event of a harness that is due. A TREF that comes to a free bank in the cycle in which the bank reaches its guard
refreshes it, and nothing is forced; in a later cycle the forced refresh goes first (DESIGN CHOICE, log entry 49). -/
def State.harEvent (s : State) (r : Nat) (h : Harness) : Option (Instr × Arg) :=
  let c := s.mcc.toNat + 1
  let a : Arg := { a := r }
  if h.ctl.lineChg.any fun x => decide (x.1 ≤ c) then some (.preemptLineChange, a)
  else if s.resumeDue r then some (.resumeCycle, a)
  else if h.banks.any fun kb => kb.2.refreshEnds c then some (.refreshComplete, a)
  else if h.banks.any fun kb => kb.2.st == .backoff && decide (kb.2.till ≤ c) then some (.backoffEnd, a)
  else if (h.forcedBank c (s.die (dieOf r)).rguard.toNat).isSome then some (.forcedRefresh, a)
  else if (h.trefStep c).isSome then some (.trefBankRefresh, a)
  else if (match h.ctl.abort with | some x => decide (x ≤ c) && h.level == 0 | none => false) then some (.gangAbort, a)
  else if (match h.ctl.mode with | .test _ till => decide (till ≤ c) | _ => false) then
    some (.scanTest, { a := r, scan := freeScan s.freeCtr })
  else if (s.arrival r .t).isSome then some (.tLoadArrival, { a := r, e := .t })
  else if (s.arrival r .d).isSome then some (.tLoadArrival, { a := r, e := .d })
  else if (s.decodeDue r).isSome then some (.decodeComplete, a)
  else none

/-- The instruction of a packet type (09 R283). -/
def packetInstr (q : PktId) (ty : Nat) : Option Instr :=
  if ty = tCOPY then some (.copy q)
  else if ty = tCOPY4D then some (.copy4d q)
  else if ty = tBCAST then some (.bcast q)
  else if ty = tFILL then some (.fill q)
  else if ty = tGATHER then some (.gather q)
  else if ty = tGRIDR then some (.gridr q)
  else if ty = tGRIDP then some (.gridp q)
  else if ty = tGRIDC then some (.gridc q)
  else if ty = tEBZ then some (.ebz q)
  else if ty = tEBX then some (.ebx q)
  else if ty = tCRED then some (.cred q)
  else if ty = tCGATH then some (.cgath q)
  else none

/-- The next doing of a die's copy engines: a completion, a packet that may run, an acceptance (09 R281). -/
def State.copyEvent (s : State) (d : Nat) : Option (Instr × Arg) :=
  match (s.die d).pkts.find? s.completable with
  | some k => some (.packetCompletion, { a := d, b := k.id.cew, c := k.id.idx, d := k.id.ent })
  | none =>
    match (s.die d).pkts.findSome? fun k =>
      if (s.runnable k.id k.c.type).isSome then packetInstr k.id k.c.type else none with
    | some i => some (i, { a := d })
    | none => (s.nextAccept d).map fun _ => (.packetAccept, { a := d })

/-- The first event of a die that is due. A REMOVE comes after the choices of its cycle (15 R388). -/
def State.dieEvent (s : State) (d : Nat) : Option (Instr × Arg) :=
  let a : Arg := { a := d }
  if s.grantable d then some (.powerGrant, a)
  else if (s.lateReady d).isSome then some (.enqueueResume, a)
  else if (s.die d).sched.due ≤ s.mcc.toNat + 1 then some (.selftestDrain, a)
  else if (s.autoDue d).isSome then some (.autoPreempt, a)
  else match (s.nextCommand d).bind (decodeCommand d) with
    | some (.remove _ _) => s.copyEvent d
    | some i => some (i, a)
    | none => s.copyEvent d

/-- The REMOVE that a die comes to. -/
def State.removeEvent (s : State) (d : Nat) : Option (Instr × Arg) :=
  match (s.nextCommand d).bind (decodeCommand d) with
  | some (.remove x c) => some (.remove x c, { a := d })
  | _ => none

/-- The first event of the module that is due. -/
def State.moduleEvent (s : State) : Option (Instr × Arg) :=
  let c := s.mcc.toNat + 1
  let instDue (ka : Nat × List (Nat × Nat)) : Bool := match s.instanceDue ka.1 ka.2 with
    | some x => decide (x ≤ c)
    | none => false
  if s.instanceReady.isSome then some (.collectiveInstanceBegin, {})
  else if !s.xfly.isEmpty then some (.expressMessageArrival, {})
  else if !s.efly.isEmpty then some (.edgeDataArrival, {})
  else if s.bugle.sends.any (s.departs c) then some (.bgsendDeparture, {})
  else if s.bugle.wire.any fun x => decide (x.cycle ≤ c) then some (.bugleDelivery, {})
  else if s.bugle.arrive.any instDue then some (.barrierInstanceComplete, {})
  else if s.gangs.any (fun g => !g.started && (match g.start with | some x => decide (x ≤ c) | none => false)) then
    some (.gangStart, {})
  else match (List.range 4).find? fun p => (s.consoleDrain p).isSome with
  | some p => some (.consoleSend, { a := p })
  | none => match (List.range 4).find? fun p => (s.part p).gtPend && s.quiet (s.ranksOf p) with
    | some p => some (.groupTableActivation, { a := p })
    | none =>
      if (match s.partmapNew with | some m => (s.changedDies m).all s.dieIdle | none => false) then
        some (.partmapChange, {})
      else none

/-- A harness to which nothing has happened yet comes to its first refresh (02 R66). -/
def State.quietRefresh (s : State) : Option (Instr × Arg) :=
  (List.range s.nDies).findSome? fun d =>
    if (({} : Harness).forcedBank (s.mcc.toNat + 1) (s.die d).rguard.toNat).isNone then none
    else ((List.range' (128 * d) 128).find? fun r => (s.hs.find r).isNone).map fun r => (.forcedRefresh, { a := r })

/-- The first event that is due, but for choices and what comes after them. -/
def State.devEvent (s : State) : Option (Instr × Arg) :=
  (s.hs.findSome? fun kv => s.harEvent kv.1 kv.2) <|> s.quietRefresh <|>
    s.moduleEvent <|> (List.range s.nDies).findSome? s.dieEvent

/-- A byte that waits at the host side of a partition's console and finds room (18 R426). -/
def State.consoleWaits (s : State) : Option State :=
  if s.consoleIn.isEmpty then none else (List.range 4).findSome? s.consoleEnter

/-- A controller with something left to do: its record overflows, or its counts in its die's block are out of date (17 R410,
R411). -/
def State.staleHbm (s : State) : Option Nat :=
  s.hbm.findSome? fun kv => if kv.2.stale || decide (512 < kv.2.recs.length) then some kv.1 else none

/-- What comes after every other event of a cycle (15 R388): the choices of harnesses, and then REMOVE. -/
def State.choiceEvent (s : State) : Option (Instr × Arg) :=
  if s.chooser.isSome then some (.nodeStart, {}) else (List.range s.nDies).findSome? s.removeEvent

/-- A die whose next command is none of R367. -/
def State.badCommand (s : State) : Option Nat :=
  (List.range s.nDies).find? fun d => match s.nextCommand d with
    | some c => (decodeCommand d c).isNone
    | none => false

/-- A REMOVE that comes after the choices of its cycle keeps the commands behind it from this cycle (15 R388). -/
def State.pauseBehind (s : State) (i : Instr) : State :=
  match i with
  | .remove d _ => s.modSched d fun q => { q with cnext := s.mcc.toNat + 1 }
  | _ => s

/-- The slot in which a die looks for its next command has an error that nobody has met yet: reading it checks the granule, and
a consumption counts (17 R407, R411). -/
def State.slotCheck (s : State) : Option State :=
  if s.latent.isEmpty then none
  else (List.range s.nDies).findSome? fun d =>
    let q := (s.die d).sched
    if !q.cen || q.cwait.isSome then none
    else match s.devKeys (s.partOfDie d) (s.cmdSlot d) 64 needR accRead with
      | .error _ => none
      | .ok ks =>
        let s' := s.devScrub (s.partOfDie d) (s.cmdSlot d) 64
        if s'.latent == s.latent then none else some (if ks.any fun k => (s.consumes k).isSome then s'.count d 4 else s')

/-- What comes before the events of a cycle: the values of its BGTIMEs, while every send of it stands, and the reads in which dies
look for commands. -/
def State.beforeEvents (s : State) : Option State :=
  if s.bugle.asks.isEmpty then s.slotCheck else some s.tellTimes

/-- The turn of everything that happens by itself, but for what comes before it. -/
def State.eventTurn (s : State) : Turn :=
  match s.devEvent, s.consoleWaits, s.staleHbm, s.holdable with
  | some (i, a), _, _, _ => .run i a s
  | none, some s, _, _ => .move s
  | none, none, some i, _ => .move (s.settleHbm i)
  | none, none, none, some (g, r) => .move (s.holdFor g r)
  | none, none, none, none =>
    match s.badCommand, s.choiceEvent with
    | some d, _ => .move (s.rejectCommand d)
    | none, some (i, a) => .run i a (s.pauseBehind i)
    | none, none => .move { s with phase := .tick }

/-- The turn of everything that happens by itself. -/
def State.devTurn (s : State) : Turn :=
  match s.beforeEvents with
  | some s => .move s
  | none => s.eventTurn

/-- The turn of a state (DEDUCED, log entry 16). -/
def State.turn (s : State) : Turn :=
  match s.phase with
  | .t => s.engTurn .t
  | .d => s.engTurn .d
  | .v => s.engTurn .v
  | .seq => s.seqTurn
  | .mem => s.memTurn
  | .dev => s.devTurn
  | .tick => .move s.endCycle

end Sys2Proof.Machine
end

