-- ==== Sys2Proof/Machine/Step.lean ====
section
/-!
DEFINITION. The step: an event given from outside, else the turn of the state (log entry 5, DESIGN CHOICE); and withFetchWord, which
places one instruction where the next step fetches (log entry 1, DESIGN CHOICE).
-/

namespace Sys2Proof.Machine

/-- What the next step runs, and on which state: an event given from outside, else the turn. -/
def State.nextTurn (s : State) : Turn :=
  match s.agenda with
  | (i, a) :: rest => .run i a { s with agenda := rest }
  | [] => s.turn

/-- Whether a module that has halted in boot stage 1 stays halted: only a reset ends that (18 R431). -/
def State.stuck (s : State) : Bool :=
  s.boot.halted && match s.agenda with
    | (.moduleReset, _) :: _ => false
    | _ => true

/-- One step of the module. Every step advances the counter of the free values (log entry 6, DESIGN CHOICE). -/
def step (s : State) : Out :=
  if s.stuck then .fault .moduleHalted
  else match s.fresh.nextTurn with
    | .run i a s => exec i { s with ev := a }
    | .move s => .next s

/-- A node at U that runs at address 0, for the instruction that a test places. -/
def placedNode : Node :=
  { cont := ⟨0, 0, 0, 0⟩, launch := ⟨0, 0, 0, 0, 0, 0, 0, 0⟩, gid := none, nid := 0 }

/-- s with an instruction's word where step fetches next: rank 0 runs a node at U with pc 0, space 0 is mapped onto the
same physical addresses by one 16 GiB page whose table stands at 0x1_0000, and the word stands at address 0. -/
def State.withFetchWord (s : State) (nbits w : Nat) : State :=
  let n := if nbits ≤ 32 then 4 else if nbits ≤ 64 then 8 else 16
  let mem := memWrite (memWrite s.mem 0x10000 (leBytes 8 0x3D)) 0 (leBytes n (w % 2 ^ nbits))
  let h := s.har 0
  let s := { s with mem := mem, latent := (s.latent.erase 0).erase 0x400,
                    hbm := [], cur := 0, phase := .seq, agenda := [],
                    boot := { s.boot with halted := false } }
  let s := s.modPart (s.partOf 0) fun p => { p with xlroot := 0x10001 }
  s.setHar 0 { h with
    seq := { h.seq with pc := 0, ds := none, ready := [], inIssue := [], loadQ := [], back := [], wait := {}, stalled := false, active := true }
    sp := { h.sp with cur := 0 }
    ctl := { h.ctl with mode := .run, node := some { h.ctl.node.getD placedNode with count := 0 }, halted := false, frozen := false, bf := none,
                        resume := none, intr := none }
    reply := 0, tlb := [] }

end Sys2Proof.Machine
end

