-- ==== Sys2Proof/WellFormed.lean ====
section
/-!
DEFINITION. Well-formed instructions: the fields that the encoding tables of 05 R135-R151 restrict. A packet, a command
and an event have no code word and nothing to restrict; an unassigned word is well formed when no row takes it.
-/

namespace Sys2Proof

/-- A scope code is 0 to 4 (04 R111). -/
def scopeOk (s : BitVec 3) : Bool := decide (s.toNat ≤ 4)

/-- A condition code is 0 to 9 (05 R137). -/
def condOk (c : Nat) : Bool := decide (c ≤ 9)

/-- The fields of an instruction are legal in its encoding. -/
def Instr.wellFormed : Instr → Bool
  | .sext _ _ z => decide (z.toNat ≤ 2)
  | .cmp _ c _ _ => condOk c.toNat
  | .cmpi _ c _ _ => condOk c.toNat
  | .fence s _ => scopeOk s
  | .waita c _ _ s => condOk c.toNat && scopeOk s
  | .exec e _ _ _ => decide (e.toNat ≤ 2)
  | .aadd _ _ _ _ s => scopeOk s
  | .aand _ _ _ _ s => scopeOk s
  | .aor _ _ _ _ s => scopeOk s
  | .axor _ _ _ _ s => scopeOk s
  | .amin _ _ _ _ s => scopeOk s
  | .amax _ _ _ _ s => scopeOk s
  | .aminu _ _ _ _ s => scopeOk s
  | .amaxu _ _ _ _ s => scopeOk s
  | .aswap _ _ _ _ s => scopeOk s
  | .acas _ _ _ _ s => scopeOk s
  | .aload _ _ _ s => scopeOk s
  | .astore _ _ _ s => scopeOk s
  | .dmma w => w.zero == 0
  | .loopV w => w.se == 0 && w.stride == 0
  | .loopD w => w.se == 0 && w.stride == 0
  | .unassignedSEncoding w => match decodeS w.toNat with
    | .ok _ => false
    | .error _ => true
  | .unassignedEngineOpcode e w =>
    match decode (match e with | .v => .v | .d => .d | .t => .t) w.toNat with
    | .ok _ => false
    | .error _ => true
  | _ => true

end Sys2Proof
end

