-- ==== Sys2Proof/Safety.lean ====
section
/-!
DEFINITION. What the statements speak of: safe states (the invariant that every step keeps), and frames, that is, what an
instruction leaves as it was.
-/

namespace Sys2Proof.Safety

open Sys2Proof.Machine

/-- The memory stands in its canonical form. -/
def memOk (s : State) : Prop := memWf s.mem = true

/-- Every harness's k0 reads true and its g0 reads zero (05 R132). -/
def hardwired (s : State) (r : Nat) : Prop := (s.har r).seq.rk 0 = true ∧ (s.har r).seq.rg 0 = 0

/-- A step ends the run only where the module has halted. -/
def stops (s : State) : Prop := ∃ f, step s = .fault f

/-! Frames -/

/-- Every byte of memory reads as before. -/
def memSame (s t : State) : Prop := ∀ a, memGet t.mem a = memGet s.mem a

/-- Every byte of memory outside n bytes from key k reads as before. -/
def memSameBut (k n : Nat) (s t : State) : Prop := ∀ a, a < k ∨ k + n ≤ a → memGet t.mem a = memGet s.mem a

/-- Nothing differs but the harness of rank r: no other harness, no die, no memory, no register outside a harness. -/
def onlyHar (r : Nat) (s t : State) : Prop :=
  t = { s with hs := t.hs } ∧ (∀ q, q ≠ r → t.har q = s.har q) ∧ memSame s t

/-- Nothing differs but the sequencer of rank r. -/
def onlySeq (r : Nat) (s t : State) : Prop := onlyHar r s t ∧ t.har r = { s.har r with seq := (t.har r).seq }

/-- Nothing differs but engine e of rank r. -/
def onlyEng (r : Nat) (e : Eng) (s t : State) : Prop :=
  onlyHar r s t ∧ t.har r = (s.har r).setEng e ((t.har r).eng e)

/-- The sequencer of the current harness has moved past the instruction at pc. Of its registers the g and k registers and
the cycles from which late results are usable may differ; its queues, scoreboard slots and separations do not. -/
def passed (s t : State) : Prop :=
  (t.har s.cur).seq =
    { (s.har s.cur).seq.advance with
      g := (t.har s.cur).seq.g, k := (t.har s.cur).seq.k, ready := (t.har s.cur).seq.ready }

/-- The predicates read as before. -/
def kSame (s t : State) : Prop := ∀ x, (t.har s.cur).seq.rk x = (s.har s.cur).seq.rk x

/-- The g registers but d read as before. -/
def gSameBut (d : BitVec 6) (s t : State) : Prop :=
  ∀ x, x ≠ d → (t.har s.cur).seq.rg x = (s.har s.cur).seq.rg x

/-- The instruction at pc completes: g(d) reads v after it (a write naming g0 is discarded), usable in the next cycle, and
nothing else differs but that the sequencer has moved on. -/
def writesG (i : Instr) (d : BitVec 6) (v : Word) (s : State) : Prop :=
  ∃ t, exec i s = .next t ∧ onlySeq s.cur s t ∧ passed s t ∧ kSame s t ∧ gSameBut d s t ∧
    (t.har s.cur).seq.ready = (s.har s.cur).seq.ready ∧ (t.har s.cur).seq.rg d = if d = 0 then 0 else v

/-- As `writesG`, but the result is usable `lat` cycles after the issue, and no sooner than results that earlier instructions
still write there (06 R161). -/
def writesGLate (i : Instr) (d : BitVec 6) (v : Word) (lat : Nat) (s : State) : Prop :=
  ∃ t, exec i s = .next t ∧ onlySeq s.cur s t ∧ passed s t ∧ kSame s t ∧ gSameBut d s t ∧
    (t.har s.cur).seq.rg d = (if d = 0 then 0 else v) ∧
    (∀ x, x ≠ d.toNat → (t.har s.cur).seq.ready.find x = (s.har s.cur).seq.ready.find x) ∧
    (d ≠ 0 → (t.har s.cur).seq.ready.find d.toNat =
      some (max (s.mcc.toNat + lat) ((s.har s.cur).seq.ready.getD d.toNat 0)))

/-- The instruction at pc completes: k(d) reads v after it (a write naming k0 is discarded), and nothing else differs but
that the sequencer has moved on. -/
def writesK (i : Instr) (d : BitVec 4) (v : Bool) (s : State) : Prop :=
  ∃ t, exec i s = .next t ∧ onlySeq s.cur s t ∧ passed s t ∧
    (∀ x, (t.har s.cur).seq.rg x = (s.har s.cur).seq.rg x) ∧
    (∀ x, x ≠ d → (t.har s.cur).seq.rk x = (s.har s.cur).seq.rk x) ∧
    (t.har s.cur).seq.ready = (s.har s.cur).seq.ready ∧ (t.har s.cur).seq.rk d = if d = 0 then true else v

/-- The instruction at pc completes and only moves the sequencer on. -/
def onlyPasses (i : Instr) (s : State) : Prop :=
  ∃ t, exec i s = .next t ∧ onlySeq s.cur s t ∧ (t.har s.cur).seq = (s.har s.cur).seq.advance

/-- The instruction at pc stalls: nothing differs but that the sequencer knows it. -/
def stalls (i : Instr) (s : State) : Prop :=
  ∃ t, exec i s = .next t ∧ onlySeq s.cur s t ∧ (t.har s.cur).seq = { (s.har s.cur).seq with stalled := true }

/-- The instruction at pc takes the precise fault of a code: the exception entry of 14 R346 with class 0, and nothing of
its own effect. -/
def faults (i : Instr) (code : Nat) (s : State) : Prop := exec i s = .next (s.preciseC s.cur code)

/-- As `faults`, for a fault of a failed access, whose record names a pointer; a consumption on the way is recorded and counted
(17 R407, R411). -/
def faultsAt (i : Instr) (f : Fail) (s : State) : Prop := exec i s = .next (s.preciseF s.cur f)

/-! Accesses of the sequencer -/

/-- The access of an asker at key k meets no latent error, and its bank, where it is in a tower, serves it at once and raises no
disturb alert (02 R50, R67). -/
def calm (a : Asker) (k : Nat) (s : State) : Prop :=
  s.latent = [] ∧ s.serves a k = true ∧
    (isTower k = true →
      let h := s.har (towerRank k)
      let b := h.bank (bankKey (towCell k) (towBank k))
      (b.access (max s.mcc.toNat b.till) (h.physRow (towCell k) (towBank k) (towRow k)) 1
        (s.die (dieOf (towerRank k))).tdmt.toNat false).2.2 = false)

/-- The blocking access `a` at pointer p passes its checks, lands at key k and meets no consumption; its bank, in a tower,
is free and raises no alert; every earlier load and store has completed. -/
def clear (s : State) (p : Word) (a : SeqAcc) (k : Nat) : Prop :=
  s.drained = true ∧ s.seqAccess s.cur p a = .ok (.mem k) ∧ s.consumesN k 8 = none ∧ calm s.issuer k s

/-- Nothing differs but the sequencer and the translation cache of rank r (which fills it is not specified, 16 R392), the
state of tower banks, n bytes of memory from key k, and who wrote the word there last; `c` is the first cycle in which the
sequencer of r issues again. -/
def onlyWordTill (r k n c : Nat) (s t : State) : Prop :=
  t = { s with hs := t.hs, mem := t.mem, tagger := t.tagger } ∧ memSameBut k n s t ∧
    (∀ q, t.har q = { s.har q with
      seq := (t.har q).seq, tlb := (t.har q).tlb, banks := (t.har q).banks, reply := if q = r then c else (s.har q).reply }) ∧
    ∀ q, q ≠ r → (t.har q).seq = (s.har q).seq ∧ (t.har q).tlb = (s.har q).tlb

/-- The same, with no blocking access to a tower. -/
def onlyWord (r k n : Nat) (s t : State) : Prop := onlyWordTill r k n (s.har r).reply s t

/-- The cycles until an access to tower key k returns: 8 where its row is open and 20 where it is not (02 R49). -/
def towerCycles (k : Nat) (s : State) : Nat :=
  if (s.bankAt k).row = some ((s.har (towerRank k)).physRow (towCell k) (towBank k) (towRow k)) then 8 else 20

/-- The cycle in which the sequencer issues again after a blocking access to key k: the one after the access has returned from
its tower. -/
def issuesAgain (k : Nat) (s : State) : Nat :=
  if isTower k then s.mcc.toNat + towerCycles k s + 1 else (s.har s.cur).reply

/-- The current harness's blocking instruction i completes: the word at key k is v afterwards, or as before where none is
given, and no other byte differs. -/
def putsWord (i : Instr) (k : Nat) (v : Option Word) (s t : State) : Prop :=
  exec i s = .next t ∧ memRead t.mem k 8 = v.elim (memRead s.mem k 8) (fun w => leBytes 8 w.toNat) ∧
    onlyWordTill s.cur k (if v.isSome then 8 else 0) (issuesAgain k s) s t

/-- Slot n of the scoreboard is held once more; slot 0 is none (04 R109). -/
def holdsSlot (n : Nat) (q q' : Seq) : Prop :=
  ∀ m, q'.sbn.getD m 0 = q.sbn.getD m 0 + if m = n ∧ n ≠ 0 ∧ n < 16 then 1 else 0

/-- Memory requests of a harness that have not completed (06 R175): those of its load and store queues, loads on their way back
from a tower, and those of T and D whose results have no fixed latency. -/
def outstanding (h : Harness) : Nat :=
  h.seq.loadQ.length + h.seq.back.length + h.seq.storeQ.length +
    (h.te.pend ++ h.de.pend).countP fun p => decide (p.due ∈ [.free .load, .free .decode, .free .seek])

/-! Taking an exception -/

/-- The fault record of the level above that of rank r can be written (16 R397): its 128 bytes stand at the keys `ks`, each
in memory that takes writes, and no walk to them meets a latent error. -/
def recordable (r : Nat) (ks : List Nat) (s : State) : Prop :=
  memOk s ∧ s.latent = [] ∧ (s.har r).level < 2 ∧
    s.devKeys (s.partOf r) (s.recordAt r ((s.har r).level + 1)) 128 needW accWrite = .ok ks ∧ ks.Nodup ∧
    ∀ k ∈ ks, s.quarantined k = false

/-- Rank r has entered the supervisor, or firmware from the supervisor (14 R346): the record holds the words `ws`; PREV is
the level before, CUR the next one, and the pc its vector; of the harness nothing else differs but that its instruction is no
longer in progress, no other harness differs, and no other byte of memory. -/
def entered (r : Nat) (ks : List Nat) (ws : List Word) (s t : State) : Prop :=
  let h := s.har r
  ks.map (memGet t.mem) = wordBytes ws ∧ (∀ a, a ∉ ks → memGet t.mem a = memGet s.mem a) ∧
    t.har r = { h with
      sp := { h.sp with prev := h.sp.cur, cur := BitVec.ofNat 2 (h.level + 1) }
      seq := { h.seq with pc := if h.level = 0 then h.sp.tvec else h.sp.fvec, ds := none, wait := {}, stalled := false } } ∧
    (∀ q, q ≠ r → t.har q = s.har q) ∧
    t = { s with hs := t.hs, mem := t.mem, poison := t.poison, latent := t.latent, hbm := t.hbm }

/-- The words of a record (16 R398) of a fault of the sequencer of rank r; FRZ tells whether its engines are frozen. -/
def seqRecord (r : Nat) (cls code arg : Nat) (status addr : Word) (kind level acc : Nat) (s : State) : List Word :=
  let h := s.har r
  let slot (f : DelaySlot → Nat) : Nat := h.seq.ds.elim 0 f
  [BitVec.ofNat 64 (code * 2 ^ 32 + arg * 2 ^ 12 + 3 * 2 ^ 10 + h.level * 2 ^ 8 + b2n h.ctl.frozen * 2 ^ 7 +
      slot (fun d => b2n d.taken) * 2 ^ 6 + slot (fun _ => 1) * 2 ^ 5 + cls),
    h.seq.ds.elim h.seq.pc (·.branch), h.seq.ds.elim 0 (·.target), 0, 0, 0, 0, status, addr,
    BitVec.ofNat 64 (kind * 16 + level * 4 + acc), s.mcc, h.sp.frame, 0, 0, 0, 0]

/-! Buffer records -/

/-- The format codes and their element bits (03 R73). -/
def formatBits : List (Nat × Nat) :=
  [(0x00, 8), (0x01, 8), (0x02, 16), (0x03, 16), (0x04, 32), (0x05, 32), (0x06, 64), (0x10, 64), (0x11, 32), (0x12, 16),
   (0x13, 16), (0x14, 8), (0x15, 8), (0x16, 4), (0x17, 8), (0x20, 4), (0x21, 8), (0x22, 8), (0x30, 16), (0x31, 32), (0x40, 8)]

/-- The four words of a record pass the checks of 02 R57. -/
def recordSound (w0 w1 w2 w3 : Word) : Prop :=
  let fmt := wf w3 40 8
  ∃ n, (fmt, n) ∈ formatBits ∧
    wf w3 48 4 ≤ 3 ∧ wf w3 52 4 ≤ 3 ∧ wf w3 56 3 ≤ 4 ∧ wf w3 62 2 = 0 ∧
    (2 ≤ wf w3 48 4 → wf w1 0 32 ≠ 0 ∧ wf w1 32 32 ≠ 0 ∧ wf w2 40 24 ≠ 0) ∧
    offset w0 % max 1 (n / 8) = 0 ∧ wf w2 0 40 % max 1 (n / 8) = 0 ∧ wf w3 0 40 % max 1 (n / 8) = 0 ∧
    (wf w3 60 1 = 1 → fmt = 0x30 ∨ fmt = 0x31) ∧ (wf w3 61 1 = 1 → fmt = 0x20 ∨ fmt = 0x21 ∨ fmt = 0x22)

/-! Words of the engines -/

/-- The word in issue of engine e of the current harness may take its effect: its block is b, it is not to be skipped, its
guard is true, its takes are full and its fills empty once they are applied (01 R18, R22), none of the takes by a fill of the
engine's own that other engines have had early (log entry 15), and no loop body ends at it. -/
def ready (e : Eng) (b : Block) (gk : BitVec 3) (gn : Bool) (takes fills : List FeReg) (s : State) : Prop :=
  (s.eng e).blk = some b ∧ (s.eng e).skip = false ∧ b.guard gk gn = true ∧
    (s.har s.cur).feReady takes fills = true ∧ (∀ r ∈ takes, (s.eng e).out r = false) ∧ ∀ l ∈ b.loops, l.last ≠ b.pc

/-- In the state t, reached from s, the word of engine e has issued in the present cycle and occupies `occ` cycles: its takes
are empty, its block goes on with the next word (its count of rounding issues risen by j), and its result p with its fills is
in flight; nothing else differs: no register, no memory, no other harness. -/
def flies (e : Eng) (b : Block) (takes fills : List FeReg) (occ j : Nat) (p : Pend) (s t : State) : Prop :=
  onlyHar s.cur s t ∧
    t.har s.cur = { (s.har s.cur).setEng e { s.eng e with
        blk := some { b with pc := b.pc + 1, j := b.j + j }, busy := (s.eng e).cyc + occ, rows := []
        pend := (s.eng e).pend ++ if p.effs = [] ∧ fills = [] then [] else
          [{ p with age := b.cmd.age, effs := p.effs ++ fills.map fillEff, epc := b.pc }] } with
      feV := (t.har s.cur).feV, feS := (t.har s.cur).feS, feA := (t.har s.cur).feA } ∧
    ∀ x, (t.har s.cur).full x = ((s.har s.cur).full x && !takes.contains x)

/-- The word i of engine e issues, with nothing beside its result `effs`, due at `due`. -/
def issues (i : Instr) (e : Eng) (b : Block) (takes fills : List FeReg) (due : Due) (occ j : Nat) (effs : List Eff)
    (s t : State) : Prop :=
  exec i s = .next t ∧ flies e b takes fills occ j { age := 0, due := due, effs := effs } s t

/-- The word i of engine e, whose block is b, waits for something other than a full/empty bit (CAUSE 4 of 16 R399): the pipeline
stands still, or, in a timed block, the block faults with SCHED_MISS. -/
def waits (e : Eng) (b : Block) (i : Instr) (s : State) : Prop :=
  (b.cmd.timed = false → exec i s = .next (s.modEng e fun x => { x with stalled := true })) ∧
  (b.cmd.timed = true → exec i s = .next (s.blockFault e
    { code := cSCHED_MISS, hi := min ((s.eng e).cyc - b.start) (2 ^ 28 - 1) * 2 ^ 4 + 4 }))

/-- Element j of v(r) of a cell, of `size` bytes. -/
def element (h : Harness) (cell r size j : Nat) : Nat := leNat (((h.vget cell r).drop (size * j)).take size)

/-- A result changes v registers among `rs`, and otherwise the sticky flags of V at most. -/
def writesV (rs : List Nat) (effs : List Eff) : Prop :=
  ∀ h : Harness, h.applyAll effs = { h with v := (h.applyAll effs).v, sp := { h.sp with vflag := (h.applyAll effs).sp.vflag } } ∧
    ∀ cell r, cell < 16 → r < 64 → r ∉ rs → (h.applyAll effs).vget cell r = h.vget cell r

/-- The sticky flags after a result (03 R81): those from before, and those that it raises, `f cell k` for each of the first n
elements of every cell. -/
def raises (n : Nat) (f : Nat → Nat → Num.Flags) (old new : Num.Flags) : Prop :=
  ∀ i, new.getLsbD i = true ↔ old.getLsbD i = true ∨ ∃ cell k, cell < 16 ∧ k < n ∧ (f cell k).getLsbD i = true

/-- The element-wise V word w issues; when its result lands, element k of v(VD) of each cell is `f cell k` for every k
below vl, the later ones stay (07 R207), the flags are raised that the elements raise, and no other register changes. -/
def vLands (i : Instr) (w : VWord) (b : Block) (lat occ j size : Nat) (f : Nat → Nat → Nat × Num.Flags) (s : State) : Prop :=
  let vl := (s.har s.cur).vl.toNat
  ∃ t effs, issues i .v b (vTakes w) (vFill w) (.cycle ((s.eng .v).cyc + (lat + occ - 1))) occ j effs s t ∧
    writesV [w.vd.toNat] effs ∧
    ∀ h : Harness, raises vl (fun cell k => (f cell k).2) h.sp.vflag (h.applyAll effs).sp.vflag ∧
      ∀ cell k, cell < 16 → element (h.applyAll effs) cell w.vd.toNat size k =
        if k < vl then (f cell k).1 % 2 ^ (8 * size) else element h cell w.vd.toNat size k

/-- The destination of a value with its flags, rounded once as the V word w says (03 R83). -/
def dest (w : VWord) (t : Num.Fmt) (mode : Num.Mode) (r32 : Nat) (x : Num.Val × Num.Flags) : Nat × Num.Flags :=
  let y := Num.destF t mode r32 (vP w) w.clamp.toNat x.1
  (y.1, x.2 ||| y.2)

/-- The V word w issues with the given fills; when its result lands on a harness `h`, only v registers among `rs` change,
and `P h` holds of the harness after. -/
def vGives (i : Instr) (w : VWord) (b : Block) (fills : List FeReg) (lat occ j : Nat) (rs : List Nat)
    (P : Harness → Harness → Prop) (s : State) : Prop :=
  ∃ t effs, issues i .v b (vTakes w) fills (.cycle ((s.eng .v).cyc + (lat + occ - 1))) occ j effs s t ∧
    writesV rs effs ∧ ∀ h : Harness, P h (h.applyAll effs)

/-- Code k of bytes that hold codes of `bits` bits: of nibbles, the even one stands in bits 3:0 (07 R205). -/
def code (bits : Nat) (bs : List Byte) (k : Nat) : Nat :=
  if bits = 4 then at' bs (k / 2) 1 / 16 ^ (k % 2) % 16 else at' bs (bits / 8 * k) (bits / 8)

/-- Packed code k of v(r) of a cell: a byte, or a nibble. -/
def vcode (nibble : Bool) (h : Harness) (cell r k : Nat) : Nat := code (if nibble then 4 else 8) (h.vget cell r) k

/-- A result changes v registers among `vs`, slots among `ss` and accumulators among `as`, and otherwise the sticky flags of
D at most. -/
def writesD (vs ss as : List Nat) (effs : List Eff) : Prop :=
  ∀ h : Harness,
    h.applyAll effs = { h with
      v := (h.applyAll effs).v, s := (h.applyAll effs).s, a := (h.applyAll effs).a
      sp := { h.sp with dflag := (h.applyAll effs).sp.dflag } } ∧
    ∀ cell, cell < 16 →
      (∀ r, r < 64 → r ∉ vs → (h.applyAll effs).vget cell r = h.vget cell r) ∧
      (∀ r, r < 32 → r ∉ ss → (h.applyAll effs).sget cell r = h.sget cell r) ∧
      ∀ r, r < 8 → r ∉ as → (h.applyAll effs).aget cell r = h.aget cell r

/-- The D word w issues; when its result lands on a harness `h`, `lat` cycles later, only registers among `vs`, `ss` and `as`
change, and `P h` holds of the harness after. -/
def dGives (i : Instr) (w : DWord) (b : Block) (fills : List FeReg) (lat j : Nat) (vs ss as : List Nat)
    (P : Harness → Harness → Prop) (s : State) : Prop :=
  ∃ t effs, issues i .d b (dTakes w) fills (.cycle ((s.eng .d).cyc + lat)) 1 j effs s t ∧
    writesD vs ss as effs ∧ ∀ h : Harness, P h (h.applyAll effs)

/-- Nothing differs but the state of tower banks and the translation cache of rank r (16 R392). -/
def onlyBanks (r : Nat) (s t : State) : Prop :=
  t = { s with hs := t.hs } ∧ (∀ q, t.har q = { s.har q with banks := (t.har q).banks, tlb := (t.har q).tlb }) ∧
    ∀ q, q ≠ r → (t.har q).tlb = (s.har q).tlb

/-- Accesses at the keys `ks` meet no latent error and no disturb alert (02 R67). -/
def still (ks : List Nat) (s : State) : Prop :=
  s.latent = [] ∧ ∀ k ∈ ks, isTower k = true → ∀ row,
    ((s.har (towerRank k)).bank (bankKey (towCell k) (towBank k))).ctr.getD row 0 + ks.length <
      (s.die (dieOf (towerRank k))).tdmt.toNat

/-- And each bank that holds one of them serves the asker at once, no refresh of it being near (02 R50, R66). -/
def quiet (a : Asker) (ks : List Nat) (s : State) : Prop :=
  still ks s ∧ ∀ k ∈ ks, s.serves a k = true ∧ (isTower k = true →
    (((s.die (dieOf (towerRank k))).rguard.toNat : Int)) + 16 * (ks.length + 1) < (s.bankAt k).left s.mcc.toNat)

/-- The T word w issues; before its result p enters the pipeline the state is s1. -/
def tGoes (i : Instr) (b : Block) (takes fills : List FeReg) (p : Pend) (s s1 t : State) : Prop :=
  exec i s = .next t ∧ flies .t b takes fills 1 0 p s1 t

/-- A store of the T engine of rank r to the bytes at the keys `ks`, n bytes counted for TBARR: nothing else differs but
poison and records of granules written whole, who wrote the bytes last, tower banks and the translation cache of r. -/
def stores (r : Nat) (ks : List Nat) (n : Nat) (s t : State) : Prop :=
  t = { s with hs := t.hs, mem := t.mem, poison := t.poison, hbm := t.hbm, tagger := t.tagger } ∧
    (∀ a, a ∉ ks → memGet t.mem a = memGet s.mem a) ∧
    ∀ q, t.har q = { s.har q with
      banks := (t.har q).banks, tlb := if q = r then (t.har q).tlb else (s.har q).tlb
      ctl := if q = r then { (s.har q).ctl with
        node := (s.har q).ctl.node.map fun (x : Node) => { x with tbytes := x.tbytes + n } } else (s.har q).ctl }

/-- Element k of cell `cell` of an access, where it has a place. -/
def elem (rows : List (List (Option Spot))) (cell k : Nat) : Option Spot := (rows.getD cell []).getD k none

/-- Two places share a bit. -/
def Spot.meets (bits : Nat) (x y : Spot) : Prop :=
  if bits = 4 then x.keys = y.keys ∧ x.half = y.half else ∃ a, a ∈ x.keys ∧ a ∈ y.keys

/-- Every element stands at its place in t, unless one of a later cell, or a later one of its cell, was written over it (08
R262). -/
def elementsStored (bits : Nat) (rows : List (List (Option Spot))) (codes : Nat → Nat → Nat) (t : State) : Prop :=
  ∀ cell k x, cell < 16 → elem rows cell k = some x → x.keys.Nodup →
    (∀ cell' k' y, cell' < 16 → elem rows cell' k' = some y → (cell < cell' ∨ cell = cell' ∧ k < k') →
      ¬Spot.meets bits x y) →
    t.spotCode bits (some x) = codes cell k

/-! Coded tensors -/

/-- The entry of a tile fails in one cell the check of 10 R321 whose code is `code`, each check standing on those before it. -/
def entryFails (s : State) (r : Nat) (t : Tensor) (tile code : Nat) : Prop :=
  let ext := t.b.fields.ext0
  ext < 16 ∧ code = cSTREAM_BAD_MAGIC ∨
  16 ≤ ext ∧ ∃ hd, s.tensorBytes r t 0 16 = .ok hd ∧
    let magic := at' hd 0 2 = 0x5749 ∧ at' hd 2 1 ∈ [0x16, 0x14, 0x15, 0x00, 0x01] ∧
      ∀ b ∈ (hd.drop 3).take 1 ++ hd.drop 8, b = 0
    let inside := tile < at' hd 4 4 ∧ 16 + 8 * tile + 8 ≤ ext
    (¬magic ∧ code = cSTREAM_BAD_MAGIC ∨ magic ∧ ¬inside ∧ code = cSTREAM_BAD_INDEX ∨
     magic ∧ inside ∧ code = cSTREAM_BAD_INDEX ∧ ∃ en, s.tensorBytes r t (16 + 8 * tile) 8 = .ok en ∧
       let slen := leNat en / 2 ^ 40 % 2 ^ 16
       let soff := leNat en % 2 ^ 40
       (slen = 0 ∨ soff % 16 ≠ 0 ∨ ext < soff + 16 * slen))

/-- The segment of a tile fails in one cell the check 4 to 8 of 10 R322 whose code is `code`, each check standing on those
before it (R313-R315, R317). -/
def segmentFails (s : State) (r : Nat) (h : Harness) (t : Tensor) (x : Tile) (psub code : Nat) : Prop :=
  let n := if x.fmt = 0x16 then 4 else 2
  let first := 16 + 4 * (n + 1)
  let fits := ∃ k, h.chooseTable x.tid = some k ∧ h.tableAlph k = if x.fmt = 0x16 then 0 else 1
  ¬fits ∧ code = cSTREAM_NO_TABLE ∨
  fits ∧ ∃ hd, s.tensorBytes r t x.soff 16 = .ok hd ∧
    let magic := at' hd 0 2 = 0x5A57 ∧ at' hd 2 1 = x.tid ∧ ∀ b ∈ hd.drop 10, b = 0
    let count := at' hd 3 1 = n ∧ at' hd 4 4 = 1024 * n ∧ psub < n
    (¬magic ∧ code = cSTREAM_BAD_MAGIC ∨ magic ∧ ¬count ∧ code = cSTREAM_COUNT ∨
     magic ∧ count ∧ 16 * x.slen < first ∧ code = cSTREAM_OVERREAD ∨
     magic ∧ count ∧ first ≤ 16 * x.slen ∧ ∃ tb, s.tensorBytes r t (x.soff + 16) (4 * (n + 1)) = .ok tb ∧
       let off := fun i => at' tb (4 * i) 4
       let ordered := off 0 = first ∧ (∀ i, i < n → off i + 4 ≤ off (i + 1) ∧ (off (i + 1) - off i) % 2 = 0) ∧
         off n ≤ 16 * x.slen
       (¬ordered ∧ code = cSTREAM_OVERREAD ∨
        ordered ∧ code = cSTREAM_CRC ∧ ∃ body, s.tensorBytes r t (x.soff + first) (off n - first) = .ok body ∧
          crc16 body ≠ at' hd 8 2))

/-! Copy packets -/

/-- Two places of given widths share a bit. -/
def sharesBit (x y : Spot × Nat) : Prop :=
  if x.2 = 4 ∧ y.2 = 4 then x.1.keys = y.1.keys ∧ x.1.half = y.1.half else ∃ a, a ∈ x.1.keys ∧ a ∈ y.1.keys

/-- Packet k has ended in t with status and detail `fin`, its payload counted; nothing else differs from s but memory, who wrote
it last, and poison and records of granules written whole. -/
def pktEnds (k : Pkt) (fin : Status) (bytes : Nat) (s t : State) : Prop :=
  t = { s with dies := t.dies, mem := t.mem, poison := t.poison, hbm := t.hbm, tagger := t.tagger } ∧
    ∃ u, ∀ d, t.die d =
      (s.modPkt k.id fun j => { j with st := .ended fin.1 fin.2 0, bytes := bytes, vals := [], asked := false, unit := u }).die d

/-- The instruction i carries out packet k, none of whose accesses is stopped. First its beats at the keys that it reads and
writes go to the tower banks that hold them (02 R50, log entry 57). Then, when it runs again: each element stands at its place,
with the code formed now or latched before (09 R308), unless a later one was written over it, no other byte of memory differs,
and the packet has ended with its status. -/
def carries (i : Instr) (k : Pkt) (els : List OutEl) (fin : Status) (s : State) : Prop :=
  let ws := els.zipIdx.flatMap fun e => match e.1.final ((k.vals[e.2]?).getD none) with
    | .ok w => w
    | .error _ => []
  (∀ e ∈ els.zipIdx, ∃ w, e.1.final ((k.vals[e.2]?).getD none) = .ok w) → k.unit = 0 →
  (k.asked = false →
    exec i s = .next (s.askBanks k (els.flatMap (·.reads) ++ (s.elPut [] ws).map fun (x : Nat × Byte) => x.1))) ∧
  (k.asked = true → memOk s → s.latent = [] → (∀ a ∈ ws.flatMap (·.1.1.keys), s.quarantined a = false) →
    ∃ t, exec i s = .next t ∧ pktEnds k fin (k.bytes + payload ws) s t ∧
      (∀ a, a ∉ ws.flatMap (·.1.1.keys) → memGet t.mem a = memGet s.mem a) ∧
      ∀ pre w post, ws = pre ++ w :: post → w.1.1.keys.Nodup → w.1.1.keys.length = max 1 (w.1.2 / 8) →
        (∀ y ∈ post, ¬sharesBit w.1 y.1) → t.spotCode w.1.2 (some w.1.1) = w.2 % 2 ^ w.1.2)

/-- n bytes at a distance from a record's BASE can be read for packet k, at the keys `ks` (09 R286, R306). -/
def readable (k : Pkt) (f : Rec) (d : Int) (n : Nat) (ks : List Nat) (s : State) : Prop :=
  s.pktRead (s.pktPart k) k f.base ((offset f.base : Int) + d) n = .ok ks

/-- They can be written, at the keys `ks`. -/
def writable (k : Pkt) (f : Rec) (d : Int) (n : Nat) (ks : List Nat) (s : State) : Prop :=
  s.pinKeys (s.pktPart k) k.pins f.base ((offset f.base : Int) + d) n = .ok ks

/-- The element of a record at an index stands, for a read by packet k, at the place given; it reads as +0 where none is given
(02 R55). -/
def readsAt (k : Pkt) (f : Rec) (x : Int × Int × Int) (p : Option Spot) (s : State) : Prop :=
  match p with
  | none => f.locate false x.1 x.2.1 x.2.2 = .ok none
  | some y => ∃ d, f.locate false x.1 x.2.1 x.2.2 = .ok (some (d, y.half)) ∧ readable k f d f.bytes y.keys s

/-- The element of a record at an index is written by packet k at the place given, or dropped where none is given (02 R55). -/
def writesAt (k : Pkt) (f : Rec) (x : Int × Int × Int) (p : Option (Spot × Nat)) (s : State) : Prop :=
  match p with
  | none => f.locate true x.1 x.2.1 x.2.2 = .ok none
  | some y => ∃ d, f.locate true x.1 x.2.1 x.2.2 = .ok (some (d, y.1.half)) ∧ writable k f d f.bytes y.1.keys s ∧ y.2 = f.bits

/-- Nothing stops n writes at the places W of packet k, which begins, its beats served; they share no bit, and lie apart from the
keys read. -/
def apart (k : Pkt) (n : Nat) (W : Nat → Option (Spot × Nat)) (read : List Nat) (s : State) : Prop :=
  k.unit = 0 ∧ k.asked = true ∧ memOk s ∧ s.latent = [] ∧ ∀ j y, j < n → W j = some y →
    y.1.keys.Nodup ∧ y.1.keys.length = max 1 (y.2 / 8) ∧ (∀ a ∈ y.1.keys, a ∉ read ∧ s.quarantined a = false) ∧
    ∀ j' y', j' < n → j' ≠ j → W j' = some y' → ¬sharesBit y y'

/-- The instruction i carries out packet k: code `c j` stands at the place `W j` for every j below n that has one, no other byte
of memory differs, and the packet has ended with `fin`. -/
def outputs (i : Instr) (k : Pkt) (fin : Status) (n : Nat) (W : Nat → Option (Spot × Nat)) (c : Nat → Nat) (s : State) : Prop :=
  ∃ t b, exec i s = .next t ∧ pktEnds k fin b s t ∧
    (∀ j y, j < n → W j = some y → t.spotCode y.2 (some y.1) = c j % 2 ^ y.2) ∧
    ∀ a, (∀ j y, j < n → W j = some y → a ∉ y.1.keys) → memGet t.mem a = memGet s.mem a

/-- n bytes written, byte j at key `into j`. -/
def byteSpot (into : Nat → Nat) (j : Nat) : Option (Spot × Nat) := some ({ p := 0, keys := [into j], half := 0 }, 8)

/-- The bytes `bs` are a block of 09 R297 of nb values: zigzag codes z, escapes, and their raw codes of `size` bytes. Where it is
`tight`, ESC and w are the least that do. -/
def codedBlock (size nb : Nat) (z : Nat → Nat) (esc : Nat → Bool) (raw : Nat → Nat) (tight : Bool) (bs : List Byte) : Prop :=
  let es := (List.range nb).filter esc
  ∃ (w : Nat) (e : Bool) (mask packed : List Byte),
    w ≤ 32 ∧ (∀ i, i < nb → z i < 2 ^ w) ∧ (e = false → es = []) ∧
    (tight = true → (es = [] → e = false) ∧ (w = 0 ∨ ∃ i, i < nb ∧ 2 ^ (w - 1) ≤ z i)) ∧
    mask.length = (if e then 8 else 0) ∧ leNat mask = (es.map fun i => 2 ^ i).sum ∧
    packed.length = (nb * w + 7) / 8 ∧ leNat packed = ((List.range nb).map fun i => z i * 2 ^ (w * i)).sum ∧
    bs = BitVec.ofNat 8 (w + if e then 64 else 0) :: (mask ++ packed ++ es.flatMap fun i => leBytes size (raw i))

end Sys2Proof.Safety
end

