-- ==== Sys2Proof/Certificates/Slice0/Obligations.lean ====
section
/-!
DEFINITION. The statements of this model for the provers, family by family. Each docstring names the rules of the spec
that its statement rests on. `r` stands for the rank of the current harness, and `t` for the state after.
-/

open Sys2Proof Sys2Proof.Machine Sys2Proof.Safety

/-! ### Sequencer: arithmetic, compares, pointers, control -/

/-- 06 R163: every row of the table of major 0x01 with its result, the multiplications and divisions with the cycle in
which it is usable (R161); shift amounts are bits 5:0. The quotients and remainders of a zero divisor are those of
`Obligations.DivisionCorners`.

06 R163: the unary rows. CLZ counts the zero bits above the highest one bit, CTZ those below the lowest, POPC the one
bits; SEXT copies bit 7, 15 or 31 upward; BSWAP puts byte i in place 7 - i. -/
def Obligations.IntegerInstructions : Prop :=
  (∀ (s : State) (d a b : BitVec 6),
    let x := s.g a
    let y := s.g b
    let n := y.toNat % 64
    (writesG (.add d a b) d (BitVec.ofNat 64 (x.toNat + y.toNat)) s ∧
     writesG (.sub d a b) d (BitVec.ofNat 64 (x.toNat + 2 ^ 64 - y.toNat)) s ∧
     writesG (.and d a b) d (x &&& y) s ∧ writesG (.or d a b) d (x ||| y) s ∧ writesG (.xor d a b) d (x ^^^ y) s ∧
     writesG (.andn d a b) d (x &&& ~~~y) s ∧ writesG (.orn d a b) d (x ||| ~~~y) s) ∧
    (writesG (.shl d a b) d (BitVec.ofNat 64 (x.toNat * 2 ^ n)) s ∧
     writesG (.shr d a b) d (BitVec.ofNat 64 (x.toNat / 2 ^ n)) s ∧
     writesG (.sra d a b) d (BitVec.ofInt 64 (x.toInt / 2 ^ n)) s ∧
     writesG (.rol d a b) d ((x <<< n) ||| (x >>> (64 - n))) s) ∧
    (writesGLate (.mul d a b) d (BitVec.ofNat 64 (x.toNat * y.toNat)) 3 s ∧
     writesGLate (.mulh d a b) d (BitVec.ofInt 64 (x.toInt * y.toInt / 2 ^ 64)) 3 s ∧
     writesGLate (.mulhu d a b) d (BitVec.ofNat 64 (x.toNat * y.toNat / 2 ^ 64)) 3 s) ∧
    (y ≠ 0 →
     writesGLate (.div d a b) d (BitVec.ofInt 64 (x.toInt.tdiv y.toInt)) 34 s ∧
     writesGLate (.divu d a b) d (BitVec.ofNat 64 (x.toNat / y.toNat)) 34 s ∧
     writesGLate (.rem d a b) d (BitVec.ofInt 64 (x.toInt.tmod y.toInt)) 34 s ∧
     writesGLate (.remu d a b) d (BitVec.ofNat 64 (x.toNat % y.toNat)) 34 s) ∧
    (writesG (.min d a b) d (if x.toInt < y.toInt then x else y) s ∧
     writesG (.max d a b) d (if x.toInt < y.toInt then y else x) s ∧
     writesG (.minu d a b) d (if x.toNat < y.toNat then x else y) s ∧
     writesG (.maxu d a b) d (if x.toNat < y.toNat then y else x) s)) ∧
  (∀ (s : State) (d a : BitVec 6),
    let x := s.g a
    (∃ n : Nat, writesG (.clz d a) d (BitVec.ofNat 64 n) s ∧ n ≤ 64 ∧ (∀ i, i < n → x.getLsbD (63 - i) = false) ∧
      (n < 64 → x.getLsbD (63 - n) = true)) ∧
    (∃ n : Nat, writesG (.ctz d a) d (BitVec.ofNat 64 n) s ∧ n ≤ 64 ∧ (∀ i, i < n → x.getLsbD i = false) ∧
      (n < 64 → x.getLsbD n = true)) ∧
    writesG (.popc d a) d (BitVec.ofNat 64 ((List.range 64).countP fun i => x.getLsbD i)) s ∧
    writesG (.sext d a 0) d ((x.setWidth 8).signExtend 64) s ∧
    writesG (.sext d a 1) d ((x.setWidth 16).signExtend 64) s ∧
    writesG (.sext d a 2) d ((x.setWidth 32).signExtend 64) s ∧
    ∃ v : Word, writesG (.bswap d a) d v s ∧ ∀ i, i < 8 → field v.toNat (8 * i) 8 = field x.toNat (8 * (7 - i)) 8)


/-- 06 R164: the corner cases of division. -/
def Obligations.DivisionCorners : Prop := ∀ (s : State) (d a b : BitVec 6),
  (s.g b = 0 →
    writesGLate (.div d a b) d 0xFFFFFFFFFFFFFFFF 34 s ∧ writesGLate (.divu d a b) d 0xFFFFFFFFFFFFFFFF 34 s ∧
    writesGLate (.rem d a b) d (s.g a) 34 s ∧ writesGLate (.remu d a b) d (s.g a) 34 s) ∧
  (s.g a = 0x8000000000000000 → s.g b = 0xFFFFFFFFFFFFFFFF →
    writesGLate (.div d a b) d 0x8000000000000000 34 s ∧ writesGLate (.rem d a b) d 0 34 s)

/-- 06 R165, R166 and 05 R136: the immediate forms and the three moves. -/
def Obligations.Immediates : Prop := ∀ (s : State) (d a n : BitVec 6) (i : BitVec 14) (j : BitVec 20),
  let x := s.g a
  let o := s.g d
  (writesG (.addi d a i) d (BitVec.ofInt 64 (x.toInt + i.toInt)) s ∧
   writesG (.andi d a i) d (BitVec.ofNat 64 (x.toNat &&& i.toNat)) s ∧
   writesG (.ori d a i) d (BitVec.ofNat 64 (x.toNat ||| i.toNat)) s ∧
   writesG (.xori d a i) d (BitVec.ofNat 64 (x.toNat ^^^ i.toNat)) s) ∧
  (writesG (.shli d a n) d (BitVec.ofNat 64 (x.toNat * 2 ^ n.toNat)) s ∧
   writesG (.shri d a n) d (BitVec.ofNat 64 (x.toNat / 2 ^ n.toNat)) s ∧
   writesG (.srai d a n) d (BitVec.ofInt 64 (x.toInt / 2 ^ n.toNat)) s ∧
   writesG (.roli d a n) d ((x <<< n.toNat) ||| (x >>> (64 - n.toNat))) s) ∧
  writesG (.movi d j) d (BitVec.ofInt 64 j.toInt) s ∧
  (∃ v : Word, writesG (.movm d j) d v s ∧ v.setWidth 20 = o.setWidth 20 ∧ (v >>> 20).setWidth 20 = j ∧
    ∀ i, 40 ≤ i → i < 64 → v.getLsbD i = j.getLsbD 19) ∧
  ∃ v : Word, writesG (.movh d j) d v s ∧ v.setWidth 40 = o.setWidth 40 ∧ (v >>> 40).setWidth 20 = j ∧
    ∀ i, 60 ≤ i → i < 64 → v.getLsbD i = j.getLsbD 19

/-- 06 R167, R168: compares set a predicate by the condition of their code, and the predicate instructions combine
predicates; a write naming k0 is discarded. -/
def Obligations.ComparesAndPredicates : Prop := ∀ (s : State) (k m n : BitVec 4) (d a b : BitVec 6) (i : BitVec 12),
  let x := s.g a
  (∀ (c : BitVec 4) (y : Word) (ins : Instr),
    (ins = .cmp k c a b ∧ y = s.g b) ∨ (ins = .cmpi k c a i ∧ y = i.signExtend 64) →
    (c = 0 → writesK ins k (decide (x = y)) s) ∧ (c = 1 → writesK ins k (decide (x ≠ y)) s) ∧
    (c = 2 → writesK ins k (decide (x.toInt < y.toInt)) s) ∧ (c = 3 → writesK ins k (decide (x.toInt ≤ y.toInt)) s) ∧
    (c = 4 → writesK ins k (decide (x.toInt > y.toInt)) s) ∧ (c = 5 → writesK ins k (decide (x.toInt ≥ y.toInt)) s) ∧
    (c = 6 → writesK ins k (decide (x.toNat < y.toNat)) s) ∧ (c = 7 → writesK ins k (decide (x.toNat ≤ y.toNat)) s) ∧
    (c = 8 → writesK ins k (decide (x.toNat > y.toNat)) s) ∧ (c = 9 → writesK ins k (decide (x.toNat ≥ y.toNat)) s)) ∧
  (writesK (.kand k m n) k (s.k m && s.k n) s ∧ writesK (.kor k m n) k (s.k m || s.k n) s ∧
   writesK (.kxor k m n) k (s.k m != s.k n) s ∧ writesK (.kandn k m n) k (s.k m && !s.k n) s ∧
   writesK (.kset k a) k (decide (x ≠ 0)) s ∧ writesG (.kget d m) d (if s.k m then 1 else 0) s ∧
   writesG (.sel d a b n) d (if s.k n then x else s.g b) s)

/-- 06 R169: the pointer instructions, field by field. -/
def Obligations.PointerInstructions : Prop := ∀ (s : State) (d a b : BitVec 6),
  let x := s.g a
  let y := s.g b
  (∃ v : Word, writesG (.ptag d a b) d v s ∧ wf v 48 16 = wf y 0 16 ∧ wf v 0 48 = wf x 0 48) ∧
  writesG (.pspace d a) d (BitVec.ofNat 64 (wf x 60 4)) s ∧
  writesG (.prank d a) d (BitVec.ofNat 64 (wf x 48 12)) s ∧
  (∃ v : Word, writesG (.padd d a b) d v s ∧ wf v 48 16 = wf x 48 16 ∧ wf v 0 48 = (wf x 0 48 + y.toNat) % 2 ^ 48) ∧
  (let fields := 0x0E * 2 ^ 26 + d.toNat * 2 ^ 20 + a.toNat * 2 ^ 14
   encode (.ptag d a b) = some (.s, fields + b.toNat * 2 ^ 8 + 0) ∧ encode (.pspace d a) = some (.s, fields + 1) ∧
   encode (.prank d a) = some (.s, fields + 2) ∧ encode (.padd d a b) = some (.s, fields + b.toNat * 2 ^ 8 + 3))

/-- 05 R138, 06 R172, R178, R179, R189, R191-R193, R197: operand values and delay slots that are illegal take the precise fault
ILLEGAL_INSTR, and so does a word that no row takes, except at U level in major 0x3F (R204).
Where the spec leaves a point open the statement follows the model's choice: log entries 30 and 48. -/
def Obligations.IllegalForms : Prop := ∀ (s : State) (d a b e : BitVec 6) (k c : BitVec 4) (n : Bool) (j : BitVec 21)
    (i : BitVec 12) (sc : BitVec 3) (en : BitVec 2) (o : BitVec 16) (w : BitVec 32) (or2 : BitVec 2),
  let ill := fun x => faults x cILLEGAL_INSTR s
  (2 < b.toNat → ill (.sext d a b)) ∧ (9 < c.toNat → ill (.cmp k c a b) ∧ ill (.cmpi k c a i)) ∧
  (4 < sc.toNat → ill (.fence sc or2) ∧ ill (.waita e a b sc) ∧
    (∀ x ∈ [Instr.aadd or2 d a b sc, .aand or2 d a b sc, .aor or2 d a b sc, .axor or2 d a b sc, .amin or2 d a b sc,
      .amax or2 d a b sc, .aminu or2 d a b sc, .amaxu or2 d a b sc, .aswap or2 d a b sc, .acas or2 d a b sc,
      .aload or2 d a sc, .astore or2 a b sc], ill x)) ∧
  (9 < e.toNat → ill (.waita e a b sc)) ∧ (2 < e.toNat → ill (.engwait a e) ∧ ill (.engseq d e)) ∧
  (3 < e.toNat → ill (.pwrreq e)) ∧ (56 < b.toNat → ill (.qpost d a b)) ∧ (60 < a.toNat → ill (.spawn a)) ∧
  (60 < d.toNat → ill (.brget d a)) ∧ (en = 3 → ill (.exec en n a o)) ∧ (60 < a.toNat → ill (.exec en n a o)) ∧
  (n = true → 59 < a.toNat → ill (.exec en n a o)) ∧
  (s.inSlot = true →
    ill (.br k n j) ∧ ill (.brl k n j) ∧ ill (.jr a) ∧ ill (.jrl d a) ∧ ill .yield ∧ ill .nend ∧ ill (.exec en n a o) ∧
    ill .eret ∧ ill (.tlbi en a) ∧ ill .halt ∧ ill .waitint) ∧
  (w.toNat / 2 ^ 26 ≠ 0x3F ∨ s.inSlot = true ∨ (s.har s.cur).level ≠ 0 → ill (.unassignedSEncoding w)) ∧
  (w.toNat / 2 ^ 26 = 0x3F → s.inSlot = false → (s.har s.cur).level = 0 →
    faults (.unassignedSEncoding w) cPRIV_INSTR s)

/-- 06 R170, R172, R173: a branch is followed by its delay slot, whose record of the branch holds its address, target and
decision; the instruction after the slot is the target where the branch was taken, else the one at branch + 8. A taken BRL
links; a branch not taken writes nothing. Not in a delay slot, where a branch is illegal. Any other instruction that completes
goes on at pc + 4, or, in a delay slot, where the branch before it goes.

06 R171: JR and JRL go to g(a) after their delay slot, JRL linking after it has read g(a); a target outside space 0 or
with an OWNER is BAD_SPACE, one that is no multiple of 4 MISALIGNED, precise at the jump.
Where the spec leaves a point open the statement follows the model's choice: log entry 50. -/
def Obligations.BranchesAndJumps : Prop :=
  (∀ (s : State) (k : BitVec 4) (n : Bool) (j : BitVec 21),
    s.inSlot = false →
    let q := (s.har s.cur).seq
    let taken := s.k k != n
    let target := BitVec.ofInt 64 (q.pc.toNat + 4 * j.toInt)
    (∃ t, exec (.br k n j) s = .next t ∧ onlySeq s.cur s t ∧
      (t.har s.cur).seq = { q with pc := q.pc + 4, ds := some ⟨q.pc, target, taken⟩, wait := {}, stalled := false } ∧
      (t.har s.cur).seq.advance.pc = if taken then target else q.pc + 8) ∧
    ∃ t, exec (.brl k n j) s = .next t ∧ onlySeq s.cur s t ∧
      (t.har s.cur).seq = { q with g := (t.har s.cur).seq.g, pc := q.pc + 4, ds := some ⟨q.pc, target, taken⟩, wait := {},
                                   stalled := false } ∧
      (∀ x, (t.har s.cur).seq.rg x = if x = 62 ∧ taken = true then q.pc + 8 else q.rg x) ∧
      (t.har s.cur).seq.advance.pc = if taken then target else q.pc + 8) ∧
  (∀ (s : State) (d a : BitVec 6),
    s.inSlot = false →
    let q := (s.har s.cur).seq
    let p := s.g a
    (wf p 48 16 ≠ 0 → faultsAt (.jr a) { code := cBAD_SPACE, addr := p, acc := accFetch } s ∧
      faultsAt (.jrl d a) { code := cBAD_SPACE, addr := p, acc := accFetch } s) ∧
    (wf p 48 16 = 0 → p.toNat % 4 ≠ 0 → faultsAt (.jr a) { code := cMISALIGNED, addr := p, acc := accFetch } s ∧
      faultsAt (.jrl d a) { code := cMISALIGNED, addr := p, acc := accFetch } s) ∧
    (wf p 48 16 = 0 → p.toNat % 4 = 0 →
      (∃ t, exec (.jr a) s = .next t ∧ onlySeq s.cur s t ∧
        (t.har s.cur).seq = { q with pc := q.pc + 4, ds := some ⟨q.pc, p, true⟩, wait := {}, stalled := false }) ∧
      ∃ t, exec (.jrl d a) s = .next t ∧ onlySeq s.cur s t ∧
        (t.har s.cur).seq = { q with g := (t.har s.cur).seq.g, pc := q.pc + 4, ds := some ⟨q.pc, p, true⟩, wait := {},
                                     stalled := false } ∧
        ∀ x, (t.har s.cur).seq.rg x = if x = d ∧ d ≠ 0 then q.pc + 8 else q.rg x)) ∧
  ∀ q : Seq, q.advance = { q with
    pc := match q.ds with
      | none => q.pc + 4
      | some b => if b.taken then b.target else b.branch + 8
    ds := none, wait := {}, stalled := false }

/-- 06 R174, R175; 04 R107, R109: a load or store whose checks pass, with room in the queues, takes its place at the end of
its queue with the place, size and extension of its row, and holds its scoreboard slot; a store captures the low bytes of
g(d), or all of it for a privileged register. A harness with 2048 requests outstanding stalls. A check that fails is a precise
fault and nothing else, and so is a load of a granule that delivers no byte (17 R408), where its bank serves it now; one that its
bank does not serve yet is judged when it does (17 R424). No granule holds a latent error where it completes.
Where the spec leaves a point open the statement follows the model's choice: log entries 24, 27 and 57. -/
def Obligations.LoadsAndStoresIssue : Prop := ∀ (s : State) (d a : BitVec 6) (i : BitVec 10) (sb : BitVec 4),
  let q := (s.har s.cur).seq
  let ea := fun n : Nat => BitVec.ofInt 64 ((s.g a).toNat + i.toInt * n)
  (∀ (ins : Instr) (n : Nat) (sext : Bool),
    (ins, n, sext) ∈ ([(.ldb d a i sb, 1, true), (.ldbu d a i sb, 1, false), (.ldh d a i sb, 2, true),
      (.ldhu d a i sb, 2, false), (.ldw d a i sb, 4, true), (.ldwu d a i sb, 4, false), (.ldd d a i sb, 8, false)] :
      List (Instr × Nat × Bool)) →
    let acc : SeqAcc := ⟨n, n, accRead, true, false, false, false⟩
    (∀ f, s.seqAccess s.cur (ea n) acc = .error f → faultsAt ins f s) ∧
    (∀ k c, s.seqAccess s.cur (ea n) acc = .ok (.mem k) → s.consumesN k n = some c →
      s.serves (loadAsker s.cur) k = true → faultsAt ins { code := c, addr := ea n, acc := accRead, gran := some k } s) ∧
    ∀ pl, s.seqAccess s.cur (ea n) acc = .ok pl →
      (∀ k, pl = .mem k → s.consumesN k n = none ∨ s.serves (loadAsker s.cur) k = false) →
      (outstanding (s.har s.cur) < 2048 → s.latent = [] → ∃ t, exec ins s = .next t ∧ onlyWord s.cur 0 0 s t ∧
        holdsSlot sb.toNat q (t.har s.cur).seq ∧ (t.har s.cur).seq = { q.advance with
          loadQ := q.loadQ ++ [⟨d, pl, n, sext, sb.toNat, q.epoch, ea n⟩], sbn := (t.har s.cur).seq.sbn }) ∧
      (2048 ≤ outstanding (s.har s.cur) → stalls ins s)) ∧
  ∀ (ins : Instr) (n : Nat),
    (ins, n) ∈ ([(.stb d a i sb, 1), (.sth d a i sb, 2), (.stw d a i sb, 4), (.std d a i sb, 8)] : List (Instr × Nat)) →
    let acc : SeqAcc := ⟨n, n, accWrite, false, true, true, false⟩
    (∀ f, s.seqAccess s.cur (ea n) acc = .error f → faultsAt ins f s) ∧
    ∀ pl, s.seqAccess s.cur (ea n) acc = .ok pl →
      (outstanding (s.har s.cur) < 2048 → s.latent = [] → ∃ t, exec ins s = .next t ∧ onlyWord s.cur 0 0 s t ∧
        holdsSlot sb.toNat q (t.har s.cur).seq ∧ (t.har s.cur).seq = { q.advance with
          storeQ := q.storeQ ++ [⟨match pl with
            | .mem k => .mem k (leBytes n (s.g d).toNat)
            | .reg m => .reg m (s.har s.cur).level (s.g d), sb.toNat, q.epoch⟩], sbn := (t.har s.cur).seq.sbn }) ∧
      (2048 ≤ outstanding (s.har s.cur) → stalls ins s)

/-- 02 R47, 14 R349; 17 R420; 18 R430: the checks of a load or store of every size in their order: spaces 6 to 14, a non-zero OWNER where a
space has none, a harness of another partition or a retired one in space 2 and an unbound port in space 4 are BAD_SPACE; a
tower offset of 2^26 or more and an index at or past RTLIM are BAD_ADDRESS; space 15 at U, a register of level F at S, and a
store to space 5 at U, are PRIV_SPACE, and an unassigned register number, or an access there of fewer than 8 bytes, is
BAD_ADDRESS; then the alignment; then a link that
is down is MEM_ERROR.
Where the spec leaves a point open the statement follows the model's choice: log entry 50. -/
def Obligations.AccessChecks : Prop := ∀ (s : State) (d a : BitVec 6) (i : BitVec 10) (sb : BitVec 4) (ld st : Instr) (n : Nat),
  (ld, st, n) ∈ ([(.ldb d a i sb, .stb d a i sb, 1), (.ldbu d a i sb, .stb d a i sb, 1), (.ldh d a i sb, .sth d a i sb, 2),
    (.ldhu d a i sb, .sth d a i sb, 2), (.ldw d a i sb, .stw d a i sb, 4), (.ldwu d a i sb, .stw d a i sb, 4),
    (.ldd d a i sb, .std d a i sb, 8)] : List (Instr × Instr × Nat)) →
  let p := BitVec.ofInt 64 ((s.g a).toNat + i.toInt * n)
  let own := owner p
  let loads := fun c => faultsAt ld { code := c, addr := p, acc := accRead } s
  let writes := fun c => faultsAt st { code := c, addr := p, acc := accWrite } s
  let both := fun c => loads c ∧ writes c
  (6 ≤ space p → space p ≤ 14 → both cBAD_SPACE) ∧ (space p = 0 → own ≠ 0 → both cBAD_SPACE) ∧
  (space p = 1 → 2 ^ 26 ≤ offset p → both cBAD_ADDRESS) ∧ (space p = 2 → s.ranks ≤ own → both cBAD_SPACE) ∧
  (space p = 2 → own < s.ranks → s.partOf own ≠ s.partOf s.cur ∨ (s.har own).ctl.retired = true → both cBAD_SPACE) ∧
  (space p = 2 → own < s.ranks → s.partOf own = s.partOf s.cur → (s.har own).ctl.retired = false →
    (2 ^ 26 ≤ offset p → both cBAD_ADDRESS) ∧ (offset p < 2 ^ 26 → offset p % n ≠ 0 → both cMISALIGNED)) ∧
  (space p = 3 → (own ≠ 0 → both cBAD_SPACE) ∧ (own = 0 → offset p % n ≠ 0 → both cMISALIGNED)) ∧
  (space p = 4 → 16 ≤ own ∨ s.portBound own (s.partOf s.cur) = false → both cBAD_SPACE) ∧
  (space p = 4 → own < 16 → s.portBound own (s.partOf s.cur) = true →
    (offset p % n ≠ 0 → both cMISALIGNED) ∧ (offset p % n = 0 → s.linkUp own = false → both cMEM_ERROR)) ∧
  (space p = 5 → own ≠ 0 → both cBAD_SPACE) ∧
  (space p = 5 → own = 0 → (s.part (s.partOf s.cur)).rtlim.toNat * 64 ≤ offset p → both cBAD_ADDRESS) ∧
  (space p = 5 → own = 0 → offset p < (s.part (s.partOf s.cur)).rtlim.toNat * 64 →
    ((s.har s.cur).level = 0 → writes cPRIV_SPACE) ∧
    (offset p % n ≠ 0 → loads cMISALIGNED ∧ ((s.har s.cur).level ≠ 0 → writes cMISALIGNED))) ∧
  (space p = 15 → own ≠ 0 → both cBAD_SPACE) ∧
  (space p = 15 → own = 0 →
    let num := offset p / 8
    let lv := (s.har s.cur).level
    (lv = 0 ∨ lv = 1 ∧ privLevel num = some true → both cPRIV_SPACE) ∧
    (lv ≠ 0 → privLevel num = none → both cBAD_ADDRESS) ∧
    ∀ f, privLevel num = some f → lv = 2 ∨ lv = 1 ∧ f = false →
      (n < 8 → both cBAD_ADDRESS) ∧ (n = 8 → offset p % 8 ≠ 0 → both cMISALIGNED)) ∧
  (space p = 0 → own = 0 → offset p % n ≠ 0 → both cMISALIGNED) ∧
  (space p = 1 → offset p < 2 ^ 26 → offset p % n ≠ 0 → both cMISALIGNED)

/-- 04 R109; 06 R174, R175; 02 R49: the oldest load of rank r performs when no access stands before a separation that precedes
it: g(d) takes the bytes at its place, extended as its row says, or the privileged register's value, usable in the next cycle, and
its slot is released; every byte of memory is as before. A load from a tower returns so 8 or 20 cycles later, the load that has
come first. A granule that delivers no byte any more is a fault of class 0 instead, its code that of the consumption (17 R424).

04 R109; 06 R174; 14 R349: the oldest store of rank r performs when no load stands before a separation that precedes it: its
bytes stand at its place and no other byte of memory changes, or its privileged register is written at the level of its issue,
and its slot is released.

06 R193; 15 R377; 17 R417: a SPAWN performs by enqueuing its record, or, in a replayable node, by joining those held until
NEND; while its record waits for room it stays.
Where the spec leaves a point open the statement follows the model's choice: log entries 5, 27, 48 and 57. -/
def Obligations.LoadReturnsAndStorePerforms : Prop :=
  (∀ (s : State) (r : Nat) (l : LoadReq) (rest : List LoadReq),
    let q := (s.har r).seq
    s.ev.a = r → q.loadQ = l :: rest → (∀ b ∈ q.back, s.mcc.toNat < b.at') →
    ((∃ w ∈ q.storeQ, w.epoch < l.epoch) ∨ (∃ b ∈ q.back, b.epoch < l.epoch) → exec .seqLoadReturn s = .next s) ∧
    ((∀ w ∈ q.storeQ, l.epoch ≤ w.epoch) → (∀ b ∈ q.back, l.epoch ≤ b.epoch) →
      let left := fun t : State =>
        (∀ m, (t.har r).seq.sbn.getD m 0 = q.sbn.getD m 0 - if m = l.sb ∧ l.sb ≠ 0 then 1 else 0) ∧
        (t.har r).seq = { q with g := (t.har r).seq.g, loadQ := rest, sbn := (t.har r).seq.sbn, ready := (t.har r).seq.ready }
      let returns := fun v : Word => ∃ t, exec .seqLoadReturn s = .next t ∧ onlyWord r 0 0 s t ∧ left t ∧
        (∀ x, (t.har r).seq.rg x = if x = l.d ∧ l.d ≠ 0 then v else q.rg x) ∧
        ∀ x, (t.har r).seq.ready.find x =
          if x = l.d.toNat ∧ l.d ≠ 0 then some (max (s.mcc.toNat + 1) (q.ready.getD x 0)) else q.ready.find x
      (∀ k, l.place = .mem k → l.size ∈ [1, 2, 4, 8] → (k / 2 ^ 60 = 4 → s.linkUp (owner l.ptr) = true) →
        (s.consumesN k l.size = none → calm (loadAsker r) k s →
          let n := leNat (memRead s.mem k l.size)
          let v := if l.sext ∧ 2 ^ (8 * l.size - 1) ≤ n then BitVec.ofInt 64 ((n : Int) - 2 ^ (8 * l.size)) else BitVec.ofNat 64 n
          (isTower k = false → returns v) ∧
          (isTower k = true → ∃ t, exec .seqLoadReturn s = .next t ∧ onlyWord r 0 0 s t ∧ (t.har r).seq =
            { q with loadQ := rest, back := q.back ++ [⟨l.d, v, l.sb, l.epoch, s.mcc.toNat + towerCycles k s⟩] })) ∧
        ∀ c, s.consumesN k l.size = some c → s.serves (loadAsker r) k = true → q.active = true →
          ∃ u, exec .seqLoadReturn s = .next (u.preciseF r { code := c, addr := l.ptr, gran := some k }) ∧ onlySeq r s u ∧
            left u ∧ ∀ x, (u.har r).seq.rg x = q.rg x) ∧
      (∀ k, l.place = .mem k → k / 2 ^ 60 = 4 → s.linkUp (owner l.ptr) = false → q.active = true →
        ∃ u, exec .seqLoadReturn s = .next (u.preciseF r { code := cMEM_ERROR, addr := l.ptr, acc := accRead }) ∧ onlySeq r s u ∧
          left u ∧ ∀ x, (u.har r).seq.rg x = q.rg x) ∧
      ∀ n, l.place = .reg n → returns (s.privRead r n))) ∧
  (∀ (s : State) (r : Nat) (l : LoadBack) (pre post : List LoadBack),
    let q := (s.har r).seq
    s.ev.a = r → q.back = pre ++ l :: post → (∀ b ∈ pre, s.mcc.toNat < b.at') → l.at' ≤ s.mcc.toNat →
    ∃ t, exec .seqLoadReturn s = .next t ∧ onlySeq r s t ∧
      (t.har r).seq =
        { q with g := (t.har r).seq.g, back := pre ++ post, sbn := (t.har r).seq.sbn, ready := (t.har r).seq.ready } ∧
      (∀ m, (t.har r).seq.sbn.getD m 0 = q.sbn.getD m 0 - if m = l.sb ∧ l.sb ≠ 0 then 1 else 0) ∧
      (∀ x, (t.har r).seq.rg x = if x = l.d ∧ l.d ≠ 0 then l.v else q.rg x) ∧
      ∀ x, (t.har r).seq.ready.find x =
        if x = l.d.toNat ∧ l.d ≠ 0 then some (max (s.mcc.toNat + 1) (q.ready.getD x 0)) else q.ready.find x) ∧
  (∀ (s : State) (r : Nat) (w : StoreWhat) (sb ep : Nat) (rest : List StoreReq),
    let q := (s.har r).seq
    let popped := fun t : State =>
      (∀ m, (t.har r).seq.sbn.getD m 0 = q.sbn.getD m 0 - if m = sb ∧ sb ≠ 0 then 1 else 0) ∧
      (t.har r).seq = { q with storeQ := rest, sbn := (t.har r).seq.sbn }
    s.ev.a = r → q.storeQ = ⟨w, sb, ep⟩ :: rest →
    ((∃ l ∈ q.loadQ, l.epoch < ep) ∨ (∃ b ∈ q.back, b.epoch < ep) → exec .seqStorePerform s = .next s) ∧
    ((∀ l ∈ q.loadQ, ep ≤ l.epoch) → (∀ b ∈ q.back, ep ≤ b.epoch) →
      (∀ k bytes, w = .mem k bytes → memOk s → (k / 2 ^ 60 = 4 → s.linkUp (peerPort k) = true) →
        calm (storeAsker r) k s → (∀ i, i < bytes.length → s.quarantined (k + i) = false) → bytes.length ≤ 8 →
        ∃ t, exec .seqStorePerform s = .next t ∧ memRead t.mem k bytes.length = bytes ∧ onlyWord r k bytes.length s t ∧
          popped t) ∧
      (∀ k bytes, w = .mem k bytes → k / 2 ^ 60 = 4 → s.linkUp (peerPort k) = false → q.active = true →
        ∃ u, exec .seqStorePerform s =
          .next (u.preciseF r { code := cMEM_ERROR, addr := peerPtr k, acc := accWrite }) ∧ onlySeq r s u ∧ popped u) ∧
      (∀ n lv v, w = .reg n lv v → ∃ u, exec .seqStorePerform s = .next (u.privWrite r n lv v) ∧ onlySeq r s u ∧ popped u) ∧
      (∀ lv v, w = .reg 0x102 lv v → ∃ t, exec .seqStorePerform s = .next t ∧ onlyHar r s t ∧ popped t ∧
        t.har r = { s.har r with seq := (t.har r).seq, sp := { (s.har r).sp with tscr0 := v } }) ∧
      ∀ c, w = .spawn c →
        (s.waits (.spawn r) = true → exec .seqStorePerform s = .next s) ∧
        (s.waits (.spawn r) = false →
          (∀ n, (s.har r).ctl.node = some n → launchRepl n.launch = true →
            ∃ t, exec .seqStorePerform s = .next t ∧ onlyHar r s t ∧ popped t ∧ t.har r = { s.har r with
              seq := (t.har r).seq, ctl := { (s.har r).ctl with node := some { n with held := n.held ++ [(s.mcc.toNat, c)] } } }) ∧
          ((∀ n, (s.har r).ctl.node = some n → launchRepl n.launch = false) →
            let u := (s.enqueue (dieOf r) c none false false (.spawn r)).1
            (u.waits (.spawn r) = true → exec .seqStorePerform s = .next u) ∧
            (u.waits (.spawn r) = false →
              ∃ t, exec .seqStorePerform s = .next t ∧ onlySeq r u t ∧ (t.har r).seq.storeQ = (u.har r).seq.storeQ.tail)))))

/-- 06 R176; 04 R108, R109, R115: QSYNC separates what follows from what stands in the queues without stalling; WAIT stalls
until every named slot is clear; FENCE stalls until every earlier load and store has completed; NOP does nothing.
Where the spec leaves a point open the statement follows the model's choice: log entry 48. -/
def Obligations.QueueControl : Prop := ∀ (s : State) (m : BitVec 15) (sc : BitVec 3) (o : BitVec 2),
  let q := (s.har s.cur).seq
  (∃ t, exec .qsync s = .next t ∧ onlySeq s.cur s t ∧
    (t.har s.cur).seq = { q.advance with epoch := q.epoch + 1 }) ∧
  ((∀ i, i < 15 → m.getLsbD i = true → q.sbn.getD (i + 1) 0 = 0) → onlyPasses (.wait m) s) ∧
  ((∃ i, i < 15 ∧ m.getLsbD i = true ∧ q.sbn.getD (i + 1) 0 ≠ 0) → stalls (.wait m) s) ∧
  (sc.toNat ≤ 4 → q.loadQ = [] → q.back = [] → q.storeQ = [] → onlyPasses (.fence sc o) s) ∧
  (sc.toNat ≤ 4 → (q.loadQ ≠ [] ∨ q.back ≠ [] ∨ q.storeQ ≠ []) → stalls (.fence sc o) s) ∧
  onlyPasses .nop s

/-- 06 R177: each atomic whose access passes its checks reads the word at g(a), writes what its row says, or nothing, and
delivers the old word to g(d) (ASTORE delivers nothing).

06 R194: JOIN decrements the word modulo 2^64 and reports whether the new value is 0.
Where the spec leaves a point open the statement follows the model's choice: log entries 27, 48 and 57. -/
def Obligations.Atomics : Prop :=
  (∀ (s : State) (o : BitVec 2) (d a b : BitVec 6) (sc : BitVec 3) (k : Nat),
    sc.toNat ≤ 4 → memOk s → (∀ i, i < 8 → s.quarantined (k + i) = false) →
    let q := (s.har s.cur).seq
    let old := s.wordAt k
    let y := s.g b
    let gets := fun (i : Instr) (v : Option Word) => ∃ t, putsWord i k v s t ∧ passed s t ∧ kSame s t ∧ gSameBut d s t ∧
      (t.har s.cur).seq.ready = q.ready ∧ (t.har s.cur).seq.rg d = if d = 0 then 0 else old
    (clear s (s.g a) ⟨8, 8, accAtomic, true, true, true, true⟩ k →
      gets (.aadd o d a b sc) (some (old + y)) ∧ gets (.aand o d a b sc) (some (old &&& y)) ∧
      gets (.aor o d a b sc) (some (old ||| y)) ∧ gets (.axor o d a b sc) (some (old ^^^ y)) ∧
      gets (.amin o d a b sc) (some (if old.toInt < y.toInt then old else y)) ∧
      gets (.amax o d a b sc) (some (if old.toInt < y.toInt then y else old)) ∧
      gets (.aminu o d a b sc) (some (if old.toNat < y.toNat then old else y)) ∧
      gets (.amaxu o d a b sc) (some (if old.toNat < y.toNat then y else old)) ∧
      gets (.aswap o d a b sc) (some y) ∧ gets (.acas o d a b sc) (if old = s.g d then some y else none) ∧
      ∃ t, putsWord (.astore o a b sc) k (some y) s t ∧ (t.har s.cur).seq = q.advance) ∧
    (clear s (s.g a) ⟨8, 8, accAtomic, true, true, false, true⟩ k → gets (.aload o d a sc) none)) ∧
  (∀ (s : State) (d : BitVec 4) (a : BitVec 6) (k : Nat),
    memOk s → (∀ i, i < 8 → s.quarantined (k + i) = false) → clear s (s.g a) ⟨8, 8, accAtomic, true, true, true, true⟩ k →
    let new := BitVec.ofNat 64 ((s.wordAt k).toNat + (2 ^ 64 - 1))
    ∃ t, putsWord (.join d a) k (some new) s t ∧ passed s t ∧
      (∀ x, (t.har s.cur).seq.rg x = (s.har s.cur).seq.rg x) ∧
      ∀ x, (t.har s.cur).seq.rk x = if x = d ∧ d ≠ 0 then decide (new = 0) else (s.har s.cur).seq.rk x)


/-- 06 R179; 04 R121, R125: WAITA completes when the word satisfies its condition against g(b), BARWAIT when PHASE differs
from bit 0 of g(b), and BARTEST sets k(d) by the same test; the two waits stall otherwise. What follows is separated as by
a QSYNC, and no byte of memory changes. After an access to a tower the sequencer issues again once it has returned (02 R49).

04 R122, R123, R126; 06 R179, R180: BARINIT writes word 0 with RELOAD = PEND = c, PHASE 0, BAL 0, and word 1 with zero.
BAREXP and BARARR update word 0 field by field with one test of the flip, and preserve RELOAD and bits 31:25. An update that
would leave the range of BAL, or an arrival with PEND = 0, is the precise fault BAR_OVERFLOW. -/
def Obligations.WaitsAndBarrierObjects : Prop :=
  (∀ (s : State) (c a b : BitVec 6) (d : BitVec 4) (sc : BitVec 3) (k : Nat),
    let q := (s.har s.cur).seq
    let w := s.wordAt k
    let phase := w.getLsbD 24 != (s.g b).getLsbD 0
    let goes := fun i => ∃ t, exec i s = .next t ∧ onlyWordTill s.cur 0 0 (issuesAgain k s) s t ∧
      (t.har s.cur).seq = { q.advance with epoch := q.epoch + 1 }
    (c.toNat ≤ 9 → sc.toNat ≤ 4 → clear s (s.g a) ⟨8, 8, accRead, true, false, true, true⟩ k →
      if condHolds c.toNat w (s.g b) then goes (.waita c a b sc) else stalls (.waita c a b sc) s) ∧
    (clear s (s.g a) ⟨16, 16, accRead, true, false, true, true⟩ k →
      (if phase then goes (.barwait a b) else stalls (.barwait a b) s) ∧
      ∃ t, exec (.bartest d a b) s = .next t ∧ onlyWordTill s.cur 0 0 (issuesAgain k s) s t ∧
        (t.har s.cur).seq = { q.advance with epoch := q.epoch + 1, k := (t.har s.cur).seq.k } ∧
        ∀ x, (t.har s.cur).seq.rk x = if x = d ∧ d ≠ 0 then phase else q.rk x)) ∧
  (∀ (s : State) (a b : BitVec 6) (k : Nat),
    memOk s → (∀ i, i < 16 → s.quarantined (k + i) = false) → clear s (s.g a) ⟨16, 16, accAtomic, true, true, true, true⟩ k →
    let q := (s.har s.cur).seq
    let w := s.wordAt k
    let fields := fun (v : Word) (pend : Nat) (bal : Int) =>
      let flip := pend = 0 ∧ bal = 0
      barReload v = barReload w ∧ wf v 25 7 = wf w 25 7 ∧ barPend v = (if flip then barReload w else pend) ∧
        barPhase v = (if flip then !barPhase w else barPhase w) ∧ barBal v = bal
    (∃ t, exec (.barinit a b) s = .next t ∧ onlyWordTill s.cur k 16 (issuesAgain k s) s t ∧ (t.har s.cur).seq = q.advance ∧
      barReload (t.wordAt k) = wf (s.g b) 0 16 ∧ barPend (t.wordAt k) = wf (s.g b) 0 16 ∧ wf (t.wordAt k) 0 32 = 0 ∧
      t.wordAt (k + 8) = 0) ∧
    (let n := (s.g b).toNat
     if n < 2 ^ 23 ∧ barBal w + n < 2 ^ 23 then
       ∃ t v, putsWord (.barexp a b) k (some v) s t ∧ (t.har s.cur).seq = q.advance ∧ fields v (barPend w) (barBal w + n)
     else faults (.barexp a b) cBAR_OVERFLOW s) ∧
    (if barPend w = 0 then faults (.bararr a) cBAR_OVERFLOW s
     else ∃ t v, putsWord (.bararr a) k (some v) s t ∧ (t.har s.cur).seq = q.advance ∧
       fields v (barPend w - 1) (barBal w)))


/-- 14 R346; 16 R397, R398: a precise fault writes its record at the level entered, with class 0, the code (which fills STATUS
too), the pc or the branch of a delay slot, FRZ while the engines are frozen, the pointer where its code names one, MCC and
FRAME; then PREV, CUR and the pc. At F, or where the record cannot be translated, the harness halts.
Where the spec leaves a point open the statement follows the model's choice: log entry 31. -/
def Obligations.ExceptionEntry : Prop := ∀ (s : State) (r : Nat) (f : Fail),
  (∀ ks, recordable r ks s →
    entered r ks (seqRecord r 0 f.code 0 (BitVec.ofNat 64 f.code) (if f.code ∈ [cBAD_SPACE, cBAD_ADDRESS, cMISALIGNED,
      cXLATE_FAULT, cPOISON, cMEM_ERROR] then f.addr else 0) f.kind f.level f.acc s) s (s.precise r f)) ∧
  (2 ≤ (s.har r).level ∨ s.latent = [] ∧
      (∃ e, s.devKeys (s.partOf r) (s.recordAt r ((s.har r).level + 1)) 128 needW accWrite = .error e ∧ e.gran = none) →
    onlyHar r s (s.precise r f) ∧ ((s.precise r f).har r).ctl = { (s.har r).ctl with halted := true } ∧
    ((s.precise r f).har r).seq.active = false ∧ ((s.precise r f).har r).sp = (s.har r).sp)

/-- 06 R203; 16 R398: TRAP and BREAK enter the supervisor with their classes and the code in ARG; the record names the
instruction, or the branch of a delay slot, and has FRZ while the engines are frozen; STATUS is zero. At F the harness halts.
Where the spec leaves a point open the statement follows the model's choice: log entry 31. -/
def Obligations.TrapAndBreak : Prop := ∀ (s : State) (c : BitVec 20),
  let r := s.cur
  (∀ ks, recordable r ks s →
    (∃ t, exec (.trap c) s = .next t ∧ entered r ks (seqRecord r 2 cTRAP c.toNat 0 0 0 0 0 s) s t) ∧
    ∃ t, exec (.brk c) s = .next t ∧ entered r ks (seqRecord r 3 cBREAK c.toNat 0 0 0 0 0 s) s t) ∧
  (2 ≤ (s.har r).level → ∀ i ∈ [Instr.trap c, .brk c], ∃ t, exec i s = .next t ∧ onlyHar r s t ∧
    (t.har r).ctl = { (s.har r).ctl with halted := true } ∧ (t.har r).seq.active = false ∧ (t.har r).sp = (s.har r).sp)

/-- 06 R182-R187; 04 R127, R128: each Bugle instruction of a member. BGARR counts an arrival in the next cycle once earlier
loads and stores have completed, and stalls while the state is arrived; BGWAIT stalls only while the instance at which this
node arrived is open; BGBAR is the one and then, from its second cycle on, the other; BGSEND queues its value, one send a
group at a time, those of one cycle by rank; BGRECV takes the oldest value, or raises BG_OVERRUN before it takes one; BGTIME
gives, at the end of its cycle, the cycle in which a send of this harness would be delivered. The group is the one that g(a)
names at issue, also while the instruction waits. A harness that is no member faults with BG_NOT_MEMBER.
Where the spec leaves a point open the statement follows the model's choice: log entries 28 and 63. -/
def Obligations.BugleInstructions : Prop :=
  (∀ (s : State) (d a b : BitVec 6),
  let r := s.cur
  let q := (s.har r).seq
  let g := if a = 0 then (s.har r).sp.defgrp.toNat else (s.g a).toNat % 256
  let m := (s.har r).member g
  let k := if q.wait.stage = 1 then q.wait.v.toNat else g
  let w := (s.har r).member k
  let key := 256 * s.partOf r + g
  let waitsOn := fun i => ∃ t, exec i s = .next t ∧ onlySeq r s t ∧
    (t.har r).seq = { q with stalled := true, wait := { stage := 1, v := BitVec.ofNat 64 k } }
  let sent : Send := ⟨s.partOf r, g, r, s.g b, s.mcc.toNat⟩
  let before := fun x : Send => decide (x.cycle < s.mcc.toNat) || (x.cycle == s.mcc.toNat && decide (x.rank < r))
  let arrives := fun t : State => t = { s with hs := t.hs, bugle := { s.bugle with arrive := t.bugle.arrive } } ∧
    t.bugle.arrive.getD key [] = s.bugle.arrive.getD key [] ++ [(r, s.mcc.toNat + 1)] ∧
    (t.har r).member g = { m with arrived := true, own := true } ∧ memSame s t ∧
    (∀ x, x ≠ r → t.har x = s.har x) ∧ t.har r = { s.har r with seq := (t.har r).seq, bg := (t.har r).bg }
  (s.isMember g = false → ∀ i ∈ [Instr.bgarr a, .bgsend a b, .bgtime d a], faults i cBG_NOT_MEMBER s) ∧
  (s.isMember k = false → ∀ i ∈ [Instr.bgbar a, .bgwait a, .bgrecv d a], faults i cBG_NOT_MEMBER s) ∧
  (s.isMember g = true →
    (s.drained = true → m.arrived = false →
      (∃ t, exec (.bgarr a) s = .next t ∧ arrives t ∧ (t.har r).seq = q.advance) ∧
      (q.wait.stage = 0 → ∃ t, exec (.bgbar a) s = .next t ∧ arrives t ∧
        (t.har r).seq = { q with wait := { stage := 1, v := BitVec.ofNat 64 g } })) ∧
    (s.drained = false ∨ m.arrived = true → stalls (.bgarr a) s ∧ (q.wait.stage = 0 → stalls (.bgbar a) s)) ∧
    (if s.bugle.sends.any (fun x => x.rank == r && x.group == g && x.part == s.partOf r) then stalls (.bgsend a b) s
     else ∃ t, exec (.bgsend a b) s = .next t ∧ t.har r = { s.har r with seq := q.advance } ∧
       (∀ x, x ≠ r → t.har x = s.har x) ∧ t = { s with hs := t.hs, bugle := { s.bugle with
         sends := s.bugle.sends.filter before ++ [sent] ++ s.bugle.sends.filter fun x => !before x } }) ∧
    ∃ t, exec (.bgtime d a) s = .next t ∧ t.har r = { s.har r with seq := q.advance } ∧
      (∀ x, x ≠ r → t.har x = s.har x) ∧
      t = { s with hs := t.hs, bugle := { s.bugle with asks := s.bugle.asks ++ [(r, g, d)] } }) ∧
  (s.isMember k = true →
    (w.arrived = true → w.own = true → waitsOn (.bgwait a) ∧ (q.wait.stage ≠ 0 → stalls (.bgbar a) s)) ∧
    (w.arrived = false ∨ w.own = false → ∀ i, i = .bgwait a ∨ (i = .bgbar a ∧ q.wait.stage ≠ 0) →
      ∃ t, exec i s = .next t ∧ onlySeq r s t ∧ (t.har r).seq = { q.advance with epoch := q.epoch + 1 }) ∧
    (w.overrun = true → exec (.bgrecv d a) s =
      .next ((s.modHar r fun h => h.modMember k fun m => { m with overrun := false }).preciseC r cBG_OVERRUN)) ∧
    (w.overrun = false → w.queue = [] → waitsOn (.bgrecv d a)) ∧
    ∀ v rest, w.overrun = false → w.queue = v :: rest → ∃ t, exec (.bgrecv d a) s = .next t ∧ onlyHar r s t ∧
      (t.har r).member k = { w with queue := rest } ∧ passed s t ∧ kSame s t ∧ gSameBut d s t ∧
      (t.har r).seq.rg d = if d = 0 then 0 else v)) ∧
  ∀ (s : State) (r g : Nat) (d : BitVec 6) (pre post : List (Nat × Nat × BitVec 6)),
    s.bugle.asks = pre ++ (r, g, d) :: post → (∀ x ∈ pre ++ post, x.1 ≠ r) →
    let t := s.tellTimes
    let q := (t.har r).seq
    let ahead := s.bugle.sends.filter fun x =>
      x.part == s.partOf r && x.group == g && (decide (x.cycle < s.mcc.toNat) || decide (x.rank < r))
    t = { s with hs := t.hs, bugle := { s.bugle with asks := [] } } ∧
      t.har r = { s.har r with seq := { (s.har r).seq with g := q.g } } ∧
      ∃ c, s.mcc.toNat < c ∧ c ≤ s.mcc.toNat + 16 ∧ c % 16 = g % 16 ∧ ∀ x, q.rg x =
        if x = d ∧ d ≠ 0 then BitVec.ofNat 64 (c + 16 * ahead.length + s.groupLatency (s.partOf r) g)
        else (s.har r).seq.rg x

/-- 01 R16, R19; 04 R117; 06 R188-R190: EXEC captures block offset, four arguments, the stamp when timed, k0 to k7, SEED and
DEFGRP, and the separations that stand before it, and its command joins the engine's queue; it stalls at the slip bound, until the cycle after the oldest command has retired, and while the engines are frozen. ENGWAIT compares the
completion counter with g(a) in signed 32 bits; ENGSEQ reads the counter; FRAMEGO makes FRAME read 0 in the next cycle.
Where the spec leaves a point open the statement follows the model's choice: log entry 56. -/
def Obligations.EngineControl : Prop := ∀ (s : State) (e : Eng) (n : Bool) (d a x : BitVec 6) (o : BitVec 16),
  let r := s.cur
  let h := s.har r
  let q := h.seq
  let en : BitVec 2 := match e with
    | .v => 0
    | .d => 1
    | .t => 2
  let arg := fun i : Nat => q.rg (BitVec.ofNat 6 (a.toNat + i))
  x.toNat = en.toNat →
  (s.inSlot = false → a.toNat ≤ (if n then 59 else 60) →
    (h.ctl.frozen = true → stalls (.exec en n a o) s) ∧
    (h.ctl.frozen = false → h.ctl.issued - h.oldest < (s.part (s.partOf r)).slip.toNat → q.wait.stage ≠ 1 →
      ∃ t c, exec (.exec en n a o) s = .next t ∧ onlyHar r s t ∧
        t.har r = { h.setEng e { h.eng e with queue := (h.eng e).queue ++ [c] } with
          seq := q.advance, ctl := { h.ctl with issued := h.ctl.issued + 1 } } ∧
        c.age = h.ctl.issued ∧ c.off = o.toNat ∧ c.a0 = arg 0 ∧ c.a1 = arg 1 ∧ c.a2 = arg 2 ∧ c.a3 = arg 3 ∧
        c.timed = n ∧ (n = true → c.stamp = arg 4) ∧ c.seed = h.sp.seed ∧ c.defgrp = h.sp.defgrp ∧ c.sep = q.epoch ∧
        c.dropped = false ∧
        ∀ i, i < 8 → c.k.getLsbD i = q.rk (BitVec.ofNat 4 i)) ∧
    (h.ctl.frozen = false → (s.part (s.partOf r)).slip.toNat ≤ h.ctl.issued - h.oldest →
      ∃ t, exec (.exec en n a o) s = .next t ∧ onlySeq r s t ∧
        (t.har r).seq = { q with stalled := true, wait := { stage := 1 } }) ∧
    (h.ctl.frozen = false → h.ctl.issued - h.oldest < (s.part (s.partOf r)).slip.toNat → q.wait.stage = 1 →
      ∃ t, exec (.exec en n a o) s = .next t ∧ onlySeq r s t ∧
        (t.har r).seq = { q with stalled := true, wait := { stage := 2 } })) ∧
  (let diff := (h.eng e).ctr - (s.g a).setWidth 32
   (0 ≤ diff.toInt → onlyPasses (.engwait a x) s) ∧ (diff.toInt < 0 → stalls (.engwait a x) s)) ∧
  writesG (.engseq d x) d (BitVec.ofNat 64 (h.eng e).ctr.toNat) s ∧
  ∃ t, exec .framego s = .next t ∧ onlyHar r s t ∧
    t.har r = { h with seq := q.advance, sp := { h.sp with frameGo := true } } ∧ (t.har r).endCycle.sp.frame = 0

/-- 06 R191; 15 R381, R382: PWRREQ at or below the class held only passes; above it the harness's request stands in the
queue of its die's governor, by arrival and of one cycle by rank, and the instruction stalls; the governor grants its head request when the pool allows, and the
grant replaces the lower one; PWRREL returns the class. -/
def Obligations.PowerGrants : Prop := ∀ (s : State) (n : BitVec 6),
  let r := s.cur
  let d := dieOf r
  (n.toNat ≤ 3 → n.toNat ≤ (s.har r).ctl.pwr → onlyPasses (.pwrreq n) s) ∧
  (n.toNat ≤ 3 → (s.har r).ctl.pwr < n.toNat → ∃ t, exec (.pwrreq n) s = .next t ∧
    t = { s with hs := t.hs, dies := t.dies } ∧ (t.har r).seq = { (s.har r).seq with stalled := true } ∧
    (t.har r).ctl = (s.har r).ctl ∧
    (t.die d).gov.queue = if (s.die d).gov.queue.any (fun x => x.1 == r) then (s.die d).gov.queue
      else
        let now := s.mcc.toNat + 1
        let before := fun x : Nat × Nat × Nat => decide (x.2.2 < now) || (x.2.2 == now && decide (x.1 < r))
        (s.die d).gov.queue.filter before ++ [(r, n.toNat, now)] ++ (s.die d).gov.queue.filter fun x => !before x) ∧
  (∃ t, exec .pwrrel s = .next t ∧ t = { s with hs := t.hs, dies := t.dies } ∧ (t.har r).ctl.pwr = 0 ∧
    (t.har r).seq = (s.har r).seq.advance) ∧
  ∀ (e m arr : Nat) (rest : List (Nat × Nat × Nat)), s.ev.a = dieOf e →
    let g := (s.die (dieOf e)).gov.settle s.mcc.toNat
    g.queue = (e, m, arr) :: rest → arr ≤ s.mcc.toNat →
    g.used - classCost (s.har e).ctl.pwr + classCost m ≤ s.pool (dieOf e) →
    ∃ t, exec .powerGrant s = .next t ∧ t = { s with hs := t.hs, dies := t.dies } ∧
      (t.har e).ctl = { (s.har e).ctl with pwr := m } ∧ (t.har e).seq = (s.har e).seq ∧
      (t.die (dieOf e)).gov.queue = rest ∧
      (t.die (dieOf e)).gov.used = g.used - classCost (s.har e).ctl.pwr + classCost m

/-- 06 R192: QPOST reads SZ, then claims the index at WRIDX by adding 1 to it; once RDIDX leaves room it writes words 1 to 7
of its slot and then word 0 with the tag, and delivers the index. A full queue stalls it, the index kept. SZ of 0 or above 16
is BAD_QUEUE and claims nothing.

06 R193; 04 R107: SPAWN places the record of g(a) to g(a+3) in the store queue, and stalls with 2048 requests outstanding.
Where the spec leaves a point open the statement follows the model's choice: log entries 24 and 28. -/
def Obligations.PostsAndSpawns : Prop :=
  (∀ (s : State) (d a b : BitVec 6) (k3 k0 : Nat),
    let r := s.cur
    let q := (s.har r).seq
    let hdr := s.g a
    b.toNat ≤ 56 → memOk s →
    (q.wait.stage = 0 → s.drained = true → wf hdr 48 16 = 0 → offset hdr % 64 = 0 →
      s.postKey (hdr + 24) postRead = .ok k3 →
      let sz := wf (s.wordAt k3) 0 5
      (sz = 0 ∨ 16 < sz → faults (.qpost d a b) cBAD_QUEUE s) ∧
      (1 ≤ sz → sz ≤ 16 → s.postKey hdr postAtomic = .ok k0 → s.latent = [] → (∀ i, i < 8 → s.quarantined (k0 + i) = false) →
        ∃ u, exec (.qpost d a b) s = .next (u.postSlot d b hdr (s.wordAt k0) sz) ∧ u.wordAt k0 = s.wordAt k0 + 1 ∧
          onlyWord r k0 8 s u ∧ (u.har r).seq = q)) ∧
    ∀ (idx : Word) (sz k1 : Nat), q.wait = { stage := 1, v := idx, list := [sz] } →
      s.postKey (hdr + 8) postRead = .ok k1 →
      (2 ^ sz ≤ (idx - s.wordAt k1).toNat → ∃ t, exec (.qpost d a b) s = .next t ∧ onlySeq r s t ∧
        (t.har r).seq = { q with stalled := true }) ∧
      ((idx - s.wordAt k1).toNat < 2 ^ sz →
        let w := fun i : Nat => q.rg (BitVec.ofNat 6 (b.toNat + i))
        let tag : Word := BitVec.ofNat 64 ((idx.toNat + 1) % 2 ^ 32 * 2 ^ 32 + (w 0).toNat % 2 ^ 32)
        let slot := hdr + BitVec.ofNat 64 (64 * (1 + idx.toNat % 2 ^ sz))
        -- the slot stands at k, whatever it holds
        ∀ k, k % 64 = 0 → (∀ i, i < 64 → s.quarantined (k + i) = false) →
          (∀ (m : List Host.Cell) g i, (∀ x, x < k ∨ k + 64 ≤ x → memGet m x = memGet s.mem x) → i < 8 →
            ({ s with mem := m, tagger := g } : State).postKey (slot + BitVec.ofNat 64 (8 * i)) postWrite = .ok (k + 8 * i)) →
          ∃ t, exec (.qpost d a b) s = .next t ∧ t = { s with hs := t.hs, mem := t.mem, tagger := t.tagger } ∧
            memRead t.mem k 64 = wordBytes [tag, w 1, w 2, w 3, w 4, w 5, w 6, w 7] ∧ memSameBut k 64 s t ∧
            t.tagger.find k = some (s.asPoster r) ∧ (∀ x, x ≠ r → t.har x = s.har x) ∧
            t.har r = { s.har r with seq := (t.har r).seq } ∧ passed s t ∧ kSame s t ∧ gSameBut d s t ∧
            (t.har r).seq.rg d = if d = 0 then 0 else idx)) ∧
  (∀ (s : State) (a : BitVec 6),
    let q := (s.har s.cur).seq
    let w := fun i : Nat => q.rg (BitVec.ofNat 6 (a.toNat + i))
    a.toNat ≤ 60 →
    (outstanding (s.har s.cur) < 2048 → ∃ t, exec (.spawn a) s = .next t ∧ onlySeq s.cur s t ∧
      (t.har s.cur).seq = { q.advance with storeQ := q.storeQ ++ [⟨.spawn ⟨w 0, w 1, w 2, w 3⟩, 0, q.epoch⟩] }) ∧
    (2048 ≤ outstanding (s.har s.cur) → stalls (.spawn a) s))


/-- 06 R195-R197; 02 R57, R59, R61: BRLD checks the entry that its handle names (valid and of its generation, owned, permitted,
no reserved bit set) and the record in it, field by field; where its span is pinned too, commands issued from then on have the
record, and commands issued before keep what they had; BRFREE unloads it in the same way; BRGET reads the four
words into g(d) to g(d+3). An index at or past RTLIM is BAD_ADDRESS, an unloaded record BAD_BUFREC. No granule holds a latent
error where the table is read.
Where the spec leaves a point open the statement follows the model's choice: log entries 10 and 50. -/
def Obligations.BufferRecords : Prop := ∀ (s : State) (d a : BitVec 6) (e : Entry) (pins : List Leaf),
  let r := s.cur
  let h := s.har r
  let q := h.seq
  let v := s.g a
  let idx := wf v 12 20
  let older := fun t : State => ∀ n age, h.oldest ≤ age → (n ≠ d.toNat ∨ age < h.ctl.issued) →
    (t.har r).recAt n age = h.recAt n age
  (s.drained = true →
    (wf v 32 32 ≠ 0 ∨ (s.part (s.partOf r)).rtlim.toNat ≤ idx → faults (.brld d a) cBAD_ADDRESS s) ∧
    (wf v 32 32 = 0 → idx < (s.part (s.partOf r)).rtlim.toNat → s.latent = [] → s.tableEntry r idx = .ok e →
      let x := fun lo n => wf e.w4 lo n
      let live := x 16 1 = 1 ∧ x 0 12 = wf v 0 12
      let mine := x 24 1 = 1 ∨ x 25 9 = r
      let open' := x 17 1 = 1 ∨ x 18 1 = 1
      let plain := x 34 30 = 0 ∧ x 21 3 = 0 ∧ x 12 4 = 0
      -- ROF is forced where the entry gives no write permission
      let w3 := if x 18 1 = 0 then e.w3 ||| 2 ^ 59 else e.w3
      let nr := decide (x 17 1 = 0)
      (¬live → faults (.brld d a) cSTALE_HANDLE s) ∧
      (live → ¬(mine ∧ open') → faults (.brld d a) cNO_PERMISSION s) ∧
      (live → mine → open' → ¬(plain ∧ recordSound e.w0 e.w1 e.w2 e.w3) → faults (.brld d a) cBAD_BUFREC s) ∧
      (live → mine → open' → plain → recordSound e.w0 e.w1 e.w2 e.w3 →
        (∀ f, s.recPins r (recOf e.w0 e.w1 e.w2 w3) nr = .error f → faultsAt (.brld d a) f s) ∧
        (s.recPins r (recOf e.w0 e.w1 e.w2 w3) nr = .ok pins →
          ∃ t, exec (.brld d a) s = .next t ∧ onlyHar r s t ∧
            t.har r = { h with seq := q.advance, recs := (t.har r).recs } ∧ older t ∧
            ∃ b, (t.har r).recNow d.toNat = some b ∧ b.w0 = e.w0 ∧ b.w1 = e.w1 ∧ b.w2 = e.w2 ∧ b.w3 = w3 ∧
              b.nr = nr ∧ b.pins = pins))) ∧
    (∀ f, wf v 32 32 = 0 → idx < (s.part (s.partOf r)).rtlim.toNat → s.latent = [] → s.tableEntry r idx = .error f →
      faultsAt (.brld d a) f s)) ∧
  (∃ t, exec (.brfree d) s = .next t ∧ onlyHar r s t ∧ t.har r = { h with seq := q.advance, recs := (t.har r).recs } ∧
    (t.har r).recNow d.toNat = none ∧ older t) ∧
  (h.recNow a.toNat = none → d.toNat ≤ 60 → faults (.brget d a) cBAD_BUFREC s) ∧
  ∀ b, h.recNow a.toNat = some b → d.toNat ≤ 60 → ∃ t, exec (.brget d a) s = .next t ∧ onlySeq r s t ∧ passed s t ∧
    kSame s t ∧ (t.har r).seq.rg d = (if d = 0 then 0 else b.w0) ∧ (t.har r).seq.rg (d + 1) = b.w1 ∧
    (t.har r).seq.rg (d + 2) = b.w2 ∧ (t.har r).seq.rg (d + 3) = b.w3 ∧
    ∀ x, x ∉ [d, d + 1, d + 2, d + 3] → (t.har r).seq.rg x = q.rg x

/-- 05 R133, R134; 06 R198; 14 R349: MFS reads and MTS writes the special registers below 0x100 at issue; a write to a
read-only one is dropped; reserved numbers are illegal. A number of the privileged space is PRIV_SPACE at U, and enters the
load or store queue where the level may access it, or stalls with 2048 requests outstanding.
Where the spec leaves a point open the statement follows the model's choice: log entry 24. -/
def Obligations.SpecialRegisters : Prop := ∀ (s : State) (d a : BitVec 6) (n : BitVec 12),
  let r := s.cur
  let h := s.har r
  let q := h.seq
  let p := h.sp
  let v := s.g a
  (∀ m w, (m, w) ∈ [(0x000, s.mcc), (0x001, p.frame), (0x002, BitVec.ofNat 64 r), (0x004, (1 : Word)),
      (0x005, BitVec.ofNat 64 p.vflag.toNat), (0x006, BitVec.ofNat 64 p.dflag.toNat), (0x007, p.seed),
      (0x008, BitVec.ofNat 64 p.defgrp.toNat), (0x009, p.fref), (0x00A, p.dalrt), (0x00B, p.dboff)] →
    n.toNat = m → writesG (.mfs d n) d w s) ∧
  (n = 0x003 → s.variant = .m4 → writesG (.mfs d n) d 0x10813 s) ∧
  (n = 0x003 → s.variant = .m2 → writesG (.mfs d n) d 0x10408 s) ∧
  (∀ m x, (m, x) ∈ [(0x005, { p with vflag := v.setWidth 6 }), (0x006, { p with dflag := v.setWidth 6 }),
      (0x007, { p with seed := v }), (0x008, { p with defgrp := v.setWidth 8 }), (0x000, p), (0x001, p), (0x002, p),
      (0x003, p), (0x004, p), (0x009, p), (0x00A, p), (0x00B, p)] →
    n.toNat = m → ∃ t, exec (.mts a n) s = .next t ∧ onlyHar r s t ∧ t.har r = { h with seq := q.advance, sp := x }) ∧
  (0x00C ≤ n.toNat → n.toNat < 0x100 → faults (.mfs d n) cILLEGAL_INSTR s ∧ faults (.mts a n) cILLEGAL_INSTR s) ∧
  (0x100 ≤ n.toNat →
    let at' := BitVec.ofNat 64 (15 * 2 ^ 60 + 8 * n.toNat)
    (h.level = 0 → faultsAt (.mfs d n) { code := cPRIV_SPACE, addr := at', acc := accRead } s ∧
      faultsAt (.mts a n) { code := cPRIV_SPACE, addr := at', acc := accWrite } s) ∧
    (h.level = 1 → privLevel n.toNat = some true →
      faultsAt (.mfs d n) { code := cPRIV_SPACE, addr := at', acc := accRead } s ∧
      faultsAt (.mts a n) { code := cPRIV_SPACE, addr := at', acc := accWrite } s) ∧
    (h.level ≠ 0 → privLevel n.toNat = none →
      faultsAt (.mfs d n) { code := cBAD_ADDRESS, addr := at', acc := accRead } s ∧
      faultsAt (.mts a n) { code := cBAD_ADDRESS, addr := at', acc := accWrite } s) ∧
    ∀ f, privLevel n.toNat = some f → (h.level = 2 ∨ (h.level = 1 ∧ f = false)) →
      (outstanding h < 2048 →
        (∃ t, exec (.mfs d n) s = .next t ∧ onlySeq r s t ∧
          (t.har r).seq = { q.advance with loadQ := q.loadQ ++ [⟨d, .reg n.toNat, 8, false, 0, q.epoch, at'⟩] }) ∧
        ∃ t, exec (.mts a n) s = .next t ∧ onlySeq r s t ∧
          (t.har r).seq = { q.advance with storeQ := q.storeQ ++ [⟨.reg n.toNat h.level v, 0, q.epoch⟩] }) ∧
      (2048 ≤ outstanding h → stalls (.mfs d n) s ∧ stalls (.mts a n) s))

/-- 06 R199, R200; 02 R64, R65: TREF queues the refresh of banks g(a) to g(b) behind those before it and holds its slot;
numbers above 15 are BAD_ADDRESS; a bank in a forced refresh counts as refreshed (17 R421). TREFQ reads the least remaining time
of the harness's banks, a bank that nothing has refreshed having the deadline of reset.
Where the spec leaves a point open the statement follows the model's choice: log entry 8. -/
def Obligations.RefreshInstructions : Prop := ∀ (s : State) (n : BitVec 4) (d a b : BitVec 6),
  let r := s.cur
  let h := s.har r
  let lo := (s.g a).toNat
  let hi := (s.g b).toNat
  let now := s.mcc.toNat
  (15 < lo ∨ 15 < hi → faults (.tref n a b) cBAD_ADDRESS s) ∧
  (lo ≤ 15 → hi ≤ 15 → ∃ t f, exec (.tref n a b) s = .next t ∧ onlyHar r s t ∧
    t.har r = { h with seq := (t.har r).seq, tref := h.tref ++ [⟨List.range' lo (hi + 1 - lo), none, n.toNat, f⟩] } ∧
    (∀ k, k ∈ f ↔ k < 256 ∧ lo ≤ k % 16 ∧ k % 16 ≤ hi ∧ (h.bank k).st = .forced) ∧
    holdsSlot n.toNat h.seq (t.har r).seq ∧ (t.har r).seq = { h.seq.advance with sbn := (t.har r).seq.sbn }) ∧
  ∃ m : Int, writesG (.trefq d) d (BitVec.ofInt 64 m) s ∧ (∀ kb ∈ h.banks, m ≤ (kb.2.deadline : Int) - now) ∧
    (h.banks.length < 256 → m ≤ (h.dl0 : Int) - now) ∧
    ((∃ kb ∈ h.banks, m = (kb.2.deadline : Int) - now) ∨ m = (h.dl0 : Int) - now)

/-- 06 R187, R201; 01 R39, R40, R43; 15 R376: YIELD waits until queues, slots and engines are quiet; with the line low it only
restarts the watchdog count. With the line high it waits for the node's sends and arrivals, writes the context below FP, queues
the continuation again as saved, returns the grant, unloads the records, lowers the line and leaves the harness without a node.
In a gang it waits for the other members first, and goes on with its line lowered where one has ended, whatever sends and arrivals
are open. In a harness without a node it only waits.

06 R202; 01 R34, R445: NEND waits for queues, engines and sends; it decrements its successors and its join counter, its entry
becomes FREE, and the harness is left without a node. A join counter that cannot be accessed is a precise fault.
Where the spec leaves a point open the statement follows the model's choice: log entries 29, 32, 60 and 61. -/
def Obligations.NodeEnds : Prop := ∀ (s : State),
  let r := s.cur
  let h := s.har r
  let q := h.seq
  let gone := fun t : State => (t.har r).ctl.node = none ∧ (t.har r).recs = [] ∧ (t.har r).ctl.pwr = 0 ∧
    (t.har r).ctl.line = false ∧ (t.har r).seq.active = false
  let quiet' := h.quiesced = true ∧ q.sbClear = true
  s.inSlot = false →
  (h.ctl.node = none →
    (quiet' → onlyPasses .yield s) ∧ (¬quiet' → stalls .yield s) ∧
    (h.quiesced = true → s.sendsGone r = true → ∃ t, exec .nend s = .next t ∧ gone t ∧ memSame s t) ∧
    (h.quiesced = false ∨ s.sendsGone r = false → stalls .nend s)) ∧
  ∀ n : Node, h.ctl.node = some n → n.ending = 0 →
  (h.ctl.abort.isSome = true ∨ q.wait.stage = 0 ∧ ¬quiet' → stalls .yield s) ∧
  (h.ctl.abort = none →
    (q.wait.stage = 0 → quiet' → h.ctl.line = false → ∃ t, exec .yield s = .next t ∧ onlyHar r s t ∧
      t.har r = { h with seq := q.advance, ctl := { h.ctl with node := some { n with count := 0 } } }) ∧
    (quiet' → h.ctl.line = true →
      (n.gang = none → s.sendsGone r = false ∨ h.arrivalsDone = false → ∃ t, exec .yield s = .next t ∧ onlySeq r s t ∧
        (t.har r).seq = { q with stalled := true, wait := { stage := 1 } }) ∧
      (n.gang = none → s.sendsGone r = true → h.arrivalsDone = true → s.latent = [] → memOk s → s.waits (.yield r) = false →
        let bytes := h.saveBytes (q.pc + 4)
        let d := s.queueDie (dieOf r) (s.partOf r) n.cont
        ∀ ks l, s.devKeys (s.partOf r) (saveAt n.cont.fp) bytes.length needW accWrite = .ok ks → ks.Nodup →
          (∀ k ∈ ks, s.quarantined k = false) →
          (∀ u, s.devWrite (s.partOf r) (saveAt n.cont.fp) bytes needW = .ok u → u.checkLaunch (s.partOf r) n.cont = .ok l) →
          (∀ x ∈ (s.die d).sched.late, x.1.cont.prio ≠ n.cont.prio) → (s.die d).sched.chipCount n.cont.prio < 256 →
          (s.die d).sched.ringCount n.cont.prio = 0 →
          ∃ t x, exec .yield s = .next t ∧ gone t ∧ ks.map (memGet t.mem) = bytes ∧
            (∀ a, a ∉ ks → memGet t.mem a = memGet s.mem a) ∧ (∀ k, k ≠ r → t.har k = s.har k) ∧
            (t.die d).sched.ready = (s.die d).sched.ready ++ [x] ∧ x.cont = n.cont ∧ x.launch = l ∧ x.gid = n.gid ∧
            x.saved = true ∧ x.replay = false ∧ x.chip = true ∧ x.u = s.mcc.toNat ∧
            x.held = if n.held = [] then [] else [(r, n.held)]) ∧
      ∀ g, s.gangOf r = some g → g.saving = false →
        (g.live.length < g.members.length → ∃ t, exec .yield s = .next t ∧ onlyHar r s t ∧ t.har r = { h with
          seq := q.advance, ctl := { h.ctl with line := false, node := some { n with count := 0 } } }) ∧
        (g.members.length ≤ g.live.length → (∃ m ∈ g.live, m ≠ r ∧ m ∉ g.atYield) →
          ∃ t, exec .yield s = .next t ∧ t = { s with hs := t.hs, gangs := t.gangs } ∧ (∀ k, k ≠ r → t.har k = s.har k) ∧
            t.har r = { h with seq := { q with stalled := true, wait := { stage := 1 } } } ∧
            ∀ g', t.gang g.id = some g' → r ∈ g'.atYield ∧ g'.saving = false))) ∧
  (h.ctl.abort.isSome = true ∨ h.quiesced = false ∨ s.sendsGone r = false → stalls .nend s) ∧
  (h.ctl.abort = none → h.quiesced = true → s.sendsGone r = true →
    (∀ f, n.cont.join ≠ 0 → s.seqAccess r n.cont.join joinAcc = .error f → faultsAt .nend f s) ∧
    (n.gang = none → n.held = [] → s.waits (.nend r) = false →
      let succ := s.successors n.gid
      let tab := fun (u : State) (g : Nat) => (u.die (g / 4096)).sched.tab
      (∀ d, Table.sorted (s.die d).sched.tab = true) → succ.Nodup →
      (∀ g ∈ succ, some g ≠ n.gid ∧ g / 4096 < s.nDies ∧ s.partOfDie (g / 4096) = s.partOf r ∧
        ∃ e, (tab s g).find (g % 4096) = some e ∧ 2 ≤ e.ctr) →
      let ended := fun t : State => gone t ∧ (∀ k, k ≠ r → (t.har k).seq = (s.har k).seq) ∧
        (∀ g ∈ succ, ∀ e, (tab s g).find (g % 4096) = some e → (tab t g).find (g % 4096) = some { e with ctr := e.ctr - 1 }) ∧
        ∀ g, n.gid = some g → (tab t g).find (g % 4096) = none
      (n.cont.join = 0 → ∃ t, exec .nend s = .next t ∧ ended t ∧ memSame s t) ∧
      ∀ k, n.cont.join ≠ 0 → s.seqAccess r n.cont.join joinAcc = .ok (.mem k) → s.consumesN k 8 = none →
        calm s.issuer k s → memOk s → (∀ i, i < 8 → s.quarantined (k + i) = false) →
        ∃ t, exec .nend s = .next t ∧ ended t ∧ memSameBut k 8 s t ∧ t.wordAt k = s.wordAt k - 1))

/-- 06 R204; 14 R345, R347; 16 R393: at U, outside a delay slot, every instruction of major 0x3F is PRIV_INSTR. At S and F
HALT stops the harness, WAITINT returns on the harness of SUPRANK while a message is unconsumed and stalls otherwise, and
TLBI removes every cached translation of its region from every harness of the partition and from no other, and completes once
the pins on the region that stood then are gone. -/
def Obligations.PrivilegedInstructions : Prop := ∀ (s : State) (sz : BitVec 2) (n : BitVec 6),
  let r := s.cur
  let h := s.har r
  let va := s.g n
  let bitsOf : Nat := if sz = 0 then 16 else if sz = 1 then 25 else if sz = 2 then 34 else 48
  let lo := offset va / 2 ^ bitsOf * 2 ^ bitsOf
  s.inSlot = false →
  (h.level = 0 → ∀ i ∈ [Instr.eret, .tlbi sz n, .halt, .waitint], faults i cPRIV_INSTR s) ∧
  (h.level ≠ 0 →
    (∃ t, exec .halt s = .next t ∧ onlyHar r s t ∧ (t.har r).ctl = { h.ctl with halted := true } ∧
      (t.har r).seq = { h.seq.advance with active := false }) ∧
    ((s.part (s.partOf r)).suprank.toNat = r → s.intPending (s.partOf r) = true → onlyPasses .waitint s) ∧
    ((s.part (s.partOf r)).suprank.toNat ≠ r ∨ s.intPending (s.partOf r) = false → stalls .waitint s) ∧
    (sz = 3 → n ≠ 0 → faults (.tlbi sz n) cILLEGAL_INSTR s) ∧
    (sz ≠ 3 → wf va 48 16 ≠ 0 → faultsAt (.tlbi sz n) { code := cBAD_SPACE, addr := va } s) ∧
    ((sz = 3 ∧ n = 0) ∨ (sz ≠ 3 ∧ wf va 48 16 = 0) → h.seq.wait.stage = 0 →
      s.pinHolders (s.partOf r) lo (2 ^ bitsOf) = [] →
      ∃ t, exec (.tlbi sz n) s = .next t ∧ t = { s with hs := t.hs } ∧ (t.har r).seq = h.seq.advance ∧
        (∀ k x, t.hs.find k = some x → s.partOf k = s.partOf r → ∀ l ∈ x.tlb, l.overlaps lo (2 ^ bitsOf) = false) ∧
        ∀ k, s.partOf k ≠ s.partOf r → t.har k = s.har k) ∧
    ((sz = 3 ∧ n = 0) ∨ (sz ≠ 3 ∧ wf va 48 16 = 0) → h.seq.wait.stage = 0 →
      s.pinHolders (s.partOf r) lo (2 ^ bitsOf) ≠ [] →
      ∃ t, exec (.tlbi sz n) s = .next t ∧ t = { s with hs := t.hs } ∧ (t.har r).seq = { h.seq with
          stalled := true, wait := { stage := 1, list := s.pinHolders (s.partOf r) lo (2 ^ bitsOf) } } ∧
        ∀ k x, t.hs.find k = some x → s.partOf k = s.partOf r → ∀ l ∈ x.tlb, l.overlaps lo (2 ^ bitsOf) = false) ∧
    ((sz = 3 ∧ n = 0) ∨ (sz ≠ 3 ∧ wf va 48 16 = 0) → h.seq.wait.stage ≠ 0 →
      (∀ x ∈ h.seq.wait.list, x ∉ s.pinHolders (s.partOf r) lo (2 ^ bitsOf)) → onlyPasses (.tlbi sz n) s))

/-- 14 R346; 16 R401; 06 R173, R203: ERET at S or F reads the record of its level; the level becomes PREV and PREV 0. For
classes 0, 4 and 6 it resumes at the pc of the record, in its delay slot where DS is set, or past it for ACTION 1; for TRAP
and BREAK always past it. After class 1, 4 or 5 the harness goes on in cycle max(RMCC, e + 1), its engines frozen until then.
A fault that stands pending enters the supervisor again where the level becomes U (16 R406).

Of the engine that a class 1 record names, ACTION 0 changes nothing; ACTION 1 lets the word in issue take the effect of a false
guard, passes over a word whose fetch failed, drops a decode's subtraction or a load over a link that failed late, or retires a
block that SCHED_MISS kept from starting, in its turn; ACTION 2 makes the block of a SCHED_MISS untimed. ACTION 3, or an abort that has fallen due meanwhile (17 R415), ends the
node: engines, queues, bits, claims and records are dropped, the level is U, and the die counts the abort.
Where the spec leaves a point open the statement follows the model's choice: log entries 18 and 55. -/
def Obligations.ReturnsFromException : Prop := ∀ (s : State) (bs : List Byte),
  let r := s.cur
  let h := s.har r
  let ws := bytesWords bs
  let w0 := ws.getD 0 0
  let cls := wf w0 0 4
  let pc := ws.getD 1 0
  let status := ws.getD 7 0
  let action := wf (ws.getD 12 0) 0 2
  let past : Word := if wf w0 5 1 = 1 then (if wf w0 6 1 = 1 then ws.getD 2 0 else pc + 8) else pc + 4
  s.inSlot = false → h.level ≠ 0 → s.devRead (s.partOf r) (s.recordAt r h.level) 128 needR = .ok bs → s.latent = [] →
  (action ≠ 3 → h.ctl.abort = none → h.ctl.bf = none →
    ∃ t, exec .eret s = .next t ∧ onlyHar r s t ∧
      t.har r = { h with
        sp := { h.sp with cur := h.sp.prev, prev := 0 }
        seq := { h.seq with pc := (t.har r).seq.pc, ds := (t.har r).seq.ds, wait := {}, stalled := false }
        ctl := { h.ctl with
          resume := if cls = 1 ∨ cls = 4 ∨ cls = 5 then some (max (ws.getD 13 0).toNat (s.mcc.toNat + 1)) else h.ctl.resume
          node := if cls = 4 then h.ctl.node.map fun n : Node => { n with count := 0 } else h.ctl.node }
        ve := (t.har r).ve, de := (t.har r).de, te := (t.har r).te } ∧
      (cls = 2 ∨ cls = 3 ∨ (action = 1 ∧ cls ≠ 1 ∧ cls ≠ 5) → (t.har r).seq.pc = past ∧ (t.har r).seq.ds = none) ∧
      (cls ≠ 2 → cls ≠ 3 → (action ≠ 1 ∨ cls = 1 ∨ cls = 5) → wf w0 5 1 = 0 →
        (t.har r).seq.pc = pc ∧ (t.har r).seq.ds = none) ∧
      (cls ≠ 2 → cls ≠ 3 → (action ≠ 1 ∨ cls = 1 ∨ cls = 5) → wf w0 5 1 = 1 →
        (t.har r).seq.pc = pc + 4 ∧ (t.har r).seq.ds = some ⟨pc, ws.getD 2 0, decide (wf w0 6 1 = 1)⟩) ∧
      ∀ e : Eng,
        let x := h.eng e
        let y := (t.har r).eng e
        let heard := fun l : List Pend => l.map fun p => { p with lost := false }
        let miss := wf status 0 16 = cSCHED_MISS
        let unstarted := miss ∧ (wf status 16 4 = 1 ∨ wf status 16 4 = 2)
        (¬(cls = 1 ∧ wf w0 10 2 = engCode e) → y = x) ∧
        (cls = 1 → wf w0 10 2 = engCode e →
          (action = 0 ∨ action = 2 ∧ ¬miss → y = { x with late := false, pend := heard x.pend }) ∧
          (action = 1 → ¬unstarted →
            (x.late = false → (∀ b, x.blk = some b → b.fetched = true) →
              y = { x with pend := heard x.pend, skip := true, tbLeft := none }) ∧
            (∀ b, x.late = false → x.blk = some b → b.fetched = false →
              y = { x with pend := heard x.pend, blk := some { b with holes := wf (ws.getD 4 0) 0 32 :: b.holes } }) ∧
            ∀ pre p post, x.late = true → x.pend = pre ++ p :: post →
              (∀ k ∈ pre, ¬(k.isFree = true ∧ (k.effs = [] ∨ k.lost = true))) → p.isFree = true → p.effs = [] ∨ p.lost = true →
              y = { x with late := false, pend := heard (pre ++ post) }) ∧
          (action = 1 → unstarted → x.late = false → ∀ c rest, x.queue = c :: rest →
            (x.blk.isSome = false → y = { x with pend := heard x.pend, queue := rest, ended := x.ended ++ [c] }) ∧
            (x.blk.isSome = true → y = { x with pend := heard x.pend, queue := { c with dropped := true } :: rest })) ∧
          (action = 2 → unstarted → ∀ c rest, x.queue = c :: rest →
            y = { x with late := false, pend := heard x.pend, queue := { c with timed := false } :: rest }) ∧
          (action = 2 → miss → ¬unstarted → y = { x with late := false, pend := heard x.pend, blk := x.blk.map fun b =>
            { b with cmd := { b.cmd with timed := false } } }))) ∧
  (∀ b ks, action ≠ 3 → h.ctl.abort = none → h.ctl.bf = some b → h.sp.prev = 0 → ∃ u, onlyHar r s u ∧
    (u.har r).sp = { h.sp with cur := 0, prev := 0 } ∧ (u.har r).ctl.resume = none ∧
    (u.har r).ctl.bf = h.ctl.owner.head? ∧ exec .eret s = .next (u.takeTrap r b.trap) ∧
    (recordable r ks u → entered r ks (trapWords b.trap (u.har r) s.mcc) u (u.takeTrap r b.trap))) ∧
  (action = 3 ∨ (∃ c, h.ctl.abort = some c ∧ c ≤ s.mcc.toNat) → h.seq.storeQ = [] →
    ∃ t, exec .eret s = .next t ∧
      (let u := t.har r
       u.ctl.node = none ∧ u.ctl.abort = none ∧ u.ctl.frozen = false ∧ u.ctl.pwr = 0 ∧ u.ctl.line = h.ctl.line ∧
       u.seq.active = false ∧ u.seq.loadQ = [] ∧ u.seq.back = [] ∧ u.recs = [] ∧ u.claim = 0 ∧ u.feV = 0 ∧ u.feS = 0 ∧ u.feA = 0 ∧
       u.sp.cur = 0 ∧ u.sp.prev = 0 ∧
       ∀ e : Eng, (u.eng e).queue = [] ∧ (u.eng e).blk = none ∧ (u.eng e).ended = [] ∧ (u.eng e).pend = []) ∧
      (t.die (dieOf r)).cnt.getD 5 0 = (s.die (dieOf r)).cnt.getD 5 0 + 1 ∧
      ∀ n g, h.ctl.node = some n → n.gang = none → n.ending = 0 → n.gid = some g → launchRepl n.launch = false →
        (∀ d, Table.sorted (s.die d).sched.tab = true) → (t.die (g / 4096)).sched.tab.find (g % 4096) = none)

/-! ### The V engine -/

/-- 01 R18; 05 R139, R140; 16 R398-R400: a word whose guard is false does nothing: whichever V, D or T instruction it is, it
occupies its issue cycles, as many as under a true guard, and the block goes on with the next word; or the word is illegal (or
exceeds a register, 07 R206), and it faults as it does under any guard, its block and engine as they were and the engines frozen.
A DMMA still waits for the dot array (08 R246). -/
def Obligations.FalseGuard : Prop := ∀ (s : State) (v : VWord) (d : DWord) (m : MWord) (t : TWord) (b : Block) (g : BitVec 3)
    (n : Bool),
  let inner := ∀ l ∈ b.loops, l.last ≠ b.pc
  let h := s.har s.cur
  -- i has a false guard, i' is the same word with a true one
  let ok := fun (e : Eng) (i i' : Instr) =>
    (∃ occ, 1 ≤ occ ∧ exec i s = .next (s.finishWord e occ) ∧
      ∀ u, exec i' s = .next u → ((u.eng e).blk.map (·.pc)) = some (b.pc + 1) → inner →
        (u.eng e).busy = (s.eng e).cyc + occ) ∨
    ∃ c ∈ [cILLEGAL_INSTR, cVL_RANGE], exec i s = .next (s.blockFaultC e c) ∧ exec i' s = .next (s.blockFaultC e c)
  (∀ e occ c, (s.eng e).blk = some b →
    (inner → onlyHar s.cur s (s.finishWord e occ) ∧ (s.finishWord e occ).har s.cur = h.setEng e { s.eng e with
      blk := some { b with pc := b.pc + 1 }, busy := (s.eng e).cyc + occ, skip := false, rows := [] }) ∧
    onlyHar s.cur s (s.blockFaultC e c) ∧ ∃ f, (s.blockFaultC e c).har s.cur = { h.setEng e { s.eng e with
      stalled := true, rows := [] } with ctl := { h.ctl with frozen := true, bf := some f } } ∧
      (h.ctl.bf = none → f.cls = 1 ∧ f.code = c ∧ f.eng = engCode e ∧ f.age = b.cmd.age ∧ f.boff = b.cmd.off ∧ f.epc = b.pc ∧
        f.status = BitVec.ofNat 64 c ∧ f.addr = 0 ∧ f.fmcc = s.mcc ∧ f.fframe = h.sp.frame)) ∧
  (b.guard g n = true →
  ((s.eng .v).blk = some b → (s.eng .v).skip = false → b.guard v.gk v.gn = false →
    ∀ f ∈ [Instr.vadd, .vsub, .vmul, .vfma, .vmin, .vmax, .vmulh, .vabsd, .vdot4, .vdot2, .vadds, .vsubs, .vmuls, .vfmas,
      .vmins, .vmaxs, .vrcpe, .vrsqe, .vrcp, .vrsq, .vsqrt, .vexp2, .vlog2, .vexp, .vlog, .vsinp, .vcosp, .vtanh, .verf,
      .vdiv, .vcmp, .vclass, .vsel, .vand, .vor, .vxor, .vnot, .vshl, .vshr, .vsra, .vcvt, .vpack, .vunpk, .vquant, .vdeq,
      .vbmax, .vrsum, .vrmax, .vrmin, .vrssq, .vscan, .vpart, .viota, .vperm, .vgath, .vscat, .vmov, .vsplat, .vbcst, .vextr,
      .vins, .vsetl, .vcadd], ok .v (f v) (f { v with gk := g, gn := n })) ∧
  ((s.eng .d).blk = some b → (s.eng .d).skip = false →
    (b.guard d.gk d.gn = false → ∀ f ∈ [Instr.dclaim, .drel, .dzero, .dfill, .dread, .dcvt, .dlds, .dldt, .dscl, .dtbl,
      .dseek, .ddec, .dstat, .dcadd], ok .d (f d) (f { d with gk := g, gn := n })) ∧
    (b.guard m.gk m.gn = false →
      ((s.eng .d).array ≤ (s.eng .d).cyc → ok .d (.dmma m) (.dmma { m with gk := g, gn := n })) ∧
      ((s.eng .d).cyc < (s.eng .d).array → mmaBad m = false → exec (.dmma m) s = .next s))) ∧
  ((s.eng .t).blk = some b → (s.eng .t).skip = false → b.guard t.gk t.gn = false →
    ∀ f ∈ [Instr.tld, .tst, .tlds, .tgath, .tscat, .tshift, .txsend, .txrecv, .tspst, .tspld, .tbarr, .tatom, .teadd, .temov,
      .txch], ok .t (f t) (f { t with gk := g, gn := n })))

/-- 07 R207, R213, R214; 05 R152; 03 R72, R81, R83, R84: the arithmetic and scalar forms. The word issues with latency 6 on
floating and 2 on integer types; element k of the result is the operation on elements k of the operands (a scalar form takes the low
bits of its c register as second operand), rounded or narrowed once, and VFLAG gains the flags that its elements raise. On
integer types without modifiers, clamp or exponent the element is the result modulo 2 to the width, and no flag is raised.
Where the spec leaves a point open the statement follows the model's choice: log entry 64. -/
def Obligations.VectorArithmetic : Prop := ∀ (s : State) (w : VWord) (b : Block) (i : Instr) (o : ArOp) (sc : Bool),
  let h := s.har s.cur
  let size := (vT w).size
  let vl := h.vl.toNat
  (i, o, sc) ∈ [(Instr.vadd w, ArOp.add, false), (.vsub w, .sub, false), (.vmul w, .mul, false), (.vfma w, .fma, false),
    (.vmin w, .min, false), (.vmax w, .max, false), (.vmulh w, .mulh, false), (.vabsd w, .absd, false),
    (.vadds w, .add, true), (.vsubs w, .sub, true), (.vmuls w, .mul, true), (.vfmas w, .fma, true),
    (.vmins w, .min, true), (.vmaxs w, .max, true)] →
  vBad w (arUse o sc) s.lf64 = false → extRound w = true → vl * size ≤ 2048 →
  ready .v b w.gk w.gn (vTakes w) (vFill w) s →
  let x := fun cell k => element h cell w.va.toNat size k
  let y := fun cell k => if sc then (h.vc.getD w.vb.toNat 0).toNat % 2 ^ (8 * size) else element h cell w.vb.toNat size k
  let z := fun cell k => if o = .fma then element h cell w.vc.toNat size k else 0
  vLands i w b (if vIsF w then 6 else 2) (occupancy vl (arSize w)) (if vSr w then 1 else 0) size (fun cell k =>
    arElem w o (vRandom (s.eng .v).seed b.j cell k) (x cell k) (y cell k) (z cell k)) s ∧
  (∀ t, vT w = .f t → ∀ r x y z,
    let v := fun c neg abs => (Num.ofCode t c).modify neg abs
    arElem w o r x y z = dest w t (vMode w) r (o.float (vMode w) (v x w.na w.aa) (v y w.nb w.ab) (v z w.nc w.ac))) ∧
  ∀ t, vT w = .i t → w.p = 0 → w.clamp = 0 → w.na = false → w.aa = false → w.nb = false → w.ab = false → w.nc = false →
    w.ac = false → ∀ r x y z, (arElem w o r x y z).2 = 0 ∧ (arElem w o r x y z).1 =
      ((match o with
        | .add => t.ofCode x + t.ofCode y
        | .sub => t.ofCode x - t.ofCode y
        | .mul => t.ofCode x * t.ofCode y
        | .fma => t.ofCode x * t.ofCode y + t.ofCode z
        | .min => min (t.ofCode x) (t.ofCode y)
        | .max => max (t.ofCode x) (t.ofCode y)
        | .mulh => t.ofCode x * t.ofCode y / 2 ^ t.w
        | .absd => |t.ofCode x - t.ofCode y|) % 2 ^ t.w).toNat

/-- 07 R215, R216; 03 R96, R98, R99: the dot products, the functions and the seeds issue with the latencies of 05 R152 (4 for
VDOT4 and seeds, 6 for VDOT2, 14 for functions); each element is the exact value rounded once in the type, with the flags of
the operation and of the rounding, the integer dot product of four pairs and an addend without modifiers wrapping.
Where the spec leaves a point open the statement follows the model's choice: log entry 54. -/
def Obligations.VectorFunctions : Prop := ∀ (s : State) (w : VWord) (b : Block),
  let h := s.har s.cur
  let size := (vT w).size
  let vl := h.vl.toNat
  let x := fun n cell k => element h cell w.va.toNat n k
  let y := fun n cell k => element h cell w.vb.toNat n k
  let z := fun n cell k => element h cell w.vc.toNat n k
  ready .v b w.gk w.gn (vTakes w) (vFill w) s →
  (vBad w (dotUse 5) s.lf64 = false → w.ext = 0 → 4 * vl ≤ 2048 → w.p = 0 → w.clamp = 0 →
    vLands (.vdot4 w) w b 4 (occupancy vl 4) 0 4 (fun cell k =>
      let p := fun l => (BitVec.ofNat 8 (x 4 cell k / 2 ^ (8 * l))).toInt * (BitVec.ofNat 8 (y 4 cell k / 2 ^ (8 * l))).toInt
      ((BitVec.ofInt 32 ((BitVec.ofNat 32 (z 4 cell k)).toInt + p 0 + p 1 + p 2 + p 3)).toNat, 0)) s) ∧
  (vBad w (dotUse 1) s.lf64 = false → w.ext = 0 → 4 * vl ≤ 2048 →
    vLands (.vdot2 w) w b 6 (occupancy vl 4) 0 4 (fun cell k =>
      dest w Num.fp32 .rne 0 (dot2 (x 4 cell k) (y 4 cell k) (z 4 cell k))) s) ∧
  ∀ t, vT w = .f t → vl * size ≤ 2048 →
    let a := fun cell k => (Num.ofCode t (x size cell k)).modify w.na w.aa
    let c := fun cell k => (Num.ofCode t (y size cell k)).modify w.nb w.ab
    let lands := fun (i : Instr) (fn : Num.Val → Num.Val → Num.Val × Num.Flags) =>
      vLands i w b 14 (occupancy vl (arSize w)) (if vSr w then 1 else 0) size (fun cell k =>
        dest w t (vMode w) (vRandom (s.eng .v).seed b.j cell k) (fn (a cell k) (c cell k))) s
    (vBad w { types := tyF, b := .z, ma := true, cp := true } s.lf64 = false → extRound w = true →
      lands (.vrcp w) (fun a _ => Num.rcpVal a) ∧ lands (.vrsq w) (fun a _ => Num.rsqrt a) ∧
      lands (.vsqrt w) (fun a _ => Num.sqrt a) ∧ lands (.vexp2 w) (fun a _ => Num.exp2Val a) ∧
      lands (.vlog2 w) (fun a _ => Num.log2Val a) ∧ lands (.vexp w) (fun a _ => Num.expVal a) ∧
      lands (.vlog w) (fun a _ => Num.lnVal a) ∧ lands (.vsinp w) (fun a _ => Num.sinpiVal a) ∧
      lands (.vcosp w) (fun a _ => Num.cospiVal a) ∧ lands (.vtanh w) (fun a _ => Num.tanhVal a) ∧
      lands (.verf w) (fun a _ => Num.erfVal a)) ∧
    (vBad w { types := tyF, b := .v, ma := true, mb := true, cp := true } s.lf64 = false → extRound w = true →
      lands (.vdiv w) Sys2Proof.Num.div) ∧
    (vBad w { types := tyF, b := .z, ma := true } s.lf64 = false → w.ext.toNat < 8 →
      vLands (.vrcpe w) w b 4 (occupancy vl (arSize w)) 0 size
        (fun cell k => (Num.seedDest t (Num.rcpSeed (a cell k)).1, (Num.rcpSeed (a cell k)).2)) s ∧
      vLands (.vrsqe w) w b 4 (occupancy vl (arSize w)) 0 size
        (fun cell k => (Num.seedDest t (Num.rsqSeed (a cell k)).1, (Num.rsqSeed (a cell k)).2)) s)

/-- 07 R217-R221, R235: comparison, classification, selection, logic, shifts and VMOV act on the bits of the elements, with
latency 2, and VFLAG stays as it was; a shift amount counts modulo the width, and an unordered pair satisfies only NE and UN. -/
def Obligations.VectorBits : Prop := ∀ (s : State) (w : VWord) (b : Block),
  let h := s.har s.cur
  let ty := vT w
  let size := ty.size
  let n := ty.bits
  let vl := h.vl.toNat
  let x := fun cell k => element h cell w.va.toNat size k
  let y := fun cell k => element h cell w.vb.toNat size k
  let z := fun cell k => element h cell w.vc.toNat size k
  let lands := fun (i : Instr) (f : Nat → Nat → Nat) =>
    vLands i w b 2 (occupancy vl size) 0 size (fun cell k => (f cell k, 0)) s
  ready .v b w.gk w.gn (vTakes w) (vFill w) s → vl * size ≤ 2048 →
  (vBad w { types := tyA, ma := true, mb := true } s.lf64 = false →
    (∀ t, ty = .f t → w.ext.toNat ≤ 6 → lands (.vcmp w) fun cell k =>
      let a := (Num.ofCode t (x cell k)).modify w.na w.aa
      let c := (Num.ofCode t (y cell k)).modify w.nb w.ab
      if a.isNan ∨ c.isNan then (if w.ext = 1 ∨ w.ext = 6 then 1 else 0) else b2n (condF w.ext.toNat a c)) ∧
    (∀ t, ty = .i t → w.ext.toNat ≤ 5 → lands (.vcmp w) fun cell k =>
        let a := modInt w.na w.aa (t.ofCode (x cell k))
        let c := modInt w.nb w.ab (t.ofCode (y cell k))
        if (w.ext = 0 ∧ a = c) ∨ (w.ext = 1 ∧ a ≠ c) ∨ (w.ext = 2 ∧ a < c) ∨ (w.ext = 3 ∧ a ≤ c) ∨ (w.ext = 4 ∧ a > c) ∨
          (w.ext = 5 ∧ a ≥ c) then 1 else 0)) ∧
  (w.ext = 0 →
    (∀ t, ty = .f t → vBad w { types := tyF, b := .z } s.lf64 = false →
      lands (.vclass w) fun cell k => 2 ^ classBit t (x cell k)) ∧
    (vBad w { types := tyA, c := .v } s.lf64 = false →
      lands (.vsel w) fun cell k => if z cell k ≠ 0 then x cell k else y cell k) ∧
    (vBad w { types := tyA } s.lf64 = false →
      lands (.vand w) (fun cell k => x cell k &&& y cell k) ∧ lands (.vor w) (fun cell k => x cell k ||| y cell k) ∧
      lands (.vxor w) fun cell k => x cell k ^^^ y cell k) ∧
    (vBad w { types := tyA, b := .z } s.lf64 = false →
      lands (.vnot w) (fun cell k => 2 ^ n - 1 - x cell k) ∧ lands (.vmov w) fun cell k => x cell k) ∧
    (vBad w { types := tyI } s.lf64 = false →
      lands (.vshl w) (fun cell k => x cell k * 2 ^ (y cell k % n)) ∧
      lands (.vshr w) (fun cell k => x cell k / 2 ^ (y cell k % n)) ∧
      lands (.vsra w) fun cell k => (sextNat n (x cell k) / 2 ^ (y cell k % n) % 2 ^ n).toNat))

/-- 07 R207, R208, R222-R224, R226; 03 R73, R85: conversions, packing, unpacking and dequantising, latency 4: each element is the
exact value of its source, modified, converted once into the destination, and VFLAG gains the flags of the conversions. A 4-bit
code pairs up, the even one in bits 3:0; the upper half of the byte of an odd last one stays, and so do later codes. A
conversion from FP64 occupies as an operation on it, any other as the wider of its types.
Where the spec leaves a point open the statement follows the model's choice: log entry 25. -/
def Obligations.VectorConversions : Prop := ∀ (s : State) (w : VWord) (b : Block),
  let h := s.har s.cur
  let t := (vT w).el
  let size := (vT w).size
  let vl := h.vl.toNat
  let sel := w.ext.toNat / 8
  let j := if vRnd w = 4 then 1 else 0
  let conv := fun (t : ElTy) cell k x => t.conv (vMode w) (vRandom (s.eng .v).seed b.j cell k) (vP w) w.clamp.toNat x
  ready .v b w.gk w.gn (vTakes w) (vFill w) s → vRnd w ≤ 4 →
  (∀ f n, vty sel = f → n = max f.size size → sel ≤ 10 → (sel = 0 → s.lf64 = true) → vl * n ≤ 2048 →
    vBad w { types := tyA, b := .z, ma := true, cp := true } s.lf64 = false →
    vLands (.vcvt w) w b 4 (occupancy vl (if sel = 0 then 16 else n)) j size (fun cell k =>
      let c := element h cell w.va.toNat f.size k
      conv t cell k (match f with
        | .f g => (Num.ofCode g c).modify w.na w.aa
        | .i g => Num.ofIntVal (modInt w.na w.aa (g.ofCode c)))) s) ∧
  ∀ g, vT w = .f g → vl * size ≤ 2048 → sel ≤ 3 →
    let x := fun cell k => (Num.ofCode g (element h cell w.va.toNat size k)).modify w.na w.aa
    let code := vcode (sel == 2) h
    (vBad w { types := tyF, b := .z, ma := true, cp := true } s.lf64 = false →
      vGives (.vpack w) w b (vFill w) 4 (occupancy vl (arSize w)) j [w.vd.toNat] (fun h0 h' =>
        raises vl (fun cell k => (conv (packTy sel) cell k (x cell k)).2) h0.sp.vflag h'.sp.vflag ∧
        ∀ cell k, cell < 16 → vcode (sel == 2) h' cell w.vd.toNat k =
          let c := (conv (packTy sel) cell k (x cell k)).1
          if vl ≤ k then vcode (sel == 2) h0 cell w.vd.toNat k
          -- a negative zero of E2M1 is written as the positive one (R455)
          else if sel = 2 ∧ c = 8 then 0 else c % 2 ^ (if sel = 2 then 4 else 8)) s) ∧
    (vBad w { types := tyF, b := .z } s.lf64 = false → vRnd w = 0 →
      vLands (.vunpk w) w b 4 (occupancy vl size) 0 size (fun cell k =>
        Num.destF g .rne 0 0 0 ((packTy sel).value (code cell w.va.toNat k))) s) ∧
    (vBad w { types := tyF, cp := true } s.lf64 = false → sel ≤ 2 → 2 * cdiv vl 32 ≤ 2048 →
      vLands (.vdeq w) w b 4 (occupancy vl size) j size (fun cell k => conv t cell k
        (Sys2Proof.Num.blkValue (blkOf sel) (element h cell w.vb.toNat 2 (k / 32)) (code cell w.va.toNat k))) s)

/-- 07 R225, R227; 03 R93-R97: quantising fills the codes' and the scales' registers together: each block of 32 has the scale
entry and codes of the quantiser over the largest magnitude before modifiers, codes past vl in the last block being zero, and
VFLAG gains the quantiser's flags; VBMAX leaves that magnitude of each block and raises no flag. Later elements stay.
Where the spec leaves a point open the statement follows the model's choice: log entries 25 and 64. -/
def Obligations.VectorBlocks : Prop := ∀ (s : State) (w : VWord) (b : Block) (g : Num.Fmt),
  let h := s.har s.cur
  let size := (vT w).size
  let vl := h.vl.toNat
  let sel := w.ext.toNat / 8
  let block := fun cell q => (List.range (min 32 (vl - 32 * q))).map fun i =>
    Num.ofCode g (element h cell w.va.toNat size (32 * q + i))
  let quant := fun cell q =>
    Num.quantBlock (blkOf sel) ((block cell q).map fun x => x.modify w.na w.aa) (maxAbs (block cell q))
  vT w = .f g → vl * size ≤ 2048 →
  (∀ fills, fills = (if w.fd then [FeReg.v w.vd.toNat, .v w.vc.toNat] else []) →
    ready .v b w.gk w.gn (vTakes w) fills s → sel ≤ 2 → vRnd w = 0 → (if sel = 2 then 16 else 32) * cdiv vl 32 ≤ 2048 →
    vBad w { types := tyF, b := .z, c := .v, ma := true, cDest := true } s.lf64 = false →
    vGives (.vquant w) w b fills 12 (occupancy vl (arSize w)) 0 [w.vd.toNat, w.vc.toNat] (fun h0 h' =>
      raises (cdiv vl 32) (fun cell q => (quant cell q).flags) h0.sp.vflag h'.sp.vflag ∧
      ∀ cell q, cell < 16 →
        (q < cdiv vl 32 → element h' cell w.vc.toNat 2 q = ((quant cell q).scale + 256 * (quant cell q).special) % 2 ^ 16) ∧
        (w.vd ≠ w.vc →
          (cdiv vl 32 ≤ q → element h' cell w.vc.toNat 2 q = element h0 cell w.vc.toNat 2 q) ∧
          ∀ i, i < 32 → vcode (sel == 2) h' cell w.vd.toNat (32 * q + i) =
            if q < cdiv vl 32 then (quant cell q).codes.getD i 0 % 2 ^ (if sel = 2 then 4 else 8)
            else vcode (sel == 2) h0 cell w.vd.toNat (32 * q + i))) s) ∧
  (ready .v b w.gk w.gn (vTakes w) (vFill w) s → w.ext = 0 →
    vBad w { types := tyF, b := .z } s.lf64 = false →
    vGives (.vbmax w) w b (vFill w) 10 (occupancy vl (arSize w)) 0 [w.vd.toNat] (fun h0 h' =>
      h'.sp.vflag = h0.sp.vflag ∧ ∀ cell q, cell < 16 → element h' cell w.vd.toNat size q =
        if q < cdiv vl 32 then Num.toCode g (maxAbs (block cell q)) % 2 ^ (8 * size) else element h0 cell w.vd.toNat size q) s)

/-- 07 R228, R229; 03 R84, R86, R91, R92: reductions and scans, latency 10, over each cell's elements or over those of all
cells in order: on integers the wrapped sum, the largest or the smallest; on floating types the pairwise tree, or the left to
right prefix, of additions rounded once each, and VFLAG gains the flags of every rounding. Later elements stay. With vl = 0 the
word makes its takes and fills and changes nothing else (R206).
Where the spec leaves a point open the statement follows the model's choice: log entry 26. -/
def Obligations.VectorReductions : Prop := ∀ (s : State) (w : VWord) (b : Block) (i : Instr) (o : RedOp) (sq : Bool),
  let h := s.har s.cur
  let size := (vT w).size
  let vl := h.vl.toNat
  let all := w.ext.getLsbD 3
  let n := if all then 16 * vl else vl
  -- element q of the sequence that a cell reduces
  let x := fun cell q => if all then element h (q / vl) w.va.toNat size (q % vl) else element h cell w.va.toNat size q
  -- the first m elements of each cell are as P says, the later ones as before; fl cell are the flags that a cell raises
  let lands := fun (i : Instr) (m : Nat) (fl : Nat → Num.Flags) (P : Nat → Harness → Prop) =>
    vGives i w b (vFill w) 10 (occupancy vl (arSize w)) 0 [w.vd.toNat] (fun h0 h' =>
      raises 1 (fun cell _ => fl cell) h0.sp.vflag h'.sp.vflag ∧
      ∀ cell, cell < 16 → P cell h' ∧ ∀ k, m ≤ k → element h' cell w.vd.toNat size k = element h0 cell w.vd.toNat size k) s
  ready .v b w.gk w.gn (vTakes w) (vFill w) s → vl * size ≤ 2048 → redBad w s.lf64 = false →
  (vl = 0 → (i ∈ [Instr.vrsum w, .vrmax w, .vrmin w, .vrssq w] ∧ w.ext.toNat < 16 ∨ i = .vscan w ∧ w.ext.toNat / 16 ≤ 2) →
    vGives i w b (vFill w) 10 (occupancy vl (arSize w)) 0 [w.vd.toNat] (fun h0 h' => h'.sp.vflag = h0.sp.vflag ∧
      ∀ cell k, cell < 16 → element h' cell w.vd.toNat size k = element h0 cell w.vd.toNat size k) s) ∧
  (0 < vl →
  (∀ t : Num.IFmt, vT w = .i t →
    let leaf := fun cell q => modInt w.na w.aa (t.ofCode (x cell q))
    let put := fun (v : Int) => (v % 2 ^ t.w).toNat
    -- v is the result over the elements 0 to m of the sequence
    let result := fun (o : RedOp) (leaf : Nat → Int) (m v : Nat) => match o with
      | .add => v = put ((List.range (m + 1)).map leaf).sum
      | .max => ∃ q, q ≤ m ∧ v = put (leaf q) ∧ ∀ p, p ≤ m → leaf p ≤ leaf q
      | .min => ∃ q, q ≤ m ∧ v = put (leaf q) ∧ ∀ p, p ≤ m → leaf q ≤ leaf p
    ((i, o, sq) ∈ [(Instr.vrsum w, RedOp.add, false), (.vrmax w, .max, false), (.vrmin w, .min, false), (.vrssq w, .add, true)] →
      w.ext.toNat < 16 → lands i 1 (fun _ => 0) fun cell h' =>
        result o (fun q => if sq then leaf cell q * leaf cell q else leaf cell q) (n - 1) (element h' cell w.vd.toNat size 0)) ∧
    ((w.ext.toNat / 16, o) ∈ [(0, RedOp.add), (1, .max), (2, .min)] → lands (.vscan w) vl (fun _ => 0) fun cell h' => ∀ k, k < vl →
      result o (leaf cell) (if all then cell * vl + k else k) (element h' cell w.vd.toNat size k))) ∧
  ∀ t : Num.Fmt, vT w = .f t →
    let leaf := fun cell q => (Num.ofCode t (x cell q)).modify w.na w.aa
    -- an exact value with its flags, rounded once
    let rnd := fun (v : Num.Val × Num.Flags) =>
      ((Num.round t (vMode w) 0 v.1).1, v.2 ||| (Num.round t (vMode w) 0 v.1).2)
    let op := fun (o : RedOp) (a c : Num.Val × Num.Flags) => match o with
      | .add =>
        let v := rnd (Sys2Proof.Num.add (vMode w) a.1 c.1)
        (v.1, a.2 ||| c.2 ||| v.2)
      | .max => (Num.maxVal a.1 c.1, a.2 ||| c.2)
      | .min => (Num.minVal a.1 c.1, a.2 ||| c.2)
    let put := fun (v : Num.Val × Num.Flags) => Num.toCode t v.1 % 2 ^ (8 * size)
    let none' : Num.Val × Num.Flags := (Num.Val.zero false, 0)
    ((i, o, sq) ∈ [(Instr.vrsum w, RedOp.add, false), (.vrmax w, .max, false), (.vrmin w, .min, false), (.vrssq w, .add, true)] →
      w.ext.toNat < 16 →
      let sum := fun cell => (Num.tree (op o) n ((List.range n).map fun q =>
        if sq then rnd (Sys2Proof.Num.mul (leaf cell q) (leaf cell q)) else (leaf cell q, 0))).getD 0 none'
      lands i 1 (fun cell => (sum cell).2) fun cell h' => element h' cell w.vd.toNat size 0 = put (sum cell)) ∧
    ((w.ext.toNat / 16, o) ∈ [(0, RedOp.add), (1, .max), (2, .min)] →
      let at' := fun cell k => (Num.scan (op o) ((List.range n).map fun q => (leaf cell q, 0))).getD
        (if all then cell * vl + k else k) none'
      lands (.vscan w) vl (fun cell => (at' cell (vl - 1)).2) fun cell h' => ∀ k, k < vl →
        element h' cell w.vd.toNat size k = put (at' cell k)))

/-- 07 R230: VPART lists the indices of the keys below K, by key and then by index, then 0xFFFF_FFFF, and counts each key;
elements K and above of the counts' register, and those from vl on of the other, are unchanged, and so is VFLAG. With vl = 0 the
word makes its takes and fills and changes nothing else (R206).
Where the spec leaves a point open the statement follows the model's choice: log entry 64. -/
def Obligations.VectorPartition : Prop := ∀ (s : State) (w : VWord) (b : Block) (fills : List FeReg),
  let h := s.har s.cur
  let vl := h.vl.toNat
  let count := w.ext.toNat % 32 + 1
  let all := w.ext.getLsbD 5
  let n := if all then 16 * vl else vl
  let t : Num.IFmt := if w.ty = 5 then i32 else n32
  let key := fun cell q =>
    t.ofCode (if all then element h (q / vl) w.va.toNat 4 (q % vl) else element h cell w.va.toNat 4 q)
  -- indices listed before q
  let before := fun cell (q : Nat) => (List.range n).countP fun p =>
    decide (0 ≤ key cell p ∧ (key cell p < key cell q ∨ key cell p = key cell q ∧ p < q))
  let listed := fun cell => (List.range n).countP fun p => decide (0 ≤ key cell p ∧ key cell p < count)
  let at' := fun h' cell q => if all then element h' (q / vl) w.vd.toNat 4 (q % vl) else element h' cell w.vd.toNat 4 q
  fills = (if w.fd then [.v w.vd.toNat, .v w.vc.toNat] else []) → ready .v b w.gk w.gn (vTakes w) fills s →
  vBad w { types := [5, 8], b := .z, c := .v, cDest := true } s.lf64 = false → w.ext.getLsbD 6 = false →
  4 * vl ≤ 2048 →
  (vl = 0 → vGives (.vpart w) w b fills 12 (occupancy vl 4) 0 [w.vd.toNat, w.vc.toNat] (fun h0 h' =>
    h'.sp.vflag = h0.sp.vflag ∧ ∀ cell k, cell < 16 → ∀ r ∈ [w.vd.toNat, w.vc.toNat],
      element h' cell r 4 k = element h0 cell r 4 k) s) ∧
  (0 < vl → vGives (.vpart w) w b fills 12 (occupancy vl 4) 0 [w.vd.toNat, w.vc.toNat] (fun h0 h' => h'.sp.vflag = h0.sp.vflag ∧
    ∀ cell, cell < 16 →
    (∀ g, g < count → element h' cell w.vc.toNat 4 g = (List.range n).countP fun p => decide (key cell p = (g : Int))) ∧
    (w.vd ≠ w.vc →
      (∀ g, count ≤ g → element h' cell w.vc.toNat 4 g = element h0 cell w.vc.toNat 4 g) ∧
      (∀ q, q < n → 0 ≤ key cell q → key cell q < count → at' h' cell (before cell q) = q) ∧
      (∀ q, q < n → listed cell ≤ q → at' h' cell q = 0xFFFFFFFF) ∧
      ∀ k, vl ≤ k → element h' cell w.vd.toNat 4 k = element h0 cell w.vd.toNat 4 k)) s)

/-- 07 R231-R235: VIOTA counts from its c register; VPERM and VGATH select elements by index, zero beyond the range;
VSCAT writes to the elements indexed, the highest source prevailing; VSPLAT and VBCST give every cell one value. None raises a
flag, and elements from vl on stay. -/
def Obligations.VectorMoves : Prop := ∀ (s : State) (w : VWord) (b : Block),
  let h := s.har s.cur
  let size := (vT w).size
  let vl := h.vl.toNat
  let c := (h.vc.getD w.vb.toNat 0).toNat
  let x := fun cell k => element h cell w.va.toNat size k
  let idx := fun cell k => element h cell w.vb.toNat (idxSize w) k
  ready .v b w.gk w.gn (vTakes w) (vFill w) s → vl * size ≤ 2048 →
  (vBad w { types := tyI, a := .z, b := .c } s.lf64 = false → w.ext.toNat ≤ 1 →
    vLands (.viota w) w b 2 (occupancy vl size) 0 size (fun cell k => (c + k + w.ext.toNat * cell * vl, 0)) s) ∧
  (vBad w permUse s.lf64 = false → w.ext = 0 → vl * idxSize w ≤ 2048 →
    vLands (.vperm w) w b 4 (occupancy vl (idxSize w)) 0 size
      (fun cell k => (if idx cell k < vl then x cell (idx cell k) else 0, 0)) s ∧
    vLands (.vgath w) w b 4 (occupancy vl (idxSize w)) 0 size
      (fun cell k => (if idx cell k < 16 * vl then x (idx cell k / vl) (idx cell k % vl) else 0, 0)) s ∧
    vGives (.vscat w) w b (vFill w) 4 (occupancy vl (idxSize w)) 0 [w.vd.toNat] (fun h0 h' =>
      h'.sp.vflag = h0.sp.vflag ∧ ∀ cell k, cell < 16 →
        (vl ≤ k ∨ (∀ n j, n < 16 → j < vl → idx n j ≠ cell * vl + k) →
          element h' cell w.vd.toNat size k = element h0 cell w.vd.toNat size k) ∧
        ∀ n j, k < vl → n < 16 → j < vl → idx n j = cell * vl + k →
          (∀ n' j', n' < 16 → j' < vl → idx n' j' = cell * vl + k → n' < n ∨ n' = n ∧ j' ≤ j) →
          element h' cell w.vd.toNat size k = x n j) s) ∧
  (vBad w { types := tyA, a := .z, b := .c } s.lf64 = false → w.ext = 0 →
    vLands (.vsplat w) w b 2 (occupancy vl size) 0 size (fun _ _ => (c, 0)) s) ∧
  (vBad w { types := tyA, b := .z } s.lf64 = false → w.ext.toNat ≤ 15 →
    vLands (.vbcst w) w b 4 (occupancy vl size) 0 size (fun _ k => (x w.ext.toNat k, 0)) s)

/-- 07 R236-R238: between elements, c registers and vl. A length above 2048 is VL_RANGE and leaves vl.
Where the spec leaves a point open the statement follows the model's choice: log entry 64. -/
def Obligations.VectorScalars : Prop := ∀ (s : State) (w : VWord) (b : Block),
  let h := s.har s.cur
  let size := (vT w).size
  let c := fun (n : BitVec 6) => h.vc.getD n.toNat 0
  let i := (c w.vb).toNat % 2048
  let cyc := (s.eng .v).cyc
  (ready .v b w.gk w.gn (vTakes w) [] s → vBad w { types := tyA, d := .c, b := .c } s.lf64 = false → w.ext.toNat ≤ 15 →
    let e := element h w.ext.toNat w.va.toNat size i
    ∃ t, issues (.vextr w) .v b (vTakes w) [] (.cycle (cyc + 2)) 1 0 [.vc (w.vd.setWidth 4)
      (if 2048 ≤ i * size then 0 else match vT w with
        | .i t => BitVec.ofInt 64 (t.ofCode e)
        | .f _ => BitVec.ofNat 64 e)] s t) ∧
  (ready .v b w.gk w.gn (vTakes w) (vFill w) s → vBad w { types := tyA, a := .c, b := .c } s.lf64 = false →
    w.ext.toNat ≤ 31 →
    vGives (.vins w) w b (vFill w) 2 1 0 [w.vd.toNat] (fun h0 h' => h'.sp.vflag = h0.sp.vflag ∧ ∀ cell k, cell < 16 →
      element h' cell w.vd.toNat size k =
        if k = i ∧ i * size < 2048 ∧ (16 ≤ w.ext.toNat ∨ cell = w.ext.toNat % 16) then (c w.va).toNat % 2 ^ (8 * size)
        else element h0 cell w.vd.toNat size k) s) ∧
  (∀ n, n = (if w.ext = 1 then (c w.vb).toNat else w.va.toNat * 64 + w.vb.toNat) → ready .v b w.gk w.gn [] [] s →
    vBad w { types := [0], d := .z, a := if w.ext = 1 then .z else .any, b := if w.ext = 1 then .c else .any } s.lf64 = false →
    w.ext.toNat ≤ 1 →
    (n ≤ 2048 → ∃ t, issues (.vsetl w) .v b [] [] (.cycle (cyc + 1)) 1 0 [.vl (BitVec.ofNat 12 n)] s t) ∧
    (2048 < n → exec (.vsetl w) s = .next (s.blockFaultC .v cVL_RANGE))) ∧
  (ready .v b w.gk w.gn [] [] s → vBad w { types := [0], d := .c, a := .c, b := .c } s.lf64 = false →
    ∃ t, issues (.vcadd w) .v b [] [] (.cycle (cyc + 1)) 1 0
      [.vc (w.vd.setWidth 4) (c w.va + c w.vb + w.ext.signExtend 64)] s t)

/-! ### The D engine -/

/-- 08 R241, R242, R244, R253, R254: DCLAIM and DREL change claims and empty the slots' bits; DLDS copies a register into a
slot, DLDT with rows and columns exchanged, DSCL into scale memory. A slot claimed or unclaimed where the other is asked is
SLOT_STATE, a pending write SLOT_ALIAS, entries beyond 1024 SCALE_RANGE; a DREL of a slot into which a decode has not completed
waits. No word raises a flag. -/
def Obligations.SlotInstructions : Prop := ∀ (s : State) (w : DWord) (b : Block),
  let h := s.har s.cur
  let cyc := (s.eng .d).cyc
  let n := w.slot.toNat
  let v := fun cell => h.vget cell w.vreg.toNat
  let fills := if w.fild then [FeReg.s n] else []
  let masks : DUse := { imm := 2 ^ 32 - 1 }
  (ready .d b w.gk w.gn [] [] s → dBad w masks = false →
    (w.imm &&& h.claim = 0 → ∃ t effs, issues (.dclaim w) .d b [] [] (.cycle (cyc + 1)) 1 0 effs s t ∧ ∀ h : Harness,
      h.applyAll effs = { h with claim := h.claim ||| w.imm, feS := h.feS &&& ~~~w.imm }) ∧
    (w.imm &&& h.claim ≠ 0 → exec (.dclaim w) s = .next (s.blockFaultC .d cSLOT_STATE)) ∧
    (w.imm &&& h.claim ≠ w.imm → exec (.drel w) s = .next (s.blockFaultC .d cSLOT_STATE)) ∧
    (w.imm &&& h.claim = w.imm →
      let named := fun m => m < 32 ∧ w.imm.getLsbD m = true
      ((∃ m, named m ∧ h.slotPending m = true) → exec (.drel w) s = .next (s.blockFaultC .d cSLOT_ALIAS)) ∧
      ((∀ m, named m → h.slotPending m = false) →
        ((∃ m, named m ∧ h.slotDecoding m = true) → waits .d b (.drel w) s) ∧
        ((∀ m, named m → h.slotDecoding m = false) →
          ∃ t effs, issues (.drel w) .d b [] [] (.cycle (cyc + 1)) 1 0 effs s t ∧ ∀ h : Harness,
            h.applyAll effs = { h with claim := h.claim &&& ~~~w.imm, feS := h.feS &&& ~~~w.imm })))) ∧
  (ready .d b w.gk w.gn (dTakes w) fills s → ∀ i,
    (i = .dlds w ∧ dBad w { slot := true, vreg := true, tkv := true, fild := true } = false ∨
      i = .dldt w ∧ dBad w { slot := true, vreg := true, fmt := true, tkv := true, fild := true } = false ∧
        (ldtWidth w.fmt.toNat).isSome = true) →
    (h.claimed n = false → exec i s = .next (s.blockFaultC .d cSLOT_STATE)) ∧
    (h.claimed n = true → h.slotPending n = true → exec i s = .next (s.blockFaultC .d cSLOT_ALIAS))) ∧
  (ready .d b w.gk w.gn (dTakes w) fills s → h.claimed n = true → h.slotPending n = false →
    (dBad w { slot := true, vreg := true, tkv := true, fild := true } = false →
      dGives (.dlds w) w b fills 8 0 [] [n] [] (fun h0 h' => h'.sp.dflag = h0.sp.dflag ∧
        ∀ cell, cell < 16 → h'.sget cell n = v cell) s) ∧
    ∀ bits, ldtWidth w.fmt.toNat = some bits →
      dBad w { slot := true, vreg := true, fmt := true, tkv := true, fild := true } = false →
      dGives (.dldt w) w b fills 8 0 [] [n] [] (fun h0 h' => h'.sp.dflag = h0.sp.dflag ∧
        ∀ cell r k, cell < 16 → r < 32 → k < 512 / bits → code bits (h'.sget cell n) (512 / bits * r + k) = code bits (v cell) (32 * k + r)) s) ∧
  (ready .d b w.gk w.gn (dTakes w) [] s → dBad w { vreg := true, sidx := true, tkv := true, imm := 2 ^ 11 - 1 } = false →
    let cnt := w.imm.toNat
    (0 < cnt → w.sidx.toNat + cnt ≤ 1024 →
      ∃ t effs, issues (.dscl w) .d b (dTakes w) [] (.cycle (cyc + 4)) 1 0 effs s t ∧ ∀ h : Harness,
        h.applyAll effs = { h with smem := (h.applyAll effs).smem } ∧ ∀ cell e, cell < 16 →
          at' ((h.applyAll effs).smget cell) (2 * e) 2 =
            if w.sidx.toNat ≤ e ∧ e < w.sidx.toNat + cnt then at' (v cell) (2 * (e - w.sidx.toNat)) 2
            else at' (h.smget cell) (2 * e) 2) ∧
    (cnt = 0 ∨ 1024 < w.sidx.toNat + cnt → exec (.dscl w) s = .next (s.blockFaultC .d cSCALE_RANGE)))

/-- 08 R250-R252; 03 R72, R73, R78, R85: DZERO and DFILL write an accumulator; DREAD converts it into a v register, DCVT into
32 columns of a slot: each element is the accumulator's value times the tensor scale, rounded once into the format, and DFLAG
gains the flags of the elements. -/
def Obligations.Accumulators : Prop := ∀ (s : State) (w : DWord) (b : Block),
  let h := s.har s.cur
  let acc := w.acc.toNat
  let half := w.imm.toNat % 2
  let e := fun (h : Harness) cell k => at' (h.aget cell acc) (4 * k) 4
  let fillA := if w.fild then [FeReg.a acc] else []
  (ready .d b w.gk w.gn (dTakes w) fillA s →
    (dBad w { acc := true, fild := true } = false →
      dGives (.dzero w) w b fillA 2 0 [] [] [acc] (fun h0 h' => h'.sp.dflag = h0.sp.dflag ∧ ∀ cell k, cell < 16 → k < 1024 → e h' cell k = 0) s) ∧
    (dBad w { acc := true, vreg := true, fmt := true, tkv := true, fild := true, imm := 1 } = false →
      (w.fmt = 0x13 → half = 0 → dGives (.dfill w) w b fillA 2 0 [] [] [acc] (fun h0 h' => h'.sp.dflag = h0.sp.dflag ∧
        ∀ cell k, cell < 16 → k < 1024 → e h' cell k = Num.toCode Num.fp32 (Num.ofCode Num.bf16 (element h cell w.vreg.toNat 2 k)) % 2 ^ 32) s) ∧
      (w.fmt = 0x11 ∨ w.fmt = 0x04 → dGives (.dfill w) w b fillA 2 0 [] [] [acc] (fun h0 h' => h'.sp.dflag = h0.sp.dflag ∧
        ∀ cell k, cell < 16 → k < 512 → e h' cell (512 * half + k) = element h cell w.vreg.toNat 4 k ∧
        e h' cell (512 * (1 - half) + k) = e h0 cell (512 * (1 - half) + k)) s))) ∧
  ∀ ty bits mode, elTy w.fmt.toNat = some ty → fmtBits w.fmt.toNat = some bits → Num.Mode.ofCode w.rnd.toNat = some mode →
    let j := if w.rnd = 4 then 1 else 0
    -- one element: the accumulator's code, the number of the random bits, whether it is read as INT32, whether it is scaled
    let conv := fun (x r : Nat) (int ts : Bool) =>
      let v := Sys2Proof.Num.mul (if int then Num.ofIntVal (i32.ofCode x) else Num.ofCode Num.fp32 x)
        (if ts then h.dScale w.creg else Num.Val.fin false 1 0 false)
      let y := ty.conv mode (Num.srBits (s.eng .d).seed b.j r) w.p.toInt w.clamp.toNat v.1
      (y.1, v.2 ||| y.2)
    let scaled := fun ts => ts = false → w.creg = 0
    (let fills := if w.fild then [FeReg.v w.vreg.toNat] else []
     let base := if bits = 32 then 512 * half else 0
     w.fmt.toNat ∈ [0x11, 0x13, 0x12, 0x04, 0x02, 0x00, 0x14, 0x15] → (half = 1 → bits = 32) → scaled (w.imm.getLsbD 2) →
     dBad w { acc := true, vreg := true, creg := true, fmt := true, dest := true, tkc := true, fild := true, imm := 7 } = false →
     ready .d b w.gk w.gn (dTakes w) fills s →
     let n := if bits = 32 then 512 else 1024
     let el := fun cell k => conv (e h cell (base + k)) (4096 * cell + k) (w.imm.getLsbD 1) (w.imm.getLsbD 2)
     dGives (.dread w) w b fills 12 j [w.vreg.toNat] [] [] (fun h0 h' =>
       raises n (fun cell k => (el cell k).2) h0.sp.dflag h'.sp.dflag ∧ ∀ cell, cell < 16 →
       (∀ k, k < n → element h' cell w.vreg.toNat (bits / 8) k = (el cell k).1 % 2 ^ bits) ∧
       (bits = 8 → ∀ k, 1024 ≤ k → element h' cell w.vreg.toNat 1 k = element h0 cell w.vreg.toNat 1 k)) s) ∧
    (let fills := if w.fild then [FeReg.s w.slot.toNat] else []
     let q := w.imm.toNat % 4
     (∃ m, cvtMaxQ w.fmt.toNat = some m ∧ q ≤ m) → scaled (w.imm.getLsbD 4) →
     dBad w { acc := true, slot := true, creg := true, fmt := true, dest := true, tkc := true, fild := true, imm := 31 } = false →
     ready .d b w.gk w.gn (dTakes w) fills s →
     (h.claimed w.slot.toNat = false → exec (.dcvt w) s = .next (s.blockFaultC .d cSLOT_STATE)) ∧
     (h.claimed w.slot.toNat = true → h.slotPending w.slot.toNat = false →
      -- the element of row r and column d of the 32 by 32
      let el := fun cell r d => conv (e h cell (if w.imm.getLsbD 2 then 32 * d + r else 32 * r + d))
        (4096 * cell + (r * (512 / bits) + 32 * q + d)) (w.imm.getLsbD 3) (w.imm.getLsbD 4)
      dGives (.dcvt w) w b fills 12 j [] [w.slot.toNat] [] (fun h0 h' =>
        raises 1024 (fun cell k => (el cell (k / 32) (k % 32)).2) h0.sp.dflag h'.sp.dflag ∧
        ∀ cell r c, cell < 16 → r < 32 → c < 512 / bits →
          let k := r * (512 / bits) + c
          code bits (h'.sget cell w.slot.toNat) k =
            if 32 * q ≤ c ∧ c < 32 * q + 32 then
              let x := (el cell r (c - 32 * q)).1
              if w.fmt = 0x16 ∧ x = 8 then 0 else x % 2 ^ bits
            else code bits (h0.sget cell w.slot.toNat) k) s) ∧
     (h.claimed w.slot.toNat = true → h.slotPending w.slot.toNat = true →
      exec (.dcvt w) s = .next (s.blockFaultC .d cSLOT_ALIAS)))

/-- 08 R245-R249; 03 R87-R90: a DMMA holds the array for 32 cycles and adds, 40 cycles on, the exact sum of products of row i
of one slot with row j of the other to element 32 i + j of its accumulator, or replaces it: INT8 pairs wrap, others round
once; DFLAG gains the flags. A slot unclaimed, a pending write, scales beyond 1024 and a grant below the class stop it in this order. -/
def Obligations.DotProducts : Prop := ∀ (s : State) (w : MWord) (b : Block) (x y : Short),
  let h := s.har s.cur
  let a := w.aslot.toNat
  let c := w.bslot.toNat
  let acc := w.acc.toNat
  let takes := (if w.takea then [FeReg.s a] else []) ++ if w.takeb then [FeReg.s c] else []
  let fills := if w.fla then [FeReg.a acc] else []
  let wide := fun (t : Short) (base : BitVec 10) => t.blk.isSome = true ∧ 1024 < base.toNat + 32 * t.blocks
  let old := fun (h : Harness) cell e => at' (h.aget cell acc) (4 * e) 4
  shortOf w.afmt.toNat = some x → shortOf w.bfmt.toNat = some y → mmaBad w = false → (s.eng .d).array ≤ (s.eng .d).cyc →
  ready .d b w.gk w.gn takes fills s →
  if h.claimed a = false ∨ h.claimed c = false then exec (.dmma w) s = .next (s.blockFaultC .d cSLOT_STATE)
  else if h.slotPending a = true ∨ h.slotPending c = true then exec (.dmma w) s = .next (s.blockFaultC .d cSLOT_ALIAS)
  else if wide x w.ascl ∨ wide y w.bscl then exec (.dmma w) s = .next (s.blockFaultC .d cSCALE_RANGE)
  else if h.ctl.pwr < mmaClass x then
    exec (.dmma w) s = .next (s.blockFault .d { code := cLEAVE_FAULT, hi := mmaClass x * 4 + h.ctl.pwr })
  else ∃ t effs, exec (.dmma w) s = .next t ∧
    flies .d b takes fills 1 0 { age := 0, due := .cycle ((s.eng .d).cyc + 40), effs := effs }
      (s.modEng .d fun e => { e with array := e.cyc + 32 }) t ∧
    writesD [] [] [acc] effs ∧ ∀ h0 : Harness,
      -- element 32 i + j of a cell, with the flags that it raises
      let el := fun cell i j : Nat =>
        let o := old h0 cell (32 * i + j)
        let row := fun (t : Short) (base : BitVec 10) n r => opRow t base.toNat (h.smget cell) (h.sget cell n) r
        if w.afmt = 4 then
          let e := fun n r k => (BitVec.ofNat 8 (at' (h.sget cell n) (64 * r + k) 1)).toInt
          let sum := (if w.zf then 0 else sextNat 32 o) + ((List.range 64).map fun k => e a i k * e c j k).sum
          ((sum % 2 ^ 32).toNat, if -2 ^ 31 ≤ sum ∧ sum < 2 ^ 31 then (0 : Num.Flags) else Num.fIS)
        else
          let v := dotSum (row x w.ascl a i) (row y w.bscl c j) (h.dScale w.ats) (h.dScale w.bts)
          let t := Sys2Proof.Num.add .rne (if w.zf then Num.Val.zero false else Num.ofCode Num.fp32 o) v.1
          let r := Num.round Num.fp32 .rne 0 t.1
          (Num.toCode Num.fp32 r.1 % 2 ^ 32, v.2 ||| t.2 ||| r.2)
      raises 1024 (fun cell k => (el cell (k / 32) (k % 32)).2) h0.sp.dflag (h0.applyAll effs).sp.dflag ∧
      ∀ cell i j, cell < 16 → i < 32 → j < 32 → old (h0.applyAll effs) cell (32 * i + j) = (el cell i j).1

/-- 08 R255-R258; 10 R316, R317, R321-R325: DTBL loads a table, a malformed one leaving its slot invalid; DSEEK sets a
position from the tile's index entry; DDEC decodes the rest of a tile into a slot, and the position goes on to the next tile;
DSTAT and DCADD write c registers. Each waits for the earlier work that its rule names. A check that fails faults with its
code, its position and the lowest failing cell; sub-streams before a failing one stay written. DSEEK and DDEC wait with 2048
requests outstanding (01 R27). A decode completes by itself once its barrier object's bank serves it: its slot is filled and its
bytes are subtracted; one whose link has gone down is lost (18 R430).
Where the spec leaves a point open the statement follows the model's choice: log entries 19, 22, 24 and 57. -/
def Obligations.DecoderInstructions : Prop := ∀ (s : State) (w : DWord) (b : Block) (rb : BufRec) (x : Tile) (xs : List Tile)
    (s1 : State) (n m cell code : Nat),
  let h := s.har s.cur
  let cyc := (s.eng .d).cyc
  let t := w.imm.toNat % 8
  let p := w.imm.toNat % 4
  let c := fun n => h.dc.getD n 0
  let bytes := (h.vget 0 w.vreg.toNat).take 1024
  let seek := (c w.creg.toNat).toNat
  let seekOk := ready .d b w.gk w.gn [] [] s ∧ dBad w { brec := true, creg := true, imm := 3 } = false
  -- the entry of a tile fails in a cell and in no earlier one, by itself or against cell 0's (R321)
  let entryBad := fun tile => cell ∈ tensorCells rb ∧ (∀ c' ∈ tensorCells rb, c' < cell → ∃ y, s.tileIn s.cur rb tile c' = .ok y) ∧
    (entryFails s s.cur ⟨rb, cell⟩ tile code ∨ ∃ y z, s.tileOf s.cur ⟨rb, cell⟩ tile = .ok y ∧
      s.tileOf s.cur ⟨rb, 0⟩ tile = .ok z ∧ (y.tid ≠ z.tid ∨ y.fmt ≠ z.fmt) ∧ code = cSTREAM_BAD_INDEX)
  (ready .d b w.gk w.gn (dTakes w) [] s → dBad w { vreg := true, tkv := true, imm := 7 } = false →
    (h.tableLatched t = true → waits .d b (.dtbl w) s) ∧
    (h.tableLatched t = false → tableOk bytes = true → ∃ u, exec (.dtbl w) s = .next u ∧ flies .d b (dTakes w) [] 1 0
      { age := 0, due := .free .table, effs := [.dtab t true bytes], tslot := t } s u) ∧
    (h.tableLatched t = false → tableOk bytes = false → exec (.dtbl w) s = .next ((s.modHar s.cur fun h =>
      { h with tvalid := setBit h.tvalid t false }).blockFaultC .d cSTREAM_BAD_TABLE))) ∧
  (seekOk → h.posDecoding p = true → waits .d b (.dseek w) s) ∧
  (seekOk → h.posDecoding p = false →
    (∀ e, h.vwsRec w.brec.toNat = .error e → exec (.dseek w) s = .next (s.blockFaultC .d e)) ∧
    (h.vwsRec w.brec.toNat = .ok rb → seek / 2 ^ 40 % 2 ^ 24 ≠ 0 →
      exec (.dseek w) s = .next (s.blockFaultC .d cILLEGAL_INSTR)) ∧
    (h.vwsRec w.brec.toNat = .ok rb → seek / 2 ^ 40 % 2 ^ 24 = 0 → entryBad (seek % 2 ^ 32) →
      exec (.dseek w) s = .next (s.blockFault .d (streamFail code p 0 cell 0))) ∧
    (h.vwsRec w.brec.toNat = .ok rb → seek / 2 ^ 40 % 2 ^ 24 = 0 → s.tiles s.cur rb (seek % 2 ^ 32) = (.ok (x :: xs), n) →
      2048 ≤ outstanding h → waits .d b (.dseek w) s) ∧
    (h.vwsRec w.brec.toNat = .ok rb → seek / 2 ^ 40 % 2 ^ 24 = 0 → s.tiles s.cur rb (seek % 2 ^ 32) = (.ok (x :: xs), n) →
      outstanding h < 2048 → s.banks .d rb.fields (s.tensorKeys s.cur rb (seek % 2 ^ 32) ((x :: xs).map fun _ => (0, 0))) = .ok (s1, m) →
      ∃ u, exec (.dseek w) s = .next u ∧ flies .d b [] [] 1 0 { age := 0, due := .free .seek, pos := p, via := viaOf rb.fields, effs := [.dpos p
        ({ valid := true, brec := w.brec.toNat, tbl := (h.chooseTable x.tid).getD 0, sub := seek / 2 ^ 32 % 2 ^ 8
           tile := seek % 2 ^ 32, seg := x.soff } : Pos).bits] } s1 u)) ∧
  (∀ (bar : Option (Word × Word)) (g : List (List Byte)) (ys : List (Tile × List (List Byte))),
    let pos := posOf (h.dpos.getD p 0)
    let tbl := (h.chooseTable x.tid).getD 0
    ready .d b w.gk w.gn [] [.s w.slot.toNat] s →
    dBad w { slot := true, brec := w.imm.getLsbD 2, fild := true, must := true, imm := 7 } = false →
    h.claimed w.slot.toNat = true → h.slotPending w.slot.toNat = false →
    (h.tableLoading = true ∨ h.posBusy p = true → waits .d b (.ddec w) s) ∧
    (h.tableLoading = false → h.posBusy p = false →
     (pos.valid = false → exec (.ddec w) s = .next (s.blockFault .d (streamFail cSTREAM_BAD_INDEX p 0 0 0))) ∧
     (∀ e, pos.valid = true → h.vwsRec pos.brec = .error e → exec (.ddec w) s = .next (s.blockFaultC .d e)) ∧
     (∀ e, pos.valid = true → h.vwsRec pos.brec = .ok rb → s.ddecBar h w = .error e → exec (.ddec w) s = .next (s.blockFault .d e)) ∧
     (pos.valid = true → h.vwsRec pos.brec = .ok rb → s.ddecBar h w = .ok bar →
      (∀ y, cell ∈ tensorCells rb → (∀ c' ∈ tensorCells rb, c' < cell → ∃ a q, s.tileIn s.cur rb pos.tile c' = .ok a ∧
          s.segment s.cur h ⟨rb, c'⟩ a pos.sub = .ok q) →
        (cell = 0 → entryBad pos.tile → exec (.ddec w) s = .next (s.blockFault .d (streamFail code p 0 0 0))) ∧
        (s.tileIn s.cur rb pos.tile 0 = .ok y →
          entryBad pos.tile ∨ (∃ z, s.tileIn s.cur rb pos.tile cell = .ok z ∧
            segmentFails s s.cur h ⟨rb, cell⟩ z pos.sub code) →
          exec (.ddec w) s = .next ((s.modHar s.cur fun h =>
            { h with dpos := h.dpos.setIfInBounds p ({ pos with seg := y.soff } : Pos).bits }).blockFault .d
              (streamFail code p 0 cell 0)))) ∧
      (s.segments s.cur rb pos.tile pos.sub = (.ok ((x, g) :: ys), n) →
       (2048 ≤ outstanding h → waits .d b (.ddec w) s) ∧
       (outstanding h < 2048 →
        s.banks .d rb.fields (s.tensorKeys s.cur rb pos.tile (((x, g) :: ys).map fun y =>
          (y.1.soff, 20 + 4 * y.1.subs + (y.2.map List.length).foldl (· + ·) 0))) = .ok (s1, m) →
        ∀ (done : List (Nat × List (List Byte))) (err : Option (Nat × Nat × Nat × Nat)),
        decodeSubs x.fmt (tableFreqs (h.dtab.getD tbl [])) ((tensorCells rb).zip (((x, g) :: ys).map (·.2))) (x.subs - pos.sub)
          pos.sub = (done, err) →
        (∀ sub sym, err = some (code, sub, cell, sym) → exec (.ddec w) s = .next ((s.modHar s.cur fun h =>
          h.applyAll (subEffs w.slot.toNat x.subBytes done ++ [.dpos p ({ pos with sub := sub, seg := x.soff } : Pos).bits])).blockFault
            .d (streamFail code p sub cell sym))) ∧
        (err = none →
          ∃ u, exec (.ddec w) s = .next u ∧ flies .d b [] [.s w.slot.toNat] 1 0
            { age := 0, due := .free .decode, pos := p, tslot := tbl, bar := bar.map (·.1)
              barAddr := (bar.map (·.2)).getD 0, bytes := 16 * (2048 - pos.sub * x.subBytes), via := viaOf rb.fields
              effs := subEffs w.slot.toNat x.subBytes done ++ [.dpos p
                ({ pos with tbl := tbl, sub := 0, tile := (pos.tile + 1) % 2 ^ 32, seg := 0 } : Pos).bits] } s1 u)))))) ∧
  (ready .d b w.gk w.gn [] [] s →
    (dBad w { creg := true, imm := 3 } = false → h.posBusy p = true → waits .d b (.dstat w) s) ∧
    (dBad w { creg := true, imm := 3 } = false → h.posBusy p = false →
      let pos := (h.dpos.getD p 0).toNat
      ∃ u, issues (.dstat w) .d b [] [] (.cycle (cyc + 2)) 1 0 [.dc w.creg (BitVec.ofNat 64
        (pos % 2 ^ 49 + h.tvalid.toNat * 2 ^ 49 + pos / 2 ^ 57 % 2 ^ 7 * 2 ^ 57))] s u) ∧
    (dBad w { creg := true, imm := 2 ^ 32 - 1 } = false → ∃ u, issues (.dcadd w) .d b [] [] (.cycle (cyc + 1)) 1 0
      [.dc w.creg (c (w.imm.toNat % 16) + c (w.imm.toNat / 16 % 16) + (w.imm.extractLsb' 8 24).signExtend 64)] s u)) ∧
  ∀ q, s.arrives s.ev.a .d .decode = some q → (∀ k, q.bar = some k → s.serves (decodeAsker s.ev.a) k.toNat = true) →
    let r := s.ev.a
    (s.viaDown q = true → exec .decodeComplete s = .next (s.linkFault r .d q)) ∧
    (s.viaDown q = false → (∀ i v, Eff.g i v ∉ q.effs) →
    let t := s.modHar r fun h => (h.modEng .d fun e => { e with pend := eraseOne q e.pend }).applyAll q.effs
    let stays := fun (u : State) left => u.modHar r fun h => h.modEng .d fun e =>
      { e with pend := { q with effs := [], bytes := left } :: e.pend }
    (q.bar = none → exec .decodeComplete s = .next t) ∧
    (∀ k u left, q.bar = some k → t.consumesN k.toNat 8 = none →
      (t.touch (decodeAsker r) k.toNat).barChunks k.toNat (chunks (q.bytes / 2048 + 1) q.bytes) = (u, left) →
      exec .decodeComplete s =
        .next (if left = 0 then u else (stays u left).lateFaultAt r .d q { code := cBAR_OVERFLOW })) ∧
    ∀ k c, q.bar = some k → t.consumesN k.toNat 8 = some c → exec .decodeComplete s =
      .next ((((stays t q.bytes).scrub k.toNat 8).count (dieOf r) 4).lateFaultAt r .d q
        { code := c, addr := q.barAddr, acc := accAtomic }))

/-! ### The T engine -/

/-- 08 R260-R264; 02 R53-R55; 05 R152, R153: TLD, TLDS and TGATH bring the elements that their indices place into a register
or slot of each cell, an absent element as +0: from the own tower at the latency of its banks (TLD, TLDS), else without a
fixed latency, and then the harness's 2048 requests bound it. Memory stays as it is.
Where the spec leaves a point open the statement follows the model's choice: log entries 9, 21 and 24. -/
def Obligations.TransferLoads : Prop := ∀ (s : State) (w : TWord) (b : Block) (rb : BufRec) (f : Rec)
    (rows : List (List (Option Spot))),
  let h := s.har s.cur
  let vl := h.vl.toNat
  let reg := w.reg.toNat
  let live := liveSpots rows
  let value := fun cell k => match elem rows cell k with
    | none => 0
    | some x => (if f.bits = 4 then (leNat (x.keys.map (memGet s.mem))) / 2 ^ x.half else leNat (x.keys.map (memGet s.mem))) %
      2 ^ f.bits
  let lands := fun (i : Instr) takes fills (fixed : Bool) (P : List Eff → Prop) =>
    let roomy := space f.base = 1 ∧ fixed = true ∨ outstanding h < 2048
    ready .t b w.gk w.gn takes fills s → (¬roomy → waits .t b i s) ∧ (roomy → s.spotsConsume accRead live = none →
    quiet (s.engAsker .t f) (live.flatMap (·.keys)) s →
    ∃ s1 s2 lat t effs, s.banks .t f (live.flatMap (·.keys)) = .ok (s1, lat) ∧ onlyBanks s.cur s s1 ∧ onlyBanks s.cur s s2 ∧
      tGoes i b takes fills { age := 0, effs := effs, via := viaOf f
                              due := if space f.base = 1 ∧ fixed = true then .cycle ((s.eng .t).cyc + lat) else .free .load }
        s s2 t ∧ memSame s t ∧ P effs)
  let inReg := fun effs => writesV [reg] effs ∧ ∀ (h0 : Harness) cell k, cell < 16 → k < vl →
    code f.bits ((h0.applyAll effs).vget cell reg) k = value cell k
  s.tRec w false true false = .ok (rb, f) →
  (tBad w (memUse w false false) = false → vl * f.bits ≤ 16384 →
    s.elSpots s.cur rb f false 0 accRead (tDisp h w) (tCs w) (tIdx h w vl) = .ok rows →
    lands (.tld w) [] (if w.fild then [.v reg] else []) true inReg) ∧
  (tBad w (memUse w false true) = false → vl * max 32 f.bits ≤ 16384 →
    s.elSpots s.cur rb f false 0 accRead (tDisp h w) true (tGatherIdx h w) = .ok rows →
    lands (.tgath w) [] (if w.fild then [.v reg] else []) false inReg) ∧
  (tBad w { reg := .slot, brec := true, ereg := true, fild := true, imm := true, ext := tExtMem w false } = false →
    h.claim.getLsbD reg = true →
    s.elSpots s.cur rb f false 0 accRead (tDisp h w) (tCs w) (tIdx h w (16384 / f.bits)) = .ok rows →
    lands (.tlds w) [] (if w.fild then [.s reg] else []) true fun effs => writesD [] [reg] [] effs ∧
      ∀ (h0 : Harness) cell k, cell < 16 → k < 16384 / f.bits →
        code f.bits ((h0.applyAll effs).sget cell reg) k = value cell k)

/-- 08 R262-R264, R274; 02 R61: TST and TSCAT write their register's elements at the places of their indices, in ascending cell
and element, and TATOM adds its register's elements there, rounded once on FP32 and modulo 2^32 on integers. Every other byte
of memory stays, and the bytes written are counted for TBARR. Outside space 1 the harness's 2048 requests bound it (01 R27).
Where the spec leaves a point open the statement follows the model's choice: log entries 9, 21 and 24. -/
def Obligations.TransferStores : Prop := ∀ (s : State) (w : TWord) (b : Block) (rb : BufRec) (f : Rec)
    (rows : List (List (Option Spot))),
  let h := s.har s.cur
  let vl := h.vl.toNat
  let live := liveSpots rows
  let ks := live.flatMap (·.keys)
  let takes := if w.take then [FeReg.v w.reg.toNat] else []
  let src := fun cell k => code f.bits (h.vget cell w.reg.toNat) k
  let roomy := space f.base = 1 ∨ outstanding h < 2048
  let stored := fun i (P : Nat → State → Prop) => (¬roomy → waits .t b i s) ∧ (roomy → ∃ s1 t n,
    tGoes i b takes [] { age := 0, due := .cycle (s.eng .t).cyc, effs := [] } s s1 t ∧ stores s.cur ks n s s1 ∧ P n t)
  memOk s → ready .t b w.gk w.gn takes [] s → quiet (s.engAsker .t f) ks s → (∀ a ∈ ks, s.quarantined a = false) →
  (s.tRec w false false true = .ok (rb, f) →
    let P := fun (n : Nat) (t : State) => elementsStored f.bits rows src t ∧ (8 ≤ f.bits → n = f.bits / 8 * live.length)
    (tBad w (memUse w true false) = false → vl * f.bits ≤ 16384 →
      s.elSpots s.cur rb f true 1 accWrite (tDisp h w) (tCs w) (tIdx h w vl) = .ok rows → stored (.tst w) P) ∧
    (tBad w (memUse w true true) = false → vl * max 32 f.bits ≤ 16384 →
      s.elSpots s.cur rb f true 1 accWrite (tDisp h w) true (tGatherIdx h w) = .ok rows → stored (.tscat w) P)) ∧
  (s.tRec w false true true = .ok (rb, f) → tBad w (memUse w true false) = false →
    (space f.base ≠ 1 → space f.base ≠ 2 → exec (.tatom w) s = .next (s.blockFault .t { code := cBAD_SPACE, addr := f.base })) ∧
    (space f.base = 1 ∨ space f.base = 2 →
      (f.fmt ∉ [0x04, 0x05, 0x11] → exec (.tatom w) s = .next (s.blockFaultC .t cBAD_BUFREC)) ∧
      (f.fmt ∈ [0x04, 0x05, 0x11] → f.bits = 32 → vl * f.bits ≤ 16384 → s.spotsConsume accAtomic live = none →
        s.elSpots s.cur rb f true 2 accAtomic (tDisp h w) (tCs w) (tIdx h w vl) = .ok rows →
        stored (.tatom w) fun n t => n = 4 * live.length ∧
          ∀ cell k x, cell < 16 → elem rows cell k = some x → x.keys.Nodup →
            (∀ cell' k' y, cell' < 16 → elem rows cell' k' = some y → (cell, k) ≠ (cell', k') → ¬Spot.meets 32 x y) →
            let old := leNat (x.keys.map (memGet s.mem))
            leNat (x.keys.map (memGet t.mem)) =
              (if f.fmt = 0x11 then Num.toCode Num.fp32 (Num.round Num.fp32 .rne 0
                (Sys2Proof.Num.add .rne (Num.ofCode Num.fp32 old) (Num.ofCode Num.fp32 (src cell k))).1).1
              else old + src cell k) % 2 ^ 32)))

/-- 08 R270-R273, R452; 04 R444; 11 R329: TSPST writes each cell's vector packed, TSPLD brings it back, and unpacking what
packing made gives the elements again; TBARR subtracts the bytes counted from a barrier object and starts the count again.
Outside space 1 the harness's 2048 requests bound each (01 R27).
Where the spec leaves a point open the statement follows the model's choice: log entries 9, 21, 22 and 24. -/
def Obligations.SparseVectorsAndArrival : Prop := ∀ (s : State) (w : TWord) (b : Block) (rb : BufRec) (f : Rec)
    (rows : List (List (Option Spot))) (ds : List (Option Int)) (vecs : List (List Nat × List Spot)),
  let h := s.har s.cur
  let vl := h.vl.toNat
  let reg := w.reg.toNat
  let live := vecs.flatMap (·.2)
  let roomy := fun (f : Rec) => space f.base = 1 ∨ outstanding h < 2048
  let pack := fun cell => packed f (h.tcodes cell reg f.bits vl)
  (∀ (g : Rec) (cs : List Nat), 8 ≤ g.bits → cs.length ≤ g.ext0 → (∀ c ∈ cs, c < 2 ^ g.bits) → g.fmt < 2 ^ 16 →
    (packed g cs).length < 2 ^ 16 → ((packed g cs).length : Int) ≤ g.s1 →
    unpack g cs.length (fun off n => (.ok (((packed g cs).drop off).take n) : Except Unit (List Byte))) =
      .ok (.ok ((packed g cs).length, cs))) ∧
  (s.tRec w true false true = .ok (rb, f) → tBad w (memUse w true false) = false → vl * f.bits ≤ 16384 → vl ≤ f.ext0 →
    ready .t b w.gk w.gn (if w.take then [.v reg] else []) [] s → tVectors h w f true = .ok ds → memOk s →
    (∀ cell, cell < 16 → ((pack cell).length : Int) ≤ f.s1) →
    (cells.zip ds).mapM (fun x => match x.2 with
      | none => Except.ok []
      | some d => s.byteSpots s.cur rb x.1 d (pack x.1).length 1 accWrite) = .ok rows →
    (¬roomy f → waits .t b (.tspst w) s) ∧ (roomy f →
    quiet (s.engAsker .t f) ((liveSpots rows).flatMap (·.keys)) s → (∀ a ∈ (liveSpots rows).flatMap (·.keys), s.quarantined a = false) →
    ∃ s1 t, tGoes (.tspst w) b (if w.take then [.v reg] else []) [] { age := 0, due := .cycle (s.eng .t).cyc, effs := [] }
        s s1 t ∧ stores s.cur ((liveSpots rows).flatMap (·.keys)) (liveSpots rows).length s s1 ∧
      elementsStored 8 rows (fun cell k => ((pack cell).getD k 0).toNat) t)) ∧
  (s.tRec w true true false = .ok (rb, f) → tBad w (memUse w false false) = false → vl * f.bits ≤ 16384 → vl ≤ f.ext0 →
    ready .t b w.gk w.gn [] (if w.fild then [.v reg] else []) s → tVectors h w f false = .ok ds →
    (¬roomy f → waits .t b (.tspld w) s) ∧
    ((cells.zip ds).mapM (fun x => s.vecLoad rb f vl x.1 x.2) = .ok vecs → roomy f →
    quiet (s.engAsker .t f) (live.flatMap (·.keys)) s →
    ∃ s1 s2 lat t effs, s.banks .t f (live.flatMap (·.keys)) = .ok (s1, lat) ∧ onlyBanks s.cur s s2 ∧
      (let due := if space f.base = 1 then Due.cycle ((s.eng .t).cyc + lat) else .free .load
       tGoes (.tspld w) b [] (if w.fild then [.v reg] else []) { age := 0, effs := effs, due := due, via := viaOf f } s s2 t) ∧
      memSame s t ∧
      writesV [reg] effs ∧ ∀ (h0 : Harness) cell k, cell < 16 → k < vl →
        code f.bits ((h0.applyAll effs).vget cell reg) k = (vecs.getD cell ([], [])).1.getD k 0 % 2 ^ f.bits)) ∧
  ∀ (key : Nat) (p : Word),
    let n := s.barrBytes
    let arr := w.ext.getLsbD 0
    tBad w { brec := true, ereg := true, imm := true, ext := decide (w.ext.toNat ≤ 1) } = false →
    ready .t b w.gk w.gn [] [] s → h.brec .t w.brec.toNat = some rb → rb.fields.spf = false →
    h.scaleOk .t w.brec.toNat rb.fields = true → s.barObject s.cur rb (tDisp h w) = .ok (key, p) →
    let done := fun (u : State) => ∃ t, tGoes (.tbarr w) b [] [] { age := 0, due := .cycle (s.eng .t).cyc, effs := [] } s u t
    (n = 0 → arr = false → done (s.barrTaken none)) ∧
    (n ≠ 0 ∨ arr = true → ¬roomy rb.fields → waits .t b (.tbarr w) s) ∧
    (n ≠ 0 ∨ arr = true → roomy rb.fields → s.spotsConsume accAtomic [{ p := p, keys := (List.range 8).map (key + ·), half := 0 }] = none →
      quiet (s.engAsker .t rb.fields) ((List.range 8).map (key + ·)) s → ∃ s1, onlyBanks s.cur s s1 ∧ ∀ u,
        (s1.barrUpdates key n arr = (u, false) → done u) ∧
        (s1.barrUpdates key n arr = (u, true) → exec (.tbarr w) s = .next (u.blockFaultC .t cBAR_OVERFLOW)))

/-- 08 R265-R269; 01 R11, R12: TSHIFT moves a register one cell in its direction: what leaves at the edge goes to the
neighbour (mode 1, whose buffer it must find empty while it takes its own), comes in again at the other side (mode 2), or is
replaced by zeros. TXSEND sends a register to a harness of the partition, TXRECV takes the oldest message of a source.
Where the spec leaves a point open the statement follows the model's choice: log entry 23. -/
def Obligations.Exchange : Prop := ∀ (s : State) (w : TWord) (b : Block),
  let h := s.har s.cur
  let reg := w.reg.toNat
  let x := w.ext.toNat
  let takes := if w.take then [FeReg.v reg] else []
  let fills := if w.fild then [FeReg.v reg] else []
  let cyc := (s.eng .t).cyc
  (∀ d mode, d = x / 2 ^ 12 % 4 → mode = x / 2 ^ 10 % 4 → mode ≠ 3 → ready .t b w.gk w.gn takes fills s →
    tBad w { reg := .v, fild := true, take := true, ext := decide (x % 2 ^ 10 = 0) } = false →
    let side := (d + 2) % 4
    let fwd := if mode = 1 then s.neighbour s.cur d else none
    let back := if mode = 1 then s.neighbour s.cur side else none
    let inb := h.edge.getD side none
    -- coordinates of the cell behind: north has y - 1 ahead, east x + 1
    let ux := fun cell => ((cell % 4 : Nat) : Int) - (if d = 1 then 1 else if d = 3 then -1 else 0)
    let uy := fun cell => ((cell / 4 : Nat) : Int) - (if d = 2 then 1 else if d = 0 then -1 else 0)
    (∀ n, fwd = some n → (s.har n).running = true → s.edgeTaken n side = false) → (back.isSome = true → inb.isSome = true) →
    ∃ s1 t effs, tGoes (.tshift w) b takes fills { age := 0, due := .cycle (cyc + 4), effs := effs } s s1 t ∧
      s1.efly = s.efly ++ (fwd.toList.map fun n => (n, side, (leavingCells d).map fun c => h.vget c reg)) ∧
      s1 = { s with hs := s1.hs, efly := s1.efly } ∧ (∀ q, q ≠ s.cur → s1.har q = s.har q) ∧
      s1.har s.cur = { h with edge := if back.isSome then h.edge.setIfInBounds side none else h.edge } ∧
      writesV [reg] effs ∧ ∀ (h0 : Harness) cell, cell < 16 → (h0.applyAll effs).vget cell reg =
        if 0 ≤ ux cell ∧ ux cell < 4 ∧ 0 ≤ uy cell ∧ uy cell < 4 then h.vget (4 * (uy cell).toNat + (ux cell).toNat) reg
        else if mode = 2 then h.vget (4 * (uy cell % 4).toNat + (ux cell % 4).toNat) reg
        else if back.isSome then
          (splice (h0.vget cell reg) 0 ((inb.getD []).getD (if d % 2 = 0 then cell % 4 else cell / 4)
            (List.replicate 2048 0))).take 2048
        else List.replicate 2048 0) ∧
  (ready .t b w.gk w.gn takes [] s → ∀ m ch rot, m = x / 2 ^ 10 % 16 → ch = x % 16 → rot = w.imm.toNat →
    tBad w { reg := .v, ereg := true, take := true, imm := m == 2 && decide (rot < 16),
             ext := decide (m < 4) && decide (x / 16 % 64 = 0) } = false →
    (s.expressRank h w = none → exec (.txsend w) s = .next (s.blockFaultC .t cBAD_SPACE)) ∧
    ∀ n, s.expressRank h w = some n → ((s.har n).running = true → s.channelLoad n ch < 2) →
      ∃ msg t, tGoes (.txsend w) b takes [] { age := 0, due := .cycle cyc, effs := [] } s { s with xfly := s.xfly ++ [(n, msg)] } t ∧
        msg.chan = ch ∧ msg.src = s.cur ∧ ∀ cell, cell < 16 →
          msg.data[if m = 0 then cell else if m = 1 then 4 * (cell % 4) + cell / 4 else if m = 2 then (cell + rot) % 16
            else 15 - cell]? = some (h.vget cell reg)) ∧
  (ready .t b w.gk w.gn [] fills s → tBad w { reg := .v, ereg := true, fild := true, ext := decide (x < 16) } = false →
    (s.expressRank h w = none → exec (.txrecv w) s = .next (s.blockFaultC .t cBAD_SPACE)) ∧
    ∀ n pre msg post, s.expressRank h w = some n → h.xmsg = pre ++ msg :: post →
      (∀ m ∈ pre, ¬(m.chan = x ∧ m.src = n)) → msg.chan = x → msg.src = n →
      ∃ t, tGoes (.txrecv w) b [] fills { age := 0, due := .free .load, effs := cells.map fun cell => Eff.v cell reg 0 (msg.data.getD cell []) }
        s (s.modHar s.cur fun h => { h with xmsg := pre ++ post }) t) ∧
  (∀ n side data rest, s.efly = (n, side, data) :: rest → exec .edgeDataArrival s = .next
    (if (s.har n).running then ({ s with efly := rest } : State).modHar n fun h => { h with edge := h.edge.setIfInBounds side (some data) }
      else { s with efly := rest })) ∧
  (∀ n msg rest, s.xfly = (n, msg) :: rest → exec .expressMessageArrival s = .next
    (if (s.har n).running then ({ s with xfly := rest } : State).modHar n fun h => { h with xmsg := h.xmsg ++ [msg] }
      else { s with xfly := rest }))

/-- 08 R275, R276; 05 R153; 18 R430: TEADD and TEMOV write e registers; TXCH reads one element of one cell into a g register, zero
beyond the register. A result without fixed latency of T, or a table or seek of D, arrives by itself, or is lost with its link. Of
a word of TXCH that comes while a sequencer's own value is still to land in its g register, the sequencer's value stays; it does
not land in a cycle in which an instruction that writes the register is in issue.
Where the spec leaves a point open the statement follows the model's choice: log entry 21. -/
def Obligations.AddressRegisters : Prop := ∀ (s : State) (w : TWord) (b : Block),
  let h := s.har s.cur
  let x := w.ext.toNat
  let due := Due.cycle ((s.eng .t).cyc + 1)
  let e := fun n => h.e.getD n (0 : BitVec 48)
  let imm : BitVec 48 := w.imm.signExtend 48
  (ready .t b w.gk w.gn [] [] s →
    (tBad w { ereg := true, imm := true, ext := decide (x % 32 = 0) && (w.ext.getLsbD 5 || decide (x / 64 % 16 = 0)) } = false →
      ∃ t, issues (.teadd w) .t b [] [] due 1 0
        [.te w.ereg (e (x / 2 ^ 10) + (if w.ext.getLsbD 5 then e (x / 64 % 16) else 0) + imm)] s t) ∧
    ∀ form, form = x % 4 → tBad w { ereg := true, imm := form == 0 || form == 3,
                                    ext := decide (x / 4 % 256 = 0) && (form == 1 || decide (x / 2 ^ 10 = 0)) } = false →
      ∃ t, issues (.temov w) .t b [] [] due 1 0 [.te w.ereg
        (if form = 0 then imm else if form = 1 then e (x / 2 ^ 10) else if form = 2 then h.vl.setWidth 48
          else BitVec.ofNat 48 (imm.toNat * 2 ^ 20 + (e w.ereg.toNat).toNat % 2 ^ 20))] s t) ∧
  (let takes := if w.take then [FeReg.v w.reg.toNat] else []
   let size := 2 ^ (x % 4)
   let sel := (e w.ereg.toNat).toNat
   let j := sel % 2 ^ 11
   let v := BitVec.ofNat (8 * size) (element h (sel / 2 ^ 11 % 16) w.reg.toNat size j)
   tBad w { reg := .v, ereg := true, take := true, imm := decide (w.imm.toNat < 64), ext := decide (x < 8) } = false →
   ready .t b w.gk w.gn takes [] s →
   ∃ t, issues (.txch w) .t b takes [] (.free .load) 1 0 [.g (BitVec.ofNat 6 w.imm.toNat)
     (if 2048 ≤ j * size then 0 else if x / 4 = 1 then v.signExtend 64 else v.setWidth 64)] s t) ∧
  let r := s.ev.a
  (∀ p, s.arrival r s.ev.e = some p →
    (s.viaDown p = true → exec .tLoadArrival s = .next (s.linkFault r s.ev.e p)) ∧
    (s.viaDown p = false → exec .tLoadArrival s = .next (s.modHar r fun h =>
      (h.modEng s.ev.e fun y => { y with pend := eraseOne p y.pend }).applyAll (p.effs.filter fun x => match x with
        | .g i _ => (h.seq.ready.find i.toNat).isNone
        | _ => true)))) ∧
  ∀ p i v, s.ev.e = .t → s.arrives r .t .load = some p → Eff.g i v ∈ p.effs → i ∈ (s.har r).seq.inIssue →
    exec .tLoadArrival s = .next s

/-- 05 R142, R148-R151; 01 R17, R20, R21, R29; 16 R399: loops, the words that end or do nothing or that no encoding has, and
the life of a block: dispatch with its captured arguments once every access that its EXEC follows is performed (04 R117), timed
start, retirement. The innermost loop whose body ends at the word that issues goes back to its first word while its count is not
used up; in its last iteration it is left with its count restored, and the next loop around it that ends there too follows. Its e
register steps either way. An end word inside a loop is LOOP_NEST.
Where the spec leaves a point open the statement follows the model's choice: log entries 18, 56 and 64. -/
def Obligations.BlockFlow : Prop := ∀ (s : State) (e : Eng) (w : LWord) (b : Block) (u : BitVec 128),
  let x := s.eng e
  let set := fun (f : EngSt → EngSt) => s.modHar s.cur fun h => h.setEng e (f (h.eng e))
  let pick := fun (v d t : Instr) => match e with | .v => v | .d => d | .t => t
  let cnt := if w.csrc then ((s.har s.cur).scalar e w.creg.toNat).toNat else w.cimm.toNat
  let last := b.pc + 1 + w.lenm.toNat
  (x.blk = some b → x.skip = false →
    (let loop := pick (.loopV w) (.loopD w) (.loopT w)
     (loopBad w e = true → exec loop s = .next (s.blockFaultC e cILLEGAL_INSTR)) ∧
     (loopBad w e = false →
      if (∃ l ∈ b.loops, l.lv = w.lv.toNat ∨ l.last < last) ∨ w.csrc = true ∧ 2 ^ 32 ≤ cnt then
        exec loop s = .next (s.blockFaultC e cLOOP_NEST)
      else exec loop s = .next (set fun x => { x with
        lc := x.lc.setIfInBounds w.lv.toNat (BitVec.ofNat 32 cnt), busy := x.cyc + 1
        blk := some (if cnt = 0 then { b with pc := last + 1 } else
          { b with pc := b.pc + 1, loops := { lv := w.lv.toNat, n := cnt, first := b.pc + 1, last := last,
                                              se := w.se.toNat, stride := w.stride.signExtend 48 } :: b.loops }) }))) ∧
    (let idle := pick .vnop .dnop .tnop
     ((∀ l ∈ b.loops, l.last ≠ b.pc) → exec idle s = .next (set fun x => { x with
       blk := some { b with pc := b.pc + 1 }, busy := x.cyc + 1, rows := [] })) ∧
     ∀ pre l ls, b.loops = pre ++ l :: ls → (∀ l ∈ pre, l.last ≠ b.pc) → l.last = b.pc →
       let stepped := s.modHar s.cur fun h => if l.stride = 0 then h else h.stepE l.se l.stride
       let n := x.lc.getD l.lv 0 - 1
       (n ≠ 0 → exec idle s = .next (stepped.modEng e fun x => { x with
         blk := some { b with pc := l.first }, busy := x.cyc + 1, rows := [], lc := x.lc.setIfInBounds l.lv n })) ∧
       -- the loop is left: the word ends as it would in the state in which that loop is active no more
       (n = 0 → exec idle s = exec idle (stepped.modEng e fun x => { x with
         blk := some { b with loops := pre ++ ls }, lc := x.lc.setIfInBounds l.lv (BitVec.ofNat 32 l.n) }))) ∧
    (let endw := pick .vend .dend .tend
     (b.loops ≠ [] → exec endw s = .next (s.blockFaultC e cLOOP_NEST)) ∧
     (b.loops = [] → exec endw s = .next (set fun x => { x with blk := none, ended := x.ended ++ [b.cmd], busy := x.cyc + 1 }))) ∧
    exec (.unassignedEngineOpcode e u) s = .next (s.blockFaultC e cILLEGAL_INSTR)) ∧
  (e = s.ev.e → ∀ c rest, x.queue = c :: rest →
    let h := s.har s.cur
    let free := x.blk = none ∧ x.busy ≤ x.cyc ∧ (∀ l ∈ h.seq.loadQ, c.sep ≤ l.epoch) ∧ (∀ l ∈ h.seq.back, c.sep ≤ l.epoch) ∧
      ∀ t ∈ h.seq.storeQ, c.sep ≤ t.epoch
    let arg := fun i => if i = 0 then c.a0 else if i = 1 then c.a1 else if i = 2 then c.a2 else c.a3
    let begins := fun i => ∃ t, exec i s = .next t ∧ onlyHar s.cur s t ∧
      t.har s.cur = { h.setEng e { x with queue := rest, blk := some { cmd := c, pc := c.off, start := x.cyc } } with
        vc := (t.har s.cur).vc, dc := (t.har s.cur).dc, e := (t.har s.cur).e } ∧
      ∀ f j, j < 16 → (t.har s.cur).scalar f j =
        if f = e ∧ j < 4 then (if e = .t then ((arg j).setWidth 48).setWidth 64 else arg j) else h.scalar f j
    (c.timed = false → (free → begins .blockDispatch) ∧ (¬free → exec .blockDispatch s = .next s)) ∧
    (c.timed = true →
      (h.sp.frame.toNat < c.stamp.toNat → exec .timedBlockStart s = .next s) ∧
      (h.sp.frame.toNat = c.stamp.toNat → free → begins .timedBlockStart) ∧
      (h.sp.frame.toNat = c.stamp.toNat → ¬free → exec .timedBlockStart s = .next (s.missStart e c 1)) ∧
      (c.stamp.toNat < h.sp.frame.toNat → exec .timedBlockStart s = .next (s.missStart e c 2)))) ∧
  (e = s.ev.e → ∀ c rest, x.ended = c :: rest → (∀ p ∈ x.pend, p.age ≠ c.age) →
    ∃ t, exec .blockRetire s = .next t ∧ onlyHar s.cur s t ∧ t.har s.cur =
      { (s.har s.cur).setEng e { x with ended := rest, ctr := x.ctr + 1 } with recs := (t.har s.cur).recs }) ∧
  -- a loop's step of e(i), and that of a write of e(i) that becomes visible with it
  ∀ (h : Harness) (i : Nat) (d : BitVec 48),
    let hits := ∃ p ∈ h.te.pend, ∃ j v, Eff.te j v ∈ p.effs ∧ j.toNat = i
    (¬hits → h.stepE i d = { h with e := h.e.setIfInBounds i (h.e.getD i 0 + d) }) ∧
    (hits → ∃ g : Eff → Eff, h.stepE i d = { h with te := { h.te with
        pend := h.te.pend.map fun p => { p with effs := p.effs.map g } } } ∧
      (∀ j v, g (.te j v) = .te j (if j.toNat = i then v + d else v)) ∧ ∀ y, (∀ j v, y ≠ .te j v) → g y = y)

/-! ### Copy engines -/

/-- 02 R50; 09 R281, R282, R284, R287-R304, R306: each packet type, once it may run and while no access stops it, asks the tower
banks for its beats and, once they have served them, writes its output elements in order and ends with its status: OK, or what its own checks give. COPY and COPY4D move what stands in the source,
COPY4D converting it, FILL repeats its 8 bytes, BCAST writes the source to every cell named, GATHER moves the rows that its
index list names, the grid packets write sums of weighted elements, EBZ writes a stream and EBX the values of one, CRED and
CGATH write the codes latched as their instance began.
Where the spec leaves a point open the statement follows the model's choice: log entries 41, 57 and 65. -/
def Obligations.CopyPackets : Prop := ∀ (s : State) (q : PktId) (k : Pkt),
  let may := fun ty => s.runnable q ty = some k
  let c := k.c
  let src := k.op 0
  let dst := k.op 1
  let ok : Status := (cOK, 0)
  let codeAt := fun (bits : Nat) (p : Option Spot) => s.spotCode bits p
  let byteAt := fun a => (memGet s.mem a).toNat
  let keysOf := fun (n : Nat) (R : Nat → Option Spot) => (List.range n).flatMap fun j => ((R j).map (·.keys)).getD []
  let once := fun (i : Instr) (n : Nat) (into : Nat → Nat) (read : List Nat) (byte : Nat → Nat) =>
    apart k n (byteSpot into) read s → k.vals = [] → outputs i k ok n (byteSpot into) byte s
  -- what each packet writes, as a plan
  (may tCOPY → carries (.copy q) k (s.copyPlan k) ok s) ∧ (may tCOPY4D → carries (.copy4d q) k (s.copy4dPlan k) ok s) ∧
  (may tGATHER → carries (.gather q) k (s.gatherPlan k).1 (s.gatherPlan k).2 s) ∧
  (may tGRIDR → carries (.gridr q) k (s.gridPlan k) ok s) ∧ (may tGRIDP → carries (.gridp q) k (s.gridPlan k) ok s) ∧
  (may tGRIDC → carries (.gridc q) k (s.gridPlan k) ok s) ∧ (may tEBZ → carries (.ebz q) k (s.ebzPlan k).1 (s.ebzPlan k).2 s) ∧
  (may tEBX → carries (.ebx q) k (s.ebxPlan k).1 (s.ebxPlan k).2 s) ∧
  ((∀ v ∈ k.vals, v.isSome = true) →
    (may tCRED → carries (.cred q) k (s.credPlan k) ok s) ∧ (may tCGATH → carries (.cgath q) k (s.gathPlan k) ok s)) ∧
  -- R287: COPY, FILL
  (∀ from' into : Nat → Nat,
    let n := wf c.w4 0 40
    (may tCOPY → (∀ j, j < n → readable k src ((wf c.w2 0 48 : Int) + j) 1 [from' j] s) →
      (∀ j, j < n → writable k dst ((wf c.w3 0 48 : Int) + j) 1 [into j] s) →
      once (.copy q) n into ((List.range n).map from') fun j => byteAt (from' j)) ∧
    (may tFILL → (∀ j, j < n → writable k src ((wf c.w2 0 48 : Int) + j) 1 [into j] s) →
      once (.fill q) n into [] fun j => (c.w3.extractLsb' (8 * (j % 8)) 8).toNat)) ∧
  -- R288: BCAST
  (may tBCAST → k.vals = [] → ∀ from' : Nat → Nat,
    let n := wf c.w4 0 22
    let cellsOf := (List.range 8).flatMap fun row => (List.range 16).filterMap fun cell =>
      if c.w3.getLsbD (16 + row) && c.w3.getLsbD cell then
        some (towerKey (128 * (owner dst.base / 128) + 16 * row + owner dst.base % 16) (2 ^ 22 * cell + bcastAt dst)) else none
    let W := fun j => byteSpot (fun j => cellsOf.getD (j / n) 0 + j % n) j
    (∀ j, j < n → readable k src ((wf c.w2 0 48 : Int) + j) 1 [from' j] s) →
    apart k (cellsOf.length * n) W ((List.range n).map from') s →
    outputs (.bcast q) k ok (cellsOf.length * n) W (fun j => byteAt (from' (j % n))) s) ∧
  -- R289: COPY4D, pair j of its loop order
  (may tCOPY4D → k.vals = [] → ∀ (R : Nat → Option Spot) (W : Nat → Option (Spot × Nat)),
    let at' := fun (w : Word) i => (BitVec.ofNat 16 (wf w (16 * i) 16)).toInt
    let ext := fun i => wf c.w4 (16 * i) 16
    let n := ext 0 * ext 1 * ext 2 * ext 3
    let index := fun (w : Word) (j : Nat) => (at' w 0 + ((j % ext 0 : Nat) : Int), at' w 1 + ((j / ext 0 % ext 1 : Nat) : Int),
      at' w 2 + ((j / ext 0 / ext 1 % ext 2 : Nat) : Int) + ((j / ext 0 / ext 1 / ext 2 : Nat) : Int) * at' w 3)
    (∀ j, j < n → readsAt k src (index c.w2 j) (R j) s ∧ writesAt k dst (index c.w3 j) (W j) s) →
    apart k n W (keysOf n R) s →
    outputs (.copy4d q) k ok n W (fun j => match elTy src.fmt, elTy dst.fmt with
      | some a, some b => (b.conv ((Num.Mode.ofCode c.rnd).getD .rne) 0 0 0 (a.value (codeAt src.bits (R j)))).1
      | _, _ => codeAt src.bits (R j)) s) ∧
  -- R290: GATHER, element j % EXT0 of row j / EXT0
  (may tGATHER → k.vals = [] → ∀ (I R : Nat → Option Spot) (W : Nat → Option (Spot × Nat)),
    let rows := wf c.w2 32 32
    let n := rows * src.ext0
    let row := fun j => (BitVec.ofNat 32 (codeAt 32 (I j))).toInt
    -- row j of the source, for its bounds mode
    let at' := fun j => ({ src with ext0 := max 1 src.ext0 } : Rec).locate false 0 (row j) 0
    (k.op 2).bits = 32 →
    (∀ j, j < rows → readsAt k (k.op 2) (((wf c.w3 0 48 + j : Nat) : Int), 0, 0) (I j) s) →
    ((∀ j, j < rows → ∃ x, at' j = .ok x) →
      (∀ j, j < n → readsAt k src (((j % src.ext0 : Nat) : Int), row (j / src.ext0), 0) (R j) s ∧
        writesAt k dst (((j % src.ext0 : Nat) : Int), ((j / src.ext0 : Nat) : Int), 0) (W j) s) →
      apart k n W (keysOf rows I ++ keysOf n R) s →
      outputs (.gather q) k ok n W (fun j => codeAt src.bits (R j)) s) ∧
    ((∃ j e, j < rows ∧ at' j = .error e) → apart k 0 W [] s →
      outputs (.gather q) k (cBOUNDS, 0) 0 W (fun _ => 0) s)) ∧
  -- R291-R295: the grid packets
  (∀ (i : Instr) (hs hd : Nat → Nat), (may tGRIDR ∧ i = .gridr q ∧ hs = c.halo ∧ hd = fun _ => 0) ∨
      (may tGRIDP ∧ i = .gridp q ∧ hs = c.halo ∧ hd = fun _ => 0) ∨ (may tGRIDC ∧ i = .gridc q ∧ hs = (fun _ => 0) ∧ hd = c.halo) →
    k.vals = [] → ∀ (V A : Int × Int × Int → Num.Val) (VK AK : Int × Int × Int → List Nat) (W : Nat → Option (Spot × Nat)) (ty : ElTy),
    let value := fun (f : Rec) ks => ((elTy f.fmt).map fun t => t.value (leNat (ks.map (memGet s.mem)))).getD (Num.Val.zero false)
    let place := fun (f : Rec) (x : Int × Int × Int) => x.1 * f.bytes + x.2.1 * f.s1 + x.2.2 * f.s2
    let ext := fun d => dst.ext d + 2 * hd d
    let n := ext 0 * ext 1 * ext 2
    let out := fun j => (((j % ext 0 : Nat) : Int) - hd 0, ((j / ext 0 % ext 1 : Nat) : Int) - hd 1, ((j / ext 0 / ext 1 : Nat) : Int) - hd 2)
    -- R292, one dimension
    let use := fun d (x : Int) => if -(hs d : Int) ≤ x ∧ x < (src.ext d : Int) + hs d then some x else if c.bnd d = 0 then none
      else if c.bnd d = 1 then some (max 0 (min x ((src.ext d : Int) - 1))) else some (x % src.ext d)
    let at' := fun (x y z : Int) => match use 0 x, use 1 y, use 2 z with
      | some a, some b, some d => V (a, b, d)
      | _, _, _ => Num.Val.zero false
    let up := fun d (x : Int) => if c.coarsen d = true ∧ c.type = tGRIDR then 2 * x
      else if c.coarsen d = true ∧ c.type = tGRIDP then x / 2 else x
    let odd := fun d (x : Int) => if c.coarsen d = true ∧ x % 2 = 1 then 2 ^ d else 0
    let entry := fun o => let e := leNat ((k.data.drop o).take 8)
      (Num.ofCode Num.fp32 (e % 2 ^ 32), (BitVec.ofNat 8 (e / 2 ^ 32)).toInt, (BitVec.ofNat 8 (e / 2 ^ 40)).toInt,
        (BitVec.ofNat 8 (e / 2 ^ 48)).toInt)
    let head := leNat (k.data.take 8)
    let terms := fun (x : Int × Int × Int) =>
      let p := odd 0 x.1 + odd 1 x.2.1 + odd 2 x.2.2
      if c.type = tGRIDC then [(Num.Val.fin false 1 0 false, (0 : Int), (0 : Int), (0 : Int))]
      else if c.type = tGRIDP then (List.range (head / 2 ^ (16 + 4 * p) % 16)).map fun t => entry (8 + 64 * p + 8 * t)
      else (List.range (head / 2 ^ 8 % 2 ^ 8)).map fun t => entry (8 + 8 * t)
    let sum := fun x => (terms x).foldl (fun acc e => (Num.round Num.fp64 .rne 0 (Num.fma .rne e.1
      (at' (up 0 x.1 + e.2.1) (up 1 x.2.1 + e.2.2.1) (up 2 x.2.2 + e.2.2.2)) acc).1).1)
      (if c.type = tGRIDP ∧ c.gadd = true then A x else Num.Val.zero false)
    (∀ x y z, (-(hs 0 : Int) ≤ x ∧ x < (src.ext 0 : Int) + hs 0) → (-(hs 1 : Int) ≤ y ∧ y < (src.ext 1 : Int) + hs 1) →
      (-(hs 2 : Int) ≤ z ∧ z < (src.ext 2 : Int) + hs 2) →
      readable k src (place src (x, y, z)) src.bytes (VK (x, y, z)) s ∧ V (x, y, z) = value src (VK (x, y, z))) →
    src.bits ≠ 4 → dst.bits ≠ 4 → (∀ d, d < 3 → src.ext d ≠ 0) → elTy dst.fmt = some ty →
    (∀ j, j < n → (c.type = tGRIDP → c.gadd = true →
        readable k dst (place dst (out j)) dst.bytes (AK (out j)) s ∧ A (out j) = value dst (AK (out j))) ∧
      ∃ ks, writable k dst (place dst (out j)) dst.bytes ks s ∧ W j = some ({ p := 0, keys := ks, half := 0 }, dst.bits)) →
    apart k n W [] s →
    outputs i k ok n W (fun j => (ty.conv ((Num.Mode.ofCode c.rnd).getD .rne) (Num.srBits c.w3.toNat 0 j) 0 0 (sum (out j))).1) s) ∧
  -- R296-R299: EBZ
  (may tEBZ → k.vals = [] → ∀ (R : Nat → List Nat) (B : List (List Byte)) (into : Nat → Nat),
    let n := src.count
    let fmt := if src.fmt = 0x10 then Num.fp64 else Num.fp32
    let x := fun i => leNat ((R i).map (memGet s.mem))
    -- the rounded quotient of value i, none for an escape
    let quot := fun i => match Num.ofCode fmt (x i) with
      | .fin neg m e _ => let r := (Num.roundAt .rne 0 neg m (e - (c.ebExp + 1)) false 0).1
        if r < 2 ^ 31 then some (if neg then -(r : Int) else r) else none
      | _ => none
    let zig := fun b i => let before := if i = 0 then 0 else (quot (64 * b + i - 1)).getD 0
      let d := (BitVec.ofInt 32 ((quot (64 * b + i)).getD 0 - before)).toInt
      if 0 ≤ d then (2 * d).toNat else (-2 * d - 1).toNat
    let stream := leBytes 2 0x4542 ++ leBytes 1 1 ++ leBytes 1 src.fmt ++ leBytes 2 (c.ebExp % 2 ^ 16).toNat ++ leBytes 2 0 ++
      leBytes 4 n ++ leBytes 4 (16 + B.flatten.length) ++ B.flatten
    src.bits = 8 * src.bytes → src.bits ≠ 4 →
    (∀ i, i < n → readable k src ((i * src.bytes : Nat) : Int) src.bytes (R i) s) → B.length = (n + 63) / 64 →
    (∀ b, b < B.length → codedBlock src.bytes (min 64 (n - 64 * b)) (zig b) (fun i => (quot (64 * b + i)).isNone)
      (fun i => x (64 * b + i)) true (B.getD b [])) →
    (stream.length ≤ dst.spanSize → (∀ j, j < stream.length → writable k dst (j : Int) 1 [into j] s) →
      once (.ebz q) stream.length into [] fun j => (stream.getD j 0).toNat) ∧
    (dst.spanSize < stream.length → (∀ j, j < dst.spanSize → writable k dst (j : Int) 1 [into j] s) →
      apart k dst.spanSize (byteSpot into) [] s → ∃ t bytes det, exec (.ebz q) s = .next t ∧
        pktEnds k (cEB_OVERRUN, det) bytes s t ∧
        (16 ≤ dst.spanSize → ∃ b, b < B.length ∧ det = b % 2 ^ 16 ∧ 16 + ((B.take b).map List.length).sum ≤ dst.spanSize ∧
          dst.spanSize < 16 + ((B.take (b + 1)).map List.length).sum) ∧
        ∀ a, (∀ j, j < dst.spanSize → (j < 12 ∨ 16 ≤ j) → a ≠ into j) → memGet t.mem a = memGet s.mem a)) ∧
  -- R298, R300: EBX
  (may tEBX → k.vals = [] → ∀ (h : List Nat), readable k src 0 (min 16 src.spanSize) h s →
    let hd := h.map (memGet s.mem)
    let at' := fun o n => leNat ((hd.drop o).take n)
    let fmt := at' 3 1
    let e := (BitVec.ofNat 16 (at' 4 2)).toInt
    let n := at' 8 4
    let good := 16 ≤ src.spanSize ∧ at' 0 2 = 0x4542 ∧ at' 2 1 = 1 ∧
      (fmt = 0x11 ∧ -150 ≤ e ∧ e ≤ 100 ∨ fmt = 0x10 ∧ -1075 ≤ e ∧ e ≤ 970) ∧ at' 6 2 = 0 ∧ at' 12 4 ≤ src.spanSize ∧ n ≤ dst.count
    (¬good → apart k 0 (byteSpot id) [] s → outputs (.ebx q) k (cEB_CORRUPT, 0) 0 (byteSpot id) (fun _ => 0) s) ∧
    (good → ∀ (pos : Nat → Nat) (K : Nat → List Nat) (z : Nat → Nat → Nat) (esc : Nat → Nat → Bool) (raw : Nat → Nat → Nat)
        (W : Nat → Option (Spot × Nat)),
      let size := if fmt = 0x10 then 8 else 4
      let sf := if fmt = 0x10 then Num.fp64 else Num.fp32
      let df := if dst.fmt = 0x10 then Num.fp64 else Num.fp32
      let back := fun b i => (BitVec.ofInt 32 ((List.range (i + 1)).map fun j =>
        if z b j % 2 = 0 then ((z b j / 2 : Nat) : Int) else -((z b j / 2 : Nat) : Int) - 1).sum).toInt
      let value := fun b i => if esc b i then Num.ofCode sf (raw b i) else (Num.ofIntVal (back b i)).scale (e + 1)
      pos 0 = 16 → pos ((n + 63) / 64) = at' 12 4 →
      (∀ b, b < (n + 63) / 64 → pos (b + 1) = pos b + (K b).length ∧ readable k src (pos b) (K b).length (K b) s ∧
        (∀ i, esc b i = true → raw b i < 2 ^ (8 * size)) ∧
        codedBlock size (min 64 (n - 64 * b)) (z b) (esc b) (raw b) false ((K b).map (memGet s.mem))) →
      (∀ j, j < n → ∃ ks, writable k dst ((j * dst.bytes : Nat) : Int) dst.bytes ks s ∧
        W j = some ({ p := 0, keys := ks, half := 0 }, dst.bits)) →
      apart k n W [] s →
      outputs (.ebx q) k ok n W (fun j => (Num.destF df .rne 0 0 0 (value (j / 64) (j % 64))).1) s)) ∧
  -- R302, R303: CRED and CGATH with the codes that their instance latched
  (∀ (codes : List (List Nat)) (W : Nat → Option (Spot × Nat)), k.vals = codes.map some →
    let m := codes.length
    let n := if c.resv then 2 * m else m
    let elem := fun (f : Rec) j y => ∃ ks, writable k f (f.nth j).1 f.bytes ks s ∧
      y = some (({ p := 0, keys := ks, half := (f.nth j).2 } : Spot), f.bits)
    (may tCRED → (∀ j, j < m → elem dst j (W j) ∧ (c.resv = true → elem (k.op 2) j (W (m + j)))) →
      (∀ x ∈ codes, x.length = if c.resv then 2 else 1) → apart k n W [] s →
      outputs (.cred q) k ok n W (fun j => (codes.getD (j % m) []).getD (j / m) 0) s) ∧
    ∀ into : Nat → Nat, may tCGATH → (∀ x ∈ codes, x.length = 1) →
      (∀ j, j < m → writable k dst (dst.spanLow + (j : Int)) 1 [into j] s) → apart k m (byteSpot into) [] s →
      outputs (.cgath q) k ok m (byteSpot into) (fun j => (codes.getD j []).getD 0 0) s)

/-- 09 R279, R281, R284, R301-R303, R305, R308, R453; 04 R124, R126, R444; 14 R361: a queue is entered with the fields of its
header, refused, or halted where the header cannot be read; another header leaves the packets of the one before to end in it. An
accepted packet is latched and counted in the header. A packet completes, once the banks of its completion addresses have served
it, with its status word, ERRSEEN where that is not OK, its barrier subtraction where it is, its flag, and DONE. A collective begins
once each shard index is held, its inputs latched and its outputs formed from them, or all end with BAD_COLL where they disagree. A retry clears HALT, reads the header again and goes on
with the halted packet from its unit; an abandon passes it by.
Where the spec leaves a point open the statement follows the model's choice: log entries 22, 37, 40, 42, 43, 57 and 65. -/
def Obligations.CopyQueues : Prop := ∀ (s : State) (k : Pkt) (bs : List Byte) (ks : List Nat),
  let d := s.ev.a
  let n := s.ev.b
  let c := s.cew d n
  let p := s.partOfDie d
  let into := fun (t : State) ks v =>
    ks.map (memGet t.mem) = leBytes 8 v ∧ ∀ a, a ∉ ks → memGet t.mem a = memGet s.mem a
  let sound := memOk s ∧ ks.Nodup ∧ ∀ a ∈ ks, s.quarantined a = false
  let ws := bytesWords bs
  let latched := fun (q : Cew) => { q with
    sz := wf (ws.getD 3 0) 0 5, rtbase := ws.getD 4 0, stbase := ws.getD 5 0, ownrank := wf (ws.getD 6 0) 0 9
    ownpart := wf (ws.getD 6 0) 9 2 }
  let rd := (ws.getD 1 0).toNat
  -- entering and leaving
  (let hdr := wf s.ev.v 6 42 * 64
   let fresh := s.nid + 1
   let enters := fun (i : Instr) (q : Cew) => ∃ t, exec i s = .next t ∧ t = { s with dies := t.dies, nid := fresh } ∧
     t.cew d n = q ∧ (∀ m, m ≠ n → t.cew d m = s.cew d m) ∧ (∀ e, (t.die e).pkts = (s.die e).pkts) ∧
     ((∀ x ∈ (s.die d).old, x.1 = n → x.2.ent ≠ c.ent) → c.ent ≠ q.ent → s.busyQueue d n c.ent = true →
       t.queueOf d n c.ent = { c with en := false })
   (∀ f, s.latent = [] → s.devRead p hdr 64 needCR = .error f → ∃ t, exec .queueEnter s = .next t ∧
     t.cew d n = { en := true, hdr := hdr, part := p, ent := fresh, unread := true, halt := true, bad := some 0 }) ∧
   (s.latent = [] → s.devRead p hdr 64 needCR = .ok bs →
     (headerBad ws = true → enters .queueEnter { ref := true, hdr := hdr, part := p, ent := fresh }) ∧
     (headerBad ws = false → s.sameQueue d n hdr p = none → enters .queueEnter (latched
       { en := true, hdr := hdr, part := p, ent := fresh, acc := rd, done := rd, halt := (ws.getD 3 0).getLsbD 9 })) ∧
     (headerBad ws = false → ∀ q, s.sameQueue d n hdr p = some q → enters .queueEnter (latched
       { q with en := true, ref := false, unread := false, acc := rd, done := if q.unread then rd else q.done
                halt := (ws.getD 3 0).getLsbD 9 || q.halt }))) ∧
   (c.hdr = hdr → exec .queueStop s = .next (s.modCew d n fun c => { c with en := false })) ∧
   (c.hdr ≠ hdr → enters .queueStop { hdr := hdr, ref := c.ref, part := p, ent := fresh })) ∧
  -- acceptance
  (∀ m, s.nextAccept d = some m →
    let q := s.cew d m
    let s1 := s.modDie d fun x => { x with lastCew := m }
    let k := s1.latchPacket d m (packetOf ws)
    s.latent = [] → s.devRead q.part (q.slot q.acc) 64 needCR = .ok bs →
    s.devKeys q.part ((q.hdr + 8) % 2 ^ 48) 8 needCW accWrite = .ok ks → sound →
    (∀ st e i, k.st = .ended st e i → st ≠ cPOISON ∧ st ≠ cMEM_ERROR) →
    ∃ t, exec .packetAccept s = .next t ∧ into t ks ((q.acc + 1) % 2 ^ 64) ∧ t.cew d m = { q with acc := q.acc + 1 } ∧
      (t.die d).pkts = (s.die d).pkts ++ [k]) ∧
  -- completion
  (s.findPkt ⟨d, n, s.ev.c, s.ev.d⟩ = some k → k.stuck = none → c.ent = s.ev.d → k.asked = false → (∃ st det, k.st = .ended st det 0) →
    exec .packetCompletion s = .next (s.askBanks k ((if k.c.withBarrier then (s.completionKey k k.c.w6).toOption.toList else []) ++
      if k.c.withFlag then ((s.flagKey k).toOption.getD none).toList else []))) ∧
  (s.findPkt ⟨d, n, s.ev.c, s.ev.d⟩ = some k → k.stuck = none → c.ent = s.ev.d → s.latent = [] → k.asked = true →
    s.served k.id = true → ∀ (st det a : Nat) (t1 t2 t4 u : State), k.st = .ended st det 0 → st ≠ cBAR_OVERFLOW →
    let idx := k.id.idx
    let bar := st = cOK ∧ k.c.withBarrier = true
    -- the barrier object after its chunks, and the bytes that would leave the range of BAL
    let upd := fun (v : State) =>
      if k.bytes = 0 then match barUpdate (v.wordAt a) (.complete 0) with
        | some w => (v.write a (leBytes 8 w.toNat), 0)
        | none => (v, 1)
      else v.barChunks a (chunks k.bytes k.bytes)
    let status := if bar ∧ (upd s).2 ≠ 0 then cBAR_OVERFLOW else st
    let t3 := if bar then (upd t2).1 else t2
    (bar → ∀ t ∈ [s, t2], t.completionKey k k.c.w6 = .ok a ∧ t.consumesN a 8 = none) →
    s.statusWrite k status det = .ok t1 →
    (if status = cOK then t2 = t1 else t1.headerFlags c (BitVec.ofNat 64 (2 ^ 10)) 0 = .ok t2) →
    (if k.c.withFlag = true ∧ status ≠ cBAR_OVERFLOW then ∃ f, t3.completionOk d k.c.w7 8 = .ok () ∧ t3.flagKey k = .ok (some f) ∧
        t4 = t3.write f (leBytes 8 (if status = cOK then k.c.w5 else k.c.w5 ^^^ 0x8000000000000000).toNat)
      else t4 = t3) →
    (s.devKeys c.part ((offset c.stbase + 8 * (idx % 2 ^ c.sz)) % 2 ^ 48) 8 needCW accWrite = .ok ks → sound →
      into t1 ks (BitVec.ofNat 64 (k.c.tag * 2 ^ 32 + det % 2 ^ 16 * 2 ^ 16 + status)).toNat) ∧
    let gone := fun (v : State) => (v.die d).pkts = (s.die d).pkts.filter fun j => j.id != k.id
    (c.done = idx → c.late = [] → t4.headerWrite c 16 (BitVec.ofNat 64 (idx + 1)) = .ok u →
      ∃ v, exec .packetCompletion s = .next v ∧ v.mem = u.mem ∧ v.cew d n = { c with done := idx + 1 } ∧ gone v) ∧
    (c.done ≠ idx → c.done ∉ c.late → ∃ v, exec .packetCompletion s = .next v ∧ v.mem = t4.mem ∧
      v.cew d n = { c with late := idx :: c.late } ∧ gone v)) ∧
  -- collectives
  (∀ ps, s.instanceReady = some ps → (∀ j ∈ ps, s.findPkt j.id = some j) →
    ∃ t, exec .collectiveInstanceBegin s = .next t ∧ memSame s t ∧ ∀ j ∈ ps, ∃ j', t.findPkt j.id = some j' ∧
      j'.st = (if disagree ps then .ended cBAD_COLL 0 0 else .begun) ∧ j'.c = j.c ∧
      (disagree ps = false →
        let qs := byShard ps
        let m := (j.op 0).count
        j'.mates = qs.map (·.id) ∧ ((∀ i ∈ ps, i.brought = [] ∧ i.source = []) →
        (j.c.type = tCRED → ∀ (X Z : Nat → Nat → List Nat) (U C : Nat → Nat → Num.Val) (T : Nat → Nat → Nat → Num.Val) (L : Nat)
            (ty : ElTy),
          let fp := fun ks => Num.ofCode Num.fp32 (leNat (ks.map (memGet s.mem)))
          let r32 := fun v => (Num.round Num.fp32 .rne 0 v).1
          let op := fun x y => if j.c.op = 0 then r32 (Sys2Proof.Num.add .rne x y).1 else if j.c.op = 1 then Num.maxVal x y else Num.minVal x y
          (∀ a q i, qs[a]? = some q → i < m →
            readable q (q.op 0) ((q.op 0).nth i).1 (q.op 0).bytes (X a i) s ∧
            (q.c.resv = true → readable q (q.op 2) ((q.op 2).nth i).1 (q.op 2).bytes (Z a i) s) ∧
            U a i = (if q.c.resv then r32 (Sys2Proof.Num.add .rne (fp (X a i)) (fp (Z a i))).1 else fp (X a i))) →
          (∀ a i, C a i = if j.c.wire = 0 then U a i else if j.c.wire = 1 then (Num.round Num.bf16 .rne 0 (U a i)).1 else
            let us := (List.range (min 32 (m - 32 * (i / 32)))).map fun b => U a (32 * (i / 32) + b)
            let q := Num.quantBlock .vf8 us (maxAbs us)
            Num.blkValue .vf8 (q.special * 256 + q.scale) (q.codes.getD (i % 32) 0)) →
          (∀ i a, T i 0 a = C a i) →
          (∀ i l a, T i (l + 1) a = if 2 * a + 1 < (qs.length + 2 ^ l - 1) / 2 ^ l then op (T i l (2 * a)) (T i l (2 * a + 1))
            else T i l (2 * a)) →
          qs.length ≤ 2 ^ L → elTy (j.op 1).fmt = some ty → qs[j.c.shard]? = some j →
          (j'.brought = (List.range m).map fun i => some (U j.c.shard i, C j.c.shard i)) ∧
          j'.vals = (List.range m).map fun i => some
            ((ty.conv ((Num.Mode.ofCode j.c.rnd).getD .rne) (Num.srBits j.c.w4.toNat 0 i) 0 0 (T i L 0)).1 ::
              if j.c.resv then [Num.toCode Num.fp32 (r32 (Sys2Proof.Num.add .rne (U j.c.shard i) (Num.negate (C j.c.shard i))).1)] else [])) ∧
        (j.c.type = tCGATH → ∀ Y : Nat → Nat → Nat, (∀ a q (i : Nat), qs[a]? = some q → i < (q.op 0).spanSize →
            readable q (q.op 0) ((q.op 0).spanLow + (i : Int)) 1 [Y a i] s) →
          (∀ a, qs[a]? = some j →
            j'.source = (List.range (j.op 0).spanSize).map fun i => some (memGet s.mem (Y a i)).toNat) ∧
          j'.vals = qs.zipIdx.flatMap fun q => (List.range (q.1.op 0).spanSize).map fun i => some [(memGet s.mem (Y q.2 i)).toNat])))) ∧
  (∀ ps S, (∀ j ∈ ps, j.c.shards = S) → (∀ i, i < S → ∃ j ∈ ps, j.c.shard = i) →
    (instanceOf ps S).length = S ∧ ∀ i, i < S → ∃ j ∈ ps, (instanceOf ps S)[i]? = some j ∧ j.c.shard = i) ∧
  (∃ t, exec .collectiveCancel s = .next t ∧ memSame s t ∧ ∀ e, e < s.nDies → t.die e = { s.die e with
    pkts := if s.partOfDie e = d then (s.die e).pkts.map fun j =>
        if j.st = .waiting ∧ j.c.type = n ∧ j.c.group = s.ev.c ∧ j.c.collId = s.ev.d then { j with st := .ended cBAD_COLL 0 0 }
        else j
      else (s.die e).pkts }) ∧
  -- retry and abandon
  (c.halt = false → exec .retry s = .next s ∧ exec .abandon s = .next s) ∧
  (c.halt = true → c.unread = true → s.latent = [] → exec .abandon s =
    .next (s.modCew d n fun c => { c with en := false, halt := false, bad := none })) ∧
  ∀ idx w u, c.halt = true → c.unread = false → c.bad = some idx → s.latent = [] →
    let id : PktId := ⟨d, n, idx, c.ent⟩
    -- HALT leaves the header, which is read again
    s.devWord c.part ((c.hdr + 24) % 2 ^ 48) needCR = .ok w → s.devKeys c.part ((c.hdr + 24) % 2 ^ 48) 8 needCW accWrite = .ok ks →
    sound → s.writeKeys ks (leBytes 8 (w &&& ~~~(0x200 : Word)).toNat) = u →
    u.devRead c.part c.hdr 64 needCR = .ok bs → headerBad ws = false → c.done ∉ c.late →
    (∀ j ∈ (s.die d).pkts, j.id.cew = n → j.id.ent = c.ent → j.id ≠ id → j.haltOf = none) →
    (∀ j ∈ (s.die d).pkts, j.id = id → (∃ code x, j.st = .halted code x) → j.stuck = none) →
    let again := fun (t : State) q => t.cew d n = latched { q with halt := false, bad := none, acc := rd }
    (∃ t, exec .retry s = .next t ∧ into t ks (w &&& ~~~(0x200 : Word)).toNat ∧ again t c ∧
      (t.die d).pkts = (s.die d).pkts.map fun j =>
        if j.id = id then
          match j.st with
          | .halted _ u => { j with st := if j.mates.isEmpty then .ready else .begun, unit := u }
          | _ => { j with stuck := none }
        else j) ∧
    ((∃ j ∈ (s.die d).pkts, j.id = id) →
      let goes := fun (v : State) q => ∃ t, exec .abandon s = .next t ∧ again t q ∧ t.mem = v.mem ∧
        (t.die d).pkts = (s.die d).pkts.filter fun j => j.id != id
      (c.done = idx → c.late = [] → ∀ v, u.headerWrite c 16 (BitVec.ofNat 64 (idx + 1)) = .ok v → goes v { c with done := idx + 1 }) ∧
      (c.done ≠ idx → goes u { c with late := idx :: c.late }))

/-! ### The work scheduler -/

/-- 15 R365-R372, R375, R378, R386, R387; 01 R31; 09 R284: a command that is accepted runs and completes: its status word in the
ring, ERRSEEN where that is not OK, then DONE. A malformed one is BAD_PACKET without effect. NODE makes an entry, which waits, or
with PRED 0 is enqueued at once; a used one is ENTRY_BUSY. DEC counts an entry down and at 0 enqueues it; one with nothing to
count is PRED_UNDERFLOW. REMOVE takes an entry's records out of every queue, or an armed gang apart, and refuses a running node.
PREEMPT sends lines that arrive 18 cycles on, PARAM reads the parameter block in force, CKPT records what is not yet tested, FENCE takes
an idle harness out of service and returns a fenced one, but no retired one.
Where the spec leaves a point open the statement follows the model's choice: log entries 33, 36, 59 and 61. -/
def Obligations.SchedulerCommands : Prop := ∀ (s : State) (d : Nat) (c : Packet) (ks : List Nat),
  let x := (s.die d).sched
  -- the header counts the command as accepted
  let s0 := s.cmdWrite d (s.cmdHeader d + 8) (BitVec.ofNat 64 (x.cidx + 1))
  let ends := fun (i : Instr) (t : State) (status : Nat) => exec i s = .next (t.finishCommand d status)
  let bad := fun i => ends i s0 cBAD_PACKET
  let p := s.partOfDie d
  let ent := (s.die d).sched.tab
  let fresh := (∀ e, e < s.nDies → (s.die e).sched.late = [] ∧ (s.die e).sched.cwait = none)
  -- u with the record of entry gid made READY on its die, on chip
  let queued := fun (u : State) (d0 : Nat) (cont : Cont) gid (l : Packet) (w : Waiter) =>
    let q := u.queueDie d0 (s.partOfDie d0) cont
    ((u.modSched q fun y => { y with sq := y.sq + 1 }).setEntry (gid / 4096) (gid % 4096) .ready).modSched q fun y => { y with
      ready := y.ready ++ [{ cont := cont, launch := l, gid := some gid, u := u.mcc.toNat, chip := true
                             sq := sqOf u.mcc.toNat (u.die q).sched.sq (some gid) false w, saved := false, replay := false }] }
  -- a command whose effect is u enqueues the entry gid, or its record is refused (01 R31)
  let enqueues := fun (i : Instr) (u : State) d0 (cont : Cont) gid (w : Waiter) =>
    (∀ l, u.checkLaunch (s.partOfDie d0) cont = .ok l →
      (let y := (u.die (u.queueDie d0 (s.partOfDie d0) cont)).sched
       y.late = [] ∧ y.chipCount cont.prio < 256 ∧ y.ringCount cont.prio = 0) → ends i (queued u d0 cont gid l w) cOK) ∧
    ∀ f, u.checkLaunch (s.partOfDie d0) cont = .error f → ends i
      (((u.tally (128 * d0) f).freeEntry (some gid)).message d0 f.code 0 cont.launch (BitVec.ofNat 64 gid)) f.code
  fresh → s.latent = [] →
  -- completion
  (∀ status, status < 2 ^ 32 → s.devKeys p ((offset x.cst + 8 * (x.cidx % 2 ^ x.csz)) % 2 ^ 48) 8 needW accWrite = .ok ks →
    memOk s → ks.Nodup → (∀ a ∈ ks, s.quarantined a = false) →
    let t := s.cmdWrite d (offset x.cst + 8 * (x.cidx % 2 ^ x.csz)) (BitVec.ofNat 64 ((x.cidx + 1) % 2 ^ 32 * 2 ^ 32 + status))
    ks.map (memGet t.mem) = leBytes 8 ((x.cidx + 1) % 2 ^ 32 * 2 ^ 32 + status) ∧
    (s.finishCommand d cOK).mem = (s.cmdWrite d (offset x.cst + 8 * (x.cidx % 2 ^ x.csz))
      (BitVec.ofNat 64 ((x.cidx + 1) % 2 ^ 32 * 2 ^ 32)) |>.cmdWrite d (s.cmdHeader d + 16) (BitVec.ofNat 64 (x.cidx + 1))).mem ∧
    (∀ w, status ≠ cOK → t.devWord p ((s.cmdHeader d + 24) % 2 ^ 48) needR = .ok w →
      (s.finishCommand d status).mem = ((t.cmdWrite d (s.cmdHeader d + 24) (w ||| 0x400)).cmdWrite d (s.cmdHeader d + 16)
        (BitVec.ofNat 64 (x.cidx + 1))).mem) ∧
    ((s.finishCommand d status).die d).sched = { x with cidx := x.cidx + 1, cwait := none }) ∧
  -- NODE
  (let idx := wf c.w5 0 12
   let ctr := wf c.w5 16 16
   let nsucc := wf c.w5 32 12
   let form := wf c.w0 0 24 = 0 ∧ wf c.w5 12 4 = 0 ∧ wf c.w5 44 20 = 0 ∧ c.w7 = 0 ∧ (nsucc = 0 → c.w6 = 0) ∧ wf c.w6 0 1 = 0
   let gid := 4096 * d + idx
   (¬form → bad (.node d c)) ∧
   (form → space c.w6 ≠ 0 ∨ owner c.w6 ≠ 0 → ends (.node d c) s0 cBAD_SPACE) ∧
   (form → space c.w6 = 0 → owner c.w6 = 0 → ∀ e, ent.find idx = some e →
     ends (.node d c) (s0.message d cENTRY_BUSY 0 c.w1 (BitVec.ofNat 64 gid)) cENTRY_BUSY) ∧
   (form → space c.w6 = 0 → owner c.w6 = 0 → ent.find idx = none → ∀ bs,
     s0.devRead p (offset c.w6) (2 * nsucc) needR = .ok bs →
     let e : NodeEnt := { cont := ⟨c.w1, c.w2, c.w3, c.w4⟩, ctr := ctr, succ := halfWords bs, st := .waiting }
     let u := s0.modSched d fun q => { q with tab := q.tab.set idx e }
     (0 < ctr → ends (.node d c) u cOK) ∧ (ctr = 0 → enqueues (.node d c) u d e.cont gid (.cmd d)))) ∧
  -- the others
  (∀ i ∈ [Instr.dec d c, .remove d c, .preempt d c, .param d c, .ckpt d c, .fenceCmd d c], plainCommand c = false → bad i) ∧
  (plainCommand c = true →
    (wf c.w1 14 50 = 0 → ∀ gid e, gid = wf c.w1 0 14 → gid / 4096 < s.nDies → s.partOfDie (gid / 4096) = p →
      (s.die (gid / 4096)).sched.tab.find (gid % 4096) = some e →
      let down := s0.modSched (gid / 4096) fun q => { q with tab := q.tab.set (gid % 4096) { e with ctr := e.ctr - 1 } }
      (e.ctr = 0 → ends (.dec d c) (s0.message (gid / 4096) cPRED_UNDERFLOW 0 0 (BitVec.ofNat 64 gid)) cPRED_UNDERFLOW) ∧
      (e.ctr = 1 → e.st = .waiting → enqueues (.dec d c) down (gid / 4096) e.cont gid (.dec d)) ∧
      (1 < e.ctr ∨ e.ctr = 1 ∧ e.st ≠ .waiting → ends (.dec d c) down cOK) ∧
      (e.st = .running → ends (.remove d c) (s0.message d cNODE_RUNNING 0 e.cont.launch (BitVec.ofNat 64 gid)) cNODE_RUNNING) ∧
      (e.st ≠ .running → ∃ t, ends (.remove d c) t cOK ∧ t.mem = s0.mem ∧ (∀ r, t.har r = s0.har r) ∧
        (t.die (gid / 4096)).sched.tab = (s0.die (gid / 4096)).sched.tab.erase (gid % 4096) ∧
        ∀ y, y < s.nDies → (t.die y).sched.ready.map (·.sq) =
          ((s.die y).sched.ready.filter fun z => z.gid != some gid).map (·.sq))) ∧
    (wf c.w1 14 50 = 0 → (∀ e, ¬(wf c.w1 0 14 / 4096 < s.nDies ∧ s.partOfDie (wf c.w1 0 14 / 4096) = p ∧
        (s.die (wf c.w1 0 14 / 4096)).sched.tab.find (wf c.w1 0 14 % 4096) = some e)) →
      ends (.dec d c) (s0.message d cPRED_UNDERFLOW 0 0 (BitVec.ofNat 64 (wf c.w1 0 14))) cPRED_UNDERFLOW ∧
      ends (.remove d c) s0 cOK) ∧
    -- REMOVE of the gang that a rank belongs to
    (wf c.w1 9 54 = 0 → wf c.w1 63 1 = 1 → ∀ r, r = wf c.w1 0 9 →
      (r ∉ s.ranksOf p → ends (.remove d c) s0 cBAD_SPACE) ∧
      (r ∈ s.ranksOf p → (∀ g ∈ s.gangs, ¬(g.started = false ∧ r ∈ g.held)) → s.gangOf r = none → ends (.remove d c) s0 cOK) ∧
      (r ∈ s.ranksOf p → (∀ g ∈ s.gangs, ¬(g.started = false ∧ r ∈ g.held)) → ∀ g, s.gangOf r = some g →
        ends (.remove d c) (s0.message d cNODE_RUNNING r g.record.cont.launch (gidWord g.record.gid)) cNODE_RUNNING) ∧
      (r ∈ s.ranksOf p → ∀ pre g post, s.gangs = pre ++ g :: post → g.started = false → r ∈ g.held →
        (∀ y ∈ pre, ¬(y.started = false ∧ r ∈ y.held)) → (∀ y ∈ pre ++ post, y.id ≠ g.id) →
        (∀ m ∈ g.held, (s.har m).ctl.draining = false ∧ (s.har m).ctl.fencing = false) →
        ∃ t, ends (.remove d c) t cOK ∧ t.gangs = pre ++ post ∧ t.mem = s0.mem ∧
          (∀ m, (t.har m).ctl = { (s.har m).ctl with mode := if m ∈ g.held then .idle else (s.har m).ctl.mode }) ∧
          ∀ i, g.record.gid = some i → (t.die (i / 4096)).sched.tab.find (i % 4096) = none)) ∧
    (wf c.w1 9 7 = 0 → wf c.w1 25 7 = 0 → wf c.w1 33 31 = 0 →
      let lo := wf c.w1 0 9
      let hi := wf c.w1 16 9
      (lo > hi ∨ (∃ r, lo ≤ r ∧ r ≤ hi ∧ r ∉ s.ranksOf p) → ends (.preempt d c) s0 cBAD_SPACE) ∧
      (lo ≤ hi → (∀ r, lo ≤ r → r ≤ hi → r ∈ s.ranksOf p) → ∃ t, ends (.preempt d c) t cOK ∧ t.mem = s0.mem ∧
        ∀ r, (t.har r).ctl = { (s.har r).ctl with lineChg := if lo ≤ r ∧ r ≤ hi then
          (s.har r).ctl.lineChg ++ [(s.mcc.toNat + 18, c.w1.getLsbD 32)] else (s.har r).ctl.lineChg })) ∧
    (c.w1 = 0 → ∀ bs, s0.devRead p x.cbase 64 needR = .ok bs →
      let w := bytesWords bs
      let good := wf (w.getD 0 0) 35 29 = 0 ∧ wf (w.getD 1 0) 0 6 = 0 ∧ wf (w.getD 2 0) 5 59 = 0 ∧ wf (w.getD 2 0) 0 5 ≤ 20 ∧
        ∀ v ∈ w.drop 3, v = 0
      (good → ends (.param d c) (s0.modSched d fun q => { q with
        agep := wf (w.getD 0 0) 0 32, pdelta := wf (w.getD 0 0) 32 3, spbase := w.getD 1 0, spsz := wf (w.getD 2 0) 0 5 }) cOK) ∧
      (¬good → ends (.param d c) (s0.message d cBAD_RECORD 0 (BitVec.ofNat 64 x.cbase) 0) cBAD_RECORD)) ∧
    (c.w1 = 0 → ∀ f, s0.devRead p x.cbase 64 needR = .error f →
      ends (.param d c) ((s0.tally (128 * d) f).message d f.code 0 (BitVec.ofNat 64 x.cbase) 0) f.code) ∧
    (wf c.w1 0 7 = 0 → space c.w1 = 0 → owner c.w1 = 0 →
      let q := s.part p
      (16 ≤ q.ckpts.length → ends (.ckpt d c) (s0.message d cCKPT_LIMIT 0 c.w1 0) cCKPT_LIMIT) ∧
      (q.ckpts.length < 16 → ∀ t, s0.devWrite p (offset c.w1) (ckptBytes (if q.dirty = 0 then 1 else 0) s.mcc.toNat q.dirty)
          needW = .ok t → ∃ u, ends (.ckpt d c) u cOK ∧ u.mem = t.mem ∧ (u.part p).dirty = 0 ∧
        (u.part p).ckpts = if q.dirty = 0 then q.ckpts else
          q.ckpts ++ [{ addr := c.w1, pending := q.dirty, mark := s.mcc.toNat }])) ∧
    ∀ r, r = wf c.w1 0 9 → wf c.w1 9 23 = 0 → wf c.w1 33 31 = 0 → r ∈ s.ranksOf p →
      (c.w1.getLsbD 32 = true → (s.har r).ctl.mode = .idle → (s.har r).ctl.node = none →
        ends (.fenceCmd d c) (s0.modCtl r fun y => { y with fencing := false, fenced := true }) cOK) ∧
      (c.w1.getLsbD 32 = true → ¬((s.har r).ctl.mode = .idle ∧ (s.har r).ctl.node = none) → ends (.fenceCmd d c)
        (s0.modCtl r fun y => { y with fencing := true, lineChg := y.lineChg ++ [(s.mcc.toNat + 18, true)] }) cOK) ∧
      (c.w1.getLsbD 32 = false → (s.har r).ctl.retired = false →
        ends (.fenceCmd d c) (s0.modCtl r fun y => { y with fencing := false, fenced := false, back := true }) cOK) ∧
      (c.w1.getLsbD 32 = false → (s.har r).ctl.retired = true → ends (.fenceCmd d c) s0 cBAD_SPACE))

/-- 01 R35, R37, R41, R42; 15 R373, R375, R377-R379, R385; 16 R400, R401, R403, R404; 14 R348; 17 R413-R415, R420, R423: what the
scheduler and the supervisor's side do by themselves: an idle harness takes the record of largest priority, the oldest among
equals, and its node starts at its entry at U, or resumes from its save area, or is refused where that is defective; a gang
starts on all members; a waiting record enters its queue; lines change; watchdog, pending block fault and interrupt enter the
supervisor; an abort leaves nothing running; frozen engines resume; a drained harness is tested, and one whose test fails stays
out of service.
Where the spec leaves a point open the statement follows the model's choice: log entries 5, 20, 31, 34, 35, 52 and 60. -/
def Obligations.SchedulerEvents : Prop := ∀ (s : State) (ks : List Nat) (x : Ready),
  let r := s.ev.a
  let h := s.har r
  let now := s.mcc.toNat
  -- a node has started on rank m of t from record y
  let clean := fun (t : State) m =>
    let k := t.har m
    k.running = true ∧ k.level = 0 ∧ k.claim = 0 ∧ k.feV = 0 ∧ k.feS = 0 ∧ k.feA = 0 ∧ k.xmsg = [] ∧
      k.edge = Vector.replicate 4 none ∧ (∀ b ∈ k.bg, b.2.queue = [] ∧ b.2.overrun = false)
  let started := fun (y : Ready) (t : State) m =>
    let q := (t.har m).seq
    let sp := (t.har m).sp
    q.pc = y.launch.w0 ∧ q.rg 1 = y.cont.fp ∧ q.rg 2 = y.cont.join ∧ q.rg 3 = y.cont.launch ∧ (∀ n, n ≠ 1 → n ≠ 2 → n ≠ 3 →
      q.rg n = 0) ∧ (∀ n, q.rk n = decide (n = 0)) ∧ sp.frame = 0 ∧ sp.vflag = 0 ∧ sp.dflag = 0 ∧ sp.seed = 0 ∧
    sp.defgrp.toNat = (if wf y.launch.w6 32 1 = 1 then wf y.launch.w6 0 8 else 0) ∧
    (t.har m).tvalid = 0 ∧ (t.har m).recs = [] ∧ clean t m
  -- what the harness that chooses takes
  let took := fun c =>
    let u := s.dropReady (dieOf c) x
    x.gid.elim u fun g => u.setEntry (g / 4096) (g % 4096) .running
  (∀ c, s.chooser = some c →
    let k := (s.har c).ctl
    let q := (s.die (dieOf c)).sched
    let fits := fun (y : Ready) => y ∈ q.ready ∧ s.eligible (s.partOf c) y.cont y.launch c = true
    let eff := fun (y : Ready) => if q.agep = 0 then y.cont.prio else min 7 (y.cont.prio + (now - y.u) / q.agep)
    k.mode = .idle ∧ k.draining = false ∧ k.fencing = false ∧ k.fenced = false ∧ k.retired = false ∧ k.halted = false ∧
      k.back = false ∧
    (s.choose c = some x → fits x ∧ ∀ y, fits y → launchGang y.launch = false → eff y < eff x ∨ eff y = eff x ∧ x.sq ≤ y.sq) ∧
    (s.choose c = some x → launchGang x.launch = false →
      (x.saved = false → ∃ t, exec .nodeStart s = .next t ∧ started x t c ∧ (∀ q, q ≠ c → t.har q = s.har q) ∧
        (∀ y ∈ (t.die (dieOf c)).sched.ready, y.sq ≠ x.sq) ∧ (x.replay = false → s.latent = [] → memSame s t) ∧
        (x.replay = true → (t.die (dieOf c)).cnt.getD 6 0 = (s.die (dieOf c)).cnt.getD 6 0 + 1)) ∧
      ∀ bs, x.saved = true → s.latent = [] → s.devRead (s.partOf c) (saveAt x.cont.fp) 10880 needR = .ok bs →
        let kw := areaWord bs 0x200
        let defect :=
          (∃ p, p < 4 ∧ (wf (areaWord bs (0x240 + 16 * p)) 49 14 ≠ 0 ∨ wf (areaWord bs (0x248 + 16 * p)) 40 24 ≠ 0)) ∨
          wf kw 24 40 ≠ 0 ∨ wf kw 0 1 = 0 ∨ areaWord bs 0 ≠ 0 ∨
          (∃ n w3, n < 64 ∧ (areaWord bs 0x238).getLsbD n = true ∧ w3 = areaWord bs (0x298 + 32 * n) ∧
            ¬recordSound (areaWord bs (0x280 + 32 * n)) (areaWord bs (0x288 + 32 * n)) (areaWord bs (0x290 + 32 * n))
              (w3 &&& ~~~((1 : Word) <<< 62))) ∨
          ∃ i, i < 8 ∧ wf kw (16 + i) 1 = 1 ∧ tableOk ((bs.drop (0xA80 + 1024 * i)).take 1024) = false
        (defect → exec .nodeStart s = .next ((took c).message (dieOf c) cBAD_CONTEXT c x.cont.fp 0)) ∧
        (¬defect → areaWord bs 0x238 = 0 → x.replay = false → ∃ t, exec .nodeStart s = .next t ∧ memSame s t ∧
          (∀ q, q ≠ c → t.har q = s.har q) ∧ clean t c ∧ (t.har c).recs = [] ∧
          (t.har c).seq.pc = areaWord bs 0x210 ∧ (∀ i, i < 64 → (t.har c).seq.rgN i = areaWord bs (8 * i)) ∧
          (∀ i, i < 16 → (t.har c).seq.rk (BitVec.ofNat 4 i) = kw.getLsbD i) ∧ (t.har c).sp.frame = areaWord bs 0x208 ∧
          (t.har c).sp.vflag.toNat = wf (areaWord bs 0x218) 0 6 ∧ (t.har c).sp.dflag.toNat = wf (areaWord bs 0x220) 0 6 ∧
          (t.har c).sp.defgrp.toNat = wf (areaWord bs 0x228) 0 8 ∧ (t.har c).sp.seed = areaWord bs 0x230 ∧
          (∀ p, p < 4 → ((t.har c).dpos.getD p 0).toNat = at' bs (0x240 + 16 * p) 16) ∧ (t.har c).tvalid.toNat = wf kw 16 8 ∧
          ∀ i, i < 8 → wf kw (16 + i) 1 = 1 → (t.har c).dtab.getD i [] = (bs.drop (0xA80 + 1024 * i)).take 1024))) ∧
  (s.chooser = none → exec .nodeStart s = .next s) ∧
  (∀ pre g post, s.gangs = pre ++ g :: post → g.started = false → (∃ c, g.start = some c ∧ c ≤ now + 1) →
    (∀ y ∈ pre, y.started = true ∨ y.start = none ∨ ∃ c, y.start = some c ∧ now + 1 < c) →
    g.record.saved = false → g.record.replay = false →
    ∃ t, exec .gangStart s = .next t ∧ memSame s t ∧ ∀ m ∈ g.members, started g.record t m) ∧
  (let q := (s.die r).sched
   ∀ y, s.lateReady r = some y → ∃ t, exec .enqueueResume s = .next t ∧ (t.die r).sched.late = eraseOne y q.late ∧
     -- it is queued as of this cycle, and the queue holds what it held: on chip or spilled
     let new := { y.1 with u := now, sq := sqOf now q.sq y.1.gid (y.1.saved || y.1.replay) y.2 }
     let body := fun (z : Ready) => { z with chip := true, slot := 0 }
     ((q.ready.map (·.sq)).Nodup → (∀ z ∈ q.ready, z.sq ≠ new.sq) →
       ∀ z, z ∈ (t.die r).sched.ready.map body ↔ z = body new ∨ z ∈ q.ready.map body) ∧
     let u := s.modSched r fun q => { q with late := eraseOne y q.late }
     (∀ c st, y.2 = .cmd c ∨ y.2 = .dec c → u.waits (.cmd c) = false → u.waits (.dec c) = false →
       (s.die c).sched.cwait = some st →
       (t.die c).sched.cwait = none ∧ (t.die c).sched.cidx = (s.die c).sched.cidx + 1) ∧
     ∀ m, y.2 = .spawn m → u.waits y.2 = false → (t.har m).seq.storeQ = (s.har m).seq.storeQ.tail) ∧
  (s.lateReady r = none → exec .enqueueResume s = .next s) ∧
  (∀ pre c v post, h.ctl.lineChg = pre ++ (c, v) :: post → c ≤ now + 1 → (∀ y ∈ pre, now + 1 < y.1) →
    exec .preemptLineChange s = .next (s.modCtl r fun k =>
      { k with lineChg := pre ++ post, line := v && (k.node.isSome || k.line) })) ∧
  (∀ sq m, s.autoDue r = some (sq, m) → ∃ t, exec .autoPreempt s = .next t ∧ memSame s t ∧
    (t.har m).ctl = { (s.har m).ctl with lineChg := (s.har m).ctl.lineChg ++ [(now + 18, true)] } ∧
    (sq, m) ∈ (t.die r).sched.auto) ∧
  (s.wdogDue r = true →
    let s1 := s.modCtl r fun c => { c with frozen := true }
    recordable r ks s1 → ∃ t, exec .wdogExpire s = .next t ∧ entered r ks (trapWords { cls := 4, code := cWDOG_EXPIRE, frz := true }
      h s.mcc) s1 t) ∧
  (∀ b, h.ctl.bf = some b → s.faultEnters r = true →
    let s1 := s.modCtl r fun c => { c with bf := c.owner.head?, owner := c.owner.tail }
    recordable r ks s1 → ∃ t, exec .blockFaultEntry s = .next t ∧ entered r ks (trapWords b.trap h s.mcc) s1 t) ∧
  (∀ code, h.ctl.intr = some code → h.intEnters = true →
    let s1 := s.modCtl r fun c => { c with intr := none }
    recordable r ks s1 → ∃ t, exec .interruptEntry s = .next t ∧
      entered r ks (trapWords { cls := 6, code := code, frz := h.ctl.frozen } h s.mcc) s1 t) ∧
  (∀ c, h.ctl.abort = some c →
    (now + 1 < c ∨ h.level ≠ 0 → exec .gangAbort s = .next s) ∧
    (c ≤ now + 1 → h.level = 0 → ∃ t, exec .gangAbort s = .next t ∧
      (t.har r).ctl.node = none ∧ (t.har r).seq.active = false ∧ (t.har r).claim = 0 ∧ (t.har r).recs = [] ∧
      (∀ e, ((t.har r).eng e).blk = none ∧ ((t.har r).eng e).queue = [] ∧ ((t.har r).eng e).pend = []) ∧
      (t.har r).level = 0)) ∧
  (s.resumeDue r = true → exec .resumeCycle s = .next (s.modCtl r fun c =>
    { c with frozen := false, resume := none, begun := true })) ∧
  (let q := (s.die r).sched
   (now + 1 < q.due → exec .selftestDrain s = .next s) ∧
   (q.due ≤ now + 1 → q.drain.isSome = true ∨ s.drainNext r = none →
     exec .selftestDrain s = .next (s.modSched r fun q => { q with due := q.due + 47000000 })) ∧
   ∀ n, q.due ≤ now + 1 → q.drain = none → s.drainNext r = some n →
     let m := 128 * r + n
     let k := (s.har m).ctl
     ∃ t, exec .selftestDrain s = .next t ∧
     (t.die r).sched = { q with due := q.due + 47000000, drain := some m, next := (n + 1) % 128 } ∧
     (t.har m).ctl = { k with
       draining := true, drainLine := !k.bare && !k.line
       mode := if k.bare = true then .test now (now + 188001) else k.mode
       lineChg := if k.bare = true then k.lineChg else k.lineChg ++ [(now + 18, true)] }) ∧
  ∀ began till, h.ctl.mode = .test began till → till ≤ now + 1 → ∃ t, exec .scanTest s = .next t ∧
    (t.die (dieOf r)).sched.drain = none ∧ (t.har r).ctl.mode = .idle ∧ (t.har r).ctl.draining = false ∧
    -- a line that the drain raised is lowered on a pass: the change arrives 18 cycles on
    (t.har r).ctl.line = h.ctl.line ∧ (t.har r).ctl.lineChg = h.ctl.lineChg ++
      (if h.ctl.drainLine = true ∧ s.ev.scan = .pass ∨ h.ctl.drainLine = true ∧ s.ev.scan = .fail 0x10
        then [(now + 18, false)] else []) ∧
    (t.har r).ctl.fenced = (h.ctl.fenced || h.ctl.fencing || match s.ev.scan with
      | .pass => false
      | .fail u => u != 0x10) ∧
    match s.ev.scan with
    | .pass => t.scanLog = s.scanLog
    | .fail u => (u < 16 → t.scanLog = s.scanLog ++ [(r, h.physCell u)]) ∧
      (u = 16 → ∃ c, t.scanLog = s.scanLog ++ [(r, c)] ∧ ∀ n, n < 16 → h.physCell n ≠ c)

/-! ### Privileged registers -/

/-- 14 R349, R351-R362; 15 R366, R383: what a write of a privileged register leaves: each field takes its written bits, the nearest legal
value where they are outside its range; GTBASE starts an activation, which the idle partition makes; PARTMAP changes once every
die that changes is idle; a shortened RPERIOD pulls the die's deadlines in; SHARE stays at or below PMAX, which F alone writes.
The old table stays in force where a check of the new one fails. A write of CEW0 to CEW63 applies its command first, and then
enters the header's queue where EN is 1, and stops acceptance where it is 0 (their effects: `Obligations.CopyQueues`).
Where the spec leaves a point open the statement follows the model's choice: log entries 37, 38 and 51. -/
def Obligations.PrivilegedWrites : Prop := ∀ s : State,
  let r := s.ev.a
  let n := s.ev.b
  let v := s.ev.v
  let p := s.partOf r
  let d := dieOf r
  let writes := fun t => exec .privilegedRegisterWrite s = .next t
  let sp := fun (f : Special → Special) => ∃ t, writes t ∧ onlyHar r s t ∧ t.har r = { s.har r with sp := f (s.har r).sp }
  let part := fun (i : Instr) q (f : Part → Part) => ∃ t, exec i s = .next t ∧ t = { s with parts := t.parts } ∧
    t.part q = f (s.part q) ∧ ∀ x, x ≠ q → t.part x = s.part x
  let die := fun (f : Die → Die) => ∃ t, writes t ∧ t = { s with dies := t.dies } ∧ t.die d = f (s.die d) ∧
    ∀ x, x ≠ d → t.die x = s.die x
  -- harness registers
  (n = 0x100 → sp fun x => { x with prev := if wf v 2 2 = 3 then 2 else BitVec.ofNat 2 (wf v 2 2) }) ∧
  (n = 0x101 → sp fun x => { x with tvec := v &&& ~~~(0x3F : Word) }) ∧
  (n = 0x102 → sp fun x => { x with tscr0 := v }) ∧
  (n = 0x103 → sp fun x => { x with tscr1 := v }) ∧
  (n = 0x104 → sp fun x => { x with fvec := v &&& ~~~(0x3F : Word) }) ∧
  -- partition registers
  (n = 0x200 → part .privilegedRegisterWrite p fun x =>
    { x with slip := if wf v 0 4 = 0 then 1 else if 8 < wf v 0 4 then 8 else BitVec.ofNat 4 (wf v 0 4) }) ∧
  (n = 0x201 → part .privilegedRegisterWrite p fun x => { x with wdog := v }) ∧
  (n = 0x202 → part .privilegedRegisterWrite p fun x => { x with rtlim := BitVec.ofNat 21 (min (wf v 0 21) (2 ^ 20)) }) ∧
  (n = 0x205 → part .privilegedRegisterWrite p fun x => { x with xlroot := v &&& ~~~(0xFFFE : Word) }) ∧
  (n = 0x207 → part .privilegedRegisterWrite p fun x =>
    let k := if wf v 0 9 ∈ s.ranksOf p then wf v 0 9 else (s.ranksOf p).headD 0
    { x with suprank := BitVec.ofNat 9 k }) ∧
  part .pwrshareWrite p (fun x =>
    let pm : Nat := if (s.har r).level = 2 then wf v 16 16 else x.pmax.toNat
    { x with pmax := BitVec.ofNat 16 pm, share := BitVec.ofNat 16 (min (wf v 0 16) pm) }) ∧
  -- die registers
  (n = 0x300 → die fun x => { x with tdmt := BitVec.ofNat 12 (max 256 (min (wf v 0 12) 4000)) }) ∧
  (n = 0x301 → die fun x => { x with rguard := BitVec.ofNat 32 (max 196800 (wf v 0 32)) }) ∧
  (let x := s.die d
   let per := max (x.rguard.toNat + 196800) (min (wf v 0 36) 28200000000)
   ∃ t, exec .rperiodWrite s = .next t ∧ t = { s with hs := t.hs, dies := t.dies } ∧
    t.die d = { x with rperiod := BitVec.ofNat 36 per } ∧ (∀ e, e ≠ d → t.die e = s.die e) ∧
    ∀ q, t.har q = { s.har q with dl0 := (t.har q).dl0, banks := (t.har q).banks } ∧
      ∀ k, ((t.har q).bank k) = { (s.har q).bank k with
        deadline := if dieOf q = d ∧ per < x.rperiod.toNat then min ((s.har q).bank k).deadline (s.mcc.toNat + per)
          else ((s.har q).bank k).deadline }) ∧
  -- peer ports: BOUND and its module; UP and the counts are read-only
  (0x410 ≤ n → n ≤ 0x41F → ∃ t, writes t ∧ t = { s with ppbind := t.ppbind } ∧
    ∀ j, j < 16 → t.ppbind.getD j 0 = if j = n - 0x410 then
      BitVec.ofNat 64 (wf v 63 1 * 2 ^ 63 + wf (s.ppbind.getD j 0) 62 1 * 2 ^ 62 + wf v 58 4 * 2 ^ 58 + wf (s.ppbind.getD j 0) 0 32)
      else s.ppbind.getD j 0) ∧
  -- registers that are read-only
  (n = 0x204 → writes s) ∧
  -- a store of a privileged register, issued at level lv, has the effect of the register's own write
  (∀ lv, let w := s.privWrite r n lv v
    (n ≠ 0x203 → n ≠ 0x206 → n ≠ 0x302 → n ≠ 0x400 → (n < 0x340 ∨ 0x37F < n) → writes w) ∧
    (n = 0x203 → exec .gtbaseWrite s = .next w) ∧ (n = 0x302 → exec .rperiodWrite s = .next w) ∧
    (n = 0x400 → exec .partmapWrite s = .next w) ∧ (n = 0x206 → lv = (s.har r).level → exec .pwrshareWrite s = .next w)) ∧
  -- watch entry b of die a, written by a rank of that die
  (∀ k lv, k / 128 = r → n < 64 →
    let cmd := wf v 61 2
    let w := fun (u : State) x => u.privWrite k (0x340 + n) lv x
    (cmd = 1 → ∀ u, exec .retry s = .next u → w s v = w u (v &&& ~~~(0x6000000000000000 : Word))) ∧
    (cmd = 2 → ∀ u, exec .abandon s = .next u → w s v = w u (v &&& ~~~(0x6000000000000000 : Word))) ∧
    (cmd = 0 ∨ cmd = 3 → (wf v 63 1 = 1 → exec .queueEnter s = .next (w s v)) ∧
      (wf v 63 1 = 0 → exec .queueStop s = .next (w s v)))) ∧
  -- the group table
  (s.latent = [] → ∃ t, exec .gtbaseWrite s = .next t ∧ t.parts = s.parts.set p { s.part p with
      gtbase := v &&& ~~~(0x7FFF : Word), gtPend := true } ∧
    t = { s with parts := t.parts, mem := t.mem, poison := t.poison, latent := t.latent, hbm := t.hbm }) ∧
  ((s.part r).gtPend = false ∨ s.quiet (s.ranksOf r) = false → exec .groupTableActivation s = .next s) ∧
  ((s.part r).gtPend = true → s.quiet (s.ranksOf r) = true →
    ∃ t, exec .groupTableActivation s = .next t ∧ t.part r =
      match s.groupWalk r 256 0 [] [] with
      | .ok gs => { s.part r with gtPend := false, gtCode := 0, gtEntry := 0, gtAct := true, groups := gs }
      | .error (i, e) => { s.part r with gtPend := false, gtCode := BitVec.ofNat 6 e.code, gtEntry := BitVec.ofNat 8 i }) ∧
  -- a scheduler turns to the block that GTBASE names when the activation completes (15 R366), and not before
  ((s.part r).gtPend = true → s.quiet (s.ranksOf r) = true → ∃ t, exec .groupTableActivation s = .next t ∧
    ∀ e, e < s.nDies → s.partOfDie e = r → match s.groupWalk r 256 0 [] [] with
      | .ok _ => (t.die e).sched.cbase = ((s.part r).gtbase.toNat + 0x8000 + 0x4000 * e) % 2 ^ 48
      | .error _ => (t.die e).sched = (s.die e).sched) ∧
  -- the division of the module
  exec .partmapWrite s = .next { s with partmapNew := some (if s.variant = .m2 then BitVec.ofNat 8 (wf v 0 4)
    else BitVec.ofNat 8 (wf v 0 8)) } ∧
  (s.partmapNew = none → exec .partmapChange s = .next s) ∧
  ∀ m, s.partmapNew = some m →
    let idle := ∀ e, e < s.nDies → field m.toNat (2 * e) 2 ≠ s.partOfDie e →
      s.quiet (List.range' (128 * e) 128) = true ∧ (s.die e).pkts = [] ∧ (∀ kc ∈ (s.die e).cew, kc.2.en = false) ∧
      (∀ y ∈ (s.die e).sched.ready, y.saved = false) ∧ ∀ y ∈ (s.die e).sched.late, y.1.saved = false
    (idle → exec .partmapChange s = .next { s with partmap := m, partmapNew := none }) ∧
    (¬idle → exec .partmapChange s = .next s)

/-! ### Tower banks and the Bugle by themselves -/

/-- 02 R63, R64, R66, R67, R69; 17 R421: a refresh takes 12,300 cycles and leaves no row open; when it completes in cycle c the
deadline is c + D and every counter 0. TREF takes its banks in ascending order, the 16 cells of a number together, waits for a
bank that is not free and does not repeat a forced refresh. A back-off ends with no row open. A free bank whose guard was
reached in an earlier cycle is refreshed by force and FREF rises; each TREF that has not reached the bank counts it as refreshed.
Where the spec leaves a point open the statement follows the model's choice: log entry 49. -/
def Obligations.BankEvents : Prop := ∀ (s : State) (tr : Tref) (more pt qt : List Tref) (k : Nat) (b : Bank) (pre post : Table Bank),
  let r := s.ev.a
  let h := s.har r
  let c := s.mcc.toNat + 1
  let die := s.die (dieOf r)
  let busy := fun (x : Bank) => c < x.till ∨ x.st = .backoff ∨ x.st = .refresh ∨ x.st = .forced
  let begins := fun (x : Bank) st => { x with st := st, till := c + 12300, row := none }
  let becomes := fun (i : Instr) (h' : Harness) => exec i s = .next (s.setHar r h')
  let spent := fun (x : Tref) => x.bank = none ∧ x.left = []
  -- TREF
  (h.tref = [] → exec .trefBankRefresh s = .next s) ∧
  (h.tref = pt ++ tr :: qt → spent tr → (∀ y ∈ pt, ¬spent y) →
    becomes .trefBankRefresh { h with tref := pt ++ qt, seq := h.seq.clearSb tr.sb }) ∧
  (h.tref = tr :: more → (∀ y ∈ h.tref, ¬spent y) →
    (∀ n left, tr.bank = none → tr.left = n :: left →
      ((∃ cell, cell < 16 ∧ busy (h.bank (16 * cell + n))) → exec .trefBankRefresh s = .next s) ∧
      ((∀ cell, cell < 16 → ¬busy (h.bank (16 * cell + n))) → ∃ h', becomes .trefBankRefresh h' ∧
        h' = { h with tref := { tr with left := left, bank := some n } :: more, banks := h'.banks } ∧
        ∀ j, h'.bank j = if n ≤ j ∧ j % 16 = n % 16 ∧ j / 16 < 16 + n / 16 ∧ j ∉ tr.forced then begins (h.bank j) .refresh
          else h.bank j)) ∧
    (∀ n, tr.bank = some n →
      ((∃ cell, cell < 16 ∧ (h.bank (16 * cell + n)).st = .refresh) → exec .trefBankRefresh s = .next s) ∧
      ((∀ cell, cell < 16 → (h.bank (16 * cell + n)).st ≠ .refresh) →
        becomes .trefBankRefresh { h with tref := { tr with bank := none } :: more }))) ∧
  -- a refresh completes, a back-off ends
  (let ends := fun (kb : Nat × Bank) => (kb.2.st = .refresh ∨ kb.2.st = .forced) ∧ kb.2.till ≤ c
   ((∀ kb ∈ h.banks, ¬ends kb) → exec .refreshComplete s = .next s) ∧
   (s.latent = [] → h.banks = pre ++ (k, b) :: post → (∀ kb ∈ pre, ¬ends kb) → ends (k, b) →
    becomes .refreshComplete (h.setBank k
      { b with st := .serve, deadline := c + die.rperiod.toNat, ctr := [], row := none, till := c }))) ∧
  (let ends := fun (kb : Nat × Bank) => kb.2.st = .backoff ∧ kb.2.till ≤ c
   ((∀ kb ∈ h.banks, ¬ends kb) → exec .backoffEnd s = .next s) ∧
   (h.banks = pre ++ (k, b) :: post → (∀ kb ∈ pre, ¬ends kb) → ends (k, b) →
    becomes .backoffEnd (h.setBank k { b with st := .serve, row := none }))) ∧
  -- the guard
  (let due := fun j => (h.bank j).deadline < c + die.rguard.toNat ∧ ¬busy (h.bank j)
   ((∀ j, j < 256 → ¬due j) → exec .forcedRefresh s = .next s) ∧
   (k < 256 → due k → (∀ j, j < k → ¬due j) → (h.banks.length < 256 ∨ ∃ x, (k, x) ∈ h.banks) →
    ∃ h', becomes .forcedRefresh h' ∧
      h' = { h with
        banks := h'.banks, sp := { h.sp with fref := h.sp.fref + 1 }
        tref := h.tref.map fun t => if k % 16 ∈ t.left then { t with forced := k :: t.forced } else t } ∧
      (∀ j, j ≠ k → h'.bank j = h.bank j) ∧ h'.bank k = begins (h.bank k) .forced))

/-- 06 R183-R185: a send departs in the first cycle congruent to its group modulo 16 in which its group's path is free, the
earliest first, and reaches every member L cycles later; a queue takes 8 values, a further one is lost and marks an overrun; a
harness without a node takes none. An instance completes L cycles after its last arrival, and its members are idle again. -/
def Obligations.BugleEvents : Prop := ∀ (s : State) (x : Send) (pre post : List Send) (q : Nat) (key : Nat)
    (arr : List (Nat × Nat)) (pa qa : Table (List (Nat × Nat))),
  let b := s.bugle
  let c := s.mcc.toNat + 1
  let departs := fun (y : Send) => c % 16 = y.group % 16 ∧ y.cycle < c ∧
    ∀ w ∈ b.wire, w.part = y.part → w.group = y.group → w.cycle ≠ c + s.groupLatency y.part y.group
  ((∀ y ∈ b.sends, ¬departs y) → exec .bgsendDeparture s = .next s) ∧
  (b.sends = pre ++ x :: post → (∀ y ∈ pre, ¬departs y) → departs x → exec .bgsendDeparture s = .next { s with
    bugle := { b with sends := pre ++ post, wire := b.wire ++ [{ x with cycle := c + s.groupLatency x.part x.group }] } }) ∧
  ((∀ y ∈ b.wire, c < y.cycle) → exec .bugleDelivery s = .next s) ∧
  (b.wire = pre ++ x :: post → (∀ y ∈ pre, c < y.cycle) → x.cycle ≤ c → ∃ t, exec .bugleDelivery s = .next t ∧
    t = { s with hs := t.hs, bugle := { b with wire := pre ++ post } } ∧
    t.har q = { s.har q with bg := (t.har q).bg } ∧ (∀ g, g ≠ x.group → (t.har q).member g = (s.har q).member g) ∧
    (t.har q).member x.group =
      let m := (s.har q).member x.group
      if q ∉ s.groupMembers x.part x.group ∨ (s.har q).ctl.node = none then m
      else if m.queue.length < 8 then { m with queue := m.queue ++ [x.v] } else { m with overrun := true }) ∧
  (let due := fun (ka : Nat × List (Nat × Nat)) =>
     let ms := s.groupMembers (ka.1 / 256) (ka.1 % 256)
     ms ≠ [] ∧ ∀ m ∈ ms, ∃ a p z, ka.2 = p ++ (m, a) :: z ∧ (∀ y ∈ p, y.1 ≠ m) ∧
       a + s.groupLatency (ka.1 / 256) (ka.1 % 256) ≤ c
   ((∀ ka ∈ b.arrive, ¬due ka) → exec .barrierInstanceComplete s = .next s) ∧
   (b.arrive = pa ++ (key, arr) :: qa → (∀ ka ∈ pa, ¬due ka) → due (key, arr) →
    ∃ t, exec .barrierInstanceComplete s = .next t ∧
      t = { s with hs := t.hs, bugle := { b with arrive := t.bugle.arrive } } ∧
      t.har q = { s.har q with bg := (t.har q).bg } ∧ (∀ g, g ≠ key % 256 → (t.har q).member g = (s.har q).member g) ∧
      (t.har q).member (key % 256) =
        let m := (s.har q).member (key % 256)
        if q ∈ s.groupMembers (key / 256) (key % 256) then
          { m with arrived := m.arrived && decide (2 ≤ (arr.filter fun a => a.1 == q).length) }
        else m))

/-! ### The ports and boot -/

/-- 18 R425-R430: a host read gives the bytes, a host write or atomic leaves them, and one that fails leaves nothing but the
failure; the console sends the byte at ORD, which then advances, and takes the first byte that waits where its ring has room; a
flit that passes its checks in sequence is delivered once and acknowledged, and takes what it acknowledges out of the replay
buffer; another is refused and the acknowledgement sent again, the sixteenth refusal of one flit takes the link down, and a refusal by the peer has the buffer sent again and
counted; a link that goes down counts, and training it brings it up.
Where the spec leaves a point open the statement follows the model's choice: log entries 44 and 45. -/
def Obligations.HostAndLinks : Prop := ∀ (s : State) (ks : List Nat),
  let p := s.ev.a
  let va := s.ev.v.toNat
  let n := s.ev.a
  let replies := fun (t : State) (i : Instr) m => exec i s = .next t ∧ t.hostOut = s.hostOut ++ [m]
  let fails := exec .hostAccess s = .next { s with hostOut := s.hostOut ++ [.failed] }
  let lands := fun len need acc => ∃ d, d < s.nDies ∧ s.partOfDie d = p ∧ va + len ≤ 2 ^ 48 ∧ s.devKeys p va len need acc = .ok ks
  let lost := fun len need acc => (∀ d, d < s.nDies → s.partOfDie d ≠ p) ∨ 2 ^ 48 < va + len ∨ ∃ f, s.devKeys p va len need acc = .error f
  let alone := fun (t : State) => t = { s with mem := t.mem, poison := t.poison, latent := t.latent, hbm := t.hbm, tagger := t.tagger, hostOut := t.hostOut } ∧
    ∀ a, a ∉ ks → memGet t.mem a = memGet s.mem a
  let need := fun r w => ({ r := r, w := w, ce := true } : Need)
  -- host accesses
  (∀ len, s.ev.host = .read len →
    (lost len (need true false) accRead → fails) ∧
    (s.latent = [] → lands len (need true false) accRead → (∀ k ∈ ks, s.consumes k = none) →
      exec .hostAccess s = .next { s with hostOut := s.hostOut ++ [.data (ks.map (memGet s.mem))] })) ∧
  (∀ bs, s.ev.host = .write bs →
    (lost bs.length (need false true) accWrite → fails) ∧
    (lands bs.length (need false true) accWrite → memOk s → ks.Nodup → (∀ k ∈ ks, s.quarantined k = false) →
      ∃ t, replies t .hostAccess .done ∧ alone t ∧ ks.map (memGet t.mem) = bs)) ∧
  (∀ fn v w, s.ev.host = .atomic fn v w →
    (va % 8 ≠ 0 ∨ 11 < fn ∨ lost 8 (need true true) accAtomic → fails) ∧
    ∀ k, va % 8 = 0 → fn ≤ 11 → lands 8 (need true true) accAtomic → ks = List.range' k 8 → s.latent = [] →
      s.consumesN k 8 = none → memOk s → (∀ a ∈ ks, s.quarantined a = false) →
      let old := BitVec.ofNat 64 (leNat (memRead s.mem k 8))
      let new : Word :=
        [old + v, old &&& v, old ||| v, old ^^^ v, if old.slt v then old else v, if old.slt v then v else old,
          if old.ult v then old else v, if old.ult v then v else old, v, if old = w then v else old, old, v].getD fn 0
      ∃ t, replies t .hostAccess (.data (leBytes 8 old.toNat)) ∧ alone t ∧ memRead t.mem k 8 = leBytes 8 new.toNat) ∧
  -- the console
  (let at' := fun x => (s.console p + x) % 2 ^ 48
   ∀ owr ord, s.devWord p (at' 0x2B00) needR = .ok owr → s.devWord p (at' 0x2B08) needR = .ok ord →
    (owr = ord ∨ 512 < (owr - ord).toNat → exec .consoleSend s = .next s) ∧
    ∀ t x, s.latent = [] → owr ≠ ord → (owr - ord).toNat ≤ 512 → s.devRead p (at' (0x2C00 + ord.toNat % 512)) 1 needR = .ok [x] →
      s.devWrite p (at' 0x2B08) (leBytes 8 (ord + 1).toNat) needW = .ok t →
      exec .consoleSend s = .next { t with consoleOut := t.consoleOut ++ [(p, x)] }) ∧
  (let at' := fun x => (s.console p + x) % 2 ^ 48
   ∀ x rest iwr ird, s.ev.bytes = x :: rest → s.devWord p (at' 0x2B10) needR = .ok iwr → s.devWord p (at' 0x2B18) needR = .ok ird →
    (448 ≤ (iwr - ird).toNat → exec .consoleReceive s = .next { s with consoleIn := s.consoleIn ++ [(p, x)] }) ∧
    -- byte y enters, and the list of what waits is then `left`
    ∀ y left, (y = x ∧ left = s.consoleIn ∧ ∀ z ∈ s.consoleIn, z.1 ≠ p) ∨
        (∃ pre post, s.consoleIn = pre ++ (p, y) :: post ∧ (∀ z ∈ pre, z.1 ≠ p) ∧ left = pre ++ post ++ [(p, x)]) →
      ∀ t u, s.latent = [] → (iwr - ird).toNat < 448 →
        { s with consoleIn := left }.devWrite p (at' (0x2E00 + iwr.toNat % 448)) [y] needW = .ok t →
        t.devWrite p (at' 0x2B10) (leBytes 8 (iwr + 1).toNat) needW = .ok u → exec .consoleReceive s = .next u) ∧
  -- flits
  (let bs := s.ev.bytes
   let l := s.links.getD n {}
   let w := s.ppbind.getD n 0
   let sq := fun (f : List Byte) => leNat ((f.drop 32).take 2) % 2 ^ 12
   let head := leNat ((bs.drop 32).take 2)
   let ack := leNat ((bs.drop 34).take 2)
   let kind := head / 2 ^ 12
   let sealed := fun (f : List Byte) => f.length = 40 ∧ leNat (f.drop 36) = crc32Ieee (f.take 36)
   -- the bytes f are a flit that the port forms
   let flit := fun (f : List Byte) kd q a pay => sealed f ∧ f.take 32 = pay ∧ leNat ((f.drop 32).take 2) = kd * 2 ^ 12 + q ∧
     leNat ((f.drop 34).take 2) = a
   let good := sealed bs ∧ kind ≤ 5 ∧ ack < 2 ^ 12 ∧ sq bs = if kind = 0 then (l.rxSeq - 1).toNat else l.rxSeq.toNat
   let port := fun up downs retry => BitVec.ofNat 64
     (wf w 63 1 * 2 ^ 63 + up * 2 ^ 62 + wf w 58 4 * 2 ^ 58 + downs % 2 ^ 16 * 2 ^ 16 + retry % 2 ^ 16)
   let sets := fun i l' w' => ∃ t, exec i s = .next t ∧ t = { s with links := t.links, ppbind := t.ppbind } ∧
     t.links.getD n {} = l' ∧ t.ppbind.getD n 0 = w' ∧
     ∀ m, m ≠ n → t.links.getD m {} = s.links.getD m {} ∧ t.ppbind.getD m 0 = s.ppbind.getD m 0
   (16 ≤ n ∨ wf w 62 1 = 0 → exec .flitReceive s = .next s) ∧
   (n < 16 → wf w 62 1 = 1 →
     -- the replay buffer loses what the flit acknowledges
     (good → ∀ kept, (∃ pre f post, l.replay = pre ++ f :: post ∧ sq f = ack ∧ (∀ g ∈ pre, sq g ≠ ack) ∧ kept = post) ∨
         ((∀ g ∈ l.replay, sq g ≠ ack) ∧ kept = l.replay) →
       let heard : Link := { l with acked := BitVec.ofNat 12 ack, replay := kept }
       let got : Link := { heard with refused := l.refused.erase l.rxSeq.toNat, rxSeq := l.rxSeq + 1, rx := l.rx ++ [(kind, bs.take 32)] }
       let idle := fun f => flit f 0 (l.txSeq - 1).toNat l.rxSeq.toNat (List.replicate 32 0)
       (kind = 0 → l.out = [] →
         (l.acked.toNat ≠ ack ∨ kept = [] → sets .flitReceive heard w) ∧
         (l.acked.toNat = ack → kept ≠ [] → sets .flitReceive { heard with tx := l.tx ++ kept }
           (port 1 (wf w 16 16) (wf w 0 16 + kept.length)))) ∧
       (kind ≠ 0 → kind ≠ 1 → l.out = [] → ∃ f, idle f ∧ sets .flitReceive { got with tx := l.tx ++ [f] } w) ∧
       (kind = 1 → l.out = [] → ∃ f pay, pay.length = 32 ∧
         (kept.length < 512 → flit f 3 l.txSeq.toNat l.rxSeq.toNat pay ∧
           sets .flitReceive { got with txSeq := l.txSeq + 1, tx := l.tx ++ [f], replay := kept ++ [f] } w) ∧
         (512 ≤ kept.length → idle f ∧ sets .flitReceive { got with out := [(3, pay)], tx := l.tx ++ [f] } w)) ∧
       -- what waits is sent in order, while the buffer has room
       (kind = 0 → l.acked.toNat ≠ ack → ∀ x rest, l.out = x :: rest → x.1 < 16 → x.2.length = 32 → kept.length = 511 →
         ∃ f, flit f x.1 l.txSeq.toNat (l.rxSeq - 1).toNat x.2 ∧ sets .flitReceive { heard with
           out := rest, txSeq := l.txSeq + 1, tx := l.tx ++ [f], replay := kept ++ [f] } w)) ∧
     -- a flit refused is counted by its SEQ and answered with an idle flit, an idle flit out of sequence is answered alone
     (¬good → ∃ f, flit f 0 (l.txSeq - 1).toNat (l.rxSeq - 1).toNat (List.replicate 32 0) ∧
       let c := l.refused.getD (sq bs) 0 + 1
       let told : Link := { l with tx := l.tx ++ [f] }
       (sealed bs ∧ kind = 0 ∧ ack < 2 ^ 12 → sets .flitReceive told w) ∧
       (¬(sealed bs ∧ kind = 0 ∧ ack < 2 ^ 12) →
         (c < 16 → sets .flitReceive { told with refused := l.refused.set (sq bs) c } w) ∧
         (16 ≤ c → sets .flitReceive { told with refused := [] } (port 0 (wf w 16 16 + 1) (wf w 0 16))))) ∧
     sets .linkDown { l with refused := [] } (port 0 (wf w 16 16 + 1) (wf w 0 16))) ∧
   (wf w 62 1 = 0 → exec .linkDown s = .next s) ∧
   (n < 16 → sets .linkTrain l (port 1 (wf w 16 16) (wf w 0 16))) ∧
   (16 ≤ n → exec .linkTrain s = .next s))

/-- 18 R431-R434, R441, R443; 17 R418, R420: reset sets every register to its reset value and keeps the fuses and what the world outside
has seen; the firmware image passes its checks, or the first of them that fails halts the module with its code; without an image
the fetch is made again. Stages 2 and 3 write the partition map, retire harnesses and start the lowest harness of a partition,
that is not retired, at S at its verified image's entry with g1 the image's address. RAISE raises the counter, and a cached image
below it is refused and dropped.
Where the spec leaves a point open the statement follows the model's choice: log entry 46. -/
def Obligations.BootStages : Prop := ∀ s : State,
  let plan := s.ev.plan
  let keeps : State := { State.reset with
    variant := s.variant, fuses := s.fuses, rootDigest := s.rootDigest, hostOut := s.hostOut, consoleOut := s.consoleOut,
    consoleIn := s.consoleIn, scanLog := s.scanLog,
    freeCtr := s.freeCtr, nid := s.nid, agenda := s.agenda, ev := s.ev }
  let bytes := fun (bs : List Byte) off n => leNat ((bs.drop off).take n)
  -- the checks of an image, in order
  let form := fun cls (bs : List Byte) =>
    bs.length = 64 + bytes bs 16 8 + 64 + 29792 ∧ bytes bs 0 4 = 0x4C534948 ∧ bytes bs 4 1 = cls ∧ bytes bs 5 1 < 2 ∧
    bytes bs 6 2 = 0 ∧ bytes bs 12 4 = 0 ∧ bytes bs 32 32 = 0
  let rooted := fun (bs : List Byte) => Config.shake256 ((bs.drop (64 + bytes bs 16 8)).take 64) = s.rootDigest
  let signed := fun (bs : List Byte) =>
    let b := bytes bs 16 8
    Config.slhDsaVerify ((bs.drop (64 + b)).take 64) (bs.take (64 + b)) (bs.drop (128 + b)) = true
  let passes := fun cls bs => form cls bs ∧ rooted bs ∧ signed bs ∧ s.fuses ≤ bytes bs 8 4
  let fails := fun cls bs c =>
    ¬form cls bs ∧ c = cLOAD_FORMAT ∨ form cls bs ∧ ¬rooted bs ∧ c = cLOAD_BAD_SIGNATURE ∨
    form cls bs ∧ rooted bs ∧ ¬signed bs ∧ c = cLOAD_BAD_SIGNATURE ∨
    form cls bs ∧ rooted bs ∧ signed bs ∧ bytes bs 8 4 < s.fuses ∧ c = cLOAD_ROLLBACK
  -- stage 1, begun in the state u
  let stage1 := fun (i : Instr) (u : State) =>
    (plan.image = [] → exec i s = .next { u with boot := { stage := 1 } }) ∧
    (plan.image ≠ [] → passes 1 plan.image → exec i s = .next { u with boot := { stage := 2 } }) ∧
    ∀ c, plan.image ≠ [] → fails 1 plan.image c →
      let t : State := { u with boot := { stage := 1, halted := true, status := c }, hostOut := s.hostOut ++ [.loader c] }
      exec i s = .next t ∧ stops t
  -- a supervisor that starts in t
  let supervisor := fun (t : State) p at' entry (bs : List Byte) =>
    (∀ r, r ∈ t.ranksOf p → (t.har r).ctl.halted = false) ∧
    (∀ r, r ∈ t.ranksOf p → (t.har r).ctl.retired = false →
      (∀ x, x ∈ t.ranksOf p → x < r → (t.har x).ctl.retired = true) →
      (t.har r).seq.pc = mkPtr 0 0 (at' + entry) ∧ (t.har r).seq.rg 1 = mkPtr 0 0 at' ∧ (t.har r).level = 1 ∧
      (t.har r).seq.active = true ∧ (t.har r).ctl.node = none ∧ (t.har r).seq.loadQ = [] ∧ (t.har r).seq.storeQ = [] ∧
      ∀ e, ((t.har r).eng e).queue = [] ∧ ((t.har r).eng e).blk = none ∧ ((t.har r).eng e).pend = []) ∧
    -- the container keys of its partition are those in its signed bytes (18 R441)
    t.supSigned.getD p [] = bs.take (64 + bytes bs 16 8) ∧
    (memOk s → (∀ i, i < bs.length → s.quarantined (at' + i) = false) → memRead t.mem at' bs.length = bs)
  -- reset, and stage 1 once more
  stage1 .moduleReset keeps ∧
  (s.boot.stage = 1 → stage1 .firmwareBoot s) ∧
  -- stages 2 and 3
  (s.boot.stage ≠ 1 → s.boot.stage ≠ 2 → exec .firmwareBoot s = .next s) ∧
  (s.boot.stage = 2 → ∃ t, exec .firmwareBoot s = .next t ∧ t.boot = { s.boot with stage := 4 } ∧ t.fuses = s.fuses ∧
    t.partmap = (if s.variant = .m2 then plan.partmap &&& 0x0F else plan.partmap) ∧ t.scanLog = [] ∧
    (∀ r ∈ plan.retired, (t.har r).ctl.retired = true ∧ (t.har r).ctl.fenced = true) ∧
    (let cell := fun (w : BitVec 128) n => field w.toNat (5 * n) 5
     ∀ x ∈ plan.cellMap, (∃ n, n < 16 ∧ 16 < cell x.2 n) ∨ (∃ n m, n < m ∧ m < 16 ∧ cell x.2 n = cell x.2 m) ∨
       field x.2.toNat 80 48 ≠ 0 → (t.har x.1).ctl.retired = true) ∧
    ∀ p bs at', plan.supers = [(p, bs, at')] → plan.mem = [] →
      (passes 2 bs → supervisor t p at' (bytes bs 24 8) bs ∧ t.hostOut = s.hostOut ∧
        ∃ i ∈ t.supCache, i.part = p ∧ i.svn = bytes bs 8 4 ∧ i.body = bs) ∧
      ∀ c, fails 2 bs c → (∀ r, (t.har r).seq = (s.har r).seq) ∧ t.hostOut = s.hostOut ++ [.loader c]) ∧
  -- the cache and the counter
  (let p := s.ev.a
   ((∀ i ∈ s.supCache, i.part ≠ p) → exec .partitionStart s = .next s) ∧
   ∀ pre i post, s.supCache = pre ++ i :: post → (∀ x ∈ pre, x.part ≠ p) → i.part = p →
    (i.svn < s.fuses → exec .partitionStart s = .next { s with
      supCache := s.supCache.filter fun x => x.part != p
      hostOut := s.hostOut ++ [.loader cLOAD_ROLLBACK] }) ∧
    (s.fuses ≤ i.svn → ∃ t, exec .partitionStart s = .next t ∧ supervisor t p s.ev.v.toNat i.entry i.body)) ∧
  let bs := s.ev.bytes
  let asks := (bytes bs 4 1 = 1 ∨ bytes bs 4 1 = 2) ∧ passes (bytes bs 4 1) bs ∧ bytes bs 5 1 % 2 = 1
  (asks → exec .antiRollbackRaise s = .next { s with fuses := max s.fuses (min 128 (bytes bs 8 4)) }) ∧
  (¬asks → exec .antiRollbackRaise s = .next s)

/-- 18 R435-R441; 14 R356: the loader's first checks, in order, each with its code and nothing loaded: the fields of the header, with
one signature section that ends the container; the signature under a key that stands in the supervisor's image; the security
version; the capabilities; each section entry, the first that fails deciding. A container of one section of code or data, and its
signature, is loaded at the next address with that section's alignment, code in pages that may be executed, and reported with
status 0; symbols and unknown sections leave nothing. Groups become the table at GTBASE, whose activation starts, and the report
waits for it; a group that is refused, or a repeated id, has its code. A resource is allocated behind what is placed, in space 0
or in the supervisor's tower, filled with its image and zeros, and its entry written with its generation; a launch record is
placed with the addresses of its sections, a relocation patched into the code; what fails their checks is refused.
Where the spec leaves a point open the statement follows the model's choice: log entry 47. -/
def Obligations.ContainerLoads : Prop := ∀ (s t u : State) (k : List Byte),
  let e := s.ev
  let c := e.bytes
  let num := fun off n => leNat ((c.drop off).take n)
  let answers := fun n => exec .containerLoad s = .next { s with hostOut := s.hostOut ++ [.loader n] }
  let n := num 8 2
  -- fields of section entry i
  let at' := fun i => num 32 8 + 32 * i
  let ty := fun i => num (at' i) 2
  let off := fun i => num (at' i + 8) 8
  let len := fun i => num (at' i + 16) 8
  let form := 64 ≤ c.length ∧ num 0 4 = 0x4F564746 ∧ num 4 2 = 1 ∧ num 6 2 = 0 ∧ num 12 1 ≤ 7 ∧ num 13 3 = 0 ∧ num 28 4 = 0 ∧
    num 32 8 % 8 = 0 ∧ num 40 8 % 8 = 0 ∧ num 48 8 = c.length ∧ num 56 8 = 0 ∧ num 32 8 + 32 * n ≤ c.length ∧
    ∃ i, i < n ∧ ty i = 0x00FF ∧ (∀ j, j < n → ty j = 0x00FF → j = i) ∧ len i = 29792 ∧ off i + 29792 = c.length
  let image := s.supSigned.getD e.a []
  let known := k.length = 64 ∧ ∃ i, i < image.length ∧ (image.drop i).take 64 = k
  let signed := known ∧ Config.slhDsaVerify k (c.take (c.length - 29792)) (c.drop (c.length - 29792)) = true
  let needs := num 16 8
  let has := s.variant = .m4 ∨ needs = 0
  -- the checks of an entry
  let kinds : List Nat := [0x0001, 0x0002, 0x0003, 0x0004, 0x0005, 0x0010, 0x0011, 0x0012, 0x0013, 0x0020, 0x00FF]
  let laid := fun i => num (at' i + 2) 2 ≤ 1 ∧ num (at' i + 4) 4 = 0 ∧ num (at' i + 24) 1 ≤ 16 ∧ num (at' i + 25) 7 = 0 ∧
    off i + len i ≤ c.length
  let unit := fun (t : Nat) => if t = 0x0010 ∨ t = 0x0012 then 64 else if t = 0x0011 then 72 else if t = 0x0013 then 16 else 1
  let sound := fun i => laid i ∧ (ty i ∉ kinds → num (at' i + 2) 2 = 0) ∧ (ty i ∈ kinds → len i % unit (ty i) = 0 ∧
    (ty i ≠ 0x0020 → ∀ j, j < i → ty j ≠ ty i))
  let up := fun (x a : Nat) => (x + 2 ^ a - 1) / 2 ^ a * 2 ^ a
  let to' := up e.c (num (at' 0 + 24) 1)
  let body := fun i => (c.drop (off i)).take (len i)
  let word := fun i j => BitVec.ofNat 64 (num (off i + 8 * j) 8)
  let done := fun (t : State) => exec .containerLoad s = .next { t with hostOut := s.hostOut ++ [.loader 0] }
  (¬form → answers cLOAD_FORMAT) ∧
  (form → e.keys[num 12 1]? = none → answers cLOAD_BAD_SIGNATURE) ∧
  (form → e.keys[num 12 1]? = some k →
    (¬signed → answers cLOAD_BAD_SIGNATURE) ∧
    (signed → num 24 4 < s.fuses → answers cLOAD_ROLLBACK) ∧
    (signed → s.fuses ≤ num 24 4 → 4 ≤ needs ∨ ¬has → answers cLOAD_CAPABILITY) ∧
    (signed → s.fuses ≤ num 24 4 → needs < 4 → has →
      (∀ i, i < n → (∀ j, j < i → sound j) → ¬sound i →
        (laid i → ty i ∉ kinds → answers (i * 2 ^ 16 + cLOAD_UNKNOWN_SECTION)) ∧
        (¬laid i ∨ ty i ∈ kinds → answers (i * 2 ^ 16 + cLOAD_FORMAT))) ∧
      (num 10 2 = 0 → s.latent = [] → (∀ i, i < n → sound i) →
        -- one section and the signature
        (n = 2 → ty 1 = 0x00FF →
          (1 ≤ ty 0 → ty 0 ≤ 5 → to' + len 0 ≤ 2 ^ 48 →
            s.devWrite e.a to' (body 0) { w := true, x := decide (ty 0 ≤ 4) } = .ok u → done u) ∧
          (ty 0 = 0x0020 ∨ ty 0 ∉ kinds → done s) ∧
          (ty 0 = 0x0011 → ∀ m, len 0 = 72 * m →
            let rec' := fun i j l => num (off 0 + 72 * i + j) l
            let fresh := fun i => rec' i 1 7 = 0 ∧ ∀ j, j < i → rec' j 0 1 ≠ rec' i 0 1
            (∀ i, i < m → (∀ j, j < i → fresh j) → ¬fresh i → answers (i % 2 ^ 16 * 2 ^ 16 + cLOAD_FORMAT)) ∧
            ∀ table : List Byte, table.length = 32768 → (∀ i, i < m → fresh i) →
              (∀ g, g < 256 → (∀ i, i < m → rec' i 0 1 ≠ g) → (table.drop (128 * g)).take 128 = List.replicate 128 0) →
              (∀ i, i < m → ∀ ranks, ranks = (List.range 512).filter (fun r => (rec' i 8 64).testBit r) →
                let dies := (List.range 4).filter fun d => ranks.any fun r => r / 128 == d
                (table.drop (128 * rec' i 0 1)).take 128 = (c.drop (off 0 + 72 * i + 8)).take 64 ++
                  leBytes 8 (2 ^ 63 + (if 1 < dies.length then 2 ^ 16 else 0) + ranks.length) ++ List.replicate 56 0) →
              let gt := (s.part e.a).gtbase.toNat
              gt + 32768 ≤ 2 ^ 48 → s.devWrite e.a gt table { w := true } = .ok u →
                (∀ i x, u.groupWalk e.a 256 0 [] [] = .error (i, x) →
                  answers (i % 2 ^ 16 * 2 ^ 16 + match x.code with
                    | 1 => cBAD_GROUP
                    | 2 => cGROUP_RANGE
                    | 3 => cLOAD_GROUP_LIMIT
                    | _ => cLOAD_GROUP_READ)) ∧
                ∀ gs r, u.groupWalk e.a 256 0 [] [] = .ok gs → u.partOf r = e.a →
                  exec .gtbaseWrite { u with ev := { a := r, v := BitVec.ofNat 64 gt } } = .next t →
                  exec .containerLoad s = .next { t with ev := e, loadWait := s.loadWait ++ [e.a] })) ∧
        -- code, one launch record, the signature
        (n = 3 → ty 0 = 1 → ty 1 = 0x0012 → ty 2 = 0x00FF → len 1 = 64 →
          let l := packetOf ((List.range 8).map (word 1))
          let start := mkPtr 0 0 to' + l.w0
          let sane := wf l.w5 32 32 = 0 ∧ wf l.w6 36 28 = 0 ∧ wf l.w7 2 62 = 0 ∧ wf l.w5 0 32 % 64 = 0 ∧
            (wf l.w7 1 1 = 1 → wf l.w6 32 1 = 1) ∧ space start = 0 ∧ space l.w1 = 0 ∧ space l.w2 = 0 ∧ space l.w3 = 0 ∧
            ∃ r ∈ s.ranksOf e.a, ∀ j, j < 4 → wf l.w6 (32 + j) 1 = 1 → s.groupHas e.a (wf l.w6 (8 * j) 8) r = true
          let there := up (to' + len 0) (max 6 (num (at' 1 + 24) 1))
          (¬sane → answers cLOAD_FORMAT) ∧
          (sane → to' + len 0 ≤ 2 ^ 48 → there + 64 ≤ 2 ^ 48 →
            s.devWrite e.a to' (body 0) { w := true, x := true } = .ok t →
            t.devWrite e.a there (wordBytes [start, l.w1, l.w2, l.w3, mkPtr 0 0 e.d, l.w5, l.w6, l.w7]) { w := true } = .ok u →
            done u)) ∧
        -- code, one relocation in it against an address of it, the signature
        (n = 3 → ty 0 = 1 → ty 1 = 0x0013 → ty 2 = 0x00FF → len 1 = 16 →
          let kind := wf (word 1 0) 56 8
          let o := wf (word 1 0) 0 48
          let value := to' + wf (word 1 1) 0 63
          let old := num (off 0 + o) 4
          let fits := 3 ≤ kind ∧ kind ≤ 5 ∧ wf (word 1 1) 63 1 = 0 ∧ wf (word 1 1) 0 63 ≤ len 0 ∧ o + 4 ≤ len 0 ∧
            old % 2 ^ 20 = 0 ∧ value < 2 ^ 60
          let new := old + value / (if kind = 3 then 1 else if kind = 4 then 2 ^ 20 else 2 ^ 40) % 2 ^ 20
          (wf (word 1 0) 48 8 = 0 → ¬fits → answers cLOAD_FORMAT) ∧
          (wf (word 1 0) 48 8 = 0 → fits → to' + len 0 ≤ 2 ^ 48 →
            s.devWrite e.a to' ((body 0).take o ++ leBytes 4 new ++ (body 0).drop (o + 4)) { w := true, x := true } = .ok u →
            done u)) ∧
        -- data, one resource, the signature
        (n = 3 → ty 0 = 5 → ty 1 = 0x0010 → ty 2 = 0x00FF → len 1 = 64 →
          let w := word 1
          let f := recOf (w 0) (w 1) (w 2) (w 3)
          let none' := w 5 = BitVec.allOnes 64
          let sane := recordSound (w 0) (w 1) (w 2) (w 3) ∧ wf (w 4) 0 16 = 0 ∧ wf (w 4) 16 1 = 1 ∧ wf (w 4) 21 3 = 0 ∧
            wf (w 4) 34 30 = 0 ∧ (w 7).toNat ≤ 1 ∧
            (none' ∨ (w 6).toNat ≤ f.spanSize ∧ (w 5).toNat + (w 6).toNat ≤ len 0)
          let room := e.b < (s.part e.a).rtlim.toNat
          let image := if none' then [] else ((body 0).drop (w 5).toNat).take (w 6).toNat
          let fill := image ++ List.replicate (f.spanSize - image.length) 0
          let below := f.span.elim 0 fun x => (-x.1).toNat
          let rank := (s.part e.a).suprank.toNat
          let start := up (if w 7 = 1 then e.v.toNat else to' + len 0) 6
          let slot := fun i => s.devWord e.a ((e.d + 64 * i + 32) % 2 ^ 48) needR
          let clear := ∀ i, i < (s.part e.a).rtlim.toNat → slot i = .ok 0
          let kept := s.loadGen.find (e.a * 2 ^ 20 + e.b)
          let base := if offset (w 0) ≠ 0 then w 0 else if w 7 = 1 then mkPtr 2 rank (start + below) else mkPtr 0 0 (start + below)
          let entry := fun g => wordBytes [base, w 1, w 2, w 3, BitVec.ofNat 64 ((w 4).toNat / 2 ^ 12 * 2 ^ 12 + g), 0, 0, 0]
          (¬sane → answers cLOAD_FORMAT) ∧
          (sane → ¬room → answers cLOAD_CAPABILITY) ∧
          (sane → room → offset (w 0) = 0 → w 7 = 1 → 0 < f.spanSize → 2 ^ 26 < start + f.spanSize → answers cLOAD_CAPABILITY) ∧
          ∀ g v, sane → room → slot e.b = .ok v →
            (v ≠ 0 → g = (wf v 0 12 + 1) % 2 ^ 12) → (v = 0 → clear ∨ kept = none → g = 0) →
            (v = 0 → ¬clear → ∀ x, kept = some x → g = (x.1 + 1) % 2 ^ 12) →
            -- the span is allocated, zero but for the image; a BASE that is given, without image, stays as it is
            (offset (w 0) = 0 ∧ 0 < f.spanSize ∧ w 7 = 0 ∧ start + f.spanSize < 2 ^ 48 ∧
                s.devWrite e.a start fill { w := true } = .ok t ∨
              offset (w 0) = 0 ∧ 0 < f.spanSize ∧ w 7 = 1 ∧ start + f.spanSize ≤ 2 ^ 26 ∧ rank ∈ s.ranksOf e.a ∧
                (s.har rank).ctl.retired = false ∧ t = s.write (2 * 2 ^ 60 + rank * 2 ^ 48 + start) fill ∨
              offset (w 0) ≠ 0 ∧ image = [] ∧ t = s) →
            ∀ u', (e.d + 64 * e.b) % 2 ^ 48 + 64 ≤ 2 ^ 48 → to' + len 0 ≤ 2 ^ 48 →
              t.devWrite e.a ((e.d + 64 * e.b) % 2 ^ 48) (entry g) { w := true } = .ok u →
              u.devWrite e.a to' (body 0) { w := true } = .ok u' →
              ∃ z, exec .containerLoad s = .next { u' with loadGen := z, hostOut := s.hostOut ++ [.loader 0] } ∧
                z.find (e.a * 2 ^ 20 + e.b) = some (g, 0)))))

/-! ### The machine as a whole -/

/-- 05 R135-R149: words of the spec's own examples, and words written out from its encoding tables, decode to the instructions
they stand for. -/
def Obligations.SpecWords : Prop :=
  decode .s 0x08513FF8 = .ok (.addi 5 4 0x3FF8) ∧
  decode .s 0x68414021 = .ok (.ldd 4 5 2 1) ∧
  decode .s 0x40E00005 = .ok (.br 3 true 5) ∧
  decode .s 0x88880040 = .ok (.exec 0 true 8 0x40) ∧
  decode .s 0x30444000 = .ok (.cmpi 1 1 4 0) ∧
  decode .s 0x7C10000A = .ok (.wait 5) ∧
  decode .s 0xA4414604 = .ok (.aadd 1 4 5 6 2) ∧
  decode .s 0x90414000 = .ok (.qpost 4 5 0) ∧
  decode .s 0xFC1000C0 = .ok (.tlbi 3 0) ∧
  decode .v 0x0105041080000000 =
    .ok (.vadd ⟨0, false, 5, 1, 1, 2, 0, false, false, false, false, false, false, 0, 0, false, false, false, false, 0⟩) ∧
  decode .v 0x7F00000000000000 = .ok .vend ∧
  decode .d (0x7E * 2 ^ 120) = .ok .dnop ∧
  decode .t 0x0100C42800000040 =
    .ok (.tld { gk := 0, gn := false, reg := 3, brec := 4, ereg := 2, fild := true, take := false, ext := 0, imm := 0x40 })

/-- 05 R135-R149: every well-formed instruction with a code word encodes to a word of its stream that decodes to it, every
operand at every value; and each word that decodes has that one meaning: no bit of it is dropped. -/
def Obligations.EncodingRoundTrip : Prop :=
  (∀ i st w, i.wellFormed = true → encode i = some (st, w) → w < 2 ^ st.width ∧ decode st w = .ok i) ∧
  (∀ st w i, w < 2 ^ st.width → decode st w = .ok i → encode i = some (st, w))

/-- 01 R14; 02 R49, R50; 05 R131, R138, R140; 06 R161, R188; 15 R377; 16 R395; 17 R407: when the code bytes at the program counter of
the sequencer decode to an instruction i, the step is `exec` of i there, a correctable error in the bytes repaired; bytes that
decode to none are the unassigned word. An instruction waits that needs a register still to be written, while a tower has not
answered the one before, or while a SPAWN waits for room. The registers that it writes are noted for the cycle, so that no word of
a TXCH lands while its own value is in issue (08 R276). A block that has just begun is fetched first, up to its first end word, and its words
run as they were fetched; one behind that is fetched as it issues. A word for another harness's tower puts the turn off.
The step advances the counter of the free values and the turn, and nothing else before it.
Where the spec leaves a point open the statement follows the model's choice: log entries 5, 6, 21, 53, 55 and 57. -/
def Obligations.StepRunsDecoded : Prop := ∀ (s : State) (ks : List Nat) (e : Eng) (b : Block) (n : Node),
  let u := { s with freeCtr := s.freeCtr + 1 }
  let r := s.cur
  let h := s.har r
  let x := h.eng e
  -- the bytes at p are read at the keys ks
  let fetches := fun (p : Word) len sup => space p = 0 ∧ owner p = 0 ∧ ks.length = len ∧
    (∀ j k, ks[j]? = some k → u.xlate r ((offset p + j) % 2 ^ 48) { x := true, sup := sup } accFetch = .ok k) ∧
    ∀ k ∈ ks, s.consumes k = none
  let word := leNat (ks.map (memGet s.mem))
  let str : Stream := match e with
    | .v => .v
    | .d => .d
    | .t => .t
  let due : Phase := match e with
    | .v => .v
    | .d => .d
    | .t => .t
  let next : Phase := match e with
    | .v => .seq
    | .d => .v
    | .t => .d
  (∀ (t : State) p len, t.latent = [] → t.fetchScrub r p len = t) ∧
  -- what step notes of the registers that the instruction in issue writes
  (∀ (t : State) i,
    let q := (t.har r).seq
    let ds := q.gWrites i
    (ds = [] → t.claimG r i = t) ∧ (ds ≠ [] → t.claimG r i = t.modSeq r fun q => { q with inIssue := ds })) ∧
  -- what the fetch of a block leaves
  (∀ (t : State) (ws : List Nat) m, t.cur = r → (t.eng e).blk = some b → b.holes = [] → t.latent = [] → m < 2 ^ 20 →
    ws.length = m + 1 → (∀ j w, ws[j]? = some w → t.fetchAt e (b.pc + j) = .ok w ∧ (endsBlock (fetchedEng e w) = true ↔ j = m)) →
    t.fetchBlock e (fun w => endsBlock (fetchedEng e w)) =
      t.modEng e fun x => { x with blk := some { b with fetched := true, code := ws.map some } }) ∧
  (s.boot.halted = false → s.agenda = [] →
  (s.phase = .seq → s.mcc.toNat < h.reply → step s = .next { u with phase := .mem }) ∧
  (s.phase = .seq → h.seq.active = true → h.ctl.halted = false → h.ctl.resume = none → h.reply ≤ s.mcc.toNat →
    u.faultEnters r = false → s.wdogDue r = false → h.intEnters = false → s.waits (.spawn r) = true →
    step s = .next { u with phase := .mem }) ∧
  (s.phase = .seq → h.seq.active = true → h.ctl.halted = false → h.ctl.resume = none → h.reply ≤ s.mcc.toNat →
    u.faultEnters r = false → s.wdogDue r = false → h.intEnters = false → s.waits (.spawn r) = false →
    h.seq.pc.toNat % 4 = 0 → fetches h.seq.pc 4 (h.level == 0) →
    let v (i : Instr) : State := { (({ u with phase := .mem } : State).fetchScrub r h.seq.pc 4).claimG r i with ev := {} }
    (∀ i, decode .s word = .ok i → h.seq.interlocked s.mcc.toNat i = false → step s = exec i (v i)) ∧
    (∀ i, decode .s word = .ok i → h.seq.interlocked s.mcc.toNat i = true → step s = .next { u with phase := .mem }) ∧
    (∀ d, decode .s word = .error d →
      let i : Instr := .unassignedSEncoding (BitVec.ofNat 32 word)
      step s = exec i (v i))) ∧
  (s.phase = due → h.ctl.enginesRun s.mcc = true → h.dueNow e = false → x.retires = false → x.dropHead = none →
    h.starts e = none → x.blk = some b → x.busy ≤ x.cyc → x.stalled = false →
    (b.fetched = false → step s = .next (u.fetchBlock e fun w => endsBlock (fetchedEng e w))) ∧
    (b.fetched = true → ∀ w, b.word = some (some w) →
      let v : State := { u with phase := next, ev := { e := e } }
      (∀ i, decode str w = .ok i → s.second = true ∨ s.remote e i = none → step s = exec i v) ∧
      (∀ i o, decode str w = .ok i → s.second = false → s.remote e i = some o →
        step s = .next ({ u with later := s.later ++ [(r, o)] }.nextHar (r + 1))) ∧
      (∀ d, decode str w = .error d → step s = exec (.unassignedEngineOpcode e (BitVec.ofNat 128 w)) v)) ∧
    (b.fetched = true → b.word = some none → step s = .next (({ u with phase := next } : State).finishWord e 1)) ∧
    (b.fetched = true → b.word = none → h.ctl.node = some n →
      let p := secBase e n.launch + BitVec.ofNat 64 (str.width / 8 * b.pc)
      fetches p (str.width / 8) true →
      let v : State := { ({ u with phase := next } : State).fetchScrub r p (str.width / 8) with ev := { e := e } }
      (∀ i, decode str word = .ok i → s.second = true ∨ s.remote e i = none → step s = exec i v) ∧
      (∀ d, decode str word = .error d → step s = exec (.unassignedEngineOpcode e (BitVec.ofNat 128 word)) v))))

/-- 05 R132; 14 R349-R362; 18 R431: what reset leaves: MCC 0, the privileged registers at their reset values, the counters of
bank events 0, k0 true, g0 zero, no watch entry on, no node running; memory in canonical form with nothing listed.
Where the spec leaves a point open the statement follows the model's choice: log entries 2, 3, 4 and 51. -/
def Obligations.ResetState : Prop :=
  let s := State.reset
  memOk s ∧ (∀ a, memGet s.mem a = 0) ∧ s.mcc = 0 ∧ s.nDies = 4 ∧
  ∀ r, r < 512 →
    hardwired s r ∧ (s.har r).ctl.node = none ∧ (s.har r).level = 0 ∧
    (s.har r).sp.fref = 0 ∧ (s.har r).sp.dalrt = 0 ∧ (s.har r).sp.dboff = 0 ∧
    (∀ n ∈ [0x100, 0x101, 0x102, 0x103, 0x104, 0x201, 0x202, 0x203, 0x204, 0x205, 0x400], s.privRead r n = 0) ∧
    (∀ n, n < 64 → s.privRead r (0x340 + n) = 0) ∧ (∀ n, n < 16 → s.privRead r (0x410 + n) = 0) ∧
    s.privRead r 0x200 = 8 ∧ s.privRead r 0x206 = BitVec.ofNat 64 (850 * 4 * 2 ^ 16 + 850 * 4) ∧ s.privRead r 0x207 = 0 ∧
    s.privRead r 0x300 = 1000 ∧ s.privRead r 0x301 = 188000000 ∧ s.privRead r 0x302 = 28200000000

/-- Log entry 3, the model's choice of how memory stands (an unlisted byte reads zero): every step keeps memory in its one
canonical form, addresses strictly rising and no zero byte listed, so that equal memories are equal data. -/
def Obligations.StepKeepsMemory : Prop := ∀ s t : State, memOk s → step s = .next t → memOk t
end

