-- ==== Sys2Proof/Laws/Memory.lean ====
section
/-!
SUPPORT. Laws of keyed lists and of memory: reading after writing, and the canonical form that every memory operation
keeps.
-/

namespace Sys2Proof

namespace Table

variable {α : Type}

theorem sortedFrom_mono {t : Table α} {lo lo' : Nat} (h : t.sortedFrom lo = true) (hl : lo' ≤ lo) :
    t.sortedFrom lo' = true := by
  cases t with
  | nil => rfl
  | cons p t => simp only [sortedFrom, Bool.and_eq_true, decide_eq_true_eq] at h ⊢; exact ⟨by omega, h.2⟩

/-- An unlisted key below every listed one is not found. -/
theorem find_below {t : Table α} {lo k : Nat} (h : t.sortedFrom lo = true) (hk : k < lo) : t.find k = none := by
  cases t with
  | nil => rfl
  | cons p t =>
    simp only [sortedFrom, Bool.and_eq_true, decide_eq_true_eq] at h
    simp only [find]
    rw [if_neg (by omega), if_pos (by omega)]

theorem find_set_same (t : Table α) (k : Nat) (x : α) : (t.set k x).find k = some x := by
  induction t with
  | nil => simp [set, find]
  | cons p t ih =>
    simp only [set]
    split
    · simp [find]
    · split
      · simp [find]
      · rename_i h1 h2; simp [find, h1, h2, ih]

theorem find_set_other {t : Table α} {k j : Nat} (x : α) (h : j ≠ k) : (t.set k x).find j = t.find j := by
  induction t with
  | nil =>
    by_cases hj : j < k
    · simp [set, find, Ne.symm h, hj]
    · simp [set, find, Ne.symm h, hj]
  | cons p t ih =>
    obtain ⟨i, y⟩ := p
    simp only [set]
    split
    · rename_i hi; subst hi
      simp only [find, if_neg (Ne.symm h)]
    · split
      · rename_i h1 h2
        simp only [find, if_neg (Ne.symm h)]
        split
        · rename_i h3
          rw [if_neg (by omega), if_pos (by omega)]
        · rfl
      · simp only [find, ih]

theorem sortedFrom_set {t : Table α} {lo k : Nat} {x : α} (h : t.sortedFrom lo = true) (hk : lo ≤ k) :
    (t.set k x).sortedFrom lo = true := by
  induction t generalizing lo with
  | nil => simp [set, sortedFrom, hk]
  | cons p t ih =>
    obtain ⟨i, y⟩ := p
    simp only [sortedFrom, Bool.and_eq_true, decide_eq_true_eq] at h
    simp only [set]
    split
    · rename_i hi; subst hi; simp [sortedFrom, h.2, hk]
    · split
      · rename_i h1 h2
        simp only [sortedFrom, Bool.and_eq_true, decide_eq_true_eq]
        exact ⟨hk, by omega, h.2⟩
      · simp only [sortedFrom, Bool.and_eq_true, decide_eq_true_eq]
        exact ⟨h.1, ih h.2 (by omega)⟩

theorem sorted_set {t : Table α} {k : Nat} {x : α} (h : t.sorted = true) : (t.set k x).sorted = true :=
  sortedFrom_set h (Nat.zero_le k)

theorem sortedFrom_erase {t : Table α} {lo k : Nat} (h : t.sortedFrom lo = true) : (t.erase k).sortedFrom lo = true := by
  induction t generalizing lo with
  | nil => rfl
  | cons p t ih =>
    obtain ⟨i, y⟩ := p
    simp only [sortedFrom, Bool.and_eq_true, decide_eq_true_eq] at h
    simp only [erase]
    split
    · exact sortedFrom_mono h.2 (by omega)
    · split
      · simp [sortedFrom, h]
      · simp [sortedFrom, h.1, ih h.2]

theorem sorted_erase {t : Table α} {k : Nat} (h : t.sorted = true) : (t.erase k).sorted = true := sortedFrom_erase h

theorem find_erase_same {t : Table α} {lo k : Nat} (h : t.sortedFrom lo = true) : (t.erase k).find k = none := by
  induction t generalizing lo with
  | nil => rfl
  | cons p t ih =>
    obtain ⟨i, y⟩ := p
    simp only [sortedFrom, Bool.and_eq_true, decide_eq_true_eq] at h
    simp only [erase]
    split
    · rename_i hi; subst hi; exact find_below h.2 (by omega)
    · split
      · rename_i h1 h2; simp [find, h1, h2]
      · rename_i h1 h2; simp [find, h1, h2, ih h.2]

theorem find_erase_other {t : Table α} {lo k j : Nat} (h : t.sortedFrom lo = true) (hj : j ≠ k) :
    (t.erase k).find j = t.find j := by
  induction t generalizing lo with
  | nil => rfl
  | cons p t ih =>
    obtain ⟨i, y⟩ := p
    simp only [sortedFrom, Bool.and_eq_true, decide_eq_true_eq] at h
    simp only [erase]
    split
    · rename_i hi; subst hi
      simp only [find, if_neg (Ne.symm hj)]
      split
      · exact find_below h.2 (by omega)
      · rfl
    · split
      · rfl
      · simp only [find, ih h.2]

end Table

namespace Machine

/-! Memory -/

theorem memGet_memSet_same {m : List Host.Cell} (h : Table.sorted m = true) (k : Nat) (b : Byte) :
    memGet (memSet m k b) k = b := by
  unfold memGet memSet
  split
  · rename_i hb; rw [Table.find_erase_same h, hb]; rfl
  · rw [Table.find_set_same]; rfl

theorem memGet_memSet_other {m : List Host.Cell} (h : Table.sorted m = true) {k j : Nat} (b : Byte) (hj : j ≠ k) :
    memGet (memSet m k b) j = memGet m j := by
  unfold memGet memSet
  split
  · rw [Table.find_erase_other h hj]
  · rw [Table.find_set_other b hj]

theorem all_set {m : List Host.Cell} {k : Nat} {b : Byte} (h : m.all (fun c => c.2 != 0) = true) (hb : b ≠ 0) :
    (Table.set m k b).all (fun c => c.2 != 0) = true := by
  induction m with
  | nil => simpa [Table.set] using hb
  | cons p m ih =>
    simp only [List.all_cons, Bool.and_eq_true] at h
    simp only [Table.set]
    split
    · simp only [List.all_cons, Bool.and_eq_true, bne_iff_ne]; exact ⟨hb, h.2⟩
    · split
      · simp only [List.all_cons, Bool.and_eq_true, bne_iff_ne]; exact ⟨hb, by simpa using h.1, h.2⟩
      · simp only [List.all_cons, Bool.and_eq_true]; exact ⟨h.1, ih h.2⟩

theorem all_erase {m : List Host.Cell} {k : Nat} (h : m.all (fun c => c.2 != 0) = true) :
    (Table.erase m k).all (fun c => c.2 != 0) = true := by
  induction m with
  | nil => rfl
  | cons p m ih =>
    simp only [List.all_cons, Bool.and_eq_true] at h
    simp only [Table.erase]
    split
    · exact h.2
    · split
      · simp only [List.all_cons, Bool.and_eq_true]; exact h
      · simp only [List.all_cons, Bool.and_eq_true]; exact ⟨h.1, ih h.2⟩

theorem memWf_sorted {m : List Host.Cell} (h : memWf m = true) : Table.sorted m = true := by
  simp only [memWf, Bool.and_eq_true] at h; exact h.1

/-- Writing a byte keeps the canonical form. -/
theorem memWf_memSet {m : List Host.Cell} (h : memWf m = true) (k : Nat) (b : Byte) : memWf (memSet m k b) = true := by
  simp only [memWf, Bool.and_eq_true] at h ⊢
  unfold memSet
  split
  · exact ⟨Table.sorted_erase h.1, all_erase h.2⟩
  · rename_i hb; exact ⟨Table.sorted_set h.1, all_set h.2 hb⟩

/-- Writing bytes keeps the canonical form. -/
theorem memWf_memWrite {m : List Host.Cell} (h : memWf m = true) (k : Nat) (bs : List Byte) :
    memWf (memWrite m k bs) = true := by
  induction bs generalizing m k with
  | nil => exact h
  | cons b t ih => exact ih (memWf_memSet h k b) (k + 1)

/-- A byte outside the written ones reads as before. -/
theorem memGet_memWrite_other {m : List Host.Cell} (h : memWf m = true) {k j : Nat} {bs : List Byte}
    (hj : j < k ∨ k + bs.length ≤ j) : memGet (memWrite m k bs) j = memGet m j := by
  induction bs generalizing m k with
  | nil => rfl
  | cons b t ih =>
    simp only [List.length_cons] at hj
    rw [memWrite, ih (memWf_memSet h k b) (by omega), memGet_memSet_other (memWf_sorted h) b (by omega)]

/-- The bytes just written read back. -/
theorem memRead_memWrite {m : List Host.Cell} (h : memWf m = true) (k : Nat) (bs : List Byte) :
    memRead (memWrite m k bs) k bs.length = bs := by
  induction bs generalizing m k with
  | nil => rfl
  | cons b t ih =>
    have hw := memWf_memSet h k b
    rw [memWrite, List.length_cons, memRead, ih hw, memGet_memWrite_other hw (by omega),
      memGet_memSet_same (memWf_sorted h)]

/-- A range that no written byte touches reads as before. -/
theorem memRead_memWrite_other {m : List Host.Cell} (h : memWf m = true) {k j n : Nat} {bs : List Byte}
    (hj : j + n ≤ k ∨ k + bs.length ≤ j) : memRead (memWrite m k bs) j n = memRead m j n := by
  induction n generalizing j with
  | zero => rfl
  | succ n ih => rw [memRead, memRead, memGet_memWrite_other h (by omega), ih (by omega)]

theorem length_memRead (m : List Host.Cell) (k n : Nat) : (memRead m k n).length = n := by
  induction n generalizing k with
  | zero => rfl
  | succ n ih => simp [memRead, ih]

theorem length_leBytes (n v : Nat) : (leBytes n v).length = n := by
  induction n generalizing v with
  | zero => rfl
  | succ n ih => simp [leBytes, ih]

/-- Little-endian bytes stand for the number, cut to their length. -/
theorem leNat_leBytes (n v : Nat) : leNat (leBytes n v) = v % 256 ^ n := by
  induction n generalizing v with
  | zero => simp [leBytes, leNat, Nat.mod_one]
  | succ n ih =>
    simp only [leBytes, leNat, ih, BitVec.toNat_ofNat]
    have h1 : (2 : Nat) ^ 8 = 256 := by norm_num
    rw [h1, pow_succ, Nat.mul_comm (256 ^ n) 256, Nat.mod_mul]

/-! State.write, the one writer of memory -/

theorem State.cleanGranule_mem (s : State) (g : Nat) : (s.cleanGranule g).mem = s.mem := by
  unfold State.cleanGranule
  dsimp only
  split
  · split <;> rfl
  · rfl

theorem State.foldl_cleanGranule_mem (gs : List Nat) (s : State) : (gs.foldl State.cleanGranule s).mem = s.mem := by
  induction gs generalizing s with
  | nil => rfl
  | cons g t ih => rw [List.foldl_cons, ih, State.cleanGranule_mem]

theorem State.put_mem (s : State) (k : Nat) (bs : List Byte) : (s.put k bs).mem = memWrite s.mem k bs := by
  unfold State.put
  dsimp only
  split
  · rfl
  · rw [State.foldl_cleanGranule_mem]

theorem State.foldl_put_memWf (xs : List (Nat × List Byte)) {s : State} (h : memWf s.mem = true) :
    memWf (xs.foldl (fun s kb => s.put kb.1 kb.2) s).mem = true := by
  induction xs generalizing s with
  | nil => exact h
  | cons x t ih => exact ih (by rw [State.put_mem]; exact memWf_memWrite h x.1 x.2)

/-- A write that meets no quarantined frame puts its bytes. -/
theorem State.write_mem {s : State} {k : Nat} {bs : List Byte} (h : ∀ i, i < bs.length → s.quarantined (k + i) = false) :
    (s.write k bs).mem = memWrite s.mem k bs := by
  have : (List.range bs.length).all (fun i => !s.quarantined (k + i)) = true := by
    simpa [List.all_eq_true] using h
  rw [State.write, if_pos (by simp [this]), State.put_mem]

/-- A write keeps the canonical form of memory. -/
theorem State.write_memWf {s : State} (h : memWf s.mem = true) (k : Nat) (bs : List Byte) :
    memWf (s.write k bs).mem = true := by
  unfold State.write
  split
  · rw [State.put_mem]; exact memWf_memWrite h k bs
  · exact State.foldl_put_memWf _ h

/-- Several writes keep the canonical form. -/
theorem State.foldl_write_memWf (xs : List (Nat × List Byte)) {s : State} (h : memWf s.mem = true) :
    memWf (xs.foldl (fun s kb => s.write kb.1 kb.2) s).mem = true := by
  induction xs generalizing s with
  | nil => exact h
  | cons x t ih => exact ih (State.write_memWf h x.1 x.2)

/-- Writes by key keep the canonical form. -/
theorem State.writeKeys_memWf {s : State} (h : memWf s.mem = true) (ks : List Nat) (bs : List Byte) :
    memWf (s.writeKeys ks bs).mem = true := State.foldl_write_memWf _ h

end Machine

end Sys2Proof
end

