-- ==== Sys2Proof/Laws/State.lean ====
section
/-!
SUPPORT. What each update of the state leaves: one lemma a field, so that no proof unfolds a record update, and what a
part of the state is after its own update.
-/

namespace Sys2Proof.Machine

/-! A harness -/

@[simp] theorem State.setHar_variant (s : State) (r : Nat) (h : Harness) : (s.setHar r h).variant = s.variant := rfl
@[simp] theorem State.setHar_mcc (s : State) (r : Nat) (h : Harness) : (s.setHar r h).mcc = s.mcc := rfl
@[simp] theorem State.setHar_mem (s : State) (r : Nat) (h : Harness) : (s.setHar r h).mem = s.mem := rfl
@[simp] theorem State.setHar_poison (s : State) (r : Nat) (h : Harness) : (s.setHar r h).poison = s.poison := rfl
@[simp] theorem State.setHar_latent (s : State) (r : Nat) (h : Harness) : (s.setHar r h).latent = s.latent := rfl
@[simp] theorem State.setHar_hbm (s : State) (r : Nat) (h : Harness) : (s.setHar r h).hbm = s.hbm := rfl
@[simp] theorem State.setHar_dies (s : State) (r : Nat) (h : Harness) : (s.setHar r h).dies = s.dies := rfl
@[simp] theorem State.setHar_parts (s : State) (r : Nat) (h : Harness) : (s.setHar r h).parts = s.parts := rfl
@[simp] theorem State.setHar_partmap (s : State) (r : Nat) (h : Harness) : (s.setHar r h).partmap = s.partmap := rfl
@[simp] theorem State.setHar_partmapNew (s : State) (r : Nat) (h : Harness) : (s.setHar r h).partmapNew = s.partmapNew := rfl
@[simp] theorem State.setHar_ppbind (s : State) (r : Nat) (h : Harness) : (s.setHar r h).ppbind = s.ppbind := rfl
@[simp] theorem State.setHar_links (s : State) (r : Nat) (h : Harness) : (s.setHar r h).links = s.links := rfl
@[simp] theorem State.setHar_bugle (s : State) (r : Nat) (h : Harness) : (s.setHar r h).bugle = s.bugle := rfl
@[simp] theorem State.setHar_gangs (s : State) (r : Nat) (h : Harness) : (s.setHar r h).gangs = s.gangs := rfl
@[simp] theorem State.setHar_xfly (s : State) (r : Nat) (h : Harness) : (s.setHar r h).xfly = s.xfly := rfl
@[simp] theorem State.setHar_efly (s : State) (r : Nat) (h : Harness) : (s.setHar r h).efly = s.efly := rfl
@[simp] theorem State.setHar_tagger (s : State) (r : Nat) (h : Harness) : (s.setHar r h).tagger = s.tagger := rfl
@[simp] theorem State.setHar_fuses (s : State) (r : Nat) (h : Harness) : (s.setHar r h).fuses = s.fuses := rfl
@[simp] theorem State.setHar_rootDigest (s : State) (r : Nat) (h : Harness) : (s.setHar r h).rootDigest = s.rootDigest := rfl
@[simp] theorem State.setHar_boot (s : State) (r : Nat) (h : Harness) : (s.setHar r h).boot = s.boot := rfl
@[simp] theorem State.setHar_supCache (s : State) (r : Nat) (h : Harness) : (s.setHar r h).supCache = s.supCache := rfl
@[simp] theorem State.setHar_supSigned (s : State) (r : Nat) (h : Harness) : (s.setHar r h).supSigned = s.supSigned := rfl
@[simp] theorem State.setHar_loadGen (s : State) (r : Nat) (h : Harness) : (s.setHar r h).loadGen = s.loadGen := rfl
@[simp] theorem State.setHar_hostOut (s : State) (r : Nat) (h : Harness) : (s.setHar r h).hostOut = s.hostOut := rfl
@[simp] theorem State.setHar_consoleOut (s : State) (r : Nat) (h : Harness) : (s.setHar r h).consoleOut = s.consoleOut := rfl
@[simp] theorem State.setHar_consoleIn (s : State) (r : Nat) (h : Harness) : (s.setHar r h).consoleIn = s.consoleIn := rfl
@[simp] theorem State.setHar_loadWait (s : State) (r : Nat) (h : Harness) : (s.setHar r h).loadWait = s.loadWait := rfl
@[simp] theorem State.setHar_scanLog (s : State) (r : Nat) (h : Harness) : (s.setHar r h).scanLog = s.scanLog := rfl
@[simp] theorem State.setHar_later (s : State) (r : Nat) (h : Harness) : (s.setHar r h).later = s.later := rfl
@[simp] theorem State.setHar_second (s : State) (r : Nat) (h : Harness) : (s.setHar r h).second = s.second := rfl
@[simp] theorem State.setHar_nid (s : State) (r : Nat) (h : Harness) : (s.setHar r h).nid = s.nid := rfl
@[simp] theorem State.setHar_freeCtr (s : State) (r : Nat) (h : Harness) : (s.setHar r h).freeCtr = s.freeCtr := rfl
@[simp] theorem State.setHar_cur (s : State) (r : Nat) (h : Harness) : (s.setHar r h).cur = s.cur := rfl
@[simp] theorem State.setHar_phase (s : State) (r : Nat) (h : Harness) : (s.setHar r h).phase = s.phase := rfl
@[simp] theorem State.setHar_agenda (s : State) (r : Nat) (h : Harness) : (s.setHar r h).agenda = s.agenda := rfl
@[simp] theorem State.setHar_ev (s : State) (r : Nat) (h : Harness) : (s.setHar r h).ev = s.ev := rfl

/-! A die -/

@[simp] theorem State.setDie_variant (s : State) (d : Nat) (x : Die) : (s.setDie d x).variant = s.variant := rfl
@[simp] theorem State.setDie_mcc (s : State) (d : Nat) (x : Die) : (s.setDie d x).mcc = s.mcc := rfl
@[simp] theorem State.setDie_mem (s : State) (d : Nat) (x : Die) : (s.setDie d x).mem = s.mem := rfl
@[simp] theorem State.setDie_poison (s : State) (d : Nat) (x : Die) : (s.setDie d x).poison = s.poison := rfl
@[simp] theorem State.setDie_latent (s : State) (d : Nat) (x : Die) : (s.setDie d x).latent = s.latent := rfl
@[simp] theorem State.setDie_hbm (s : State) (d : Nat) (x : Die) : (s.setDie d x).hbm = s.hbm := rfl
@[simp] theorem State.setDie_hs (s : State) (d : Nat) (x : Die) : (s.setDie d x).hs = s.hs := rfl
@[simp] theorem State.setDie_parts (s : State) (d : Nat) (x : Die) : (s.setDie d x).parts = s.parts := rfl
@[simp] theorem State.setDie_partmap (s : State) (d : Nat) (x : Die) : (s.setDie d x).partmap = s.partmap := rfl
@[simp] theorem State.setDie_partmapNew (s : State) (d : Nat) (x : Die) : (s.setDie d x).partmapNew = s.partmapNew := rfl
@[simp] theorem State.setDie_ppbind (s : State) (d : Nat) (x : Die) : (s.setDie d x).ppbind = s.ppbind := rfl
@[simp] theorem State.setDie_links (s : State) (d : Nat) (x : Die) : (s.setDie d x).links = s.links := rfl
@[simp] theorem State.setDie_bugle (s : State) (d : Nat) (x : Die) : (s.setDie d x).bugle = s.bugle := rfl
@[simp] theorem State.setDie_gangs (s : State) (d : Nat) (x : Die) : (s.setDie d x).gangs = s.gangs := rfl
@[simp] theorem State.setDie_xfly (s : State) (d : Nat) (x : Die) : (s.setDie d x).xfly = s.xfly := rfl
@[simp] theorem State.setDie_efly (s : State) (d : Nat) (x : Die) : (s.setDie d x).efly = s.efly := rfl
@[simp] theorem State.setDie_tagger (s : State) (d : Nat) (x : Die) : (s.setDie d x).tagger = s.tagger := rfl
@[simp] theorem State.setDie_fuses (s : State) (d : Nat) (x : Die) : (s.setDie d x).fuses = s.fuses := rfl
@[simp] theorem State.setDie_rootDigest (s : State) (d : Nat) (x : Die) : (s.setDie d x).rootDigest = s.rootDigest := rfl
@[simp] theorem State.setDie_boot (s : State) (d : Nat) (x : Die) : (s.setDie d x).boot = s.boot := rfl
@[simp] theorem State.setDie_supCache (s : State) (d : Nat) (x : Die) : (s.setDie d x).supCache = s.supCache := rfl
@[simp] theorem State.setDie_supSigned (s : State) (d : Nat) (x : Die) : (s.setDie d x).supSigned = s.supSigned := rfl
@[simp] theorem State.setDie_loadGen (s : State) (d : Nat) (x : Die) : (s.setDie d x).loadGen = s.loadGen := rfl
@[simp] theorem State.setDie_hostOut (s : State) (d : Nat) (x : Die) : (s.setDie d x).hostOut = s.hostOut := rfl
@[simp] theorem State.setDie_consoleOut (s : State) (d : Nat) (x : Die) : (s.setDie d x).consoleOut = s.consoleOut := rfl
@[simp] theorem State.setDie_consoleIn (s : State) (d : Nat) (x : Die) : (s.setDie d x).consoleIn = s.consoleIn := rfl
@[simp] theorem State.setDie_loadWait (s : State) (d : Nat) (x : Die) : (s.setDie d x).loadWait = s.loadWait := rfl
@[simp] theorem State.setDie_scanLog (s : State) (d : Nat) (x : Die) : (s.setDie d x).scanLog = s.scanLog := rfl
@[simp] theorem State.setDie_later (s : State) (d : Nat) (x : Die) : (s.setDie d x).later = s.later := rfl
@[simp] theorem State.setDie_second (s : State) (d : Nat) (x : Die) : (s.setDie d x).second = s.second := rfl
@[simp] theorem State.setDie_nid (s : State) (d : Nat) (x : Die) : (s.setDie d x).nid = s.nid := rfl
@[simp] theorem State.setDie_freeCtr (s : State) (d : Nat) (x : Die) : (s.setDie d x).freeCtr = s.freeCtr := rfl
@[simp] theorem State.setDie_cur (s : State) (d : Nat) (x : Die) : (s.setDie d x).cur = s.cur := rfl
@[simp] theorem State.setDie_phase (s : State) (d : Nat) (x : Die) : (s.setDie d x).phase = s.phase := rfl
@[simp] theorem State.setDie_agenda (s : State) (d : Nat) (x : Die) : (s.setDie d x).agenda = s.agenda := rfl
@[simp] theorem State.setDie_ev (s : State) (d : Nat) (x : Die) : (s.setDie d x).ev = s.ev := rfl

/-! A partition -/

@[simp] theorem State.modPart_variant (s : State) (p : Nat) (f : Part → Part) : (s.modPart p f).variant = s.variant := rfl
@[simp] theorem State.modPart_mcc (s : State) (p : Nat) (f : Part → Part) : (s.modPart p f).mcc = s.mcc := rfl
@[simp] theorem State.modPart_mem (s : State) (p : Nat) (f : Part → Part) : (s.modPart p f).mem = s.mem := rfl
@[simp] theorem State.modPart_poison (s : State) (p : Nat) (f : Part → Part) : (s.modPart p f).poison = s.poison := rfl
@[simp] theorem State.modPart_latent (s : State) (p : Nat) (f : Part → Part) : (s.modPart p f).latent = s.latent := rfl
@[simp] theorem State.modPart_hbm (s : State) (p : Nat) (f : Part → Part) : (s.modPart p f).hbm = s.hbm := rfl
@[simp] theorem State.modPart_hs (s : State) (p : Nat) (f : Part → Part) : (s.modPart p f).hs = s.hs := rfl
@[simp] theorem State.modPart_dies (s : State) (p : Nat) (f : Part → Part) : (s.modPart p f).dies = s.dies := rfl
@[simp] theorem State.modPart_partmap (s : State) (p : Nat) (f : Part → Part) : (s.modPart p f).partmap = s.partmap := rfl
@[simp] theorem State.modPart_partmapNew (s : State) (p : Nat) (f : Part → Part) : (s.modPart p f).partmapNew = s.partmapNew := rfl
@[simp] theorem State.modPart_ppbind (s : State) (p : Nat) (f : Part → Part) : (s.modPart p f).ppbind = s.ppbind := rfl
@[simp] theorem State.modPart_links (s : State) (p : Nat) (f : Part → Part) : (s.modPart p f).links = s.links := rfl
@[simp] theorem State.modPart_bugle (s : State) (p : Nat) (f : Part → Part) : (s.modPart p f).bugle = s.bugle := rfl
@[simp] theorem State.modPart_gangs (s : State) (p : Nat) (f : Part → Part) : (s.modPart p f).gangs = s.gangs := rfl
@[simp] theorem State.modPart_xfly (s : State) (p : Nat) (f : Part → Part) : (s.modPart p f).xfly = s.xfly := rfl
@[simp] theorem State.modPart_efly (s : State) (p : Nat) (f : Part → Part) : (s.modPart p f).efly = s.efly := rfl
@[simp] theorem State.modPart_tagger (s : State) (p : Nat) (f : Part → Part) : (s.modPart p f).tagger = s.tagger := rfl
@[simp] theorem State.modPart_fuses (s : State) (p : Nat) (f : Part → Part) : (s.modPart p f).fuses = s.fuses := rfl
@[simp] theorem State.modPart_rootDigest (s : State) (p : Nat) (f : Part → Part) : (s.modPart p f).rootDigest = s.rootDigest := rfl
@[simp] theorem State.modPart_boot (s : State) (p : Nat) (f : Part → Part) : (s.modPart p f).boot = s.boot := rfl
@[simp] theorem State.modPart_supCache (s : State) (p : Nat) (f : Part → Part) : (s.modPart p f).supCache = s.supCache := rfl
@[simp] theorem State.modPart_supSigned (s : State) (p : Nat) (f : Part → Part) : (s.modPart p f).supSigned = s.supSigned := rfl
@[simp] theorem State.modPart_loadGen (s : State) (p : Nat) (f : Part → Part) : (s.modPart p f).loadGen = s.loadGen := rfl
@[simp] theorem State.modPart_hostOut (s : State) (p : Nat) (f : Part → Part) : (s.modPart p f).hostOut = s.hostOut := rfl
@[simp] theorem State.modPart_consoleOut (s : State) (p : Nat) (f : Part → Part) : (s.modPart p f).consoleOut = s.consoleOut := rfl
@[simp] theorem State.modPart_consoleIn (s : State) (p : Nat) (f : Part → Part) : (s.modPart p f).consoleIn = s.consoleIn := rfl
@[simp] theorem State.modPart_loadWait (s : State) (p : Nat) (f : Part → Part) : (s.modPart p f).loadWait = s.loadWait := rfl
@[simp] theorem State.modPart_scanLog (s : State) (p : Nat) (f : Part → Part) : (s.modPart p f).scanLog = s.scanLog := rfl
@[simp] theorem State.modPart_later (s : State) (p : Nat) (f : Part → Part) : (s.modPart p f).later = s.later := rfl
@[simp] theorem State.modPart_second (s : State) (p : Nat) (f : Part → Part) : (s.modPart p f).second = s.second := rfl
@[simp] theorem State.modPart_nid (s : State) (p : Nat) (f : Part → Part) : (s.modPart p f).nid = s.nid := rfl
@[simp] theorem State.modPart_freeCtr (s : State) (p : Nat) (f : Part → Part) : (s.modPart p f).freeCtr = s.freeCtr := rfl
@[simp] theorem State.modPart_cur (s : State) (p : Nat) (f : Part → Part) : (s.modPart p f).cur = s.cur := rfl
@[simp] theorem State.modPart_phase (s : State) (p : Nat) (f : Part → Part) : (s.modPart p f).phase = s.phase := rfl
@[simp] theorem State.modPart_agenda (s : State) (p : Nat) (f : Part → Part) : (s.modPart p f).agenda = s.agenda := rfl
@[simp] theorem State.modPart_ev (s : State) (p : Nat) (f : Part → Part) : (s.modPart p f).ev = s.ev := rfl

/-! The counter of free values -/

@[simp] theorem State.fresh_variant (s : State) : (s.fresh).variant = s.variant := rfl
@[simp] theorem State.fresh_mcc (s : State) : (s.fresh).mcc = s.mcc := rfl
@[simp] theorem State.fresh_mem (s : State) : (s.fresh).mem = s.mem := rfl
@[simp] theorem State.fresh_poison (s : State) : (s.fresh).poison = s.poison := rfl
@[simp] theorem State.fresh_latent (s : State) : (s.fresh).latent = s.latent := rfl
@[simp] theorem State.fresh_hbm (s : State) : (s.fresh).hbm = s.hbm := rfl
@[simp] theorem State.fresh_hs (s : State) : (s.fresh).hs = s.hs := rfl
@[simp] theorem State.fresh_dies (s : State) : (s.fresh).dies = s.dies := rfl
@[simp] theorem State.fresh_parts (s : State) : (s.fresh).parts = s.parts := rfl
@[simp] theorem State.fresh_partmap (s : State) : (s.fresh).partmap = s.partmap := rfl
@[simp] theorem State.fresh_partmapNew (s : State) : (s.fresh).partmapNew = s.partmapNew := rfl
@[simp] theorem State.fresh_ppbind (s : State) : (s.fresh).ppbind = s.ppbind := rfl
@[simp] theorem State.fresh_links (s : State) : (s.fresh).links = s.links := rfl
@[simp] theorem State.fresh_bugle (s : State) : (s.fresh).bugle = s.bugle := rfl
@[simp] theorem State.fresh_gangs (s : State) : (s.fresh).gangs = s.gangs := rfl
@[simp] theorem State.fresh_xfly (s : State) : (s.fresh).xfly = s.xfly := rfl
@[simp] theorem State.fresh_efly (s : State) : (s.fresh).efly = s.efly := rfl
@[simp] theorem State.fresh_tagger (s : State) : (s.fresh).tagger = s.tagger := rfl
@[simp] theorem State.fresh_fuses (s : State) : (s.fresh).fuses = s.fuses := rfl
@[simp] theorem State.fresh_rootDigest (s : State) : (s.fresh).rootDigest = s.rootDigest := rfl
@[simp] theorem State.fresh_boot (s : State) : (s.fresh).boot = s.boot := rfl
@[simp] theorem State.fresh_supCache (s : State) : (s.fresh).supCache = s.supCache := rfl
@[simp] theorem State.fresh_supSigned (s : State) : (s.fresh).supSigned = s.supSigned := rfl
@[simp] theorem State.fresh_loadGen (s : State) : (s.fresh).loadGen = s.loadGen := rfl
@[simp] theorem State.fresh_hostOut (s : State) : (s.fresh).hostOut = s.hostOut := rfl
@[simp] theorem State.fresh_consoleOut (s : State) : (s.fresh).consoleOut = s.consoleOut := rfl
@[simp] theorem State.fresh_consoleIn (s : State) : (s.fresh).consoleIn = s.consoleIn := rfl
@[simp] theorem State.fresh_loadWait (s : State) : (s.fresh).loadWait = s.loadWait := rfl
@[simp] theorem State.fresh_scanLog (s : State) : (s.fresh).scanLog = s.scanLog := rfl
@[simp] theorem State.fresh_later (s : State) : (s.fresh).later = s.later := rfl
@[simp] theorem State.fresh_second (s : State) : (s.fresh).second = s.second := rfl
@[simp] theorem State.fresh_nid (s : State) : (s.fresh).nid = s.nid := rfl
@[simp] theorem State.fresh_cur (s : State) : (s.fresh).cur = s.cur := rfl
@[simp] theorem State.fresh_phase (s : State) : (s.fresh).phase = s.phase := rfl
@[simp] theorem State.fresh_agenda (s : State) : (s.fresh).agenda = s.agenda := rfl
@[simp] theorem State.fresh_ev (s : State) : (s.fresh).ev = s.ev := rfl

/-! What was put is there, and nothing else changed. -/

@[simp] theorem Table.getD_set_same {α : Type} (t : Table α) (k : Nat) (x d : α) : (t.set k x).getD k d = x := by
  simp [Table.getD, Table.find_set_same]

theorem Table.getD_set_other {α : Type} {t : Table α} {k j : Nat} (x d : α) (h : j ≠ k) :
    (t.set k x).getD j d = t.getD j d := by
  simp [Table.getD, Table.find_set_other x h]

@[simp] theorem State.har_setHar (s : State) (r : Nat) (h : Harness) : (s.setHar r h).har r = h :=
  Table.getD_set_same ..

theorem State.har_setHar_other {s : State} {r q : Nat} (h : Harness) (hq : q ≠ r) : (s.setHar r h).har q = s.har q :=
  Table.getD_set_other _ _ hq

@[simp] theorem State.har_modHar (s : State) (r : Nat) (f : Harness → Harness) :
    (s.modHar r f).har r = f (s.har r) := s.har_setHar ..

theorem State.har_modHar_other {s : State} {r q : Nat} (f : Harness → Harness) (hq : q ≠ r) :
    (s.modHar r f).har q = s.har q := s.har_setHar_other _ hq

@[simp] theorem State.die_setDie (s : State) (d : Nat) (x : Die) : (s.setDie d x).die d = x := Table.getD_set_same ..

theorem State.die_setDie_other {s : State} {d e : Nat} (x : Die) (he : e ≠ d) : (s.setDie d x).die e = s.die e :=
  Table.getD_set_other _ _ he

@[simp] theorem State.die_modDie (s : State) (d : Nat) (f : Die → Die) : (s.modDie d f).die d = f (s.die d) :=
  s.die_setDie ..

theorem State.die_modDie_other {s : State} {d e : Nat} (f : Die → Die) (he : e ≠ d) :
    (s.modDie d f).die e = s.die e := s.die_setDie_other _ he

@[simp] theorem State.part_modPart (s : State) (p : Nat) (f : Part → Part) : (s.modPart p f).part p = f (s.part p) :=
  Table.getD_set_same ..

theorem State.part_modPart_other {s : State} {p q : Nat} (f : Part → Part) (hq : q ≠ p) :
    (s.modPart p f).part q = s.part q := Table.getD_set_other _ _ hq

@[simp] theorem State.die_setHar (s : State) (r : Nat) (h : Harness) (d : Nat) : (s.setHar r h).die d = s.die d := rfl

@[simp] theorem State.part_setHar (s : State) (r : Nat) (h : Harness) (p : Nat) : (s.setHar r h).part p = s.part p := rfl

@[simp] theorem State.har_setDie (s : State) (d : Nat) (x : Die) (r : Nat) : (s.setDie d x).har r = s.har r := rfl

/-! The current harness -/

theorem State.modHar_eq (s : State) (r : Nat) (f : Harness → Harness) : s.modHar r f = s.setHar r (f (s.har r)) := rfl

theorem State.modSeq_eq (s : State) (r : Nat) (f : Seq → Seq) :
    s.modSeq r f = s.setHar r { s.har r with seq := f (s.har r).seq } := rfl

theorem State.modCtl_eq (s : State) (r : Nat) (f : Ctl → Ctl) :
    s.modCtl r f = s.setHar r { s.har r with ctl := f (s.har r).ctl } := rfl

theorem State.modSp_eq (s : State) (r : Nat) (f : Special → Special) :
    s.modSp r f = s.setHar r { s.har r with sp := f (s.har r).sp } := rfl

theorem State.retire_eq (s : State) (f : Harness → Harness) :
    s.retire f = s.setHar s.cur { f (s.har s.cur) with seq := (f (s.har s.cur)).seq.advance } := rfl

theorem State.modDie_eq (s : State) (d : Nat) (f : Die → Die) : s.modDie d f = s.setDie d (f (s.die d)) := rfl

/-! Registers of the sequencer -/

@[simp] theorem Seq.rg_zero (q : Seq) : q.rg 0 = 0 := rfl

@[simp] theorem Seq.rk_zero (q : Seq) : q.rk 0 = true := rfl

@[simp] theorem Seq.wg_zero (q : Seq) (v : Word) : q.wg 0 v = q := rfl

@[simp] theorem Seq.wk_zero (q : Seq) (v : Bool) : q.wk 0 v = q := rfl

theorem Seq.rg_wg_same {q : Seq} {r : BitVec 6} (v : Word) (h : r ≠ 0) : (q.wg r v).rg r = v := by
  simp only [Seq.rg, Seq.wg, if_neg h, Vector.getElem_set_self]

theorem Seq.rg_wg_other {q : Seq} {r d : BitVec 6} (v : Word) (h : r ≠ d) : (q.wg d v).rg r = q.rg r := by
  have : d.toNat ≠ r.toNat := fun e => h (BitVec.eq_of_toNat_eq e.symm)
  by_cases hd : d = 0
  · simp only [Seq.wg, if_pos hd]
  · simp only [Seq.rg, Seq.wg, if_neg hd, Vector.getElem_set_ne _ _ this]

theorem Seq.rk_wk_same {q : Seq} {r : BitVec 4} (v : Bool) (h : r ≠ 0) : (q.wk r v).rk r = v := by
  simp only [Seq.rk, Seq.wk, if_neg h, Vector.getElem_set_self]

theorem Seq.rk_wk_other {q : Seq} {r d : BitVec 4} (v : Bool) (h : r ≠ d) : (q.wk d v).rk r = q.rk r := by
  have : d.toNat ≠ r.toNat := fun e => h (BitVec.eq_of_toNat_eq e.symm)
  by_cases hd : d = 0
  · simp only [Seq.wk, if_pos hd]
  · simp only [Seq.rk, Seq.wk, if_neg hd, Vector.getElem_set_ne _ _ this]

@[simp] theorem Seq.rk_wg (q : Seq) (d : BitVec 6) (v : Word) (r : BitVec 4) : (q.wg d v).rk r = q.rk r := by
  unfold Seq.wg; split <;> rfl

@[simp] theorem Seq.rg_wk (q : Seq) (d : BitVec 4) (v : Bool) (r : BitVec 6) : (q.wk d v).rg r = q.rg r := by
  unfold Seq.wk; split <;> rfl

@[simp] theorem Seq.rg_advance (q : Seq) (r : BitVec 6) : q.advance.rg r = q.rg r := by
  unfold Seq.advance; split <;> rfl

@[simp] theorem Seq.rk_advance (q : Seq) (r : BitVec 4) : q.advance.rk r = q.rk r := by
  unfold Seq.advance; split <;> rfl

/-- Outside a delay slot the next instruction is the next word. -/
theorem Seq.advance_pc {q : Seq} (h : q.ds = none) : q.advance.pc = q.pc + 4 := by
  simp [Seq.advance, h]

end Sys2Proof.Machine
end

