-- ==== Sys2Proof/Laws/Sequencer.lean ====
section
/-!
SUPPORT. Everything that the shared operations of the sequencer can do: delivering a result, moving on, stalling. Each is
stated once, in the terms of Safety.lean.
-/

namespace Sys2Proof.Machine

open Sys2Proof.Safety

/-- A state that differs in one harness differs nowhere else. -/
theorem onlyHar_setHar (s : State) (r : Nat) (h : Harness) : onlyHar r s (s.setHar r h) :=
  ⟨rfl, fun _ hq => State.har_setHar_other _ hq, fun _ => rfl⟩

theorem onlyHar_modHar (s : State) (r : Nat) (f : Harness → Harness) : onlyHar r s (s.modHar r f) :=
  onlyHar_setHar ..

theorem onlyHar_refl (s : State) (r : Nat) : onlyHar r s s := ⟨rfl, fun _ _ => rfl, fun _ => rfl⟩

theorem onlyHar_trans {r : Nat} {s t u : State} (h : onlyHar r s t) (k : onlyHar r t u) : onlyHar r s u := by
  obtain ⟨h1, h2, h3⟩ := h
  obtain ⟨k1, k2, k3⟩ := k
  refine ⟨?_, fun q hq => (k2 q hq).trans (h2 q hq), fun a => (k3 a).trans (h3 a)⟩
  rw [k1, h1]

theorem onlyHar_cur {r : Nat} {s t : State} (h : onlyHar r s t) : t.cur = s.cur := by rw [h.1]

theorem onlySeq_modSeq (s : State) (r : Nat) (f : Seq → Seq) : onlySeq r s (s.modSeq r f) :=
  ⟨onlyHar_modHar .., by rw [State.modSeq_eq, State.har_setHar]⟩

@[simp] theorem State.retireSeq_har (s : State) (f : Seq → Seq) :
    (s.retireSeq f).har s.cur = { s.har s.cur with seq := (f (s.har s.cur).seq).advance } := State.har_modHar ..

theorem State.retireSeq_onlySeq (s : State) (f : Seq → Seq) : onlySeq s.cur s (s.retireSeq f) :=
  ⟨onlyHar_setHar .., by rw [State.retireSeq_har]⟩

theorem Seq.wg_ne {q : Seq} {d : BitVec 6} {v : Word} (h : d ≠ 0) :
    q.wg d v = { q with g := q.g.set d.toNat v d.isLt } := if_neg h

theorem Seq.wk_ne {q : Seq} {d : BitVec 4} {v : Bool} (h : d ≠ 0) :
    q.wk d v = { q with k := q.k.set d.toNat v d.isLt } := if_neg h

/-- Where the sequencer goes after the instruction at pc (06 R170-R172). -/
theorem Seq.advance_eq (q : Seq) : q.advance =
    { q with
      pc := match q.ds with
        | none => q.pc + 4
        | some d => if d.taken then d.target else d.branch + 8
      ds := none, wait := {}, stalled := false } := by
  cases q with | mk g k pc ds => cases ds <;> rfl

/-- Register writes commute with moving on. -/
theorem Seq.advance_wg (q : Seq) (d : BitVec 6) (v : Word) :
    (q.wg d v).advance = { q.advance with g := (q.wg d v).g } := by
  by_cases hd : d = 0
  · subst hd; rw [Seq.wg_zero, Seq.advance_eq]
  · rw [Seq.wg_ne hd, Seq.advance_eq, Seq.advance_eq]

theorem Seq.advance_wk (q : Seq) (d : BitVec 4) (v : Bool) :
    (q.wk d v).advance = { q.advance with k := (q.wk d v).k } := by
  by_cases hd : d = 0
  · subst hd; rw [Seq.wk_zero, Seq.advance_eq]
  · rw [Seq.wk_ne hd, Seq.advance_eq, Seq.advance_eq]

theorem State.toGLate_onlySeq (s : State) (d : BitVec 6) (v : Word) (lat : Nat) : onlySeq s.cur s (s.toGLate d v lat) := by
  unfold State.toGLate; exact s.retireSeq_onlySeq _

@[simp] theorem Seq.advance_ready (q : Seq) : q.advance.ready = q.ready := by unfold Seq.advance; split <;> rfl

@[simp] theorem Seq.advance_g (q : Seq) : q.advance.g = q.g := by unfold Seq.advance; split <;> rfl

@[simp] theorem Seq.advance_k (q : Seq) : q.advance.k = q.k := by unfold Seq.advance; split <;> rfl

@[simp] theorem Seq.wg_k (q : Seq) (d : BitVec 6) (v : Word) : (q.wg d v).k = q.k := by unfold Seq.wg; split <;> rfl

@[simp] theorem Seq.wg_ready (q : Seq) (d : BitVec 6) (v : Word) : (q.wg d v).ready = q.ready := by
  unfold Seq.wg; split <;> rfl

@[simp] theorem Seq.wk_g (q : Seq) (d : BitVec 4) (v : Bool) : (q.wk d v).g = q.g := by unfold Seq.wk; split <;> rfl

@[simp] theorem Seq.wk_ready (q : Seq) (d : BitVec 4) (v : Bool) : (q.wk d v).ready = q.ready := by
  unfold Seq.wk; split <;> rfl

theorem Seq.rg_wg (q : Seq) (d : BitVec 6) (v : Word) : (q.wg d v).rg d = if d = 0 then 0 else v := by
  split
  · next h => subst h; rfl
  · next h => exact Seq.rg_wg_same v h

theorem Seq.rk_wk (q : Seq) (d : BitVec 4) (v : Bool) : (q.wk d v).rk d = if d = 0 then true else v := by
  split
  · next h => subst h; rfl
  · next h => exact Seq.rk_wk_same v h

/-- A result delivered to g(d). -/
theorem State.toG_writes {s : State} {i : Instr} {d : BitVec 6} {v : Word} (h : exec i s = .next (s.toG d v)) :
    writesG i d v s := by
  refine ⟨_, h, s.retireSeq_onlySeq _, ?_, ?_, ?_, ?_, ?_⟩
  · simp [passed, State.toG, Seq.advance_wg]
  · simp [kSame, State.toG]
  · intro x hx
    simp only [State.toG, State.retireSeq_har, Seq.rg_advance]
    exact Seq.rg_wg_other v hx
  · simp [State.toG]
  · simp only [State.toG, State.retireSeq_har, Seq.rg_advance, Seq.rg_wg]

/-- A result delivered to k(d). -/
theorem State.toK_writes {s : State} {i : Instr} {d : BitVec 4} {v : Bool} (h : exec i s = .next (s.toK d v)) :
    writesK i d v s := by
  refine ⟨_, h, s.retireSeq_onlySeq _, ?_, ?_, ?_, ?_, ?_⟩
  · simp [passed, State.toK, Seq.advance_wk]
  · simp [State.toK]
  · intro x hx
    simp only [State.toK, State.retireSeq_har, Seq.rk_advance]
    exact Seq.rk_wk_other v hx
  · simp [State.toK]
  · simp only [State.toK, State.retireSeq_har, Seq.rk_advance, Seq.rk_wk]

/-- Readiness is all that `readyAt` changes; on g0 it changes nothing. -/
theorem Seq.readyAt_eq (q : Seq) (d : BitVec 6) (t : Nat) : q.readyAt d t = { q with ready := (q.readyAt d t).ready } := by
  unfold Seq.readyAt; split <;> rfl

@[simp] theorem Seq.readyAt_zero (q : Seq) (t : Nat) : q.readyAt 0 t = q := if_pos rfl

@[simp] theorem Seq.rg_readyAt (q : Seq) (d x : BitVec 6) (t : Nat) : (q.readyAt d t).rg x = q.rg x := by
  rw [Seq.readyAt_eq]; rfl

@[simp] theorem Seq.rk_readyAt (q : Seq) (d : BitVec 6) (x : BitVec 4) (t : Nat) : (q.readyAt d t).rk x = q.rk x := by
  rw [Seq.readyAt_eq]; rfl

theorem Seq.advance_readyAt (q : Seq) (d : BitVec 6) (t : Nat) :
    (q.readyAt d t).advance = { q.advance with ready := (q.readyAt d t).ready } := by
  rw [Seq.advance_eq, Seq.advance_eq q, Seq.readyAt_eq]

/-- A result delivered late to g(d) (06 R161). -/
theorem State.toGLate_writes {s : State} {i : Instr} {d : BitVec 6} {v : Word} {lat : Nat}
    (h : exec i s = .next (s.toGLate d v lat)) : writesGLate i d v lat s := by
  refine ⟨_, h, s.toGLate_onlySeq .., ?_, ?_, ?_, ?_, ?_, ?_⟩
  · simp only [passed, State.toGLate, State.retireSeq_har, Seq.advance_readyAt, Seq.advance_wg]
  · intro x
    simp only [State.toGLate, State.retireSeq_har, Seq.rk_advance, Seq.rk_readyAt, Seq.rk_wg]
  · intro x hx
    simp only [State.toGLate, State.retireSeq_har, Seq.rg_advance, Seq.rg_readyAt]
    exact Seq.rg_wg_other v hx
  · simp only [State.toGLate, State.retireSeq_har, Seq.rg_advance, Seq.rg_readyAt, Seq.rg_wg]
  · intro x hx
    simp only [State.toGLate, State.retireSeq_har, Seq.advance_ready, Seq.readyAt]
    split
    · simp
    · rw [Table.find_set_other _ hx, Seq.wg_ready]
  · intro hd
    simp only [State.toGLate, State.retireSeq_har, Seq.advance_ready, Seq.readyAt, if_neg hd, Table.find_set_same,
      Seq.wg_ready]

/-- An instruction that only moves on. -/
theorem State.retire_passes {s : State} {i : Instr} (h : exec i s = .next (s.retireSeq id)) : onlyPasses i s :=
  ⟨_, h, s.retireSeq_onlySeq _, by rw [State.retireSeq_har]; rfl⟩

/-- An instruction that stalls. -/
theorem State.stall_stalls {s : State} {i : Instr} (h : exec i s = .next s.stall) : stalls i s :=
  ⟨_, h, onlySeq_modSeq .., by rw [State.stall, State.modSeq_eq, State.har_setHar]⟩

/-- What a step notes of the registers in issue changes one sequencer at most. -/
theorem State.claimG_onlySeq (s : State) (r : Nat) (i : Instr) : onlySeq r s (s.claimG r i) := by
  simp only [State.claimG]
  split
  · exact ⟨onlyHar_refl s r, rfl⟩
  · exact onlySeq_modSeq ..

end Sys2Proof.Machine
end

