-- ==== Sys2Proof/Tests/Slice0.lean ====
section
/-!
SUPPORT. Tests: words written out from the spec's encodings decode to their instructions; ill-formed terms are refused; single
steps with results taken from the spec; and for every statement with hypotheses a state and operands that meet them.
-/

namespace Sys2Proof.Tests

open Sys2Proof Sys2Proof.Machine Sys2Proof.Safety

set_option maxRecDepth 100000

/-- A node at U on rank 0 with space 0 mapped, a NOP at its pc. -/
def tiny : State := State.reset.withFetchWord 32 0x7C300000

/-- The same with g registers set. -/
def withG (xs : List (BitVec 6 × Word)) : State := tiny.modSeq 0 fun q => xs.foldl (fun q x => q.wg x.1 x.2) q

/-- The same at another level. -/
def atLevel (n : BitVec 2) (s : State) : State := s.modSp 0 fun p => { p with cur := n }

/-- The value of an answer that is there. -/
def got {ε α : Type} [Inhabited α] (x : Except ε α) : α := match x with
  | .ok a => a
  | .error _ => default

/-- The state that an instruction leaves. -/
def after (i : Instr) (s : State) : State := match exec i s with
  | .next t => t
  | _ => s

/-! ### Words of the spec's examples and of its encoding tables -/

theorem test_decode_addi : decode .s 0x08513FF8 = .ok (.addi 5 4 0x3FF8) := by decide
theorem test_decode_ldd : decode .s 0x68414021 = .ok (.ldd 4 5 2 1) := by decide
theorem test_decode_br : decode .s 0x40E00005 = .ok (.br 3 true 5) := by decide
theorem test_decode_br_back : decode .s 0x405FFFFE = .ok (.br 1 false 0x1FFFFE) := by decide
theorem test_decode_exec : decode .s 0x88880040 = .ok (.exec 0 true 8 0x40) := by decide
theorem test_decode_nop : decode .s 0x7C300000 = .ok .nop := by decide
theorem test_decode_movi : decode .s 0x20400003 = .ok (.movi 4 3) := by decide
theorem test_decode_cmpi : decode .s 0x30444000 = .ok (.cmpi 1 1 4 0) := by decide
theorem test_decode_wait : decode .s 0x7C10000A = .ok (.wait 5) := by decide
theorem test_decode_aadd : decode .s 0xA4414604 = .ok (.aadd 1 4 5 6 2) := by decide
theorem test_decode_join : decode .s 0x90108002 = .ok (.join 1 2) := by decide
theorem test_decode_qpost : decode .s 0x90415000 = .ok (.qpost 4 5 16) := by decide
theorem test_decode_mfs : decode .s 0x98400000 = .ok (.mfs 4 0) := by decide
theorem test_decode_mts : decode .s 0x9801A007 = .ok (.mts 6 7) := by decide
theorem test_decode_mts_slip : decode .s 0x9801A200 = .ok (.mts 6 0x200) := by decide
theorem test_decode_mfs_tdmt : decode .s 0x98400300 = .ok (.mfs 4 0x300) := by decide
theorem test_decode_engwait : decode .s 0x8C020100 = .ok (.engwait 8 1) := by decide
theorem test_decode_bgbar : decode .s 0x84000000 = .ok (.bgbar 0) := by decide
theorem test_decode_bgbar_g9 : decode .s 0x84024000 = .ok (.bgbar 9) := by decide
theorem test_decode_tlbi : decode .s 0xFC100004 = .ok (.tlbi 0 4) ∧ decode .s 0xFC1000C0 = .ok (.tlbi 3 0) := by decide
theorem test_decode_eret : decode .s 0xFC000000 = .ok .eret := by decide
theorem test_decode_loop : decode .v 0x7104001800180000 = .ok (.loopV ⟨0, false, 1, false, 0, 3, 3, 0, 0⟩) := by decide
theorem test_decode_vadd : decode .v 0x0105041080000000 =
    .ok (.vadd ⟨0, false, 5, 1, 1, 2, 0, false, false, false, false, false, false, 0, 0, false, false, false, false, 0⟩) := by
  decide
theorem test_decode_vend : decode .v 0x7F00000000000000 = .ok .vend := by decide
theorem test_decode_dnop : decode .d (0x7E * 2 ^ 120) = .ok .dnop := by decide
theorem test_decode_dclaim : decode .d (0x01 * 2 ^ 120 + 3) =
    .ok (.dclaim ⟨0, false, 0, 0, 0, 0, 0, 0, 0, 0, 0, 0, false, false, false, false, 0, 3⟩) := by decide
theorem test_decode_tld : decode .t 0x0100C42800000040 = .ok (.tld ⟨0, false, 3, 4, 2, true, false, 0, 0x40⟩) := by decide
theorem test_decode_tshift : decode .t 0x0601000F80000000 =
    .ok (.tshift ⟨0, false, 4, 0, 0, true, true, 0x3800, 0⟩) := by decide
/-- A major opcode that R137 leaves unassigned, an fn that it does not list, a field that must be zero, a fixed word. -/
theorem test_decode_refuses : decode .s (0x07 * 2 ^ 26) = .error .major ∧ decode .s (0x01 * 2 ^ 26 + 27) = .error .fn ∧
    decode .s (0x1F * 2 ^ 26 + 3 * 2 ^ 20 + 1) = .error .zeroField ∧ decode .v (0x7E * 2 ^ 56 + 1) = .error .fixedWord ∧
    decode .t 0 = .error .opcode ∧ decode .s (0x0B * 2 ^ 26 + 10 * 2 ^ 18) = .error .cond := by decide

/-! ### Ill-formed terms -/

theorem test_wf_sext : Instr.wellFormed (.sext 1 1 3) = false := by decide
theorem test_wf_cmp : Instr.wellFormed (.cmp 1 10 1 1) = false ∧ Instr.wellFormed (.cmpi 1 10 1 1) = false := by decide
theorem test_wf_fence : Instr.wellFormed (.fence 5 0) = false := by decide
theorem test_wf_waita : Instr.wellFormed (.waita 10 1 1 0) = false ∧ Instr.wellFormed (.waita 0 1 1 5) = false := by decide
theorem test_wf_exec : Instr.wellFormed (.exec 3 false 1 0) = false := by decide
theorem test_wf_atomics : ([.aadd 0 1 1 1 5, .aand 0 1 1 1 5, .aor 0 1 1 1 5, .axor 0 1 1 1 5, .amin 0 1 1 1 5, .amax 0 1 1 1 5,
    .aminu 0 1 1 1 5, .amaxu 0 1 1 1 5, .aswap 0 1 1 1 5, .acas 0 1 1 1 5, .aload 0 1 1 5, .astore 0 1 1 5] : List Instr).all
      (fun i => !i.wellFormed) = true := by decide
theorem test_wf_dmma : Instr.wellFormed (.dmma { mFields 0 with zero := 1 }) = false := by decide
theorem test_wf_loops : Instr.wellFormed (.loopV { lFields 0 with se := 1 }) = false ∧
    Instr.wellFormed (.loopD { lFields 0 with stride := 1 }) = false := by decide
theorem test_wf_unassigned : Instr.wellFormed (.unassignedSEncoding 0x7C300000) = false ∧
    Instr.wellFormed (.unassignedEngineOpcode .v 0x7F00000000000000) = false ∧
    Instr.wellFormed (.unassignedSEncoding 0) = true := by decide

/-! ### A step -/

/-- R163: ADD wraps modulo 2^64. -/
theorem test_add_wraps : (after (.add 3 1 2) (withG [(1, 0xFFFFFFFFFFFFFFFF), (2, 2)])).g 3 = 1 := by decide
/-- R167: CMPI.ltu with -1 is true of every g4 except 2^64 - 1. -/
theorem test_cmpi_ltu : ((after (.cmpi 1 6 4 0xFFF) (withG [(4, 0xFFFFFFFFFFFFFFFF)])).k 1,
    (after (.cmpi 1 6 4 0xFFF) (withG [(4, 0xFFFFFFFFFFFFFFFE)])).k 1) = (false, true) := by decide
/-- R169: a tag of 0x2005 and an offset of 0x40_0000. -/
theorem test_ptag : (after (.ptag 7 5 6) (withG [(5, 0x400000), (6, 0x2005)])).g 7 = 0x2005000000400000 := by decide
/-- R163: the high half of a signed product. -/
theorem test_mulh : (after (.mulh 3 1 2) (withG [(1, 0xFFFFFFFFFFFFFFFF), (2, 3)])).g 3 = 0xFFFFFFFFFFFFFFFF := by decide
/-- R349: MTS of 0x10 to SLIP stores 1. -/
theorem test_slip_clamps : ((atLevel 1 tiny).plainWrite 0 0x200 0x10).privRead 0 0x200 = 1 := by decide
/-- R395: the NOP that withFetchWord placed issues and the pc goes to 4. -/
theorem test_step_nop : (match step tiny with
    | .next t => (t.har 0).seq.pc
    | _ => 0) = 4 := by decide
/-- R194: a counter that held 0 wraps and reports 0. -/
theorem test_join_wraps : (let t := after (.join 1 2) (withG [(2, 0x200)])
    (t.wordAt 0x200, t.k 1)) = (0xFFFFFFFFFFFFFFFF, false) := by decide
/-- R170: a branch back by two words, taken. -/
theorem test_br_back : (((after (.br 0 false 0x1FFFFE) (tiny.modSeq 0 fun q => { q with pc := 0x10 })).har 0).seq.ds =
    some ⟨0x10, 8, true⟩) := by decide
/-- R203: TRAP enters the supervisor; the record names the instruction. -/
theorem test_trap : (let t := after (.trap 0x12345) (tiny.modSp 0 fun p => { p with tvec := 0x40 })
    ((t.har 0).level, (t.har 0).seq.pc, t.wordAt 0x18008, memGet t.mem 0x18000)) = (1, 0x40, 0, 2) := by decide
/-- R431: memory lists nothing after reset. -/
theorem test_reset_mem : State.reset.mem = [] := by decide

/-! ### A state and operands for the hypotheses of each statement: the sequencer -/

theorem meets_divisionCorners : tiny.g 2 = 0 ∧ (withG [(1, 0x8000000000000000), (2, 0xFFFFFFFFFFFFFFFF)]).g 1 = 0x8000000000000000 ∧
    (withG [(1, 0x8000000000000000), (2, 0xFFFFFFFFFFFFFFFF)]).g 2 = 0xFFFFFFFFFFFFFFFF := by decide
theorem meets_integerInstructions : (withG [(2, 1)]).g 2 ≠ 0 := by decide
/-- The first harness in a delay slot, at U and at S. -/
def slotted : State := tiny.modSeq 0 fun q => { q with ds := some ⟨0, 8, true⟩ }
theorem meets_illegalForms : slotted.inSlot = true ∧ 2 < (3 : BitVec 6).toNat ∧ 9 < (10 : BitVec 4).toNat ∧
    4 < (5 : BitVec 3).toNat ∧ 3 < (4 : BitVec 6).toNat ∧ 56 < (57 : BitVec 6).toNat ∧ 60 < (61 : BitVec 6).toNat ∧
    (0 : BitVec 32).toNat / 2 ^ 26 ≠ 0x3F := by decide
theorem meets_illegalForms_privileged : (0xFC400000 : BitVec 32).toNat / 2 ^ 26 = 0x3F ∧ tiny.inSlot = false ∧
    (tiny.har tiny.cur).level = 0 ∧ ((atLevel 1 tiny).har 0).level ≠ 0 := by decide
theorem meets_branchesAndJumps : tiny.inSlot = false ∧ wf ((withG [(1, 0x0001000000000000)]).g 1) 48 16 ≠ 0 ∧
    wf ((withG [(1, 2)]).g 1) 48 16 = 0 ∧ ((withG [(1, 2)]).g 1).toNat % 4 ≠ 0 ∧
    wf ((withG [(1, 0x100)]).g 1) 48 16 = 0 ∧ ((withG [(1, 0x100)]).g 1).toNat % 4 = 0 := by decide
/-- The same with a store in the queue, and with no room for another request. -/
def busyQ (n : Nat) : State :=
  tiny.modSeq 0 fun q => { q with storeQ := List.replicate n ⟨.mem 0x200 (leBytes 8 7), 1, 0⟩, sbn := q.sbn.set 1 n }
def ldAcc : SeqAcc := ⟨8, 8, accRead, true, false, false, false⟩
def stAcc : SeqAcc := ⟨8, 8, accWrite, false, true, true, false⟩
theorem meets_loadsAndStoresIssue : tiny.seqAccess 0 0x200 ldAcc = .ok (.mem 0x200) ∧ tiny.consumesN 0x200 8 = none ∧
    (tiny.har 0).seq.loadQ.length + (tiny.har 0).seq.storeQ.length < 2048 ∧
    tiny.seqAccess 0 0x201 ldAcc = .error { code := cMISALIGNED, addr := 0x201, acc := accRead } ∧
    tiny.seqAccess 0 0x200 stAcc = .ok (.mem 0x200) ∧
    tiny.seqAccess 0 (BitVec.ofNat 64 (6 * 2 ^ 60)) stAcc =
      .error { code := cBAD_SPACE, addr := BitVec.ofNat 64 (6 * 2 ^ 60), acc := accWrite } := by decide
theorem meets_loadsAndStoresIssue_full : 2048 ≤ ((busyQ 2048).har 0).seq.loadQ.length + ((busyQ 2048).har 0).seq.storeQ.length ∧
    (busyQ 2048).seqAccess 0 0x200 stAcc = .ok (.mem 0x200) := by decide
theorem meets_accessChecks : 6 ≤ space (BitVec.ofNat 64 (6 * 2 ^ 60)) ∧ space (BitVec.ofNat 64 (14 * 2 ^ 60)) ≤ 14 ∧
    space 0x0001000000000000 = 0 ∧ owner 0x0001000000000000 ≠ 0 ∧ space 0x1000000004000000 = 1 ∧
    2 ^ 26 ≤ offset 0x1000000004000000 ∧ space 0x2200000000000000 = 2 ∧ tiny.ranks ≤ owner 0x2200000000000000 ∧
    owner 0x2001000004000000 < tiny.ranks ∧ tiny.partOf (owner 0x2001000004000000) = tiny.partOf tiny.cur ∧
    2 ^ 26 ≤ offset 0x2001000004000000 ∧ space 0x3001000000000000 = 3 ∧ owner 0x3001000000000000 ≠ 0 := by decide
/-- A resource table of four entries. -/
def tabled : State := tiny.modPart 0 fun p => { p with rtlim := 4 }
theorem meets_accessChecks_levels : space (BitVec.ofNat 64 (15 * 2 ^ 60)) = 15 ∧ (tiny.har tiny.cur).level = 0 ∧
    space (BitVec.ofNat 64 (5 * 2 ^ 60)) = 5 ∧
    offset (BitVec.ofNat 64 (5 * 2 ^ 60)) < (tabled.part (tabled.partOf tabled.cur)).rtlim.toNat * 64 ∧
    offset (BitVec.ofInt 64 ((tiny.g 1).toNat + (0 : BitVec 10).toInt * 8)) % 8 = 0 ∧ offset 0x1000000000000004 % 8 ≠ 0 := by
  decide
theorem meets_loadReturns : (let s := tiny.modSeq 0 fun q => { q with loadQ := [⟨4, .mem 0x200, 8, false, 1, 0, 0x200⟩] }
    (s.har 0).seq.loadQ = [⟨4, .mem 0x200, 8, false, 1, 0, 0x200⟩] ∧ (∀ w ∈ (s.har 0).seq.storeQ, 0 ≤ w.epoch) ∧ calm (loadAsker 0) 0x200 s) := by
  unfold calm; decide
theorem meets_storePerforms : memOk (busyQ 1) ∧ (busyQ 1).ev.a = 0 ∧
    ((busyQ 1).har 0).seq.storeQ = [⟨.mem 0x200 (leBytes 8 7), 1, 0⟩] ∧ (busyQ 1).waits (.spawn 0) = false ∧
    calm (storeAsker 0) 0x200 (busyQ 1) ∧ (∀ i, i < 8 → (busyQ 1).quarantined (0x200 + i) = false) := by unfold memOk calm; decide
theorem meets_queueControl : (∀ i, i < 15 → (5 : BitVec 15).getLsbD i = true → (tiny.har 0).seq.sbn.getD (i + 1) 0 = 0) ∧
    (0 < 15 ∧ (1 : BitVec 15).getLsbD 0 = true ∧ ((busyQ 1).har 0).seq.sbn.getD 1 0 ≠ 0) ∧
    ((busyQ 1).har 0).seq.storeQ ≠ [] := by decide
theorem meets_atomics : memOk tiny ∧ (∀ i, i < 8 → tiny.quarantined (0x200 + i) = false) ∧
    clear tiny 0x200 ⟨8, 8, accAtomic, true, true, true, true⟩ 0x200 ∧
    clear tiny 0x200 ⟨8, 8, accAtomic, true, true, false, true⟩ 0x200 := by unfold memOk clear calm; decide
/-- An atomic on a word of the own tower meets its bank free. -/
theorem meets_atomics_tower :
    clear tiny 0x1000000000000200 ⟨8, 8, accAtomic, true, true, true, true⟩ (towerKey 0 0x200) := by unfold clear calm; decide
theorem meets_waits : clear tiny 0x200 ⟨8, 8, accRead, true, false, true, true⟩ 0x200 ∧
    clear tiny 0x200 ⟨16, 16, accRead, true, false, true, true⟩ 0x200 ∧
    (∀ i, i < 16 → tiny.quarantined (0x200 + i) = false) ∧
    clear tiny 0x200 ⟨16, 16, accAtomic, true, true, true, true⟩ 0x200 := by unfold clear calm; decide
/-- The keys of the first harness's record at S. -/
def recKeys : List Nat := List.range' 0x18000 128
theorem meets_exceptionEntry : recordable 0 recKeys tiny := by unfold recordable memOk; decide
theorem meets_exceptionEntry_halts : 2 ≤ ((atLevel 2 tiny).har 0).level := by decide
theorem meets_exceptionEntry_delaySlot : recordable 0 recKeys slotted := by unfold recordable memOk; decide

/-- Group 5 of partition 0 holds ranks 0 and 1. -/
def grouped : State := (tiny.modPart 0 fun p => { p with groups := [(5, { members := 3, span := false })] }).modSp 0
  fun p => { p with defgrp := 5 }
def memberIs (m : Member) : State := grouped.modHar 0 fun h => h.modMember 5 fun _ => m
theorem meets_bugle : tiny.isMember 0 = false ∧ grouped.isMember 5 = true ∧ grouped.drained = true ∧
    ((grouped.har 0).member 5).arrived = false ∧ (grouped.har 0).seq.wait.stage = 0 ∧
    ((memberIs { arrived := true, own := true }).har 0).member 5 = { arrived := true, own := true } ∧
    ((memberIs { overrun := true }).har 0).member 5 = { overrun := true } ∧
    ((memberIs { queue := [7] }).har 0).member 5 = { queue := [7] } := by decide
theorem meets_engineControl : (0 : BitVec 6).toNat = (0 : BitVec 2).toNat ∧ tiny.inSlot = false ∧
    (tiny.har 0).ctl.frozen = false ∧
    (tiny.har 0).ctl.issued - (tiny.har 0).oldest < (tiny.part (tiny.partOf 0)).slip.toNat ∧
    (tiny.har 0).seq.wait.stage ≠ 1 ∧ 0 ≤ ((tiny.har 0).ve.ctr - (tiny.g 1).setWidth 32).toInt ∧
    (((withG [(1, 1)]).har 0).ve.ctr - ((withG [(1, 1)]).g 1).setWidth 32).toInt < 0 := by decide
theorem meets_engineControl_bound : (let s := tiny.modHar 0 fun h =>
      { h with ctl := { h.ctl with issued := 8 }, ve := { h.ve with queue := List.replicate 8 ⟨0, 0, 0, 0, 0, 0, false, 0, 0, 0, 0, 0, false⟩ } }
    (s.part (s.partOf 0)).slip.toNat ≤ (s.har 0).ctl.issued - (s.har 0).oldest ∧
    ((s.modCtl 0 fun c => { c with frozen := true }).har 0).ctl.frozen = true) := by decide
theorem meets_powerGrants : (0 : BitVec 6).toNat ≤ (tiny.har 0).ctl.pwr ∧ (tiny.har 0).ctl.pwr < (3 : BitVec 6).toNat ∧
    (let s := { tiny.modDie 0 fun d => { d with gov := { queue := [(0, 3, 0)] } } with ev := { a := 0 } }
     let g := (s.die (dieOf 0)).gov.settle s.mcc.toNat
     s.ev.a = dieOf 0 ∧ g.queue = [(0, 3, 0)] ∧ g.used - classCost (s.har 0).ctl.pwr + classCost 3 ≤ s.pool (dieOf 0)) := by
  decide
/-- A queue header at 0x400 of four slots, three packets posted and one read. -/
def queued (wr rd sz : Nat) : State := { withG [(1, 0x400)] with
  mem := memWrite (memWrite (memWrite (memWrite [] 0x10000 (leBytes 8 0x3D)) 0x400 (leBytes 8 wr)) 0x408 (leBytes 8 rd))
    0x418 (leBytes 8 sz) }
theorem meets_postsAndSpawns_claim : memOk (queued 3 1 2) ∧ ((queued 3 1 2).har 0).seq.wait.stage = 0 ∧
    (queued 3 1 2).drained = true ∧ wf ((queued 3 1 2).g 1) 48 16 = 0 ∧ offset ((queued 3 1 2).g 1) % 64 = 0 ∧
    (queued 3 1 2).postKey 0x418 postRead = .ok 0x418 ∧ wf ((queued 3 1 2).wordAt 0x418) 0 5 = 2 ∧
    (queued 3 1 2).postKey 0x400 postAtomic = .ok 0x400 ∧ (queued 3 1 2).latent = [] ∧
    (∀ i, i < 8 → (queued 3 1 2).quarantined (0x400 + i) = false) := by unfold memOk; decide
theorem meets_postsAndSpawns_badQueue : (queued 0 0 17).postKey 0x418 postRead = .ok 0x418 ∧
    16 < wf ((queued 0 0 17).wordAt 0x418) 0 5 := by decide
theorem meets_postsAndSpawns_slot : (queued 3 1 2).postKey 0x408 postRead = .ok 0x408 ∧
    (3 - (queued 3 1 2).wordAt 0x408).toNat < 2 ^ 2 ∧ 2 ^ 2 ≤ (5 - (queued 3 1 2).wordAt 0x408).toNat ∧
    ((queued 3 1 2).postWords 0x500 [(1, 0), (2, 0), (3, 0), (4, 0), (5, 0), (6, 0), (7, 0), (0, 0)]).toOption.isSome = true := by
  decide
theorem meets_postsAndSpawns_spawn : 2048 ≤ ((busyQ 2048).har 0).seq.loadQ.length + ((busyQ 2048).har 0).seq.storeQ.length := by
  decide

/-! ### A state and operands for the hypotheses of each statement: records, special registers, the node, privilege -/

/-- A resource table of one entry at 0x2_0000: a record of 16 elements INT32 at 0x1000. -/
def entryMem : List Host.Cell :=
  memWrite tiny.mem 0x20000 (leBytes 8 0x1000 ++ leBytes 8 (16 + 2 ^ 32) ++ leBytes 8 (2 ^ 40) ++ leBytes 8 (0x04 * 2 ^ 40) ++
    leBytes 8 (7 + 2 ^ 16 + 2 ^ 17 + 2 ^ 18))
def ent0 : Entry := ⟨0x1000, 0x100000010, 0x10000000000, 0x40000000000, 0x70007⟩
theorem meets_bufferRecords : tiny.drained = true ∧ wf (tiny.g 1) 32 32 = 0 ∧
    (tiny.part (tiny.partOf 0)).rtlim.toNat ≤ wf (tiny.g 1) 12 20 ∧ wf ((tabled.modSeq 0 fun q => q.wg 1 0).g 1) 12 20 < 4 ∧
    entryCheck { ent0 with w4 := 0 } 0 0 false ≠ cOK ∧ ent0.record.ok (wf ent0.w3 62 2) = true ∧
    ({ ent0 with w3 := 0x90000000000 } : Entry).record.ok 0 = false ∧
    (tiny.recPins 0 ent0.record ent0.nr).toOption = some [⟨0, 34, 0x3D⟩] ∧ (tiny.har 0).recNow 1 = none := by decide
theorem meets_specialRegisters : (0x005 : BitVec 12).toNat = 0x005 ∧ tiny.variant = .m4 ∧ 0x00C ≤ (0x0FF : BitVec 12).toNat ∧
    (tiny.har 0).level = 0 ∧ ((atLevel 1 tiny).har 0).level = 1 ∧ privLevel 0x104 = some true ∧ privLevel 0x100 = some false ∧
    privLevel 0x105 = none ∧ ((atLevel 2 tiny).har 0).level = 2 := by decide
theorem meets_refreshInstructions : 15 < ((withG [(1, 16)]).g 1).toNat ∧ ((withG [(1, 3), (2, 15)]).g 1).toNat ≤ 15 ∧
    ((withG [(1, 3), (2, 15)]).g 2).toNat ≤ 15 ∧ (tiny.har 0).banks.length < 256 := by decide
/-- The node with a join counter at 0x200. -/
def joining : State := tiny.modCtl 0 fun c => { c with node := some { placedNode with cont := ⟨0, 0x4000, 0x200, 0⟩ } }
def joinNode : Node := { placedNode with cont := ⟨0, 0x4000, 0x200, 0⟩ }
theorem meets_nodeEnds : joining.inSlot = false ∧ (joining.har 0).ctl.node = some joinNode ∧ joinNode.ending = 0 ∧
    (joining.har 0).quiesced = true ∧ (joining.har 0).seq.sbClear = true ∧ (joining.har 0).ctl.line = false ∧
    joining.sendsGone 0 = true ∧ (joining.har 0).arrivalsDone = true ∧ joinNode.gang = none ∧
    ((busyQ 1).har 0).quiesced = false ∧
    (joining.devWrite 0 (saveAt joinNode.cont.fp) [1] needW).toOption.isSome = true ∧
    (joining.saved 0 joinNode).waits (.yield 0) = false := by decide
theorem meets_nodeEnds_join : (joining.nendOut 0 joinNode).waits (.nend 0) = false ∧
    joining.seqAccess 0 joinNode.cont.join joinAcc = .ok (.mem 0x200) ∧
    (let u := joining.nendOut 0 joinNode
     u.seqAccess 0 joinNode.cont.join joinAcc = .ok (.mem 0x200) ∧ u.consumesN 0x200 8 = none ∧ calm u.issuer 0x200 u ∧ memOk u ∧
     (∀ i, i < 8 → u.quarantined (0x200 + i) = false)) := by unfold calm memOk; decide
theorem meets_privilegedInstructions : tiny.inSlot = false ∧ (tiny.har 0).level = 0 ∧ ((atLevel 1 tiny).har 0).level ≠ 0 ∧
    ((atLevel 1 tiny).part ((atLevel 1 tiny).partOf 0)).suprank.toNat = 0 ∧
    (atLevel 1 tiny).intPending ((atLevel 1 tiny).partOf 0) = false ∧
    (let s := { atLevel 1 tiny with mem := memWrite tiny.mem 0xAFC0 (leBytes 8 1) }
     s.intPending (s.partOf 0) = true) ∧
    (withG [(1, 0x0001000000000000)]).g 1 ≠ 0 ∧ wf ((withG [(1, 0x0001000000000000)]).g 1) 48 16 ≠ 0 ∧
    (tiny.har 0).seq.wait.stage = 0 ∧ tiny.pinHolders (tiny.partOf 0) 0 (2 ^ 16) = [] := by decide
theorem meets_returnsFromException : (atLevel 1 tiny).inSlot = false ∧ ((atLevel 1 tiny).har 0).level ≠ 0 ∧
    (atLevel 1 tiny).devRead 0 ((atLevel 1 tiny).recordAt 0 1) 128 needR = .ok (List.replicate 128 0) ∧
    wf ((bytesWords (List.replicate 128 (0 : Byte))).getD 12 0) 0 2 ≠ 3 ∧ ((atLevel 1 tiny).har 0).ctl.abort = none ∧
    ((atLevel 1 tiny).har 0).ctl.bf = none := by decide

/-! ### A state and operands for the hypotheses of each statement: the engines -/

/-- Engine e of rank 0 at the first word of a block, vl 4, register 3 full. -/
def blk0 : Block := { cmd := ⟨0, 0, 0, 0, 0, 0, false, 0, 0, 0, 0, 0, false⟩, pc := 0, start := 0 }
def running (e : Eng) : State := tiny.modHar 0 fun h =>
  { h.modEng e (fun x => { x with blk := some blk0 }) with vl := 4, claim := 6, feV := 8 }
def vw : VWord := { vFields 0 with gk := 0, gn := true, vd := 1, va := 3, vb := 4, ta := true, fd := true }
def fw : VWord := { vw with ty := 1 }
def iw : VWord := { vw with ty := 5 }
theorem meets_falseGuard : ((running .v).eng .v).blk = some blk0 ∧ ((running .v).eng .v).skip = false ∧
    blk0.guard 0 false = false ∧ ((running .d).eng .d).blk = some blk0 ∧ ((running .t).eng .t).blk = some blk0 := by decide
theorem meets_vector : ready .v blk0 vw.gk vw.gn (vTakes vw) (vFill vw) (running .v) ∧
    ((running .v).har 0).vl.toNat * 8 ≤ 2048 ∧ 0 < ((running .v).har 0).vl.toNat := by unfold ready; decide
theorem meets_vectorArithmetic : vBad iw (arUse .add false) false = false ∧ extRound iw = true ∧
    vBad fw (arUse .mul false) false = false ∧ vBad { fw with vc := 5 } (arUse .fma false) false = false ∧
    vBad iw (arUse .add true) false = false ∧ vT iw = .i i32 ∧ iw.p = 0 ∧ iw.clamp = 0 := by decide
theorem meets_vectorFunctions : vBad { iw with vc := 5 } (dotUse 5) false = false ∧
    vBad { fw with ty := 1, vc := 5 } (dotUse 1) false = false ∧ vT fw = .f Num.fp32 ∧
    vBad { fw with vb := 0 } { types := tyF, b := .z, ma := true, cp := true } false = false ∧
    vBad fw { types := tyF, b := .v, ma := true, mb := true, cp := true } false = false ∧
    vBad { fw with vb := 0 } { types := tyF, b := .z, ma := true } false = false := by decide
theorem meets_vectorBits : vBad fw { types := tyA, ma := true, mb := true } false = false ∧
    vBad { fw with vb := 0 } { types := tyF, b := .z } false = false ∧ vBad { iw with vc := 5 } { types := tyA, c := .v } false = false ∧
    vBad iw { types := tyI } false = false := by decide
theorem meets_vectorConversions : vBad { fw with vb := 0 } { types := tyA, b := .z, ma := true, cp := true } false = false ∧
    vty 5 = .i i32 ∧ vBad fw { types := tyF, cp := true } false = false := by decide
theorem meets_vectorBlocks :
    vBad { fw with vb := 0, vc := 5 } { types := tyF, b := .z, c := .v, ma := true, cDest := true } false = false ∧
    ready .v blk0 0 true (vTakes vw) [.v 1, .v 5] (running .v) := by unfold ready; decide
theorem meets_vectorReductions : redBad { iw with vb := 0 } false = false ∧ redBad { fw with vb := 0 } false = false := by decide
theorem meets_vectorPartition : vBad { iw with vb := 0, vc := 5 } { types := [5, 8], b := .z, c := .v, cDest := true } false = false ∧
    ({ iw with vb := 0, vc := 5 } : VWord).ext.getLsbD 6 = false := by decide
theorem meets_vectorMoves : vBad { iw with va := 0, ta := false } { types := tyI, a := .z, b := .c } false = false ∧
    vBad iw permUse false = false ∧ vBad { iw with va := 0, ta := false } { types := tyA, a := .z, b := .c } false = false ∧
    vBad { iw with vb := 0 } { types := tyA, b := .z } false = false := by decide
theorem meets_vectorScalars : vBad { iw with fd := false } { types := tyA, d := .c, b := .c } false = false ∧
    vBad { iw with ta := false } { types := tyA, a := .c, b := .c } false = false ∧
    vBad { vFields 0 with ext := 1, vb := 2 } { types := [0], d := .z, a := .z, b := .c } false = false ∧
    vBad { vFields 0 with va := 32 } { types := [0], d := .z, a := .any, b := .any } false = false ∧
    32 * 64 + 0 ≤ 2048 ∧ 2048 < 33 * 64 ∧
    vBad { vFields 0 with vd := 1, va := 2, vb := 3 } { types := [0], d := .c, a := .c, b := .c } false = false ∧
    ready .v blk0 0 true [] [] (running .v) := by unfold ready; decide

def dw : DWord := { dFields 0 with gn := true }
theorem meets_slotInstructions : ready .d blk0 dw.gk dw.gn [] [] (running .d) ∧
    dBad { dw with imm := 9 } { imm := 2 ^ 32 - 1 } = false ∧ (9 : BitVec 32) &&& ((running .d).har 0).claim = 0 ∧
    (2 : BitVec 32) &&& ((running .d).har 0).claim = 2 ∧ (3 : BitVec 32) &&& ((running .d).har 0).claim ≠ 0 ∧
    (3 : BitVec 32) &&& ((running .d).har 0).claim ≠ 3 ∧
    dBad { dw with slot := 1, vreg := 3, fild := true } { slot := true, vreg := true, tkv := true, fild := true } = false ∧
    ((running .d).har 0).claimed 1 = true ∧ ((running .d).har 0).slotPending 1 = false ∧ ((running .d).har 0).claimed 3 = false ∧
    ldtWidth 0x14 = some 8 ∧ ready .d blk0 dw.gk dw.gn [] [.s 1] (running .d) ∧
    dBad { dw with vreg := 3, sidx := 1000, imm := 24 } { vreg := true, sidx := true, tkv := true, imm := 2 ^ 11 - 1 } = false ∧
    1000 + 24 ≤ 1024 ∧ 1024 < 1000 + 25 := by unfold ready; decide
/-- A result of D that writes slot 1 is in flight. -/
theorem meets_slotInstructions_alias :
    ((((running .d).modHar 0 fun h => h.modEng .d fun x => { x with pend := [⟨0, .cycle 8, [.s 0 1 0 []], 0, 0, none, 0, 0, 0, none, false, 0⟩] }).har
      0).slotPending 1) = true := by decide
theorem meets_accumulators : dBad { dw with acc := 1, fild := true } { acc := true, fild := true } = false ∧
    ready .d blk0 dw.gk dw.gn [] [.a 1] (running .d) ∧
    dBad { dw with acc := 1, vreg := 3, fmt := 0x13 } { acc := true, vreg := true, fmt := true, tkv := true, fild := true, imm := 1 }
      = false ∧ elTy 0x13 = some (.f Num.bf16) ∧ fmtBits 0x13 = some 16 ∧ Num.Mode.ofCode 0 = some .rne ∧
    dBad { dw with acc := 1, vreg := 5, fmt := 0x13, imm := 4, creg := 2 }
      { acc := true, vreg := true, creg := true, fmt := true, dest := true, tkc := true, fild := true, imm := 7 } = false ∧
    cvtMaxQ 0x14 = some 1 ∧ dBad { dw with acc := 1, slot := 1, fmt := 0x14, imm := 1 }
      { acc := true, slot := true, creg := true, fmt := true, dest := true, tkc := true, fild := true, imm := 31 } = false := by unfold ready; decide
def mw : MWord := { mFields 0 with gn := true, aslot := 1, bslot := 2, afmt := 4, bfmt := 4 }
theorem meets_dotProducts : (shortOf 4).isSome = true ∧ mmaBad mw = false ∧ ((running .d).eng .d).array ≤ ((running .d).eng .d).cyc ∧
    ready .d blk0 mw.gk mw.gn [] [] (running .d) ∧ ((running .d).har 0).claimed 1 = true ∧ ((running .d).har 0).claimed 2 = true ∧
    ((running .d).har 0).claimed 0 = false ∧ (shortOf 4).map mmaClass = some 2 ∧ ((running .d).har 0).ctl.pwr < 2 ∧
    (((running .d).modCtl 0 fun c => { c with pwr := 2 }).har 0).ctl.pwr = 2 := by unfold ready; decide

/-! ### A state and operands for the hypotheses of each statement: the decoder, transfers, blocks -/

/-- A coded tensor of one N8 tile at 0x3000 whose 2048 symbols are 7, and the table with that one symbol (10 R310-R316). -/
def body7 : List Byte := leBytes 4 0x10000 ++ leBytes 4 0x10000
def tensor7 : List Byte :=
  leBytes 2 0x5749 ++ leBytes 2 1 ++ leBytes 12 1 ++ leBytes 8 (3 * 2 ^ 40 + 32) ++ leBytes 8 0 ++
    (leBytes 2 0x5A57 ++ leBytes 2 (2 * 256) ++ leBytes 4 2048 ++ leBytes 8 (crc16 body7)) ++ leBytes 4 28 ++ leBytes 4 32 ++
    leBytes 4 36 ++ body7
def table7 : List Byte := (leBytes 2 256 ++ leBytes 14 0 ++ leBytes 14 0 ++ leBytes 2 4096 ++ List.replicate 994 0).take 1024
def coded : BufRec := ⟨0, true, 0x3000, 0x100000050, 0x10000000000, 0x400000000000, false, [], 0⟩
def decoding : State := { (running .d).modHar 0 fun h => { h with
    recs := [(6, [coded])], tvalid := 1, dtab := [(0, table7)]
    dpos := h.dpos.set 0 ({ valid := true, brec := 6, tbl := 0, sub := 1, tile := 0, seg := 32 } : Pos).bits } with
  mem := memWrite tiny.mem 0x3000 tensor7 }
def tile7 : Tile := ⟨1, 0, 3, 32⟩
def readOk {α : Type} (x : Read α) : Option α := match x with
  | .ok a => some a
  | _ => none
/-- R315: the CRC of the nine bytes "123456789". -/
theorem test_crc16 : crc16 [0x31, 0x32, 0x33, 0x34, 0x35, 0x36, 0x37, 0x38, 0x39] = 0x29B1 := by decide
theorem meets_decoder_table : tableOk table7 = true ∧ tableOk (List.replicate 1024 0) = false ∧
    ((running .d).har 0).tableLatched 3 = false ∧ dBad { dw with vreg := 3, imm := 3 } { vreg := true, tkv := true, imm := 7 } = false ∧
    ready .d blk0 dw.gk dw.gn [] [] (running .d) := by unfold ready; decide
theorem meets_decoder_seek : dBad { dw with brec := 6, creg := 4, imm := 1 } { brec := true, creg := true, imm := 3 } = false ∧
    (decoding.har 0).posDecoding 1 = false ∧ ((running .d).har 0).vwsRec 6 = .error cBAD_BUFREC ∧
    (decoding.har 0).vwsRec 6 = .ok coded ∧ readOk (decoding.tiles 0 coded 0).1 = some [tile7] ∧
    (decoding.banks .d coded.fields (decoding.tensorKeys 0 coded 0 [(0, 0)])).toOption.isSome = true := by decide
theorem meets_decoder_decode : ready .d blk0 dw.gk dw.gn [] [.s 1] decoding ∧
    dBad { dw with slot := 1, fild := true, imm := 0 } { slot := true, brec := false, fild := true, must := true, imm := 7 } = false ∧
    (decoding.har 0).claimed 1 = true ∧ (decoding.har 0).slotPending 1 = false ∧ (decoding.har 0).tableLoading = false ∧
    (decoding.har 0).posBusy 0 = false ∧ posOf ((decoding.har 0).dpos.getD 0 0) = ⟨true, 6, 0, 1, 0, 32⟩ ∧
    decoding.ddecBar (decoding.har 0) { dw with slot := 1 } = .ok none ∧
    readOk (decoding.segments 0 coded 0 1).1 = some [(tile7, [leBytes 4 0x10000, leBytes 4 0x10000])] ∧
    outstanding (decoding.har 0) < 2048 ∧
    (decoding.banks .d coded.fields (decoding.tensorKeys 0 coded 0 [(32, 36)])).toOption.isSome = true := by unfold ready; decide
theorem meets_decoder_symbols : rans 1 (tableFreqs table7) (leBytes 4 0x10000) = .ok (List.replicate 1024 7) := by decide
theorem meets_decoder_status : ((running .d).har 0).posBusy 0 = false ∧ dBad { dw with creg := 4 } { creg := true, imm := 3 } = false ∧
    dBad { dw with creg := 4, imm := 0x1021 } { creg := true, imm := 2 ^ 32 - 1 } = false := by decide
def decPend : Pend := ⟨0, .free .decode, [.s 0 1 0 [7]], 0, 0, none, 0, 0, 0, none, false, 0⟩
theorem meets_decoder_complete : (let s := { (running .d).modHar 0 fun h => h.modEng .d fun x => { x with pend := [decPend] } with
    ev := { a := 0 } }
    s.arrives 0 .d .decode = some decPend) := by decide

/-- Records of T in a block: 8 INT32 elements in the own tower (4), sparse INT16 at 0x3000 (5), INT32 at 0x3000 (6), a
barrier object (7). -/
def tower4 : BufRec := ⟨0, true, 0x1000000000000000, 0x100000008, 0x10000000000, 0x40000000000, false, [], 0⟩
def sparse5 : BufRec := ⟨0, true, 0x3000, 0x100000008, 0x10000000040, 0x1000300000000000, false, [], 0⟩
def plain6 : BufRec := ⟨0, true, 0x3000, 0x100000008, 0x10000000000, 0x40000000000, false, [], 0⟩
def moving : State := (running .t).modHar 0 fun h =>
  { h with recs := [(4, [tower4]), (5, [sparse5]), (6, [plain6])], claim := 8 }
def tw : TWord := { tFields 0 with gn := true, reg := 3, brec := 4, ereg := 2 }
def rows4 : List (List (Option Spot)) := got (moving.elSpots 0 tower4 tower4.fields false 0 accRead (tDisp (moving.har 0) tw)
  (tCs tw) (tIdx (moving.har 0) tw 4))
theorem meets_transferLoads : moving.tRec tw false true false = .ok (tower4, tower4.fields) ∧ tBad tw (memUse tw false false) = false ∧
    tBad tw (memUse tw false true) = false ∧ 4 * tower4.fields.bits ≤ 16384 ∧
    (moving.elSpots 0 tower4 tower4.fields false 0 accRead (tDisp (moving.har 0) tw) (tCs tw) (tIdx (moving.har 0) tw 4)).toOption =
      some rows4 ∧ (liveSpots rows4).length = 64 ∧
    tBad tw { reg := .slot, brec := true, ereg := true, fild := true, imm := true, ext := tExtMem tw false } = false ∧
    (moving.har 0).claim.getLsbD 3 = true ∧ ready .t blk0 tw.gk tw.gn [] [.s 3] moving ∧
    moving.spotsConsume accRead (liveSpots rows4) = none := by unfold ready; decide
def keys4 : List Nat := (liveSpots rows4).flatMap (·.keys)
theorem meets_transfer_quiet : quiet (moving.engAsker .t tower4.fields) keys4 moving := by
  have h : ∀ k ∈ keys4, ((moving.har (towerRank k)).bank (bankKey (towCell k) (towBank k))).ctr = [] := by decide
  have n : ∀ k ∈ keys4, keys4.length < (moving.die (dieOf (towerRank k))).tdmt.toNat := by decide
  have v : ∀ k ∈ keys4, moving.serves (moving.engAsker .t tower4.fields) k = true := by decide
  have d : ∀ k ∈ keys4, (((moving.die (dieOf (towerRank k))).rguard.toNat : Int)) + 16 * (keys4.length + 1) <
    (moving.bankAt k).left moving.mcc.toNat := by decide
  refine ⟨⟨by decide, fun k hk _ row => ?_⟩, fun k hk => ⟨v k hk, fun _ => d k hk⟩⟩
  rw [h k hk]
  exact Nat.lt_of_le_of_lt (Nat.le_of_eq (Nat.zero_add _)) (n k hk)
theorem meets_transferStores : ready .t blk0 tw.gk tw.gn [.v 3] [] moving ∧ memOk moving ∧
    moving.tRec { tw with brec := 6 } false false true = .ok (plain6, plain6.fields) ∧ tBad { tw with take := true } (memUse tw true false) = false ∧
    tBad tw (memUse tw true true) = false ∧ moving.tRec tw false true true = .ok (tower4, tower4.fields) ∧
    space tower4.fields.base = 1 ∧ space plain6.fields.base ≠ 2 ∧ tower4.fields.fmt ∈ [0x04, 0x05, 0x11] ∧ tower4.fields.bits = 32 := by
  unfold ready memOk; decide
theorem meets_sparseVectors : moving.tRec { tw with brec := 5 } true false true = .ok (sparse5, sparse5.fields) ∧
    moving.tRec { tw with brec := 5 } true true false = .ok (sparse5, sparse5.fields) ∧ 4 * sparse5.fields.bits ≤ 16384 ∧
    4 ≤ sparse5.fields.ext0 ∧ (tVectors (moving.har 0) tw sparse5.fields true).toOption.isSome = true ∧
    ((packed sparse5.fields [1, 0, 2, 0]).length : Int) ≤ sparse5.fields.s1 ∧
    (moving.byteSpots 0 sparse5 0 0 24 1 accWrite).toOption.isSome = true ∧
    unpack sparse5.fields 4 (fun off n => (.ok (((packed sparse5.fields [1, 0, 2, 0]).drop off).take n) : Except Unit (List Byte))) =
      .ok (.ok (24, [1, 0, 2, 0])) := by decide
/-- An empty packed vector stands at 0x3000. -/
theorem meets_sparseLoad : (({ moving with mem := memWrite tiny.mem 0x3000 (packed sparse5.fields []) } : State).vecLoad sparse5
    sparse5.fields 4 0 (some 0)).toOption.map (·.1) = some [0, 0, 0, 0] := by decide
theorem meets_barrierArrival : tBad { tw with reg := 0, brec := 6, ext := 1 }
      { brec := true, ereg := true, imm := true, ext := decide ((1 : BitVec 14).toNat ≤ 1) } = false ∧
    (moving.har 0).brec .t 6 = some plain6 ∧ plain6.fields.spf = false ∧ (moving.har 0).scaleOk .t 6 plain6.fields = true ∧
    moving.barObject 0 plain6 (tDisp (moving.har 0) tw) = .ok (0x3000, 0x3000) ∧ moving.barrBytes = 0 ∧
    moving.spotsConsume accAtomic [{ p := 0x3000, keys := (List.range 8).map (0x3000 + ·), half := 0 }] = none := by decide
theorem meets_exchange : tBad { tw with brec := 0, ereg := 0, ext := 0x2800 }
      { reg := .v, fild := true, take := true, ext := decide (0x2800 % 2 ^ 10 = 0) } = false ∧
    0x2800 / 2 ^ 10 % 4 ≠ 3 ∧ moving.neighbour 0 1 = some 1 ∧ moving.edgeTaken 1 3 = false ∧
    (let s := moving.modHar 0 fun h => { h with edge := h.edge.set 3 (some []), xmsg := [⟨2, 0, []⟩] }
     ((s.har 0).edge.getD 3 none).isSome = true ∧ (s.har 0).xmsg = [] ++ ⟨2, 0, []⟩ :: []) ∧
    moving.expressRank (moving.har 0) tw = some 0 ∧ moving.channelLoad 0 2 < 2 ∧
    ((moving.modHar 0 fun h => { h with e := h.e.set 2 0xFFF }).expressRank
      ((moving.modHar 0 fun h => { h with e := h.e.set 2 0xFFF }).har 0) tw) = none ∧
    tBad { tw with brec := 0, ext := 2 } { reg := .v, ereg := true, fild := true, ext := decide (2 < 16) } = false ∧
    ready .t blk0 tw.gk tw.gn [.v 3] [.v 3] moving := by unfold ready; decide
theorem meets_exchange_arrivals : ({ moving with efly := [(1, 3, [])], xfly := [(0, ⟨2, 0, []⟩)] } : State).efly = (1, 3, []) :: [] ∧
    ({ moving with xfly := [(0, ⟨2, 0, []⟩)] } : State).xfly = (0, ⟨2, 0, []⟩) :: [] := by decide
theorem meets_addressRegisters : tBad { tw with reg := 0, brec := 0, ext := 0x0C60 } { ereg := true, imm := true, ext := true } = false ∧
    tBad { tw with reg := 0, brec := 0, ext := 3 } { ereg := true, imm := true, ext := true } = false ∧
    tBad { tw with brec := 0, ext := 6, imm := 9 } { reg := .v, ereg := true, take := true, imm := true, ext := true } = false ∧
    ready .t blk0 tw.gk tw.gn [] [] moving ∧
    (let p : Pend := ⟨0, .free .load, [.g 9 1], 0, 0, none, 0, 0, 0, none, false, 0⟩
     ({ moving.modHar 0 fun h => h.modEng .t fun x => { x with pend := [p] } with ev := { a := 0, e := .t } } : State).arrival 0 .t =
       some p) := by unfold ready; decide
def lw : LWord := { lFields 0 with gn := false, cimm := 3, lenm := 3 }
def cmd1 : Cmd := ⟨1, 4, 0, 0, 0, 0, false, 0, 0, 0, 0, 0, false⟩
theorem meets_blockFlow : loopBad lw .v = false ∧ loopBad { lw with se := 1 } .v = true ∧ ((running .v).eng .v).blk = some blk0 ∧
    ((running .v).eng .v).skip = false ∧ blk0.loops = [] ∧
    (let s := tiny.modHar 0 fun h => h.modEng .v fun x => { x with queue := [cmd1] }
     s.ev.e = .v ∧ (s.eng .v).queue = [cmd1] ∧ (s.eng .v).blk = none ∧ (s.eng .v).busy ≤ (s.eng .v).cyc) ∧
    (let s := tiny.modHar 0 fun h => h.modEng .v fun x => { x with ended := [cmd1] }
     (s.eng .v).ended = [cmd1] ∧ ∀ p ∈ (s.eng .v).pend, p.age ≠ cmd1.age) := by decide
/-- A loop whose body ends at the word that issues. -/
theorem meets_blockFlow_loop : (let b := { blk0 with loops := [⟨1, 3, 0, 0, 0, 0⟩] }
    b.loops = ⟨1, 3, 0, 0, 0, 0⟩ :: [] ∧ ((3 : BitVec 32).toNat ≠ 1)) := by decide

/-! ### A state and operands for the hypotheses of each statement: copy engines, the scheduler, the module -/

/-- Die 0 has entered a queue at 0x20000, and holds an accepted packet of 8 bytes from 0x1000 to 0x2000. -/
def leaf0 : Leaf := ⟨0, 34, 0x3D⟩
def cew0 : Cew := { en := true, hdr := 0x20000, sz := 2, stbase := 0x30000, rtbase := 0x40000 }
def pktOf (ty : Nat) (st : PktSt) : Pkt :=
  { id := ⟨0, 0, 0, 0⟩, c := ⟨BitVec.ofNat 64 (ty * 2 ^ 24 + 5 * 2 ^ 32), 0, 0, if ty = tBCAST then 0x10001 else 0, 8, 0, 0, 0⟩,
    poster := .other, st := st, asked := true, pins := [leaf0],
    ops := [⟨0x1000, 0x100000010, 0x10000000000, 0x10000000000, 0⟩,
      ⟨if ty = tBCAST then 0x2000000000000000 else 0x2000, 0x100000010, 0x10000000000, 0x10000000000, 0⟩] }
def holding (k : Pkt) : State := tiny.modDie 0 fun d => { d with pkts := [k], cew := [(0, cew0)] }
def cp : Pkt := pktOf tCOPY .ready
theorem meets_copyPackets_types : ∀ ty ∈ [tCOPY, tCOPY4D, tBCAST, tFILL, tGATHER, tGRIDR, tGRIDP, tGRIDC, tEBZ, tEBX],
    (holding (pktOf ty .ready)).runnable ⟨0, 0, 0, 0⟩ ty = some (pktOf ty .ready) := by decide
theorem meets_copyPackets_collectives : ∀ ty ∈ [tCRED, tCGATH],
    (holding (pktOf ty .begun)).runnable ⟨0, 0, 0, 0⟩ ty = some (pktOf ty .begun) := by decide
theorem meets_copyPackets_copy : memOk (holding cp) ∧ cp.unit = 0 ∧ cp.vals = [] ∧ wf cp.c.w4 0 40 = 8 ∧
    (∀ j : Nat, j < 8 → (holding cp).pktRead ((holding cp).pktPart cp) cp (cp.op 0).base
      ((offset (cp.op 0).base : Int) + (wf cp.c.w2 0 48 : Int) + j) 1 = .ok [0x1000 + j]) ∧
    (∀ j : Nat, j < 8 → (holding cp).pinKeys ((holding cp).pktPart cp) cp.pins (cp.op 1).base
      ((offset (cp.op 1).base : Int) + (wf cp.c.w3 0 48 : Int) + j) 1 = .ok [0x2000 + j]) ∧
    tiny.quarantined 0x1000 = false := by
  unfold memOk; decide +kernel
theorem meets_copyPackets_plan : ((holding cp).copyPlan cp).zipIdx.all
    (fun e => (e.1.final ((cp.vals[e.2]?).getD none)).toOption.isSome) = true := by decide
theorem meets_copyPackets_still : still ((List.range' 0x1000 8) ++ List.range' 0x2000 8) (holding cp) := by
  have h : ∀ k ∈ List.range' 0x1000 8 ++ List.range' 0x2000 8, isTower k = false := by decide
  exact ⟨by decide, fun k hk t => absurd t (by rw [h k hk]; decide)⟩
def bp : Pkt := pktOf tBCAST .ready
theorem meets_copyPackets_bcast : wf bp.c.w3 0 16 ≠ 0 ∧ wf bp.c.w3 16 8 ≠ 0 ∧ bcastAt (bp.op 1) + 8 ≤ 2 ^ 22 ∧
    bcastTargets bp.c (bp.op 1) = [towerKey 0 0] := by decide
/-- The header of a queue of four slots whose counters are 0; one with a reserved bit set. -/
def queueHdr (bad : Nat) : List Byte := leBytes 24 0 ++ leBytes 8 2 ++ leBytes 8 0x40000 ++ leBytes 8 0x30000 ++ leBytes 8 (bad * 2 ^ 11) ++ leBytes 8 0
theorem meets_copyQueues_enter : headerBad (bytesWords (queueHdr 0)) = false ∧ headerBad (bytesWords (queueHdr 1)) = true ∧
    ({ tiny with mem := memWrite tiny.mem 0x20000 (queueHdr 0) } : State).devRead 0 0x20000 64 needCR = .ok (queueHdr 0) ∧
    (State.reset.devRead 0 0x20000 64 needCR).toOption.isSome = false := by decide
/-- A packet of no assigned type, with its tag, in slot 0. -/
def posted : State := { tiny.modDie 0 fun d => { d with cew := [(0, cew0)] } with
  mem := memWrite (memWrite tiny.mem 0x20000 (queueHdr 0)) 0x20040 (leBytes 8 (2 ^ 32)) }
theorem meets_copyQueues_accept : posted.nextAccept 0 = some 0 ∧ posted.latent = [] ∧
    (posted.devRead 0 (cew0.slot 0) 64 needCR).toOption.isSome = true ∧
    posted.devKeys 0 0x20008 8 needCW accWrite = .ok (List.range' 0x20008 8) ∧ memOk posted ∧ (List.range' 0x20008 8).Nodup ∧
    (∀ a ∈ List.range' 0x20008 8, posted.quarantined a = false) ∧
    (posted.latchPacket 0 0 ⟨0x100000000, 0, 0, 0, 0, 0, 0, 0⟩).st = .ended cBAD_PACKET 0 0 := by unfold memOk; decide
def dp : Pkt := pktOf tCOPY (.ended cOK 0 0)
theorem meets_copyQueues_completion : (holding dp).findPkt ⟨0, 0, 0, 0⟩ = some dp ∧ dp.stuck = none ∧ dp.c.cmode = 0 ∧
    ((holding dp).cew 0 0).done = 0 ∧ ((holding dp).cew 0 0).late = [] ∧
    (holding dp).devKeys 0 0x30000 8 needCW accWrite = .ok (List.range' 0x30000 8) ∧
    ((holding dp).statusWrite dp cOK 0).toOption.isSome = true := by decide
theorem meets_copyQueues_collectives : (let k := { pktOf tCRED .waiting with c := { (pktOf tCRED .waiting).c with w3 := 1 } }
    (holding k).instanceReady = some [k] ∧ disagree [k] = false ∧ (holding k).findPkt k.id = some k ∧
    disagree [k, { k with id := ⟨1, 0, 0, 0⟩ }] = true) := by decide
theorem meets_copyQueues_halt : (posted.cew 0 0).halt = false ∧
    (let s := (holding (pktOf tCOPY (.halted cPOISON 0))).modCew 0 0 fun c => { c with halt := true, bad := some 0 }
     (s.cew 0 0).halt = true ∧ (s.cew 0 0).bad = some 0) := by decide

def plain (w1 : Word) : Packet := ⟨0, w1, 0, 0, 0, 0, 0, 0⟩
def entry (st : EntSt) (ctr : Nat) : State := tiny.modDie 0 fun d =>
  { d with sched := { d.sched with tab := [(5, ⟨⟨0, 0, 0, 0⟩, ctr, [], st⟩)] } }
theorem meets_schedulerCommands : (∀ e, e < tiny.nDies → (tiny.die e).sched.late = [] ∧ (tiny.die e).sched.cwait = none) ∧ tiny.latent = [] ∧ plainCommand (plain 5) = true ∧
    plainCommand { plain 5 with w2 := 1 } = false ∧ wf (5 : Word) 14 50 = 0 ∧
    ((entry .waiting 2).die 0).sched.tab.find 5 = some ⟨⟨0, 0, 0, 0⟩, 2, [], .waiting⟩ ∧
    ((entry .running 0).die 0).sched.tab.find 5 = some ⟨⟨0, 0, 0, 0⟩, 0, [], .running⟩ ∧
    (∀ r, 3 ≤ r → r ≤ 4 → r ∈ tiny.ranksOf 0) ∧ wf ((4 : Word) * 2 ^ 16 + 3) 9 7 = 0 ∧ 511 ∈ tiny.ranksOf 0 ∧
    (tiny.part 0).ckpts.length < 16 ∧ (tiny.devWrite 0 0x5000 (ckptBytes 1 0 0) needW).toOption.isSome = true ∧
    (tiny.har 1).ctl.mode = .idle ∧ (tiny.har 1).ctl.node = none ∧ (tiny.har 0).ctl.node ≠ none ∧
    ((tiny.modCtl 1 fun c => { c with retired := true }).har 1).ctl.retired = true := by decide
theorem meets_schedulerCommands_node : (tiny.die 0).sched.tab.find 5 = none ∧ wf ((2 : Word) * 2 ^ 16 + 5) 0 12 = 5 ∧
    wf ((2 : Word) * 2 ^ 16 + 5) 16 16 = 2 ∧ wf ((2 : Word) * 2 ^ 16 + 5) 12 4 = 0 ∧ wf ((2 : Word) * 2 ^ 16 + 5) 44 20 = 0 ∧
    (tiny.devRead 0 0 0 needR) = .ok [] ∧
    tiny.devKeys 0 0 8 needW accWrite = .ok (List.range' 0 8) := by decide
/-- A record in the ready queue of die 0. -/
def rec0 : Ready := { cont := ⟨0x5000, 0, 0, 0⟩, launch := ⟨0, 0, 0, 0, 0, 0, 0, 0⟩, gid := none, u := 0, sq := 0, saved := false }
def readied : State := tiny.modDie 0 fun d => { d with sched := { d.sched with ready := [rec0] } }
theorem meets_schedulerEvents : readied.chooser = some 1 ∧ readied.choose 1 = some rec0 ∧ launchGang rec0.launch = false ∧
    tiny.chooser = none := by decide
def gang0 : Gang := { id := 1, part := 0, die := 0, record := rec0, members := [1, 2], held := [1, 2], start := some 0 }
theorem meets_schedulerEvents_gang : ({ tiny with gangs := [gang0] } : State).gangs = [] ++ gang0 :: [] ∧ gang0.started = false ∧
    gang0.record.replay = false := by decide
theorem meets_schedulerEvents_late : (tiny.modSched 0 fun q => { q with late := [(rec0, .none)] }).lateReady 0 = some (rec0, .none) ∧
    ((tiny.modCtl 0 fun c => { c with lineChg := [(1, true)] }).har 0).ctl.lineChg = [] ++ (1, true) :: [] := by decide
theorem meets_schedulerEvents_watchdog : (let s := (tiny.modPart 0 fun p => { p with wdog := 7 }).modCtl 0 fun c =>
      { c with node := some { placedNode with count := 8 } }
    s.wdogDue 0 = true ∧ recordable 0 recKeys (s.modCtl 0 fun c => { c with frozen := true })) := by
  unfold recordable memOk; decide
def bf0 : BFault := { cls := 1, code := cBOUNDS, eng := 0 }
theorem meets_schedulerEvents_fault : (let s := { (tiny.modCtl 0 fun c => { c with frozen := true, bf := some bf0 }).modSeq 0 fun q =>
      { q with stalled := true } with mem := memWrite tiny.mem 0 (leBytes 4 0x8C000000) }
    (s.har 0).ctl.bf = some bf0 ∧ s.faultEnters 0 = true ∧
    recordable 0 recKeys (s.modCtl 0 fun c => { c with bf := c.owner.head?, owner := c.owner.tail })) := by unfold recordable memOk; decide
theorem meets_schedulerEvents_interrupt : (let s := tiny.modCtl 0 fun c => { c with intr := some cNODE_RUNNING }
    (s.har 0).intEnters = true ∧ recordable 0 recKeys (s.modCtl 0 fun c => { c with intr := none }) ∧
    ((tiny.modCtl 0 fun c => { c with abort := some 1, resume := some 1 }).har 0).ctl.abort = some 1 ∧
    (tiny.modCtl 0 fun c => { c with resume := some 1 }).resumeDue 0 = true) := by unfold recordable memOk; decide
theorem meets_schedulerEvents_tests : tiny.mcc.toNat + 1 < (tiny.die 0).sched.due ∧
    (let s := { tiny with mcc := 47000000 }
     (s.die 0).sched.due ≤ s.mcc.toNat + 1 ∧ (s.die 0).sched.drain = none ∧ s.drainNext 0 = some 0) ∧
    ((tiny.modCtl 3 fun c => { c with mode := .test 0 1 }).har 3).ctl.mode = .test 0 1 := by decide

/-! ### A state and operands for the hypotheses of each statement: registers of the module, banks, the Bugle, ports, the step -/

theorem meets_privilegedWrites : (tiny.part 0).gtPend = false ∧
    (let s := State.reset.modPart 0 fun p => { p with gtPend := true }
     (s.part 0).gtPend = true ∧ s.quiet (s.ranksOf 0) = true) ∧ tiny.partmapNew = none := by decide
theorem meets_privilegedWrites_partmap : (let s := { tiny with partmapNew := some 4 }
    s.partmapNew = some 4 ∧ (∀ e, e < s.nDies → field (4 : BitVec 8).toNat (2 * e) 2 ≠ s.partOfDie e →
      s.quiet (List.range' (128 * e) 128) = true ∧ (s.die e).pkts = [] ∧ ∀ kc ∈ (s.die e).cew, kc.2.en = false) ∧
    (let s := { tiny with partmapNew := some 1 }
     field (1 : BitVec 8).toNat 0 2 ≠ s.partOfDie 0 ∧ s.quiet (List.range' 0 128) = false)) := by decide
def bank0 : Bank := { st := .refresh, till := 1 }
def refreshing : State := tiny.modHar 0 fun h => { h with banks := [(3, bank0)], tref := [⟨[4, 5], none, 1, []⟩] }
theorem meets_bankEvents : (tiny.har 0).tref = [] ∧ (refreshing.har 0).tref = ⟨[4, 5], none, 1, []⟩ :: [] ∧
    (∀ cell, cell < 16 → ¬(1 < ((refreshing.har 0).bank (16 * cell + 4)).till ∨ ((refreshing.har 0).bank (16 * cell + 4)).st = .backoff ∨
      ((refreshing.har 0).bank (16 * cell + 4)).st = .refresh ∨ ((refreshing.har 0).bank (16 * cell + 4)).st = .forced)) ∧
    ((refreshing.har 0).bank (16 * 0 + 3)).st = .refresh ∧ refreshing.latent = [] ∧ (refreshing.har 0).banks = [] ++ (3, bank0) :: [] ∧
    bank0.till ≤ refreshing.mcc.toNat + 1 ∧ (tiny.har 0).banks = [] := by decide
theorem meets_bankEvents_guard : (let s := tiny.modHar 0 fun h => { h with dl0 := 5 }
    let b := (s.har 0).bank 0
    b.deadline ≤ 1 + (s.die 0).rguard.toNat ∧ b.st = .serve ∧ b.till ≤ 1 ∧ (s.har 0).leastLeft 1 ≤ ((s.die 0).rguard.toNat : Int) ∧
    (1 + (tiny.die 0).rguard.toNat < ((tiny.har 0).bank 0).deadline)) := by decide
theorem meets_bankEvents_backoff : ((tiny.modHar 0 fun h => { h with banks := [(3, { st := .backoff, till := 1 })] }).har 0).banks =
    [] ++ (3, { st := .backoff, till := 1 }) :: [] := by decide
/-- Two members have arrived at group 5; a value waits to depart and another is due. -/
def bugling : State := { grouped with mcc := 20, bugle :=
  { arrive := [(5, [(0, 2), (1, 3)])], sends := [⟨0, 5, 0, 7, 3⟩], wire := [⟨0, 5, 0, 9, 21⟩] } }
theorem meets_bugleEvents : bugling.bugle.sends = [] ++ ⟨0, 5, 0, 7, 3⟩ :: [] ∧ (bugling.mcc.toNat + 1) % 16 = 5 % 16 ∧
    (∀ w ∈ bugling.bugle.wire, w.part = 0 → w.group = 5 → w.cycle ≠ bugling.mcc.toNat + 1 + bugling.groupLatency 0 5) ∧
    bugling.bugle.wire = [] ++ ⟨0, 5, 0, 9, 21⟩ :: [] ∧ 21 ≤ bugling.mcc.toNat + 1 ∧
    bugling.bugle.arrive = [] ++ (5, [(0, 2), (1, 3)]) :: [] ∧ bugling.groupMembers 0 5 = [0, 1] ∧
    2 + bugling.groupLatency 0 5 ≤ 21 ∧ 3 + bugling.groupLatency 0 5 ≤ 21 := by decide
theorem meets_hostAndLinks : (let s := { tiny with ev := { a := 0, v := 0x200, host := .write [1, 2] } }
    s.ev.host = .write [1, 2] ∧ 0 < s.nDies ∧ s.partOfDie 0 = 0 ∧
    s.devKeys 0 0x200 2 { r := false, w := true, ce := true } accWrite = .ok [0x200, 0x201] ∧ memOk s ∧
    (∀ k ∈ [0x200, 0x201], s.quarantined k = false ∧ s.consumes k = none) ∧
    (∀ d, d < s.nDies → s.partOfDie d ≠ 1) ∧ s.devKeys 0 0x200 8 { r := true, w := true, ce := true } accAtomic = .ok (List.range' 0x200 8)) := by
  unfold memOk; decide
theorem meets_hostAndLinks_console : (let s := { tiny with ev := { a := 0, bytes := [65] }, mem := memWrite tiny.mem 0xAB00 (leBytes 8 2) }
    s.devWord 0 ((s.console 0 + 0x2B00) % 2 ^ 48) needR = .ok 2 ∧ s.devWord 0 ((s.console 0 + 0x2B08) % 2 ^ 48) needR = .ok 0 ∧
    (s.devWrite 0 ((s.console 0 + 0x2B08) % 2 ^ 48) (leBytes 8 2) needW).toOption.isSome = true ∧
    s.devRead 0 ((s.console 0 + 0x2C00) % 2 ^ 48) 1 needR = .ok [0] ∧ s.ev.bytes = 65 :: [] ∧
    s.devWord 0 ((s.console 0 + 0x2B10) % 2 ^ 48) needR = .ok 0 ∧ s.devWord 0 ((s.console 0 + 0x2B18) % 2 ^ 48) needR = .ok 0 ∧
    (s.devWrite 0 ((s.console 0 + 0x2E00) % 2 ^ 48) [65] needW).toOption.isSome = true) := by decide
def flit1 : List Byte := List.replicate 32 0 ++ leBytes 2 0x1000 ++ leBytes 2 0
def flitOk : List Byte := flit1 ++ leBytes 4 (crc32Ieee flit1)
theorem meets_hostAndLinks_flit : flitOk.length = 40 ∧ leNat (flitOk.drop 36) = crc32Ieee (flitOk.take 36) ∧
    leNat ((flitOk.drop 32).take 2) / 2 ^ 12 = 1 ∧ leNat ((flitOk.drop 32).take 2) % 2 ^ 12 = (tiny.links.getD 0 {}).rxSeq.toNat ∧
    wf (({ tiny with ppbind := [(0, 1 <<< 62)] } : State).ppbind.getD 0 0) 62 1 = 1 ∧ wf (tiny.ppbind.getD 0 0) 62 1 = 0 := by decide
/-- Whether an image or a container passes its signature is not shown by an example: the check has no body (log entry 14). -/
theorem meets_bootStages : ({ tiny with ev := { plan := { image := [1] } } } : State).ev.plan.image ≠ [] ∧ tiny.ev.plan.image = [] ∧
    ([1] : List Byte).length ≠ 64 + leNat ((([1] : List Byte).drop 16).take 8) + 64 + 29792 ∧ tiny.boot.stage ≠ 2 ∧
    (∀ i ∈ tiny.supCache, i.part ≠ 0) ∧
    (let s := { tiny with boot := { tiny.boot with stage := 2 }, supCache := [⟨0, 1, [], 0⟩] }
     s.boot.stage = 2 ∧ s.supCache = [] ++ ⟨0, 1, [], 0⟩ :: [] ∧ s.fuses ≤ 1 ∧ ({ s with fuses := 2 } : State).fuses > 1) := by decide
theorem meets_encodingRoundTrip : (Instr.addi 5 4 0x3FF8).wellFormed = true ∧ encode (.addi 5 4 0x3FF8) = some (.s, 0x08513FF8) ∧
    0x08513FF8 < 2 ^ Stream.width .s ∧ decode .s 0x08513FF8 = .ok (.addi 5 4 0x3FF8) := by decide
theorem meets_stepRunsDecoded : tiny.boot.halted = false ∧ tiny.agenda = [] ∧ tiny.phase = .seq ∧
    (let h := tiny.har tiny.cur
     h.seq.active = true ∧ h.ctl.halted = false ∧ h.ctl.resume = none ∧ tiny.faultEnters 0 = false ∧ tiny.wdogDue 0 = false ∧
     h.intEnters = false ∧ h.seq.pc = 0 ∧ h.seq.interlocked tiny.mcc.toNat .nop = false) ∧
    (∀ j, j < 4 → ({ tiny with freeCtr := 1 } : State).xlate 0 j { x := true, sup := true } accFetch = .ok j) ∧
    (∀ k ∈ [0, 1, 2, 3], tiny.consumes k = none) ∧
    decode .s (leNat ([0, 1, 2, 3].map (memGet tiny.mem))) = .ok .nop ∧ decode .s 0 = .error .major := by decide
theorem meets_stepRunsDecoded_engine : (let s := { running .v with phase := .v }
    let x := s.eng .v
    (s.har 0).ctl.enginesRun s.mcc = true ∧ (s.har 0).dueNow .v = false ∧ x.retires = false ∧ (s.har 0).starts .v = none ∧
    x.blk = some blk0 ∧ x.busy ≤ x.cyc ∧ x.stalled = false ∧ (s.har 0).ctl.node = some placedNode ∧
    secBase .v placedNode.launch = 0 ∧
    (∀ j, j < 8 → ({ s with freeCtr := 1 } : State).xlate 0 j { x := true, sup := true } accFetch = .ok j)) := by decide
/-- The step of `tiny` answers a next state from a memory in canonical form. -/
theorem meets_stepKeepsMemory : memOk tiny ∧ (match step tiny with
    | .next t => memWf t.mem
    | _ => false) = true := by unfold memOk; decide

/-! ### Further clauses, each with a state that meets it -/

/-! ### Space 0 mapped onto memory by one leaf, as `tiny` has it -/

theorem mapM_ok {ε α β : Type} {f : α → Except ε β} {g : α → β} : ∀ {xs : List α}, (∀ x ∈ xs, f x = .ok (g x)) →
    xs.mapM f = .ok (xs.map g)
  | [], _ => rfl
  | x :: xs, h => by
    rw [List.mapM_cons, h x (.head _), mapM_ok fun y hy => h y (.tail _ hy)]; rfl

/-- The partition's root names a table whose first entry maps the first 16 GiB onto themselves, with every permission that a
need of the tests asks. -/
def mapped (p : Nat) (s : State) : Prop :=
  (s.part p).xlroot = 0x10001 ∧ s.pte 0x10000 = .ok 0x3D ∧ pteKind s 1 0x3D = 0

theorem walk_mapped {p : Nat} {s : State} (h : mapped p s) {va : Nat} (hv : va < 2 ^ 34) : s.walk p va = .ok ⟨0, 34, 0x3D⟩ := by
  have z : field va 34 14 = 0 := by unfold field; rw [Nat.div_eq_of_lt hv]; rfl
  unfold State.walk
  rw [h.1]
  simp only [show wf (0x10001 : Word) 0 1 = 1 from by decide, show wf (0x10001 : Word) 16 48 * 2 ^ 16 = 0x10000 from by decide,
    State.walkFrom, z, h.2.1, h.2.2, show wf (0x3D : Word) 1 1 = 0 from by decide, Nat.mul_zero, Nat.add_zero, Nat.reduceSub, if_true]
  simp [leafBits]
  omega

theorem devKeys_mapped {p : Nat} {s : State} (h : mapped p s) {va n acc : Nat} {need : Need} (hv : va + n ≤ 2 ^ 34)
    (ha : (⟨0, 34, 0x3D⟩ : Leaf).allows need = true) : s.devKeys p va n need acc = .ok (List.range' va n) := by
  unfold State.devKeys
  rw [mapM_ok (g := fun i => va + i), List.range'_eq_map_range]
  intro i hi
  have hi := List.mem_range.mp hi
  have m : (va + i) % 2 ^ 48 = va + i := Nat.mod_eq_of_lt (by omega)
  unfold State.xlateP
  rw [m, walk_mapped h (by omega)]
  simp only [useLeaf, ha, if_true]
  simp [Leaf.pa, wf, field]

theorem runs_range {bs : List Byte} : ∀ {k : Nat}, bs ≠ [] → runs ((List.range' k bs.length).zip bs) = [(k, bs)] := by
  induction bs with
  | nil => intro k h; exact absurd rfl h
  | cons b bs ih =>
    intro k _
    cases bs with
    | nil => rfl
    | cons c cs => simp only [List.length_cons, List.range'_succ, List.zip_cons_cons] at ih ⊢
                   rw [runs, ih (by simp)]; simp

/-- A device's write where no granule is marked. -/
theorem devWrite_mapped {p : Nat} {s : State} (h : mapped p s) (hp : s.poison = []) (hl : s.latent = []) (hh : s.hbm = []) {va : Nat}
    {bs : List Byte} {need : Need} (hb : bs ≠ []) (hv : va + bs.length ≤ 2 ^ 34)
    (ha : (⟨0, 34, 0x3D⟩ : Leaf).allows need = true) :
    s.devWrite p va bs need = .ok { s with mem := memWrite s.mem va bs } := by
  simp [State.devWrite, devKeys_mapped h hv ha, State.writeKeys, runs_range hb, State.write, State.put, hp, hl, hh]

def savingCont : Cont := ⟨0x1000, 0x8000, 0, 0⟩
/-- The node's line is high, and its save area ends at 0x8000; any memory. -/
def saving (m : List Host.Cell) : State :=
  { tiny.modCtl 0 (fun c => { c with line := true, node := some { placedNode with cont := savingCont } }) with mem := m }
theorem mapped_saving {m : List Host.Cell} (h : memRead m 0x10000 8 = leBytes 8 0x3D) : mapped 0 (saving m) := by
  refine ⟨by show (tiny.part 0).xlroot = _; decide, ?_, by show pteKind tiny 1 0x3D = 0; decide⟩
  show Except.ok (BitVec.ofNat 64 (leNat (memRead m 0x10000 8))) = _
  rw [h]; decide
theorem checkLaunch_saving {m : List Host.Cell} (h : memRead m 0x10000 8 = leBytes 8 0x3D)
    (g : memRead m 0x1000 64 = List.replicate 64 0) :
    (saving m).checkLaunch 0 savingCont = .ok ⟨0, 0, 0, 0, 0, 0, 0, 0⟩ := by
  have k : (saving m).devRead 0 0x1000 64 needR = .ok (List.replicate 64 0) := by
    unfold State.devRead
    rw [devKeys_mapped (mapped_saving h) (by decide) (by decide)]
    show Except.ok ((List.range' 0x1000 64).map (memGet m)) = _
    rw [← g]; rfl
  have e : (saving m).checkLaunch 0 savingCont = (match (saving m).devRead 0 0x1000 64 needR with
    | .error f => .error f
    | .ok bs =>
      let l := packetOf (bytesWords bs)
      if launchBad l then .error { code := cBAD_RECORD }
      else if space l.w0 ≠ 0 ∨ space l.w1 ≠ 0 ∨ space l.w2 ≠ 0 ∨ space l.w3 ≠ 0 then .error { code := cBAD_SPACE }
      else if ((saving m).ranksOf 0).any ((saving m).inGroups 0 l) then .ok l else .error { code := cNO_ELIGIBLE }) := rfl
  have b : packetOf (bytesWords (List.replicate 64 0)) = ⟨0, 0, 0, 0, 0, 0, 0, 0⟩ := by decide
  have c : ((saving m).ranksOf 0).any ((saving m).inGroups 0 ⟨0, 0, 0, 0, 0, 0, 0, 0⟩) = true := by
    show (tiny.ranksOf 0).any (tiny.inGroups 0 ⟨0, 0, 0, 0, 0, 0, 0, 0⟩) = true; decide
  rw [e, k]
  simp only [b, c, show launchBad ⟨0, 0, 0, 0, 0, 0, 0, 0⟩ = false from by decide, show space 0 = 0 from by decide]
  simp
/-- YIELD with the line high has a place for every byte it saves, and its continuation is sound after that. -/
theorem meets_nodeEnds_save : let s := saving tiny.mem
    let h := s.har 0
    let n : Node := { placedNode with cont := savingCont }
    h.ctl.node = some n ∧ n.gang = none ∧ n.ending = 0 ∧ h.ctl.line = true ∧ h.ctl.abort = none ∧ h.quiesced = true ∧ h.seq.sbClear = true ∧
    s.sendsGone 0 = true ∧ h.arrivalsDone = true ∧ s.waits (.yield 0) = false ∧ memOk s ∧
    (h.saveBytes 4).length = 10880 ∧
    s.devKeys 0 (saveAt n.cont.fp) 10880 needW accWrite = .ok (List.range' (saveAt n.cont.fp) 10880) ∧
    (∀ u, s.devWrite 0 (saveAt n.cont.fp) (h.saveBytes 4) needW = .ok u → u.checkLaunch 0 n.cont = .ok ⟨0, 0, 0, 0, 0, 0, 0, 0⟩) ∧
    s.queueDie 0 0 n.cont = 0 ∧ (s.die 0).sched.late = [] ∧ (s.die 0).sched.chipCount 0 < 256 ∧ (s.die 0).sched.ringCount 0 = 0 := by
  have l : (((saving tiny.mem).har 0).saveBytes 4).length = 10880 := by decide +kernel
  have m := mapped_saving (m := tiny.mem) (by decide)
  have a : saveAt savingCont.fp = 0x8000 - 10880 := by decide
  have w : memWf tiny.mem = true := by decide
  refine ⟨by decide, rfl, rfl, by decide, by decide, by decide, by decide, by decide, by decide, by decide, w, l,
    devKeys_mapped m (by decide) (by decide), fun u hu => ?_, by decide, by decide, by decide, by decide⟩
  rw [devWrite_mapped m rfl rfl rfl (by intro e; rw [e] at l; exact absurd l (by decide)) (by rw [l]; decide) (by decide)] at hu
  cases hu
  apply checkLaunch_saving (m := memWrite tiny.mem _ _)
  · rw [memRead_memWrite_other w (by rw [l]; exact .inr (by decide))]; decide
  · rw [memRead_memWrite_other w (by rw [l]; exact .inl (by decide))]; decide

/-! ### Further clauses: the sequencer -/

/-- Port 0 is bound to partition 0 with its link down; harness 1 is retired; a granule of its own tower is poisoned. -/
def ported : State :=
  { tiny.modCtl 1 (fun c => { c with retired := true }) with ppbind := [(0, 1 <<< 63)], poison := [towerKey 0 0x200 / 64] }
theorem meets_accessChecks_links : space 0x4000000000000000 = 4 ∧ owner 0x4000000000000000 < 16 ∧ ported.portBound 0 0 = true ∧
    ported.linkUp 0 = false ∧ space 0x2001000000000000 = 2 ∧ owner 0x2001000000000000 < ported.ranks ∧
    (ported.har 1).ctl.retired = true ∧ ported.portBound 1 0 = false := by decide
def loadAt (k : Nat) : LoadReq := ⟨4, .mem k, 8, false, 1, 0, BitVec.ofNat 64 k⟩
def loading (l : LoadReq) : State := { ported.modSeq 0 (fun q => { q with loadQ := [l] }) with ev := { a := 0 } }
/-- A granule that delivers no byte, a link that is down, a privileged register, a store before a separation. -/
theorem meets_loadReturns_clauses : (loading (loadAt (towerKey 0 0x200))).consumesN (towerKey 0 0x200) 8 = some cPOISON ∧
    (loading (loadAt (towerKey 0 0x200))).serves (loadAsker 0) (towerKey 0 0x200) = true ∧ ((loading (loadAt (towerKey 0 0x200))).har 0).seq.active = true ∧
    ported.seqAccess 0 0x1000000000000200 ldAcc = .ok (.mem (towerKey 0 0x200)) ∧
    ported.consumesN (towerKey 0 0x200) 8 = some cPOISON ∧
    (4 * 2 ^ 60) / 2 ^ 60 = 4 ∧ (loading (loadAt (4 * 2 ^ 60))).linkUp (owner (loadAt (4 * 2 ^ 60)).ptr) = false ∧
    ((loading ⟨4, .reg 0x102, 8, false, 0, 0, 0⟩).har 0).seq.loadQ = [⟨4, .reg 0x102, 8, false, 0, 0, 0⟩] ∧
    (let s := (busyQ 1).modSeq 0 fun q => { q with loadQ := [{ loadAt 0x200 with epoch := 1 }] }
     ∃ w ∈ (s.har 0).seq.storeQ, w.epoch < 1) := by decide
def storing (w : StoreWhat) : State := { tiny.modSeq 0 (fun q => { q with storeQ := [⟨w, 0, 0⟩] }) with ev := { a := 0 } }
def cont0 : Cont := ⟨0x4000, 0, 0, 0⟩
def launchRep : Packet := ⟨0, 0, 0, 0, 0, 0, 0, 0⟩
theorem meets_storePerforms_clauses : ((storing (.mem (4 * 2 ^ 60) [1])).har 0).seq.storeQ = [⟨.mem (4 * 2 ^ 60) [1], 0, 0⟩] ∧
    (storing (.mem (4 * 2 ^ 60) [1])).linkUp (owner (BitVec.ofNat 64 (4 * 2 ^ 60))) = false ∧
    ((storing (.reg 0x102 1 7)).har 0).seq.storeQ = [⟨.reg 0x102 1 7, 0, 0⟩] ∧
    (let s := (storing (.spawn cont0)).modSched 0 fun q => { q with late := [(⟨cont0, launchRep, none, 0, 0, false, false, true, 0, none, []⟩, .spawn 0)] }
     s.waits (.spawn 0) = true) ∧
    (storing (.spawn cont0)).waits (.spawn 0) = false ∧ launchRepl placedNode.launch = false ∧
    launchRepl { placedNode.launch with w7 := 1 } = true ∧
    ((storing (.spawn cont0)).enqueue 0 cont0 none false false (.spawn 0)).1.waits (.spawn 0) = false := by decide

/-- The queue's state with any memory and tags. -/
def anyQ (m : List Host.Cell) (g : Table Poster) : State := { queued 3 1 2 with mem := m, tagger := g }
/-- The slot of the second packet stands at 0x480 whatever it holds. -/
theorem meets_postsAndSpawns_anySlot (m : List Host.Cell) (g : Table Poster) (i : Nat)
    (h : ∀ x, x < 0x480 ∨ 0x480 + 64 ≤ x → memGet m x = memGet (queued 3 1 2).mem x) (hi : i < 8) :
    (anyQ m g).postKey ((0x400 : Word) + BitVec.ofNat 64 (64 * (1 + 1 % 2 ^ 2)) + BitVec.ofNat 64 (8 * i)) postWrite =
      .ok (0x480 + 8 * i) := by
  have e : memRead m 0x10000 8 = memRead (queued 3 1 2).mem 0x10000 8 := by
    simp only [memRead]
    repeat rw [h _ (.inr (by omega))]
  have p : (anyQ m g).pte 0x10000 = .ok 0x3D := by
    show Except.ok (BitVec.ofNat 64 (leNat (memRead m 0x10000 8))) = _
    rw [e]; decide
  have w : ∀ va, va < 2 ^ 34 → (anyQ m g).walk 0 va = .ok ⟨0, 34, 0x3D⟩ := fun va hv => walk_mapped
    ⟨by show ((queued 3 1 2).part 0).xlroot = _; decide, p, by show pteKind (queued 3 1 2) 1 0x3D = 0; decide⟩ hv
  have f : ∀ (p : Word) va, offset p = va → space p = 0 → owner p = 0 → va % 8 = 0 → va < 2 ^ 34 →
      (anyQ m g).postKey p postWrite = .ok va := by
    intro p va ho hs hw ha hv
    have c : (anyQ m g).cur = 0 := rfl
    have t : ((anyQ m g).har 0).tlb = [] := by show ((queued 3 1 2).har 0).tlb = []; decide
    have v : ((anyQ m g).har 0).level = 0 := by show ((queued 3 1 2).har 0).level = 0; decide
    have o : (anyQ m g).partOf 0 = 0 := by show (queued 3 1 2).partOf 0 = 0; decide
    have a : (⟨0, 34, 61#64⟩ : Leaf).allows { w := true, sup := true } = true := by decide
    have z : (⟨0, 34, 61#64⟩ : Leaf).pa va = va := by simp [Leaf.pa, wf, field]
    simp [State.postKey, State.seqAccess, State.spaceCheck, State.seqKey, State.xlate, State.leafOf, c, t, v, o, ho, hs, hw, ha,
      w va hv, useLeaf, a, z, postWrite]
  interval_cases i <;> exact f _ _ (by decide) (by decide) (by decide) (by decide) (by decide)

/-- A supervisor without a node; a gang of two whose other member runs, or has ended. -/
def ganged (live : List Nat) : State :=
  { tiny.modCtl 0 (fun c => { c with line := true, node := some { placedNode with gang := some 1 } }) with
    gangs := [{ id := 1, part := 0, die := 0, record := rec0, members := [0, 1], started := true, live := live }] }
theorem meets_nodeEnds_gang : ((tiny.modCtl 0 fun c => { c with node := none }).har 0).ctl.node = none ∧
    ((ganged [0]).gangOf 0).map (·.live) = some [0] ∧ ((ganged [0, 1]).gangOf 0).map (fun g => (g.live, g.saving, g.atYield)) =
      some ([0, 1], false, []) ∧ ((ganged [0, 1]).har 0).ctl.line = true ∧ ((ganged [0, 1]).har 0).quiesced = true ∧
    (ganged [0, 1]).sendsGone 0 = true ∧ ((ganged [0, 1]).har 0).arrivalsDone = true := by decide
/-- Node 5 runs with entry 6, which waits for two, as its successor; it has no join counter, or one in an illegal space. -/
def succeeding (join : Word) : State := (tiny.modCtl 0 fun c =>
    { c with node := some { placedNode with gid := some 5, cont := ⟨0, 0x4000, join, 0⟩ } }).modSched 0 fun q =>
  { q with tab := [(5, ⟨⟨0, 0, 0, 0⟩, 0, [6], .running⟩), (6, ⟨⟨0, 0, 0, 0⟩, 2, [], .waiting⟩)] }
theorem meets_nodeEnds_successors : (succeeding 0).successors (some 5) = [6] ∧ [6].Nodup ∧
    Table.sorted ((succeeding 0).die 0).sched.tab = true ∧ 6 / 4096 < (succeeding 0).nDies ∧
    ((succeeding 0).die 0).sched.tab.find 6 = some ⟨⟨0, 0, 0, 0⟩, 2, [], .waiting⟩ ∧ (succeeding 0).waits (.nend 0) = false ∧
    ((succeeding 0).har 0).quiesced = true ∧ (succeeding 0).sendsGone 0 = true ∧
    (succeeding 0x6000000000000000).seqAccess 0 0x6000000000000000 joinAcc =
      .error { code := cBAD_SPACE, addr := 0x6000000000000000, acc := accAtomic } ∧
    (succeeding 0x200).seqAccess 0 0x200 joinAcc = .ok (.mem 0x200) ∧ (succeeding 0x200).consumesN 0x200 8 = none ∧
    calm (succeeding 0x200).issuer 0x200 (succeeding 0x200) := by unfold calm; decide
/-- A record pinned in the region of a TLBI, which waits for it, and then goes on when its pin is gone. -/
def pinned : State := atLevel 1 ((withG [(1, 0x10000)]).modHar 0 fun h =>
  { h with recs := [(6, [⟨0, true, 0x3000, 0x100000008, 0x10000000000, 0x40000000000, false, [⟨0, 34, 0x3D⟩], 9⟩])] })
theorem meets_privilegedInstructions_pins : pinned.pinHolders 0 0 (2 ^ 34) ≠ [] ∧ pinned.pinHolders 0 0x10000 (2 ^ 16) = [] ∧
    ((pinned.modSeq 0 fun q => { q with wait := { stage := 1, list := [7] } }).har 0).seq.wait.stage ≠ 0 ∧
    (∀ x ∈ [7], x ∉ pinned.pinHolders 0 0 (2 ^ 34)) ∧ ((pinned.har 0).level ≠ 0) ∧ pinned.inSlot = false := by decide
/-- A handler at S returns from the record `ws`: of class 1 for V with ACTION a and STATUS st. -/
def returning (a st : Nat) (f : Harness → Harness) : State :=
  let s := atLevel 1 (tiny.modHar 0 f)
  { s with mem := memWrite tiny.mem 0x18000 (wordBytes [1, 0x40, 0, 0, 0, 0, 0, BitVec.ofNat 64 st, 0, 0, 0, 0, BitVec.ofNat 64 a, 0,
    0, 0]) }
def retWords (a st : Nat) : List Byte :=
  wordBytes [1, 0x40, 0, 0, 0, 0, 0, BitVec.ofNat 64 st, 0, 0, 0, 0, BitVec.ofNat 64 a, 0, 0, 0]
theorem meets_returns_record : ∀ a ∈ [0, 1, 2, 3], (returning a 0x10002 id).devRead 0 ((returning a 0x10002 id).recordAt 0 1) 128 needR =
    .ok (retWords a 0x10002) ∧ wf ((bytesWords (retWords a 0x10002)).getD 12 0) 0 2 = a := by decide
theorem meets_returns_engine : wf ((bytesWords (retWords 1 (2 ^ 16 + cSCHED_MISS))).getD 7 0) 0 16 = cSCHED_MISS ∧
    wf ((bytesWords (retWords 1 (2 ^ 16 + cSCHED_MISS))).getD 7 0) 16 4 = 1 ∧
    ((returning 1 (2 ^ 16 + cSCHED_MISS) fun h => h.modEng .v fun x => { x with queue := [cmd1] }).eng .v).queue = [cmd1] ∧
    (((returning 1 (2 ^ 16 + cSCHED_MISS) fun h => h.modEng .v fun x => { x with queue := [cmd1] }).eng .v).blk).isSome = false ∧
    (let p : Pend := ⟨0, .free .decode, [], 0, 0, none, 0, 0, 0, none, false, 0⟩
     let x := (returning 1 cBAR_OVERFLOW fun h => h.modEng .v fun x => { x with late := true, pend := [p] }).eng .v
     x.late = true ∧ x.pend = [] ++ p :: [] ∧ p.isFree = true ∧ p.effs = []) ∧
    ((returning 3 0 id).har 0).seq.storeQ = [] ∧ ((returning 3 0 id).har 0).ctl.node = some placedNode ∧
    (let s := returning 0 0 fun h => { h with ctl := { h.ctl with abort := some 0 } }
     (s.har 0).ctl.abort = some 0 ∧ 0 ≤ s.mcc.toNat) := by decide

theorem meets_falseGuard_waits : blk0.guard 0 true = true ∧ mmaBad mw = false ∧
    (let s := (running .d).modEng .d fun x => { x with array := 5 }
     (s.eng .d).cyc < (s.eng .d).array) := by decide
/-- D with one result in flight. -/
def inFlight (due : Due) (effs : List Eff) : State :=
  (running .d).modEng .d fun x => { x with pend := [⟨0, due, effs, 1, 3, none, 0, 0, 0, none, false, 0⟩] }
/-- Register 1 is claimed, and a decode, or a result of fixed latency, is on its way to it. -/
theorem meets_slotInstructions_release : (2 : BitVec 32) &&& ((inFlight (.free .decode) [.s 0 1 0 []]).har 0).claim = 2 ∧
    ((inFlight (.free .decode) [.s 0 1 0 []]).har 0).slotDecoding 1 = true ∧
    ((inFlight (.free .decode) [.s 0 1 0 []]).har 0).slotPending 1 = false ∧
    ((inFlight (.cycle 8) [.s 0 1 0 []]).har 0).slotPending 1 = true ∧ ((running .d).har 0).slotDecoding 1 = false := by decide
theorem meets_decoder_waits : ((inFlight (.free .decode) []).har 0).tableLatched 3 = true ∧
    ((inFlight (.free .decode) []).har 0).posDecoding 1 = true ∧ ((inFlight (.free .decode) []).har 0).posBusy 1 = true ∧
    ((inFlight (.free .seek) []).har 0).posBusy 1 = true ∧ ((inFlight (.free .table) []).har 0).tableLoading = true ∧
    (let s := (running .d).modEng .d fun x => { x with pend := List.replicate 2048 ⟨0, .free .decode, [], 1, 3, none, 0, 0, 0, none, false, 0⟩ }
     2048 ≤ outstanding (s.har 0)) := by decide
theorem readOk_eq {α : Type} {x : Read α} {a : α} (h : readOk x = some a) : x = .ok a := by
  cases x <;> simp [readOk] at h
  rw [h]
/-- A record of 8 bytes is no tensor; an index past the tiles. -/
theorem meets_decoder_entryFails : entryFails decoding 0 ⟨{ coded with w1 := 0x100000008 }, 0⟩ 0 cSTREAM_BAD_MAGIC ∧
    entryFails decoding 0 ⟨coded, 0⟩ 7 cSTREAM_BAD_INDEX ∧ tensorCells coded = [0] :=
  ⟨.inl ⟨by decide, rfl⟩, .inr ⟨by decide, tensor7.take 16, readOk_eq (by decide), .inr (.inl ⟨by decide, by decide, rfl⟩)⟩, by decide⟩
/-- The segment's CRC is another; its table is missing. -/
def corrupt : State := { decoding with mem := memWrite decoding.mem 0x3028 [0xEE] }
theorem meets_decoder_segmentFails : readOk (corrupt.tileIn 0 coded 0 0) = some tile7 ∧
    segmentFails corrupt 0 (corrupt.har 0) ⟨coded, 0⟩ tile7 1 cSTREAM_CRC ∧
    segmentFails decoding 0 ((running .d).har 0) ⟨coded, 0⟩ tile7 1 cSTREAM_NO_TABLE := by
  refine ⟨by decide, .inr ⟨⟨0, by decide, by decide⟩, (tensor7.set 40 0xEE).drop 32 |>.take 16, readOk_eq (by decide), ?_⟩,
    .inl ⟨?_, rfl⟩⟩
  · exact .inr (.inr (.inr ⟨by decide, by decide, by decide, (tensor7.drop 48).take 12, readOk_eq (by decide),
      .inr ⟨by decide, rfl, body7, readOk_eq (by decide), by decide⟩⟩))
  · rintro ⟨k, h, -⟩
    exact absurd h (by rw [show ((running .d).har 0).chooseTable tile7.tid = none from by decide]; exact nofun)
theorem meets_decoder_outcomes : (decodeSubs 1 (tableFreqs table7) [(0, [leBytes 4 0x10000, leBytes 4 0x10000])] 1 1).2 = none ∧
    (decodeSubs 1 (tableFreqs table7) [(0, [leBytes 4 0x10000, leBytes 4 0])] 1 1).2.isSome = true ∧
    ((decoding.modHar 0 fun h => { h with dpos := h.dpos.set 0 0 }).har 0).dpos.getD 0 0 = 0 ∧
    (posOf 0).valid = false ∧ (decoding.har 0).vwsRec 9 = .error cBAD_BUFREC ∧
    decoding.ddecBar (decoding.har 0) { dw with slot := 1, imm := 4 } = .error { code := cBAD_BUFREC } := by decide
/-- The barrier object of a decode stands in a granule that delivers no byte. -/
theorem meets_decoder_barrier : (let q := { decPend with bar := some 0x200, bytes := 2048 }
    let s := { (running .d).modEng .d (fun x => { x with pend := [q] }) with ev := { a := 0 }, poison := [towerKey 0 0 / 64] }
    s.arrives 0 .d .decode = some q ∧ s.consumesN 0x200 8 = none ∧ s.consumesN (towerKey 0 0) 8 = some cPOISON) := by decide

/-- The innermost of two loops ends at the word that issues, in its last iteration, or before it. -/
def looping (n : BitVec 32) : State := (running .v).modEng .v fun x =>
  { x with blk := some { blk0 with loops := [⟨1, 3, 0, 0, 2, 8⟩, ⟨0, 5, 0, 0, 0, 0⟩] }, lc := x.lc.setIfInBounds 1 n }
theorem meets_blockFlow_leaves : ((looping 1).eng .v).lc.getD 1 0 - 1 = 0 ∧ ((looping 2).eng .v).lc.getD 1 0 - 1 ≠ 0 ∧
    ((looping 1).eng .v).blk.map (·.loops) = some [⟨1, 3, 0, 0, 2, 8⟩, ⟨0, 5, 0, 0, 0, 0⟩] ∧ (⟨1, 3, 0, 0, 2, 8⟩ : Loop).last = blk0.pc ∧
    (∀ l ∈ blk0.loops.head?, l.last ≠ blk0.pc) := by decide
/-- A timed command before, at and after its stamp; a store that its separation waits for; a write of e(2) in flight. -/
def starting (stamp : Word) (sep : Nat) : State := (busyQ 1).modHar 0 fun h =>
  { h.modEng .v (fun x => { x with queue := [{ cmd1 with timed := true, stamp := stamp, sep := sep }] }) with
    sp := { h.sp with frame := 5 } }
theorem meets_blockFlow_starts : ((starting 6 0).har 0).sp.frame.toNat < (6 : Word).toNat ∧
    ((starting 5 0).har 0).sp.frame.toNat = (5 : Word).toNat ∧ ((starting 5 0).eng .v).blk = none ∧
    ((starting 5 0).eng .v).busy ≤ ((starting 5 0).eng .v).cyc ∧ (∀ t ∈ ((starting 5 0).har 0).seq.storeQ, 0 ≤ t.epoch) ∧
    ¬(∀ t ∈ ((starting 5 1).har 0).seq.storeQ, 1 ≤ t.epoch) ∧ (4 : Word).toNat < ((starting 4 0).har 0).sp.frame.toNat ∧
    (let p : Pend := ⟨0, .cycle 9, [.te 2 7], 0, 0, none, 0, 0, 0, none, false, 0⟩
     let h := ((running .t).modEng .t fun x => { x with pend := [p] }).har 0
     p ∈ h.te.pend ∧ .te 2 7 ∈ p.effs ∧ (2 : BitVec 4).toNat = 2) := by decide

/-! ### Copy packets whose accesses are given key by key -/

/-- A packet with its operands, and a memory of its own. -/
def pkt (ty : Nat) (c : Packet) (ops : List Entry) : Pkt :=
  { id := ⟨0, 0, 0, 0⟩, c := { c with w0 := c.w0 + BitVec.ofNat 64 (ty * 2 ^ 24 + 5 * 2 ^ 32) }, poster := .other, st := .ready, asked := true, pins := [leaf0]
    ops := ops }
def packet0 : Packet := ⟨0, 0, 0, 0, 0, 0, 0, 0⟩
def hasMem (k : Pkt) (m : List Host.Cell) : State := { holding k with mem := m }
/-- 2 elements of one byte at 0x1000, and at 0x2000. -/
def src2 : Entry := ⟨0x1000, 0x100000002, 0x10000000000, 0x10000000000, 0x70007⟩
def dst2 : Entry := ⟨0x2000, 0x100000002, 0x10000000000, 0x10000000000, 0x70007⟩
def cp2 : Pkt := pkt tCOPY { packet0 with w4 := 2 } [src2, dst2]
theorem meets_copyPackets_bytes : (holding cp2).runnable ⟨0, 0, 0, 0⟩ tCOPY = some cp2 ∧ wf cp2.c.w4 0 40 = 2 ∧
    (∀ j : Fin 2, readable cp2 (cp2.op 0) ((wf cp2.c.w2 0 48 : Int) + j) 1 [0x1000 + j] (holding cp2)) ∧
    (∀ j : Fin 2, writable cp2 (cp2.op 1) ((wf cp2.c.w3 0 48 : Int) + j) 1 [0x2000 + j] (holding cp2)) := by
  unfold readable writable
  decide +kernel
theorem memOk_holding (k : Pkt) : memOk (holding k) := (by decide : memWf tiny.mem = true)
/-- n bytes from a key upward lie apart from what is read elsewhere. -/
theorem apart_from {k : Pkt} (at' : Nat) (hk : k.unit = 0) (ha : k.asked = true) (n : Nat) {read : List Nat} (h : ∀ a ∈ read, a < at' ∨ at' + n ≤ a) :
    apart k n (byteSpot fun j => at' + j) read (holding k) := by
  refine ⟨hk, ha, memOk_holding _, rfl, fun j y hj hy => ?_⟩
  obtain rfl : ({ p := 0, keys := [at' + j], half := 0 }, 8) = y := Option.some.inj hy
  refine ⟨List.nodup_singleton _, by simp, fun a ha => ?_, fun j' y' hj' hne hy' => ?_⟩
  · obtain rfl := List.mem_singleton.mp ha
    refine ⟨fun m => ?_, Bool.and_false _⟩
    have := h _ m
    omega
  · obtain rfl : ({ p := 0, keys := [at' + j'], half := 0 }, 8) = y' := Option.some.inj hy'
    simp [sharesBit]
    omega
theorem apart_bytes {k : Pkt} (hk : k.unit = 0) (ha : k.asked = true) (n : Nat) {read : List Nat} (h : ∀ a ∈ read, a < 0x2000 ∨ 0x2000 + n ≤ a) :
    apart k n (byteSpot fun j => 0x2000 + j) read (holding k) := apart_from 0x2000 hk ha n h
theorem meets_copyPackets_bcastBytes : apart bp 8 (byteSpot fun j => towerKey 0 0 + j) (List.range' 0x1000 8) (holding bp) ∧
    (∀ j : Fin 8, readable bp (bp.op 0) ((wf bp.c.w2 0 48 : Int) + j) 1 [0x1000 + j] (holding bp)) :=
  ⟨apart_from _ rfl rfl 8 (by decide), by unfold readable; decide +kernel⟩
def spot1 (a : Nat) : Spot := { p := 0, keys := [a], half := 0 }
/-- COPY4D of two elements; GATHER of the row that index 0 at 0x3000 names, and, past the rows of its source, of no row. -/
def cp4 : Pkt := pkt tCOPY4D { packet0 with w4 := 0x1000100010002 } [src2, dst2]
def idx3 : Entry := ⟨0x3000, 0x100000001, 0x10000000000, 0x40000000000, 0x70007⟩
def gat : Pkt := pkt tGATHER { packet0 with w2 := 0x100000000 } [src2, dst2, idx3]
theorem meets_copyPackets_copy4d : (holding cp4).runnable ⟨0, 0, 0, 0⟩ tCOPY4D = some cp4 ∧ cp4.vals = [] ∧
    (∀ j : Fin 2, readsAt cp4 (cp4.op 0) (((j.val : Nat) : Int), 0, 0) (some (spot1 (0x1000 + j))) (holding cp4) ∧
      writesAt cp4 (cp4.op 1) (((j.val : Nat) : Int), 0, 0) (byteSpot (fun j => 0x2000 + j) j) (holding cp4)) ∧
    apart cp4 2 (byteSpot fun j => 0x2000 + j) [0x1000, 0x1001] (holding cp4) := by
  refine ⟨by decide, rfl, fun j => ?_, apart_bytes rfl rfl 2 (by decide)⟩
  refine ⟨⟨(j.val : Int), ?_, ?_⟩, (j.val : Int), ?_, ?_, ?_⟩ <;> revert j <;> (try unfold readable) <;> (try unfold writable) <;> decide +kernel
theorem meets_copyPackets_gather : (holding gat).runnable ⟨0, 0, 0, 0⟩ tGATHER = some gat ∧ (gat.op 2).bits = 32 ∧ (gat.op 0).ext0 = 2 ∧
    readsAt gat (gat.op 2) (0, 0, 0) (some { p := 0, keys := [0x3000, 0x3001, 0x3002, 0x3003], half := 0 }) (holding gat) ∧
    (∀ j : Fin 2, readsAt gat (gat.op 0) (((j.val : Nat) : Int), 0, 0) (some (spot1 (0x1000 + j))) (holding gat)) ∧
    (gat.op 0).locate false 0 9 0 = .error cBOUNDS ∧
    apart gat 2 (byteSpot fun j => 0x2000 + j) [0x3000, 0x3001, 0x3002, 0x3003, 0x1000, 0x1001] (holding gat) := by
  refine ⟨by decide, by decide, by decide, ⟨0, by decide, ?_⟩, fun j => ⟨(j.val : Int), ?_, ?_⟩, by decide,
    apart_bytes rfl rfl 2 (by decide)⟩
  · unfold readable; decide +kernel
  · revert j; decide
  · revert j; unfold readable; decide +kernel
/-- GRIDC of one FP32 element without halo. -/
def flt (a : Word) : Entry := ⟨a, 0x100000001, 0x10000000004, 0x110000000004, 0x70007⟩
def grd : Pkt := pkt tGRIDC packet0 [flt 0x1000, flt 0x2000]
theorem meets_copyPackets_grid : (holding grd).runnable ⟨0, 0, 0, 0⟩ tGRIDC = some grd ∧ (grd.op 0).bits = 32 ∧
    (∀ d : Fin 3, (grd.op 0).ext d = 1 ∧ (grd.op 1).ext d = 1 ∧ grd.c.halo d = 0) ∧ elTy (grd.op 1).fmt = some (.f Num.fp32) ∧
    readable grd (grd.op 0) 0 4 [0x1000, 0x1001, 0x1002, 0x1003] (holding grd) ∧
    writable grd (grd.op 1) 0 4 [0x2000, 0x2001, 0x2002, 0x2003] (holding grd) ∧
    apart grd 1 (fun _ => some ({ p := 0, keys := [0x2000, 0x2001, 0x2002, 0x2003], half := 0 }, 32)) [] (holding grd) := by
  refine ⟨by decide, by decide, by decide, by decide, ?_, ?_, rfl, rfl, memOk_holding _, rfl, fun j y hj hy => ?_⟩
  · unfold readable; decide +kernel
  · unfold writable; decide +kernel
  · obtain rfl : _ = y := Option.some.inj hy
    exact ⟨by decide, by decide, by decide, fun j' y' hj' hne _ => by omega⟩
/-- EBZ of one zero: its one block is one byte; the destination has room for 32 bytes, or for 16. EBX of that stream. -/
def room (n : Nat) : Entry := ⟨0x2000, BitVec.ofNat 64 (2 ^ 32 + n), 0x10000000000, 0x10000000000, 0x70007⟩
def ebz (n : Nat) : Pkt := pkt tEBZ packet0 [flt 0x1000, room n]
def stream0 : List Byte := leBytes 2 0x4542 ++ leBytes 1 1 ++ leBytes 1 0x11 ++ leBytes 2 0 ++ leBytes 2 0 ++ leBytes 4 1 ++ leBytes 4 17 ++ [0]
def ebx : Pkt := pkt tEBX packet0 [⟨0x1000, 0x100000020, 0x10000000000, 0x10000000000, 0x70007⟩, flt 0x2000]
theorem meets_codedBlock (b : Bool) : codedBlock 4 1 (fun _ => 0) (fun _ => false) (fun _ => 0) b [0] :=
  ⟨0, false, [], [], by decide, by decide, by decide, fun _ => ⟨by decide, .inl rfl⟩, rfl, rfl, rfl, rfl, rfl⟩
theorem meets_copyPackets_ebz : (holding (ebz 32)).runnable ⟨0, 0, 0, 0⟩ tEBZ = some (ebz 32) ∧ ((ebz 32).op 0).count = 1 ∧
    ((ebz 32).op 1).spanSize = 32 ∧ ((ebz 16).op 1).spanSize = 16 ∧ (stream0.length = 17) ∧
    readable (ebz 32) ((ebz 32).op 0) 0 4 [0x1000, 0x1001, 0x1002, 0x1003] (holding (ebz 32)) ∧
    (∀ j : Fin 17, writable (ebz 32) ((ebz 32).op 1) ((j.val : Nat) : Int) 1 [0x2000 + j] (holding (ebz 32))) ∧
    apart (ebz 32) 17 (byteSpot fun j => 0x2000 + j) [] (holding (ebz 32)) := by
  refine ⟨by decide, by decide, by decide, by decide, by decide, ?_, ?_, apart_bytes rfl rfl 17 (by decide)⟩
  · unfold readable; decide +kernel
  · unfold writable; decide +kernel
def streaming : State := { holding ebx with mem := memWrite tiny.mem 0x1000 stream0 }
theorem meets_copyPackets_ebx : streaming.runnable ⟨0, 0, 0, 0⟩ tEBX = some ebx ∧ (ebx.op 0).spanSize = 32 ∧ (ebx.op 1).count = 1 ∧
    readable ebx (ebx.op 0) 0 16 (List.range' 0x1000 16) streaming ∧ readable ebx (ebx.op 0) 16 1 [0x1010] streaming ∧
    (List.range' 0x1000 16).map (memGet streaming.mem) = stream0.take 16 ∧ [0x1010].map (memGet streaming.mem) = [0] ∧
    writable ebx (ebx.op 1) 0 4 [0x2000, 0x2001, 0x2002, 0x2003] streaming ∧ (stream0 ≠ List.replicate 17 0) := by
  unfold readable writable; decide +kernel
/-- CRED and CGATH with a code latched. -/
def latchedPkt (ty : Nat) : Pkt := { pkt ty packet0 [flt 0x1000, if ty = tCRED then flt 0x2000 else room 1] with
  st := .begun, vals := [some [7]] }
theorem meets_copyPackets_latched : (∀ ty ∈ [tCRED, tCGATH], (holding (latchedPkt ty)).runnable ⟨0, 0, 0, 0⟩ ty = some (latchedPkt ty)) ∧
    writable (latchedPkt tCRED) ((latchedPkt tCRED).op 1) (((latchedPkt tCRED).op 1).nth 0).1 4 [0x2000, 0x2001, 0x2002, 0x2003]
      (holding (latchedPkt tCRED)) ∧
    writable (latchedPkt tCGATH) ((latchedPkt tCGATH).op 1) (((latchedPkt tCGATH).op 1).spanLow + (0 : Nat)) 1 [0x2000] (holding (latchedPkt tCGATH)) ∧
    apart (latchedPkt tCGATH) 1 (byteSpot fun j => 0x2000 + j) [] (holding (latchedPkt tCGATH)) := by
  refine ⟨by decide, ?_, ?_, apart_bytes rfl rfl 1 (by decide)⟩ <;> unfold writable <;> decide +kernel

/-- A queue entered with its header at 0x20000; halted at its packet 0; with a packet of its own running. -/
def entered0 (c : Cew) (ks : List Pkt) : State := { posted.modDie 0 (fun d => { d with cew := [(0, c)], pkts := ks }) with ev := { a := 0, v := 0x20000 } }
theorem meets_copyQueues_enters : (entered0 { cew0 with halt := true } []).sameQueue 0 0 0x20000 0 = some { cew0 with halt := true } ∧
    (entered0 cew0 []).sameQueue 0 0 0x20000 0 = none ∧ (entered0 { cew0 with hdr := 0x30000 } [dp]).sameQueue 0 0 0x20000 0 = none ∧
    (entered0 { cew0 with hdr := 0x30000 } [dp]).busyQueue 0 0 0 = true ∧ cew0.ent ≠ (entered0 cew0 []).nid + 1 ∧
    wf (0x20000 : Word) 6 42 * 64 = cew0.hdr := by decide
/-- A packet that completes with a barrier and a flag; one whose status is not OK. -/
def dpB (st : Nat) : Pkt := { dp with c := { dp.c with w0 := dp.c.w0 + BitVec.ofNat 64 (3 * 2 ^ 22), w6 := 0x5000, w7 := 0x6000 }, st := .ended st 0 0 }
theorem meets_copyQueues_barrier : (holding (dpB cOK)).findPkt ⟨0, 0, 0, 0⟩ = some (dpB cOK) ∧ (dpB cOK).c.withBarrier = true ∧
    (dpB cOK).c.withFlag = true ∧ (holding (dpB cOK)).completionKey (dpB cOK) 0x5000 = .ok 0x5000 ∧
    (holding (dpB cOK)).consumesN 0x5000 8 = none ∧ ((holding (dpB cOK)).completionOk 0 0x6000 8).toOption.isSome = true ∧
    ((holding (dpB cOK)).flagKey (dpB cOK)).toOption = some (some 0x6000) ∧
    ((holding (dpB cOK)).headerWrite cew0 16 1).toOption.isSome = true ∧
    ((holding (dpB cBOUNDS)).headerFlags cew0 (BitVec.ofNat 64 (2 ^ 10)) 0).toOption.isSome = true ∧
    ((holding (dpB cBOUNDS)).statusWrite (dpB cBOUNDS) cBOUNDS 0).toOption.isSome = true := by decide +kernel
/-- A halted queue whose header has HALT set. -/
def haltedQ : Cew := { cew0 with halt := true, bad := some 0 }
def haltedPkt : Pkt := pktOf tCOPY (.halted cPOISON 0)
def haltedS : State := { entered0 haltedQ [haltedPkt] with mem := memWrite posted.mem 0x20018 (leBytes 8 0x202) }
theorem meets_copyQueues_retry : (haltedS.cew 0 0).halt = true ∧ (haltedS.cew 0 0).unread = false ∧ (haltedS.cew 0 0).bad = some 0 ∧
    haltedS.devWord 0 0x20018 needCR = .ok 0x202 ∧ haltedS.devKeys 0 0x20018 8 needCW accWrite = .ok (List.range' 0x20018 8) ∧
    (let u := haltedS.writeKeys (List.range' 0x20018 8) (leBytes 8 2)
     u.devRead 0 0x20000 64 needCR = .ok (queueHdr 0) ∧ (u.headerWrite haltedQ 16 1).toOption.isSome = true) ∧
    headerBad (bytesWords (queueHdr 0)) = false ∧ haltedQ.done ∉ haltedQ.late ∧
    (∀ j ∈ (haltedS.die 0).pkts, j.id.cew = 0 → j.id.ent = 0 → j.id ≠ ⟨0, 0, 0, 0⟩ → j.haltOf = none) ∧
    haltedPkt.st = .halted cPOISON 0 ∧ haltedPkt.stuck = none ∧ memOk haltedS ∧
    ({ haltedQ with unread := true } : Cew).unread = true := by unfold memOk; decide +kernel
/-- A collective of one shard: its inputs are one element each, FP32 for CRED. -/
def one (ty : Nat) : Pkt := { pkt ty { packet0 with w3 := 1 } [flt 0x1000, flt 0x2000] with st := .waiting }
theorem meets_copyQueues_begins : ∀ ty ∈ [tCRED, tCGATH], (holding (one ty)).instanceReady = some [one ty] ∧ disagree [one ty] = false ∧
    (holding (one ty)).findPkt (one ty).id = some (one ty) ∧ byShard [one ty] = [one ty] ∧ ((one ty).op 0).count = 1 ∧
    readable (one ty) ((one ty).op 0) (((one ty).op 0).nth 0).1 4 [0x1000, 0x1001, 0x1002, 0x1003] (holding (one ty)) ∧
    (∀ i : Fin 4, readable (one ty) ((one ty).op 0) (((one ty).op 0).spanLow + (i.val : Nat)) 1 [0x1000 + i] (holding (one ty))) ∧
    instanceOf [one ty] 1 = [one ty] ∧ elTy ((one ty).op 1).fmt = some (.f Num.fp32) := by
  unfold readable; decide +kernel

/-- The scheduler's commands that enqueue: DEC of an entry at 1, and NODE with PRED 0. -/
theorem meets_schedulerCommands_enqueues : ((entry .waiting 1).die 0).sched.tab.find 5 = some ⟨⟨0, 0, 0, 0⟩, 1, [], .waiting⟩ ∧
    ((entry .waiting 0).die 0).sched.tab.find 5 = some ⟨⟨0, 0, 0, 0⟩, 0, [], .waiting⟩ ∧
    (let u := (entry .waiting 1).cmdWrite 0 ((entry .waiting 1).cmdHeader 0 + 8) 1
     (u.checkLaunch 0 ⟨0, 0, 0, 0⟩).toOption.isSome = true ∧ (u.checkLaunch 0 ⟨1, 0, 0, 0⟩).toOption.isSome = false ∧
     (u.die (u.queueDie 0 0 ⟨0, 0, 0, 0⟩)).sched.late = [] ∧ (u.die 0).sched.chipCount 0 < 256 ∧ (u.die 0).sched.ringCount 0 = 0) ∧
    wf (5 : Word) 16 16 = 0 ∧ plainCommand (plain (2 ^ 63 + 1)) = true ∧ wf ((2 : Word) ^ 63 + 1) 63 1 = 1 ∧
    wf ((2 : Word) ^ 63 + 1) 9 54 = 0 ∧ 1 ∈ tiny.ranksOf 0 ∧ tiny.gangOf 1 = none ∧
    (tiny.devRead 0 (tiny.block 0) 64 needR).toOption = some (List.replicate 64 0) ∧
    (State.reset.devRead 0 0 64 needR).toOption.isSome = false := by decide +kernel
/-- An armed gang holds ranks 1 and 2. -/
def armed : State := { (tiny.modCtl 1 fun c => { c with mode := .held 1 }).modCtl 2 (fun c => { c with mode := .held 1 }) with
  gangs := [{ id := 1, part := 0, die := 0, record := rec0, members := [1, 2], held := [1, 2], start := some 9 }] }
theorem meets_schedulerCommands_gang : armed.gangs.map (fun g => (g.started, g.held)) = [(false, [1, 2])] ∧
    (∀ m ∈ [1, 2], (armed.har m).ctl.draining = false ∧ (armed.har m).ctl.fencing = false) ∧
    (ganged [0, 1]).gangOf 0 ≠ none ∧ (∀ g ∈ (ganged [0, 1]).gangs, ¬(g.started = false ∧ 0 ∈ g.held)) := by decide
/-- A record of priority 7 pinned to rank 0, which runs a node of priority 0. -/
def urgent : State := tiny.modSched 0 fun q =>
  { q with pdelta := 1, ready := [{ rec0 with cont := ⟨0x5000, 0, 0, 7 + 2 ^ 16⟩ }] }
theorem meets_schedulerEvents_auto : urgent.autoDue 0 = some (0, 0) := by decide
/-- A saved record whose area at 0x5580 is zero, and thus defective, or holds k0. -/
def saved0 (bs : List Byte) : State := { tiny.modSched 0 (fun q => { q with ready := [{ rec0 with cont := savingCont, saved := true }] }) with
  mem := memWrite tiny.mem (0x5580 + 0x200) bs }
def area (bs : List Byte) : List Byte := (List.range' 0x5580 10880).map (memGet (saved0 bs).mem)
theorem devRead_saved (bs : List Byte) (hb : bs.length = 1) : (saved0 bs).devRead 0 (saveAt savingCont.fp) 10880 needR = .ok (area bs) := by
  have m : mapped 0 (saved0 bs) := by
    refine ⟨by show (tiny.part 0).xlroot = _; decide, ?_, by show pteKind tiny 1 0x3D = 0; decide⟩
    show Except.ok (BitVec.ofNat 64 (leNat (memRead (memWrite tiny.mem (0x5580 + 0x200) bs) 0x10000 8))) = _
    rw [memRead_memWrite_other (by decide) (by rw [hb]; exact .inr (by decide))]; decide
  have c : ∀ k, (saved0 bs).consumes k = none := by
    intro k
    unfold State.consumes
    show (if isHbm k then (if (isHbm k && [].any _) || [].contains (k / 64) then _ else if false then _ else none)
      else if [].contains (k / 64) || false then _ else none) = _
    simp
  have f : ∀ ks : List Nat, (ks.findSome? fun k => ((saved0 bs).consumes k).map fun c => (k, c)) = none := by
    intro ks; simp [c]
  unfold State.devRead
  rw [devKeys_mapped m (by decide) (by decide)]
  simp only [f]
  rfl
theorem meets_schedulerEvents_resume : (saved0 [1]).chooser = some 1 ∧
    (saved0 [1]).choose 1 = some { rec0 with cont := savingCont, saved := true } ∧ launchGang rec0.launch = false ∧
    (saved0 [1]).devRead 0 (saveAt savingCont.fp) 10880 needR = .ok (area [1]) ∧ areaWord (area [1]) 0x200 = 1 ∧
    areaWord (area [1]) 0 = 0 ∧ areaWord (area [1]) 0x238 = 0 ∧
    (∀ p : Fin 4, areaWord (area [1]) (0x240 + 16 * p) = 0 ∧ areaWord (area [1]) (0x248 + 16 * p) = 0) ∧
    (saved0 [0]).devRead 0 (saveAt savingCont.fp) 10880 needR = .ok (area [0]) ∧ areaWord (area [0]) 0x200 = 0 :=
  ⟨by decide, by decide, by decide, devRead_saved _ rfl, by decide +kernel, by decide +kernel, by decide +kernel, by decide +kernel,
    devRead_saved _ rfl, by decide +kernel⟩

theorem meets_privilegedWrites_watch : wf (0x4000000000000000 : Word) 61 2 = 2 ∧ wf (0x2000000000000000 : Word) 61 2 = 1 ∧
    wf ((1 : Word) <<< 63) 63 1 = 1 ∧ wf ((1 : Word) <<< 63) 61 2 = 0 ∧ 5 / 128 = 0 ∧ (0x340 + 63 : Nat) = 0x37F ∧
    (haltedS.cew 0 0).halt = true := by decide
theorem meets_bankEvents_spent : (let s := tiny.modHar 0 fun h => { h with tref := [⟨[4], none, 1, []⟩, ⟨[], none, 2, []⟩] }
    (s.har 0).tref = [⟨[4], none, 1, []⟩] ++ ⟨[], none, 2, []⟩ :: [] ∧ ∀ y ∈ [(⟨[4], none, 1, []⟩ : Tref)], ¬(y.bank = none ∧ y.left = [])) := by
  decide
/-- The console's ring is full; a byte waits. -/
theorem meets_hostAndLinks_waiting : (let s := { tiny with ev := { a := 0, bytes := [65] }, consoleIn := [(1, 66), (0, 67)], mem := memWrite tiny.mem 0xAB10 (leBytes 8 448) }
    s.devWord 0 ((s.console 0 + 0x2B10) % 2 ^ 48) needR = .ok 448 ∧ 448 ≤ ((448 : Word) - 0).toNat ∧
    s.consoleIn = [(1, 66)] ++ (0, 67) :: [] ∧ (∀ z ∈ [((1 : Nat), (66 : Byte))], z.1 ≠ 0)) := by decide
/-- A flit that acknowledges the one that stands in the replay buffer, and an idle one that says nothing new. -/
def flitOf (kd q a : Nat) : List Byte :=
  let f := List.replicate 32 0 ++ leBytes 2 (kd * 2 ^ 12 + q) ++ leBytes 2 a
  f ++ leBytes 4 (crc32Ieee f)
def linked : State := { tiny with ppbind := [(0, 1 <<< 62)], links := [(0, { txSeq := 1, replay := [flitOf 2 0 0], acked := 0xFFF, rxSeq := 3 })] }
theorem meets_hostAndLinks_acknowledge : (flitOf 0 2 0xFFF).length = 40 ∧ leNat ((flitOf 0 2 0xFFF).drop 36) = crc32Ieee ((flitOf 0 2 0xFFF).take 36) ∧
    leNat (((flitOf 0 2 0xFFF).drop 32).take 2) / 2 ^ 12 = 0 ∧
    leNat (((flitOf 0 2 0xFFF).drop 32).take 2) % 2 ^ 12 = ((linked.links.getD 0 {}).rxSeq - 1).toNat ∧
    (linked.links.getD 0 {}).acked.toNat = 0xFFF ∧
    (∀ g ∈ (linked.links.getD 0 {}).replay, leNat ((g.drop 32).take 2) % 2 ^ 12 ≠ 0xFFF) ∧ (linked.links.getD 0 {}).replay ≠ [] ∧
    (linked.links.getD 0 {}).replay = [] ++ flitOf 2 0 0 :: [] ∧ leNat (((flitOf 2 0 0).drop 32).take 2) % 2 ^ 12 = 0 ∧
    (linked.links.getD 0 {}).out = [] ∧ wf (linked.ppbind.getD 0 0) 62 1 = 1 ∧ leNat (((flitOf 1 3 0).drop 32).take 2) / 2 ^ 12 = 1 ∧
    leNat (((flitOf 1 3 0).drop 32).take 2) % 2 ^ 12 = (linked.links.getD 0 {}).rxSeq.toNat := by decide
/-- A block that has begun is fetched first, and then its words issue. -/
theorem meets_stepRunsDecoded_fetched : (let s (f : Bool) := { (running .v).modEng .v (fun x => { x with blk := some { blk0 with fetched := f } }) with phase := .v }
    ((s false).eng .v).blk.map (·.fetched) = some false ∧ ((s true).eng .v).blk.map (·.fetched) = some true ∧
    ((s true).har 0).ctl.enginesRun (s true).mcc = true ∧ ((s true).har 0).starts .v = none ∧ ((s true).eng .v).dropHead = none ∧
    ((s true).eng .v).retires = false ∧ ((s true).har 0).dueNow .v = false ∧ (s true).remote .v .vend = none) := by decide
/-- Records that wait for room: a command, and a SPAWN, waits for each. -/
def lateS (w : Waiter) : State := (tiny.modSched 0 fun q => { q with late := [(rec0, w)], cwait := some 0 }).modSeq 0 fun q =>
  { q with storeQ := [⟨.spawn cont0, 0, 0⟩] }
theorem meets_schedulerEvents_waiters : ∀ w ∈ [Waiter.cmd 0, .dec 0, .spawn 0, .none], (lateS w).lateReady 0 = some (rec0, w) ∧
    ((lateS w).modSched 0 fun q => { q with late := [] }).waits w = false ∧ ((lateS w).die 0).sched.cwait = some 0 := by decide
/-- The image of a class-1 firmware by its header alone; whether its root digest and signature pass is not shown by an example
(log entry 14). -/
def image1 : List Byte := leBytes 4 0x4C534948 ++ [1, 0, 0, 0] ++ leBytes 4 0 ++ leBytes 4 0 ++ leBytes 48 0 ++ List.replicate (64 + 29792) 0
theorem meets_bootStages_form : (let bs := image1
    bs.length = 64 + leNat ((bs.drop 16).take 8) + 64 + 29792 ∧ leNat ((bs.drop 0).take 4) = 0x4C534948 ∧ leNat ((bs.drop 4).take 1) = 1 ∧
    leNat ((bs.drop 6).take 2) = 0 ∧ leNat ((bs.drop 12).take 4) = 0 ∧ leNat ((bs.drop 32).take 32) = 0 ∧ bs ≠ []) := by decide +kernel
/-- A container of its signature alone: it has the form of R435, and the loader knows no key. -/
def container : List Byte := leBytes 4 0x4F564746 ++ leBytes 2 1 ++ leBytes 2 0 ++ leBytes 2 1 ++ leBytes 22 0 ++ leBytes 8 64 ++ leBytes 8 0 ++
  leBytes 8 (96 + 29792) ++ leBytes 8 0 ++ leBytes 2 0xFF ++ leBytes 6 0 ++ leBytes 8 96 ++ leBytes 8 29792 ++ leBytes 8 0 ++
  List.replicate 29792 0
theorem meets_containerLoads_form : containerOk container = true ∧ container.length = 96 + 29792 ∧
    leNat ((container.drop 64).take 2) = 0xFF ∧ leNat ((container.drop 80).take 8) = 29792 ∧
    ({ tiny with ev := { bytes := container } } : State).ev.keys[leNat ((container.drop 12).take 1)]? = none ∧
    leNat ((container.drop 32).take 8) = 64 ∧ leNat ((container.drop 48).take 8) = container.length := by decide +kernel

/-! ### Banks, loads on their way back, and what waits -/

/-- Every bank of rank 0 refreshes. -/
def shut (s : State) : State := s.modHar 0 fun h => { h with banks := (List.range 256).map fun k => (k, { st := .refresh, till := 100 }) }
theorem meets_loadsAndStoresIssue_unserved : (shut tiny).serves (loadAsker 0) (towerKey 0 0x200) = false ∧
    tiny.serves (loadAsker 0) (towerKey 0 0x200) = true ∧ isTower (towerKey 0 0x200) = true ∧ isTower 0x200 = false := by decide
/-- A load on its way back from a tower, due in cycle `at'`. -/
def backing (now : BitVec 64) (at' : Nat) : State :=
  { tiny.modSeq 0 (fun q => { q with back := [⟨4, 7, 1, 0, at'⟩], loadQ := [⟨5, .mem 0x200, 8, false, 1, 1, 0x200⟩] }) with mcc := now }
theorem meets_loadReturns_back : ((backing 9 8).har 0).seq.back = [] ++ ⟨4, 7, 1, 0, 8⟩ :: [] ∧ 8 ≤ (backing 9 8).mcc.toNat ∧
    (∀ b ∈ ((backing 0 8).har 0).seq.back, (backing 0 8).mcc.toNat < b.at') ∧ (∃ b ∈ ((backing 0 8).har 0).seq.back, b.epoch < 1) ∧
    ((backing 0 8).har 0).seq.storeQ = [] ∧ tiny.linkUp (peerPort (4 * 2 ^ 60)) = false := by decide
theorem meets_accessChecks_sizes : offset 0x5000000000000004 % 8 ≠ 0 ∧ offset 0x3000000000000001 % 2 ≠ 0 ∧ (4 : Nat) < 8 ∧
    space 0xF000000000000100 = 15 := by decide
theorem meets_bugle_named : (let s := (memberIs { arrived := true, own := true }).modSeq 0 fun q => { q with wait := { stage := 1, v := 5 } }
    (s.har 0).seq.wait.stage = 1 ∧ s.isMember (s.har 0).seq.wait.v.toNat = true ∧ s.isMember 6 = false ∧
    ((s.har 0).member 5).arrived = true) ∧
    (let s := { grouped with bugle := { grouped.bugle with asks := [(0, 5, 4), (1, 5, 4)] } }
     s.bugle.asks = [] ++ (0, 5, 4) :: [(1, 5, 4)] ∧ ∀ x ∈ [] ++ [((1 : Nat), (5 : Nat), (4 : BitVec 6))], x.1 ≠ 0) := by decide
theorem meets_engineControl_slips : ((tiny.modSeq 0 fun q => { q with wait := { stage := 1 } }).har 0).seq.wait.stage = 1 := by decide
theorem meets_returns_pending : (let s := returning 0 0 fun h => { h with ctl := { h.ctl with bf := some bf0 } }
    (s.har 0).ctl.bf = some bf0 ∧ (s.har 0).sp.prev = 0 ∧ (s.har 0).ctl.abort = none) ∧
    (let x := (returning 1 cXLATE_FAULT fun h => h.modEng .v fun x => { x with blk := some blk0 }).eng .v
     x.late = false ∧ x.blk = some blk0 ∧ blk0.fetched = false) ∧
    (let p : Pend := { age := 0, due := .free .load, effs := [.g 9 1], via := some 0x4000000000000000, lost := true }
     p.isFree = true ∧ p.lost = true) := by decide
/-- A word of V with vl = 0. -/
def emptied : State := (running .v).modHar 0 fun h => { h with vl := 0 }
theorem meets_vector_empty : (emptied.har 0).vl.toNat = 0 ∧ ready .v blk0 vw.gk vw.gn (vTakes vw) (vFill vw) emptied := by unfold ready; decide
/-- A result of T that comes through port 0, whose link is down; one that writes g9, which an instruction in issue writes. -/
def viaT (via : Option Word) (i : List (BitVec 6)) : State :=
  { (moving.modHar 0 fun h => h.modEng .t fun x => { x with pend := [{ age := 0, due := .free .load, effs := [.g 9 1], via := via }] }).modSeq 0
      (fun q => { q with inIssue := i }) with ev := { a := 0, e := .t } }
theorem meets_addressRegisters_links : (let p : Pend := { age := 0, due := .free .load, effs := [.g 9 1], via := some 0x4000000000000000 }
    (viaT p.via []).arrival 0 .t = some p ∧ (viaT p.via []).viaDown p = true) ∧
    (let p : Pend := { age := 0, due := .free .load, effs := [.g 9 1] }
     (viaT none [9]).arrives 0 .t .load = some p ∧ (viaT none [9]).arrival 0 .t = none ∧ .g 9 1 ∈ p.effs ∧
       9 ∈ ((viaT none [9]).har 0).seq.inIssue) := by decide
theorem meets_decoder_links : (let p := { decPend with via := some 0x4000000000000000 }
    let s := { (running .d).modHar 0 fun h => h.modEng .d fun x => { x with pend := [p] } with ev := { a := 0 } }
    s.arrives 0 .d .decode = some p ∧ s.viaDown p = true ∧ (∀ k, p.bar = some k → s.serves (decodeAsker 0) k.toNat = true) ∧
      ∀ i v, Eff.g i v ∉ p.effs) := by
  exact ⟨by decide, by decide, fun k h => by simp [decPend] at h, fun i v h => by simp [decPend] at h⟩
theorem meets_blockFlow_outer : (let b := { blk0 with loops := [⟨1, 3, 0, 4, 0, 0⟩, ⟨2, 3, 0, 0, 0, 0⟩] }
    b.loops = [⟨1, 3, 0, 4, 0, 0⟩] ++ ⟨2, 3, 0, 0, 0, 0⟩ :: [] ∧ ∀ l ∈ [(⟨1, 3, 0, 4, 0, 0⟩ : Loop)], l.last ≠ b.pc) := by decide
/-- A packet that has ended and has not yet asked the banks of its completion, and one that they have served. -/
theorem meets_copyQueues_asks : (let k := { dp with asked := false }
    (holding k).findPkt ⟨0, 0, 0, 0⟩ = some k ∧ k.stuck = none ∧ k.st = .ended cOK 0 0) ∧ dp.asked = true ∧ (holding dp).served dp.id = true ∧
    dp.brought = [] ∧ dp.source = [] := by decide
theorem meets_hostAndLinks_refuses : (let l : Link := { refused := [(3, 15)] }
    16 ≤ l.refused.getD 3 0 + 1 ∧ l.refused.getD 4 0 + 1 < 16) ∧ (flitOf 0 5 0).length = 40 ∧
    leNat ((flitOf 0 5 0).drop 36) = crc32Ieee ((flitOf 0 5 0).take 36) ∧ leNat (((flitOf 0 5 0).drop 32).take 2) / 2 ^ 12 = 0 ∧
    leNat (((flitOf 0 5 0).drop 34).take 2) < 2 ^ 12 := by decide
theorem meets_stepRunsDecoded_words : (let s (c : List (Option Nat)) := { (running .v).modEng .v (fun x =>
      { x with blk := some { blk0 with fetched := true, code := c } }) with phase := .v }
    ((s [some 0x7F00000000000000]).eng .v).blk.map (·.word) = some (some (some 0x7F00000000000000)) ∧
    ((s [none]).eng .v).blk.map (·.word) = some (some none) ∧ ((s []).eng .v).blk.map (·.word) = some none ∧
    decode .v 0x7F00000000000000 = .ok .vend) ∧
    ((tiny.modHar 0 fun h => { h with reply := 9 }).har 0).reply = 9 ∧ (lateS (.spawn 0)).waits (.spawn 0) = true ∧
    ((lateS (.spawn 0)).har 0).reply ≤ (lateS (.spawn 0)).mcc.toNat := by decide
/-- A word of T for the tower of rank 1. -/
theorem meets_stepRunsDecoded_remote : (let s := moving.modHar 0 fun h => { h with recs := [(4, [{ tower4 with w0 := 0x2001000000000000 }])] }
    s.remote .t (.tld tw) = some 1 ∧ s.second = false) := by decide
/-- A block of one end word at 0, fetched. -/
def endsAt0 : State := { running .v with mem := memWrite tiny.mem 0 (leBytes 8 0x7F00000000000000) }
theorem meets_stepRunsDecoded_block : (endsAt0.eng .v).blk = some blk0 ∧ blk0.holes = [] ∧ endsAt0.latent = [] ∧
    (endsAt0.fetchAt .v 0).toOption = some 0x7F00000000000000 ∧ endsBlock (fetchedEng .v 0x7F00000000000000) = true := by decide
/-- Containers of sections with their contents, and a signature. -/
def sec (ty off len : Nat) : List Byte := leBytes 2 ty ++ leBytes 6 0 ++ leBytes 8 off ++ leBytes 8 len ++ leBytes 8 0
def boxed (xs : List (Nat × List Byte)) : List Byte :=
  let n := xs.length + 1
  let first := 64 + 32 * n
  let body := xs.flatMap (·.2)
  leBytes 4 0x4F564746 ++ leBytes 2 1 ++ leBytes 2 0 ++ leBytes 2 n ++ leBytes 22 0 ++ leBytes 8 64 ++ leBytes 8 0 ++
    leBytes 8 (first + body.length + 29792) ++ leBytes 8 0 ++
    (xs.zipIdx.flatMap fun x => sec x.1.1 (first + ((xs.take x.2).map (·.2.length)).sum) x.1.2.length) ++
    sec 0xFF (first + body.length) 29792 ++ body ++ List.replicate 29792 0
def sectionsOk (c : List Byte) : Bool := containerOk c && match checkSections c (numAt c 8 2) 0 [] with
  | .ok _ => true
  | .error _ => false
def groupRec : List Byte := leBytes 8 7 ++ leBytes 64 3
def resource0 : List Byte := wordBytes [0, 0x100000010, 0x10000000000, 0x40000000000, 0x10000, BitVec.allOnes 64, 0, 0]
def reloc0 : List Byte := wordBytes [3 <<< 56, 8]
theorem meets_containerLoads_sections : sectionsOk (boxed [(0x0011, groupRec)]) = true ∧ sectionsOk (boxed [(0x0020, [1])]) = true ∧
    sectionsOk (boxed [(1, leBytes 8 0), (0x0012, leBytes 64 0)]) = true ∧ sectionsOk (boxed [(1, leBytes 8 0), (0x0013, reloc0)]) = true ∧
    sectionsOk (boxed [(5, leBytes 8 0), (0x0010, resource0)]) = true := by decide +kernel
theorem meets_containerLoads_loads : launchBad (packetOf ((List.range 8).map fun _ => 0)) = false ∧ (0 ∈ tiny.ranksOf 0) ∧
    wf ((3 : Word) <<< 56) 56 8 = 3 ∧ wf (8 : Word) 0 63 ≤ 8 ∧ (recOf 0 0x100000010 0x10000000000 0x40000000000).ok 0 = true ∧
    (recOf 0 0x100000010 0x10000000000 0x40000000000).spanSize = 64 ∧ wf (0x10000 : Word) 16 1 = 1 ∧ wf (0x10000 : Word) 0 16 = 0 ∧
    0 < (tabled.part 0).rtlim.toNat ∧ tabled.devWord 0 0x7020 needR = .ok 0 ∧ tabled.loadGen.find 0 = none ∧
    (tabled.devWrite 0 0x8000 (List.replicate 16 0) { w := true }).toOption.isSome = true ∧ (tiny.part 0).gtbase.toNat + 32768 ≤ 2 ^ 48 := by
  decide

/-! ### Worked examples of the spec -/

/-- 07 R230: the word of VPART.n32 v10, v9, v11, 3. -/
theorem test_decode_vpart : decode .v 0x580828900B000002 = .ok (.vpart { vFields 0 with ty := 8, vd := 10, va := 9, vc := 11, ext := 2 }) := by
  decide
/-- 16 R391: the walk of VA 0x4_8123_4567. -/
def walked : State := { tiny.modPart 0 fun p => { p with xlroot := 0x100001 } with
  mem := memWrite (memWrite (memWrite tiny.mem 0x100008 (leBytes 8 0x200003)) 0x200200 (leBytes 8 0x201003)) 0x201918
    (leBytes 8 0x000000030040000D) }
theorem test_walk : (walked.walk 0 0x481234567).toOption.map (fun l => l.pa 0x481234567) = some 0x300404567 ∧
    walked.xlate 0 0x481234567 { r := true, sup := true } accRead = .ok 0x300404567 ∧
    walked.xlate 0 0x481234567 { x := true, sup := true } accFetch =
      .error { code := cXLATE_FAULT, addr := 0x481234567, kind := 2, level := 3, acc := accFetch } := by decide
/-- 06 R184: a send of group 5 issued in cycle 1,030 departs in cycle 1,045. -/
theorem test_slotAfter : slotAfter 1030 5 = 1045 := by decide
/-- What V's first result leaves in register r of cell 0, as n elements of `size` bytes. -/
def landed (s : State) (r size n : Nat) : List Nat :=
  ((((s.eng .v).pend.head?.map (·.effs)).getD []).foldl Harness.apply (s.har 0)).velems 0 r size n
/-- 07 R230: the keys 2, 0, 1, 0, 5, 2, 0, 1 in three bins. -/
def parting : State := (running .v).modHar 0 fun h => { h with vl := 8, v := h.v.put 9 2048 0 (elemBytes 4 [2, 0, 1, 0, 5, 2, 0, 1]) }
def vpartWord : VWord := { vFields 0 with gn := true, ty := 8, vd := 10, va := 9, vc := 11, ext := 2 }
theorem test_vpart : landed (after (.vpart vpartWord) parting) 10 4 8 = [1, 3, 6, 2, 7, 0, 5, 0xFFFFFFFF] ∧
    landed (after (.vpart vpartWord) parting) 11 4 3 = [3, 2, 2] := by decide
/-- 07: the word of VFMA.f32.rne.sat.p-3 v4, v1, -v2, v3; 05: of DMMA.vf4.vf4.z a2, s0!, s1!, 0, 128, c4, c5. -/
theorem test_decode_vfma : decode .v 0x040110108321E800 =
    .ok (.vfma { vFields 0 with ty := 1, vd := 4, va := 1, vb := 2, vc := 3, nb := true, clamp := 1, p := 0b11101 }) := by decide
theorem test_decode_dmma : decode .d (0x030400BB8004022F * 2 ^ 64) = .ok (.dmma { mFields 0 with
    acc := 2, aslot := 0, bslot := 1, afmt := 7, bfmt := 7, ascl := 0, bscl := 128, ats := 4, bts := 5, zf := true, takea := true
    takeb := true }) := by decide
/-- 10: DTBL 3, v8; DSEEK 1, b6, c4; DDEC s2!, 1, b9. -/
theorem test_decode_decoder : decode .d (0x0C00020000000000 * 2 ^ 64 + 3) = .ok (.dtbl { dFields 0 with vreg := 8, imm := 3 }) ∧
    decode .d (0x0D00000640000000 * 2 ^ 64 + 1) = .ok (.dseek { dFields 0 with brec := 6, creg := 4, imm := 1 }) ∧
    decode .d (0x0B00200900000000 * 2 ^ 64 + 0x8000000000000005) =
      .ok (.ddec { dFields 0 with slot := 2, brec := 9, fild := true, imm := 5 }) := by decide
/-- 08: DREAD.bf16 v6!, a2!, c3; DLDT.bf16 s1!, v1!. 12: TXCH.w32 g32, v20!, e0. -/
theorem test_decode_conversions : decode .d (0x0604018031300000 * 2 ^ 64 + 0x9000000000000004) =
      .ok (.dread { dFields 0 with acc := 2, vreg := 6, creg := 3, fmt := 0x13, fild := true, tkc := true, imm := 4 }) ∧
    decode .d (0x0900104001300000 * 2 ^ 64 + 0xC000000000000000) =
      .ok (.dldt { dFields 0 with slot := 1, vreg := 1, fmt := 0x13, fild := true, tkv := true }) := by decide
theorem test_decode_txch : decode .t 0x0F05000400200020 = .ok (.txch { tFields 0 with reg := 20, take := true, ext := 2, imm := 32 }) := by
  decide

end Sys2Proof.Tests
end

section
/-! SUPPORT. Updates of one part of the state made one after the other, what an engine of a harness is after an update of it, and
the bits of a vector after `setBit`. -/

namespace Sys2Proof

/-- Of two values set at a key the later stays. -/
@[simp] theorem Table.set_set {α : Type} (t : Table α) (k : Nat) (x y : α) : (t.set k x).set k y = t.set k y := by
  induction t with
  | nil => simp [set]
  | cons p t ih =>
    obtain ⟨j, z⟩ := p
    by_cases hj : j = k
    · simp [set, hj]
    · by_cases hk : k < j <;> simp [set, hj, hk, ih]

end Sys2Proof

namespace Sys2Proof.Machine

open Sys2Proof.Safety

/-! ### Updates one after the other -/

@[simp] theorem State.setHar_setHar (s : State) (r : Nat) (h k : Harness) : (s.setHar r h).setHar r k = s.setHar r k := by
  simp [State.setHar]

@[simp] theorem State.modHar_modHar (s : State) (r : Nat) (f g : Harness → Harness) :
    (s.modHar r f).modHar r g = s.modHar r fun h => g (f h) := by
  simp [State.modHar_eq]

theorem State.modSeq_modSeq (s : State) (r : Nat) (f g : Seq → Seq) :
    (s.modSeq r f).modSeq r g = s.modSeq r fun q => g (f q) := by
  simp [State.modSeq]

/-! ### An engine of a harness -/

@[simp] theorem Harness.eng_setEng (h : Harness) (e : Eng) (x : EngSt) : (h.setEng e x).eng e = x := by cases e <;> rfl

theorem Harness.eng_setEng_other (h : Harness) {e f : Eng} (x : EngSt) (hf : f ≠ e) : (h.setEng e x).eng f = h.eng f := by
  cases e <;> cases f <;> simp_all [setEng, eng]

@[simp] theorem Harness.setEng_setEng (h : Harness) (e : Eng) (x y : EngSt) : (h.setEng e x).setEng e y = h.setEng e y := by
  cases e <;> rfl

@[simp] theorem Harness.setEng_eng (h : Harness) (e : Eng) : h.setEng e (h.eng e) = h := by cases e <;> rfl

theorem Harness.modEng_eq (h : Harness) (e : Eng) (f : EngSt → EngSt) : h.modEng e f = h.setEng e (f (h.eng e)) := rfl

@[simp] theorem Harness.setEng_seq (h : Harness) (e : Eng) (x : EngSt) : (h.setEng e x).seq = h.seq := by cases e <;> rfl
@[simp] theorem Harness.setEng_sp (h : Harness) (e : Eng) (x : EngSt) : (h.setEng e x).sp = h.sp := by cases e <;> rfl
@[simp] theorem Harness.setEng_ctl (h : Harness) (e : Eng) (x : EngSt) : (h.setEng e x).ctl = h.ctl := by cases e <;> rfl

theorem State.eng_eq (s : State) (e : Eng) : s.eng e = (s.har s.cur).eng e := rfl

theorem State.modEng_eq (s : State) (e : Eng) (f : EngSt → EngSt) :
    s.modEng e f = s.setHar s.cur ((s.har s.cur).setEng e (f (s.eng e))) := rfl

@[simp] theorem State.eng_modEng (s : State) (e : Eng) (f : EngSt → EngSt) : (s.modEng e f).eng e = f (s.eng e) := by
  simp [State.modEng_eq, State.eng_eq]

@[simp] theorem State.eng_setHar (s : State) (h : Harness) (e : Eng) : (s.setHar s.cur h).eng e = h.eng e := by
  simp [State.eng_eq]

/-- The number by which instructions name an engine. -/
@[simp] theorem engOf_engCode (e : Eng) : engOf (engCode e) = some e := by cases e <;> rfl

/-! ### Elements of a vector -/

theorem vector_getD_of_lt {α : Type} {n : Nat} (v : Vector α n) (x : α) {j : Nat} (hj : j < n) : v.getD j x = v[j] := by
  simp [Vector.getD, Array.getD, hj]

theorem vector_getD_set {α : Type} {n : Nat} (v : Vector α n) {i j : Nat} (hi : i < n) (hj : j < n) (a x : α) :
    (v.set i a).getD j x = if i = j then a else v.getD j x := by
  rw [vector_getD_of_lt _ _ hj, vector_getD_of_lt _ _ hj, Vector.getElem_set]

/-! ### Bits -/

theorem getLsbD_setBit {w : Nat} (x : BitVec w) (n m : Nat) (b : Bool) :
    (setBit x n b).getLsbD m = if m = n then decide (m < w) && b else x.getLsbD m := by
  have hone : (1#w <<< n).getLsbD m = decide (m < w ∧ m = n) := by
    rw [Bool.eq_iff_iff]
    simp only [BitVec.getLsbD_shiftLeft, BitVec.getLsbD_one, Bool.and_eq_true, decide_eq_true_eq, Bool.not_eq_true',
      decide_eq_false_iff_not]
    omega
  have hx : x.getLsbD m = true → m < w := fun h => BitVec.lt_of_getLsbD h
  rw [Bool.eq_iff_iff]
  cases b <;> simp only [setBit, Bool.false_eq_true, if_true, if_false, BitVec.getLsbD_or, BitVec.getLsbD_and,
    BitVec.getLsbD_not, hone] <;> split <;> simp_all

/-- A vector whose first n bits are set one after the other. -/
theorem getLsbD_foldl_setBit {w : Nat} (f : Nat → Bool) (x : BitVec w) {n i : Nat} (hi : i < n) (hn : n ≤ w) :
    ((List.range n).foldl (fun m i => setBit m i (f i)) x).getLsbD i = f i := by
  induction n with
  | zero => omega
  | succ n ih =>
    rw [List.range_succ, List.foldl_append, List.foldl_cons, List.foldl_nil, getLsbD_setBit]
    split
    · next h => subst h; simp; omega
    · exact ih (by omega) (by omega)

end Sys2Proof.Machine
end

section
/-! O17: the sequencer's control of the engines (01 R16, R19; 06 R188-R190). -/

namespace Sys2Proof.Machine

open Sys2Proof.Safety

/-- EXEC at its encoded engine and with its four or five arguments in range: it stalls while the engines are frozen and at the
slip bound, waits out the cycle after the oldest command retired, and else queues what it captures (06 R188). -/
theorem execExec_eq {s : State} {en : BitVec 2} {e : Eng} (n : Bool) (a : BitVec 6) (o : BitVec 16)
    (he : engOf en.toNat = some e) (hslot : s.inSlot = false) (ha : a.toNat ≤ if n then 59 else 60) :
    exec (.exec en n a o) s = .next (
      let h := s.har s.cur
      if h.ctl.frozen then s.stall
      else if (s.part (s.partOf s.cur)).slip.toNat ≤ h.ctl.issued - h.oldest then
        s.modSeq s.cur fun q => { q with stalled := true, wait := { stage := 1 } }
      else if h.seq.wait.stage = 1 then s.modSeq s.cur fun q => { q with stalled := true, wait := { stage := 2 } }
      else s.setHar s.cur { h.setEng e { h.eng e with queue := (h.eng e).queue ++ [h.capture n a.toNat o.toNat] } with
        seq := h.seq.advance, ctl := { h.ctl with issued := h.ctl.issued + 1 } }) := by
  have hbad : (s.inSlot || if n then decide (a.toNat > 59) else decide (a.toNat > 60)) = false := by
    cases n <;> simp_all
  simp only [exec, execExec, he, hbad, State.stall, State.modSeq_modSeq]
  simp only [Bool.false_eq_true, if_false, apply_ite Host.Outcome.next, State.retire_eq, Harness.modEng_eq,
    Harness.setEng_seq, Harness.window, ge_iff_le]

/-- The predicates that EXEC captures. -/
theorem capture_k (h : Harness) (n : Bool) (a o : Nat) {i : Nat} (hi : i < 8) :
    (h.capture n a o).k.getLsbD i = h.seq.rk (BitVec.ofNat 4 i) :=
  getLsbD_foldl_setBit (fun i => h.seq.rk (BitVec.ofNat 4 i)) 0 hi (by omega)

/-- Settles O17: each instruction's equation, and what EXEC captures field by field. -/
theorem engineControl : Obligations.EngineControl := by
  intro s e n d a x o r h q en arg hx
  have hen : engOf en.toNat = some e := by cases e <;> rfl
  have hxe : engOf x.toNat = some e := hx ▸ hen
  refine ⟨fun hslot ha => ?_, ⟨fun hd => ?_, fun hd => ?_⟩, ?_, ?_⟩
  · have hexec := execExec_eq n a o hen hslot ha
    refine ⟨fun hf => ?_, fun hf hw hst => ?_, fun hf hw => ?_, fun hf hw hst => ?_⟩
    · exact State.stall_stalls (hexec.trans (by rw [if_pos hf]))
    · rw [if_neg (by simp [h, r] at hf; simp [hf]), if_neg (Nat.not_le.mpr hw), if_neg hst] at hexec
      refine ⟨_, h.capture n a.toNat o.toNat, hexec, onlyHar_setHar .., State.har_setHar .., rfl, rfl, ?_⟩
      refine ⟨?_, ?_, ?_, ?_, rfl, ?_, rfl, rfl, rfl, rfl, fun i hi => capture_k h n _ _ hi⟩
      · simp [Harness.capture, Seq.rgN, arg, q]
      · rfl
      · rfl
      · rfl
      · rintro rfl
        rfl
    · rw [if_neg (by simp [h, r] at hf; simp [hf]), if_pos hw] at hexec
      exact ⟨_, hexec, onlySeq_modSeq .., by rw [State.modSeq_eq, State.har_setHar]⟩
    · rw [if_neg (by simp [h, r] at hf; simp [hf]), if_neg (Nat.not_le.mpr hw), if_pos hst] at hexec
      exact ⟨_, hexec, onlySeq_modSeq .., by rw [State.modSeq_eq, State.har_setHar]⟩
  · exact State.retire_passes (by simp only [exec, execEngwait, hxe]; exact if_pos hd)
  · exact State.stall_stalls (by simp only [exec, execEngwait, hxe]; exact if_neg (not_le.mpr hd))
  · exact State.toG_writes (by simp only [exec, execEngseq, hxe, ← BitVec.ofNat_toNat]; rfl)
  · exact ⟨_, rfl, onlyHar_modHar .., State.har_modHar .., by rw [State.retire_eq, State.har_setHar]; rfl⟩

end Sys2Proof.Machine
end

section
/-! Hardware loops and the words of a block that do nothing but end or go on (05 R148-R151). -/

namespace Sys2Proof.Machine

open Sys2Proof.Safety

/-! ### The walk over the active loops -/

/-- Loops that end at another word stand aside. -/
theorem loopWalk_append (e : Eng) {pc : Nat} {pre : List Loop} (ls : List Loop) (h : Harness) (hpre : ∀ l ∈ pre, l.last ≠ pc) :
    loopWalk e pc (pre ++ ls) h =
      ((loopWalk e pc ls h).1, pre ++ (loopWalk e pc ls h).2.1, (loopWalk e pc ls h).2.2) := by
  induction pre with
  | nil => rfl
  | cons l pre ih =>
    rw [List.cons_append, loopWalk, if_pos (hpre l List.mem_cons_self), ih fun l hl => hpre l (List.mem_cons_of_mem _ hl)]
    rfl

/-- A word at which no loop ends is followed by the next one. -/
theorem loopWalk_none (e : Eng) {pc : Nat} {ls : List Loop} (h : Harness) (hls : ∀ l ∈ ls, l.last ≠ pc) :
    loopWalk e pc ls h = (h, ls, pc + 1) := by
  have := loopWalk_append e [] h hls
  simpa [loopWalk] using this

/-- A write of e(i) is on its way that becomes visible with a loop's step of it (08 R278). -/
def Harness.stepsInFlight (h : Harness) (i : Nat) : Prop := ∃ p ∈ h.te.pend, ∃ j v, Eff.te j v ∈ p.effs ∧ j.toNat = i

/-- A loop's step on top of one part of a result. -/
def Eff.stepTe (i : Nat) (d : BitVec 48) : Eff → Eff
  | .te j w => if j.toNat = i then .te j (w + d) else .te j w
  | x => x

theorem Eff.stepTe_other (i : Nat) (d : BitVec 48) {y : Eff} (hy : ∀ j v, y ≠ .te j v) : y.stepTe i d = y := by
  cases y with
  | te j w => exact absurd rfl (hy j w)
  | _ => rfl

theorem Harness.stepE_test (h : Harness) (i : Nat) :
    (h.te.pend.any fun p => p.effs.any fun x => match x with
      | .te j _ => j.toNat == i
      | _ => false) = true ↔ h.stepsInFlight i := by
  simp only [List.any_eq_true, stepsInFlight]
  refine exists_congr fun p => and_congr_right fun _ => ⟨fun ⟨x, hx, hm⟩ => ?_, fun ⟨j, v, hm, hj⟩ => ⟨_, hm, by simpa using hj⟩⟩
  cases x with
  | te j v => exact ⟨j, v, hx, by simpa using hm⟩
  | _ => exact absurd hm Bool.false_ne_true

/-- The step of an e register that no write in flight names. -/
theorem Harness.stepE_idle {h : Harness} {i : Nat} (d : BitVec 48) (hi : ¬h.stepsInFlight i) :
    h.stepE i d = { h with e := h.e.setIfInBounds i (h.e.getD i 0 + d) } := by
  unfold stepE
  exact if_neg (mt (h.stepE_test i).mp hi)

/-- The step of an e register adds to the writes in flight that name it. -/
theorem Harness.stepE_inFlight {h : Harness} {i : Nat} (d : BitVec 48) (hi : h.stepsInFlight i) :
    h.stepE i d =
      { h with te := { h.te with pend := h.te.pend.map fun p => { p with effs := p.effs.map (Eff.stepTe i d) } } } := by
  have hf : (fun x : Eff => match x with
      | .te j w => if j.toNat = i then Eff.te j (w + d) else x
      | x => x) = Eff.stepTe i d := by
    funext x
    cases x <;> rfl
  unfold stepE
  rw [← hf]
  exact if_pos ((h.stepE_test i).mpr hi)

/-- A loop's step reads and writes no block. -/
theorem Harness.stepE_setBlk (h : Harness) (e : Eng) (i : Nat) (d : BitVec 48) (b : Option Block) :
    (h.modEng e fun x => { x with blk := b }).stepE i d = (h.stepE i d).modEng e fun x => { x with blk := b } := by
  have hs : (h.modEng e fun x => { x with blk := b }).stepsInFlight i ↔ h.stepsInFlight i := by cases e <;> rfl
  by_cases hi : h.stepsInFlight i
  · rw [stepE_inFlight d hi, stepE_inFlight d (hs.mpr hi)]
    cases e <;> rfl
  · rw [stepE_idle d hi, stepE_idle d (mt hs.mp hi)]
    cases e <;> rfl

/-- A loop's step changes of an engine at most the results in flight. -/
theorem Harness.stepE_eng (h : Harness) (e : Eng) (i : Nat) (d : BitVec 48) :
    (h.stepE i d).eng e = { h.eng e with pend := ((h.stepE i d).eng e).pend } := by
  by_cases hi : h.stepsInFlight i
  · rw [stepE_inFlight d hi]
    cases e <;> rfl
  · rw [stepE_idle d hi]
    cases e <;> rfl

/-- The e register that a loop steps as its body ends (05 R150). -/
def Loop.step (l : Loop) (h : Harness) : Harness := if l.stride = 0 then h else h.stepE l.se l.stride

theorem Loop.step_setBlk (l : Loop) (h : Harness) (e : Eng) (b : Option Block) :
    l.step (h.modEng e fun x => { x with blk := b }) = (l.step h).modEng e fun x => { x with blk := b } := by
  unfold step
  split
  · rfl
  · exact h.stepE_setBlk ..

theorem Loop.step_eng (l : Loop) (h : Harness) (e : Eng) :
    (l.step h).eng e = { h.eng e with pend := ((l.step h).eng e).pend } := by
  unfold step
  split
  · rfl
  · exact h.stepE_eng ..

/-- The innermost loop whose body ends here, its count not used up. -/
theorem loopWalk_again {e : Eng} {l : Loop} {ls : List Loop} {h : Harness}
    (hn : (h.eng e).lc.getD l.lv 0 - 1 ≠ 0) :
    loopWalk e l.last (l :: ls) h = ((l.step h).modEng e fun x => { x with
      lc := x.lc.setIfInBounds l.lv ((h.eng e).lc.getD l.lv 0 - 1) }, l :: ls, l.first) := by
  rw [loopWalk, if_neg (not_not.mpr rfl)]
  exact if_pos hn

/-- The innermost loop whose body ends here, in its last iteration. -/
theorem loopWalk_leave {e : Eng} {l : Loop} (ls : List Loop) {h : Harness}
    (hn : (h.eng e).lc.getD l.lv 0 - 1 = 0) :
    loopWalk e l.last (l :: ls) h = loopWalk e l.last ls ((l.step h).modEng e fun x => { x with
      lc := x.lc.setIfInBounds l.lv (BitVec.ofNat 32 l.n) }) := by
  rw [loopWalk, if_neg (not_not.mpr rfl)]
  exact if_neg (not_not.mpr hn)

theorem Harness.modEng_modEng (h : Harness) (e : Eng) (f g : EngSt → EngSt) :
    (h.modEng e f).modEng e g = h.modEng e fun x => g (f x) := by
  simp [modEng_eq]

/-- The walk reads and writes no block. -/
theorem loopWalk_setBlk (e : Eng) (pc : Nat) (ls : List Loop) (h : Harness) (b : Option Block) :
    loopWalk e pc ls (h.modEng e fun x => { x with blk := b }) =
      ((loopWalk e pc ls h).1.modEng e fun x => { x with blk := b }, (loopWalk e pc ls h).2) := by
  induction ls generalizing h with
  | nil => rfl
  | cons l ls ih =>
    by_cases hl : l.last = pc
    · subst hl
      have hlc : ((h.modEng e fun x => { x with blk := b }).eng e).lc = (h.eng e).lc := by simp [Harness.modEng_eq]
      by_cases hn : (h.eng e).lc.getD l.lv 0 - 1 = 0
      · rw [loopWalk_leave ls hn, loopWalk_leave ls (hlc ▸ hn), ← ih, l.step_setBlk, Harness.modEng_modEng, Harness.modEng_modEng]
      · rw [loopWalk_again hn, loopWalk_again (hlc ▸ hn), l.step_setBlk, Harness.modEng_modEng, Harness.modEng_modEng, hlc]
    · rw [loopWalk, loopWalk, if_pos hl, if_pos hl, ih]

/-! ### A word that has issued -/

/-- The word of a block has issued: the walk over its loops, then the next word and the occupancy. -/
theorem State.finishWord_eq {s : State} {e : Eng} {b : Block} (occ : Nat) (hb : (s.eng e).blk = some b) :
    s.finishWord e occ = s.setHar s.cur ((loopWalk e b.pc b.loops (s.har s.cur)).1.modEng e fun x => { x with
      blk := some { b with pc := (loopWalk e b.pc b.loops (s.har s.cur)).2.2, loops := (loopWalk e b.pc b.loops (s.har s.cur)).2.1 }
      busy := x.cyc + occ, skip := false, rows := [] }) := by
  have hb' : ((s.har s.cur).eng e).blk = some b := hb
  rw [State.finishWord, State.modHar_eq, hb']

/-- Where no loop body ends at the word, nothing but the engine's own place changes. -/
theorem State.finishWord_plain {s : State} {e : Eng} {b : Block} (occ : Nat) (hb : (s.eng e).blk = some b)
    (hl : ∀ l ∈ b.loops, l.last ≠ b.pc) :
    s.finishWord e occ = s.modEng e fun x => { x with
      blk := some { b with pc := b.pc + 1 }, busy := x.cyc + occ, skip := false, rows := [] } := by
  rw [State.finishWord_eq occ hb, loopWalk_none e _ hl]
  rfl

end Sys2Proof.Machine
end

section
/-! O45: loops, the words that end or do nothing, and the life of a block (05 R148-R151; 01 R17, R20, R21, R29). -/

namespace Sys2Proof.Machine

open Sys2Proof.Safety

theorem State.modEng_congr {s : State} {e : Eng} {f g : EngSt → EngSt} (h : f (s.eng e) = g (s.eng e)) :
    s.modEng e f = s.modEng e g := by
  rw [State.modEng_eq, State.modEng_eq, h]

/-- The word of an engine among three. -/
def pickWord (e : Eng) (v d t : Instr) : Instr := match e with | .v => v | .d => d | .t => t

theorem exec_nop (e : Eng) (s : State) : exec (pickWord e .vnop .dnop .tnop) s = .next (s.finishWord e 1) := by
  cases e <;> rfl

theorem exec_loop (e : Eng) (w : LWord) (s : State) : exec (pickWord e (.loopV w) (.loopD w) (.loopT w)) s = .next (s.loop e w) := by
  cases e <;> rfl

theorem exec_end (e : Eng) (s : State) : exec (pickWord e .vend .dend .tend) s = .next (s.endBlock e) := by
  cases e <;> rfl

/-! ### LOOP -/

/-- What the count field or the count register of a LOOP gives (05 R149). -/
def Harness.loopCount (h : Harness) (e : Eng) (w : LWord) : Nat :=
  if w.csrc then (h.scalar e w.creg.toNat).toNat else w.cimm.toNat

/-- A LOOP cannot stand inside the active loops, or its count is too large (05 R149, R151). -/
def loopNests (w : LWord) (b : Block) (cnt : Nat) : Prop :=
  (∃ l ∈ b.loops, l.lv = w.lv.toNat ∨ l.last < b.pc + 1 + w.lenm.toNat) ∨ w.csrc = true ∧ 2 ^ 32 ≤ cnt

theorem loopNests_iff (w : LWord) (b : Block) (cnt : Nat) :
    (b.loops.any (fun l => l.lv == w.lv.toNat) || b.loops.any (fun l => decide (l.last < b.pc + 1 + w.lenm.toNat)) ||
      (w.csrc && decide (cnt ≥ 2 ^ 32))) = true ↔ loopNests w b cnt := by
  simp only [loopNests, Bool.or_eq_true, Bool.and_eq_true, List.any_eq_true, beq_iff_eq, decide_eq_true_eq, ge_iff_le]
  refine or_congr_left ⟨?_, fun ⟨l, hl, h⟩ => h.imp (⟨l, hl, ·⟩) (⟨l, hl, ·⟩)⟩
  rintro (⟨l, hl, h⟩ | ⟨l, hl, h⟩)
  · exact ⟨l, hl, .inl h⟩
  · exact ⟨l, hl, .inr h⟩

theorem State.loop_bad {s : State} {e : Eng} {b : Block} {w : LWord} (hb : (s.eng e).blk = some b)
    (hs : (s.eng e).skip = false) (hw : loopBad w e = true) : s.loop e w = s.blockFaultC e cILLEGAL_INSTR := by
  simp [State.loop, hb, hs, hw]

theorem State.loop_nest {s : State} {e : Eng} {b : Block} {w : LWord} (hb : (s.eng e).blk = some b)
    (hs : (s.eng e).skip = false) (hw : loopBad w e = false) (hn : loopNests w b ((s.har s.cur).loopCount e w)) :
    s.loop e w = s.blockFaultC e cLOOP_NEST := by
  simp only [State.loop, hb, hs, hw, Bool.false_eq_true, if_false]
  exact if_pos ((loopNests_iff ..).mpr hn)

/-- A count that LOOP accepts stands in a loop counter. -/
theorem loopCount_lt {h : Harness} {e : Eng} {w : LWord} {b : Block} (hn : ¬loopNests w b (h.loopCount e w)) :
    h.loopCount e w < 2 ^ 32 := by
  by_cases hc : w.csrc = true
  · exact Nat.lt_of_not_le fun h => hn (.inr ⟨hc, h⟩)
  · have := w.cimm.isLt
    simp only [Harness.loopCount, if_neg hc]
    omega

theorem State.loop_enters {s : State} {e : Eng} {b : Block} {w : LWord} (hb : (s.eng e).blk = some b)
    (hs : (s.eng e).skip = false) (hw : loopBad w e = false) (hn : ¬loopNests w b ((s.har s.cur).loopCount e w)) :
    let cnt := (s.har s.cur).loopCount e w
    s.loop e w = s.modEng e fun x => { x with
      lc := x.lc.setIfInBounds w.lv.toNat (BitVec.ofNat 32 cnt), busy := x.cyc + 1
      blk := some (if cnt = 0 then { b with pc := b.pc + 1 + w.lenm.toNat + 1 } else
        { b with pc := b.pc + 1, loops := { lv := w.lv.toNat, n := cnt, first := b.pc + 1, last := b.pc + 1 + w.lenm.toNat,
                                            se := w.se.toNat, stride := w.stride.signExtend 48 } :: b.loops }) } := by
  intro cnt
  have hlt : cnt < 2 ^ 32 := loopCount_lt hn
  have hzero : (BitVec.ofNat 32 cnt = 0) ↔ cnt = 0 := by
    rw [← BitVec.toNat_inj, BitVec.toNat_ofNat, Nat.mod_eq_of_lt hlt]
    rfl
  simp only [State.loop, hb, hs, hw, Bool.false_eq_true, if_false]
  refine (if_neg (mt (loopNests_iff ..).mp hn)).trans ?_
  change (if BitVec.ofNat 32 cnt = 0 then _ else _) = _
  by_cases h0 : cnt = 0
  · rw [if_pos (hzero.mpr h0)]
    exact State.modEng_congr (by simp [h0, hs])
  · rw [if_neg (mt hzero.mp h0)]
    exact State.modEng_congr (by simp only [if_neg h0, hs]; rfl)

/-! ### The end of a loop's body -/

/-- Where no loop body ends at a word that is not skipped, the block goes on with the next one. -/
theorem State.finishWord_next {s : State} {e : Eng} {b : Block} (occ : Nat) (hb : (s.eng e).blk = some b)
    (hs : (s.eng e).skip = false) (hl : ∀ l ∈ b.loops, l.last ≠ b.pc) :
    s.finishWord e occ = s.modEng e fun x => { x with blk := some { b with pc := b.pc + 1 }, busy := x.cyc + occ, rows := [] } := by
  rw [State.finishWord_plain occ hb hl]
  exact State.modEng_congr (by rw [hs])

/-- The innermost loop whose body ends at the word goes back to its first word. -/
theorem State.finishWord_again {s : State} {e : Eng} {b : Block} {pre ls : List Loop} {l : Loop} (occ : Nat)
    (hb : (s.eng e).blk = some b) (hs : (s.eng e).skip = false) (hloops : b.loops = pre ++ l :: ls)
    (hpre : ∀ l ∈ pre, l.last ≠ b.pc) (hl : l.last = b.pc) (hn : (s.eng e).lc.getD l.lv 0 - 1 ≠ 0) :
    s.finishWord e occ = (s.modHar s.cur l.step).modEng e fun x => { x with
      blk := some { b with pc := l.first }, busy := x.cyc + occ, rows := []
      lc := x.lc.setIfInBounds l.lv ((s.eng e).lc.getD l.lv 0 - 1) } := by
  have hwalk : loopWalk e b.pc b.loops (s.har s.cur) = ((l.step (s.har s.cur)).modEng e fun x => { x with
      lc := x.lc.setIfInBounds l.lv ((s.eng e).lc.getD l.lv 0 - 1) }, b.loops, l.first) := by
    rw [hloops, loopWalk_append e _ _ hpre, ← hl, loopWalk_again hn]
    rfl
  have hskip : ((l.step (s.har s.cur)).eng e).skip = false := by rw [l.step_eng]; exact hs
  rw [State.finishWord_eq occ hb, hwalk]
  simp [State.modHar_eq, State.modEng_eq, Harness.modEng_eq, hskip]

/-- In its last iteration the loop is left, its count restored: the word ends as without it. -/
theorem State.finishWord_leave {s : State} {e : Eng} {b : Block} {pre ls : List Loop} {l : Loop} (occ : Nat)
    (hb : (s.eng e).blk = some b) (hloops : b.loops = pre ++ l :: ls)
    (hpre : ∀ l ∈ pre, l.last ≠ b.pc) (hl : l.last = b.pc) (hn : (s.eng e).lc.getD l.lv 0 - 1 = 0) :
    s.finishWord e occ = ((s.modHar s.cur l.step).modEng e fun x => { x with
      blk := some { b with loops := pre ++ ls }, lc := x.lc.setIfInBounds l.lv (BitVec.ofNat 32 l.n) }).finishWord e occ := by
  let put := fun x : EngSt => { x with lc := x.lc.setIfInBounds l.lv (BitVec.ofNat 32 l.n) }
  let left := { b with loops := pre ++ ls }
  let u := (s.modHar s.cur l.step).modEng e fun x => { put x with blk := some left }
  have hu : u.har s.cur = ((l.step (s.har s.cur)).modEng e put).modEng e fun x => { x with blk := some left } := by
    simp [u, State.modEng_eq, State.eng_eq, State.modHar_eq, Harness.modEng_eq]
  have hub : (u.eng e).blk = some left := by simp [u]
  have hwalk : loopWalk e b.pc b.loops (s.har s.cur) =
      loopWalk e b.pc left.loops ((l.step (s.har s.cur)).modEng e put) := by
    rw [hloops, loopWalk_append e _ _ hpre, loopWalk_append e _ _ hpre, ← hl, loopWalk_leave ls hn]
  change _ = u.finishWord e occ
  rw [State.finishWord_eq occ hb, State.finishWord_eq occ hub, hwalk]
  change _ = u.setHar s.cur _
  rw [show u.har u.cur = _ from hu, loopWalk_setBlk]
  simp [u, State.modEng_eq, State.modHar_eq, Harness.modEng_eq, left]

/-! ### End words and words without an encoding -/

theorem State.endBlock_nest {s : State} {e : Eng} {b : Block} (hb : (s.eng e).blk = some b) (hs : (s.eng e).skip = false)
    (hl : b.loops ≠ []) : s.endBlock e = s.blockFaultC e cLOOP_NEST := by
  simp [State.endBlock, hb, hs, hl]

theorem State.endBlock_ends {s : State} {e : Eng} {b : Block} (hb : (s.eng e).blk = some b) (hs : (s.eng e).skip = false)
    (hl : b.loops = []) :
    s.endBlock e = s.modEng e fun x => { x with blk := none, ended := x.ended ++ [b.cmd], busy := x.cyc + 1 } := by
  simp only [State.endBlock, hb, hl, List.isEmpty_nil, Bool.not_true, Bool.false_and, Bool.false_eq_true, if_false]
  exact State.modEng_congr (by simp [hs])

theorem exec_unassignedEngineOpcode {s : State} {e : Eng} {b : Block} (u : BitVec 128) (hb : (s.eng e).blk = some b)
    (hs : (s.eng e).skip = false) : exec (.unassignedEngineOpcode e u) s = .next (s.blockFaultC e cILLEGAL_INSTR) := by
  simp [exec, execUnassignedEngineOpcode, State.issue, hb, hs]

/-! ### Dispatch and retirement -/

/-- Every access before the separation that a command stands behind has been performed (04 R117). -/
theorem Seq.cleared_iff (q : Seq) (c : Cmd) : q.cleared c = true ↔
    (∀ l ∈ q.loadQ, c.sep ≤ l.epoch) ∧ (∀ l ∈ q.back, c.sep ≤ l.epoch) ∧ ∀ t ∈ q.storeQ, c.sep ≤ t.epoch := by
  simp [Seq.cleared, and_assoc]

/-- An engine begins a block where none is in issue, its occupancy is over and the accesses are performed. -/
theorem Harness.mayStart_iff (h : Harness) (e : Eng) (c : Cmd) : h.mayStart e c = true ↔
    (h.eng e).blk = none ∧ (h.eng e).busy ≤ (h.eng e).cyc ∧ (∀ l ∈ h.seq.loadQ, c.sep ≤ l.epoch) ∧
      (∀ l ∈ h.seq.back, c.sep ≤ l.epoch) ∧ ∀ t ∈ h.seq.storeQ, c.sep ≤ t.epoch := by
  simp [Harness.mayStart, EngSt.canStart, Seq.cleared_iff, and_assoc]

/-- The arguments go to registers of the engine alone. -/
theorem Harness.putArgs_eq (h : Harness) (e : Eng) (c : Cmd) :
    h.putArgs e c = { h with vc := (h.putArgs e c).vc, dc := (h.putArgs e c).dc, e := (h.putArgs e c).e } := by
  cases e <;> rfl

/-- Argument i of a command (01 R17). -/
def Cmd.arg (c : Cmd) (i : Nat) : Word := if i = 0 then c.a0 else if i = 1 then c.a1 else if i = 2 then c.a2 else c.a3

/-- A vector of 16 whose first four elements are set. -/
theorem getD_set_four {α : Type} (v : Vector α 16) (a b c d x : α) {j : Nat} (hj : j < 16) :
    ((((v.set 0 a).set 1 b).set 2 c).set 3 d).getD j x =
      if j < 4 then (if j = 0 then a else if j = 1 then b else if j = 2 then c else d) else v.getD j x := by
  simp only [vector_getD_set _ _ hj]
  grind

/-- The arguments stand in the engine's first four registers, every other register as before (01 R17). -/
theorem Harness.scalar_putArgs (h : Harness) (e f : Eng) (c : Cmd) {j : Nat} (hj : j < 16) :
    (h.putArgs e c).scalar f j =
      if f = e ∧ j < 4 then (if e = .t then ((c.arg j).setWidth 48).setWidth 64 else c.arg j) else h.scalar f j := by
  by_cases hf : f = e
  · subst hf
    cases f <;> simp only [Harness.putArgs, Harness.scalar, getD_set_four _ _ _ _ _ _ hj, true_and, Cmd.arg, if_true,
      if_false, reduceCtorEq]
    split_ifs <;> rfl
  · rw [if_neg (fun h => hf h.1)]
    cases e <;> cases f <;> simp_all [Harness.putArgs, Harness.scalar]

theorem State.dispatch_eq {s : State} {e : Eng} {c : Cmd} {rest : List Cmd} (hq : (s.eng e).queue = c :: rest) :
    s.dispatch e = s.setHar s.cur (((s.har s.cur).setEng e { s.eng e with
      queue := rest, blk := some { cmd := c, pc := c.off, start := (s.eng e).cyc } }).putArgs e c) := by
  have hq' : ((s.har s.cur).eng e).queue = c :: rest := hq
  rw [State.dispatch, State.modHar_eq, hq']
  rfl

/-- A command has begun its block: its arguments stand in the engine's registers, and only the engine differs besides. -/
def begunBlock (e : Eng) (c : Cmd) (rest : List Cmd) (s t : State) : Prop :=
  onlyHar s.cur s t ∧
    t.har s.cur = { (s.har s.cur).setEng e { s.eng e with
        queue := rest, blk := some { cmd := c, pc := c.off, start := (s.eng e).cyc } } with
      vc := (t.har s.cur).vc, dc := (t.har s.cur).dc, e := (t.har s.cur).e } ∧
    ∀ f j, j < 16 → (t.har s.cur).scalar f j =
      if f = e ∧ j < 4 then (if e = .t then ((c.arg j).setWidth 48).setWidth 64 else c.arg j) else (s.har s.cur).scalar f j

theorem State.dispatch_begins {s : State} {e : Eng} {c : Cmd} {rest : List Cmd} (hq : (s.eng e).queue = c :: rest) :
    begunBlock e c rest s (s.dispatch e) := by
  rw [State.dispatch_eq hq]
  refine ⟨onlyHar_setHar .., ?_, fun f j hj => ?_⟩
  · rw [State.har_setHar]
    exact Harness.putArgs_eq ..
  · rw [State.har_setHar, Harness.scalar_putArgs _ _ _ _ hj]
    cases e <;> rfl

theorem execBlockDispatch_eq {s : State} {c : Cmd} {rest : List Cmd} (hq : (s.eng s.ev.e).queue = c :: rest)
    (ht : c.timed = false) :
    exec .blockDispatch s = .next (if (s.har s.cur).mayStart s.ev.e c then s.dispatch s.ev.e else s) := by
  have hq' : ((s.har s.cur).eng s.ev.e).queue = c :: rest := hq
  simp [exec, execBlockDispatch, hq', ht]

theorem execTimedBlockStart_eq {s : State} {c : Cmd} {rest : List Cmd} (hq : (s.eng s.ev.e).queue = c :: rest)
    (ht : c.timed = true) :
    exec .timedBlockStart s = .next (
      if (s.har s.cur).sp.frame.toNat < c.stamp.toNat then s
      else if c.stamp.toNat < (s.har s.cur).sp.frame.toNat then s.missStart s.ev.e c 2
      else if (s.har s.cur).mayStart s.ev.e c then s.dispatch s.ev.e else s.missStart s.ev.e c 1) := by
  have hq' : ((s.har s.cur).eng s.ev.e).queue = c :: rest := hq
  simp only [exec, execTimedBlockStart, hq', ht, Bool.not_true, Bool.false_eq_true, false_or, apply_ite Host.Outcome.next]

theorem execBlockRetire_eq {s : State} {c : Cmd} {rest : List Cmd} (he : (s.eng s.ev.e).ended = c :: rest)
    (hp : ∀ p ∈ (s.eng s.ev.e).pend, p.age ≠ c.age) :
    exec .blockRetire s = .next (s.setHar s.cur (((s.har s.cur).setEng s.ev.e { s.eng s.ev.e with
      ended := rest, ctr := (s.eng s.ev.e).ctr + 1 }).pruneRecs)) := by
  have hr : (s.eng s.ev.e).retires = true := by
    simp only [EngSt.retires, he, Bool.not_eq_true', List.any_eq_false, beq_iff_eq]
    exact hp
  simp only [exec, execBlockRetire, hr, if_true, State.modHar_eq, Harness.modEng_eq]
  rw [← State.eng_eq, he, List.tail_cons]

/-- Settles O45: each word by the equation of its case, the life of a block by those of its events. -/
theorem blockFlow : Obligations.BlockFlow := by
  intro s e w b u x set pick cnt last
  refine ⟨fun hb hs => ⟨?_, ?_, ?_, exec_unassignedEngineOpcode u hb hs⟩, ?_, ?_, ?_⟩
  · intro loop
    have hloop : exec loop s = .next (s.loop e w) := exec_loop e w s
    refine ⟨fun hw => hloop.trans (congrArg _ (State.loop_bad hb hs hw)), fun hw => ?_⟩
    split
    next hn => exact hloop.trans (congrArg _ (State.loop_nest hb hs hw hn))
    next hn => exact hloop.trans (congrArg _ (State.loop_enters hb hs hw hn))
  · intro idle
    have hidle : ∀ s, exec idle s = .next (s.finishWord e 1) := exec_nop e
    refine ⟨fun hl => ?_, ?_⟩
    · exact (hidle s).trans (congrArg _ (State.finishWord_next 1 hb hs hl))
    · intro pre l ls hloops hpre hl stepped n
      refine ⟨fun hn => ?_, fun hn => ?_⟩
      · rw [hidle, State.finishWord_again 1 hb hs hloops hpre hl hn]
        rfl
      · rw [hidle, hidle, State.finishWord_leave 1 hb hloops hpre hl hn]
        rfl
  · intro endw
    have hend : exec endw s = .next (s.endBlock e) := exec_end e s
    exact ⟨fun hl => hend.trans (congrArg _ (State.endBlock_nest hb hs hl)),
      fun hl => hend.trans (congrArg _ (State.endBlock_ends hb hs hl))⟩
  · rintro rfl c rest hq h free arg begins
    have hfree : h.mayStart s.ev.e c = true ↔ free := h.mayStart_iff s.ev.e c
    have hbegin : begunBlock s.ev.e c rest s (s.dispatch s.ev.e) := State.dispatch_begins hq
    refine ⟨fun ht => ?_, fun ht => ?_⟩
    · have hexec := execBlockDispatch_eq hq ht
      exact ⟨fun hf => ⟨_, hexec.trans (by rw [if_pos (hfree.mpr hf)]), hbegin⟩,
        fun hf => hexec.trans (by rw [if_neg (mt hfree.mp hf)])⟩
    · have hexec := execTimedBlockStart_eq hq ht
      refine ⟨fun hlt => ?_, fun heq hf => ⟨_, hexec.trans ?_, hbegin⟩, fun heq hf => ?_, fun hgt => ?_⟩
      · rw [hexec, if_pos hlt]
      · rw [if_neg heq.not_lt, if_neg heq.not_gt, if_pos (hfree.mpr hf)]
      · rw [hexec, if_neg heq.not_lt, if_neg heq.not_gt, if_neg (mt hfree.mp hf)]
      · rw [hexec, if_neg hgt.not_gt, if_pos hgt]
  · rintro rfl c rest he hp
    refine ⟨_, execBlockRetire_eq he hp, onlyHar_setHar .., ?_⟩
    rw [State.har_setHar]
    rfl
  · intro h i d hits
    refine ⟨Harness.stepE_idle d, fun hi => ⟨Eff.stepTe i d, Harness.stepE_inFlight d hi, fun j v => ?_, fun y hy => Eff.stepTe_other i d hy⟩⟩
    simp only [Eff.stepTe]
    split <;> rfl

end Sys2Proof.Machine
end

section
/-! SUPPORT. Everything that the issue of an engine word can do: its guard, takes and fills, its stall, its fault, and its result
in flight (01 R18, R22-R27). Each is stated once, in the terms of Safety.lean. -/

namespace Sys2Proof.Machine

open Sys2Proof.Safety

/-! ### Full/empty bits -/

@[simp] theorem Harness.full_setFull_false (h : Harness) (r x : FeReg) :
    (h.setFull r false).full x = (h.full x && !(x == r)) := by
  cases r <;> cases x <;> simp only [setFull, full, getLsbD_setBit, Bool.and_false] <;> grind

@[simp] theorem Harness.full_setEng (h : Harness) (e : Eng) (y : EngSt) (x : FeReg) : (h.setEng e y).full x = h.full x := by
  cases e <;> cases x <;> rfl

/-- A word's takes leave their registers empty. -/
theorem Harness.full_takes (takes : List FeReg) (h : Harness) (x : FeReg) :
    (takes.foldl (fun h r => h.setFull r false) h).full x = (h.full x && !takes.contains x) := by
  induction takes generalizing h with
  | nil => simp
  | cons r takes ih =>
    rw [List.foldl_cons, ih, full_setFull_false, List.contains_cons, Bool.not_or, Bool.and_assoc]

/-- A word's takes change full/empty bits alone. -/
theorem Harness.takes_eq (takes : List FeReg) (h : Harness) :
    takes.foldl (fun h r => h.setFull r false) h = { h with
      feV := (takes.foldl (fun h r => h.setFull r false) h).feV
      feS := (takes.foldl (fun h r => h.setFull r false) h).feS
      feA := (takes.foldl (fun h r => h.setFull r false) h).feA } := by
  induction takes generalizing h with
  | nil => rfl
  | cons r takes ih =>
    rw [List.foldl_cons, ih]
    cases r <;> rfl

/-! ### The outcomes of an issue -/

/-- What the issue of a word leaves, once its meaning has given `x`. -/
def Issue.outcome (s : State) (f : Front) (b : Block) : Issue → State
  | .fault x => s.blockFault f.e x
  | .wait => s.engStall f.e 4
  | .waitAt s => s.engStall f.e 4
  | .faultAt s x => s.blockFault f.e x
  | .go s due effs => s.issued f b { age := b.cmd.age, due := due, effs := effs }
  | .goP s p => s.issued f b p

section
variable {s : State} {f : Front} {b : Block} {run : State → Issue} (hr : ready f.e b f.gk f.gn f.takes f.fills s)
  (hbad : f.bad = none) (hhold : f.hold = false)
include hr hbad hhold

/-- A word that may take its effect does what its own meaning gives. -/
theorem State.issue_ready : s.issue f run = (run s).outcome s f b := by
  obtain ⟨hb, hs, hg, hfe, hout, -⟩ := hr
  have hany : f.takes.any (s.eng f.e).out = false := by simpa using hout
  simp only [State.issue, hb, hs, hbad, hhold, hg, hfe, hany]
  cases run s <;> rfl

theorem State.issue_fault {x : Fail} (hrun : run s = .fault x) : s.issue f run = s.blockFault f.e x := by
  rw [State.issue_ready hr hbad hhold, hrun]
  rfl

theorem State.issue_faultAt {s1 : State} {x : Fail} (hrun : run s = .faultAt s1 x) :
    s.issue f run = s1.blockFault f.e x := by
  rw [State.issue_ready hr hbad hhold, hrun]
  rfl

/-- A word that waits for something other than a full/empty bit. -/
theorem issue_waits {i : Instr} (hi : exec i s = .next (s.issue f run)) (hrun : run s = .wait) : waits f.e b i s := by
  have hb := hr.1
  rw [State.issue_ready hr hbad hhold, hrun] at hi
  refine ⟨fun ht => hi.trans (congrArg _ ?_), fun ht => hi.trans (congrArg _ ?_)⟩
  · simp [Issue.outcome, State.engStall, hb, ht]
  · simp [Issue.outcome, State.engStall, hb, ht, missHi]

end

/-! ### A word that has issued -/

/-- What a result holds in flight: the parts of the word's own meaning, then its fills. -/
def Pend.entered (p : Pend) (b : Block) (fills : List FeReg) : Pend :=
  { p with age := b.cmd.age, epc := b.pc, effs := p.effs ++ fills.map fillEff }

theorem Pend.entered_isEmpty_iff {p : Pend} {b : Block} {fills : List FeReg} :
    (p.entered b fills).effs.isEmpty = true ↔ p.effs = [] ∧ fills = [] := by
  simp [Pend.entered]

theorem Harness.eng_takes (takes : List FeReg) (h : Harness) (e : Eng) :
    (takes.foldl (fun h r => h.setFull r false) h).eng e = h.eng e := by
  rw [Harness.takes_eq]
  cases e <;> rfl

/-- A word of block b issues in a state s1 that its meaning has left, its place in the block still to move. -/
theorem State.issued_eq {s1 : State} {f : Front} {b b1 : Block} {p : Pend} (hb : (s1.eng f.e).blk = some b1)
    (hl : ∀ l ∈ b1.loops, l.last ≠ b1.pc) :
    s1.issued f b p = s1.setHar s1.cur
      ((f.takes.foldl (fun h r => h.setFull r false) (s1.har s1.cur)).setEng f.e { s1.eng f.e with
        blk := some { b1 with pc := b1.pc + 1 }, busy := (s1.eng f.e).cyc + f.occ, skip := false, rows := []
        pend := (s1.eng f.e).pend ++ if p.effs = [] ∧ f.fills = [] then [] else [p.entered b f.fills] }) := by
  let u := s1.modHar s1.cur fun h => f.takes.foldl (fun h r => h.setFull r false) h
  have hu : u.eng f.e = s1.eng f.e := (s1.eng_setHar ..).trans (Harness.eng_takes ..)
  have hcur : u.cur = s1.cur := rfl
  have hhar : u.har u.cur = f.takes.foldl (fun h r => h.setFull r false) (s1.har s1.cur) := s1.har_setHar ..
  have hissued : s1.issued f b p = (u.pend f.e (p.entered b f.fills)).finishWord f.e f.occ := rfl
  rw [hissued, State.pend]
  split
  next he =>
    rw [State.finishWord_plain _ (hu ▸ hb) hl, State.modEng_eq, hu, hhar, hcur, if_pos (Pend.entered_isEmpty_iff.mp he),
      List.append_nil]
    exact s1.setHar_setHar ..
  next he =>
    rw [State.finishWord_plain (b := b1) _ (by rw [State.eng_modEng, hu]; exact hb) hl, State.modEng_eq, State.eng_modEng,
      State.modEng_eq, hu, hhar, hcur, if_neg (mt Pend.entered_isEmpty_iff.mpr he)]
    simp [u, State.modHar_eq]

/-- A word that has issued stands in flight as `flies` says, where its meaning has kept the engine's block. -/
theorem State.issued_flies {s1 : State} {f : Front} {b : Block} {p : Pend} {j : Nat}
    (hb : (s1.eng f.e).blk = some { b with j := b.j + j }) (hs : (s1.eng f.e).skip = false) (hl : ∀ l ∈ b.loops, l.last ≠ b.pc) :
    flies f.e b f.takes f.fills f.occ j p s1 (s1.issued f b p) := by
  rw [State.issued_eq hb hl]
  refine ⟨onlyHar_setHar .., ?_, fun x => ?_⟩
  · rw [State.har_setHar, Harness.takes_eq, ← hs]
    cases f.e <;> rfl
  · rw [State.har_setHar, Harness.full_setEng, Harness.full_takes]

section
variable {s s1 : State} {f : Front} {b : Block} {run : State → Issue} (hr : ready f.e b f.gk f.gn f.takes f.fills s)
  (hbad : f.bad = none) (hhold : f.hold = false) (heng : s1.eng f.e = s.eng f.e)
include hr hbad hhold heng

/-- A word issues whose meaning leaves its engine as it was, with one result. -/
theorem State.issue_goP_flies {p : Pend} (hrun : run s = .goP s1 p) :
    flies f.e b f.takes f.fills f.occ 0 p s1 (s.issue f run) := by
  rw [State.issue_ready hr hbad hhold, hrun]
  exact State.issued_flies (heng ▸ hr.1) (heng ▸ hr.2.1) hr.2.2.2.2.2

theorem State.issue_go_flies {due : Due} {effs : List Eff} (hrun : run s = .go s1 due effs) :
    flies f.e b f.takes f.fills f.occ 0 { age := 0, due := due, effs := effs } s1 (s.issue f run) := by
  rw [State.issue_ready hr hbad hhold, hrun]
  exact State.issued_flies (p := { age := b.cmd.age, due := due, effs := effs }) (heng ▸ hr.1) (heng ▸ hr.2.1)
    hr.2.2.2.2.2

end

end Sys2Proof.Machine
end

section
/-! SUPPORT. The v registers of the 16 cells: what a register file returns after a write, and what a result leaves whose parts
all write one register of their cells (05 R132; 01 R25). -/

namespace Sys2Proof.Machine

open Sys2Proof.Safety

/-! ### Register files -/

theorem RegFile.length_get (f : RegFile) (key size : Nat) : (f.get key size).length = size := by
  unfold RegFile.get
  split
  · simp only [List.length_take, List.length_append, List.length_replicate]
    omega
  · unfold RegFile.blank
    split <;> simp

@[simp] theorem Harness.length_vget (h : Harness) (cell r : Nat) : (h.vget cell r).length = 2048 := RegFile.length_get ..

theorem length_splice_ge (old : List Byte) (off : Nat) (new : List Byte) : old.length ≤ (splice old off new).length := by
  simp only [splice, List.length_append, List.length_take, List.length_drop]
  omega

/-- Bytes that cover a chunk from its start replace it. -/
theorem take_splice_zero (old new : List Byte) {n : Nat} (h : n ≤ new.length) : (splice old 0 new).take n = new.take n := by
  simp only [splice, List.take_zero, List.nil_append]
  exact List.take_append_of_le_length h

theorem RegFile.get_put_same (f : RegFile) (key size off : Nat) (bs : List Byte) :
    (f.put key size off bs).get key size = (splice (f.get key size) off bs).take size := by
  have hlen : ((splice (f.get key size) off bs).take size).length = size := by
    have := length_splice_ge (f.get key size) off bs
    rw [f.length_get] at this
    rw [List.length_take, Nat.min_eq_left this]
  rw [RegFile.put, RegFile.get]
  simp only [Table.find_set_same]
  rw [List.take_append_of_le_length (by omega), List.take_of_length_le (by omega)]

theorem RegFile.get_put_other (f : RegFile) {key key' : Nat} (size size' off : Nat) (bs : List Byte) (h : key' ≠ key) :
    (f.put key size off bs).get key' size' = f.get key' size' := by
  rw [RegFile.put, RegFile.get]
  simp only [Table.find_set_other _ h]
  rfl

/-! ### Results that write v registers -/

/-- A part of a result that writes bytes of v(reg) of a cell. -/
def Eff.onV (cell reg : Nat) : Eff → Prop
  | .v c r _ _ => c = cell ∧ r = reg
  | .vlo c r _ _ => c = cell ∧ r = reg
  | _ => False

/-- What it makes of the register's bytes. -/
def Eff.vbytes (old : List Byte) : Eff → List Byte
  | .v _ _ off bs => (splice old off bs).take 2048
  | .vlo _ _ off nib => (splice old off [BitVec.ofNat 8 ((old.getD off 0).toNat / 16 * 16 + nib % 16)]).take 2048
  | _ => old

/-- Of the harness it changes the v registers alone. -/
theorem Harness.apply_onV_eq {h : Harness} {cell reg : Nat} {x : Eff} (hx : x.onV cell reg) :
    h.apply x = { h with v := (h.apply x).v } := by
  cases x with
  | v | vlo => rfl
  | _ => exact hx.elim

theorem Harness.vget_apply_same {h : Harness} {cell reg : Nat} {x : Eff} (hx : x.onV cell reg) :
    (h.apply x).vget cell reg = x.vbytes (h.vget cell reg) := by
  cases x with
  | v | vlo =>
    obtain ⟨rfl, rfl⟩ := hx
    exact RegFile.get_put_same ..
  | _ => exact hx.elim

theorem Harness.vget_apply_other {h : Harness} {cell reg cell' reg' : Nat} {x : Eff} (hx : x.onV cell reg)
    (hreg : reg < 64) (hreg' : reg' < 64) (hne : ¬(cell' = cell ∧ reg' = reg)) :
    (h.apply x).vget cell' reg' = h.vget cell' reg' := by
  cases x with
  | v | vlo =>
    obtain ⟨rfl, rfl⟩ := hx
    exact RegFile.get_put_other _ _ _ _ _ (by omega)
  | _ => exact hx.elim

theorem Harness.applyAll_cons (h : Harness) (x : Eff) (xs : List Eff) : h.applyAll (x :: xs) = (h.apply x).applyAll xs := rfl

theorem Harness.applyAll_append (h : Harness) (xs ys : List Eff) : h.applyAll (xs ++ ys) = (h.applyAll xs).applyAll ys :=
  List.foldl_append ..

/-- Parts that all write one register of one cell. -/
theorem Harness.applyAll_onV_eq {reg : Nat} (xs : List Eff) (h : Harness) (hxs : ∀ x ∈ xs, ∃ c, x.onV c reg) :
    h.applyAll xs = { h with v := (h.applyAll xs).v } := by
  induction xs generalizing h with
  | nil => rfl
  | cons x xs ih =>
    obtain ⟨c, hx⟩ := hxs x List.mem_cons_self
    rw [applyAll_cons, ih _ fun y hy => hxs y (List.mem_cons_of_mem _ hy), apply_onV_eq hx]

theorem Harness.vget_applyAll_same {cell reg : Nat} (xs : List Eff) (h : Harness) (hxs : ∀ x ∈ xs, x.onV cell reg) :
    (h.applyAll xs).vget cell reg = xs.foldl Eff.vbytes (h.vget cell reg) := by
  induction xs generalizing h with
  | nil => rfl
  | cons x xs ih =>
    rw [applyAll_cons, ih _ fun y hy => hxs y (List.mem_cons_of_mem _ hy), vget_apply_same (hxs x List.mem_cons_self)]
    rfl

theorem Harness.vget_applyAll_other {cell reg cell' reg' : Nat} (xs : List Eff) (h : Harness) (hxs : ∀ x ∈ xs, x.onV cell reg)
    (hreg : reg < 64) (hreg' : reg' < 64) (hne : ¬(cell' = cell ∧ reg' = reg)) :
    (h.applyAll xs).vget cell' reg' = h.vget cell' reg' := by
  induction xs generalizing h with
  | nil => rfl
  | cons x xs ih =>
    rw [applyAll_cons, ih _ fun y hy => hxs y (List.mem_cons_of_mem _ hy),
      vget_apply_other (hxs x List.mem_cons_self) hreg hreg' hne]

/-- Every cell of a list writes its own register `reg`, with the parts `F cell`. -/
theorem Harness.vget_applyAll_cells {reg : Nat} {F : Nat → List Eff} (hF : ∀ c, ∀ x ∈ F c, x.onV c reg) (hreg : reg < 64)
    {cs : List Nat} (hcs : cs.Nodup) {cell reg' : Nat} (hreg' : reg' < 64) (h : Harness) :
    (h.applyAll (cs.flatMap F)).vget cell reg' =
      if cell ∈ cs ∧ reg' = reg then (F cell).foldl Eff.vbytes (h.vget cell reg) else h.vget cell reg' := by
  induction cs generalizing h with
  | nil => simp [applyAll]
  | cons c cs ih =>
    obtain ⟨hc, hcs⟩ := List.nodup_cons.mp hcs
    rw [List.flatMap_cons, applyAll_append, ih hcs]
    by_cases hcell : cell = c
    · subst hcell
      by_cases hr : reg' = reg
      · subst hr
        simp [hc, vget_applyAll_same _ h (hF cell)]
      · simp [hr, vget_applyAll_other _ h (hF cell) hreg hreg' (fun hh => hr hh.2)]
    · simp only [List.mem_cons, hcell, false_or]
      rw [vget_applyAll_other _ h (hF c) hreg hreg (fun hh => hcell hh.1),
        vget_applyAll_other _ h (hF c) hreg hreg' (fun hh => hcell hh.1)]

/-- Such a result writes one v register of each cell. -/
theorem writesV_cells {reg : Nat} {F : Nat → List Eff} (hF : ∀ c, ∀ x ∈ F c, x.onV c reg) (hreg : reg < 64) {cs : List Nat}
    (hcs : cs.Nodup) : writesV [reg] (cs.flatMap F) := by
  intro h
  have hall : ∀ x ∈ cs.flatMap F, ∃ c, x.onV c reg := by
    intro x hx
    obtain ⟨c, -, hc⟩ := List.mem_flatMap.mp hx
    exact ⟨c, hF c x hc⟩
  refine ⟨?_, fun cell r _ hr hne => ?_⟩
  · rw [Harness.applyAll_onV_eq _ h hall]
  · rw [Harness.vget_applyAll_cells hF hreg hcs hr, if_neg]
    rintro ⟨-, rfl⟩
    exact hne List.mem_cons_self

end Sys2Proof.Machine
end

section
/-! O43: shifts between cells and neighbours, and express messages (08 R265-R269; 01 R11, R12). -/

namespace Sys2Proof.Machine

open Sys2Proof.Safety

/-- The front of a T word whose fields are legal: it takes or fills only what its instruction lets it. -/
theorem tFront_legal {w : TWord} {u : TUse} (h : tBad w u = false) :
    tFront w u =
      { e := .t, gk := w.gk, gn := w.gn, bad := none
        takes := if u.take then (if w.take then tFe w u.reg else []) else []
        fills := if u.fild then (if w.fild then tFe w u.reg else []) else [] } := by
  have htake : u.take = false → w.take = false := fun hu => by simp_all [tBad]
  have hfild : u.fild = false → w.fild = false := fun hu => by simp_all [tBad]
  rw [tFront, h]
  cases hu : u.take <;> cases hv : u.fild <;> simp_all

theorem cells_nodup : cells.Nodup := List.nodup_range

theorem mem_cells {cell : Nat} : cell ∈ cells ↔ cell < 16 := List.mem_range

/-- One plain write of v(reg) in every cell. -/
theorem map_v_eq_flatMap (reg : Nat) (new : Nat → List Byte) (cs : List Nat) :
    (cs.map fun cell => Eff.v cell reg 0 (new cell)) = cs.flatMap fun cell => [Eff.v cell reg 0 (new cell)] := by
  induction cs with
  | nil => rfl
  | cons c cs ih => rw [List.map_cons, List.flatMap_cons, ih]; rfl

theorem onV_v {reg : Nat} (new : Nat → List Byte) : ∀ c, ∀ x ∈ [Eff.v c reg 0 (new c)], x.onV c reg := by
  intro c x hx
  rw [List.mem_singleton.mp hx]
  exact ⟨rfl, rfl⟩

/-- What v(reg) of a cell holds after one plain write of it in every cell. -/
theorem vget_applyAll_map_v {reg : Nat} (hreg : reg < 64) (new : Nat → List Byte) (h : Harness) {cell : Nat} (hc : cell < 16) :
    (h.applyAll (cells.map fun cell => .v cell reg 0 (new cell))).vget cell reg =
      (splice (h.vget cell reg) 0 (new cell)).take 2048 := by
  rw [map_v_eq_flatMap, Harness.vget_applyAll_cells (onV_v new) hreg cells_nodup hreg, if_pos ⟨mem_cells.mpr hc, rfl⟩]
  rfl

theorem writesV_map_v {reg : Nat} (hreg : reg < 64) (new : Nat → List Byte) :
    writesV [reg] (cells.map fun cell => .v cell reg 0 (new cell)) := by
  rw [map_v_eq_flatMap]
  exact writesV_cells (onV_v new) hreg cells_nodup

/-! ### TSHIFT -/

section
variable (s : State) (d mode : Nat)

/-- The neighbour that a shift sends to. -/
def State.shiftTo : Option Nat := if mode = 1 then s.neighbour s.cur d else none

/-- A shift finds its neighbour's buffer full, or its own empty (08 R266, R269). -/
def State.shiftBlocked : Bool :=
  (match s.shiftTo d mode with
    | some n => (s.har n).running && s.edgeTaken n (sourceSide d)
    | none => false) ||
  ((s.shiftTo (sourceSide d) mode).isSome && ((s.har s.cur).edge.getD (sourceSide d) none).isNone)

/-- What a shift sends on its way. -/
def State.shiftSent (reg : Nat) : State :=
  match s.shiftTo d mode with
  | some n => { s with efly := s.efly ++ [(n, sourceSide d, (leavingCells d).map fun c => (s.har s.cur).vget c reg)] }
  | none => s

/-- And what it takes from its buffer. -/
def State.shifted (reg : Nat) : State :=
  if (s.shiftTo (sourceSide d) mode).isSome then
    (s.shiftSent d mode reg).modHar s.cur fun h => { h with edge := h.edge.setIfInBounds (sourceSide d) none }
  else s.shiftSent d mode reg

/-- What a shift brings into a cell. -/
def State.shiftIn (reg cell : Nat) : List Byte :=
  let h := s.har s.cur
  match shiftSource d cell with
  | .inl c => h.vget c reg
  | .inr i =>
    if mode = 2 then h.vget (wrapSource d cell) reg
    else if (s.shiftTo (sourceSide d) mode).isSome then
      ((h.edge.getD (sourceSide d) none).getD []).getD i (List.replicate 2048 0)
    else List.replicate 2048 0

end

/-- What a TSHIFT does where its word is legal. -/
theorem execTshift_eq (w : TWord) (s : State) : ∃ run,
    exec (.tshift w) s = .next (s.issue (tFront w
      { reg := .v, fild := true, take := true, ext := field w.ext.toNat 0 10 == 0 && field w.ext.toNat 10 2 != 3 }) run) ∧
    ∀ d mode, d = field w.ext.toNat 12 2 → mode = field w.ext.toNat 10 2 →
      run s = if s.shiftBlocked d mode then .wait else (s.shifted d mode w.reg.toNat).at .t 4
        (cells.map fun cell => .v cell w.reg.toNat 0 (s.shiftIn d mode w.reg.toNat cell)) := by
  refine ⟨_, rfl, ?_⟩
  rintro d mode rfl rfl
  rfl

theorem State.shiftSent_eq (s : State) (d mode reg : Nat) : s.shiftSent d mode reg =
    { s with efly := s.efly ++ (s.shiftTo d mode).toList.map fun n =>
        (n, sourceSide d, (leavingCells d).map fun c => (s.har s.cur).vget c reg) } := by
  unfold State.shiftSent
  cases s.shiftTo d mode with
  | none => simp
  | some n => rfl

/-- A shift changes the express network and the harness's own buffer. -/
theorem State.shifted_eq (s : State) (d mode reg : Nat) :
    s.shifted d mode reg = { s with hs := (s.shifted d mode reg).hs, efly := (s.shifted d mode reg).efly } ∧
      (s.shifted d mode reg).efly = s.efly ++ ((s.shiftTo d mode).toList.map fun n =>
        (n, sourceSide d, (leavingCells d).map fun c => (s.har s.cur).vget c reg)) ∧
      (∀ q, q ≠ s.cur → (s.shifted d mode reg).har q = s.har q) ∧
      (s.shifted d mode reg).har s.cur = { s.har s.cur with
        edge := if (s.shiftTo (sourceSide d) mode).isSome then (s.har s.cur).edge.setIfInBounds (sourceSide d) none
          else (s.har s.cur).edge } := by
  rw [State.shifted, State.shiftSent_eq]
  split
  · exact ⟨rfl, rfl, fun q hq => State.har_modHar_other _ hq, State.har_modHar ..⟩
  · exact ⟨rfl, rfl, fun _ _ => rfl, rfl⟩

/-! The geometry of a shift -/

/-- A shift's source stands one step behind a cell, or outside the array (08 R265). -/
theorem shiftSource_eq {d cell : Nat} (hd : d < 4) {ux uy : Int}
    (hx : ux = ((cell % 4 : Nat) : Int) - (if d = 1 then 1 else if d = 3 then -1 else 0))
    (hy : uy = ((cell / 4 : Nat) : Int) - (if d = 2 then 1 else if d = 0 then -1 else 0)) :
    shiftSource d cell = (if 0 ≤ ux ∧ ux < 4 ∧ 0 ≤ uy ∧ uy < 4 then .inl (4 * uy.toNat + ux.toNat)
      else .inr (if d % 2 = 0 then cell % 4 else cell / 4)) ∧
    wrapSource d cell = 4 * (uy % 4).toNat + (ux % 4).toNat := by
  subst hx hy
  interval_cases d <;> exact ⟨rfl, rfl⟩

/-- A whole register replaces what stood there. -/
theorem take_splice_whole (old : List Byte) {new : List Byte} (h : new.length = 2048) :
    (splice old 0 new).take 2048 = new := by
  rw [take_splice_zero _ _ h.ge, List.take_of_length_le h.le]

/-! ### TXSEND -/

/-- The map that a TXSEND names is one to one (08 R267). -/
theorem mapCell_inj {m rot j k : Nat} (hj : j < 16) (hk : k < 16) (h : mapCell m rot j = mapCell m rot k) : j = k := by
  unfold mapCell at h
  split_ifs at h <;> omega

theorem mapCell_lt {m rot k : Nat} (hk : k < 16) : mapCell m rot k < 16 := by
  unfold mapCell
  split_ifs <;> omega

/-- The cell that is sent to a cell is the one that the map takes there. -/
theorem find_mapCell {m rot k : Nat} (hk : k < 16) : (cells.find? fun j => mapCell m rot j == mapCell m rot k).getD 0 = k := by
  have hmem : k ∈ cells := mem_cells.mpr hk
  cases hf : cells.find? fun j => mapCell m rot j == mapCell m rot k with
  | none => simpa using List.find?_eq_none.mp hf k hmem
  | some j =>
    have hj : mapCell m rot j = mapCell m rot k := by simpa using List.find?_some hf
    exact mapCell_inj (mem_cells.mp (List.mem_of_find?_eq_some hf)) hk hj

/-- The message that a TXSEND sends under a map, on a channel (08 R267). -/
def State.sentTo (s : State) (m rot ch reg : Nat) : XMsg :=
  { chan := ch, src := s.cur
    data := cells.map fun c => (s.har s.cur).vget ((cells.find? fun k => mapCell m rot k == c).getD 0) reg }

theorem sentTo_data {s : State} {m rot ch reg cell : Nat} (hc : cell < 16) :
    (s.sentTo m rot ch reg).data[mapCell m rot cell]? = some ((s.har s.cur).vget cell reg) := by
  have hget : cells[mapCell m rot cell]? = some (mapCell m rot cell) := List.getElem?_range (mapCell_lt hc)
  rw [State.sentTo, List.getElem?_map, hget, Option.map_some, find_mapCell hc]

theorem execTsend_eq (w : TWord) (s : State) : ∃ run,
    exec (.txsend w) s = .next (s.issue (tFront w
      { reg := .v, ereg := true, take := true, imm := w.ext.toNat / 2 ^ 10 % 16 == 2 && decide (w.imm.toNat < 16)
        ext := decide (w.ext.toNat / 2 ^ 10 % 16 < 4) && decide (w.ext.toNat / 16 % 64 = 0) }) run) ∧
    run s = (s.expressRank (s.har s.cur) w).elim (.fault { code := cBAD_SPACE }) fun n =>
      if (s.har n).running && decide (2 ≤ s.channelLoad n (w.ext.toNat % 16)) then .wait
      else .go { s with xfly := s.xfly ++ [(n, s.sentTo (w.ext.toNat / 2 ^ 10 % 16) w.imm.toNat (w.ext.toNat % 16)
          w.reg.toNat)] }
        (.cycle (s.eng .t).cyc) [] := by
  have hchan : field w.ext.toNat 0 4 = w.ext.toNat % 16 := by rw [field, pow_zero, Nat.div_one]; rfl
  refine ⟨_, rfl, ?_⟩
  rw [← hchan]
  dsimp only
  cases s.expressRank (s.har s.cur) w <;> rfl

/-! ### TXRECV -/

theorem execTxrecv_eq (w : TWord) (s : State) : ∃ run,
    exec (.txrecv w) s = .next (s.issue (tFront w
      { reg := .v, ereg := true, fild := true, ext := decide (w.ext.toNat < 16) }) run) ∧
    run s = (s.expressRank (s.har s.cur) w).elim (.fault { code := cBAD_SPACE }) fun n =>
      ((s.har s.cur).xmsg.find? fun m => m.chan == w.ext.toNat && m.src == n).elim .wait fun m =>
        .go (s.modHar s.cur fun h => { h with xmsg := dropFirst (fun m => m.chan == w.ext.toNat && m.src == n) h.xmsg })
          (.free .load) (cells.map fun cell => .v cell w.reg.toNat 0 (m.data.getD cell [])) := by
  refine ⟨_, rfl, ?_⟩
  dsimp only
  cases s.expressRank (s.har s.cur) w with
  | none => rfl
  | some n =>
    dsimp only [Option.elim_some]
    cases List.find? (fun m : XMsg => m.chan == w.ext.toNat && m.src == n) (s.har s.cur).xmsg <;> rfl

theorem dropFirst_append {α : Type} {f : α → Bool} {pre post : List α} {x : α} (hpre : ∀ y ∈ pre, f y = false)
    (hx : f x = true) : dropFirst f (pre ++ x :: post) = pre ++ post := by
  induction pre with
  | nil => simp [dropFirst, hx]
  | cons y pre ih =>
    rw [List.cons_append, dropFirst, hpre y List.mem_cons_self, if_neg Bool.false_ne_true,
      ih fun z hz => hpre z (List.mem_cons_of_mem _ hz)]
    rfl

theorem find?_append_of_none {α : Type} {f : α → Bool} {pre post : List α} {x : α} (hpre : ∀ y ∈ pre, f y = false)
    (hx : f x = true) : (pre ++ x :: post).find? f = some x := by
  rw [List.find?_append, List.find?_eq_none.mpr fun y hy => by simp [hpre y hy]]
  simp [hx]

/-- What stands in a cell after a shift (08 R265, R266). -/
theorem vget_shiftIn {s : State} {d mode reg cell : Nat} {ux uy : Int} (hreg : reg < 64) (hd : d < 4) (hc : cell < 16)
    (hx : ux = ((cell % 4 : Nat) : Int) - (if d = 1 then 1 else if d = 3 then -1 else 0))
    (hy : uy = ((cell / 4 : Nat) : Int) - (if d = 2 then 1 else if d = 0 then -1 else 0)) (h0 : Harness) :
    let h := s.har s.cur
    (h0.applyAll (cells.map fun cell => .v cell reg 0 (s.shiftIn d mode reg cell))).vget cell reg =
      if 0 ≤ ux ∧ ux < 4 ∧ 0 ≤ uy ∧ uy < 4 then h.vget (4 * uy.toNat + ux.toNat) reg
      else if mode = 2 then h.vget (4 * (uy % 4).toNat + (ux % 4).toNat) reg
      else if (s.shiftTo (sourceSide d) mode).isSome then
        (splice (h0.vget cell reg) 0 (((h.edge.getD (sourceSide d) none).getD []).getD (if d % 2 = 0 then cell % 4 else cell / 4)
          (List.replicate 2048 0))).take 2048
      else List.replicate 2048 0 := by
  intro h
  obtain ⟨hsrc, hwrap⟩ := shiftSource_eq hd hx hy
  rw [vget_applyAll_map_v hreg _ _ hc, State.shiftIn, hsrc, hwrap]
  by_cases hin : 0 ≤ ux ∧ ux < 4 ∧ 0 ≤ uy ∧ uy < 4
  · rw [if_pos hin, if_pos hin]
    exact take_splice_whole _ (Harness.length_vget ..)
  · rw [if_neg hin, if_neg hin]
    dsimp only
    split
    · exact take_splice_whole _ (Harness.length_vget ..)
    · split
      · rfl
      · exact take_splice_whole _ List.length_replicate

/-- The engine of a harness that shifts stays as it is. -/
theorem State.eng_shifted (s : State) (d mode reg : Nat) : (s.shifted d mode reg).eng .t = s.eng .t := by
  obtain ⟨hframe, -, -, hhar⟩ := s.shifted_eq d mode reg
  have hcur : (s.shifted d mode reg).cur = s.cur := by rw [hframe]
  rw [State.eng_eq, hcur, hhar]
  rfl

theorem State.shiftBlocked_eq_false {s : State} {d mode : Nat}
    (hfwd : ∀ n, s.shiftTo d mode = some n → (s.har n).running = true → s.edgeTaken n (sourceSide d) = false)
    (hback : (s.shiftTo (sourceSide d) mode).isSome = true → ((s.har s.cur).edge.getD (sourceSide d) none).isSome = true) :
    s.shiftBlocked d mode = false := by
  rw [State.shiftBlocked, Bool.or_eq_false_iff]
  constructor
  · cases hn : s.shiftTo d mode with
    | none => rfl
    | some n =>
      cases hrun : (s.har n).running with
      | false => simp [hrun]
      | true => simp [hrun, hfwd n hn hrun]
  · cases hb : (s.shiftTo (sourceSide d) mode).isSome with
    | false => rfl
    | true => simp [hback hb]

/-- Settles O43. -/
theorem exchange : Obligations.Exchange := by
  intro s w b h reg x takes fills cyc
  have hreg : reg < 64 := w.reg.isLt
  refine ⟨?_, ?_, ?_, ?_, ?_⟩
  · intro d mode hd hmode hne hr hbad side fwd back inb ux uy hfwd hback
    obtain ⟨run, hexec, hrun⟩ := execTshift_eq w s
    specialize hrun d mode hd hmode
    rw [State.shiftBlocked_eq_false hfwd hback, if_neg Bool.false_ne_true, State.at, State.eng_shifted] at hrun
    have hext : (field w.ext.toNat 0 10 == 0 && field w.ext.toNat 10 2 != 3) = decide (x % 2 ^ 10 = 0) := by
      have h3 : (field w.ext.toNat 10 2 != 3) = true := by
        rw [bne_iff_ne]
        exact fun h3 => hne (hmode.trans h3)
      rw [h3, Bool.and_true, beq_eq_decide, field, pow_zero, Nat.div_one]
    rw [← hext] at hbad
    obtain ⟨hframe, hefly, hother, hhar⟩ := s.shifted_eq d mode reg
    rw [tFront_legal hbad] at hexec
    exact ⟨s.shifted d mode reg, _, _, ⟨hexec, State.issue_go_flies hr rfl rfl (s.eng_shifted ..) hrun⟩,
      hefly, hframe, hother, hhar, writesV_map_v hreg _, fun h0 cell hc => vget_shiftIn hreg (by omega) hc rfl rfl h0⟩
  · intro hr m ch rot hm hch hrot hbad
    subst hm hch hrot
    obtain ⟨run, hexec, hrun⟩ := execTsend_eq w s
    rw [tFront_legal hbad] at hexec
    refine ⟨fun hn => ?_, fun n hn hload => ?_⟩
    · rw [hn] at hrun
      exact hexec.trans (congrArg _ (State.issue_fault hr rfl rfl hrun))
    · have hfree : ¬((s.har n).running && decide (2 ≤ s.channelLoad n (x % 16))) = true := by
        rw [Bool.and_eq_true, decide_eq_true_eq, not_and, not_le]
        exact hload
      rw [hn, Option.elim_some, if_neg hfree] at hrun
      exact ⟨_, _, ⟨hexec, State.issue_go_flies hr rfl rfl (by rfl) hrun⟩, rfl, rfl, fun cell hc => sentTo_data hc⟩
  · intro hr hbad
    obtain ⟨run, hexec, hrun⟩ := execTxrecv_eq w s
    rw [tFront_legal hbad] at hexec
    refine ⟨fun hn => ?_, fun n pre msg post hn hmsg hpre hc hsrc => ?_⟩
    · rw [hn] at hrun
      exact hexec.trans (congrArg _ (State.issue_fault hr rfl rfl hrun))
    · rw [hn] at hrun
      have hpre' : ∀ m ∈ pre, (m.chan == x && m.src == n) = false := fun m hm => by simpa using hpre m hm
      have hmine : (msg.chan == x && msg.src == n) = true := by simp [hc, hsrc]
      rw [Option.elim_some, hmsg, find?_append_of_none hpre' hmine, Option.elim_some] at hrun
      refine ⟨_, hexec, ?_⟩
      have hdrop : (s.modHar s.cur fun h => { h with xmsg := dropFirst (fun m => m.chan == x && m.src == n) h.xmsg }) =
          s.modHar s.cur fun h => { h with xmsg := pre ++ post } := by
        rw [State.modHar_eq, State.modHar_eq]
        rw [show (s.har s.cur).xmsg = pre ++ msg :: post from hmsg, dropFirst_append hpre' hmine]
      rw [← hdrop]
      exact State.issue_go_flies hr rfl rfl (by rw [State.modHar_eq, State.eng_setHar]; rfl) hrun
  · intro n side data rest hq
    simp only [exec, execEdgeDataArrival, hq]
    rfl
  · intro n msg rest hq
    simp only [exec, execExpressMessageArrival, hq]
    rfl

end Sys2Proof.Machine
end

section
/-! O58: what the turn of a sequencer or of an engine runs: the instruction that its code bytes decode to (01 R14; 05 R131, R138,
R140; 06 R161, R188). -/

namespace Sys2Proof.Machine

open Sys2Proof.Safety

/-- A list is gone through without an error where each element is. -/
theorem mapM_eq_ok_iff {α β ε : Type} {f : α → Except ε β} {l : List α} {r : List β} :
    l.mapM f = .ok r ↔ List.Forall₂ (fun a b => f a = .ok b) l r := by
  induction l generalizing r with
  | nil => cases r <;> simp [pure, Except.pure]
  | cons a l ih =>
    rw [List.mapM_cons]
    cases ha : f a with
    | error e => simp [bind, Except.bind, List.forall₂_cons_left_iff, ha]
    | ok b =>
      cases hl : l.mapM f with
      | error e =>
        simp only [bind, Except.bind, hl, List.forall₂_cons_left_iff, ha, ← ih]
        simp
      | ok bs =>
        simp only [bind, Except.bind, hl, pure, Except.pure, List.forall₂_cons_left_iff, ha, ← ih]
        simp [eq_comm]

theorem mapM_range_eq_ok {β ε : Type} {f : Nat → Except ε β} {n : Nat} {ks : List β} (hn : ks.length = n)
    (hk : ∀ j k, ks[j]? = some k → f j = .ok k) : (List.range n).mapM f = .ok ks := by
  rw [mapM_eq_ok_iff, List.forall₂_iff_get]
  refine ⟨by simp [hn], fun i h1 h2 => ?_⟩
  rw [List.get_eq_getElem, List.get_eq_getElem, List.getElem_range]
  exact hk i _ (List.getElem?_eq_getElem h2)

/-! ### Fetching -/

/-- The code bytes at p are read at the keys ks. -/
def State.fetches (u : State) (r : Nat) (p : Word) (len : Nat) (sup : Bool) (ks : List Nat) : Prop :=
  space p = 0 ∧ owner p = 0 ∧ ks.length = len ∧
    (∀ j k, ks[j]? = some k → u.xlate r ((offset p + j) % 2 ^ 48) { x := true, sup := sup } accFetch = .ok k) ∧
    ∀ k ∈ ks, u.consumes k = none

theorem State.spaceCheck_fetch {u : State} {r : Nat} {p : Word} {acc : Nat} (hs : space p = 0) (ho : owner p = 0) :
    u.spaceCheck r .fetch p acc = .ok () := by
  simp [State.spaceCheck, hs, ho]

theorem State.fetchN_eq {u : State} {r : Nat} {p : Word} {len : Nat} {sup : Bool} {ks : List Nat}
    (h : u.fetches r p len sup ks) : u.fetchN r p len sup = .ok (leNat (ks.map (memGet u.mem))) := by
  obtain ⟨hs, ho, hlen, hk, hc⟩ := h
  have hnone : (ks.findSome? fun k => (u.consumes k).map fun c => (k, c)) = none :=
    List.findSome?_eq_none_iff.mpr fun k hm => by rw [hc k hm]; rfl
  simp only [State.fetchN, State.spaceCheck_fetch hs ho]
  rw [mapM_range_eq_ok hlen fun j k hj => by rw [hk j k hj]]
  simp only [hnone]

theorem State.fetchScrub_of_no_latent {t : State} (h : t.latent = []) (r : Nat) (p : Word) (len : Nat) :
    t.fetchScrub r p len = t := by
  simp [State.fetchScrub, State.devScrub, h]

/-- A block's words up to its end word, from the word at pc on. -/
theorem State.blockCode_eq {t : State} {e : Eng} {ends : Nat → Bool} {ws : List Nat} {m : Nat} (hlen : ws.length = m + 1) {fuel : Nat}
    (hm : m < fuel) {pc : Nat} (hw : ∀ j w, ws[j]? = some w → t.fetchAt e (pc + j) = .ok w ∧ (ends w = true ↔ j = m)) :
    t.blockCode e ends [] fuel pc = .ok (ws.map some) := by
  induction fuel generalizing ws m pc with
  | zero => omega
  | succ fuel ih =>
    obtain ⟨w, ws, rfl⟩ := List.exists_cons_of_length_eq_add_one hlen
    obtain ⟨hf, he⟩ := hw 0 w rfl
    rw [State.blockCode, if_neg (by simp)]
    simp only [Nat.add_zero] at hf
    rw [hf]
    cases m with
    | zero =>
      have hnil : ws = [] := List.length_eq_zero_iff.mp (by simpa using hlen)
      simp [he.mpr rfl, hnil]
    | succ m =>
      have hend : ends w = false := by simpa using he
      have hrest := ih (ws := ws) (m := m) (by simpa using hlen) (by omega) (pc := pc + 1) fun j w' hj => by
        obtain ⟨h1, h2⟩ := hw (j + 1) w' (by simpa using hj)
        exact ⟨by rw [← h1]; congr 1; omega, by rw [h2]; omega⟩
      simp [hend, hrest, Except.map]

theorem State.fetchBlock_eq {t : State} {e : Eng} {ends : Nat → Bool} {b : Block} (hb : (t.eng e).blk = some b)
    (hholes : b.holes = []) (hlat : t.latent = []) {ws : List Nat} {m : Nat} (hm : m < 2 ^ 20) (hlen : ws.length = m + 1)
    (hw : ∀ j w, ws[j]? = some w → t.fetchAt e (b.pc + j) = .ok w ∧ (ends w = true ↔ j = m)) :
    t.fetchBlock e ends = t.modEng e fun x => { x with blk := some { b with fetched := true, code := ws.map some } } := by
  have hscrub : ∀ n, t.codeScrub e b n = t := by
    intro n
    unfold State.codeScrub
    split
    · exact State.fetchScrub_of_no_latent hlat ..
    · rfl
  have hcode : t.blockCode e ends b.holes (2 ^ 20) b.pc = .ok (ws.map some) := by
    rw [hholes]
    exact State.blockCode_eq hlen hm hw
  simp only [State.fetchBlock, hb, hcode, hscrub]

/-! ### The step -/

section
variable {s u : State} (hhalt : s.boot.halted = false) (hag : s.agenda = [])
include hhalt hag

theorem State.nextTurn_of_quiet : s.stuck = false ∧ s.fresh.nextTurn = s.fresh.turn :=
  ⟨by simp [State.stuck, hhalt], by rw [State.nextTurn, State.fresh_agenda, hag]⟩

/-- A module that has not halted and awaits nothing from outside takes the turn of its phase. -/
theorem step_of_move (ht : s.fresh.turn = .move u) : step s = .next u := by
  obtain ⟨hstuck, hturn⟩ := State.nextTurn_of_quiet hhalt hag
  simp only [step, hstuck, hturn, ht, Bool.false_eq_true, if_false]

theorem step_of_run {i : Instr} {a : Arg} (ht : s.fresh.turn = .run i a u) : step s = exec i { u with ev := a } := by
  obtain ⟨hstuck, hturn⟩ := State.nextTurn_of_quiet hhalt hag
  simp only [step, hstuck, hturn, ht, Bool.false_eq_true, if_false]

end

/-! The turn of the sequencer -/

theorem State.seqTurn_of_reply {u : State} (h : u.mcc.toNat < (u.har u.cur).reply) :
    u.seqTurn = .move { u with phase := .mem } := by
  simp [State.seqTurn, h]

/-- The sequencer may issue: it is active, and neither halted, resuming, answering a fault or an interrupt, nor held by a tower. -/
structure SeqIssues (u : State) : Prop where
  active : (u.har u.cur).seq.active = true
  halted : (u.har u.cur).ctl.halted = false
  resume : (u.har u.cur).ctl.resume = none
  reply : (u.har u.cur).reply ≤ u.mcc.toNat
  fault : u.faultEnters u.cur = false
  wdog : u.wdogDue u.cur = false
  intr : (u.har u.cur).intEnters = false

theorem State.seqTurn_of_spawn {u : State} (h : SeqIssues u) (hw : u.waits (.spawn u.cur) = true) :
    u.seqTurn = .move { u with phase := .mem } := by
  obtain ⟨h1, h2, h3, -, h5, h6, h7⟩ := h
  simp [State.seqTurn, h1, h2, h3, h5, h6, h7, hw]

theorem State.seqTurn_eq {u : State} (h : SeqIssues u) (hw : u.waits (.spawn u.cur) = false) {i : Instr}
    (hf : u.fetchSeq u.cur = .ok i) :
    u.seqTurn = if (u.har u.cur).seq.interlocked u.mcc.toNat i then .move { u with phase := .mem }
      else .run i {} ((({ u with phase := .mem } : State).fetchScrub u.cur (u.har u.cur).seq.pc 4).claimG u.cur i) := by
  obtain ⟨h1, h2, h3, h4, h5, h6, h7⟩ := h
  simp [State.seqTurn, h1, h2, h3, h4, h5, h6, h7, hw, hf]

theorem State.fetchSeq_eq {u : State} {r : Nat} {ks : List Nat} (hpc : (u.har r).seq.pc.toNat % 4 = 0)
    (h : u.fetches r (u.har r).seq.pc 4 ((u.har r).level == 0) ks) :
    u.fetchSeq r = .ok (fetchedS (leNat (ks.map (memGet u.mem)))) := by
  simp only [State.fetchSeq, State.spaceCheck_fetch h.1 h.2.1, State.fetchN_eq h, hpc]
  rfl

theorem fetchedS_ok {w : Nat} {i : Instr} (h : decode .s w = .ok i) : fetchedS w = i := by
  simp only [fetchedS, show decodeS w = .ok i from h]

theorem fetchedS_error {w : Nat} {d : DecodeError} (h : decode .s w = .error d) :
    fetchedS w = .unassignedSEncoding (BitVec.ofNat 32 w) := by
  simp only [fetchedS, show decodeS w = .error d from h]

/-- The stream of an engine's words (05 R131). -/
def engStream : Eng → Stream
  | .v => .v
  | .d => .d
  | .t => .t

theorem fetchedEng_ok {e : Eng} {w : Nat} {i : Instr} (h : decode (engStream e) w = .ok i) : fetchedEng e w = i := by
  cases e <;> simp only [fetchedEng, engStream] at h ⊢ <;> rw [h]

theorem fetchedEng_error {e : Eng} {w : Nat} {d : DecodeError} (h : decode (engStream e) w = .error d) :
    fetchedEng e w = .unassignedEngineOpcode e (BitVec.ofNat 128 w) := by
  cases e <;> simp only [fetchedEng, engStream] at h ⊢ <;> rw [h]

theorem wordSize_eq (e : Eng) : (engStream e).width / 8 = wordSize e := by cases e <;> rfl

/-- A word without an encoding goes to no tower. -/
theorem State.remote_unassigned (s : State) (e : Eng) (w : BitVec 128) : s.remote e (.unassignedEngineOpcode e w) = none := rfl

theorem interlocked_unassigned (q : Seq) (now : Nat) (w : BitVec 32) :
    q.interlocked now (.unassignedSEncoding w) = false :=
  Bool.and_false _

/-! The turn of an engine -/

/-- The word in issue of an engine comes up: its harness runs engines, nothing lands, retires or starts, and the engine is free. -/
structure WordIssues (u : State) (e : Eng) (b : Block) : Prop where
  runs : (u.har u.cur).ctl.enginesRun u.mcc = true
  lands : (u.har u.cur).dueNow e = false
  retires : (u.eng e).retires = false
  drops : (u.eng e).dropHead = none
  starts : (u.har u.cur).starts e = none
  blk : (u.eng e).blk = some b
  busy : (u.eng e).busy ≤ (u.eng e).cyc
  stalled : (u.eng e).stalled = false

theorem State.engTurn_eq {u : State} {e : Eng} {b : Block} (h : WordIssues u e b) : u.engTurn e = u.wordTurn e := by
  obtain ⟨h1, h2, h3, h4, h5, h6, h7, h8⟩ := h
  simp only [State.eng_eq] at h3 h4 h6 h7 h8
  simp [State.engTurn, h1, h2, h3, h4, h5, h6, h7, h8]

section
variable {u : State} {e : Eng} {b : Block} (hb : (u.eng e).blk = some b)
include hb

theorem State.wordTurn_fetches (hf : b.fetched = false) :
    u.wordTurn e = .move (u.fetchBlock e fun w => endsBlock (fetchedEng e w)) := by
  simp [State.wordTurn, ← State.eng_eq, hb, hf]

theorem State.wordTurn_skips (hf : b.fetched = true) (hw : b.word = some none) :
    u.wordTurn e = .move (({ u with phase := afterEng e } : State).finishWord e 1) := by
  simp [State.wordTurn, ← State.eng_eq, hb, hf, State.fetchEng, hw]

theorem State.fetchEng_word {w : Option Nat} (hw : b.word = some w) : u.fetchEng e = .ok w := by
  simp only [State.fetchEng, ← State.eng_eq, hb, hw]

/-- A word behind those that the block's fetch read is fetched as it issues. -/
theorem State.fetchEng_behind {n : Node} {ks : List Nat} (hw : b.word = none) (hn : (u.har u.cur).ctl.node = some n)
    (h : u.fetches u.cur (wordPtr e n.launch b.pc) (wordSize e) true ks) :
    u.fetchEng e = .ok (some (leNat (ks.map (memGet u.mem)))) := by
  simp only [State.fetchEng, ← State.eng_eq, hb, hw, State.fetchAt, hn, State.fetchN_eq h]
  rfl

theorem State.wordTurn_word (hf : b.fetched = true) {w : Nat} (hw : u.fetchEng e = .ok (some w)) :
    u.wordTurn e = (if u.second then none else u.remote e (fetchedEng e w)).elim
      (.run (fetchedEng e w) { e := e } (if b.word.isSome then { u with phase := afterEng e }
        else ({ u with phase := afterEng e } : State).fetchScrub u.cur
          ((u.har u.cur).ctl.node.elim 0 fun n => wordPtr e n.launch b.pc) (wordSize e)))
      fun o => .move (({ u with later := u.later ++ [(u.cur, o)] } : State).nextHar (u.cur + 1)) := by
  simp only [State.wordTurn, ← State.eng_eq, hb, hf, hw]
  cases (if u.second then none else u.remote e (fetchedEng e w)) <;> rfl

end

/-- Settles O58. -/
theorem stepRunsDecoded : Obligations.StepRunsDecoded := by
  intro s ks e b n u r h x fetches word str due next
  refine ⟨fun t p len hl => t.fetchScrub_of_no_latent hl r p len, ?_, ?_, ?_⟩
  · intro t i q ds
    refine ⟨fun hd => ?_, fun hd => ?_⟩
    · rw [State.claimG]
      exact if_pos (List.isEmpty_iff.mpr hd)
    · rw [State.claimG]
      exact if_neg (mt List.isEmpty_iff.mp hd)
  · intro t ws m hcur hb hholes hlat hm hlen hw
    exact State.fetchBlock_eq hb hholes hlat hm hlen hw
  · intro hhalt hag
    have hseq : ∀ {v : Turn}, s.phase = .seq → u.seqTurn = v → s.fresh.turn = v := fun hp hv => by
      rw [State.turn, State.fresh_phase, hp]
      exact hv
    refine ⟨?_, ?_, ?_, ?_⟩
    · intro hp hreply
      exact step_of_move hhalt hag (hseq hp (State.seqTurn_of_reply hreply))
    · intro hp h1 h2 h3 h4 h5 h6 h7 hw
      exact step_of_move hhalt hag (hseq hp (State.seqTurn_of_spawn ⟨h1, h2, h3, h4, h5, h6, h7⟩ hw))
    · intro hp h1 h2 h3 h4 h5 h6 h7 hw hpc hfetch v
      have hturn := State.seqTurn_eq (u := u) ⟨h1, h2, h3, h4, h5, h6, h7⟩ hw (State.fetchSeq_eq hpc hfetch)
      have hnext : ∀ i, fetchedS word = i → h.seq.interlocked s.mcc.toNat i = false → step s = exec i (v i) := by
        rintro i rfl hi
        exact step_of_run hhalt hag (hseq hp (hturn.trans (if_neg (Bool.eq_false_iff.mp hi))))
      refine ⟨fun i hd => hnext i (fetchedS_ok hd), fun i hd hi => ?_, fun d hd => hnext _ (fetchedS_error hd) (interlocked_unassigned ..)⟩
      rw [← fetchedS_ok hd] at hi
      exact step_of_move hhalt hag (hseq hp (hturn.trans (if_pos hi)))
    · intro hp h1 h2 h3 h4 h5 h6 h7 h8
      have hword : s.fresh.turn = u.wordTurn e := by
        rw [← State.engTurn_eq (u := u) ⟨h1, h2, h3, h4, h5, h6, h7, h8⟩, State.turn, State.fresh_phase, hp]
        cases e <;> rfl
      have hafter : afterEng e = next := by cases e <;> rfl
      have hb : (u.eng e).blk = some b := h6
      -- a word that has been read, and what `v` the step leaves before it runs
      have hrun : ∀ (hf : b.fetched = true) {w : Nat}, u.fetchEng e = .ok (some w) → ∀ i, fetchedEng e w = i →
          (s.second = true ∨ s.remote e i = none) → step s = exec i { (if b.word.isSome then { u with phase := next }
            else ({ u with phase := next } : State).fetchScrub u.cur
              ((u.har u.cur).ctl.node.elim 0 fun n => wordPtr e n.launch b.pc) (wordSize e)) with ev := { e := e } } := by
        rintro hf w hw i rfl ho
        have hstay : (if u.second then none else u.remote e (fetchedEng e w)) = none := by
          rcases ho with ho | ho
          · exact if_pos ho
          · split
            · rfl
            · exact ho
        rw [← hafter]
        exact step_of_run hhalt hag (hword.trans ((State.wordTurn_word hb hf hw).trans (by rw [hstay]; rfl)))
      refine ⟨fun hf => step_of_move hhalt hag (hword.trans (State.wordTurn_fetches hb hf)), ?_, ?_, ?_⟩
      · intro hf w hw v
        have hfe : u.fetchEng e = .ok (some w) := State.fetchEng_word hb hw
        have hv : (if b.word.isSome then ({ u with phase := next } : State) else ({ u with phase := next } : State).fetchScrub u.cur
            ((u.har u.cur).ctl.node.elim 0 fun n => wordPtr e n.launch b.pc) (wordSize e)) = { u with phase := next } :=
          if_pos (by rw [hw]; rfl)
        rw [hv] at hrun
        refine ⟨fun i hd ho => hrun hf hfe i (fetchedEng_ok hd) ho, fun i o hd hs2 ho => ?_,
          fun d hd => hrun hf hfe _ (fetchedEng_error hd) (.inr (s.remote_unassigned ..))⟩
        have hgo : (if u.second then none else u.remote e (fetchedEng e w)) = some o := by
          rw [fetchedEng_ok hd]
          exact (if_neg (Bool.eq_false_iff.mp hs2)).trans ho
        exact step_of_move hhalt hag (hword.trans ((State.wordTurn_word hb hf hfe).trans (by rw [hgo]; rfl)))
      · intro hf hw
        rw [← hafter]
        exact step_of_move hhalt hag (hword.trans (State.wordTurn_skips hb hf hw))
      · intro hf hw hn p hfetch v
        have hsize : str.width / 8 = wordSize e := wordSize_eq e
        have hp : p = wordPtr e n.launch b.pc := by rw [wordPtr, ← hsize]
        have hfetch' : u.fetches r p (str.width / 8) true ks := hfetch
        have hfe : u.fetchEng e = .ok (some word) := State.fetchEng_behind hb hw hn (by rw [← hp, ← hsize]; exact hfetch')
        have hv : (if b.word.isSome then ({ u with phase := next } : State) else ({ u with phase := next } : State).fetchScrub u.cur
            ((u.har u.cur).ctl.node.elim 0 fun n => wordPtr e n.launch b.pc) (wordSize e)) =
            ({ u with phase := next } : State).fetchScrub r p (str.width / 8) := by
          rw [hw, show (u.har u.cur).ctl.node = some n from hn, hp, hsize]
          rfl
        rw [hv] at hrun
        exact ⟨fun i hd ho => hrun hf hfe i (fetchedEng_ok hd) ho,
          fun d hd => hrun hf hfe _ (fetchedEng_error hd) (.inr (s.remote_unassigned ..))⟩

end Sys2Proof.Machine
end

section
/-! SUPPORT. What writes to memory, error records, messages and tower banks leave as it was: a write changes memory alone, and
none of these touches an engine of any harness. -/

namespace Sys2Proof.Machine

open Sys2Proof.Safety

/-! ### Writes -/

/-- Nothing differs but memory and what is known of its granules. -/
def onlyMemory (s t : State) : Prop := t = { s with mem := t.mem, poison := t.poison, latent := t.latent, hbm := t.hbm }

theorem onlyMemory.refl (s : State) : onlyMemory s s := rfl

theorem onlyMemory.trans {s t u : State} (h : onlyMemory s t) (k : onlyMemory t u) : onlyMemory s u := by
  rw [onlyMemory, h] at k
  exact k

theorem onlyMemory.foldl {α : Type} {f : State → α → State} (hf : ∀ s x, onlyMemory s (f s x)) (xs : List α) (s : State) :
    onlyMemory s (xs.foldl f s) :=
  List.foldlRecOn xs f (.refl s) fun _ h x _ => h.trans (hf _ x)

theorem State.cleanGranule_onlyMemory (s : State) (gr : Nat) : onlyMemory s (s.cleanGranule gr) := by
  unfold State.cleanGranule
  dsimp only
  split
  · split <;> rfl
  · rfl

theorem State.put_onlyMemory (s : State) (k : Nat) (bs : List Byte) : onlyMemory s (s.put k bs) := by
  unfold State.put
  dsimp only
  split
  · rfl
  · exact onlyMemory.trans (t := { s with mem := memWrite s.mem k bs }) rfl (.foldl State.cleanGranule_onlyMemory _ _)

theorem State.write_onlyMemory (s : State) (k : Nat) (bs : List Byte) : onlyMemory s (s.write k bs) := by
  unfold State.write
  split
  · exact s.put_onlyMemory k bs
  · exact .foldl (f := fun s (kb : Nat × List Byte) => s.put kb.1 kb.2) (fun s kb => s.put_onlyMemory kb.1 kb.2) _ s

theorem State.writeKeys_onlyMemory (s : State) (ks : List Nat) (bs : List Byte) : onlyMemory s (s.writeKeys ks bs) :=
  .foldl (f := fun s (kb : Nat × List Byte) => s.write kb.1 kb.2) (fun s kb => s.write_onlyMemory kb.1 kb.2) _ s

theorem State.devWrite_onlyMemory {s t : State} {p va : Nat} {bs : List Byte} {need : Need}
    (h : s.devWrite p va bs need = .ok t) : onlyMemory s t := by
  unfold State.devWrite at h
  split at h
  · cases h
  · cases h
    exact s.writeKeys_onlyMemory ..

/-! ### The engines -/

/-- The same harness is current, and every engine stands as before. -/
def sameEngines (s t : State) : Prop := t.cur = s.cur ∧ ∀ r e, (t.har r).eng e = (s.har r).eng e

namespace sameEngines

theorem refl (s : State) : sameEngines s s := ⟨rfl, fun _ _ => rfl⟩

theorem trans {s t u : State} (h : sameEngines s t) (k : sameEngines t u) : sameEngines s u :=
  ⟨k.1.trans h.1, fun r e => (k.2 r e).trans (h.2 r e)⟩

theorem foldl {α : Type} {f : State → α → State} (hf : ∀ s x, sameEngines s (f s x)) (xs : List α) (s : State) :
    sameEngines s (xs.foldl f s) :=
  List.foldlRecOn xs f (refl s) fun _ h x _ => h.trans (hf _ x)

theorem of_hs {s t : State} (hc : t.cur = s.cur) (hh : t.hs = s.hs) : sameEngines s t :=
  ⟨hc, fun r e => by rw [State.har, State.har, hh]⟩

/-- A step that changes no harness may come first. -/
theorem after {s t u : State} (k : sameEngines t u) (hc : t.cur = s.cur) (hh : t.hs = s.hs) : sameEngines s u :=
  (of_hs hc hh).trans k

theorem of_onlyMemory {s t : State} (h : onlyMemory s t) : sameEngines s t :=
  of_hs (by rw [h]) (by rw [h])

theorem setHar {s : State} {r : Nat} {h : Harness} (hh : ∀ e, h.eng e = (s.har r).eng e) : sameEngines s (s.setHar r h) := by
  refine ⟨rfl, fun q e => ?_⟩
  by_cases hq : q = r
  · rw [hq, State.har_setHar, hh]
  · rw [State.har_setHar_other _ hq]

theorem modHar {s : State} {r : Nat} {f : Harness → Harness} (hf : ∀ h e, (f h).eng e = h.eng e) :
    sameEngines s (s.modHar r f) :=
  setHar (hf _)

theorem modCtl (s : State) (r : Nat) (f : Ctl → Ctl) : sameEngines s (s.modCtl r f) :=
  modHar fun _ e => by cases e <;> rfl

theorem modSp (s : State) (r : Nat) (f : Special → Special) : sameEngines s (s.modSp r f) :=
  modHar fun _ e => by cases e <;> rfl

theorem setBank (s : State) (r k : Nat) (b : Bank) : sameEngines s (s.setHar r ((s.har r).setBank k b)) :=
  setHar fun e => by cases e <;> rfl

/-- Of the current harness too. -/
theorem eng {s t : State} (h : sameEngines s t) (e : Eng) : t.eng e = s.eng e := by
  rw [State.eng_eq, State.eng_eq, h.1, h.2]

theorem eng_modEng {s t : State} (h : sameEngines s t) (e : Eng) (f : EngSt → EngSt) :
    (t.modEng e f).cur = s.cur ∧ (t.modEng e f).eng e = f (s.eng e) :=
  ⟨h.1, (State.eng_modEng ..).trans (congrArg f (h.eng e))⟩

end sameEngines

/-! ### Error records and messages -/

theorem State.devWrite_sameEngines {s t : State} {p va : Nat} {bs : List Byte} {need : Need}
    (h : s.devWrite p va bs need = .ok t) : sameEngines s t := .of_onlyMemory (State.devWrite_onlyMemory h)

theorem State.raiseInt_sameEngines (s : State) (p code : Nat) : sameEngines s (s.raiseInt p code) := by
  unfold State.raiseInt
  dsimp only
  split
  · exact .modCtl ..
  · exact .refl s

theorem State.tell_sameEngines (s : State) (d code rank : Nat) (subject detail : Word) :
    sameEngines s (s.tell d code rank subject detail) := by
  unfold State.tell
  dsimp only
  split
  next =>
    split
    next =>
      split
      next =>
        split
        next h => exact State.devWrite_sameEngines h
        next => exact .refl s
      next => exact .refl s
    next =>
      split
      next => exact .refl s
      next h1 =>
        refine (State.devWrite_sameEngines h1).trans ?_
        split
        next => exact .refl _
        next h2 =>
          refine (State.devWrite_sameEngines h2).trans ((State.raiseInt_sameEngines _ (s.partOfDie d) code).trans ?_)
          split
          next => split <;> exact .of_hs rfl rfl
          next => exact .refl _
  next => exact .refl s

theorem sameEngines.modDie (s : State) (d : Nat) (f : Die → Die) : sameEngines s (s.modDie d f) := .of_hs rfl rfl

theorem State.count_sameEngines (s : State) (d i : Nat) : sameEngines s (s.count d i) := by
  unfold State.count
  dsimp only
  split
  next h => exact (sameEngines.modDie ..).trans (State.devWrite_sameEngines h)
  next => exact .modDie ..

theorem State.hbmSummary_sameEngines (s : State) (i : Nat) : sameEngines s (s.hbmSummary i) := by
  unfold State.hbmSummary
  dsimp only
  split
  next h =>
    refine sameEngines.trans ?_ (State.devWrite_sameEngines h)
    split
    next hc => exact State.devWrite_sameEngines hc
    next => exact .refl s
  next =>
    split
    next hc => exact State.devWrite_sameEngines hc
    next => exact .refl s

theorem State.scrubGranule_sameEngines (s : State) (gr : Nat) : sameEngines s (s.scrubGranule gr) := by
  unfold State.scrubGranule
  dsimp only
  split
  next => exact .refl s
  next => exact (State.count_sameEngines ..).after rfl rfl
  next =>
    split
    next => exact .refl s
    next =>
      split
      next =>
        split
        next =>
          exact ((State.count_sameEngines ..).trans (State.hbmSummary_sameEngines ..)).after rfl rfl
        next => exact State.tell_sameEngines ..
      next => exact (State.count_sameEngines ..).after rfl rfl

theorem State.scrub_sameEngines (s : State) (k n : Nat) : sameEngines s (s.scrub k n) := by
  unfold State.scrub
  split
  · exact .refl s
  · exact .foldl (fun s i => s.scrubGranule_sameEngines _) _ s

theorem State.tally_sameEngines (s : State) (r : Nat) (f : Fail) : sameEngines s (s.tally r f) := by
  unfold State.tally
  split
  · exact .refl s
  · exact (State.scrub_sameEngines ..).trans (State.count_sameEngines ..)

theorem State.scrubWalk_sameEngines (s : State) (p va : Nat) : sameEngines s (s.scrubWalk p va) := by
  unfold State.scrubWalk
  dsimp only
  split
  · exact .refl s
  · exact .foldl (fun s k => s.scrub_sameEngines k 8) _ s

theorem State.devScrub_sameEngines (s : State) (p va n : Nat) : sameEngines s (s.devScrub p va n) := by
  unfold State.devScrub
  dsimp only
  split
  · exact .refl s
  · refine ((s.scrubWalk_sameEngines p va).trans (State.scrubWalk_sameEngines _ p ((va + n - 1) % 2 ^ 48))).trans ?_
    split
    · exact .foldl (fun s k => s.scrub_sameEngines k 1) _ _
    · exact .refl _

theorem State.reachScrub_sameEngines (s : State) (p va n : Nat) : sameEngines s (s.reachScrub p va n) := by
  unfold State.reachScrub
  split
  · exact .refl s
  · exact (State.scrubWalk_sameEngines ..).trans (State.scrubWalk_sameEngines ..)

theorem State.message_sameEngines (s : State) (d code rank : Nat) (subject detail : Word) :
    sameEngines s (s.message d code rank subject detail) :=
  ((State.devScrub_sameEngines ..).trans (State.reachScrub_sameEngines ..)).trans (State.tell_sameEngines ..)

theorem State.cacheLeaf_sameEngines (s : State) (r va : Nat) : sameEngines s (s.cacheLeaf r va) := by
  unfold State.cacheLeaf
  split
  · exact .refl s
  · exact (State.scrubWalk_sameEngines ..).trans (.modHar fun _ e => by split <;> cases e <;> rfl)

/-! ### Tower banks -/

theorem State.refreshGranule_sameEngines (s : State) (gr : Nat) : sameEngines s (s.refreshGranule gr) := by
  unfold State.refreshGranule
  dsimp only
  split
  · exact (State.scrubGranule_sameEngines ..).trans (State.message_sameEngines ..)
  · exact State.scrubGranule_sameEngines ..

theorem State.alert_sameEngines (s : State) (r cell bank row : Nat) : sameEngines s (s.alert r cell bank row) :=
  ((sameEngines.foldl (fun s _ => s.refreshGranule_sameEngines _) _ s).trans (.modSp ..)).trans
    (State.message_sameEngines ..)

theorem State.touchRow_sameEngines (s : State) (r cell bank row beats : Nat) (close : Bool) :
    sameEngines s (s.touchRow r cell bank row beats close).1 := by
  unfold State.touchRow
  dsimp only
  split
  · exact (sameEngines.setBank ..).trans (State.alert_sameEngines ..)
  · exact sameEngines.setBank ..

theorem State.ask_sameEngines (s : State) (a : Asker) (k : Nat) : sameEngines s (s.ask a k) := by
  unfold State.ask
  split
  · exact sameEngines.setBank ..
  · exact .refl s

theorem State.unask_sameEngines (s : State) (a : Asker) (k : Nat) : sameEngines s (s.unask a k) := by
  unfold State.unask
  split
  · exact sameEngines.setBank ..
  · exact .refl s

theorem Served.step_sameEngines (close : Bool) (x : Served) (bs : List Nat) : sameEngines x.s (x.step close bs).s := by
  unfold Served.step
  dsimp only
  split
  · exact .refl _
  · split
    · exact .refl _
    · exact State.touchRow_sameEngines ..

theorem State.serveBeats_sameEngines (s : State) (close : Bool) (done : List (Nat × Bool)) (bs : List Nat) :
    sameEngines s (s.serveBeats close done bs).s :=
  List.foldlRecOn (motive := fun (x : Served) => sameEngines s x.s) _ _ (.refl s) fun _ h _ _ =>
    h.trans (Served.step_sameEngines ..)

theorem State.asks_sameEngines (s : State) (a : Asker) (bs : List Nat) :
    sameEngines s (bs.foldl (fun s b => s.ask a (256 * b)) s) :=
  .foldl (fun s b => s.ask_sameEngines a (256 * b)) bs s

theorem State.unasks_sameEngines (s : State) (a : Asker) (bs : List Nat) :
    sameEngines s (bs.foldl (fun s b => s.unask a (256 * b)) s) :=
  .foldl (fun s b => s.unask_sameEngines a (256 * b)) bs s

/-- The banks that serve a word leave its engine as it was. -/
theorem State.banks_ok_sameEngines {s t : State} {e : Eng} {f : Rec} {ks : List Nat} {n : Nat}
    (h : s.banks e f ks = .ok (t, n)) : sameEngines s t := by
  unfold State.banks at h
  dsimp only at h
  split at h
  · cases h
  · split at h
    · cases h
      exact (s.unasks_sameEngines ..).trans (State.serveBeats_sameEngines ..)
    · cases h

/-- Where a word waits for them, its engine holds the beats already served. -/
theorem State.banks_error {s t : State} {e : Eng} {f : Rec} {ks : List Nat} (h : s.banks e f ks = .error t) :
    ∃ rows, t.cur = s.cur ∧ t.eng e = { s.eng e with rows := rows } := by
  unfold State.banks at h
  dsimp only at h
  split at h
  · cases h
    have hk := s.asks_sameEngines (s.engAsker e f) ((beatsOf ks).filter fun b => !(s.eng e).rows.any fun x => x.1 == b)
    exact ⟨(s.eng e).rows, hk.1, hk.eng e⟩
  · split at h
    · cases h
    · cases h
      exact ⟨_, (((s.unasks_sameEngines ..).trans (State.serveBeats_sameEngines ..)).trans
        (State.asks_sameEngines ..)).eng_modEng ..⟩

end Sys2Proof.Machine
end

section
/-! O26: a word whose guard is false occupies its issue cycles and does nothing (01 R18; 05 R139, R140). -/

namespace Sys2Proof.Machine

open Sys2Proof.Safety

/-! ### Block faults and stalls leave the block at its word -/

theorem Ctl.addFault_eq (c : Ctl) (x : BFault) :
    ∃ y, c.addFault x = { c with frozen := true, bf := some y } ∧ (c.bf = none → y = x) := by
  cases hc : c.bf with
  | none => exact ⟨x, by rw [addFault, hc], fun _ => rfl⟩
  | some o =>
    refine ⟨if o.cls = 1 ∧ x.age < o.age then x else o, ?_, nofun⟩
    rw [addFault, hc]
    dsimp only
    split <;> rfl

/-- A block fault that no consumption has raised. -/
theorem State.blockFault_eq {s : State} {e : Eng} {b : Block} {f : Fail} (hb : (s.eng e).blk = some b) (hf : f.gran = none) :
    s.blockFault e f = (s.modCtl s.cur fun c => c.addFault (s.bfault e b.cmd (s.eng e).seqNo b.pc f)).modEng e fun x =>
      { x with stalled := true, rows := [] } := by
  simp [State.blockFault, hb, State.raiseFault, State.mutes, State.tally, hf]

theorem State.blockFaultC_eq {s : State} {e : Eng} {b : Block} (c : Nat) (hb : (s.eng e).blk = some b) :
    ∃ f, s.blockFaultC e c = s.setHar s.cur { (s.har s.cur).setEng e { s.eng e with stalled := true, rows := [] } with
        ctl := { (s.har s.cur).ctl with frozen := true, bf := some f } } ∧
      ((s.har s.cur).ctl.bf = none → f = s.bfault e b.cmd (s.eng e).seqNo b.pc { code := c }) := by
  obtain ⟨y, hy, hnone⟩ := (s.har s.cur).ctl.addFault_eq (s.bfault e b.cmd (s.eng e).seqNo b.pc { code := c })
  refine ⟨y, ?_, hnone⟩
  rw [State.blockFaultC, State.blockFault_eq hb rfl, State.modEng_eq, State.modCtl_eq, hy]
  refine (State.setHar_setHar ..).trans (congrArg (s.setHar s.cur) ?_)
  rw [State.eng_setHar, show State.cur (State.setHar ..) = s.cur from rfl, State.har_setHar]
  cases e <;> rfl

/-- In u the word of block b in issue on engine e of s has not moved, nor has its pipeline. -/
def stands (e : Eng) (b : Block) (s u : State) : Prop :=
  u.cur = s.cur ∧ (u.eng e).cyc = (s.eng e).cyc ∧ ∃ b', (u.eng e).blk = some b' ∧ b'.pc = b.pc ∧ b'.loops = b.loops

theorem stands.of_eng {e : Eng} {b : Block} {s u : State} {rows : List (Nat × Bool)} (hb : (s.eng e).blk = some b)
    (hc : u.cur = s.cur) (he : u.eng e = { s.eng e with rows := rows }) : stands e b s u :=
  ⟨hc, by rw [he], b, by rw [he]; exact hb, rfl, rfl⟩

theorem stands.of_same {e : Eng} {b : Block} {s u : State} (hb : (s.eng e).blk = some b) (h : sameEngines s u) :
    stands e b s u :=
  .of_eng hb h.1 (h.eng e)

theorem State.blockFault_pc {s u : State} {e : Eng} {b : Block} (h : stands e b s u) (f : Fail) :
    (((u.blockFault e f).eng e).blk.map (·.pc)) = some b.pc := by
  obtain ⟨-, -, b', hb', hpc, -⟩ := h
  simp only [State.blockFault, hb', State.raiseFault]
  split
  · simp [hpc]
  · have hk := (u.tally_sameEngines u.cur f).trans
      (.modCtl _ u.cur fun c => c.addFault (u.bfault e b'.cmd (u.eng e).seqNo b'.pc f))
    rw [State.eng_modEng, hk.eng]
    simp [hb', hpc]

theorem State.engStall_pc {s u : State} {e : Eng} {b : Block} (h : stands e b s u) (cause : Nat) (rs : List FeReg) :
    (((u.engStall e cause rs).eng e).blk.map (·.pc)) = some b.pc := by
  have hf := State.blockFault_pc h
  obtain ⟨-, -, b', hb', hpc, -⟩ := h
  have hpc' : ((u.eng e).blk.map (·.pc)) = some b.pc := by simp [hb', hpc]
  simp only [State.engStall, hb']
  split
  · exact hf _
  · split
    · split
      · exact hpc'
      · simpa using hpc'
    · simpa using hpc'

/-! ### What a word's own meaning leaves -/

/-- Whatever comes of a word, it has not moved before it issues. -/
def Issue.stands (e : Eng) (b : Block) (s : State) : Issue → Prop
  | .fault _ => True
  | .wait => True
  | .waitAt u => Machine.stands e b s u
  | .faultAt u _ => Machine.stands e b s u
  | .go u _ _ => Machine.stands e b s u
  | .goP u _ => Machine.stands e b s u

section
variable {s : State} {F : Front} {b : Block} (hb : (s.eng F.e).blk = some b)
include hb

theorem Issue.outcome_busy {x : Issue} (hx : x.stands F.e b s) (hl : ∀ l ∈ b.loops, l.last ≠ b.pc)
    (hpc : ((x.outcome s F b).eng F.e).blk.map (·.pc) = some (b.pc + 1)) :
    ((x.outcome s F b).eng F.e).busy = (s.eng F.e).cyc + F.occ := by
  have hs : Machine.stands F.e b s s := .of_same hb (.refl s)
  have moves {u : State} (hu : Machine.stands F.e b s u) (p : Pend) :
      ((u.issued F b p).eng F.e).busy = (s.eng F.e).cyc + F.occ := by
    obtain ⟨hcur, hcyc, b', hb', hpc', hloops⟩ := hu
    rw [State.issued_eq hb' (by rw [hpc', hloops]; exact hl), State.eng_setHar, Harness.eng_setEng, hcyc]
  have still {n : Option Nat} (h : n = some b.pc) (h' : n = some (b.pc + 1)) : False := by
    rw [h] at h'
    simp at h'
  cases x with
  | fault y => exact (still (State.blockFault_pc hs y) hpc).elim
  | wait => exact (still (State.engStall_pc hs 4 []) hpc).elim
  | waitAt u => exact (still (State.engStall_pc hx 4 []) hpc).elim
  | faultAt u y => exact (still (State.blockFault_pc hx y) hpc).elim
  | go u due effs => exact moves hx _
  | goP u p => exact moves hx _

/-- A word that issues occupies its cycles. -/
theorem State.issue_busy {run : State → Issue} (hs : (s.eng F.e).skip = false) (hg : b.guard F.gk F.gn = true)
    (hbad : F.bad = none) (hhold : F.hold = false) (hrun : (run s).stands F.e b s) (hl : ∀ l ∈ b.loops, l.last ≠ b.pc)
    (hpc : ((s.issue F run).eng F.e).blk.map (·.pc) = some (b.pc + 1)) :
    ((s.issue F run).eng F.e).busy = (s.eng F.e).cyc + F.occ := by
  have hstall := State.engStall_pc (.of_same hb (.refl s)) 3
    (F.takes.filter fun r => !(s.har s.cur).full r || (s.eng F.e).out r)
  have hout : s.issue F run = s.engStall F.e 3 (F.takes.filter fun r => !(s.har s.cur).full r || (s.eng F.e).out r) ∨
      s.issue F run = (run s).outcome s F b := by
    by_cases hfe : (!(s.har s.cur).feReady F.takes F.fills || F.takes.any (s.eng F.e).out) = true
    · left
      simp [State.issue, hb, hs, hbad, hhold, hg, hfe]
    · right
      simp only [State.issue, hb, hs, hbad, hhold, hg, hfe]
      cases run s <;> rfl
  rcases hout with h | h
  · rw [h, hstall] at hpc
    simp at hpc
  · rw [h] at hpc ⊢
    exact Issue.outcome_busy hb hrun hl hpc

end

/-! ### A guard that is false -/

/-- The word i of engine e, whose guard is false, does nothing in as many cycles as i', the same word with a true one; or both
fault alike. -/
def guardedOff (s : State) (b : Block) (e : Eng) (i i' : Instr) : Prop :=
  (∃ occ, 1 ≤ occ ∧ exec i s = .next (s.finishWord e occ) ∧
    ∀ u, exec i' s = .next u → ((u.eng e).blk.map (·.pc)) = some (b.pc + 1) → (∀ l ∈ b.loops, l.last ≠ b.pc) →
      (u.eng e).busy = (s.eng e).cyc + occ) ∨
  ∃ c ∈ [cILLEGAL_INSTR, cVL_RANGE], exec i s = .next (s.blockFaultC e c) ∧ exec i' s = .next (s.blockFaultC e c)

section
variable {s : State} {b : Block} {g : BitVec 3} {n : Bool} {i i' : Instr}

theorem guardedOff_of_issue {F : Front} {run run' : State → Issue} (hb : (s.eng F.e).blk = some b)
    (hs : (s.eng F.e).skip = false) (hg : b.guard F.gk F.gn = false) (hg' : b.guard g n = true)
    (hi : exec i s = .next (s.issue F run)) (hi' : exec i' s = .next (s.issue { F with gk := g, gn := n } run'))
    (hocc : 1 ≤ F.occ) (hhold : F.hold = false) (hbad : ∀ c, F.bad = some c → c ∈ [cILLEGAL_INSTR, cVL_RANGE])
    (hrun : (run' s).stands F.e b s) : guardedOff s b F.e i i' := by
  cases hF : F.bad with
  | some c =>
    refine .inr ⟨c, hbad c hF, hi.trans ?_, hi'.trans ?_⟩ <;> simp [State.issue, hb, hs, hF]
  | none =>
    refine .inl ⟨F.occ, hocc, hi.trans ?_, fun u hu hpc hl => ?_⟩
    · simp [State.issue, hb, hs, hF, hhold, hg]
    · cases Host.Outcome.next.inj (hi'.symm.trans hu)
      exact State.issue_busy (F := { F with gk := g, gn := n }) hb hs hg' hF hhold hrun hl hpc

end

end Sys2Proof.Machine
end

section
/-! O26: every V, D and T instruction under a false guard. -/

namespace Sys2Proof.Machine

open Sys2Proof.Safety

/-! ### V -/

theorem occupancy_pos (vl size : Nat) : 1 ≤ occupancy vl size := Nat.le_max_left ..

/-- The count of rounding issues is no part of where a word stands. -/
theorem State.nextJ_stands {s : State} {e : Eng} {b : Block} (hb : (s.eng e).blk = some b) (sr : Bool) :
    stands e b s (s.nextJ e sr).1 := by
  simp only [State.nextJ, hb]
  cases sr
  · exact .of_same hb (.refl s)
  · exact ⟨rfl, by simp, { b with j := b.j + 1 }, by simp, rfl, rfl⟩

/-- What a V word of a form needs to issue. -/
def VForm.front (f : VForm) (s : State) (w : VWord) : Front :=
  { e := .v, gk := w.gk, gn := w.gn, takes := vTakes w, fills := f.fills
    bad := if f.bad then some cILLEGAL_INSTR else if f.areas.any (fun n => decide (2048 < n)) then some cVL_RANGE else none
    occ := if f.size = 0 then 1 else occupancy (s.har s.cur).vl.toNat f.size }

theorem VForm.front_occ_pos (f : VForm) (s : State) (w : VWord) : 1 ≤ (f.front s w).occ := by
  unfold front
  dsimp only
  split
  · exact le_rfl
  · exact occupancy_pos ..

theorem VForm.front_bad (f : VForm) (s : State) (w : VWord) {c : Nat} (hc : (f.front s w).bad = some c) :
    c ∈ [cILLEGAL_INSTR, cVL_RANGE] := by
  unfold front at hc
  dsimp only at hc
  split at hc
  · cases hc; decide
  · split at hc
    · cases hc; decide
    · cases hc

section
variable {s : State} {b : Block} {g : BitVec 3} {n : Bool} {i i' : Instr}

theorem State.vIssue_eq (hb : (s.eng .v).blk = some b) (v : VWord) (form : VForm)
    (body : Harness → Nat → Nat → List Eff) :
    ∃ run, s.vIssue v form body = s.issue (form.front s v) run ∧ (run s).stands .v b s := by
  unfold State.vIssue
  exact ⟨_, rfl, State.nextJ_stands hb form.sr⟩

theorem guardedOff_of_vIssue {v : VWord} {form : VForm} {body body' : Harness → Nat → Nat → List Eff}
    (hb : (s.eng .v).blk = some b) (hs : (s.eng .v).skip = false) (hg : b.guard v.gk v.gn = false)
    (hg' : b.guard g n = true) (hi : exec i s = .next (s.vIssue v form body))
    (hi' : exec i' s = .next (s.vIssue { v with gk := g, gn := n } form body')) : guardedOff s b .v i i' := by
  obtain ⟨run, hv, -⟩ := State.vIssue_eq hb v form body
  obtain ⟨run', hv', hstands⟩ := State.vIssue_eq hb { v with gk := g, gn := n } form body'
  rw [hv] at hi
  rw [hv'] at hi'
  exact guardedOff_of_issue (F := form.front s v) hb hs hg hg' hi hi' (form.front_occ_pos s v) rfl
    (fun _ => form.front_bad s v) hstands

end

/-- The meaning x of V words issues a word and the same word with another guard with the same form. -/
def vForms (s : State) (v : VWord) (g : BitVec 3) (n : Bool) (x : VWord → Out) : Prop :=
  ∃ form body body', x v = .next (s.vIssue v form body) ∧
    x { v with gk := g, gn := n } = .next (s.vIssue { v with gk := g, gn := n } form body')

section
variable (s : State) (v : VWord) (g : BitVec 3) (n : Bool)

theorem vArith_forms (o : ArOp) (sc : Bool) : vForms s v g n fun w => .next (s.vArith w o sc) := by
  unfold State.vArith
  exact ⟨_, _, _, rfl, rfl⟩

theorem vDot_forms (ty lat : Nat) (el : VWord → Nat → Nat → Nat → Nat × Num.Flags) :
    vForms s v g n fun w => .next (s.vDot w ty lat (el w)) := by
  unfold State.vDot
  exact ⟨_, _, _, rfl, rfl⟩

theorem vFunc_forms (two : Bool) (fn : Num.Val → Num.Val → Num.Val × Num.Flags) :
    vForms s v g n fun w => .next (s.vFunc w two fn) := by
  unfold State.vFunc
  exact ⟨_, _, _, rfl, rfl⟩

theorem vSeed_forms (fn : Num.Val → Num.Val × Num.Flags) : vForms s v g n fun w => .next (s.vSeed w fn) := by
  unfold State.vSeed
  exact ⟨_, _, _, rfl, rfl⟩

theorem vBits_forms (use : VUse) (ok : VWord → Bool) (el : VWord → VTy → List Nat → Nat)
    (hok : ok { v with gk := g, gn := n } = ok v) : vForms s v g n fun w => .next (s.vBits w use (ok w) (el w)) := by
  unfold State.vBits
  rw [vForms, hok]
  exact ⟨_, _, _, rfl, rfl⟩

theorem vReduce_forms (o : RedOp) (sq : Bool) : vForms s v g n fun w => .next (s.vReduce w o sq) := by
  unfold State.vReduce
  exact ⟨_, _, _, rfl, rfl⟩

end

/-- A word whose one check has failed. -/
theorem mem_of_illegal {p : Prop} [Decidable p] {c : Nat} (h : (if p then some cILLEGAL_INSTR else none) = some c) :
    c ∈ [cILLEGAL_INSTR, cVL_RANGE] := by
  obtain ⟨-, h⟩ := Option.ite_none_right_eq_some.mp h
  cases h
  exact List.mem_cons_self

namespace Issue.stands

variable {e : Eng} {b : Block} {s : State}

theorem fault (f : Fail) : (Issue.fault f).stands e b s := trivial

theorem wait : Issue.wait.stands e b s := trivial

theorem ite {p : Prop} [Decidable p] {x y : Issue} (hx : x.stands e b s) (hy : y.stands e b s) :
    (if p then x else y).stands e b s := by
  split
  · exact hx
  · exact hy

theorem ofAt (h : Machine.stands e b s s) (eng : Eng) (lat : Nat) (effs : List Eff) : (s.at eng lat effs).stands e b s := h

end Issue.stands

theorem vSetl_guarded {s : State} {b : Block} {v : VWord} {g : BitVec 3} {n : Bool} (hb : (s.eng .v).blk = some b)
    (hs : (s.eng .v).skip = false) (hg : b.guard v.gk v.gn = false) (hg' : b.guard g n = true) :
    guardedOff s b .v (.vsetl v) (.vsetl { v with gk := g, gn := n }) := by
  exact guardedOff_of_issue (F := { e := .v, gk := v.gk, gn := v.gn, bad := if _ then some cILLEGAL_INSTR else none }) hb hs hg
    hg' rfl rfl le_rfl rfl (fun _ => mem_of_illegal) (.ite (.fault _) (.ofAt (.of_same hb (.refl s)) _ _ _))

theorem vWords_guarded {s : State} {b : Block} {v : VWord} {g : BitVec 3} {n : Bool} (hb : (s.eng .v).blk = some b)
    (hs : (s.eng .v).skip = false) (hg : b.guard v.gk v.gn = false) (hg' : b.guard g n = true) :
    ∀ f ∈ [Instr.vadd, .vsub, .vmul, .vfma, .vmin, .vmax, .vmulh, .vabsd, .vdot4, .vdot2, .vadds, .vsubs, .vmuls, .vfmas,
      .vmins, .vmaxs, .vrcpe, .vrsqe, .vrcp, .vrsq, .vsqrt, .vexp2, .vlog2, .vexp, .vlog, .vsinp, .vcosp, .vtanh, .verf,
      .vdiv, .vcmp, .vclass, .vsel, .vand, .vor, .vxor, .vnot, .vshl, .vshr, .vsra, .vcvt, .vpack, .vunpk, .vquant, .vdeq,
      .vbmax, .vrsum, .vrmax, .vrmin, .vrssq, .vscan, .vpart, .viota, .vperm, .vgath, .vscat, .vmov, .vsplat, .vbcst, .vextr,
      .vins, .vsetl, .vcadd], guardedOff s b .v (f v) (f { v with gk := g, gn := n }) := by
  have shared (f : VWord → Instr) (hf : vForms s v g n fun w => exec (f w) s) :
      guardedOff s b .v (f v) (f { v with gk := g, gn := n }) := by
    obtain ⟨form, body, body', hi, hi'⟩ := hf
    exact guardedOff_of_vIssue hb hs hg hg' hi hi'
  iterate 8 refine List.forall_mem_cons.mpr ⟨shared _ (vArith_forms ..), ?_⟩
  iterate 2 refine List.forall_mem_cons.mpr ⟨shared _ (vDot_forms s v g n _ _ _), ?_⟩
  iterate 6 refine List.forall_mem_cons.mpr ⟨shared _ (vArith_forms ..), ?_⟩
  iterate 2 refine List.forall_mem_cons.mpr ⟨shared _ (vSeed_forms ..), ?_⟩
  iterate 12 refine List.forall_mem_cons.mpr ⟨shared _ (vFunc_forms ..), ?_⟩
  iterate 10 refine List.forall_mem_cons.mpr ⟨shared _ (vBits_forms s v g n _ _ _ rfl), ?_⟩
  iterate 6 refine List.forall_mem_cons.mpr ⟨shared _ ⟨_, _, _, rfl, rfl⟩, ?_⟩
  iterate 4 refine List.forall_mem_cons.mpr ⟨shared _ (vReduce_forms ..), ?_⟩
  iterate 6 refine List.forall_mem_cons.mpr ⟨shared _ ⟨_, _, _, rfl, rfl⟩, ?_⟩
  refine List.forall_mem_cons.mpr ⟨shared _ (vBits_forms s v g n _ _ _ rfl), ?_⟩
  iterate 4 refine List.forall_mem_cons.mpr ⟨shared _ ⟨_, _, _, rfl, rfl⟩, ?_⟩
  refine List.forall_mem_cons.mpr ⟨vSetl_guarded hb hs hg hg', ?_⟩
  exact List.forall_mem_singleton.mpr (shared _ ⟨_, _, _, rfl, rfl⟩)

/-! ### D -/

@[simp] theorem Harness.eng_apply (h : Harness) (x : Eff) (e : Eng) : (h.apply x).eng e = h.eng e := by
  cases x with
  | fillV r | fillS r | fillA r => cases e <;> rfl
  | _ => cases e <;> rfl

@[simp] theorem Harness.eng_applyAll (h : Harness) (xs : List Eff) (e : Eng) : (h.applyAll xs).eng e = h.eng e :=
  List.foldlRecOn (motive := fun k => Harness.eng k e = h.eng e) xs Harness.apply rfl fun _ hk _ _ => (eng_apply ..).trans hk

theorem State.banks_stands {s u w : State} {e : Eng} {b : Block} {f : Rec} {ks : List Nat} (hb : (s.eng e).blk = some b)
    (hu : sameEngines s u) (h : u.banks e f ks = .error w) : stands e b s w := by
  obtain ⟨rows, hcur, heng⟩ := State.banks_error h
  exact .of_eng hb (hcur.trans hu.1) (by rw [heng, hu.eng])

theorem State.readFault_stands {s u : State} {b : Block} (hb : (s.eng .d).blk = some b) (hu : sameEngines s u) (f : Rec)
    (pos cell : Nat) (x : Read Unit) : (u.readFault f pos cell x).stands .d b s := by
  have here : stands .d b s u := .of_same hb hu
  cases x with
  | fail k y =>
    cases k with
    | none => exact here
    | some k =>
      simp only [State.readFault]
      split
      next h => exact State.banks_stands hb hu h
      next h => exact .of_same hb (hu.trans (State.banks_ok_sameEngines h))
  | bad c => exact here
  | ok y => exact .wait

theorem State.latchSeg_sameEngines (s : State) (p : Nat) (pos : Pos) (r : BufRec) : sameEngines s (s.latchSeg p pos r) := by
  unfold State.latchSeg
  split
  · exact .modHar fun h e => h.eng_apply ..
  · exact .refl s

theorem State.decode_stands {s u : State} {b : Block} (hb : (s.eng .d).blk = some b) (hu : sameEngines s u) (w : DWord)
    (pos : Pos) (x : Tile) (tslot : Nat) (bar : Option (Word × Word)) (via : Option Word)
    (segs : List (Nat × List (List Byte))) : (s.decode u w pos x tslot bar via segs).stands .d b s := by
  unfold State.decode
  dsimp only
  split
  · exact .of_same hb (.modHar fun h e => h.eng_applyAll ..)
  · exact .of_same hb hu

section
variable {s : State} {b : Block} {g : BitVec 3} {n : Bool} (hb : (s.eng .d).blk = some b) (hs : (s.eng .d).skip = false)
  (hg' : b.guard g n = true)
include hb hs hg'

theorem dWord_guarded {w : DWord} {i i' : Instr} {u : DUse} {more : Bool} {fill : FeReg} {run run' : State → Issue}
    (hg : b.guard w.gk w.gn = false) (hi : exec i s = .next (s.issue (dFront w u more fill) run))
    (hi' : exec i' s = .next (s.issue (dFront { w with gk := g, gn := n } u more fill) run'))
    (hrun : (run' s).stands .d b s) : guardedOff s b .d i i' :=
  guardedOff_of_issue (F := dFront w u more fill) hb hs hg hg' hi hi' le_rfl rfl (fun _ => mem_of_illegal) hrun

variable {w : DWord} (hg : b.guard w.gk w.gn = false)
include hg

theorem dSlot_guarded : ∀ f ∈ [Instr.dclaim, .drel, .dzero, .dfill, .dread, .dcvt, .dlds, .dldt, .dscl],
    guardedOff s b .d (f w) (f { w with gk := g, gn := n }) := by
  have here : stands .d b s s := .of_same hb (.refl s)
  have guarded {i i' : Instr} {u : DUse} {more : Bool} {fill : FeReg} {run run' : State → Issue} :=
    dWord_guarded (w := w) (i := i) (i' := i') (u := u) (more := more) (fill := fill) (run := run) (run' := run') hb hs hg' hg
  simp only [List.forall_mem_cons, List.not_mem_nil, false_imp_iff, implies_true, and_true]
  refine ⟨guarded rfl rfl (.ite (.fault _) here), guarded rfl rfl (.ite (.fault _) (.ite (.fault _) (.ite .wait here))),
    guarded rfl rfl here, guarded rfl rfl here, guarded rfl rfl (State.nextJ_stands hb _), guarded rfl rfl ?_,
    guarded rfl rfl ?_, guarded rfl rfl ?_, guarded rfl rfl (.ite (.fault _) here)⟩
  · dsimp only
    split
    · exact .fault _
    · exact State.nextJ_stands hb _
  · dsimp only
    split
    · exact .fault _
    · exact here
  · dsimp only
    split
    · exact .fault _
    · exact here

theorem dDecode_guarded : ∀ f ∈ [Instr.dtbl, .dseek, .ddec, .dstat, .dcadd],
    guardedOff s b .d (f w) (f { w with gk := g, gn := n }) := by
  have here : stands .d b s s := .of_same hb (.refl s)
  have guarded {i i' : Instr} {u : DUse} {more : Bool} {fill : FeReg} {run run' : State → Issue} :=
    dWord_guarded (w := w) (i := i) (i' := i') (u := u) (more := more) (fill := fill) (run := run) (run' := run') hb hs hg' hg
  simp only [List.forall_mem_cons, List.not_mem_nil, false_imp_iff, implies_true, and_true]
  refine ⟨guarded rfl rfl (.ite .wait (.ite here ?_)), guarded rfl rfl (.ite .wait ?_), guarded rfl rfl ?_,
    guarded rfl rfl (.ite .wait here), guarded rfl rfl here⟩
  case refine_1 => exact stands.of_same hb (.modHar fun h e => by cases e <;> rfl)
  case refine_2 =>
    split
    next => exact .fault _
    next =>
      refine .ite (.fault _) ?_
      split
      next =>
        refine .ite .wait ?_
        split
        next h => exact State.banks_stands hb (.refl s) h
        next h => exact stands.of_same hb (State.banks_ok_sameEngines h)
      next => exact State.readFault_stands hb (.refl s) ..
  case refine_3 =>
    dsimp only
    split
    next => exact .fault _
    next =>
      refine .ite .wait (.ite (.fault _) ?_)
      split
      next => exact .fault _
      next =>
        split
        next => exact .fault _
        next =>
          split
          next =>
            refine .ite .wait ?_
            split
            next h => exact State.banks_stands hb (.refl s) h
            next h => exact State.decode_stands hb (State.banks_ok_sameEngines h) ..
          next => exact State.readFault_stands hb (State.latchSeg_sameEngines ..) ..

end

/-- A DMMA waits for the dot array under any guard (08 R246). -/
theorem dmma_holds {s : State} {b : Block} {m : MWord} (hb : (s.eng .d).blk = some b) (hs : (s.eng .d).skip = false)
    (harr : (s.eng .d).cyc < (s.eng .d).array) (hm : mmaBad m = false) : exec (.dmma m) s = .next s := by
  refine (show exec (.dmma m) s = .next (s.issue _ _) from rfl).trans (congrArg _ ?_)
  simp [State.issue, hb, hs, hm, harr]

theorem dmma_guarded {s : State} {b : Block} {m : MWord} {g : BitVec 3} {n : Bool} (hb : (s.eng .d).blk = some b)
    (hs : (s.eng .d).skip = false) (hg : b.guard m.gk m.gn = false) (hg' : b.guard g n = true)
    (harr : (s.eng .d).array ≤ (s.eng .d).cyc) : guardedOff s b .d (.dmma m) (.dmma { m with gk := g, gn := n }) := by
  refine guardedOff_of_issue (F :=
    { e := .d, gk := m.gk, gn := m.gn, bad := if mmaBad m then some cILLEGAL_INSTR else none, takes := _, fills := _
      hold := decide ((s.eng .d).cyc < (s.eng .d).array) }) hb hs hg hg' rfl rfl le_rfl
    (decide_eq_false (Nat.not_lt.mpr harr)) (fun _ => mem_of_illegal) ?_
  dsimp only
  split
  · refine .ite (.fault _) (.ite (.fault _) (.ite (.fault _) (.ite (.fault _) ?_)))
    exact ⟨rfl, by simp, b, by simpa using hb, rfl, rfl⟩
  · exact .fault _

end Sys2Proof.Machine
end

section
/-! O26: the T instructions, and the whole. -/

namespace Sys2Proof.Machine

open Sys2Proof.Safety

/-! ### What memory instructions do at issue leaves the engines -/

theorem State.scrubSpots_sameEngines (s : State) (sps : List Spot) : sameEngines s (s.scrubSpots sps) := by
  unfold State.scrubSpots
  split
  · exact .refl s
  · exact .foldl (fun s x => .foldl (fun s k => s.scrub_sameEngines k 1) x.keys s) sps s

theorem State.cacheSpots_sameEngines (s : State) (r : Nat) (b : BufRec) (sps : List Spot) :
    sameEngines s (s.cacheSpots r b sps) := by
  unfold State.cacheSpots
  split
  · exact .foldl (fun s x => s.cacheLeaf_sameEngines r _) _ s
  · exact .refl s

theorem State.noteKeys_sameEngines (s : State) (ks : List Nat) (w : Poster) : sameEngines s (s.noteKeys ks w) := by
  unfold State.noteKeys
  dsimp only
  split
  · exact .refl s
  · exact .of_hs rfl rfl

theorem State.write_sameEngines (s : State) (k : Nat) (bs : List Byte) : sameEngines s (s.write k bs) :=
  .of_onlyMemory (s.write_onlyMemory k bs)

theorem State.putCells_sameEngines (s : State) (bits : Nat) (rows : List (List (Option Spot) × List Nat)) :
    sameEngines s (s.putCells bits rows).1 :=
  List.foldlRecOn (motive := fun (x : State × Nat) => sameEngines s x.1) rows _ (.refl s) fun x h _ _ =>
    (h.trans (x.1.noteKeys_sameEngines _ _)).trans
      (.foldl (f := fun s (kb : Nat × List Byte) => s.write kb.1 kb.2) (fun s kb => s.write_sameEngines kb.1 kb.2) _ _)

theorem State.countBytes_sameEngines (s : State) (n : Nat) : sameEngines s (s.countBytes n) := .modCtl ..

theorem State.atomAll_sameEngines (s : State) (f : Rec) (rows : List (List (Option Spot) × List Nat)) :
    sameEngines s (s.atomAll f rows) := by
  refine .foldl (fun s row => .foldl (fun s x => ?_) _ s) rows s
  split
  · exact .refl s
  · exact (State.noteKeys_sameEngines ..).trans (.of_onlyMemory (State.writeKeys_onlyMemory ..))

theorem State.barChunks_sameEngines (k : Nat) (cs : List Nat) (s : State) : sameEngines s (s.barChunks k cs).1 := by
  induction cs generalizing s with
  | nil => exact .refl s
  | cons c cs ih =>
    unfold State.barChunks
    split
    · exact (s.write_sameEngines ..).trans (ih _)
    · exact .refl s

/-! ### Where they stand -/

section
variable {s u : State} {b : Block} (hb : (s.eng .t).blk = some b)
include hb

theorem State.barrTaken_stands (hu : sameEngines s u) (left : Option Nat) : stands .t b s (u.barrTaken left) := by
  have hk : sameEngines s (u.modCtl u.cur fun c => { c with node := c.node.map fun (x : Node) => { x with tbytes := 0 } }) :=
    hu.trans (.modCtl ..)
  obtain ⟨hcur, heng⟩ := hk.eng_modEng .t fun x => { x with tbLeft := left }
  exact ⟨hcur, by rw [State.barrTaken, heng], b, by rw [State.barrTaken, heng]; exact hb, rfl, rfl⟩

theorem State.barrUpdates_stands (hu : sameEngines s u) (k n : Nat) (arr : Bool) :
    stands .t b s (u.barrUpdates k n arr).1 := by
  have hk := hu.trans (u.barChunks_sameEngines k (chunks (n / 2048 + 1) n))
  unfold State.barrUpdates
  dsimp only
  split
  · exact State.barrTaken_stands hb hk _
  · split
    · exact State.barrTaken_stands hb hk _
    · split
      · exact State.barrTaken_stands hb (hk.trans (State.write_sameEngines ..)) _
      · exact State.barrTaken_stands hb hk _

theorem State.tLoad_stands (r : BufRec) (f : Rec) (fixed : Bool) (rows : Except Fail (List (List (Option Spot))))
    (effs : Nat → List Nat → List Eff) : (s.tLoad r f fixed rows effs).stands .t b s := by
  unfold State.tLoad
  split
  next => exact .fault _
  next =>
    refine .ite .wait ?_
    split
    next h => exact State.banks_stands hb (.refl s) h
    next h =>
      have hk := State.banks_ok_sameEngines h
      split
      next => exact stands.of_same hb hk
      next => exact stands.of_same hb ((hk.trans (State.scrubSpots_sameEngines ..)).trans (State.cacheSpots_sameEngines ..))

theorem State.tStore_stands (r : BufRec) (f : Rec) (rows : Except Fail (List (List (Option Spot))))
    (codes : Nat → List Nat) : (s.tStore r f rows codes).stands .t b s := by
  unfold State.tStore
  split
  next => exact .fault _
  next =>
    refine .ite .wait ?_
    split
    next h => exact State.banks_stands hb (.refl s) h
    next h =>
      exact stands.of_same hb ((((State.banks_ok_sameEngines h).trans (State.cacheSpots_sameEngines ..)).trans
        (State.putCells_sameEngines ..)).trans (State.countBytes_sameEngines ..))

end

section
variable {s : State} {b : Block} {g : BitVec 3} {n : Bool} (hb : (s.eng .t).blk = some b) (hs : (s.eng .t).skip = false)
  (hg' : b.guard g n = true)
include hb hs hg'

theorem tWord_guarded {w : TWord} {i i' : Instr} {u : TUse} {run run' : State → Issue}
    (hg : b.guard w.gk w.gn = false) (hi : exec i s = .next (s.issue (tFront w u) run))
    (hi' : exec i' s = .next (s.issue (tFront { w with gk := g, gn := n } u) run'))
    (hrun : (run' s).stands .t b s) : guardedOff s b .t i i' :=
  guardedOff_of_issue (F := tFront w u) hb hs hg hg' hi hi' le_rfl rfl (fun _ => mem_of_illegal) hrun

variable {w : TWord} (hg : b.guard w.gk w.gn = false)
include hg

theorem tElements_guarded : ∀ f ∈ [Instr.tld, .tst, .tlds, .tgath, .tscat],
    guardedOff s b .t (f w) (f { w with gk := g, gn := n }) := by
  have guarded {i i' : Instr} {u : TUse} {run run' : State → Issue} :=
    tWord_guarded (w := w) (i := i) (i' := i') (u := u) (run := run) (run' := run') hb hs hg' hg
  simp only [List.forall_mem_cons, List.not_mem_nil, false_imp_iff, implies_true, and_true]
  refine ⟨guarded rfl rfl ?_, guarded rfl rfl ?_, guarded rfl rfl (.ite (.fault _) ?_), guarded rfl rfl ?_, guarded rfl rfl ?_⟩
  case refine_1 =>
    dsimp only
    split
    next => exact .fault _
    next => exact .ite (.fault _) (State.tLoad_stands hb ..)
  case refine_2 =>
    dsimp only
    split
    next => exact .fault _
    next => exact .ite (.fault _) (State.tStore_stands hb ..)
  case refine_3 =>
    split
    next => exact .fault _
    next => exact State.tLoad_stands hb ..
  case refine_4 =>
    dsimp only
    split
    next => exact .fault _
    next => exact .ite (.fault _) (State.tLoad_stands hb ..)
  case refine_5 =>
    dsimp only
    split
    next => exact .fault _
    next => exact .ite (.fault _) (State.tStore_stands hb ..)

theorem tExchange_guarded : ∀ f ∈ [Instr.tshift, .txsend, .txrecv],
    guardedOff s b .t (f w) (f { w with gk := g, gn := n }) := by
  have guarded {i i' : Instr} {u : TUse} {run run' : State → Issue} :=
    tWord_guarded (w := w) (i := i) (i' := i') (u := u) (run := run) (run' := run') hb hs hg' hg
  simp only [List.forall_mem_cons, List.not_mem_nil, false_imp_iff, implies_true, and_true]
  refine ⟨?_, guarded rfl rfl ?_, guarded rfl rfl ?_⟩
  case refine_1 =>
    obtain ⟨run, hexec, -⟩ := execTshift_eq w s
    obtain ⟨run', hexec', hrun⟩ := execTshift_eq { w with gk := g, gn := n } s
    refine guarded hexec hexec' ?_
    rw [hrun _ _ rfl rfl]
    exact .ite .wait (stands.of_eng hb (by rw [(s.shifted_eq ..).1]) (s.eng_shifted ..))
  case refine_2 =>
    dsimp only
    split
    next => exact .fault _
    next => exact .ite .wait (stands.of_same hb (.of_hs rfl rfl))
  case refine_3 =>
    dsimp only
    split
    next => exact .fault _
    next =>
      split
      next => exact .wait
      next => exact stands.of_same hb (.modHar fun _ e => by cases e <;> rfl)

theorem tSparse_guarded : ∀ f ∈ [Instr.tspst, .tspld, .tbarr, .tatom],
    guardedOff s b .t (f w) (f { w with gk := g, gn := n }) := by
  have guarded {i i' : Instr} {u : TUse} {run run' : State → Issue} :=
    tWord_guarded (w := w) (i := i) (i' := i') (u := u) (run := run) (run' := run') hb hs hg' hg
  simp only [List.forall_mem_cons, List.not_mem_nil, false_imp_iff, implies_true, and_true]
  refine ⟨guarded rfl rfl ?_, guarded rfl rfl ?_, guarded rfl rfl ?_, guarded rfl rfl ?_⟩
  case refine_1 =>
    dsimp only
    split
    next => exact .fault _
    next =>
      refine .ite (.fault _) (.ite (.fault _) ?_)
      split
      next => exact .fault _
      next =>
        split
        next => exact .fault _
        next => exact State.tStore_stands hb ..
  case refine_2 =>
    dsimp only
    split
    next => exact .fault _
    next =>
      refine .ite (.fault _) (.ite (.fault _) ?_)
      split
      next => exact .fault _
      next =>
        refine .ite .wait ?_
        split
        next => exact .fault _
        next =>
          split
          next h => exact State.banks_stands hb (.refl s) h
          next h => exact stands.of_same hb (State.banks_ok_sameEngines h)
        next =>
          split
          next h => exact State.banks_stands hb (.refl s) h
          next h =>
            exact stands.of_same hb (((State.banks_ok_sameEngines h).trans (State.scrubSpots_sameEngines ..)).trans
              (State.cacheSpots_sameEngines ..))
  case refine_3 =>
    dsimp only
    split
    next => exact .fault _
    next =>
      refine .ite (.fault _) (.ite (.fault _) ?_)
      split
      next => exact .fault _
      next =>
        refine .ite (State.barrTaken_stands hb (.refl s) _) (.ite .wait ?_)
        split
        next h => exact State.banks_stands hb (.refl s) h
        next h =>
          have hk := State.banks_ok_sameEngines h
          split
          next => exact stands.of_same hb hk
          next =>
            have hu (x : List Spot) (r : Nat) (c : BufRec) (y : List Spot) :=
              (hk.trans (State.scrubSpots_sameEngines _ x)).trans (State.cacheSpots_sameEngines _ r c y)
            exact .ite (State.barrUpdates_stands hb (hu ..) ..) (State.barrUpdates_stands hb (hu ..) ..)
  case refine_4 =>
    dsimp only
    split
    next => exact .fault _
    next =>
      refine .ite (.fault _) (.ite (.fault _) (.ite (.fault _) ?_))
      split
      next => exact .fault _
      next =>
        refine .ite .wait ?_
        split
        next h => exact State.banks_stands hb (.refl s) h
        next h =>
          have hk := State.banks_ok_sameEngines h
          split
          next => exact stands.of_same hb hk
          next =>
            exact stands.of_same hb (((hk.trans (State.scrubSpots_sameEngines ..)).trans (State.atomAll_sameEngines ..)).trans
              (State.countBytes_sameEngines ..))

theorem tRegisters_guarded : ∀ f ∈ [Instr.teadd, .temov, .txch],
    guardedOff s b .t (f w) (f { w with gk := g, gn := n }) := by
  have here : stands .t b s s := .of_same hb (.refl s)
  have guarded {i i' : Instr} {u : TUse} {run run' : State → Issue} :=
    tWord_guarded (w := w) (i := i) (i' := i') (u := u) (run := run) (run' := run') hb hs hg' hg
  simp only [List.forall_mem_cons, List.not_mem_nil, false_imp_iff, implies_true, and_true]
  exact ⟨guarded rfl rfl here, guarded rfl rfl here, guarded rfl rfl here⟩

end

/-! ### The whole -/

/-- Settles O26: a word with a false guard and the same word with a true one go through the same front (`guardedOff_of_issue`);
whatever the second one's own meaning leaves, it has not moved the block before the word issues (`Issue.stands`). -/
theorem falseGuard : Obligations.FalseGuard := by
  intro s v d m t b g n
  dsimp only
  refine ⟨fun e occ c hb => ⟨fun hl => ?_, ?_, ?_⟩, fun hg' => ⟨fun hb hs hg => ?_, fun hb hs => ⟨fun hg => ?_, fun hg =>
    ⟨fun harr => dmma_guarded hb hs hg hg' harr, fun harr hm => dmma_holds hb hs harr hm⟩⟩, fun hb hs hg => ?_⟩⟩
  · rw [State.finishWord_plain _ hb hl, State.modEng_eq]
    exact ⟨onlyHar_setHar .., State.har_setHar ..⟩
  · obtain ⟨f, hf, -⟩ := State.blockFaultC_eq c hb
    rw [hf]
    exact onlyHar_setHar ..
  · obtain ⟨f, hf, hnone⟩ := State.blockFaultC_eq c hb
    refine ⟨f, by rw [hf]; exact State.har_setHar .., fun hbf => ?_⟩
    cases hnone hbf
    simp [State.bfault]
  · exact vWords_guarded hb hs hg hg'
  · exact List.forall_mem_append (l₁ := [Instr.dclaim, .drel, .dzero, .dfill, .dread, .dcvt, .dlds, .dldt, .dscl]).mpr
      ⟨dSlot_guarded hb hs hg' hg, dDecode_guarded hb hs hg' hg⟩
  · exact List.forall_mem_append (l₁ := [Instr.tld, .tst, .tlds, .tgath, .tscat]).mpr ⟨tElements_guarded hb hs hg' hg,
      List.forall_mem_append (l₁ := [Instr.tshift, .txsend, .txrecv]).mpr ⟨tExchange_guarded hb hs hg' hg,
        List.forall_mem_append (l₁ := [Instr.tspst, .tspld, .tbarr, .tatom]).mpr ⟨tSparse_guarded hb hs hg' hg,
          tRegisters_guarded hb hs hg' hg⟩⟩⟩

end Sys2Proof.Machine
end

section
/-! SUPPORT. Tower banks that are quiet serve a whole word at once (02 R49, R50, R66, R67): its beats wear each bank by at most
one access a beat, which reaches neither the guard of its refresh nor its alert. -/

namespace Sys2Proof.Machine

open Sys2Proof.Safety

/-! ### The beats of a word -/

theorem dedup_foldl (xs acc : List Nat) (hacc : acc.Nodup) :
    (xs.foldl (fun acc x => if acc.contains x then acc else x :: acc) acc).Nodup ∧
      (∀ a, a ∈ xs.foldl (fun acc x => if acc.contains x then acc else x :: acc) acc ↔ a ∈ acc ∨ a ∈ xs) ∧
      (xs.foldl (fun acc x => if acc.contains x then acc else x :: acc) acc).length ≤ acc.length + xs.length := by
  induction xs generalizing acc with
  | nil => simp [hacc]
  | cons x xs ih =>
    rw [List.foldl_cons]
    by_cases hx : x ∈ acc
    · rw [if_pos (List.contains_iff_mem.mpr hx)]
      obtain ⟨hnd, hmem, hlen⟩ := ih acc hacc
      refine ⟨hnd, fun a => ?_, hlen.trans (by simp)⟩
      rw [hmem, List.mem_cons]
      exact ⟨fun h => h.imp_right .inr, fun h => h.elim .inl fun h => h.elim (fun h => .inl (h ▸ hx)) .inr⟩
    · rw [if_neg (mt List.contains_iff_mem.mp hx)]
      obtain ⟨hnd, hmem, hlen⟩ := ih (x :: acc) (List.nodup_cons.mpr ⟨hx, hacc⟩)
      refine ⟨hnd, fun a => ?_, hlen.trans (by simp; omega)⟩
      rw [hmem, List.mem_cons, List.mem_cons]
      tauto

theorem dedup_nodup (xs : List Nat) : (dedup xs).Nodup := List.nodup_reverse.mpr (dedup_foldl xs [] .nil).1

theorem mem_dedup {xs : List Nat} {a : Nat} : a ∈ dedup xs ↔ a ∈ xs := by
  rw [dedup, List.mem_reverse, (dedup_foldl xs [] .nil).2.1]
  simp

theorem length_dedup_le (xs : List Nat) : (dedup xs).length ≤ xs.length := by
  have := (dedup_foldl xs [] .nil).2.2
  simpa [dedup] using this

theorem squeeze_sublist (xs : List Nat) : (squeeze xs).Sublist xs := by
  induction xs with
  | nil => exact .refl _
  | cons a xs ih =>
    cases xs with
    | nil => exact .refl _
    | cons b t =>
      rw [squeeze]
      split
      · exact ih.cons a
      · exact ih.cons_cons a

theorem beatsOf_nodup (ks : List Nat) : (beatsOf ks).Nodup := dedup_nodup _

theorem exists_key_of_mem_beatsOf {ks : List Nat} {b : Nat} (hb : b ∈ beatsOf ks) : ∃ k ∈ ks, isTower k = true ∧ k / 256 = b := by
  have := (squeeze_sublist _).subset (mem_dedup.mp hb)
  obtain ⟨k, hk, rfl⟩ := List.mem_map.mp this
  exact ⟨k, List.mem_of_mem_filter hk, List.of_mem_filter hk, rfl⟩

theorem length_beatsOf_le (ks : List Nat) : (beatsOf ks).length ≤ ks.length := by
  refine (length_dedup_le _).trans ((squeeze_sublist _).length_le.trans ?_)
  rw [List.length_map]
  exact List.length_filter_le ..

/-- Elements put together by a value of theirs. -/
theorem length_flatMap_filter (g : Nat → Nat) {ws : List Nat} (hws : ws.Nodup) {bs : List Nat} (hbs : ∀ b ∈ bs, g b ∈ ws) :
    (ws.flatMap fun w => bs.filter fun b => g b = w).length = bs.length := by
  induction ws generalizing bs with
  | nil =>
    cases bs with
    | nil => rfl
    | cons b bs => exact absurd (hbs b List.mem_cons_self) List.not_mem_nil
  | cons w ws ih =>
    obtain ⟨hw, hws⟩ := List.nodup_cons.mp hws
    have hrest := ih hws (bs := bs.filter fun b => !decide (g b = w)) fun b hb => by
      have := hbs b (List.mem_of_mem_filter hb)
      simp only [List.mem_filter, Bool.not_eq_true', decide_eq_false_iff_not] at hb
      exact (List.mem_cons.mp this).resolve_left hb.2
    have hsame : (ws.flatMap fun w' => bs.filter fun b => g b = w') =
        ws.flatMap fun w' => (bs.filter fun b => !decide (g b = w)).filter fun b => g b = w' := by
      refine List.flatMap_congr fun w' hw' => ?_
      rw [List.filter_filter]
      refine List.filter_congr fun b _ => ?_
      by_cases hb : g b = w'
      · have : w' ≠ w := fun h => hw (h ▸ hw')
        simp [hb, this]
      · simp [hb]
    rw [List.flatMap_cons, List.length_append, hsame, hrest]
    exact (List.length_eq_length_filter_add _).symm

theorem length_le_two_of_halves {bs : List Nat} (hbs : bs.Nodup) {w : Nat} (hw : ∀ b ∈ bs, b / 2 = w) : bs.length ≤ 2 := by
  have hsub : bs ⊆ [2 * w, 2 * w + 1] := fun b hb => by
    have := hw b hb
    simp only [List.mem_cons, List.not_mem_nil, or_false]
    omega
  exact (List.subperm_of_subset hbs hsub).length_le

/-- The accesses of a word together: none without a beat, none of more than two, and every beat in one of them. -/
theorem rowAccesses_of_nodup (close : Bool) {bs : List Nat} (hbs : bs.Nodup) :
    (∀ x ∈ rowAccesses close bs, x ≠ [] ∧ x.length ≤ 2 ∧ x ⊆ bs) ∧ (rowAccesses close bs).length ≤ bs.length ∧
      ((rowAccesses close bs).map List.length).sum = bs.length := by
  cases close with
  | true =>
    refine ⟨fun x hx => ?_, by simp [rowAccesses], by simp [rowAccesses, Function.comp_def]⟩
    simp only [rowAccesses, if_true, List.mem_map] at hx
    obtain ⟨b, hb, rfl⟩ := hx
    simpa using hb
  | false =>
    simp only [rowAccesses, Bool.false_eq_true, if_false]
    refine ⟨fun x hx => ?_, ?_, ?_⟩
    · obtain ⟨w, hw, rfl⟩ := List.mem_map.mp hx
      obtain ⟨b, hb, hbw⟩ := List.mem_map.mp (mem_dedup.mp hw)
      refine ⟨List.ne_nil_of_mem (List.mem_filter.mpr ⟨hb, by simpa using hbw⟩),
        length_le_two_of_halves (hbs.filter _) fun b hb => by simpa using (List.mem_filter.mp hb).2,
        fun b hb => (List.mem_filter.mp hb).1⟩
    · rw [List.length_map]
      exact (length_dedup_le _).trans (by rw [List.length_map])
    · rw [List.map_map]
      have := length_flatMap_filter (· / 2) (dedup_nodup (bs.map (· / 2))) (bs := bs) fun b hb =>
        mem_dedup.mpr (List.mem_map_of_mem hb)
      rw [List.length_flatMap] at this
      exact this

/-! ### What accesses without an alert do to a bank -/

/-- Bank b' after at most m accesses of at most two beats, from cycle `now` on, none of which has raised an alert in bank b. -/
structure Bank.worn (now m : Nat) (b b' : Bank) : Prop where
  deadline : b'.deadline = b.deadline
  till : b'.till ≤ max now b.till + 16 * m
  ctr : ∀ row, b'.ctr.getD row 0 ≤ b.ctr.getD row 0 + m
  st : b'.st = .backoff → b.st = .backoff

theorem Bank.worn.refl (now m : Nat) (b : Bank) : b.worn now m b :=
  ⟨rfl, by omega, fun _ => by omega, id⟩

theorem Bank.worn.mono {now m n : Nat} {b b' : Bank} (h : b.worn now m b') (hmn : m ≤ n) : b.worn now n b' :=
  ⟨h.deadline, h.till.trans (by omega), fun row => (h.ctr row).trans (by omega), h.st⟩

/-- Another access, to a row whose count stays below the alert's. -/
theorem Bank.worn.access {now m beats tdmt row : Nat} {b b' : Bank} (h : b.worn now m b') (hbeats : beats ≤ 2)
    (hctr : b.ctr.getD row 0 + m + 1 < tdmt) (close : Bool) :
    b.worn now (m + 1) (b'.access (max now b'.till) row beats tdmt close).1 ∧
      (b'.access (max now b'.till) row beats tdmt close).2.2 = false := by
  obtain ⟨hdl, htill, hc, hst⟩ := h
  have hrow := hc row
  unfold Bank.access
  dsimp only
  split
  · refine ⟨⟨hdl, ?_, fun r => (hc r).trans (by omega), nofun⟩, rfl⟩
    dsimp only
    omega
  · rw [if_neg (by omega)]
    refine ⟨⟨hdl, ?_, fun r => ?_, nofun⟩, rfl⟩
    · dsimp only
      omega
    · dsimp only
      by_cases hr : r = row
      · rw [hr, Table.getD_set_same]
        omega
      · rw [Table.getD_set_other _ _ hr]
        exact (hc r).trans (by omega)

/-- Nothing differs from s but tower banks, each after at most m accesses without an alert. -/
def onlyWorn (m : Nat) (s u : State) : Prop :=
  u = { s with hs := u.hs } ∧ ∀ q, u.har q = { s.har q with banks := (u.har q).banks } ∧
    ∀ k, ((s.har q).bank k).worn s.mcc.toNat m ((u.har q).bank k)

theorem onlyWorn.refl (m : Nat) (s : State) : onlyWorn m s s := ⟨rfl, fun _ => ⟨rfl, fun _ => .refl ..⟩⟩

theorem onlyWorn.mono {m n : Nat} {s u : State} (h : onlyWorn m s u) (hmn : m ≤ n) : onlyWorn n s u :=
  ⟨h.1, fun q => ⟨(h.2 q).1, fun k => ((h.2 q).2 k).mono hmn⟩⟩

theorem onlyWorn.onlyBanks {m : Nat} {s u : State} (h : onlyWorn m s u) (r : Nat) : onlyBanks r s u := by
  refine ⟨h.1, fun q => ?_, fun q _ => ?_⟩
  · rw [(h.2 q).1]
  · rw [(h.2 q).1]

theorem onlyWorn.mcc {m : Nat} {s u : State} (h : onlyWorn m s u) : u.mcc = s.mcc := by rw [h.1]

theorem onlyWorn.die {m : Nat} {s u : State} (h : onlyWorn m s u) (d : Nat) : u.die d = s.die d := by rw [h.1]; rfl

theorem onlyWorn.bankAt {m : Nat} {s u : State} (h : onlyWorn m s u) (k : Nat) :
    (s.bankAt k).worn s.mcc.toNat m (u.bankAt k) := (h.2 _).2 _

@[simp] theorem Harness.bank_setBank_same (h : Harness) (k : Nat) (b : Bank) : (h.setBank k b).bank k = b :=
  Table.getD_set_same ..

theorem Harness.bank_setBank_other (h : Harness) {j k : Nat} (b : Bank) (hj : j ≠ k) : (h.setBank k b).bank j = h.bank j :=
  Table.getD_set_other _ _ hj

/-- One bank changes. -/
theorem onlyWorn.setBank {m n : Nat} {s u : State} (h : onlyWorn m s u) (hmn : m ≤ n) {r k : Nat} {b : Bank}
    (hb : ((s.har r).bank k).worn s.mcc.toNat n b) : onlyWorn n s (u.setHar r ((u.har r).setBank k b)) := by
  refine ⟨by rw [State.setHar, h.1], fun q => ?_⟩
  by_cases hq : q = r
  · subst hq
    rw [State.har_setHar]
    refine ⟨by rw [Harness.setBank, (h.2 q).1], fun j => ?_⟩
    by_cases hj : j = k
    · subst hj
      rw [Harness.bank_setBank_same]
      exact hb
    · rw [Harness.bank_setBank_other _ _ hj]
      exact ((h.2 q).2 j).mono hmn
  · rw [State.har_setHar_other _ hq]
    exact ⟨(h.2 q).1, fun j => ((h.2 q).2 j).mono hmn⟩

theorem onlyWorn.unask {m : Nat} {s u : State} (h : onlyWorn m s u) (a : Asker) (k : Nat) : onlyWorn m s (u.unask a k) := by
  unfold State.unask
  split
  · have hb := h.bankAt k
    exact h.setBank le_rfl ⟨hb.deadline, hb.till, hb.ctr, hb.st⟩
  · exact h

theorem onlyWorn.touchRow {m : Nat} {s u : State} (h : onlyWorn m s u) {r cell bank row beats : Nat} (hbeats : beats ≤ 2)
    (hctr : ∀ row, ((s.har r).bank (bankKey cell bank)).ctr.getD row 0 + m + 1 < (s.die (dieOf r)).tdmt.toNat) (close : Bool) :
    onlyWorn (m + 1) s (u.touchRow r cell bank row beats close).1 := by
  obtain ⟨hworn, hal⟩ := ((h.2 r).2 (bankKey cell bank)).access hbeats (hctr ((u.har r).physRow cell bank row)) close
  unfold State.touchRow
  dsimp only
  rw [h.mcc, h.die, hal]
  exact h.setBank (Nat.le_succ m) hworn

/-! ### A word is served whole -/

/-- The bank of a tower key takes N more accesses in the present cycle: it stands idle, and neither its refresh nor an alert is
that near. -/
def State.takesBeats (s : State) (N k : Nat) : Prop :=
  (s.bankAt k).till ≤ s.mcc.toNat ∧ (s.bankAt k).st ≠ .backoff ∧
    ((s.die (dieOf (towerRank k))).rguard.toNat : Int) + 16 * (N + 1) < (s.bankAt k).left s.mcc.toNat ∧
    ∀ row, (s.bankAt k).ctr.getD row 0 + N < (s.die (dieOf (towerRank k))).tdmt.toNat

theorem Served.step_serves {s : State} {x : Served} {b m N : Nat} {bs : List Nat} (close : Bool) (hx : onlyWorn m s x.s)
    (hshut : x.shut = []) (hm : m < N) (hlen : (b :: bs).length ≤ 2) (hk : s.takesBeats N (256 * b)) :
    onlyWorn (m + 1) s (x.step close (b :: bs)).s ∧ (x.step close (b :: bs)).shut = [] ∧
      (x.step close (b :: bs)).done.length = x.done.length + (b :: bs).length := by
  obtain ⟨htill, hst, hleft, hctr⟩ := hk
  have hw := hx.bankAt (256 * b)
  have hstart : (max s.mcc.toNat (x.s.bankAt (256 * b)).till) ≤ s.mcc.toNat + 16 * m := by
    have := hw.till
    omega
  have hroom (n : Nat) (hn : n ≤ s.mcc.toNat + 16 * m + 14) :
      ¬(x.s.bankAt (256 * b)).left n < (((s.die (dieOf (towerRank (256 * b)))).rguard.toNat : Int)) := by
    rw [Bank.left, hw.deadline]
    rw [Bank.left] at hleft
    omega
  unfold Served.step
  simp only [List.headD_cons, hx.mcc, hx.die, hshut, List.contains_nil, Bool.false_eq_true, if_false]
  rw [if_neg]
  case hnc =>
    rintro ⟨-, hb | hl⟩
    · exact hst (hw.st hb)
    · exact hroom _ (by omega) hl
  rw [if_neg (hroom _ (by split <;> omega)), if_neg (lt_irrefl _)]
  refine ⟨hx.touchRow hlen (fun row => ?_) close, rfl, by simp⟩
  have := hctr row
  exact lt_of_le_of_lt (by simp only [State.bankAt]; omega) this

theorem State.serveBeats_serves {s u : State} {N : Nat} (close : Bool) (done : List (Nat × Bool)) {bs : List Nat}
    (hu : onlyWorn 0 s u) (hbs : bs.Nodup) (hN : bs.length ≤ N) (hk : ∀ b ∈ bs, s.takesBeats N (256 * b)) :
    onlyWorn N s (u.serveBeats close done bs).s ∧ (u.serveBeats close done bs).done.length = done.length + bs.length := by
  obtain ⟨hrow, hcount, hsum⟩ := rowAccesses_of_nodup close hbs
  suffices h : ∀ (xs : List (List Nat)) (x : Served) (m : Nat), onlyWorn m s x.s → x.shut = [] → m + xs.length ≤ N →
      (∀ y ∈ xs, y ≠ [] ∧ y.length ≤ 2 ∧ y ⊆ bs) →
      onlyWorn N s (xs.foldl (Served.step close) x).s ∧
        (xs.foldl (Served.step close) x).done.length = x.done.length + (xs.map List.length).sum by
    have := h (rowAccesses close bs) ⟨u, done, []⟩ 0 hu rfl (by omega) hrow
    rw [hsum] at this
    exact this
  intro xs
  induction xs with
  | nil => exact fun x m hx _ hm _ => ⟨hx.mono (by simpa using hm), rfl⟩
  | cons y xs ih =>
    intro x m hx hshut hm hys
    obtain ⟨hne, hlen, hsub⟩ := hys y List.mem_cons_self
    obtain ⟨b, bs', rfl⟩ := List.exists_cons_of_ne_nil hne
    rw [List.length_cons] at hm
    obtain ⟨hx', hshut', hdone⟩ := Served.step_serves close hx hshut (by omega) hlen (hk b (hsub List.mem_cons_self))
    obtain ⟨hend, hlen'⟩ := ih _ (m + 1) hx' hshut' (by omega) fun y hy => hys y (List.mem_cons_of_mem _ hy)
    refine ⟨hend, hlen'.trans ?_⟩
    rw [hdone, List.map_cons, List.sum_cons, Nat.add_assoc]

/-- The first byte of a beat stands in the bank of each of its bytes. -/
theorem beat_bank (k : Nat) : isTower (256 * (k / 256)) = isTower k ∧ towerRank (256 * (k / 256)) = towerRank k ∧
    towCell (256 * (k / 256)) = towCell k ∧ towBank (256 * (k / 256)) = towBank k := by
  have hdiv (lo : Nat) : 256 * (k / 256) / (256 * lo) = k / (256 * lo) := by
    rw [Nat.mul_div_mul_left _ _ (by omega), Nat.div_div_eq_div_mul]
  exact ⟨congrArg (· == 2) (hdiv (2 ^ 52)), congrArg (· % 2 ^ 12) (hdiv (2 ^ 40)), congrArg (· % 2 ^ 4) (hdiv (2 ^ 14)),
    congrArg (· % 2 ^ 4) (hdiv 2)⟩

theorem State.takesBeats_of_quiet {a : Asker} {ks : List Nat} {s : State} (h : Safety.quiet a ks s) {b : Nat} (hb : b ∈ beatsOf ks) :
    s.takesBeats ks.length (256 * b) ∧ s.serves a (256 * b) = true := by
  obtain ⟨k, hk, ht, rfl⟩ := exists_key_of_mem_beatsOf hb
  obtain ⟨⟨-, hstill⟩, hserves⟩ := h
  obtain ⟨hs, hg⟩ := hserves k hk
  obtain ⟨htower, hrank, hcell, hbank⟩ := beat_bank k
  have hat : s.bankAt (256 * (k / 256)) = s.bankAt k := by rw [State.bankAt, State.bankAt, hrank, hcell, hbank]
  have hs' : s.serves a (256 * (k / 256)) = true := by
    rw [State.serves, htower, hat, hrank]
    exact hs
  refine ⟨?_, hs'⟩
  rw [State.takesBeats, hat, hrank]
  rw [State.serves, ht, Bool.not_true, Bool.false_or, Bank.serves] at hs
  simp only [Bool.and_eq_true, Bank.free, decide_eq_true_eq, Bool.or_eq_true, beq_iff_eq] at hs
  obtain ⟨⟨⟨⟨htill, hst⟩, -⟩, -⟩, -⟩ := hs
  refine ⟨htill, fun hb => ?_, hg ht, hstill k hk ht⟩
  rw [hb] at hst
  simp at hst

/-- The beats of the word in issue that no bank has served yet. -/
def State.beatsLeft (s : State) (e : Eng) (ks : List Nat) : List Nat :=
  (beatsOf ks).filter fun b => !(s.eng e).rows.any fun x => x.1 == b

/-- What the banks do for them where they serve the word. -/
def State.wordServed (s : State) (e : Eng) (f : Rec) (ks : List Nat) : Served :=
  ((s.beatsLeft e ks).foldl (fun u b => u.unask (s.engAsker e f) (256 * b)) s).serveBeats (f.place == 1) (s.eng e).rows
    (s.beatsLeft e ks)

/-- Quiet banks serve all of a word, and nothing but their state differs. -/
theorem State.banks_of_quiet {s : State} {e : Eng} {f : Rec} {ks : List Nat} (h : Safety.quiet (s.engAsker e f) ks s) :
    ∃ t lat, s.banks e f ks = .ok (t, lat) ∧ onlyWorn ks.length s t := by
  have hbeat {b : Nat} (hb : b ∈ s.beatsLeft e ks) := State.takesBeats_of_quiet h (List.mem_of_mem_filter hb)
  have hall : ((s.beatsLeft e ks).all fun b => s.serves (s.engAsker e f) (256 * b)) = true :=
    List.all_eq_true.mpr fun b hb => (hbeat hb).2
  have hu : onlyWorn 0 s ((s.beatsLeft e ks).foldl (fun u b => u.unask (s.engAsker e f) (256 * b)) s) :=
    List.foldlRecOn (motive := onlyWorn 0 s) _ _ (.refl 0 s) fun _ h b _ => h.unask _ _
  obtain ⟨hend, hlen⟩ := State.serveBeats_serves (bs := s.beatsLeft e ks) (f.place == 1) (s.eng e).rows hu
    ((beatsOf_nodup ks).filter _) ((List.length_filter_le ..).trans (length_beatsOf_le ks)) fun b hb => (hbeat hb).1
  rw [← State.wordServed] at hend hlen
  unfold State.banks
  dsimp only
  rw [← State.beatsLeft, ← State.wordServed, hall, Bool.not_true, if_neg Bool.false_ne_true, if_pos hlen]
  exact ⟨_, _, rfl, hend⟩

end Sys2Proof.Machine
end

section
/-! SUPPORT. Elements put into memory: what stores do as a change of the bytes that are read, byte by byte and element by element
(02 R53; 08 R262), and that they touch memory and the records of its granules alone. -/

namespace Sys2Proof

/-- What replaces an entry by one of the same property keeps what some entry has. -/
theorem Table.any_set {α : Type} {t : Table α} {k : Nat} {x y : α} (P : Nat × α → Bool) (hf : t.find k = some x)
    (hP : P (k, y) = P (k, x)) : (t.set k y).any P = t.any P := by
  induction t with
  | nil => cases hf
  | cons p t ih =>
    obtain ⟨j, z⟩ := p
    rw [find] at hf
    rw [set]
    split at hf
    next hj =>
      cases hf
      rw [if_pos hj, List.any_cons, List.any_cons, hP, hj]
    next hj =>
      split at hf
      next => cases hf
      next hk => rw [if_neg hj, if_neg hk, List.any_cons, List.any_cons, ih hf]

namespace Machine

open Sys2Proof.Safety

/-! ### The state beside memory -/

/-- Writes: nothing differs but memory, what is known of its granules, and who wrote it; no frame is quarantined. -/
structure wrote (s t : State) : Prop where
  only : t = { s with mem := t.mem, poison := t.poison, latent := t.latent, hbm := t.hbm, tagger := t.tagger }
  latent : s.latent = [] → t.latent = []
  quarantined : ∀ k, t.quarantined k = s.quarantined k

namespace wrote

theorem refl (s : State) : wrote s s := ⟨rfl, id, fun _ => rfl⟩

theorem trans {s t u : State} (h : wrote s t) (k : wrote t u) : wrote s u := by
  refine ⟨?_, fun hs => k.latent (h.latent hs), fun a => (k.quarantined a).trans (h.quarantined a)⟩
  have := k.only
  rw [h.only] at this
  exact this

theorem foldl {α : Type} {f : State → α → State} (hf : ∀ s x, wrote s (f s x)) (xs : List α) (s : State) :
    wrote s (xs.foldl f s) :=
  List.foldlRecOn xs f (refl s) fun _ h x _ => h.trans (hf _ x)

theorem har {s t : State} (h : wrote s t) (r : Nat) : t.har r = s.har r := by rw [h.only]; rfl

theorem cur {s t : State} (h : wrote s t) : t.cur = s.cur := by rw [h.only]

end wrote

theorem State.cleanGranule_wrote (s : State) (gr : Nat) : wrote s (s.cleanGranule gr) := by
  unfold State.cleanGranule
  dsimp only
  have hlatent : s.latent = [] → s.latent.erase gr = [] := fun h => by rw [h]; rfl
  split
  · split
    next hrec =>
      change (s.hbm.getD (s.hbmOf gr) {}).recs.contains gr = true at hrec
      refine ⟨rfl, hlatent, fun k => congrArg (isHbm k && ·) ?_⟩
      cases hf : s.hbm.find (s.hbmOf gr) with
      | none =>
        rw [Table.getD, hf] at hrec
        cases hrec
      | some c =>
        have hq : (s.hbm.getD (s.hbmOf gr) {}).quar = c.quar := by rw [Table.getD, hf, Option.getD_some]
        exact Table.any_set (fun kv : Nat × Hbm => kv.2.quar.contains (k / 2 ^ 16)) hf
          (congrArg (fun q : List Nat => q.contains (k / 2 ^ 16)) hq)
    next => exact ⟨rfl, hlatent, fun _ => rfl⟩
  · exact ⟨rfl, hlatent, fun _ => rfl⟩

theorem State.put_wrote (s : State) (k : Nat) (bs : List Byte) : wrote s (s.put k bs) := by
  unfold State.put
  dsimp only
  have hmem : wrote s { s with mem := memWrite s.mem k bs } := ⟨rfl, id, fun _ => rfl⟩
  split
  · exact hmem
  · exact hmem.trans (.foldl State.cleanGranule_wrote _ _)

theorem State.write_wrote (s : State) (k : Nat) (bs : List Byte) : wrote s (s.write k bs) := by
  unfold State.write
  split
  · exact s.put_wrote k bs
  · exact .foldl (f := fun s (kb : Nat × List Byte) => s.put kb.1 kb.2) (fun s kb => s.put_wrote kb.1 kb.2) _ s

theorem State.noteKeys_wrote (s : State) (ks : List Nat) (w : Poster) : wrote s (s.noteKeys ks w) := by
  unfold State.noteKeys
  dsimp only
  split
  · exact .refl s
  · exact ⟨rfl, id, fun _ => rfl⟩

@[simp] theorem State.noteKeys_mem (s : State) (ks : List Nat) (w : Poster) : (s.noteKeys ks w).mem = s.mem := by
  unfold State.noteKeys
  dsimp only
  split <;> rfl

/-! ### Bytes -/

/-- The bytes read after pairs of keys and bytes have been written in order. -/
def putPairs (g : Nat → Byte) (xs : List (Nat × Byte)) : Nat → Byte :=
  xs.foldl (fun g kb => Function.update g kb.1 kb.2) g

theorem putPairs_cons (g : Nat → Byte) (k : Nat) (b : Byte) (xs : List (Nat × Byte)) :
    putPairs g ((k, b) :: xs) = putPairs (Function.update g k b) xs := rfl

theorem putPairs_other {g : Nat → Byte} {xs : List (Nat × Byte)} {a : Nat} (ha : ∀ x ∈ xs, x.1 ≠ a) :
    putPairs g xs a = g a := by
  induction xs generalizing g with
  | nil => rfl
  | cons x xs ih =>
    rw [putPairs_cons, ih fun y hy => ha y (List.mem_cons_of_mem _ hy),
      Function.update_of_ne (ha x List.mem_cons_self).symm]

/-- Each key of distinct ones reads the byte written there. -/
theorem map_putPairs_zip {ks : List Nat} (hks : ks.Nodup) {bs : List Byte} (hlen : ks.length = bs.length) (g : Nat → Byte) :
    ks.map (putPairs g (ks.zip bs)) = bs := by
  induction ks generalizing bs g with
  | nil => exact (List.length_eq_zero_iff.mp hlen.symm).symm
  | cons k ks ih =>
    cases bs with
    | nil => cases hlen
    | cons b bs =>
      obtain ⟨hk, hks⟩ := List.nodup_cons.mp hks
      rw [List.zip_cons_cons, putPairs_cons, List.map_cons, ih hks (Nat.succ.inj hlen),
        putPairs_other fun x hx h => hk (by rw [← h]; exact (List.of_mem_zip hx).1), Function.update_self]

theorem memGet_memSet {m : List Host.Cell} (h : memWf m = true) (k : Nat) (b : Byte) :
    memGet (memSet m k b) = Function.update (memGet m) k b := by
  funext a
  by_cases ha : a = k
  · rw [ha, memGet_memSet_same (memWf_sorted h), Function.update_self]
  · rw [memGet_memSet_other (memWf_sorted h) b ha, Function.update_of_ne ha]

/-- Runs of consecutive keys written one after the other. -/
theorem memGet_runs (xs : List (Nat × Byte)) {m : List Host.Cell} (h : memWf m = true) :
    memGet ((runs xs).foldl (fun m kb => memWrite m kb.1 kb.2) m) = putPairs (memGet m) xs := by
  induction xs generalizing m with
  | nil => rfl
  | cons x xs ih =>
    obtain ⟨k, b⟩ := x
    have hstep := memWf_memSet h k b
    rw [putPairs_cons, ← memGet_memSet h, ← ih hstep, runs]
    split
    next k' bs r hr =>
      rw [hr]
      split
      next hk => rw [hk]; rfl
      next => rfl
    next hr => rw [hr]; rfl

/-- The keys of runs are those of the pairs. -/
theorem mem_runs_key {xs : List (Nat × Byte)} {kb : Nat × List Byte} (hkb : kb ∈ runs xs) {i : Nat} (hi : i < kb.2.length) :
    ∃ x ∈ xs, x.1 = kb.1 + i := by
  induction xs generalizing kb i with
  | nil => cases hkb
  | cons x xs ih =>
    obtain ⟨k, b⟩ := x
    have first : ∃ x ∈ (k, b) :: xs, x.1 = k := ⟨(k, b), List.mem_cons_self, rfl⟩
    have later {kb : Nat × List Byte} {i : Nat} (h : kb ∈ runs xs) (hi : i < kb.2.length) :
        ∃ x ∈ (k, b) :: xs, x.1 = kb.1 + i := by
      obtain ⟨x, hx, hk⟩ := ih h hi
      exact ⟨x, List.mem_cons_of_mem _ hx, hk⟩
    rw [runs] at hkb
    split at hkb
    next k' bs r hr =>
      have hhead : (k', bs) ∈ runs xs := hr ▸ List.mem_cons_self
      split at hkb
      next hk =>
        rcases List.mem_cons.mp hkb with rfl | hkb
        · cases i with
          | zero => exact first
          | succ i =>
            have := later hhead (i := i) (by simpa using hi)
            rwa [hk, Nat.add_right_comm] at this
        · exact later (hr ▸ List.mem_cons_of_mem _ hkb) hi
      next =>
        rcases List.mem_cons.mp hkb with rfl | hkb
        · simp only [List.length_singleton, Nat.lt_one_iff] at hi
          rw [hi]
          exact first
        · exact later (hr ▸ hkb) hi
    next =>
      obtain rfl := List.mem_singleton.mp hkb
      simp only [List.length_singleton, Nat.lt_one_iff] at hi
      rw [hi]
      exact first

/-- Writes that meet no quarantined frame. -/
theorem State.foldl_write_mem (xs : List (Nat × List Byte)) {s : State}
    (h : ∀ kb ∈ xs, ∀ i, i < kb.2.length → s.quarantined (kb.1 + i) = false) :
    (xs.foldl (fun s kb => s.write kb.1 kb.2) s).mem = xs.foldl (fun m kb => memWrite m kb.1 kb.2) s.mem := by
  induction xs generalizing s with
  | nil => rfl
  | cons x xs ih =>
    rw [List.foldl_cons, List.foldl_cons, ih fun kb hkb i hi => ?_, State.write_mem (h x List.mem_cons_self)]
    rw [(s.write_wrote x.1 x.2).quarantined]
    exact h kb (List.mem_cons_of_mem _ hkb) i hi

theorem State.foldl_write_runs {xs : List (Nat × Byte)} {s : State} (hs : memWf s.mem = true)
    (h : ∀ x ∈ xs, s.quarantined x.1 = false) :
    memGet ((runs xs).foldl (fun s kb => s.write kb.1 kb.2) s).mem = putPairs (memGet s.mem) xs := by
  rw [State.foldl_write_mem, memGet_runs _ hs]
  intro kb hkb i hi
  obtain ⟨x, hx, hk⟩ := mem_runs_key hkb hi
  exact hk ▸ h x hx

end Machine

end Sys2Proof
end

section
/-! SUPPORT. Elements at their places (02 R53; 08 R262): what the code at a place is after elements have been put in order. -/

namespace Sys2Proof.Machine

open Sys2Proof.Safety

/-! ### One element -/

/-- The code at a place, where memory reads as g. -/
def spotVal (bits : Nat) (g : Nat → Byte) (x : Spot) : Nat :=
  let v := leNat (x.keys.map g)
  if bits = 4 then v / 2 ^ x.half % 16 else v

theorem State.spotCode_some (s : State) (bits : Nat) (x : Spot) : s.spotCode bits (some x) = spotVal bits (memGet s.mem) x := rfl

/-- A nibble put into its half of a byte. -/
def putNibble (half c : Nat) (old : Byte) : Byte :=
  BitVec.ofNat 8 (if half = 0 then old.toNat / 16 * 16 + c % 16 else old.toNat % 16 + 16 * (c % 16))

/-- What memory reads after a code has been put at a place. -/
def putElem (bits : Nat) (g : Nat → Byte) (x : Spot) (c : Nat) : Nat → Byte :=
  if bits = 4 then Function.update g (x.keys.headD 0) (putNibble x.half c (g (x.keys.headD 0)))
  else putPairs g (x.keys.zip (leBytes (bits / 8) c))

/-- A place has as many bytes as an element of its width; of nibbles, one of the two of a byte. -/
structure Spot.fits (bits : Nat) (x : Spot) : Prop where
  length : x.keys.length = max 1 (bits / 8)
  half : bits = 4 → x.half = 0 ∨ x.half = 4

theorem Spot.fits.nibble {x : Spot} (h : x.fits 4) : ∃ k, x.keys = [k] := List.length_eq_one_iff.mp h.length

theorem putElem_other {bits : Nat} {g : Nat → Byte} {x : Spot} {c a : Nat} (hx : x.fits bits) (ha : a ∉ x.keys) :
    putElem bits g x c a = g a := by
  unfold putElem
  split
  next h4 =>
    subst h4
    obtain ⟨k, hk⟩ := hx.nibble
    rw [hk] at ha ⊢
    exact Function.update_of_ne (fun h => ha (List.mem_singleton.mpr h)) ..
  next => exact putPairs_other fun y hy h => ha (h ▸ (List.of_mem_zip hy).1)

theorem putNibble_same {half : Nat} (hh : half = 0 ∨ half = 4) (c : Nat) (old : Byte) :
    (putNibble half c old).toNat / 2 ^ half % 16 = c % 16 := by
  have := old.isLt
  rcases hh with rfl | rfl
  · simp only [putNibble, BitVec.toNat_ofNat, if_true]
    omega
  · simp only [putNibble, BitVec.toNat_ofNat, Nat.reduceEqDiff, if_false]
    omega

theorem putNibble_other {half half' : Nat} (hh : half = 0 ∨ half = 4) (hh' : half' = 0 ∨ half' = 4) (hne : half ≠ half')
    (c : Nat) (old : Byte) : (putNibble half c old).toNat / 2 ^ half' % 16 = old.toNat / 2 ^ half' % 16 := by
  have := old.isLt
  rcases hh with rfl | rfl
  · obtain rfl : half' = 4 := by omega
    simp only [putNibble, BitVec.toNat_ofNat, if_true]
    omega
  · obtain rfl : half' = 0 := by omega
    simp only [putNibble, BitVec.toNat_ofNat, Nat.reduceEqDiff, if_false]
    omega

/-- A width of an element. -/
abbrev elemBits (bits : Nat) : Prop := bits = 4 ∨ 8 ∣ bits ∧ 0 < bits

theorem Rec.bits_elemBits (f : Rec) : elemBits f.bits := by
  unfold Rec.bits fmtBits
  split <;> decide

/-- The element just put is read. -/
theorem spotVal_putElem_same {bits : Nat} (hb : elemBits bits) {g : Nat → Byte} {x : Spot} {c : Nat} (hx : x.fits bits)
    (hnd : x.keys.Nodup) : spotVal bits (putElem bits g x c) x = c % 2 ^ bits := by
  rcases hb with rfl | ⟨⟨n, rfl⟩, hpos⟩
  · obtain ⟨k, hk⟩ := hx.nibble
    simp only [spotVal, putElem, hk, if_true, List.map_cons, List.map_nil, List.headD_cons, Function.update_self, leNat,
      Nat.mul_zero, Nat.add_zero]
    exact putNibble_same (hx.half rfl) ..
  · have hn : 8 * n / 8 = n := by omega
    have h4 : 8 * n ≠ 4 := by omega
    have hlen : x.keys.length = (leBytes n c).length := by
      rw [hx.length, length_leBytes, hn]
      omega
    simp only [spotVal, putElem, h4, if_false, hn]
    rw [map_putPairs_zip hnd hlen, leNat_leBytes, pow_mul]
    norm_num

/-- An element that shares no bit with it stays. -/
theorem spotVal_putElem_other {bits : Nat} {g : Nat → Byte} {x y : Spot} {c : Nat} (hx : x.fits bits) (hy : y.fits bits)
    (hxy : ¬Spot.meets bits x y) : spotVal bits (putElem bits g y c) x = spotVal bits g x := by
  by_cases h4 : bits = 4
  · subst h4
    obtain ⟨k, hk⟩ := hx.nibble
    by_cases hkey : y.keys = x.keys
    · have hne : y.half ≠ x.half := fun h => hxy (by rw [Spot.meets, if_pos rfl]; exact ⟨hkey.symm, h.symm⟩)
      simp only [spotVal, putElem, hkey, hk, if_true, List.map_cons, List.map_nil, List.headD_cons, Function.update_self,
        leNat, Nat.mul_zero, Nat.add_zero]
      exact putNibble_other (hy.half rfl) (hx.half rfl) hne ..
    · obtain ⟨j, hj⟩ := hy.nibble
      have hkj : k ≠ j := fun h => hkey (by rw [hk, hj, h])
      simp only [spotVal, hk, List.map_cons, List.map_nil]
      rw [putElem_other hy (by rw [hj]; exact fun h => hkj (List.mem_singleton.mp h))]
  · have hdis : ∀ a ∈ x.keys, a ∉ y.keys := fun a ha hya => hxy (by rw [Spot.meets, if_neg h4]; exact ⟨a, ha, hya⟩)
    simp only [spotVal]
    rw [List.map_congr_left fun a ha => putElem_other hy (hdis a ha)]

/-! ### Elements in order -/

theorem foldl_putElem_other {bits : Nat} {g : Nat → Byte} {xs : List (Spot × Nat)} {a : Nat} (hxs : ∀ x ∈ xs, x.1.fits bits)
    (ha : ∀ x ∈ xs, a ∉ x.1.keys) : xs.foldl (fun g x => putElem bits g x.1 x.2) g a = g a := by
  induction xs generalizing g with
  | nil => rfl
  | cons x xs ih =>
    rw [List.foldl_cons, ih (fun y hy => hxs y (List.mem_cons_of_mem _ hy)) fun y hy => ha y (List.mem_cons_of_mem _ hy),
      putElem_other (hxs x List.mem_cons_self) (ha x List.mem_cons_self)]

theorem spotVal_foldl_other {bits : Nat} {g : Nat → Byte} {x : Spot} {xs : List (Spot × Nat)} (hx : x.fits bits)
    (hxs : ∀ y ∈ xs, y.1.fits bits ∧ ¬Spot.meets bits x y.1) :
    spotVal bits (xs.foldl (fun g x => putElem bits g x.1 x.2) g) x = spotVal bits g x := by
  induction xs generalizing g with
  | nil => rfl
  | cons y xs ih =>
    obtain ⟨hy, hxy⟩ := hxs y List.mem_cons_self
    rw [List.foldl_cons, ih fun z hz => hxs z (List.mem_cons_of_mem _ hz), spotVal_putElem_other hx hy hxy]

/-- The last element put at a place is read there. -/
theorem spotVal_foldl_last {bits : Nat} (hb : elemBits bits) {g : Nat → Byte} {x : Spot} {c : Nat} {pre post : List (Spot × Nat)}
    (hx : x.fits bits) (hnd : x.keys.Nodup) (hpost : ∀ y ∈ post, y.1.fits bits ∧ ¬Spot.meets bits x y.1) :
    spotVal bits ((pre ++ (x, c) :: post).foldl (fun g x => putElem bits g x.1 x.2) g) x = c % 2 ^ bits := by
  rw [List.foldl_append, List.foldl_cons, spotVal_foldl_other hx hpost, spotVal_putElem_same hb hx hnd]

/-! ### The write of a cell -/

/-- What memory reads through bytes that stand aside. -/
def overlay (t : Table Byte) (g : Nat → Byte) : Nat → Byte := fun a => (t.find a).getD (g a)

theorem overlay_set (t : Table Byte) (g : Nat → Byte) (k : Nat) (b : Byte) :
    overlay (t.set k b) g = Function.update (overlay t g) k b := by
  funext a
  by_cases ha : a = k
  · rw [ha, overlay, Table.find_set_same, Function.update_self, Option.getD_some]
  · rw [overlay, Table.find_set_other _ ha, Function.update_of_ne ha, overlay]

theorem overlay_foldl_set (xs : List (Nat × Byte)) (t : Table Byte) (g : Nat → Byte) :
    overlay (xs.foldl (fun t kb => t.set kb.1 kb.2) t) g = putPairs (overlay t g) xs := by
  induction xs generalizing t with
  | nil => rfl
  | cons x xs ih => rw [List.foldl_cons, ih, overlay_set]; rfl

theorem State.overlay_spotPut (s : State) (bits : Nat) (t : Table Byte) (x : Spot) (c : Nat) :
    overlay (s.spotPut bits t x c) (memGet s.mem) = putElem bits (overlay t (memGet s.mem)) x c := by
  unfold State.spotPut putElem
  split
  · exact overlay_set ..
  · exact overlay_foldl_set ..

/-- Bytes that stand aside in their canonical form, written. -/
theorem putPairs_sorted {t : Table Byte} {lo : Nat} (ht : t.sortedFrom lo = true) (g : Nat → Byte) : putPairs g t = overlay t g := by
  induction t generalizing lo g with
  | nil => rfl
  | cons p t ih =>
    obtain ⟨j, b⟩ := p
    simp only [Table.sortedFrom, Bool.and_eq_true, decide_eq_true_eq] at ht
    rw [putPairs_cons, ih ht.2]
    funext a
    simp only [overlay, Table.find]
    split
    next h =>
      rw [Table.find_below ht.2 (by omega), Option.getD_none, ← h, Function.update_self, Option.getD_some]
    next h =>
      rw [Function.update_of_ne (Ne.symm h)]
      split
      next hlt => rw [Table.find_below ht.2 (by omega)]
      next => rfl

/-- The bytes of the write of one cell. -/
def State.cellBytes (s : State) (bits : Nat) (xs : List (Spot × Nat)) : Table Byte :=
  xs.foldl (fun t x => s.spotPut bits t x.1 x.2) []

theorem State.overlay_cellBytes (s : State) (bits : Nat) (xs : List (Spot × Nat)) :
    overlay (s.cellBytes bits xs) (memGet s.mem) = xs.foldl (fun g x => putElem bits g x.1 x.2) (memGet s.mem) := by
  suffices h : ∀ t, overlay (xs.foldl (fun t x => s.spotPut bits t x.1 x.2) t) (memGet s.mem) =
      xs.foldl (fun g x => putElem bits g x.1 x.2) (overlay t (memGet s.mem)) from h []
  induction xs with
  | nil => exact fun _ => rfl
  | cons x xs ih => exact fun t => by rw [List.foldl_cons, List.foldl_cons, ih, State.overlay_spotPut]

theorem State.spotPut_sorted {s : State} {bits : Nat} {t : Table Byte} {x : Spot} {c : Nat} (ht : t.sorted = true) :
    (s.spotPut bits t x c).sorted = true := by
  unfold State.spotPut
  split
  · exact Table.sorted_set ht
  · exact List.foldlRecOn (motive := fun t : Table Byte => t.sorted = true) _ _ ht fun _ h _ _ => Table.sorted_set h

theorem State.cellBytes_sorted (s : State) (bits : Nat) (xs : List (Spot × Nat)) : (s.cellBytes bits xs).sorted = true :=
  List.foldlRecOn (motive := fun t : Table Byte => t.sorted = true) xs _ rfl fun _ h _ _ => State.spotPut_sorted h

end Sys2Proof.Machine
end

section
/-! SUPPORT. A store of the T engine (02 R61; 08 R262-R264): the bytes it leaves, the state beside them, and which element stands
where. -/

namespace Sys2Proof.Machine

open Sys2Proof.Safety

/-! ### Tower banks and the translation cache -/

theorem onlyBanks_refl (r : Nat) (s : State) : onlyBanks r s s := ⟨rfl, fun _ => rfl, fun _ _ => rfl⟩

theorem onlyBanks_trans {r : Nat} {s t u : State} (h : onlyBanks r s t) (k : onlyBanks r t u) : onlyBanks r s u := by
  obtain ⟨hst, hhar, htlb⟩ := h
  obtain ⟨ktu, khar, ktlb⟩ := k
  refine ⟨?_, fun q => ?_, fun q hq => (ktlb q hq).trans (htlb q hq)⟩
  · rw [hst] at ktu
    exact ktu
  · have := khar q
    rw [hhar q] at this
    exact this

theorem onlyBanks_sameEngines {r : Nat} {s t : State} (h : onlyBanks r s t) : sameEngines s t := by
  refine ⟨by rw [h.1], fun q e => ?_⟩
  rw [h.2.1 q]
  cases e <;> rfl

/-- A translation enters the cache; no latent error is met on the walk. -/
theorem State.cacheLeaf_onlyBanks {s : State} (hl : s.latent = []) (r va : Nat) : onlyBanks r s (s.cacheLeaf r va) := by
  unfold State.cacheLeaf
  split
  · exact onlyBanks_refl r s
  next l _ =>
    rw [State.scrubWalk, if_pos (.inl (by rw [hl]; rfl))]
    have hf (h : Harness) : (if h.tlb.contains l then h else { h with tlb := (l :: h.tlb).take 256 }) =
        { h with tlb := if h.tlb.contains l then h.tlb else (l :: h.tlb).take 256 } := by split <;> rfl
    refine ⟨rfl, fun q => ?_, fun q hq => by rw [State.har_modHar_other _ hq]⟩
    by_cases hq : q = r
    · rw [hq, State.har_modHar, hf]
    · rw [State.har_modHar_other _ hq]

theorem State.cacheSpots_onlyBanks {s : State} (hl : s.latent = []) (r : Nat) (b : BufRec) (sps : List Spot) :
    onlyBanks r s (s.cacheSpots r b sps) := by
  unfold State.cacheSpots
  split
  · refine List.foldlRecOn (motive := onlyBanks r s) _ _ (onlyBanks_refl r s) fun u h x _ => ?_
    refine onlyBanks_trans h (State.cacheLeaf_onlyBanks ?_ r _)
    rw [h.1]
    exact hl
  · exact onlyBanks_refl r s

theorem State.scrubSpots_of_no_latent {s : State} (hl : s.latent = []) (sps : List Spot) : s.scrubSpots sps = s := by
  rw [State.scrubSpots, hl]
  rfl

/-! ### The elements of a store -/

/-- The elements of a cell that have a place, each with its code. -/
def liveCodes (row : List (Option Spot) × List Nat) : List (Spot × Nat) :=
  (row.1.zip row.2).filterMap fun x => x.1.map fun sp => (sp, x.2)

theorem map_fst_liveCodes {row : List (Option Spot)} {cs : List Nat} (h : row.length ≤ cs.length) :
    (liveCodes (row, cs)).map (·.1) = row.filterMap id := by
  induction row generalizing cs with
  | nil => rfl
  | cons x row ih =>
    cases cs with
    | nil => cases h
    | cons c cs =>
      have hrest := ih (Nat.le_of_succ_le_succ h)
      simp only [liveCodes] at hrest ⊢
      cases x with
      | none => simpa using hrest
      | some sp => simpa using hrest

/-- The elements of a store in their order. -/
def storeElements (rows : List (List (Option Spot))) (codes : Nat → List Nat) : List (Spot × Nat) :=
  ((cells.zip rows).map fun x => (x.2, codes x.1)).flatMap liveCodes

theorem length_cells : cells.length = 16 := List.length_range

section
variable {rows : List (List (Option Spot))} {codes : Nat → List Nat} (hrows : rows.length = 16)
  (hcodes : ∀ x ∈ cells.zip rows, x.2.length ≤ (codes x.1).length)
include hrows hcodes

theorem map_fst_storeElements : (storeElements rows codes).map (·.1) = liveSpots rows := by
  rw [storeElements, List.flatMap_map, List.map_flatMap, liveSpots]
  have hsnd : (cells.zip rows).map Prod.snd = rows := List.map_snd_zip (by rw [length_cells, hrows])
  conv_rhs => rw [← hsnd, List.flatMap_map]
  exact List.flatMap_congr fun x hx => map_fst_liveCodes (hcodes x hx)

theorem length_storeElements : (storeElements rows codes).length = (liveSpots rows).length := by
  rw [← map_fst_storeElements hrows hcodes, List.length_map]

theorem mem_liveSpots_of_storeElements {x : Spot × Nat} (hx : x ∈ storeElements rows codes) : x.1 ∈ liveSpots rows := by
  rw [← map_fst_storeElements hrows hcodes]
  exact List.mem_map_of_mem hx

end

/-- A list about one of its elements. -/
theorem take_append_getElem_drop {α : Type} {l : List α} {i : Nat} (h : i < l.length) :
    l = l.take i ++ l[i] :: l.drop (i + 1) := by
  rw [← List.drop_eq_getElem_cons h, List.take_append_drop]

theorem elem_eq_some {rows : List (List (Option Spot))} {cell k : Nat} {x : Spot} (h : elem rows cell k = some x) :
    ∃ row, rows[cell]? = some row ∧ row[k]? = some (some x) := by
  rw [elem, List.getD_eq_getElem?_getD, List.getD_eq_getElem?_getD] at h
  cases hr : rows[cell]? with
  | none => simp [hr] at h
  | some row =>
    refine ⟨row, rfl, ?_⟩
    rw [hr, Option.getD_some] at h
    cases hk : row[k]? with
    | none => simp [hk] at h
    | some y => rw [hk, Option.getD_some] at h; rw [h]

theorem elem_of_getElem? {rows : List (List (Option Spot))} {row : List (Option Spot)} {cell k : Nat} {x : Spot}
    (hr : rows[cell]? = some row) (hk : row[k]? = some (some x)) : elem rows cell k = some x := by
  simp [elem, hr, hk]

/-- An element with its code that is found from place n of the cell's row on, or before it. -/
theorem mem_filterMap_zip {row : List (Option Spot)} {cs : List Nat} {y : Spot × Nat} {zs : List (Option Spot × Nat)}
    {P : Nat → Prop} (hzs : ∀ z ∈ zs, ∃ k, P k ∧ (row.zip cs)[k]? = some z)
    (hy : y ∈ zs.filterMap fun x => x.1.map fun sp => (sp, x.2)) : ∃ k, P k ∧ row[k]? = some (some y.1) := by
  obtain ⟨⟨o, c⟩, hz, ho⟩ := List.mem_filterMap.mp hy
  obtain ⟨k, hk, hget⟩ := hzs _ hz
  obtain ⟨sp, rfl, rfl⟩ := Option.map_eq_some_iff.mp ho
  exact ⟨k, hk, (List.getElem?_zip_eq_some.mp hget).1⟩

theorem exists_getElem?_of_mem_drop {α : Type} {l : List α} {n : Nat} {a : α} (h : a ∈ l.drop n) :
    ∃ k, n ≤ k ∧ l[k]? = some a := by
  obtain ⟨j, hj⟩ := List.mem_iff_getElem?.mp h
  exact ⟨n + j, Nat.le_add_right .., by rw [← List.getElem?_drop, hj]⟩

theorem exists_getElem?_of_mem_take {α : Type} {l : List α} {n : Nat} {a : α} (h : a ∈ l.take n) :
    ∃ k, k < n ∧ l[k]? = some a := by
  obtain ⟨j, hj⟩ := List.mem_iff_getElem?.mp h
  rw [List.getElem?_take] at hj
  split at hj
  next hn => exact ⟨j, hn, hj⟩
  next => cases hj

/-- What stands at (cell, k) among the elements of a store: those before it and those after it. -/
theorem storeElements_split {rows : List (List (Option Spot))} {codes : Nat → List Nat} {cell k : Nat} {x : Spot}
    (hcell : cell < 16) (hx : elem rows cell k = some x) (hk : k < (codes cell).length) :
    ∃ pre post, storeElements rows codes = pre ++ (x, (codes cell)[k]) :: post ∧
      (∀ y ∈ pre, ∃ cell' k', cell' < 16 ∧ elem rows cell' k' = some y.1 ∧ (cell' < cell ∨ cell' = cell ∧ k' < k)) ∧
      ∀ y ∈ post, ∃ cell' k', cell' < 16 ∧ elem rows cell' k' = some y.1 ∧ (cell < cell' ∨ cell = cell' ∧ k < k') := by
  obtain ⟨row, hrow, hget⟩ := elem_eq_some hx
  let M := (cells.zip rows).map fun x => (x.2, codes x.1)
  have hM (j : Nat) (r : List (Option Spot) × List Nat) (hj : M[j]? = some r) :
      j < 16 ∧ rows[j]? = some r.1 ∧ r.2 = codes j := by
    obtain ⟨⟨c, r'⟩, hz, rfl⟩ := Option.map_eq_some_iff.mp ((List.getElem?_map ..).symm.trans hj)
    obtain ⟨hc, hr⟩ := List.getElem?_zip_eq_some.mp hz
    obtain ⟨hlt, rfl⟩ := List.getElem?_eq_some_iff.mp hc
    rw [length_cells] at hlt
    exact ⟨hlt, hr, by simp [cells]⟩
  have hother {y : Spot × Nat} {j : Nat} {r : List (Option Spot) × List Nat} (hj : M[j]? = some r) (hy : y ∈ liveCodes r) :
      ∃ k', j < 16 ∧ elem rows j k' = some y.1 := by
    obtain ⟨hlt, hr, -⟩ := hM j r hj
    obtain ⟨k', -, hk'⟩ := mem_filterMap_zip (P := fun _ => True) (row := r.1) (cs := r.2)
      (fun z hz => (List.mem_iff_getElem?.mp hz).imp fun _ h => ⟨trivial, h⟩) hy
    exact ⟨k', hlt, elem_of_getElem? hr hk'⟩
  have hcur : M[cell]? = some (row, codes cell) := by
    rw [List.getElem?_map, List.getElem?_zip_eq_some (z := (cell, row)) |>.mpr ⟨?_, hrow⟩]
    · rfl
    · rw [cells, List.getElem?_range hcell]
  obtain ⟨hlt, hMc⟩ := List.getElem?_eq_some_iff.mp hcur
  have hz : (row.zip (codes cell))[k]? = some (some x, (codes cell)[k]) :=
    List.getElem?_zip_eq_some.mpr ⟨hget, List.getElem?_eq_getElem hk⟩
  obtain ⟨hltz, hZ⟩ := List.getElem?_eq_some_iff.mp hz
  have hsplit : storeElements rows codes = M.flatMap liveCodes := rfl
  have hlive : liveCodes (row, codes cell) = (row.zip (codes cell)).filterMap fun x => x.1.map fun sp => (sp, x.2) := rfl
  rw [take_append_getElem_drop hlt, List.flatMap_append, List.flatMap_cons, hMc, hlive, take_append_getElem_drop hltz,
    List.filterMap_append, List.filterMap_cons, hZ] at hsplit
  let F : Option Spot × Nat → Option (Spot × Nat) := fun x => x.1.map fun sp => (sp, x.2)
  refine ⟨(M.take cell).flatMap liveCodes ++ ((row.zip (codes cell)).take k).filterMap F,
    ((row.zip (codes cell)).drop (k + 1)).filterMap F ++ (M.drop (cell + 1)).flatMap liveCodes, ?_, ?_, ?_⟩
  · simpa [F] using hsplit
  · intro y hy
    rcases List.mem_append.mp hy with hy | hy
    · obtain ⟨r, hr, hyr⟩ := List.mem_flatMap.mp hy
      obtain ⟨j, hj, hjr⟩ := exists_getElem?_of_mem_take hr
      obtain ⟨k', h16, he⟩ := hother hjr hyr
      exact ⟨j, k', h16, he, .inl hj⟩
    · obtain ⟨k', hk', hr⟩ := mem_filterMap_zip (fun _ => exists_getElem?_of_mem_take) hy
      exact ⟨cell, k', hcell, elem_of_getElem? hrow hr, .inr ⟨rfl, hk'⟩⟩
  · intro y hy
    rcases List.mem_append.mp hy with hy | hy
    · obtain ⟨k', hk', hr⟩ := mem_filterMap_zip (fun _ => exists_getElem?_of_mem_drop) hy
      exact ⟨cell, k', hcell, elem_of_getElem? hrow hr, .inr ⟨rfl, hk'⟩⟩
    · obtain ⟨r, hr, hyr⟩ := List.mem_flatMap.mp hy
      obtain ⟨j, hj, hjr⟩ := exists_getElem?_of_mem_drop hr
      obtain ⟨k', h16, he⟩ := hother hjr hyr
      exact ⟨j, k', h16, he, .inl hj⟩

end Sys2Proof.Machine
end

section
/-! SUPPORT. The write of cells (08 R262, R273): memory as the elements leave it, byte counts, and what else it touches. -/

namespace Sys2Proof

/-- What holds of all keys of a table and of one more holds after a `set`. -/
theorem Table.forall_set {α : Type} {t : Table α} {k : Nat} {x : α} {P : Nat → Prop} (ht : ∀ y ∈ t, P y.1) (hk : P k) :
    ∀ y ∈ t.set k x, P y.1 := by
  induction t with
  | nil => exact fun y hy => List.mem_singleton.mp hy ▸ hk
  | cons p t ih =>
    obtain ⟨j, z⟩ := p
    obtain ⟨hj, ht⟩ := List.forall_mem_cons.mp ht
    rw [Table.set]
    split
    · exact List.forall_mem_cons.mpr ⟨hk, ht⟩
    · split
      · exact List.forall_mem_cons.mpr ⟨hk, List.forall_mem_cons.mpr ⟨hj, ht⟩⟩
      · exact List.forall_mem_cons.mpr ⟨hj, ih ht⟩

namespace Machine

open Sys2Proof.Safety

theorem State.spotPut_keys {s : State} {bits : Nat} {t : Table Byte} {x : Spot} {c : Nat} {P : Nat → Prop} (hx : x.fits bits)
    (ht : ∀ y ∈ t, P y.1) (hP : ∀ k ∈ x.keys, P k) : ∀ y ∈ s.spotPut bits t x c, P y.1 := by
  unfold State.spotPut
  split
  next h4 =>
    subst h4
    obtain ⟨k, hk⟩ := hx.nibble
    refine Table.forall_set ht (hP _ ?_)
    rw [hk]
    exact List.mem_singleton.mpr rfl
  next =>
    exact List.foldlRecOn (motive := fun t : Table Byte => ∀ y ∈ t, P y.1) _ _ ht fun t h _ hkb =>
      Table.forall_set h (hP _ (List.of_mem_zip hkb).1)

theorem State.cellBytes_keys {s : State} {bits : Nat} {xs : List (Spot × Nat)} {P : Nat → Prop}
    (hxs : ∀ x ∈ xs, x.1.fits bits ∧ ∀ k ∈ x.1.keys, P k) : ∀ y ∈ s.cellBytes bits xs, P y.1 :=
  List.foldlRecOn (motive := fun t : Table Byte => ∀ y ∈ t, P y.1) xs _ (fun _ h => by cases h) fun _ h x hx =>
    State.spotPut_keys (hxs x hx).1 h (hxs x hx).2

/-- The write of one cell. -/
def State.putCell (bits : Nat) (p : Poster) (s : State) (row : List (Option Spot) × List Nat) : State :=
  (runs (s.cellBytes bits (liveCodes row))).foldl (fun s kb => s.write kb.1 kb.2)
    (s.noteKeys ((s.cellBytes bits (liveCodes row)).map (·.1)) p)

theorem State.putCell_wrote (s : State) (bits : Nat) (p : Poster) (row : List (Option Spot) × List Nat) :
    wrote s (s.putCell bits p row) :=
  (s.noteKeys_wrote ..).trans (.foldl (f := fun s (kb : Nat × List Byte) => s.write kb.1 kb.2) (fun s _ => s.write_wrote ..) ..)

theorem State.putCell_memWf {s : State} (h : memWf s.mem = true) (bits : Nat) (p : Poster) (row : List (Option Spot) × List Nat) :
    memWf (s.putCell bits p row).mem = true :=
  State.foldl_write_memWf _ (by rw [State.noteKeys_mem]; exact h)

/-- The bytes after the write of one cell. -/
theorem State.memGet_putCell {s : State} (h : memWf s.mem = true) {bits : Nat} {p : Poster} {row : List (Option Spot) × List Nat}
    (hrow : ∀ x ∈ liveCodes row, x.1.fits bits ∧ ∀ k ∈ x.1.keys, s.quarantined k = false) :
    memGet (s.putCell bits p row).mem = (liveCodes row).foldl (fun g x => putElem bits g x.1 x.2) (memGet s.mem) := by
  rw [State.putCell, State.foldl_write_runs (by rw [State.noteKeys_mem]; exact h), State.noteKeys_mem,
    putPairs_sorted (State.cellBytes_sorted ..), State.overlay_cellBytes]
  intro x hx
  rw [(s.noteKeys_wrote ..).quarantined]
  exact State.cellBytes_keys hrow x hx

/-- The bytes that the write of one cell counts. -/
def State.cellCount (bits : Nat) (s : State) (row : List (Option Spot) × List Nat) : Nat :=
  if bits = 4 then (s.cellBytes bits (liveCodes row)).length else (liveCodes row).length * (bits / 8)

theorem State.putCells_eq (s : State) (bits : Nat) (rows : List (List (Option Spot) × List Nat)) :
    s.putCells bits rows = rows.foldl (fun acc row =>
      (acc.1.putCell bits (s.asPoster s.cur) row, acc.2 + acc.1.cellCount bits row)) (s, 0) := rfl

section
variable {bits : Nat} {p : Poster} (rows : List (List (Option Spot) × List Nat))

theorem foldl_putCell_fst (s : State) (n : Nat) :
    (rows.foldl (fun acc row => (acc.1.putCell bits p row, acc.2 + acc.1.cellCount bits row)) (s, n)).1 =
      rows.foldl (State.putCell bits p) s := by
  induction rows generalizing s n with
  | nil => rfl
  | cons row rows ih => exact ih ..

theorem foldl_putCell_snd (h4 : bits ≠ 4) (s : State) (n : Nat) :
    (rows.foldl (fun acc row => (acc.1.putCell bits p row, acc.2 + acc.1.cellCount bits row)) (s, n)).2 =
      n + bits / 8 * (rows.flatMap liveCodes).length := by
  induction rows generalizing s n with
  | nil => rfl
  | cons row rows ih =>
    rw [List.foldl_cons, ih, State.cellCount, if_neg h4, List.flatMap_cons, List.length_append, Nat.mul_add, Nat.add_assoc,
      Nat.mul_comm (liveCodes row).length]

theorem foldl_putCell_wrote (s : State) : wrote s (rows.foldl (State.putCell bits p) s) :=
  .foldl (fun s row => s.putCell_wrote bits p row) rows s

theorem memGet_foldl_putCell {s : State} (h : memWf s.mem = true)
    (hrows : ∀ x ∈ rows.flatMap liveCodes, x.1.fits bits ∧ ∀ k ∈ x.1.keys, s.quarantined k = false) :
    memGet (rows.foldl (State.putCell bits p) s).mem =
      (rows.flatMap liveCodes).foldl (fun g x => putElem bits g x.1 x.2) (memGet s.mem) := by
  induction rows generalizing s with
  | nil => rfl
  | cons row rows ih =>
    obtain ⟨hrow, hrest⟩ := List.forall_mem_append.mp (List.flatMap_cons ▸ hrows)
    rw [List.foldl_cons, ih (State.putCell_memWf h ..) fun x hx => ?_, State.memGet_putCell h hrow, List.flatMap_cons,
      List.foldl_append]
    exact ⟨(hrest x hx).1, fun k hk => ((s.putCell_wrote ..).quarantined k).trans ((hrest x hx).2 k hk)⟩

end

/-- What the write of cells leaves: the elements in memory, in their order. -/
theorem State.putCells_spec {s : State} (h : memWf s.mem = true) {bits : Nat} {rows : List (List (Option Spot) × List Nat)}
    (hrows : ∀ x ∈ rows.flatMap liveCodes, x.1.fits bits ∧ ∀ k ∈ x.1.keys, s.quarantined k = false) :
    wrote s (s.putCells bits rows).1 ∧
      memGet (s.putCells bits rows).1.mem = (rows.flatMap liveCodes).foldl (fun g x => putElem bits g x.1 x.2) (memGet s.mem) ∧
      (bits ≠ 4 → (s.putCells bits rows).2 = bits / 8 * (rows.flatMap liveCodes).length) := by
  rw [State.putCells_eq, foldl_putCell_fst]
  refine ⟨foldl_putCell_wrote rows s, memGet_foldl_putCell rows h hrows, fun h4 => ?_⟩
  rw [foldl_putCell_snd rows h4, Nat.zero_add]

end Machine

end Sys2Proof
end

section
/-! SUPPORT. The places and codes of a T access (08 R262-R264): each element's place has the bytes of its width, each cell's row one
place for an index, and the codes of a register are those that the statements read. -/

namespace Sys2Proof.Machine

open Sys2Proof.Safety

/-! ### Places -/

theorem length_of_mapM_ok {α β ε : Type} {f : α → Except ε β} {xs : List α} {ys : List β} (h : xs.mapM f = .ok ys) :
    ys.length = xs.length :=
  (mapM_eq_ok_iff.mp h).length_eq.symm

theorem exists_of_mem_mapM_ok {α β ε : Type} {f : α → Except ε β} {xs : List α} {ys : List β} (h : xs.mapM f = .ok ys) {y : β}
    (hy : y ∈ ys) : ∃ x ∈ xs, f x = .ok y := by
  obtain ⟨hlen, hall⟩ := List.forall₂_iff_get.mp (mapM_eq_ok_iff.mp h)
  obtain ⟨i, hi, rfl⟩ := List.mem_iff_getElem.mp hy
  exact ⟨_, List.getElem_mem (hlen ▸ hi), hall i (hlen ▸ hi) hi⟩

theorem State.length_spot {s : State} {r : Nat} {b : BufRec} {cell : Nat} {d : Int} {size w acc : Nat} {ks : List Nat} {p : Word}
    (h : s.spot r b cell d size w acc = .ok (ks, p)) : ks.length = size := by
  unfold State.spot at h
  extract_lets base sp addr limit p' at h
  split at h
  · cases h
  · split at h
    · obtain ⟨rfl, -⟩ := Prod.mk.inj (Except.ok.inj h)
      simp
    · split at h
      · split at h
        next hm =>
          obtain ⟨rfl, -⟩ := Prod.mk.inj (Except.ok.inj h)
          rw [length_of_mapM_ok hm, List.length_range]
        next => cases h
      · split at h
        · obtain ⟨rfl, -⟩ := Prod.mk.inj (Except.ok.inj h)
          simp
        · cases h

/-- The bit within the byte is that of a nibble. -/
theorem Rec.half_of_locate {f : Rec} {write : Bool} {i0 i1 i2 d : Int} {half : Nat}
    (h : f.locate write i0 i1 i2 = .ok (some (d, half))) (h4 : f.bits = 4) : half = 0 ∨ half = 4 := by
  have hpar (i : Int) : (i * 4 % 8).toNat = 0 ∨ (i * 4 % 8).toNat = 4 := by omega
  unfold Rec.locate at h
  simp only [h4] at h
  grind

theorem State.fits_of_elSpot {s : State} {r : Nat} {b : BufRec} {f : Rec} {cell : Nat} {write : Bool} {w acc : Nat} {o : Int}
    {i : Int × Int × Int} {x : Spot} (h : s.elSpot r b f cell write w acc o i = .ok (some x)) : x.fits f.bits := by
  unfold State.elSpot at h
  split at h
  next => cases h
  next => cases h
  next d half hloc =>
    split at h
    next => cases h
    next hspot =>
      cases h
      exact ⟨State.length_spot hspot, Rec.half_of_locate hloc⟩

/-- The rows of an access: an element's place for each index of a cell at most. -/
structure rowsOf (bits : Nat) (len : Nat → Nat) (rows : List (List (Option Spot))) : Prop where
  length : rows.length = 16
  row : ∀ x ∈ cells.zip rows, x.2.length ≤ len x.1
  fits : ∀ x ∈ liveSpots rows, x.fits bits

theorem mem_liveSpots {rows : List (List (Option Spot))} {x : Spot} : x ∈ liveSpots rows ↔ ∃ row ∈ rows, some x ∈ row := by
  simp [liveSpots]

theorem State.elSpots_rowsOf {s : State} {r : Nat} {b : BufRec} {f : Rec} {write : Bool} {w acc : Nat} {o : Int} {perCell : Bool}
    {idx : Nat → List (Int × Int × Int)} {rows : List (List (Option Spot))} {n : Nat} (hidx : ∀ c, (idx c).length = n)
    (h : s.elSpots r b f write w acc o perCell idx = .ok rows) : rowsOf f.bits (fun _ => n) rows := by
  have hrow {c : Nat} {row : List (Option Spot)} (hc : (idx c).mapM (s.elSpot r b f c write w acc o) = .ok row) :
      row.length = n ∧ ∀ x, some x ∈ row → x.fits f.bits := by
    refine ⟨(length_of_mapM_ok hc).trans (hidx c), fun x hx => ?_⟩
    obtain ⟨i, -, hi⟩ := exists_of_mem_mapM_ok hc hx
    exact State.fits_of_elSpot hi
  suffices hall : rows.length = 16 ∧ ∀ row ∈ rows, ∃ c, (idx c).mapM (s.elSpot r b f c write w acc o) = .ok row by
    refine ⟨hall.1, fun x hx => ?_, fun x hx => ?_⟩
    · obtain ⟨c, hc⟩ := hall.2 x.2 (List.of_mem_zip hx).2
      exact (hrow hc).1.le
    · obtain ⟨row, hr, hx⟩ := mem_liveSpots.mp hx
      obtain ⟨c, hc⟩ := hall.2 row hr
      exact (hrow hc).2 x hx
  unfold State.elSpots at h
  dsimp only at h
  split at h
  · refine ⟨(length_of_mapM_ok h).trans length_cells, fun row hr => ?_⟩
    obtain ⟨c, -, hc⟩ := exists_of_mem_mapM_ok h hr
    exact ⟨c, hc⟩
  · cases h0 : (idx 0).mapM (s.elSpot r b f 0 write w acc o) with
    | error e => rw [h0] at h; cases h
    | ok row =>
      rw [h0] at h
      cases h
      refine ⟨by simp [cells], fun x hx => ⟨0, ?_⟩⟩
      obtain ⟨-, -, rfl⟩ := List.mem_map.mp hx
      exact h0

/-! ### Codes -/

theorem leNat_lt (bs : List Byte) : leNat bs < 256 ^ bs.length := by
  induction bs with
  | nil => exact Nat.one_pos
  | cons b bs ih =>
    have := b.isLt
    rw [leNat, List.length_cons, Nat.pow_succ]
    omega

theorem length_elemsOf (w n : Nat) (bs : List Byte) : (elemsOf w n bs).length = n := by
  induction n generalizing bs with
  | zero => rfl
  | succ n ih => rw [elemsOf, List.length_cons, ih]

theorem getElem_elemsOf {w n k : Nat} {bs : List Byte} (hk : k < (elemsOf w n bs).length) :
    (elemsOf w n bs)[k] = at' bs (w * k) w := by
  induction n generalizing bs k with
  | zero => cases hk
  | succ n ih =>
    cases k with
    | zero => simp [elemsOf, at']
    | succ k =>
      simp only [elemsOf, List.getElem_cons_succ]
      rw [ih, at', at', List.drop_drop, Nat.mul_succ, Nat.add_comm w]

theorem at'_lt (bs : List Byte) (off n : Nat) : at' bs off n < 256 ^ n :=
  (leNat_lt _).trans_le (Nat.pow_le_pow_right (by decide) (List.length_take_le ..))

theorem at'_one_zero (b : Byte) (bs : List Byte) : at' (b :: bs) 0 1 = b.toNat := by simp [at', leNat]

theorem at'_cons_succ (b : Byte) (bs : List Byte) (off n : Nat) : at' (b :: bs) (off + 1) n = at' bs off n := rfl

theorem length_nibblesOf {n : Nat} {bs : List Byte} (h : n ≤ 2 * bs.length) : (nibblesOf n bs).length = n := by
  induction n, bs using nibblesOf.induct with
  | case1 => rfl
  | case2 n => exact absurd h (by simp)
  | case3 b t => rfl
  | case4 n b t ih =>
    rw [List.length_cons] at h
    rw [nibblesOf, List.length_cons, List.length_cons, ih (by omega)]

theorem getElem_nibblesOf {n k : Nat} {bs : List Byte} (hk : k < (nibblesOf n bs).length) : (nibblesOf n bs)[k] = code 4 bs k := by
  induction n, bs using nibblesOf.induct generalizing k with
  | case1 => simp [nibblesOf] at hk
  | case2 n => simp [nibblesOf] at hk
  | case3 b t =>
    obtain rfl : k = 0 := by simpa [nibblesOf] using hk
    simp [nibblesOf, code, at'_one_zero]
  | case4 n b t ih =>
    have hb := b.isLt
    match k with
    | 0 => simp [nibblesOf, code, at'_one_zero]
    | 1 =>
      simp only [nibblesOf, List.getElem_cons_succ, List.getElem_cons_zero, code, if_true, at'_one_zero, Nat.reduceDiv,
        Nat.reduceMod, pow_one]
      omega
    | k + 2 =>
      have hdiv : (k + 2) / 2 = k / 2 + 1 := by omega
      have hmod : (k + 2) % 2 = k % 2 := by omega
      simp only [nibblesOf, List.getElem_cons_succ, code, if_true, hdiv, hmod, at'_cons_succ]
      rw [ih]
      rfl

/-- A code lies within its bits. -/
theorem code_lt {bits : Nat} (hb : elemBits bits) (bs : List Byte) (k : Nat) : code bits bs k < 2 ^ bits := by
  unfold code
  split
  next h => rw [h]; exact Nat.mod_lt _ (by decide)
  next h =>
    obtain ⟨n, rfl⟩ := (hb.resolve_left h).1
    refine (at'_lt ..).trans_eq ?_
    rw [Nat.mul_div_cancel_left _ (by decide), pow_mul]
    norm_num

theorem Harness.length_tcodes {h : Harness} {cell r bits n : Nat} (hfit : n * bits ≤ 16384) :
    (h.tcodes cell r bits n).length = n := by
  unfold Harness.tcodes
  split
  next h4 =>
    rw [h4] at hfit
    exact length_nibblesOf (by rw [h.length_vget]; omega)
  next => exact length_elemsOf ..

theorem Harness.getElem_tcodes {h : Harness} {cell r bits n k : Nat} (hk : k < (h.tcodes cell r bits n).length) :
    (h.tcodes cell r bits n)[k] = code bits (h.vget cell r) k := by
  by_cases h4 : bits = 4
  · subst h4
    exact getElem_nibblesOf hk
  · have hv : h.tcodes cell r bits n = elemsOf (bits / 8) n (h.vget cell r) := if_neg h4
    simp only [hv]
    rw [getElem_elemsOf, code, if_neg h4]

theorem length_tIdx (h : Harness) (w : TWord) (n cell : Nat) : (tIdx h w n cell).length = n := by simp [tIdx]

theorem length_tGatherIdx (h : Harness) (w : TWord) (cell : Nat) : (tGatherIdx h w cell).length = h.vl.toNat := by
  simp [tGatherIdx, Harness.velems, length_elemsOf]

end Sys2Proof.Machine
end

section
/-! SUPPORT. The issue of a store of the T engine (08 R262-R264, R274; 01 R27): it waits for room among the requests, or issues and
leaves its elements in memory. -/

namespace Sys2Proof.Machine

open Sys2Proof.Safety

/-! ### Room for a request -/

theorem Harness.requests_eq (h : Harness) : h.requests = outstanding h := by
  have hreq (x : EngSt) : x.requests = x.pend.countP fun p => decide (p.due ∈ [.free .load, .free .decode, .free .seek]) := by
    rw [EngSt.requests, ← List.countP_eq_length_filter]
    exact List.countP_congr fun p _ => by simp [or_assoc]
  rw [Harness.requests, outstanding, hreq, hreq, List.countP_append, Nat.add_assoc _ (List.countP ..)]

/-- A store has room for its request (01 R27). -/
def roomy (f : Rec) (s : State) : Prop := space f.base = 1 ∨ outstanding (s.har s.cur) < 2048

theorem State.loadStalls_eq_false {s : State} {f : Rec} : s.loadStalls f true = false ↔ roomy f s := by
  simp [State.loadStalls, Harness.atLimit, roomy, Harness.requests_eq, imp_iff_not_or]

theorem State.loadStalls_of_not_roomy {s : State} {f : Rec} (h : ¬roomy f s) : s.loadStalls f true = true :=
  (Bool.not_eq_false _).mp (mt State.loadStalls_eq_false.mp h)

theorem State.tStore_wait {s : State} {f : Rec} (h : s.loadStalls f true = true) (rb : BufRec) (rows : List (List (Option Spot)))
    (codes : Nat → List Nat) : s.tStore rb f (.ok rows) codes = .wait := by
  rw [State.tStore, h, if_pos rfl]

/-! ### What a store leaves -/

theorem State.stores_of {s u v : State} {ks : List Nat} (hu : onlyBanks s.cur s u) (hl : s.latent = []) (hv : wrote u v)
    (hmem : ∀ a, a ∉ ks → memGet v.mem a = memGet s.mem a) (n : Nat) : stores s.cur ks n s (v.countBytes n) := by
  obtain ⟨hus, huh, hut⟩ := hu
  have hcur : v.cur = s.cur := by rw [hv.cur, hus]
  have hlat : v.latent = s.latent := by rw [hl, hv.latent (by rw [hus]; exact hl)]
  have honly : v = { s with hs := u.hs, mem := v.mem, poison := v.poison, hbm := v.hbm, tagger := v.tagger } := by
    have := hv.only
    rw [hlat, hus] at this
    exact this
  have hhar (q : Nat) : v.har q = u.har q := hv.har q
  rw [State.countBytes, hcur, State.modCtl]
  refine ⟨?_, hmem, fun q => ?_⟩
  · generalize v.mem = mem, v.poison = poison, v.hbm = hbm, v.tagger = tagger at honly
    rw [honly]
    rfl
  · by_cases hq : q = s.cur
    · subst hq
      rw [State.har_modHar, hhar, huh s.cur]
      simp
    · rw [State.har_modHar_other _ hq, hhar, huh q, hut q hq]
      simp [hq]

theorem State.countBytes_mem (s : State) (n : Nat) : (s.countBytes n).mem = s.mem := rfl

/-- The elements of an access that memory lets through. -/
structure storable (f : Rec) (ks : List Nat) (s : State) : Prop where
  memOk : memOk s
  quiet : quiet (s.engAsker .t f) ks s
  free : ∀ a ∈ ks, s.quarantined a = false

theorem storable.latent {f : Rec} {ks : List Nat} {s : State} (h : storable f ks s) : s.latent = [] := h.quiet.1.1

theorem rowsOf.lt_of_elem {bits : Nat} {len : Nat → Nat} {rows : List (List (Option Spot))} (h : rowsOf bits len rows)
    {cell k : Nat} {x : Spot} (hcell : cell < 16) (hx : elem rows cell k = some x) : k < len cell := by
  obtain ⟨row, hr, hget⟩ := elem_eq_some hx
  have hlen : row.length ≤ len cell :=
    h.row (cell, row) (List.mem_iff_getElem?.mpr ⟨cell, List.getElem?_zip_eq_some.mpr
      ⟨by rw [cells, List.getElem?_range hcell], hr⟩⟩)
  exact (List.getElem?_eq_some_iff.mp hget).1.trans_le hlen

section
variable {s : State} {f : Rec} {rows : List (List (Option Spot))} {codes : Nat → List Nat}
  (hrows : rowsOf f.bits (fun cell => (codes cell).length) rows)
include hrows

theorem fits_of_storeElements {x : Spot × Nat} (hx : x ∈ storeElements rows codes) : x.1.fits f.bits :=
  hrows.fits _ (mem_liveSpots_of_storeElements hrows.length hrows.row hx)

theorem keys_of_storeElements {x : Spot × Nat} (hx : x ∈ storeElements rows codes) {k : Nat} (hk : k ∈ x.1.keys) :
    k ∈ (liveSpots rows).flatMap (·.keys) :=
  List.mem_flatMap.mpr ⟨_, mem_liveSpots_of_storeElements hrows.length hrows.row hx, hk⟩

/-- A store that has room writes its elements. -/
theorem State.tStore_go (hs : storable f ((liveSpots rows).flatMap (·.keys)) s) (hroom : s.loadStalls f true = false)
    (rb : BufRec) : ∃ s1 n, s.tStore rb f (.ok rows) codes = .go s1 (.cycle (s.eng .t).cyc) [] ∧ s1.eng .t = s.eng .t ∧
      stores s.cur ((liveSpots rows).flatMap (·.keys)) n s s1 ∧
      memGet s1.mem = (storeElements rows codes).foldl (fun g x => putElem f.bits g x.1 x.2) (memGet s.mem) ∧
      (f.bits ≠ 4 → n = f.bits / 8 * (liveSpots rows).length) := by
  obtain ⟨t, lat, hbanks, hworn⟩ := State.banks_of_quiet hs.quiet
  have hsame := State.banks_ok_sameEngines hbanks
  have htb := hworn.onlyBanks s.cur
  have htl : t.latent = [] := by rw [htb.1]; exact hs.latent
  let u := t.cacheSpots s.cur rb (liveSpots rows)
  have hu : onlyBanks s.cur s u := onlyBanks_trans htb (State.cacheSpots_onlyBanks htl ..)
  have hum : u.mem = s.mem := by rw [hu.1]
  have huq (k : Nat) : u.quarantined k = s.quarantined k := by rw [hu.1]; rfl
  have hel : ∀ x ∈ storeElements rows codes, x.1.fits f.bits ∧ ∀ k ∈ x.1.keys, u.quarantined k = false := fun x hx =>
    ⟨fits_of_storeElements hrows hx, fun k hk => (huq k).trans (hs.free k (keys_of_storeElements hrows hx hk))⟩
  obtain ⟨hw, hmem, hn⟩ := State.putCells_spec (by rw [hum]; exact hs.memOk) hel
  rw [hum] at hmem
  refine ⟨_, (u.putCells f.bits ((cells.zip rows).map fun x => (x.2, codes x.1))).2, ?_, ?_,
    State.stores_of hu hs.latent hw (fun a ha => ?_) _, hmem, fun h4 => ?_⟩
  · unfold State.tStore
    dsimp only
    rw [hroom, if_neg Bool.false_ne_true, hbanks]
  · exact (((hsame.trans (State.cacheSpots_sameEngines ..)).trans (State.putCells_sameEngines ..)).trans
      (State.countBytes_sameEngines ..)).eng _
  · rw [hmem]
    exact foldl_putElem_other (fun x hx => fits_of_storeElements hrows hx) fun x hx h =>
      ha (keys_of_storeElements hrows hx h)
  · rw [hn h4, ← length_storeElements hrows.length hrows.row]
    rfl

/-- Elements put into memory in their order stand as `elementsStored` says. -/
theorem elementsStored_of {src : Nat → Nat → Nat} {t : State} {g : Nat → Byte}
    (hsrc : ∀ cell k, cell < 16 → (hk : k < (codes cell).length) → (codes cell)[k] % 2 ^ f.bits = src cell k)
    (hmem : memGet t.mem = (storeElements rows codes).foldl (fun g x => putElem f.bits g x.1 x.2) g) :
    elementsStored f.bits rows src t := by
  intro cell k x hcell hx hnd hlast
  have hk := hrows.lt_of_elem hcell hx
  obtain ⟨pre, post, hsplit, -, hpost⟩ := storeElements_split hcell hx hk
  have hmem' {y : Spot × Nat} (hy : y ∈ (x, (codes cell)[k]) :: post) : y.1.fits f.bits :=
    fits_of_storeElements hrows (hsplit ▸ List.mem_append_right _ hy)
  rw [State.spotCode_some, hmem, hsplit, spotVal_foldl_last f.bits_elemBits (hmem' List.mem_cons_self) hnd, hsrc _ _ hcell]
  intro y hy
  obtain ⟨cell', k', hcell', hy', hlt⟩ := hpost y hy
  exact ⟨hmem' (List.mem_cons_of_mem _ hy), hlast _ _ _ hcell' hy' hlt⟩

end

/-! ### The issue -/

/-- A T word whose own meaning is a fault. -/
theorem tWord_fault {i : Instr} {w : TWord} {u : TUse} {b : Block} {takes : List FeReg} {s : State} {run : State → Issue}
    {x : Fail} (hi : exec i s = .next (s.issue (tFront w u) run)) (hlegal : tBad w u = false)
    (hu : u.take = true ∧ u.fild = false) (htakes : (if w.take then tFe w u.reg else []) = takes)
    (hr : ready .t b w.gk w.gn takes [] s) (hrun : run s = .fault x) : exec i s = .next (s.blockFault .t x) := by
  obtain ⟨htake, hfild⟩ := hu
  rw [tFront_legal hlegal, htake, hfild, if_pos rfl, if_neg Bool.false_ne_true, htakes] at hi
  exact hi.trans (congrArg _ (State.issue_fault hr rfl rfl hrun))

theorem onlyHar_mem {r : Nat} {s t : State} (h : onlyHar r s t) : t.mem = s.mem := by rw [h.1]

/-- The T word i with its record f waits for room, or it issues as a store to the keys ks of n bytes, and `P n` holds of the
state after. -/
def storeIssues (i : Instr) (b : Block) (takes : List FeReg) (f : Rec) (ks : List Nat) (P : Nat → State → Prop) (s : State) : Prop :=
  (¬roomy f s → waits .t b i s) ∧ (roomy f s → ∃ s1 t n,
    tGoes i b takes [] { age := 0, due := .cycle (s.eng .t).cyc, effs := [] } s s1 t ∧ stores s.cur ks n s s1 ∧ P n t)

theorem tWord_waits {i : Instr} {w : TWord} {u : TUse} {b : Block} {takes : List FeReg} {s : State} {run : State → Issue}
    (hi : exec i s = .next (s.issue (tFront w u) run)) (hlegal : tBad w u = false) (hu : u.take = true ∧ u.fild = false)
    (htakes : (if w.take then tFe w u.reg else []) = takes) (hr : ready .t b w.gk w.gn takes [] s) (hrun : run s = .wait) :
    waits .t b i s := by
  obtain ⟨htake, hfild⟩ := hu
  rw [tFront_legal hlegal, htake, hfild, if_pos rfl, if_neg Bool.false_ne_true, htakes] at hi
  exact issue_waits hr rfl rfl hi hrun

theorem storeIssues_of_run {i : Instr} {w : TWord} {u : TUse} {b : Block} {takes : List FeReg} {f : Rec} {ks : List Nat}
    {P : Nat → State → Prop} {s : State} {run : State → Issue} (hi : exec i s = .next (s.issue (tFront w u) run))
    (hlegal : tBad w u = false) (hu : u.take = true ∧ u.fild = false) (htakes : (if w.take then tFe w u.reg else []) = takes)
    (hr : ready .t b w.gk w.gn takes [] s) (hwait : s.loadStalls f true = true → run s = .wait)
    (hgo : s.loadStalls f true = false → ∃ s1 n, run s = .go s1 (.cycle (s.eng .t).cyc) [] ∧ s1.eng .t = s.eng .t ∧
      stores s.cur ks n s s1 ∧ ∀ t, t.mem = s1.mem → P n t) : storeIssues i b takes f ks P s := by
  refine ⟨fun h => tWord_waits hi hlegal hu htakes hr
    (hwait (State.loadStalls_of_not_roomy h)), fun h => ?_⟩
  · obtain ⟨s1, n, hrun, heng, hst, hP⟩ := hgo (State.loadStalls_eq_false.mpr h)
    obtain ⟨htake, hfild⟩ := hu
    rw [tFront_legal hlegal, htake, hfild, if_pos rfl, if_neg Bool.false_ne_true, htakes] at hi
    have hfly := State.issue_go_flies (f := { e := .t, gk := w.gk, gn := w.gn, bad := none, takes := takes, fills := [] }) hr rfl rfl
      heng hrun
    exact ⟨s1, _, n, ⟨hi, hfly⟩, hst, hP _ (onlyHar_mem hfly.1)⟩

/-- A word whose meaning is a store of elements. -/
theorem storeIssues_of_tStore {i : Instr} {w : TWord} {u : TUse} {b : Block} {takes : List FeReg} {f : Rec} {rb : BufRec}
    {P : Nat → State → Prop} {s : State} {run : State → Issue} {rows : List (List (Option Spot))} {codes : Nat → List Nat}
    (hi : exec i s = .next (s.issue (tFront w u) run)) (hlegal : tBad w u = false) (hu : u.take = true ∧ u.fild = false)
    (htakes : (if w.take then tFe w u.reg else []) = takes) (hr : ready .t b w.gk w.gn takes [] s)
    (hrun : run s = s.tStore rb f (.ok rows) codes) (hrows : rowsOf f.bits (fun cell => (codes cell).length) rows)
    (hs : storable f ((liveSpots rows).flatMap (·.keys)) s)
    (hP : ∀ n t, memGet t.mem = (storeElements rows codes).foldl (fun g x => putElem f.bits g x.1 x.2) (memGet s.mem) →
      (f.bits ≠ 4 → n = f.bits / 8 * (liveSpots rows).length) → P n t) :
    storeIssues i b takes f ((liveSpots rows).flatMap (·.keys)) P s := by
  refine storeIssues_of_run hi hlegal hu htakes hr (fun hwait => ?_) fun hroom => ?_
  · rw [hrun, State.tStore_wait hwait]
  · obtain ⟨s1, n, hgo, heng, hst, hmem, hn⟩ := State.tStore_go hrows hs hroom rb
    exact ⟨s1, n, hrun.trans hgo, heng, hst, fun t ht => hP n t (ht ▸ hmem) hn⟩

end Sys2Proof.Machine
end

section
/-! O41: transfer stores (08 R262-R264, R274). -/

namespace Sys2Proof.Machine

open Sys2Proof.Safety

/-! ### Atomic additions -/

/-- One atomic addition, and what memory reads after it. -/
def State.atomPut (f : Rec) (s : State) (x : Spot × Nat) : State :=
  (s.noteKeys x.1.keys (s.asPoster s.cur)).writeKeys x.1.keys (leBytes 4 (atomAdd f (s.spotCode 32 (some x.1)) x.2))

def atomElem (f : Rec) (g : Nat → Byte) (x : Spot × Nat) : Nat → Byte := putElem 32 g x.1 (atomAdd f (spotVal 32 g x.1) x.2)

theorem State.atomAll_eq (s : State) (f : Rec) (rows : List (List (Option Spot) × List Nat)) :
    s.atomAll f rows = (rows.flatMap liveCodes).foldl (State.atomPut f) s := by
  rw [State.atomAll, List.foldl_flatMap]
  congr 1
  funext s row
  rw [liveCodes, List.foldl_filterMap]
  congr 1
  funext s x
  obtain ⟨o, c⟩ := x
  cases o <;> rfl

theorem State.writeKeys_wrote (s : State) (ks : List Nat) (bs : List Byte) : wrote s (s.writeKeys ks bs) :=
  .foldl (f := fun s (kb : Nat × List Byte) => s.write kb.1 kb.2) (fun s kb => s.write_wrote kb.1 kb.2) _ s

theorem State.atomPut_wrote (f : Rec) (s : State) (x : Spot × Nat) : wrote s (s.atomPut f x) :=
  (s.noteKeys_wrote ..).trans (State.writeKeys_wrote ..)

theorem State.memGet_atomPut {f : Rec} {s : State} {x : Spot × Nat} (hm : memWf s.mem = true)
    (hx : ∀ k ∈ x.1.keys, s.quarantined k = false) : memGet (s.atomPut f x).mem = atomElem f (memGet s.mem) x := by
  unfold State.atomPut State.writeKeys
  rw [State.foldl_write_runs (by rw [State.noteKeys_mem]; exact hm), State.noteKeys_mem]
  · rfl
  · intro y hy
    rw [(s.noteKeys_wrote ..).quarantined]
    exact hx _ (List.of_mem_zip hy).1

theorem State.memGet_foldl_atomPut {f : Rec} (xs : List (Spot × Nat)) {s : State} (hm : memWf s.mem = true)
    (hxs : ∀ x ∈ xs, ∀ k ∈ x.1.keys, s.quarantined k = false) :
    memGet (xs.foldl (State.atomPut f) s).mem = xs.foldl (atomElem f) (memGet s.mem) := by
  induction xs generalizing s with
  | nil => rfl
  | cons x xs ih =>
    rw [List.foldl_cons, List.foldl_cons, ih, State.memGet_atomPut hm (hxs x List.mem_cons_self)]
    · exact State.writeKeys_memWf (by rw [State.noteKeys_mem]; exact hm) ..
    · exact fun y hy k hk => ((s.atomPut_wrote ..).quarantined k).trans (hxs y (List.mem_cons_of_mem _ hy) k hk)

theorem foldl_atomElem_other {f : Rec} {g : Nat → Byte} {xs : List (Spot × Nat)} {a : Nat} (hxs : ∀ x ∈ xs, x.1.fits 32)
    (ha : ∀ x ∈ xs, a ∉ x.1.keys) : xs.foldl (atomElem f) g a = g a := by
  induction xs generalizing g with
  | nil => rfl
  | cons x xs ih =>
    rw [List.foldl_cons, ih (fun y hy => hxs y (List.mem_cons_of_mem _ hy)) fun y hy => ha y (List.mem_cons_of_mem _ hy)]
    exact putElem_other (hxs x List.mem_cons_self) (ha x List.mem_cons_self)

theorem spotVal_foldl_atomElem_other {f : Rec} {g : Nat → Byte} {x : Spot} {xs : List (Spot × Nat)} (hx : x.fits 32)
    (hxs : ∀ y ∈ xs, y.1.fits 32 ∧ ¬Spot.meets 32 x y.1) : spotVal 32 (xs.foldl (atomElem f) g) x = spotVal 32 g x := by
  induction xs generalizing g with
  | nil => rfl
  | cons y xs ih =>
    obtain ⟨hy, hxy⟩ := hxs y List.mem_cons_self
    rw [List.foldl_cons, ih fun z hz => hxs z (List.mem_cons_of_mem _ hz)]
    exact spotVal_putElem_other hx hy hxy

/-- A place that one element alone adds to. -/
theorem spotVal_foldl_atomElem {f : Rec} {g : Nat → Byte} {x : Spot} {c : Nat} {pre post : List (Spot × Nat)} (hx : x.fits 32)
    (hnd : x.keys.Nodup) (hpre : ∀ y ∈ pre, y.1.fits 32 ∧ ¬Spot.meets 32 x y.1)
    (hpost : ∀ y ∈ post, y.1.fits 32 ∧ ¬Spot.meets 32 x y.1) :
    spotVal 32 ((pre ++ (x, c) :: post).foldl (atomElem f) g) x = atomAdd f (spotVal 32 g x) c % 2 ^ 32 := by
  rw [List.foldl_append, List.foldl_cons, spotVal_foldl_atomElem_other hx hpost, atomElem,
    spotVal_putElem_same (.inr ⟨by decide, by decide⟩) hx hnd, spotVal_foldl_atomElem_other hx hpre]

theorem velems_eq_tcodes (h : Harness) (cell r n : Nat) : h.velems cell r 4 n = h.tcodes cell r 32 n := rfl

section
variable {s : State} {f : Rec} {rows : List (List (Option Spot))} {codes : Nat → List Nat}
  (hrows : rowsOf f.bits (fun cell => (codes cell).length) rows) (h32 : f.bits = 32)
include hrows h32

/-- An atomic addition that has room adds its elements in order. -/
theorem State.atomAll_go (hs : storable f ((liveSpots rows).flatMap (·.keys)) s) :
    ∃ t lat, s.banks .t f ((liveSpots rows).flatMap (·.keys)) = .ok (t, lat) ∧
      let s1 := ((t.scrubSpots (liveSpots rows)).atomAll f ((cells.zip rows).map fun x => (x.2, codes x.1))).countBytes
        (4 * (liveSpots rows).length)
      s1.eng .t = s.eng .t ∧ stores s.cur ((liveSpots rows).flatMap (·.keys)) (4 * (liveSpots rows).length) s s1 ∧
        memGet s1.mem = (storeElements rows codes).foldl (atomElem f) (memGet s.mem) := by
  obtain ⟨t, lat, hbanks, hworn⟩ := State.banks_of_quiet hs.quiet
  have ht := hworn.onlyBanks s.cur
  have htl : t.latent = [] := by rw [ht.1]; exact hs.latent
  have htm : t.mem = s.mem := by rw [ht.1]
  have htq (k : Nat) : t.quarantined k = s.quarantined k := by rw [ht.1]; rfl
  refine ⟨t, lat, hbanks, ?_⟩
  have hsame := (State.banks_ok_sameEngines hbanks).trans (t.atomAll_sameEngines f
    ((cells.zip rows).map fun x => (x.2, codes x.1)))
  have hw : wrote t (t.atomAll f ((cells.zip rows).map fun x => (x.2, codes x.1))) := by
    rw [State.atomAll_eq]
    exact .foldl (State.atomPut_wrote f) _ t
  have hmem : memGet (t.atomAll f ((cells.zip rows).map fun x => (x.2, codes x.1))).mem =
      (storeElements rows codes).foldl (atomElem f) (memGet s.mem) := by
    rw [State.atomAll_eq, ← htm]
    exact State.memGet_foldl_atomPut _ (by rw [htm]; exact hs.memOk) fun x hx k hk =>
      (htq k).trans (hs.free k (keys_of_storeElements hrows hx hk))
  rw [State.scrubSpots_of_no_latent htl]
  refine ⟨(hsame.trans (State.countBytes_sameEngines ..)).eng _, State.stores_of ht hs.latent hw (fun a ha => ?_) _, hmem⟩
  rw [hmem]
  exact foldl_atomElem_other (fun x hx => h32 ▸ fits_of_storeElements hrows hx) fun x hx h =>
    ha (keys_of_storeElements hrows hx h)

/-- An element at a place of its own has been added to what stood there. -/
theorem leNat_atomAll {t : State} {g : Nat → Byte} (hmem : memGet t.mem = (storeElements rows codes).foldl (atomElem f) g)
    {cell k : Nat} {x : Spot} (hcell : cell < 16) (hx : elem rows cell k = some x) (hk : k < (codes cell).length)
    (hnd : x.keys.Nodup)
    (halone : ∀ cell' k' y, cell' < 16 → elem rows cell' k' = some y → (cell, k) ≠ (cell', k') → ¬Spot.meets 32 x y) :
    leNat (x.keys.map (memGet t.mem)) = atomAdd f (leNat (x.keys.map g)) (codes cell)[k] % 2 ^ 32 := by
  obtain ⟨pre, post, hsplit, hpre, hpost⟩ := storeElements_split hcell hx hk
  have hfits {y : Spot × Nat} (hy : y ∈ pre ++ (x, (codes cell)[k]) :: post) : y.1.fits 32 :=
    h32 ▸ fits_of_storeElements hrows (hsplit ▸ hy)
  have := spotVal_foldl_atomElem (f := f) (g := g) (c := (codes cell)[k]) (pre := pre) (post := post)
    (hfits (List.mem_append_right _ List.mem_cons_self)) hnd (fun y hy => ?_) fun y hy => ?_
  · rwa [← hsplit, ← hmem] at this
  · obtain ⟨cell', k', hcell', hy', hlt⟩ := hpre y hy
    refine ⟨hfits (List.mem_append_left _ hy), halone _ _ _ hcell' hy' fun h => ?_⟩
    obtain ⟨rfl, rfl⟩ := Prod.mk.inj h
    omega
  · obtain ⟨cell', k', hcell', hy', hlt⟩ := hpost y hy
    refine ⟨hfits (List.mem_append_right _ (List.mem_cons_of_mem _ hy)), halone _ _ _ hcell' hy' fun h => ?_⟩
    obtain ⟨rfl, rfl⟩ := Prod.mk.inj h
    omega

end

/-- The elements of v(REG) as a store takes them. -/
theorem rowsOf_tcodes {bits n : Nat} {rows : List (List (Option Spot))} (h : rowsOf bits (fun _ => n) rows)
    (hfit : n * bits ≤ 16384) (x : Harness) (r : Nat) : rowsOf bits (fun cell => (x.tcodes cell r bits n).length) rows := by
  simpa only [Harness.length_tcodes hfit] using h

/-- Settles O41: a store of elements has written them in their order where it has room (`State.tStore_go`), and the last one at a
place is read there (`elementsStored_of`); an addition adds to what stood at a place of its own (`leNat_atomAll`). -/
theorem transferStores : Obligations.TransferStores := by
  intro s w b rb f rows h vl live ks takes src roomy' stored hm hr hq hfree
  have hs : storable f ks s := ⟨hm, hq, hfree⟩
  have hP {n : Nat} (hrows : rowsOf f.bits (fun _ => n) rows) (hfit : n * f.bits ≤ 16384) (m : Nat) (t : State)
      (hmem : memGet t.mem = (storeElements rows fun cell => h.tcodes cell w.reg.toNat f.bits n).foldl
        (fun g x => putElem f.bits g x.1 x.2) (memGet s.mem)) (hm : f.bits ≠ 4 → m = f.bits / 8 * live.length) :
      elementsStored f.bits rows src t ∧ (8 ≤ f.bits → m = f.bits / 8 * live.length) := by
    refine ⟨elementsStored_of (rowsOf_tcodes hrows hfit h w.reg.toNat) (fun cell k _ hk => ?_) hmem, fun h8 => hm (by omega)⟩
    rw [Harness.getElem_tcodes, Nat.mod_eq_of_lt (code_lt f.bits_elemBits ..)]
  refine ⟨fun hrec => ⟨fun hlegal hfit hsp => ?_, fun hlegal hfit hsp => ?_⟩, fun hrec hlegal => ⟨fun h1 h2 => ?_, fun hspace =>
    ⟨fun hfmt => ?_, fun hfmt h32 hfit hcon hsp => ?_⟩⟩⟩
  · have hrows := State.elSpots_rowsOf (length_tIdx h w vl) hsp
    refine storeIssues_of_tStore (u := memUse w true false) (rb := rb) rfl hlegal ⟨rfl, rfl⟩ rfl hr ?_
      (rowsOf_tcodes hrows hfit h w.reg.toNat) hs (hP hrows hfit)
    simp only [hrec]
    rw [vlFits, decide_eq_true hfit, ← hsp]
    rfl
  · have hfit' : vl * f.bits ≤ 16384 := (Nat.mul_le_mul_left _ (le_max_right ..)).trans hfit
    have hrows := State.elSpots_rowsOf (length_tGatherIdx h w) hsp
    refine storeIssues_of_tStore (u := memUse w true true) (rb := rb) rfl hlegal ⟨rfl, rfl⟩ rfl hr ?_
      (rowsOf_tcodes hrows hfit' h w.reg.toNat) hs (hP hrows hfit')
    simp only [hrec]
    rw [vlFits, decide_eq_true hfit, ← hsp]
    rfl
  · exact tWord_fault rfl hlegal ⟨rfl, rfl⟩ rfl hr (by simp only [hrec]; rw [if_pos ⟨h1, h2⟩])
  · have hno : ¬(space f.base ≠ 1 ∧ space f.base ≠ 2) := fun hno => hspace.elim hno.1 hno.2
    have hbad : f.fmt ≠ 0x04 ∧ f.fmt ≠ 0x05 ∧ f.fmt ≠ 0x11 := by simpa using hfmt
    exact tWord_fault rfl hlegal ⟨rfl, rfl⟩ rfl hr (by simp only [hrec]; rw [if_neg hno, if_pos hbad])
  · have hno : ¬(space f.base ≠ 1 ∧ space f.base ≠ 2) := fun hno => hspace.elim hno.1 hno.2
    have hgood : ¬(f.fmt ≠ 0x04 ∧ f.fmt ≠ 0x05 ∧ f.fmt ≠ 0x11) := fun hbad => by simp [hbad] at hfmt
    have hfits : (!vlFits vl f.bits) = false := by simp [vlFits, hfit]
    have hrows := rowsOf_tcodes (State.elSpots_rowsOf (length_tIdx h w vl) hsp) hfit h w.reg.toNat
    obtain ⟨t1, lat, hbanks, heng, hst, hmem⟩ := State.atomAll_go hrows h32 hs
    refine storeIssues_of_run (u := memUse w true false) rfl hlegal ⟨rfl, rfl⟩ rfl hr (fun hwait => ?_) fun hroom =>
      ⟨_, _, ?_, heng, hst, fun t ht => ⟨rfl, fun cell k x hcell hx hnd halone => ?_⟩⟩
    · simp only [hrec]
      rw [if_neg hno, if_neg hgood, hfits, if_neg Bool.false_ne_true, hsp]
      exact if_pos hwait
    · simp only [hrec]
      rw [if_neg hno, if_neg hgood, hfits, if_neg Bool.false_ne_true, hsp]
      have hcon' : s.spotsConsume accAtomic (liveSpots rows) = none := hcon
      simp only [hroom, hbanks, hcon', h32]
      rfl
    · have := leNat_atomAll hrows h32 (ht ▸ hmem) hcell hx (hrows.lt_of_elem hcell hx) hnd halone
      rw [Harness.getElem_tcodes] at this
      rw [this, atomAdd]
      split
      · rfl
      · exact Nat.mod_mod ..

end Sys2Proof.Machine
end

section
/-! SUPPORT. Packed vectors (08 R270-R272): what unpacking reads from the bytes that packing made. -/

namespace Sys2Proof.Machine

open Sys2Proof.Safety

/-! ### The parts of a packed vector -/

/-- The places of the elements that a packed vector holds, in order. -/
def heldAt (cs : List Nat) : List Nat := (List.range cs.length).filter fun k => cs.getD k 0 ≠ 0

theorem zipIdx_filter_held (cs : List Nat) : (cs.zipIdx.filter fun x => x.1 ≠ 0) = (heldAt cs).map fun k => (cs.getD k 0, k) := by
  have hzip : cs.zipIdx = (List.range cs.length).map fun k => (cs.getD k 0, k) :=
    List.ext_getElem (by simp) fun i h _ => by simp [(List.length_zipIdx ▸ h : i < cs.length)]
  rw [hzip, List.filter_map]
  rfl

theorem heldAt_pairwise (cs : List Nat) : (heldAt cs).Pairwise (· < ·) := List.pairwise_lt_range.filter _

theorem mem_heldAt {cs : List Nat} {k : Nat} : k ∈ heldAt cs ↔ k < cs.length ∧ cs.getD k 0 ≠ 0 := by simp [heldAt]

theorem length_heldAt_le (cs : List Nat) : (heldAt cs).length ≤ cs.length :=
  (List.length_filter_le ..).trans_eq List.length_range

/-- The bits of a mask are its places. -/
def maskOf (ps : List Nat) : Nat := (ps.map (2 ^ ·)).sum

theorem testBit_maskOf {ps : List Nat} (h : ps.Pairwise (· < ·)) (i : Nat) : (maskOf ps).testBit i = true ↔ i ∈ ps := by
  rw [← Nat.mem_bitIndices, maskOf, Nat.bitIndices_sum_map_two_pow h.sortedLT]

/-- The bytes before the padding: header, mask and values. -/
def packedLen (f : Rec) (cs : List Nat) : Nat := 8 + sparseMask f + f.bits / 8 * (heldAt cs).length

def packedHead (f : Rec) (cs : List Nat) : Nat :=
  (heldAt cs).length % 2 ^ 16 + packedLen f cs % 2 ^ 16 * 2 ^ 16 + f.fmt * 2 ^ 32

def heldValues (cs : List Nat) : List Nat := (heldAt cs).map fun k => cs.getD k 0

theorem packed_eq (f : Rec) (cs : List Nat) : packed f cs =
    leBytes 8 (packedHead f cs) ++ leBytes (sparseMask f) (maskOf (heldAt cs)) ++ elemBytes (f.bits / 8) (heldValues cs) ++
      List.replicate (8 * cdiv (packedLen f cs) 8 - packedLen f cs) 0 := by
  have hmask : ((heldAt cs).map fun k => (cs.getD k 0, k)).foldl (fun m x => m + 2 ^ x.2) 0 = maskOf (heldAt cs) := by
    rw [List.foldl_map, maskOf, List.sum_eq_foldl, List.foldl_map]
  rw [packed, zipIdx_filter_held, List.length_map, hmask, List.map_map]
  rfl

theorem length_elemBytes (w : Nat) (xs : List Nat) : (elemBytes w xs).length = w * xs.length := by
  induction xs with
  | nil => rfl
  | cons x xs ih =>
    rw [elemBytes, List.flatMap_cons, List.length_append, length_leBytes, ← elemBytes, ih, List.length_cons, Nat.mul_succ,
      Nat.add_comm]

theorem length_heldValues (cs : List Nat) : (heldValues cs).length = (heldAt cs).length := List.length_map ..

theorem length_packed (f : Rec) (cs : List Nat) : (packed f cs).length = 8 * cdiv (packedLen f cs) 8 := by
  have hle : packedLen f cs ≤ 8 * cdiv (packedLen f cs) 8 := by unfold cdiv; omega
  rw [packed_eq]
  simp only [List.length_append, length_leBytes, length_elemBytes, length_heldValues, List.length_replicate]
  rw [← packedLen]
  omega

theorem packedLen_le_length (f : Rec) (cs : List Nat) : packedLen f cs ≤ (packed f cs).length := by
  rw [length_packed]
  unfold cdiv
  omega

/-! ### What is read from it -/

theorem take_drop_append {α : Type} {a b c : List α} {m n : Nat} (hm : a.length = m) (hn : b.length = n) :
    ((a ++ b ++ c).drop m).take n = b := by
  rw [List.append_assoc, List.drop_left' hm, List.take_left' hn]

theorem packed_head (f : Rec) (cs : List Nat) : ((packed f cs).drop 0).take 8 = leBytes 8 (packedHead f cs) := by
  rw [packed_eq, List.append_assoc, List.append_assoc, List.drop_zero]
  exact List.take_left' (length_leBytes 8 _)

theorem packed_mask (f : Rec) (cs : List Nat) :
    ((packed f cs).drop 8).take (sparseMask f) = leBytes (sparseMask f) (maskOf (heldAt cs)) := by
  rw [packed_eq, List.append_assoc]
  exact take_drop_append (length_leBytes ..) (length_leBytes ..)

theorem packed_values (f : Rec) (cs : List Nat) :
    ((packed f cs).drop (8 + sparseMask f)).take (f.bits / 8 * (heldAt cs).length) = elemBytes (f.bits / 8) (heldValues cs) := by
  rw [packed_eq]
  refine take_drop_append ?_ ?_
  · rw [List.length_append, length_leBytes, length_leBytes]
  · rw [length_elemBytes, length_heldValues]

/-- The bits that are set in bytes, counted from bit 8 * j on. -/
def setBits (mb : List Byte) (j : Nat) : List Nat :=
  (mb.zipIdx j).flatMap fun x => (List.range 8).filterMap fun i => if x.1.getLsbD i then some (8 * x.2 + i) else none

theorem setBits_leBytes (n m j : Nat) :
    setBits (leBytes n m) j = ((List.range (8 * n)).filter m.testBit).map (8 * j + ·) := by
  induction n generalizing m j with
  | zero => rfl
  | succ n ih =>
    have hbyte : ((List.range 8).filterMap fun i => if (BitVec.ofNat 8 m).getLsbD i then some (8 * j + i) else none) =
        ((List.range 8).filter m.testBit).map (8 * j + ·) := by
      rw [← List.filterMap_eq_filter, List.map_filterMap]
      refine List.filterMap_congr fun i hi => ?_
      rw [BitVec.getLsbD_ofNat, decide_eq_true (List.mem_range.mp hi), Bool.true_and]
      cases h : m.testBit i <;> simp [Option.guard, h]
    have hlen : 8 * (n + 1) = 8 + 8 * n := by omega
    rw [leBytes, setBits, List.zipIdx_cons, List.flatMap_cons, hbyte, ← setBits, ih, hlen,
      List.range_add, List.filter_append, List.map_append, List.filter_map, List.map_map]
    congr 1
    refine congrArg₂ _ (funext fun i => ?_) (List.filter_congr fun i _ => ?_)
    · simp only [Function.comp]
      omega
    · rw [Function.comp, Nat.add_comm, Nat.testBit_add]

/-- The mask of a packed vector gives the places back. -/
theorem setBits_mask {f : Rec} {cs : List Nat} (h : cs.length ≤ f.ext0) :
    setBits (leBytes (sparseMask f) (maskOf (heldAt cs))) 0 = heldAt cs := by
  obtain ⟨r, hr⟩ : ∃ r, 8 * sparseMask f = cs.length + r := ⟨8 * sparseMask f - cs.length, by unfold sparseMask cdiv; omega⟩
  have hbit (i : Nat) : (maskOf (heldAt cs)).testBit i = true ↔ i < cs.length ∧ cs.getD i 0 ≠ 0 :=
    (testBit_maskOf (heldAt_pairwise cs) i).trans mem_heldAt
  rw [setBits_leBytes, hr, List.range_add, List.filter_append, List.map_append]
  have hnone : (((List.range r).map (cs.length + ·)).filter (maskOf (heldAt cs)).testBit) = [] :=
    List.filter_eq_nil_iff.mpr fun i hi hb => by
      obtain ⟨k, -, rfl⟩ := List.mem_map.mp hi
      have := ((hbit _).mp hb).1
      omega
  rw [hnone, List.map_nil, List.append_nil]
  simp only [Nat.mul_zero, Nat.zero_add, List.map_id']
  refine List.filter_congr fun i hi => Bool.eq_iff_iff.mpr ((hbit i).trans ?_)
  simp [List.mem_range.mp hi]

theorem elemsOf_elemBytes {w : Nat} {xs : List Nat} (h : ∀ x ∈ xs, x < 256 ^ w) : elemsOf w xs.length (elemBytes w xs) = xs := by
  induction xs with
  | nil => rfl
  | cons x xs ih =>
    obtain ⟨hx, hxs⟩ := List.forall_mem_cons.mp h
    have hcons : elemBytes w (x :: xs) = leBytes w x ++ elemBytes w xs := List.flatMap_cons
    rw [List.length_cons, elemsOf, hcons, List.take_left' (length_leBytes ..), List.drop_left' (length_leBytes ..), ih hxs,
      leNat_leBytes, Nat.mod_eq_of_lt hx]

/-- A table of values at rising places. -/
theorem find_zip_map {ps : List Nat} (h : ps.Pairwise (· < ·)) (g : Nat → Nat) (k : Nat) :
    Table.find (ps.zip (ps.map g)) k = if k ∈ ps then some (g k) else none := by
  induction ps with
  | nil => rfl
  | cons p ps ih =>
    obtain ⟨hp, hps⟩ := List.pairwise_cons.mp h
    rw [List.map_cons, List.zip_cons_cons, Table.find, ih hps]
    by_cases hk : p = k
    · simp [hk]
    · by_cases hlt : k < p
      · have hnot : k ∉ ps := fun hm => absurd (hp k hm) (Nat.lt_asymm hlt)
        simp [hk, hlt, hnot, Ne.symm hk]
      · simp [hk, hlt, Ne.symm hk]

/-- Unpacking what packing made gives the elements again. -/
theorem unpack_packed {g : Rec} {cs : List Nat} (h8 : 8 ≤ g.bits) (hext : cs.length ≤ g.ext0) (hcs : ∀ c ∈ cs, c < 2 ^ g.bits)
    (hfmt : g.fmt < 2 ^ 16) (hlen : (packed g cs).length < 2 ^ 16) (hs1 : ((packed g cs).length : Int) ≤ g.s1) :
    unpack g cs.length (fun off n => (.ok (((packed g cs).drop off).take n) : Except Unit (List Byte))) =
      .ok (.ok ((packed g cs).length, cs)) := by
  have hle := packedLen_le_length g cs
  have hnnz : (heldAt cs).length < 2 ^ 16 := by
    have hsize : 1 ≤ g.bits / 8 := by omega
    have := Nat.mul_le_mul_right (heldAt cs).length hsize
    unfold packedLen at hle
    omega
  have hhead : leNat (leBytes 8 (packedHead g cs)) =
      (heldAt cs).length + packedLen g cs * 2 ^ 16 + g.fmt * 2 ^ 32 := by
    rw [leNat_leBytes, packedHead, Nat.mod_eq_of_lt hnnz, Nat.mod_eq_of_lt (hle.trans_lt hlen)]
    exact Nat.mod_eq_of_lt (by omega)
  have hfields : field (leNat (leBytes 8 (packedHead g cs))) 0 16 = (heldAt cs).length ∧
      field (leNat (leBytes 8 (packedHead g cs))) 16 16 = packedLen g cs ∧
      field (leNat (leBytes 8 (packedHead g cs))) 32 16 = g.fmt ∧ field (leNat (leBytes 8 (packedHead g cs))) 48 16 = 0 := by
    rw [hhead]
    unfold field
    omega
  obtain ⟨hf0, hf16, hf32, hf48⟩ := hfields
  have hext' : ¬((heldAt cs).length > g.ext0 ∨ packedLen g cs ≠ 8 + sparseMask g + g.bits / 8 * (heldAt cs).length ∨
      ((8 * cdiv (packedLen g cs) 8 : Nat) : Int) > g.s1) := by
    rw [← length_packed]
    rintro (hx | hx | hx)
    · exact absurd (length_heldAt_le cs) (by omega)
    · exact hx rfl
    · omega
  have hones : ¬((heldAt cs).length ≠ (heldAt cs).length ∨ (heldAt cs).any (g.ext0 ≤ ·) = true) := by
    rintro (hx | hx)
    · exact hx rfl
    · obtain ⟨k, hk, hle⟩ := List.any_eq_true.mp hx
      have := (mem_heldAt.mp hk).1
      have := of_decide_eq_true hle
      omega
  have hval : ∀ x ∈ heldValues cs, x < 256 ^ (g.bits / 8) := by
    obtain ⟨n, hn⟩ := (g.bits_elemBits.resolve_left (by omega)).1
    intro x hx
    obtain ⟨k, hk, rfl⟩ := List.mem_map.mp hx
    have hlt := hcs (cs.getD k 0) (List.getD_eq_getElem cs 0 (mem_heldAt.mp hk).1 ▸ List.getElem_mem _)
    rw [hn, pow_mul] at hlt
    rwa [hn, Nat.mul_div_cancel_left _ (by decide)]
  unfold unpack
  dsimp only
  rw [packed_head, hf0, hf16, hf32, hf48, if_neg (fun h => h rfl), if_neg hext', packed_mask, packed_values, ← setBits, setBits_mask hext, if_neg hones, if_neg (fun h => h rfl), length_packed]
  refine congrArg (fun xs => (.ok (.ok (8 * cdiv (packedLen g cs) 8, xs)) : Except Unit (Except Nat (Nat × List Nat)))) ?_
  rw [← length_heldValues, elemsOf_elemBytes hval]
  refine List.ext_getElem (by simp) fun k _ hk => ?_
  rw [List.getElem_map, List.getElem_range, Table.getD, heldValues, find_zip_map (heldAt_pairwise cs)]
  split
  next => simp [hk]
  next h =>
    have hzero : cs.getD k 0 = 0 := by_contra fun hne => h (mem_heldAt.mpr ⟨hk, hne⟩)
    rw [Option.getD_none, ← hzero, List.getD_eq_getElem]

end Sys2Proof.Machine
end

section
/-! SUPPORT. Codes put into a register (07 R205; 08 R263): what is read there once they have landed. -/

namespace Sys2Proof.Machine

open Sys2Proof.Safety

/-! ### Bytes and codes -/

theorem at'_one (bs : List Byte) (j : Nat) : at' bs j 1 = (bs.getD j 0).toNat := by
  rw [at', List.getD_eq_getElem?_getD, ← Nat.add_zero j, ← List.getElem?_drop]
  cases bs.drop j <;> simp [leNat]

theorem at'_take_splice {old new : List Byte} {off n m : Nat} (h : off + n ≤ new.length) (hm : off + n ≤ m) :
    at' ((splice old 0 new).take m) off n = at' new off n := by
  have h1 : n ≤ m - off := by omega
  have h2 : n ≤ (new.drop off).length := by rw [List.length_drop]; omega
  have hnil : splice old 0 new = new ++ old.drop (0 + new.length) := rfl
  rw [at', at', List.drop_take, List.take_take, Nat.min_eq_left h1, hnil,
    List.drop_append_of_le_length ((Nat.le_add_right ..).trans h), List.take_append_of_le_length h2]

theorem at'_elemBytes {w k : Nat} {xs : List Nat} (hk : k < xs.length) : at' (elemBytes w xs) (w * k) w = xs.getD k 0 % 256 ^ w := by
  induction xs generalizing k with
  | nil => cases hk
  | cons x xs ih =>
    have hcons : elemBytes w (x :: xs) = leBytes w x ++ elemBytes w xs := List.flatMap_cons
    cases k with
    | zero => rw [hcons, at', Nat.mul_zero, List.drop_zero, List.take_left' (length_leBytes ..), leNat_leBytes]; rfl
    | succ k =>
      rw [hcons, at', Nat.mul_succ, Nat.add_comm, ← List.drop_drop, List.drop_left' (length_leBytes ..), ← at',
        ih (Nat.lt_of_succ_lt_succ hk)]
      rfl

theorem toNat_getD_nibbleBytes (cs : List Nat) (j : Nat) :
    ((nibbleBytes cs).getD j 0).toNat = cs.getD (2 * j) 0 % 16 + 16 * (cs.getD (2 * j + 1) 0 % 16) := by
  induction cs using nibbleBytes.induct generalizing j with
  | case1 => rfl
  | case2 a =>
    cases j with
    | zero =>
      simp only [nibbleBytes, Nat.mul_zero, List.getD_cons_zero, BitVec.toNat_ofNat, List.getD_cons_succ, List.getD_nil]
      omega
    | succ j => rfl
  | case3 a b t ih =>
    cases j with
    | zero =>
      simp only [nibbleBytes, Nat.mul_zero, List.getD_cons_zero, BitVec.toNat_ofNat, List.getD_cons_succ]
      omega
    | succ j => exact ih j

theorem length_nibbleBytes (cs : List Nat) : (nibbleBytes cs).length = (cs.length + 1) / 2 := by
  induction cs using nibbleBytes.induct with
  | case1 => rfl
  | case2 a => simp [nibbleBytes]
  | case3 a b t ih =>
    simp only [nibbleBytes, List.length_cons, ih]
    omega

/-- A byte after others have been put into a register. -/
theorem getD_take_splice {old new : List Byte} {off j : Nat} (hoff : off ≤ old.length) (hj : j < 2048) :
    ((splice old off new).take 2048).getD j 0 =
      if off ≤ j ∧ j < off + new.length then new.getD (j - off) 0 else old.getD j 0 := by
  have hlen : (old.take off).length = off := by rw [List.length_take, Nat.min_eq_left hoff]
  simp only [List.getD_eq_getElem?_getD, List.getElem?_take_of_lt hj, splice, List.append_assoc]
  rcases Nat.lt_or_ge j off with hlt | hge
  · rw [List.getElem?_append_left (by omega), List.getElem?_take_of_lt hlt, if_neg (by omega)]
  · rw [List.getElem?_append_right (by omega), hlen]
    rcases Nat.lt_or_ge j (off + new.length) with hlt | hge'
    · rw [List.getElem?_append_left (by omega), if_pos ⟨hge, hlt⟩]
    · rw [List.getElem?_append_right (by omega), List.getElem?_drop, if_neg (by omega)]
      congr 2
      omega

/-! ### The result -/

theorem codeEffs_onV (bits cell reg : Nat) (cs : List Nat) : ∀ x ∈ codeEffs bits cell reg cs, x.onV cell reg := by
  intro x hx
  unfold codeEffs at hx
  extract_lets n whole at hx
  rcases List.mem_append.mp hx with hx | hx
  · split at hx
    · cases hx
    · obtain rfl := List.mem_singleton.mp hx
      exact ⟨rfl, rfl⟩
  · obtain ⟨c, -, rfl⟩ := List.mem_map.mp hx
    exact ⟨rfl, rfl⟩

/-- The bytes of whole codes, put in front of a register. -/
theorem foldl_vbytes_whole (cell reg : Nat) (whole old : List Byte) (hold : old.length = 2048) :
    (if whole.isEmpty then [] else [Eff.v cell reg 0 whole]).foldl Eff.vbytes old = (splice old 0 whole).take 2048 := by
  cases whole with
  | nil => exact (List.take_of_length_le (by simp [hold])).symm
  | cons => rfl

/-- Nibbles put in pairs, and a last one alone into the low half of its byte. -/
theorem code_nibbles {cs : List Nat} (hfit : cs.length ≤ 4096) (cell reg : Nat) {old : List Byte} (hold : old.length = 2048)
    {k : Nat} (hk : k < cs.length) : code 4 ((codeEffs 4 cell reg cs).foldl Eff.vbytes old) k = cs.getD k 0 % 16 := by
  let m := cs.length / 2
  let whole := nibbleBytes (cs.take (m * 2))
  let bs := (splice old 0 whole).take 2048
  have hwhole : whole.length = m := by
    simp only [whole, length_nibbleBytes, List.length_take]
    omega
  have hlen : bs.length = 2048 := by
    have := length_splice_ge old 0 whole
    simp only [bs, List.length_take]
    omega
  have hpair {j : Nat} (hj : j < m) : (bs.getD j 0).toNat = cs.getD (2 * j) 0 % 16 + 16 * (cs.getD (2 * j + 1) 0 % 16) := by
    rw [getD_take_splice (Nat.zero_le _) (by omega), if_pos (by omega), Nat.sub_zero, toNat_getD_nibbleBytes]
    simp only [List.getD_eq_getElem?_getD]
    rw [List.getElem?_take_of_lt (by omega), List.getElem?_take_of_lt (by omega)]
  have hfold : (codeEffs 4 cell reg cs).foldl Eff.vbytes old =
      ((cs.drop (m * 2)).map fun c => Eff.vlo cell reg (m * 2 / 2) c).foldl Eff.vbytes bs := by
    have hbs : _ = bs := foldl_vbytes_whole cell reg whole old hold
    rw [← hbs, ← List.foldl_append]
    rfl
  have hcode {x : Byte} {j : Nat} (hj : k / 2 = j) (hx : x.toNat = cs.getD (2 * j) 0 % 16 + 16 * (cs.getD (2 * j + 1) 0 % 16)) :
      x.toNat / 16 ^ (k % 2) % 16 = cs.getD k 0 % 16 := by
    rcases Nat.mod_two_eq_zero_or_one k with h | h
    · rw [hx, h, show 2 * j = k by omega]
      omega
    · rw [hx, h, show 2 * j + 1 = k by omega]
      omega
  have hdrop : (cs.drop (m * 2)).length = cs.length - m * 2 := List.length_drop ..
  rw [hfold, code, if_pos rfl, at'_one]
  match hrest : cs.drop (m * 2) with
  | [] =>
    rw [hrest, List.length_nil] at hdrop
    exact hcode rfl (hpair (by omega))
  | [c] =>
    rw [hrest, List.length_singleton] at hdrop
    simp only [List.map_cons, List.map_nil, List.foldl_cons, List.foldl_nil, Eff.vbytes]
    rw [getD_take_splice (by omega) (by omega), List.length_singleton]
    split
    next h =>
      have hc : cs.getD k 0 = c := by
        have := congrArg (·.getD 0 0) hrest
        simpa [List.getD_eq_getElem?_getD, show m * 2 = k by omega] using this
      rw [show k / 2 - m * 2 / 2 = 0 by omega, show k % 2 = 0 by omega, List.getD_cons_zero, BitVec.toNat_ofNat, hc]
      omega
    next => exact hcode rfl (hpair (by omega))
  | _ :: _ :: t =>
    rw [hrest] at hdrop
    simp only [List.length_cons] at hdrop
    omega

theorem code_codeEffs {bits : Nat} (hb : elemBits bits) {cs : List Nat} (hfit : cs.length * bits ≤ 16384) (cell reg : Nat)
    {old : List Byte} (hold : old.length = 2048) {k : Nat} (hk : k < cs.length) :
    code bits ((codeEffs bits cell reg cs).foldl Eff.vbytes old) k = cs.getD k 0 % 2 ^ bits := by
  by_cases h4 : bits = 4
  · subst h4
    exact code_nibbles (by omega) cell reg hold hk
  · obtain ⟨n, rfl⟩ := (hb.resolve_left h4).1
    have hn : 8 * n / 8 = n := Nat.mul_div_cancel_left _ (by decide)
    have heffs : codeEffs (8 * n) cell reg cs =
        (if (elemBytes n cs).isEmpty then [] else [Eff.v cell reg 0 (elemBytes n cs)]) := by
      simp [codeEffs, codeBytes, h4, hn]
    have hlast : n * k + n ≤ n * cs.length := Nat.mul_succ n k ▸ Nat.mul_le_mul_left n hk
    have hsize : n * cs.length ≤ 2048 := by
      rw [Nat.mul_comm n]
      rw [Nat.mul_left_comm] at hfit
      omega
    rw [heffs, foldl_vbytes_whole _ _ _ _ hold, code, if_neg h4, hn, at'_take_splice (by rwa [length_elemBytes])
      (hlast.trans hsize), at'_elemBytes hk, pow_mul]
    norm_num

end Sys2Proof.Machine
end

section
/-! O42: packed vectors stored and loaded, and the arrival of what was stored (08 R270-R273). -/

namespace Sys2Proof.Machine

open Sys2Proof.Safety

/-! ### The issue of a T word -/

section
variable {i : Instr} {w : TWord} {u : TUse} {b : Block} {takes fills : List FeReg} {s : State} {run : State → Issue}
  (hi : exec i s = .next (s.issue (tFront w u) run)) (hlegal : tBad w u = false)
  (htakes : (if u.take then (if w.take then tFe w u.reg else []) else []) = takes)
  (hfills : (if u.fild then (if w.fild then tFe w u.reg else []) else []) = fills) (hr : ready .t b w.gk w.gn takes fills s)
include hi hlegal htakes hfills hr

theorem waits_of_run (hrun : run s = .wait) : waits .t b i s := by
  rw [tFront_legal hlegal, htakes, hfills] at hi
  exact issue_waits hr rfl rfl hi hrun

theorem exec_of_run_faultAt {s1 : State} {x : Fail} (hrun : run s = .faultAt s1 x) : exec i s = .next (s1.blockFault .t x) := by
  rw [tFront_legal hlegal, htakes, hfills] at hi
  exact hi.trans (congrArg _ (State.issue_faultAt hr rfl rfl hrun))

/-- Its meaning has kept the block of the engine. -/
theorem tGoes_of_run {s1 : State} (hblk : (s1.eng .t).blk = (s.eng .t).blk) (hskip : (s1.eng .t).skip = (s.eng .t).skip)
    {p : Pend} (hrun : (run s).outcome s { e := .t, gk := w.gk, gn := w.gn, bad := none, takes := takes, fills := fills } b =
      s1.issued { e := .t, gk := w.gk, gn := w.gn, bad := none, takes := takes, fills := fills } b p) :
    ∃ t, tGoes i b takes fills p s s1 t := by
  rw [tFront_legal hlegal, htakes, hfills] at hi
  refine ⟨_, hi.trans (congrArg _ ((State.issue_ready hr rfl rfl).trans hrun)), ?_⟩
  exact State.issued_flies (hblk.trans hr.1) (hskip.trans hr.2.1) hr.2.2.2.2.2

end

/-! ### TSPST -/

theorem State.byteSpots_fits {s : State} {r : Nat} {b : BufRec} {cell n w acc : Nat} {d : Int} {row : List (Option Spot)}
    (h : s.byteSpots r b cell d n w acc = .ok row) : row.length = n ∧ ∀ x, some x ∈ row → x.fits 8 := by
  refine ⟨(length_of_mapM_ok h).trans List.length_range, fun x hx => ?_⟩
  obtain ⟨i, -, hi⟩ := exists_of_mem_mapM_ok h hx
  split at hi
  next => cases hi
  next hspot =>
    cases hi
    exact ⟨State.length_spot hspot, fun h => absurd h (by decide)⟩

/-- The places of the packed vector of a cell. -/
def State.vectorSpots (s : State) (b : BufRec) (pack : Nat → List Byte) (x : Nat × Option Int) : Except Fail (List (Option Spot)) :=
  x.2.elim (.ok []) fun d => s.byteSpots s.cur b x.1 d (pack x.1).length 1 accWrite

theorem zip_zip_map {α β γ : Type} (f : α → γ) (xs : List α) (ys : List β) :
    xs.zip (ys.zip (xs.map f)) = (xs.zip ys).map fun x => (x.1, x.2, f x.1) := by
  induction xs generalizing ys with
  | nil => rfl
  | cons x xs ih => cases ys <;> simp [ih]

theorem exists_of_mem_zip_mapM {α β γ ε : Type} {f : α × β → Except ε γ} {xs : List α} {ys : List β} {zs : List γ}
    (h : (xs.zip ys).mapM f = .ok zs) {x : α × γ} (hx : x ∈ xs.zip zs) : ∃ y, f (x.1, y) = .ok x.2 := by
  obtain ⟨hlen, hall⟩ := List.forall₂_iff_get.mp (mapM_eq_ok_iff.mp h)
  obtain ⟨i, hi⟩ := List.mem_iff_getElem?.mp hx
  obtain ⟨hix, hiz⟩ := List.getElem?_zip_eq_some.mp hi
  obtain ⟨hlz, hz⟩ := List.getElem?_eq_some_iff.mp hiz
  obtain ⟨hlx, hx'⟩ := List.getElem?_eq_some_iff.mp hix
  have := hall i (hlen ▸ hlz) hlz
  simp only [List.get_eq_getElem, List.getElem_zip, hx', hz] at this
  exact ⟨_, this⟩

theorem State.vectorSpots_rowsOf {s : State} {b : BufRec} {pack : Nat → List Byte} {ds : List (Option Int)}
    {rows : List (List (Option Spot))} (hds : ds.length = 16) (h : (cells.zip ds).mapM (s.vectorSpots b pack) = .ok rows) :
    rowsOf 8 (fun cell => (pack cell).length) rows := by
  have hrow {x : Nat × Option Int} {row : List (Option Spot)} (hx : s.vectorSpots b pack x = .ok row) :
      row.length ≤ (pack x.1).length ∧ ∀ y, some y ∈ row → y.fits 8 := by
    obtain ⟨c, d⟩ := x
    cases d with
    | none => cases hx; exact ⟨Nat.zero_le _, fun y hy => by cases hy⟩
    | some d => exact ⟨(State.byteSpots_fits hx).1.le, (State.byteSpots_fits hx).2⟩
  have hlen : rows.length = 16 := (length_of_mapM_ok h).trans (by rw [List.length_zip, length_cells, hds]; rfl)
  refine ⟨hlen, fun x hx => ?_, fun x hx => ?_⟩
  · obtain ⟨d, hd⟩ := exists_of_mem_zip_mapM h hx
    exact (hrow hd).1
  · obtain ⟨row, hr, hx⟩ := mem_liveSpots.mp hx
    obtain ⟨y, -, hy⟩ := exists_of_mem_mapM_ok h hr
    exact (hrow hy).2 x hx

theorem getD_map_cells {α : Type} (f : Nat → α) {cell : Nat} (h : cell < 16) (d : α) : (cells.map f).getD cell d = f cell := by
  simp [cells, h]

section
variable {s : State} {w : TWord} {b : Block} {rb : BufRec} {f : Rec} {ds : List (Option Int)}

/-- The bytes of packed vectors, as a store takes them. -/
def packCodes (pack : Nat → List Byte) (cell : Nat) : List Nat := ((cells.map pack).getD cell []).map (·.toNat)

/-- The meaning of TSPST, where it makes a store. -/
theorem tspst_run {pack : Nat → List Byte} (hpack : pack = fun cell =>
      packed f ((s.har s.cur).tcodes cell w.reg.toNat f.bits (s.har s.cur).vl.toNat))
    (hrec : s.tRec w true false true = .ok (rb, f)) (hfit : (s.har s.cur).vl.toNat * f.bits ≤ 16384)
    (hext : (s.har s.cur).vl.toNat ≤ f.ext0) (hds : tVectors (s.har s.cur) w f true = .ok ds)
    (hs1 : ∀ cell, cell < 16 → ((pack cell).length : Int) ≤ f.s1) :
    ∃ run, exec (.tspst w) s = .next (s.issue (tFront w (memUse w true false)) run) ∧
      run s = s.tStore rb { f with fmt := 0x01 } ((cells.zip ds).mapM (s.vectorSpots rb pack)) (packCodes pack) := by
  refine ⟨_, rfl, ?_⟩
  have hfind : (cells.map pack).zipIdx.find? (fun x => (x.1.length : Int) > f.s1) = none := by
    rw [List.find?_eq_none]
    intro x hx
    obtain ⟨cell, hc, hcell⟩ := List.mem_map.mp (List.fst_mem_of_mem_zipIdx hx)
    have := hs1 cell (mem_cells.mp hc)
    rw [hcell] at this
    simpa using this
  have hmap : (cells.zip ds).mapM (s.vectorSpots rb pack) = (cells.zip (ds.zip (cells.map pack))).mapM fun x =>
      x.2.1.elim (.ok []) fun d => s.byteSpots s.cur rb x.1 d x.2.2.length 1 accWrite := by
    rw [zip_zip_map, List.mapM_map]
    rfl
  subst hpack
  simp only [hrec, hds]
  rw [vlFits, decide_eq_true hfit, Bool.not_true, if_neg Bool.false_ne_true, if_neg (by omega), hfind, hmap]
  dsimp only
  congr 1
  refine congrArg (List.mapM · _) (funext fun x => ?_)
  obtain ⟨c, d, bs⟩ := x
  cases d <;> rfl

theorem packCodes_of_lt (pack : Nat → List Byte) {cell : Nat} (h : cell < 16) :
    packCodes pack cell = (pack cell).map (·.toNat) := by rw [packCodes, getD_map_cells pack h]

theorem rowsOf_packCodes {pack : Nat → List Byte} {rows : List (List (Option Spot))}
    (h : rowsOf 8 (fun cell => (pack cell).length) rows) : rowsOf 8 (fun cell => (packCodes pack cell).length) rows := by
  refine ⟨h.length, fun x hx => (h.row x hx).trans_eq ?_, h.fits⟩
  rw [packCodes_of_lt pack (mem_cells.mp (List.of_mem_zip hx).1), List.length_map]

/-- Packed vectors in memory. -/
theorem elementsStored_packed (f : Rec) {pack : Nat → List Byte} {rows : List (List (Option Spot))} {t : State} {g : Nat → Byte}
    (hrows : rowsOf 8 (fun cell => (pack cell).length) rows)
    (hmem : memGet t.mem = (storeElements rows (packCodes pack)).foldl (fun g x => putElem 8 g x.1 x.2) g) :
    elementsStored 8 rows (fun cell k => ((pack cell).getD k 0).toNat) t := by
  refine elementsStored_of (f := { f with fmt := 0x01 }) (rowsOf_packCodes hrows) (fun cell k hc hk => ?_) hmem
  have hpack := packCodes_of_lt pack hc
  simp only [hpack, List.length_map] at hk ⊢
  rw [List.getElem_map, List.getD_eq_getElem _ _ hk]
  exact Nat.mod_eq_of_lt (BitVec.isLt _)

/-! ### TSPLD -/

theorem length_unpack {m : Type} {f : Rec} {vl pad : Nat} {read : Nat → Nat → Except m (List Byte)} {cs : List Nat}
    (h : unpack f vl read = .ok (.ok (pad, cs))) : cs.length = vl := by
  unfold unpack at h
  dsimp only at h
  split at h
  · cases h
  · split at h
    · cases h
    · split at h
      · cases h
      · split at h
        · cases h
        · split at h
          · cases h
          · split at h
            · cases h
            · split at h
              · cases h
              · cases h
                simp

theorem State.length_vecLoad {vl cell : Nat} {d : Option Int} {cs : List Nat} {sps : List Spot}
    (h : s.vecLoad rb f vl cell d = .ok (cs, sps)) : cs.length = vl := by
  unfold State.vecLoad at h
  split at h
  · cases h
    exact List.length_replicate
  · split at h
    · cases h
    · cases h
    next hun =>
      split at h
      · cases h
      · cases h
        exact length_unpack hun

/-- What TSPLD puts into v(reg) of a cell. -/
def vectorEffs (bits reg : Nat) (vecs : List (List Nat × List Spot)) (cell : Nat) : List Eff :=
  codeEffs bits cell reg (vecs.getD cell ([], [])).1

theorem zip_cells {α : Type} {xs : List α} (h : xs.length = 16) (d : α) : cells.zip xs = cells.map fun c => (c, xs.getD c d) :=
  List.ext_getElem (by simp [cells, h]) fun i hi _ => by
    have hlt : i < xs.length := by simpa [cells, h] using hi
    simp [cells, hlt]

/-- The meaning of TSPLD, where it loads. -/
theorem tspld_run {vecs : List (List Nat × List Spot)} (hrec : s.tRec w true true false = .ok (rb, f))
    (hfit : (s.har s.cur).vl.toNat * f.bits ≤ 16384) (hext : (s.har s.cur).vl.toNat ≤ f.ext0)
    (hds : tVectors (s.har s.cur) w f false = .ok ds) :
    ∃ run, exec (.tspld w) s = .next (s.issue (tFront w (memUse w false false)) run) ∧
      (s.loadStalls f true = true → run s = .wait) ∧
      (s.loadStalls f true = false → (cells.zip ds).mapM (fun x => s.vecLoad rb f (s.har s.cur).vl.toNat x.1 x.2) = .ok vecs →
        ∀ s1 lat, s.banks .t f ((vecs.flatMap (·.2)).flatMap (·.keys)) = .ok (s1, lat) →
          run s = .goP ((s1.scrubSpots (vecs.flatMap (·.2))).cacheSpots s.cur rb (vecs.flatMap (·.2)))
            { age := 0, due := s.loadDue f true lat, via := viaOf f
              effs := cells.flatMap (vectorEffs f.bits w.reg.toNat vecs) }) := by
  refine ⟨_, rfl, fun hwait => ?_, fun hroom hvecs s1 lat hbanks => ?_⟩
  · simp only [hrec, hds]
    rw [vlFits, decide_eq_true hfit, Bool.not_true, if_neg Bool.false_ne_true, if_neg (by omega), if_pos hwait]
  · have hdl : ds.length = 16 := length_of_mapM_ok hds
    have hlen : vecs.length = 16 := by
      rw [length_of_mapM_ok hvecs, List.length_zip, length_cells, hdl]
      rfl
    simp only [hrec, hds]
    rw [vlFits, decide_eq_true hfit, Bool.not_true, if_neg Bool.false_ne_true, if_neg (by omega), hroom,
      if_neg Bool.false_ne_true, hvecs]
    simp only [hbanks]
    rw [zip_cells hlen ([], []), List.flatMap_map]
    rfl

theorem State.loadDue_fixed (s : State) (f : Rec) (lat : Nat) :
    s.loadDue f true lat = if space f.base = 1 then Due.cycle ((s.eng .t).cyc + lat) else .free .load := by
  simp [State.loadDue]

end

/-! ### TBARR -/

/-- The T engine has its block as before. -/
def keepsBlock (s u : State) : Prop := (u.eng .t).blk = (s.eng .t).blk ∧ (u.eng .t).skip = (s.eng .t).skip

theorem keepsBlock_of_same {s u : State} (h : sameEngines s u) : keepsBlock s u := by
  rw [keepsBlock, h.eng]
  exact ⟨rfl, rfl⟩

theorem State.barrTaken_keepsBlock {s u : State} (h : sameEngines s u) (left : Option Nat) : keepsBlock s (u.barrTaken left) := by
  have hk : sameEngines s (u.modCtl u.cur fun c => { c with node := c.node.map fun (x : Node) => { x with tbytes := 0 } }) :=
    h.trans (.modCtl ..)
  obtain ⟨-, heng⟩ := hk.eng_modEng .t fun x => { x with tbLeft := left }
  rw [keepsBlock, State.barrTaken, heng]
  exact ⟨rfl, rfl⟩

theorem State.barrUpdates_keepsBlock {s u : State} (h : sameEngines s u) (k n : Nat) (arr : Bool) :
    keepsBlock s (u.barrUpdates k n arr).1 := by
  have hk := h.trans (u.barChunks_sameEngines k (chunks (n / 2048 + 1) n))
  unfold State.barrUpdates
  dsimp only
  split
  · exact State.barrTaken_keepsBlock hk _
  · split
    · exact State.barrTaken_keepsBlock hk _
    · split
      · exact State.barrTaken_keepsBlock (hk.trans (State.write_sameEngines ..)) _
      · exact State.barrTaken_keepsBlock hk _

/-- The place of a barrier object. -/
def barrSpot (key : Nat) (p : Word) : Spot := { p := p, keys := (List.range 8).map (key + ·), half := 0 }

def tbarrUse (w : TWord) : TUse := { brec := true, ereg := true, imm := true, ext := decide (w.ext.toNat ≤ 1) }

/-- The meaning of TBARR on an object that its record names. -/
theorem tbarr_run {s : State} {w : TWord} {rb : BufRec} {key : Nat} {p : Word}
    (hrec : (s.har s.cur).brec .t w.brec.toNat = some rb) (hspf : rb.fields.spf = false)
    (hscale : (s.har s.cur).scaleOk .t w.brec.toNat rb.fields = true)
    (hobj : s.barObject s.cur rb (tDisp (s.har s.cur) w) = .ok (key, p)) :
    ∃ run, exec (.tbarr w) s = .next (s.issue (tFront w (tbarrUse w)) run) ∧
      (s.barrBytes = 0 → w.ext.getLsbD 0 = false → run s = .go (s.barrTaken none) (.cycle (s.eng .t).cyc) []) ∧
      (s.barrBytes ≠ 0 ∨ w.ext.getLsbD 0 = true →
        (s.loadStalls rb.fields true = true → run s = .wait) ∧
        (s.loadStalls rb.fields true = false → s.spotsConsume accAtomic [barrSpot key p] = none →
          ∀ t lat, s.banks .t rb.fields ((List.range 8).map (key + ·)) = .ok (t, lat) → ∀ u out,
            ((t.scrubSpots [barrSpot key p]).cacheSpots s.cur rb [barrSpot key p]).barrUpdates key s.barrBytes (w.ext.getLsbD 0)
              = (u, out) →
            run s = if out then .faultAt u { code := cBAR_OVERFLOW } else .go u (.cycle (s.eng .t).cyc) [])) := by
  refine ⟨_, rfl, fun hn harr => ?_, fun hany => ?_⟩
  · simp only [hrec, hspf, hscale, hobj]
    rw [if_neg Bool.false_ne_true, Bool.not_true, if_neg Bool.false_ne_true, if_pos ⟨hn, by rw [harr]; rfl⟩]
  · have hno : ¬(s.barrBytes = 0 ∧ (!w.ext.getLsbD 0) = true) := by
      rintro ⟨hn, harr⟩
      rcases hany with h | h
      · exact h hn
      · rw [h] at harr; cases harr
    refine ⟨fun hwait => ?_, fun hroom hcon t lat hbanks u out hu => ?_⟩
    · simp only [hrec, hspf, hscale, hobj]
      rw [if_neg Bool.false_ne_true, Bool.not_true, if_neg Bool.false_ne_true, if_neg hno, if_pos hwait]
    · simp only [hrec, hspf, hscale, hobj]
      rw [if_neg Bool.false_ne_true, Bool.not_true, if_neg Bool.false_ne_true, if_neg hno, hroom, if_neg Bool.false_ne_true,
        ← barrSpot, hbanks]
      simp only [hcon]
      rw [hu]

/-! ### The whole -/

theorem memSame_of_tGoes {i : Instr} {b : Block} {takes fills : List FeReg} {p : Pend} {s s1 t : State}
    (h : tGoes i b takes fills p s s1 t) (hm : s1.mem = s.mem) : memSame s t := by
  intro a
  rw [onlyHar_mem h.2.1, hm]

/-- Settles O42: what packing makes is read back (`unpack_packed`); TSPST is a store of those bytes, TSPLD puts the codes it reads
into its register (`code_codeEffs`), and TBARR goes on or faults as its updates of the object tell (`tbarr_run`). -/
theorem sparseVectorsAndArrival : Obligations.SparseVectorsAndArrival := by
  intro s w b rb f rows ds vecs h vl reg live roomy' pack
  refine ⟨fun g cs => unpack_packed, ?_, ?_, ?_⟩
  · intro hrec hlegal hfit hext hr hds hm hs1 hrows
    obtain ⟨run, hi, hrun⟩ := tspst_run (pack := pack) rfl hrec hfit hext hds hs1
    have hspots : (cells.zip ds).mapM (s.vectorSpots rb pack) = .ok rows := by
      rw [← hrows]
      refine congrArg (List.mapM · _) (funext fun x => ?_)
      obtain ⟨c, d⟩ := x
      cases d <;> rfl
    rw [hspots] at hrun
    have hfits := State.vectorSpots_rowsOf (length_of_mapM_ok hds) hspots
    refine ⟨fun hroom => tWord_waits hi hlegal ⟨rfl, rfl⟩ rfl hr ?_, fun hroom hq hfree => ?_⟩
    · rw [hrun, State.tStore_wait (State.loadStalls_of_not_roomy (f := { f with fmt := 0x01 }) hroom)]
    · have hst := storeIssues_of_tStore (f := { f with fmt := 0x01 })
        (P := fun n t => n = (liveSpots rows).length ∧ elementsStored 8 rows (fun cell k => ((pack cell).getD k 0).toNat) t)
        hi hlegal ⟨rfl, rfl⟩ rfl hr hrun (rowsOf_packCodes hfits) ⟨hm, hq, hfree⟩ fun n t hmem hn =>
          ⟨by simpa [show ({ f with fmt := 0x01 } : Rec).bits = 8 from rfl] using hn, elementsStored_packed f hfits hmem⟩
      obtain ⟨s1, t, n, hgo, hstores, rfl, helem⟩ := hst.2 hroom
      exact ⟨s1, t, hgo, hstores, helem⟩
  · intro hrec hlegal hfit hext hr hds
    obtain ⟨run, hi, hwait, hgo⟩ := tspld_run (vecs := vecs) hrec hfit hext hds
    refine ⟨fun hroom => waits_of_run hi hlegal rfl rfl hr
      (hwait (State.loadStalls_of_not_roomy hroom)), fun hvecs hroom hq => ?_⟩
    obtain ⟨s1, lat, hbanks, hworn⟩ := State.banks_of_quiet hq
    have hb := hworn.onlyBanks s.cur
    have hl : s1.latent = [] := by rw [hb.1]; exact hq.1.1
    have hsame := (State.banks_ok_sameEngines hbanks).trans (State.cacheSpots_sameEngines _ s.cur rb live)
    have hs2 := onlyBanks_trans hb (State.cacheSpots_onlyBanks hl s.cur rb live)
    have hrun := hgo (State.loadStalls_eq_false.mpr hroom) hvecs s1 lat hbanks
    rw [State.scrubSpots_of_no_latent hl, State.loadDue_fixed] at hrun
    obtain ⟨t, ht⟩ := tGoes_of_run hi hlegal rfl rfl hr (keepsBlock_of_same hsame).1 (keepsBlock_of_same hsame).2
      (by rw [hrun]; rfl)
    have hF (c : Nat) : ∀ x ∈ vectorEffs f.bits reg vecs c, x.onV c reg := codeEffs_onV _ _ _ _
    have hreg : reg < 64 := w.reg.isLt
    refine ⟨s1, _, lat, t, _, hbanks, hs2, ht, memSame_of_tGoes ht (by rw [hs2.1]), writesV_cells hF hreg cells_nodup, ?_⟩
    intro h0 cell k hc hk
    have hlen : (vecs.getD cell ([], [])).1.length = vl := by
      have hlt : cell < vecs.length := by
        rw [length_of_mapM_ok hvecs, List.length_zip, length_cells, length_of_mapM_ok hds]
        exact hc
      obtain ⟨x, -, hx⟩ := exists_of_mem_mapM_ok hvecs (List.getElem_mem hlt)
      rw [List.getD_eq_getElem _ _ hlt]
      exact State.length_vecLoad hx
    rw [Harness.vget_applyAll_cells hF hreg cells_nodup hreg, if_pos ⟨mem_cells.mpr hc, rfl⟩]
    exact code_codeEffs f.bits_elemBits (hlen ▸ hfit) cell reg (Harness.length_vget ..) (hlen ▸ hk)
  · intro key p n arr hlegal hr hrec hspf hscale hobj done
    obtain ⟨run, hi, hnone, hany⟩ := tbarr_run hrec hspf hscale hobj
    refine ⟨fun hn harr => ?_, fun hsome hroom => ?_, fun hsome hroom hcon hq => ?_⟩
    · have hk := State.barrTaken_keepsBlock (.refl s) none
      exact tGoes_of_run hi hlegal rfl rfl hr hk.1 hk.2 (by rw [hnone hn harr]; rfl)
    · exact waits_of_run hi hlegal rfl rfl hr
        ((hany hsome).1 (State.loadStalls_of_not_roomy hroom))
    · obtain ⟨s1, lat, hbanks, hworn⟩ := State.banks_of_quiet hq
      have hb := hworn.onlyBanks s.cur
      have hl : s1.latent = [] := by rw [hb.1]; exact hq.1.1
      have hsame := (State.banks_ok_sameEngines hbanks).trans (State.cacheSpots_sameEngines _ s.cur rb [barrSpot key p])
      have hrun := (hany hsome).2 (State.loadStalls_eq_false.mpr hroom) hcon s1 lat hbanks
      rw [State.scrubSpots_of_no_latent hl] at hrun
      refine ⟨_, onlyBanks_trans hb (State.cacheSpots_onlyBanks hl s.cur rb [barrSpot key p]), fun u => ⟨fun hu => ?_, fun hu => ?_⟩⟩
      · have hk := State.barrUpdates_keepsBlock hsame key n arr
        rw [hu] at hk
        exact tGoes_of_run hi hlegal rfl rfl hr hk.1 hk.2 (by rw [hrun u false hu]; rfl)
      · exact exec_of_run_faultAt hi hlegal rfl rfl hr (hrun u true hu)

end Sys2Proof.Machine
end

section
/-! SUPPORT. The decoder's readings (10 R310-R323): the front of a D word, and where a tile's entry or segment fails. -/

namespace Sys2Proof.Machine

open Sys2Proof.Safety

/-! ### The front of a D word -/

theorem dTakes_eq_nil {w : DWord} {u : DUse} (h : dBad w u = false) (hv : u.tkv = false) (hc : u.tkc = false) : dTakes w = [] := by
  simp only [dBad, Bool.or_eq_false_iff] at h
  have htkv : w.tkv = false := by simp_all
  have htkc : w.tkc = false := by simp_all
  rw [dTakes, htkv, htkc]
  rfl

theorem fild_eq_false {w : DWord} {u : DUse} (h : dBad w u = false) (hf : u.fild = false) : w.fild = false := by
  simp only [dBad, Bool.or_eq_false_iff] at h
  simp_all

theorem fild_eq_true {w : DWord} {u : DUse} (h : dBad w u = false) (hm : u.must = true) : w.fild = true := by
  simp only [dBad, Bool.or_eq_false_iff] at h
  simp_all

theorem dFront_legal {w : DWord} {u : DUse} {fill : FeReg} {takes fills : List FeReg} (h : dBad w u = false)
    (htakes : dTakes w = takes) (hfills : (if w.fild then [fill] else []) = fills) :
    dFront w u false fill = { e := .d, gk := w.gk, gn := w.gn, bad := none, takes := takes, fills := fills } := by
  rw [dFront, h, htakes, hfills]
  rfl

theorem fills_eq_nil {w : DWord} {u : DUse} {fill : FeReg} (h : dBad w u = false) (hf : u.fild = false) :
    (if w.fild then [fill] else []) = [] := by
  rw [fild_eq_false h hf]
  rfl

section
variable {i : Instr} {s : State} {w : DWord} {u : DUse} {b : Block} {fill : FeReg} {takes fills : List FeReg}
  {run : State → Issue} (hi : exec i s = .next (s.issue (dFront w u false fill) run)) (hlegal : dBad w u = false)
  (htakes : dTakes w = takes) (hfills : (if w.fild then [fill] else []) = fills) (hr : ready .d b w.gk w.gn takes fills s)
include hi hlegal htakes hfills hr

theorem dWord_waits (hrun : run s = .wait) : waits .d b i s := by
  rw [dFront_legal hlegal htakes hfills] at hi
  exact issue_waits hr rfl rfl hi hrun

theorem dWord_fault {x : Fail} (hrun : run s = .fault x) : exec i s = .next (s.blockFault .d x) := by
  rw [dFront_legal hlegal htakes hfills] at hi
  exact hi.trans (congrArg _ (State.issue_fault hr rfl rfl hrun))

theorem dWord_faultAt {s1 : State} {x : Fail} (hrun : run s = .faultAt s1 x) : exec i s = .next (s1.blockFault .d x) := by
  rw [dFront_legal hlegal htakes hfills] at hi
  exact hi.trans (congrArg _ (State.issue_faultAt hr rfl rfl hrun))

theorem dWord_flies {s1 : State} {p : Pend} (heng : s1.eng .d = s.eng .d) (hrun : run s = .goP s1 p) :
    ∃ t, exec i s = .next t ∧ flies .d b takes fills 1 0 p s1 t := by
  rw [dFront_legal hlegal htakes hfills] at hi
  exact ⟨_, hi, State.issue_goP_flies (f := { e := .d, gk := w.gk, gn := w.gn, bad := none, takes := takes, fills := fills })
    hr rfl rfl heng hrun⟩

theorem dWord_issues {due : Due} {effs : List Eff} (hrun : run s = .go s due effs) :
    ∃ t, issues i .d b takes fills due 1 0 effs s t := by
  rw [dFront_legal hlegal htakes hfills] at hi
  exact ⟨_, hi, State.issue_go_flies (f := { e := .d, gk := w.gk, gn := w.gn, bad := none, takes := takes, fills := fills })
    hr rfl rfl rfl hrun⟩

end

/-! ### Reading cell by cell -/

theorem tensorCells_pairwise (b : BufRec) : (tensorCells b).Pairwise (· < ·) := by
  unfold tensorCells
  split
  · exact List.pairwise_lt_range
  · exact List.pairwise_singleton ..

/-- The lowest cell whose reading fails decides. -/
theorem readCells_bad {α : Type} {g : Nat → Read α} {cs : List Nat} {c code : Nat} (hcs : cs.Pairwise (· < ·)) (hc : c ∈ cs)
    (hpre : ∀ c' ∈ cs, c' < c → ∃ y, g c' = .ok y) (hbad : g c = .bad code) : readCells g cs = (.bad code, c) := by
  induction cs with
  | nil => cases hc
  | cons a cs ih =>
    obtain ⟨ha, hcs⟩ := List.pairwise_cons.mp hcs
    rcases List.mem_cons.mp hc with rfl | hmem
    · rw [readCells, hbad]
    · obtain ⟨y, hy⟩ := hpre a List.mem_cons_self (ha c hmem)
      rw [readCells, hy, ih hcs hmem fun c' hc' => hpre c' (List.mem_cons_of_mem _ hc')]

/-! ### The entry of a tile -/

theorem zeros_iff {bs : List Byte} : zeros bs = true ↔ ∀ b ∈ bs, b = 0 := by simp [zeros]

theorem tileFmt_iff {n : Nat} : tileFmt n = true ↔ n ∈ [0x16, 0x14, 0x15, 0x00, 0x01] := by simp [tileFmt]

/-- An entry that fails a check is read as that failure. -/
theorem State.tileOf_of_entryFails {s : State} {r : Nat} {t : Tensor} {tile code : Nat} (h : entryFails s r t tile code) :
    s.tileOf r t tile = .bad code := by
  unfold State.tileOf
  dsimp only
  rcases h with ⟨hext, rfl⟩ | ⟨hext, hd, hhd, hfail⟩
  · rw [if_pos hext]
  · rw [if_neg (by omega), hhd]
    simp only [Read.bind]
    have hmagic : (at' hd 0 2 ≠ 0x5749 ∨ (!tileFmt (at' hd 2 1)) = true ∨ (!zeros ((hd.drop 3).take 1)) = true ∨
        (!zeros (hd.drop 8)) = true) ↔ ¬(at' hd 0 2 = 0x5749 ∧ at' hd 2 1 ∈ [0x16, 0x14, 0x15, 0x00, 0x01] ∧
          ∀ b ∈ (hd.drop 3).take 1 ++ hd.drop 8, b = 0) := by
      rw [← tileFmt_iff, List.forall_mem_append, ← zeros_iff, ← zeros_iff]
      rw [not_and_or, not_and_or, not_and_or, Bool.not_eq_true', Bool.not_eq_true', Bool.not_eq_true', Bool.not_eq_true,
        Bool.not_eq_true, Bool.not_eq_true]
    have hinside : (tile ≥ at' hd 4 4 ∨ 16 + 8 * tile + 8 > t.b.fields.ext0) ↔
        ¬(tile < at' hd 4 4 ∧ 16 + 8 * tile + 8 ≤ t.b.fields.ext0) := by omega
    rcases hfail with ⟨hm, rfl⟩ | ⟨hm, hi, rfl⟩ | ⟨hm, hi, rfl, en, hen, hbad⟩
    · rw [if_pos (hmagic.mpr hm)]
    · rw [if_neg (fun h => hmagic.mp h hm), if_pos (hinside.mpr hi)]
    · rw [if_neg (fun h => hmagic.mp h hm), if_neg (fun h => hinside.mp h hi), hen]
      simp only [field, pow_zero, Nat.div_one]
      exact if_pos hbad

/-- So is one that disagrees with cell 0's. -/
theorem State.tileIn_of_fails {s : State} {r : Nat} {b : BufRec} {tile cell code : Nat}
    (h : entryFails s r ⟨b, cell⟩ tile code ∨ ∃ y z, s.tileOf r ⟨b, cell⟩ tile = .ok y ∧
      s.tileOf r ⟨b, 0⟩ tile = .ok z ∧ (y.tid ≠ z.tid ∨ y.fmt ≠ z.fmt) ∧ code = cSTREAM_BAD_INDEX) :
    s.tileIn r b tile cell = .bad code := by
  rcases h with h | ⟨y, z, hy, hz, hne, rfl⟩
  · rw [State.tileIn, State.tileOf_of_entryFails h]
    rfl
  · have hdiff : ¬(y.tid = z.tid ∧ y.fmt = z.fmt) := fun h => hne.elim (fun g => g h.1) fun g => g h.2
    rw [State.tileIn, hy, hz]
    exact if_neg hdiff

/-! ### The segment of a tile -/

/-- The offsets of the sub-streams lie in order, on even lengths of four bytes at least. -/
theorem lens_any_iff {n : Nat} {tb : List Byte} :
    (List.zipWith (fun a b => (a, b)) (elemsOf 4 (n + 1) tb) ((elemsOf 4 (n + 1) tb).drop 1)).any
        (fun ab => decide (ab.2 < ab.1 + 4) || (ab.2 - ab.1) % 2 != 0) = true ↔
      ¬∀ i, i < n → at' tb (4 * i) 4 + 4 ≤ at' tb (4 * (i + 1)) 4 ∧ (at' tb (4 * (i + 1)) 4 - at' tb (4 * i) 4) % 2 = 0 := by
  have hlen : (List.zipWith (fun a b => (a, b)) (elemsOf 4 (n + 1) tb) ((elemsOf 4 (n + 1) tb).drop 1)).length = n := by
    simp [length_elemsOf]
  simp only [List.any_eq_true, List.mem_iff_getElem, hlen, not_forall]
  constructor
  · rintro ⟨ab, ⟨i, hi, rfl⟩, hab⟩
    refine ⟨i, hi, ?_⟩
    simp only [List.getElem_zipWith, List.getElem_drop, getElem_elemsOf, Bool.or_eq_true, decide_eq_true_eq, bne_iff_ne,
      Nat.add_comm 1 i] at hab
    omega
  · rintro ⟨i, hi, hbad⟩
    refine ⟨_, ⟨i, hi, rfl⟩, ?_⟩
    simp only [List.getElem_zipWith, List.getElem_drop, getElem_elemsOf, Bool.or_eq_true, decide_eq_true_eq, bne_iff_ne,
      Nat.add_comm 1 i]
    omega

theorem getD_elemsOf {n i : Nat} (h : i < n) (tb : List Byte) : (elemsOf 4 n tb).getD i 0 = at' tb (4 * i) 4 := by
  rw [List.getD_eq_getElem _ _ (by rwa [length_elemsOf]), getElem_elemsOf]

/-- A segment that fails a check is read as that failure. -/
theorem State.segment_of_fails {s : State} {r : Nat} {h : Harness} {t : Tensor} {x : Tile} {psub code : Nat}
    (hf : segmentFails s r h t x psub code) : s.segment r h t x psub = .bad code := by
  rcases hf with ⟨hfit, rfl⟩ | ⟨⟨k, hk, halph⟩, hd, hhd, hf⟩
  · unfold State.segment
    cases hc : h.chooseTable x.tid with
    | none => rfl
    | some k =>
      have hne : (!(h.tableAlph k == if x.fmt = 0x16 then 0 else 1)) = true := by
        simpa using fun ha => hfit ⟨k, hc, ha⟩
      exact if_pos hne
  · have hsubs : (if x.fmt = 0x16 then 4 else 2) = x.subs := rfl
    rw [hsubs] at hf
    unfold State.segment
    dsimp only
    have hfits : ¬(!(h.tableAlph k == if x.fmt = 0x16 then 0 else 1)) = true := by simp [halph]
    rw [hk]
    dsimp only
    rw [if_neg hfits, hhd]
    simp only [Read.bind]
    generalize x.subs = n at hf
    have hmagic : (at' hd 0 2 ≠ 0x5A57 ∨ at' hd 2 1 ≠ x.tid ∨ (!zeros (hd.drop 10)) = true) ↔
        ¬(at' hd 0 2 = 0x5A57 ∧ at' hd 2 1 = x.tid ∧ ∀ b ∈ hd.drop 10, b = 0) := by
      rw [← zeros_iff, not_and_or, not_and_or, Bool.not_eq_true', Bool.not_eq_true]
    have hcount : (at' hd 3 1 ≠ n ∨ at' hd 4 4 ≠ 1024 * n ∨ psub ≥ n) ↔
        ¬(at' hd 3 1 = n ∧ at' hd 4 4 = 1024 * n ∧ psub < n) := by omega
    rcases hf with ⟨hm, rfl⟩ | ⟨hm, hc, rfl⟩ | ⟨hm, hc, hlong, rfl⟩ | ⟨hm, hc, hlong, tb, htb, hf⟩
    · rw [if_pos (hmagic.mpr hm)]
    · rw [if_neg (fun h => hmagic.mp h hm), if_pos (hcount.mpr hc)]
    · rw [if_neg (fun h => hmagic.mp h hm), if_neg (fun h => hcount.mp h hc), if_pos hlong]
    · rw [if_neg (fun h => hmagic.mp h hm), if_neg (fun h => hcount.mp h hc), if_neg (Nat.not_lt.mpr hlong), htb]
      simp only
      rw [getD_elemsOf (Nat.zero_lt_succ n), getD_elemsOf (Nat.lt_succ_self n)]
      have hordered : (at' tb (4 * 0) 4 ≠ 16 + 4 * (n + 1) ∨
          (List.zipWith (fun a b => (a, b)) (elemsOf 4 (n + 1) tb) ((elemsOf 4 (n + 1) tb).drop 1)).any
            (fun ab => decide (ab.2 < ab.1 + 4) || (ab.2 - ab.1) % 2 != 0) = true ∨ at' tb (4 * n) 4 > 16 * x.slen) ↔
          ¬(at' tb (4 * 0) 4 = 16 + 4 * (n + 1) ∧
            (∀ i, i < n → at' tb (4 * i) 4 + 4 ≤ at' tb (4 * (i + 1)) 4 ∧
              (at' tb (4 * (i + 1)) 4 - at' tb (4 * i) 4) % 2 = 0) ∧ at' tb (4 * n) 4 ≤ 16 * x.slen) := by
        rw [lens_any_iff, gt_iff_lt, ← Nat.not_le, not_and_or, not_and_or]
      rcases hf with ⟨ho, rfl⟩ | ⟨ho, rfl, body, hbody, hcrc⟩
      · rw [if_pos (hordered.mpr ho)]
      · rw [if_neg (fun h => hordered.mp h ho), hbody]
        exact if_pos hcrc

/-- The lowest failing cell decides over the entries, and over the segments. -/
theorem State.tiles_of_fails {s : State} {r : Nat} {b : BufRec} {tile cell code : Nat} (hc : cell ∈ tensorCells b)
    (hpre : ∀ c' ∈ tensorCells b, c' < cell → ∃ y, s.tileIn r b tile c' = .ok y) (hbad : s.tileIn r b tile cell = .bad code) :
    s.tiles r b tile = (.bad code, cell) := readCells_bad (tensorCells_pairwise b) hc hpre hbad

theorem State.segments_of_fails {s : State} {r : Nat} {b : BufRec} {tile psub cell code : Nat} (hc : cell ∈ tensorCells b)
    (hpre : ∀ c' ∈ tensorCells b, c' < cell → ∃ a q, s.tileIn r b tile c' = .ok a ∧ s.segment r (s.har r) ⟨b, c'⟩ a psub = .ok q)
    (hbad : s.tileIn r b tile cell = .bad code ∨
      ∃ z, s.tileIn r b tile cell = .ok z ∧ s.segment r (s.har r) ⟨b, cell⟩ z psub = .bad code) :
    s.segments r b tile psub = (.bad code, cell) := by
  refine readCells_bad (tensorCells_pairwise b) hc (fun c' hc' hlt => ?_) ?_
  · obtain ⟨a, q, ha, hq⟩ := hpre c' hc' hlt
    exact ⟨(a, q), by rw [ha]; simp only [Read.bind]; rw [hq]⟩
  · rcases hbad with h | ⟨z, hz, hg⟩
    · rw [h]
      rfl
    · rw [hz]
      simp only [Read.bind]
      rw [hg]

/-- Where the latch of a DDEC finds cell 0's entry, it fills the segment's place. -/
theorem State.latchSeg_of_ok {s : State} {p : Nat} {pos : Pos} {b : BufRec} {y : Tile}
    (h : s.tileIn s.cur b pos.tile 0 = .ok y) : s.latchSeg p pos b =
      s.modHar s.cur fun h => { h with dpos := h.dpos.setIfInBounds p ({ pos with seg := y.soff } : Pos).bits } := by
  rw [State.latchSeg, h]
  rfl

theorem State.latchSeg_of_bad {s : State} {p code : Nat} {pos : Pos} {b : BufRec}
    (h : s.tileIn s.cur b pos.tile 0 = .bad code) : s.latchSeg p pos b = s := by
  rw [State.latchSeg, h]

/-! ### A decode -/

section
variable {s s1 : State} {w : DWord} {pos : Pos} {x : Tile} {tbl : Nat} {bar : Option (Word × Word)} {via : Option Word}
  {segs : List (Nat × List (List Byte))} {done : List (Nat × List (List Byte))}

theorem State.decode_of_error {code sub cell sym : Nat}
    (h : decodeSubs x.fmt (tableFreqs ((s.har s.cur).dtab.getD tbl [])) segs (x.subs - pos.sub) pos.sub =
      (done, some (code, sub, cell, sym))) : s.decode s1 w pos x tbl bar via segs =
      .faultAt (s.modHar s.cur fun h => h.applyAll (subEffs w.slot.toNat x.subBytes done ++
        [.dpos (w.imm.toNat % 4) ({ pos with sub := sub, seg := x.soff } : Pos).bits]))
        (streamFail code (w.imm.toNat % 4) sub cell sym) := by
  unfold State.decode
  dsimp only
  rw [h]

theorem State.decode_of_none
    (h : decodeSubs x.fmt (tableFreqs ((s.har s.cur).dtab.getD tbl [])) segs (x.subs - pos.sub) pos.sub = (done, none)) :
    s.decode s1 w pos x tbl bar via segs = .goP s1
      { age := 0, due := .free .decode, pos := w.imm.toNat % 4, tslot := tbl, bar := bar.map (·.1)
        barAddr := (bar.map (·.2)).getD 0, bytes := 16 * (2048 - pos.sub * x.subBytes), via := via
        effs := subEffs w.slot.toNat x.subBytes done ++ [.dpos (w.imm.toNat % 4)
          ({ pos with tbl := tbl, sub := 0, tile := (pos.tile + 1) % 2 ^ 32, seg := 0 } : Pos).bits] } := by
  unfold State.decode
  dsimp only
  rw [h]

end

end Sys2Proof.Machine
end

section
/-! O39: tables, seeks and decodes (08 R255-R258; 10 R321-R325). -/

namespace Sys2Proof.Machine

open Sys2Proof.Safety

/-! ### DSEEK -/

def seekUse : DUse := { brec := true, creg := true, imm := 3 }

/-- The position that a DSEEK of c, a c register, sets with a tile's entry x. -/
def seekPos (h : Harness) (brec c : Nat) (x : Tile) : Pos :=
  { valid := true, brec := brec, tbl := (h.chooseTable x.tid).getD 0, sub := c / 2 ^ 32 % 2 ^ 8, tile := c % 2 ^ 32, seg := x.soff }

theorem Harness.atLimit_iff {h : Harness} : h.atLimit = true ↔ 2048 ≤ outstanding h := by
  rw [Harness.atLimit, h.requests_eq, decide_eq_true_iff]

/-- The meaning of DSEEK: it waits for a decode of its position, or its register's record and fields fail, or the entry of the
tile, or it waits for room, or it sets the position. -/
theorem dseek_run {s : State} {w : DWord} {h : Harness} {c p : Nat} (hh : h = s.har s.cur)
    (hc : c = (h.dc.getD w.creg.toNat 0).toNat) (hp : p = w.imm.toNat % 4) :
    ∃ run, exec (.dseek w) s = .next (s.issue (dFront w seekUse false (.v 0)) run) ∧
      (h.posDecoding p = true → run s = .wait) ∧
      (h.posDecoding p = false → (∀ e, h.vwsRec w.brec.toNat = .error e → run s = .fault { code := e }) ∧
        ∀ rb, h.vwsRec w.brec.toNat = .ok rb → (c / 2 ^ 40 % 2 ^ 24 ≠ 0 → run s = .fault { code := cILLEGAL_INSTR }) ∧
          (c / 2 ^ 40 % 2 ^ 24 = 0 →
            (∀ code cell, s.tiles s.cur rb (c % 2 ^ 32) = (.bad code, cell) → run s = .faultAt s (streamFail code p 0 cell 0)) ∧
            ∀ x xs n, s.tiles s.cur rb (c % 2 ^ 32) = (.ok (x :: xs), n) → (h.atLimit = true → run s = .wait) ∧
              (h.atLimit = false → ∀ s1 m,
                s.banks .d rb.fields (s.tensorKeys s.cur rb (c % 2 ^ 32) ((x :: xs).map fun _ => (0, 0))) = .ok (s1, m) →
                run s = .goP s1 { age := 0, due := .free .seek, effs := [.dpos p (seekPos h w.brec.toNat c x).bits], pos := p
                                  via := viaOf rb.fields }))) := by
  subst hh hc hp
  have hfield (x lo n : Nat) : field x lo n = x / 2 ^ lo % 2 ^ n := rfl
  refine ⟨_, rfl, fun hpos => if_pos hpos, fun hpos => ⟨fun e he => ?_, fun rb hrb => ⟨fun hill => ?_, fun hill => ⟨fun code cell ht => ?_,
    fun x xs n ht => ⟨fun hlim => ?_, fun hlim s1 m hbanks => ?_⟩⟩⟩⟩⟩
  all_goals
    dsimp only
    rw [hpos, if_neg Bool.false_ne_true]
  · rw [he]
  · rw [hrb]
    exact if_pos hill
  all_goals
    rw [hrb]
    simp only [hfield, hill, ne_eq, not_true_eq_false, if_false, pow_zero, Nat.div_one, ht]
  · rfl
  · exact if_pos hlim
  · rw [hlim, if_neg Bool.false_ne_true, hbanks]
    rfl

/-! ### DDEC -/

def ddecUse (w : DWord) : DUse := { slot := true, brec := w.imm.getLsbD 2, fild := true, must := true, imm := 7 }

theorem Harness.slotCheck_eq_none {h : Harness} {n : Nat} (hc : h.claimed n = true) (hp : h.slotPending n = false) :
    h.slotCheck n = none := by simp [slotCheck, hc, hp]

/-- The keys of the bytes that a DDEC has read. -/
def State.ddecKeys (s : State) (rb : BufRec) (tile : Nat) (ys : List (Tile × List (List Byte))) : List Nat :=
  s.tensorKeys s.cur rb tile (ys.map fun y => (y.1.soff, 20 + 4 * y.1.subs + (y.2.map List.length).foldl (· + ·) 0))

/-- The meaning of DDEC before its record is looked up: it waits for a table load or an earlier word of its position. -/
theorem ddec_run {s : State} {w : DWord} {h : Harness} {p : Nat} {pos : Pos} (hh : h = s.har s.cur)
    (hp : p = w.imm.toNat % 4) (hpos : pos = posOf (h.dpos.getD p 0)) (hslot : h.slotCheck w.slot.toNat = none) :
    ∃ run, exec (.ddec w) s = .next (s.issue (dFront w (ddecUse w) false (.s w.slot.toNat)) run) ∧
      (h.tableLoading = true ∨ h.posBusy p = true → run s = .wait) ∧
      (h.tableLoading = false → h.posBusy p = false →
        (pos.valid = false → run s = .fault (streamFail cSTREAM_BAD_INDEX p 0 0 0)) ∧
        (pos.valid = true → (∀ e, h.vwsRec pos.brec = .error e → run s = .fault { code := e }) ∧
          ∀ rb, h.vwsRec pos.brec = .ok rb → (∀ e, s.ddecBar h w = .error e → run s = .fault e) ∧
            ∀ bar, s.ddecBar h w = .ok bar →
              (∀ code cell, s.segments s.cur rb pos.tile pos.sub = (.bad code, cell) →
                run s = .faultAt (s.latchSeg p pos rb) (streamFail code p 0 cell 0)) ∧
              ∀ y ys n, s.segments s.cur rb pos.tile pos.sub = (.ok (y :: ys), n) → (h.atLimit = true → run s = .wait) ∧
                (h.atLimit = false → ∀ s1 m, s.banks .d rb.fields (s.ddecKeys rb pos.tile (y :: ys)) = .ok (s1, m) →
                  run s = s.decode s1 w pos y.1 ((h.chooseTable y.1.tid).getD 0) bar (viaOf rb.fields)
                    ((tensorCells rb).zip ((y :: ys).map (·.2)))))) := by
  subst hh hp hpos
  refine ⟨_, rfl, fun hbusy => ?_, fun hload hbusy => ⟨fun hv => ?_, fun hv => ⟨fun e he => ?_, fun rb hrb => ⟨fun e he => ?_,
    fun bar hbar => ⟨fun code cell hs => ?_, fun y ys n hs => ⟨fun hlim => ?_, fun hlim s1 m hbanks => ?_⟩⟩⟩⟩⟩⟩
  all_goals
    dsimp only
    rw [hslot]
    dsimp only
  · exact if_pos (by simpa using hbusy)
  all_goals
    rw [hload, hbusy, Bool.or_false, if_neg Bool.false_ne_true, hv]
  · rfl
  all_goals
    rw [Bool.not_true, if_neg Bool.false_ne_true]
  · rw [he]
  all_goals
    rw [hrb]
    dsimp only
  · rw [he]
  all_goals
    rw [hbar]
    dsimp only
    rw [hs]
    dsimp only
  · rfl
  · exact if_pos hlim
  · rw [State.ddecKeys] at hbanks
    rw [hlim, if_neg Bool.false_ne_true, hbanks]

/-! ### DSTAT, DCADD -/

/-- IMM of a word that may have bits 1:0 alone. -/
theorem imm_lt_four {w : DWord} {u : DUse} (h : dBad w u = false) (hu : u.imm = 3) : w.imm.toNat < 4 := by
  have hmask : w.imm.toNat &&& (2 ^ 32 - 1 - 3) = 0 := by
    simp only [dBad, Bool.or_eq_false_iff, hu] at h
    simpa using h.2
  have hdiv := congrArg (· / 2 ^ 2) hmask
  simp only [Nat.and_div_two_pow] at hdiv
  have hlow : w.imm.toNat / 2 ^ 2 % 2 ^ 30 = 0 := (Nat.and_two_pow_sub_one_eq_mod ..).symm.trans hdiv
  have := w.imm.isLt
  omega

/-- A field read as a signed number. -/
theorem ofInt_sextNat (x : BitVec 32) : BitVec.ofInt 64 (sextNat 24 (field x.toNat 8 24)) = (x.extractLsb' 8 24).signExtend 64 := by
  have hval : (x.extractLsb' 8 24).toNat = field x.toNat 8 24 := by
    rw [BitVec.extractLsb'_toNat, Nat.shiftRight_eq_div_pow, field]
  have hlt : field x.toNat 8 24 < 2 ^ 24 := Nat.mod_lt _ (by decide)
  rw [BitVec.signExtend, BitVec.toInt, hval, sextNat, Nat.mod_eq_of_lt hlt]
  congr 1
  split <;> split <;> omega

/-! ### Completion -/

theorem State.arrive1_of_no_g {s : State} {r : Nat} {q : Pend} (h : ∀ i v, Eff.g i v ∉ q.effs) :
    s.arrive1 r .d q = s.modHar r fun h => (h.modEng .d fun e => { e with pend := eraseOne q e.pend }).applyAll q.effs := by
  have hall (x : Harness) : (q.effs.filter fun y => !x.seq.prevails y) = q.effs := by
    refine List.filter_eq_self.mpr fun y hy => ?_
    cases y with
    | g i v => exact absurd hy (h i v)
    | _ => rfl
  simp only [State.arrive1, hall]

theorem State.decodeDue_eq {s : State} {r : Nat} {q : Pend} (hq : s.arrives r .d .decode = some q)
    (hserves : ∀ k, q.bar = some k → s.serves (decodeAsker r) k.toNat = true) : s.decodeDue r = some q := by
  rw [State.decodeDue, hq, Option.filter_some, if_pos]
  cases hb : q.bar with
  | none => rfl
  | some k => exact hserves k hb

/-- A decode that its barrier object's bank does not keep waiting completes. -/
theorem decodeComplete_eq {s : State} {q : Pend} (hq : s.arrives s.ev.a .d .decode = some q)
    (hserves : ∀ k, q.bar = some k → s.serves (decodeAsker s.ev.a) k.toNat = true) :
    let r := s.ev.a
    let t := s.arrive1 r .d q
    let stays := fun (u : State) left => u.modHar r fun h => h.modEng .d fun e =>
      { e with pend := { q with effs := [], bytes := left } :: e.pend }
    (s.viaDown q = true → exec .decodeComplete s = .next (s.linkFault r .d q)) ∧
    (s.viaDown q = false →
      (q.bar = none → exec .decodeComplete s = .next t) ∧
      (∀ k u left, q.bar = some k → t.consumesN k.toNat 8 = none →
        (t.touch (decodeAsker r) k.toNat).barChunks k.toNat (chunks (q.bytes / 2048 + 1) q.bytes) = (u, left) →
        exec .decodeComplete s =
          .next (if left = 0 then u else (stays u left).lateFaultAt r .d q { code := cBAR_OVERFLOW })) ∧
      ∀ k c, q.bar = some k → t.consumesN k.toNat 8 = some c → exec .decodeComplete s =
        .next ((((stays t q.bytes).scrub k.toNat 8).count (dieOf r) 4).lateFaultAt r .d q
          { code := c, addr := q.barAddr, acc := accAtomic })) := by
  have hexec : exec .decodeComplete s = execDecodeComplete s := rfl
  have hdue := State.decodeDue_eq hq hserves
  refine ⟨fun hdown => ?_, fun hup => ⟨fun hb => ?_, fun k u left hb hc hu => ?_, fun k c hb hc => ?_⟩⟩
  all_goals
    rw [hexec, execDecodeComplete]
    dsimp only
    rw [hdue]
    dsimp only
  · exact if_pos hdown
  all_goals
    rw [hup, if_neg Bool.false_ne_true, hb]
  all_goals
    dsimp only
    rw [hc]
  rw [hu]

/-- Settles O39: each word goes through the front of a D word and gives what its own meaning gives; a failing check of an entry or
a segment is what reading it cell by cell comes to (`State.tileIn_of_fails`, `State.segment_of_fails`, `readCells_bad`). -/
theorem decoderInstructions : Obligations.DecoderInstructions := by
  intro s w b rb x xs s1 n m cell code h cyc t p c bytes seek seekOk entryBad
  obtain ⟨seekRun, hseek, seekWaits, seekRuns⟩ := dseek_run (w := w) (rfl : h = s.har s.cur) (rfl : seek = _) (rfl : p = _)
  refine ⟨fun hr hlegal => ⟨fun hl => ?_, fun hl hok => ?_, fun hl hbad => ?_⟩, ?_, ?_, ?_, ?_, ?_⟩
  · exact dWord_waits rfl hlegal rfl (fills_eq_nil hlegal rfl) hr (if_pos hl)
  · refine dWord_flies rfl hlegal rfl (fills_eq_nil hlegal rfl) hr rfl ?_
    exact (if_neg (by simpa using hl)).trans (if_pos hok)
  · refine dWord_faultAt rfl hlegal rfl (fills_eq_nil hlegal rfl) hr ?_
    exact (if_neg (by simpa using hl)).trans (if_neg (by simpa using hbad))
  · rintro ⟨hr, hlegal⟩ hpos
    exact dWord_waits hseek hlegal (dTakes_eq_nil hlegal rfl rfl) (fills_eq_nil hlegal rfl) hr (seekWaits hpos)
  · rintro ⟨hr, hlegal⟩ hpos
    have htakes := dTakes_eq_nil hlegal rfl rfl
    have hfills := fills_eq_nil (fill := .v 0) hlegal rfl
    obtain ⟨hnone, hsome⟩ := seekRuns hpos
    refine ⟨fun e he => ?_, fun hrb hill => ?_, fun hrb hill hbad => ?_, fun hrb hill ht hlim => ?_, fun hrb hill ht hlim hbanks => ?_⟩
    · exact dWord_fault hseek hlegal htakes hfills hr (hnone e he)
    · exact dWord_fault hseek hlegal htakes hfills hr ((hsome rb hrb).1 hill)
    · obtain ⟨hc, hpre, hbad⟩ := hbad
      exact dWord_faultAt hseek hlegal htakes hfills hr
        (((hsome rb hrb).2 hill).1 code cell (State.tiles_of_fails hc hpre (State.tileIn_of_fails hbad)))
    · exact dWord_waits hseek hlegal htakes hfills hr ((((hsome rb hrb).2 hill).2 x xs n ht).1 (Harness.atLimit_iff.mpr hlim))
    · refine dWord_flies hseek hlegal htakes hfills hr ((State.banks_ok_sameEngines hbanks).eng _)
        ((((hsome rb hrb).2 hill).2 x xs n ht).2 ?_ s1 m hbanks)
      rw [← Bool.not_eq_true, Harness.atLimit_iff]
      omega
  · intro bar g ys pos tbl hr hlegal hclaim hpend
    have hslot := Harness.slotCheck_eq_none hclaim hpend
    obtain ⟨run, hi, hwait, hrun⟩ := ddec_run (w := w) (rfl : h = s.har s.cur) (rfl : p = _) (rfl : pos = _) hslot
    have htakes := dTakes_eq_nil hlegal rfl rfl
    have hfills : (if w.fild then [FeReg.s w.slot.toNat] else []) = [.s w.slot.toNat] := if_pos (fild_eq_true hlegal rfl)
    refine ⟨fun hbusy => dWord_waits hi hlegal htakes hfills hr (hwait hbusy), fun hload hbusy => ?_⟩
    obtain ⟨hinvalid, hvalid⟩ := hrun hload hbusy
    refine ⟨fun hv => dWord_fault hi hlegal htakes hfills hr (hinvalid hv), fun e hv he =>
      dWord_fault hi hlegal htakes hfills hr ((hvalid hv).1 e he), fun e hv hrb he =>
      dWord_fault hi hlegal htakes hfills hr (((hvalid hv).2 rb hrb).1 e he), fun hv hrb hbar => ?_⟩
    obtain ⟨hfails, hreads⟩ := ((hvalid hv).2 rb hrb).2 bar hbar
    refine ⟨fun y hc hpre => ⟨fun h0 hbad => ?_, fun hy hbad => ?_⟩, fun hsegs => ⟨fun hlim => ?_, fun hlim hbanks done err hdec =>
      ⟨fun sub sym herr => ?_, fun herr => ?_⟩⟩⟩
    · have htile := State.tileIn_of_fails hbad.2.2
      have := dWord_faultAt hi hlegal htakes hfills hr (hfails code cell (State.segments_of_fails hc hpre (.inl htile)))
      subst h0
      rwa [State.latchSeg_of_bad htile] at this
    · have hseg : s.segments s.cur rb pos.tile pos.sub = (.bad code, cell) := by
        refine State.segments_of_fails hc hpre (hbad.imp (fun h => State.tileIn_of_fails h.2.2) ?_)
        rintro ⟨z, hz, hfail⟩
        exact ⟨z, hz, State.segment_of_fails hfail⟩
      have := dWord_faultAt hi hlegal htakes hfills hr (hfails code cell hseg)
      rwa [State.latchSeg_of_ok hy] at this
    · exact dWord_waits hi hlegal htakes hfills hr ((hreads _ _ _ hsegs).1 (Harness.atLimit_iff.mpr hlim))
    all_goals
      have hroom : h.atLimit = false := by
        rw [← Bool.not_eq_true, Harness.atLimit_iff]
        omega
      have hdecode := (hreads _ _ _ hsegs).2 hroom s1 m hbanks
      subst herr
    · exact dWord_faultAt hi hlegal htakes hfills hr (hdecode.trans (State.decode_of_error hdec))
    · exact dWord_flies hi hlegal htakes hfills hr ((State.banks_ok_sameEngines hbanks).eng _)
        (hdecode.trans (State.decode_of_none hdec))
  · intro hr
    refine ⟨fun hlegal hbusy => ?_, fun hlegal hbusy => ?_, fun hlegal => ?_⟩
    · refine dWord_waits rfl hlegal (dTakes_eq_nil hlegal rfl rfl) (fills_eq_nil hlegal rfl) hr (if_pos ?_)
      rwa [← Nat.mod_eq_of_lt (imm_lt_four hlegal rfl)]
    · refine dWord_issues rfl hlegal (dTakes_eq_nil hlegal rfl rfl) (fills_eq_nil hlegal rfl) hr ?_
      have hp : w.imm.toNat = p := (Nat.mod_eq_of_lt (imm_lt_four hlegal rfl)).symm
      dsimp only
      rw [hp]
      refine (if_neg (by simpa using hbusy)).trans ?_
      have hval (x v : Nat) : field (x % 2 ^ 64) 0 49 + v * 2 ^ 49 + field (x % 2 ^ 64) 57 7 * 2 ^ 57 =
          x % 2 ^ 49 + v * 2 ^ 49 + x / 2 ^ 57 % 2 ^ 7 * 2 ^ 57 := by
        unfold field
        omega
      rw [hval]
      rfl
    · refine dWord_issues rfl hlegal (dTakes_eq_nil hlegal rfl rfl) (fills_eq_nil hlegal rfl) hr ?_
      dsimp only
      rw [ofInt_sextNat, field, field, pow_zero, Nat.div_one]
      rfl
  · intro q hq hserves r
    obtain ⟨hdown, hup⟩ := decodeComplete_eq hq hserves
    refine ⟨hdown, fun hv hg => ?_⟩
    rw [State.arrive1_of_no_g hg] at hup
    exact hup hv

end Sys2Proof.Machine
end

section

/-!
The scheduler's events (O49). Its clause on a node start says that no other harness differs, and has no premise on latent errors.
Where the record leaves, a spilled one returns, and its slot's walks are checked (17 R407). A corrected error on the way raises
the counter TCE, whose word is written in the scheduler block (17 R411). Here that word is the table entry of the slot's page:
the second walk follows it to a granule with an uncorrectable error that its controller cannot record, the error is reported,
and the message is an interrupt of the supervisor's harness.
-/

namespace Sys2Proof.Machine

open Sys2Proof.Safety

/-! An interrupt that is due stays due -/

/-- Every harness for which an interrupt entry is due in s has one due in t. -/
structure keepsIntr (s t : State) : Prop where
  intr : ∀ q, (s.har q).ctl.intr.isSome = true → (t.har q).ctl.intr.isSome = true

namespace keepsIntr

theorem trans {s t u : State} (h : keepsIntr s t) (k : keepsIntr t u) : keepsIntr s u := ⟨fun q hq => k.intr q (h.intr q hq)⟩

theorem refl (s : State) : keepsIntr s s := ⟨fun _ => id⟩

theorem of_hs {s t : State} (h : t.hs = s.hs) : keepsIntr s t := ⟨fun q hq => by
  have hh : t.har q = s.har q := by unfold State.har; rw [h]
  rwa [hh]⟩

theorem after {s t u : State} (k : keepsIntr t u) (h : t.hs = s.hs) : keepsIntr s u := (of_hs h).trans k

theorem of_onlyMemory {s t : State} (h : onlyMemory s t) : keepsIntr s t := of_hs (by rw [h])

theorem foldl {α : Type} {f : State → α → State} (hf : ∀ s x, keepsIntr s (f s x)) (xs : List α) (s : State) :
    keepsIntr s (xs.foldl f s) :=
  List.foldlRecOn xs f (motive := fun t => keepsIntr s t) (.refl s) fun t h x _ => h.trans (hf t x)

end keepsIntr

theorem State.raiseInt_intr (s : State) (p code q : Nat)
    (h : (s.har q).ctl.intr.isSome = true ∨ q = (s.part p).suprank.toNat ∧ (s.har q).running = true ∧ (s.har q).sp.cur = 0) :
    ((s.raiseInt p code).har q).ctl.intr.isSome = true := by
  unfold State.raiseInt
  dsimp only
  split
  case isTrue hr =>
    by_cases hq : q = (s.part p).suprank.toNat
    · subst hq
      rw [State.modCtl_eq, State.har_setHar]
      cases (s.har (s.part p).suprank.toNat).ctl.intr <;> rfl
    · rw [State.modCtl_eq, State.har_setHar_other _ hq]
      exact h.resolve_right fun hs => hq hs.1
  case isFalse hr =>
    refine h.resolve_right ?_
    rintro ⟨rfl, hrun, hcur⟩
    exact hr (by rw [hrun, hcur]; rfl)

theorem State.raiseInt_keepsIntr (s : State) (p code : Nat) : keepsIntr s (s.raiseInt p code) :=
  ⟨fun q hq => s.raiseInt_intr p code q (.inl hq)⟩

theorem State.devWrite_keepsIntr {s t : State} {p va : Nat} {bs : List Byte} {need : Need}
    (h : s.devWrite p va bs need = .ok t) : keepsIntr s t := .of_onlyMemory (State.devWrite_onlyMemory h)

theorem State.tell_keepsIntr (s : State) (d code rank : Nat) (subject detail : Word) :
    keepsIntr s (s.tell d code rank subject detail) := by
  unfold State.tell
  dsimp only
  split
  next =>
    split
    next =>
      split
      next =>
        split
        next h => exact State.devWrite_keepsIntr h
        next => exact .refl s
      next => exact .refl s
    next =>
      split
      next => exact .refl s
      next ht =>
        refine (State.devWrite_keepsIntr ht).trans ?_
        split
        next => exact .refl _
        next hu =>
          refine (State.devWrite_keepsIntr hu).trans ((State.raiseInt_keepsIntr _ (s.partOfDie d) code).trans ?_)
          split
          next => split <;> exact .of_hs rfl
          next => exact .refl _
  next => exact .refl s

theorem State.count_keepsIntr (s : State) (d i : Nat) : keepsIntr s (s.count d i) := by
  have hd : ∀ f, keepsIntr s (s.modDie d f) := fun _ => .of_hs rfl
  unfold State.count
  dsimp only
  split
  next h => exact (hd _).trans (State.devWrite_keepsIntr h)
  next => exact hd _

theorem State.hbmSummary_keepsIntr (s : State) (i : Nat) : keepsIntr s (s.hbmSummary i) := by
  unfold State.hbmSummary
  dsimp only
  split
  next h =>
    refine keepsIntr.trans ?_ (State.devWrite_keepsIntr h)
    split
    next hc => exact State.devWrite_keepsIntr hc
    next => exact .refl s
  next =>
    split
    next hc => exact State.devWrite_keepsIntr hc
    next => exact .refl s

theorem State.scrubGranule_keepsIntr (s : State) (gr : Nat) : keepsIntr s (s.scrubGranule gr) := by
  unfold State.scrubGranule
  dsimp only
  split
  next => exact .refl s
  next => exact (State.count_keepsIntr ..).after rfl
  next =>
    split
    next => exact .refl s
    next =>
      split
      next =>
        split
        next => exact ((State.count_keepsIntr ..).trans (State.hbmSummary_keepsIntr ..)).after rfl
        next => exact State.tell_keepsIntr ..
      next => exact (State.count_keepsIntr ..).after rfl

theorem State.scrub_keepsIntr (s : State) (k n : Nat) : keepsIntr s (s.scrub k n) := by
  unfold State.scrub
  split
  · exact .refl _
  · exact .foldl (fun t i => t.scrubGranule_keepsIntr _) _ s

theorem State.scrubWalk_keepsIntr (s : State) (p va : Nat) : keepsIntr s (s.scrubWalk p va) := by
  unfold State.scrubWalk
  dsimp only
  split
  · exact .refl _
  · exact .foldl (fun t k => t.scrub_keepsIntr k 8) _ s

/-- What follows the walks of a device read keeps what they made due. -/
theorem State.devScrub_intr {s : State} {p va n q : Nat} (hl : s.latent.isEmpty = false)
    (h : ((((s.scrubWalk p va).scrubWalk p ((va + n - 1) % 2 ^ 48)).har q).ctl.intr).isSome = true) :
    (((s.devScrub p va n).har q).ctl.intr).isSome = true := by
  unfold State.devScrub
  rw [if_neg (by simp [hl])]
  dsimp only
  split
  · exact (keepsIntr.foldl (fun t k => t.scrub_keepsIntr k 1) _ _).intr q h
  · exact h

theorem State.devScrub_keepsIntr (s : State) (p va n : Nat) : keepsIntr s (s.devScrub p va n) := by
  cases hl : s.latent.isEmpty
  · exact ⟨fun q hq => State.devScrub_intr hl (((s.scrubWalk_keepsIntr p va).trans (State.scrubWalk_keepsIntr ..)).intr q hq)⟩
  · unfold State.devScrub; rw [if_pos hl]; exact .refl s

theorem State.unspillOne_keepsIntr {s t : State} {d prio : Nat} (h : s.unspillOne d prio = some t) : keepsIntr s t := by
  unfold State.unspillOne at h
  split at h
  · cases h
  · split at h
    · obtain rfl := Option.some.inj h
      exact (s.devScrub_keepsIntr _ _ _).trans (.of_hs rfl)
    · cases h

theorem State.unspillN_keepsIntr (d prio : Nat) : ∀ (n : Nat) (s : State), keepsIntr s (s.unspillN d prio n)
  | 0, _ => .refl _
  | n + 1, s => by
    unfold State.unspillN
    split
    case h_1 t ht => exact (State.unspillOne_keepsIntr ht).trans (State.unspillN_keepsIntr d prio n t)
    case h_2 => exact .refl _

/-! What the device reads -/

theorem Table.mem_of_find {α : Type} {t : Table α} {k : Nat} {x : α} (h : t.find k = some x) : (k, x) ∈ t := by
  induction t with
  | nil => cases h
  | cons y t ih =>
    obtain ⟨j, z⟩ := y
    unfold Table.find at h
    split at h
    case isTrue hj => subst hj; obtain rfl := Option.some.inj h; exact .head _
    case isFalse =>
      split at h
      · cases h
      · exact .tail _ (ih h)

theorem State.consumes_eq_none {s : State} {k : Nat} (hq : s.quarantined k = false) (hr : ∀ kv ∈ s.hbm, k / 64 ∉ kv.2.recs)
    (hp : k / 64 ∉ s.poison) (hl : s.latent.getD (k / 64) false = false) : s.consumes k = none := by
  have hc : k / 64 ∉ (s.hbm.getD (s.hbmOf (k / 64)) {}).recs := by
    unfold Table.getD
    cases hf : s.hbm.find (s.hbmOf (k / 64)) with
    | none => exact List.not_mem_nil
    | some c => exact hr _ (Table.mem_of_find hf)
  unfold State.consumes
  simp [hq, hc, hp, hl]

end Sys2Proof.Machine
end

section

/-! The refutation of O49: a state in which the counter word of a corrected error is a table entry. -/

namespace Sys2Proof.Machine

open Sys2Proof.Safety

/-! What the device reads, where controllers hold records -/

theorem State.devWord_eq {s : State} {p va : Nat} {need : Need} {ks : List Nat} (hk : s.devKeys p va 8 need accRead = .ok ks)
    (hc : ∀ k ∈ ks, s.consumes k = none) :
    s.devWord p va need = .ok (BitVec.ofNat 64 (leNat (ks.map (memGet s.mem)))) := by
  have hf : (ks.findSome? fun k => (s.consumes k).map fun c => (k, c)) = none :=
    List.findSome?_eq_none_iff.mpr fun k h => by rw [hc k h]; rfl
  unfold State.devWord State.devRead
  rw [hk]
  dsimp only
  rw [hf]
  rfl

theorem State.devRead_isOk {s : State} {p va n : Nat} {need : Need} {f : Nat → Nat}
    (hx : ∀ i, i < n → s.xlateP p ((va + i) % 2 ^ 48) need accRead = .ok (f i) ∧ s.consumes (f i) = none) :
    (s.devRead p va n need).isOk = true := by
  have hk : s.devKeys p va n need accRead = .ok ((List.range n).map f) := by
    refine mapM_eq_ok_iff.mpr ?_
    rw [List.forall₂_map_right_iff, List.forall₂_same]
    exact fun i hi => (hx i (List.mem_range.mp hi)).1
  have hf : (((List.range n).map f).findSome? fun k => (s.consumes k).map fun c => (k, c)) = none := by
    refine List.findSome?_eq_none_iff.mpr fun k h => ?_
    obtain ⟨i, hi, rfl⟩ := List.mem_map.mp h
    rw [(hx i (List.mem_range.mp hi)).2]; rfl
  unfold State.devRead
  rw [hk]
  dsimp only
  rw [hf]
  rfl

/-- A message that finds room is an interrupt of the partition's supervisor. -/
theorem State.tell_intr {s u v : State} {d code rank : Nat} {subject detail iwr ird : Word}
    (hw : s.devWord (s.partOfDie d) (s.block d + 0x2FC0) needW = .ok iwr)
    (hr : s.devWord (s.partOfDie d) (s.block d + 0x2FC8) needW = .ok ird) (hroom : iwr - ird ≠ 64)
    (hu : s.devWrite (s.partOfDie d) (s.block d + 0x3000 + 64 * (iwr.toNat % 64)) (wordBytes
      [BitVec.ofNat 64 ((iwr.toNat + 1) % 2 ^ 32 * 2 ^ 32 + code * 2 ^ 16 + rank), subject, detail, s.mcc, 0, 0, 0, 0])
      needW = .ok u)
    (hv : u.devWrite (s.partOfDie d) (s.block d + 0x2FC0) (wordBytes [iwr + 1]) needW = .ok v)
    {q : Nat} (hq : q = (v.part (s.partOfDie d)).suprank.toNat ∧ (v.har q).running = true ∧ (v.har q).sp.cur = 0) :
    (((s.tell d code rank subject detail).har q).ctl.intr).isSome = true := by
  have h := v.raiseInt_intr (s.partOfDie d) code q (.inr hq)
  unfold State.tell
  dsimp only
  rw [hw, hr]
  dsimp only
  rw [if_neg hroom, hu]
  dsimp only
  rw [hv]
  dsimp only
  split
  · split <;> exact h
  · exact h

/-! One level of a walk -/

/-- The entry of a table that a walk of va reads with `fuel` levels left. -/
def walkEntry (va fuel tbl : Nat) : Nat :=
  let level := 3 - fuel
  tbl + 8 * (if level = 1 then field va 34 14 else if level = 2 then field va 25 9 else field va 16 9)

theorem State.walkFrom_table {s : State} {va fuel tbl : Nat} {e : Word} (he : s.pte (walkEntry va fuel tbl) = .ok e)
    (hk : pteKind s (3 - fuel) e = 0) (hb : wf e 1 1 = 1) :
    s.walkFrom va (fuel + 1) tbl = s.walkFrom va fuel (wf e 12 36 * 2 ^ 12) := by
  unfold walkEntry at he
  rw [State.walkFrom]
  dsimp only at he ⊢
  rw [he]
  dsimp only
  rw [if_neg (not_not.mpr hk), if_pos hb]

theorem State.walkFrom_leaf {s : State} {va fuel tbl : Nat} {e : Word} (he : s.pte (walkEntry va fuel tbl) = .ok e)
    (hk : pteKind s (3 - fuel) e = 0) (hb : wf e 1 1 ≠ 1) :
    s.walkFrom va (fuel + 1) tbl =
      .ok { va := va / 2 ^ leafBits (3 - fuel) * 2 ^ leafBits (3 - fuel), sz := leafBits (3 - fuel), entry := e } := by
  unfold walkEntry at he
  rw [State.walkFrom]
  dsimp only at he ⊢
  rw [he]
  dsimp only
  rw [if_neg (not_not.mpr hk), if_neg hb]

theorem State.walkKeysFrom_table {s : State} {va fuel tbl : Nat} {e : Word} (he : s.pte (walkEntry va fuel tbl) = .ok e)
    (hk : pteKind s (3 - fuel) e = 0) (hb : wf e 1 1 = 1) :
    s.walkKeysFrom va (fuel + 1) tbl = walkEntry va fuel tbl :: s.walkKeysFrom va fuel (wf e 12 36 * 2 ^ 12) := by
  unfold walkEntry at he ⊢
  rw [State.walkKeysFrom]
  dsimp only at he ⊢
  rw [he]
  dsimp only
  rw [if_pos (c := _ ∧ _) ⟨hk, hb⟩]

theorem State.walkKeysFrom_leaf {s : State} {va fuel tbl : Nat} {e : Word} (he : s.pte (walkEntry va fuel tbl) = .ok e)
    (hb : wf e 1 1 ≠ 1) : s.walkKeysFrom va (fuel + 1) tbl = [walkEntry va fuel tbl] := by
  unfold walkEntry at he ⊢
  rw [State.walkKeysFrom]
  dsimp only at he ⊢
  rw [he]
  dsimp only
  rw [if_neg (c := _ ∧ _) fun h => hb h.2]

theorem State.walk_eq {s : State} {p : Nat} (hroot : wf (s.part p).xlroot 0 1 ≠ 0) (va : Nat) :
    s.walk p va = s.walkFrom va 3 (wf (s.part p).xlroot 16 48 * 2 ^ 16) := if_neg hroot

theorem State.scrubWalk_eq {s : State} {p : Nat} (hl : s.latent.isEmpty = false)
    (hroot : wf (s.part p).xlroot 0 1 ≠ 0) (va : Nat) :
    s.scrubWalk p va = (s.walkKeysFrom va 3 (wf (s.part p).xlroot 16 48 * 2 ^ 16)).foldl (fun s k => s.scrub k 8) s := by
  unfold State.scrubWalk
  dsimp only
  rw [if_neg (not_or.mpr ⟨by simp [hl], hroot⟩)]

/-! The state -/

/-- A controller that can record no further granule, by records and frames that no memory of it has. -/
def fullHbm : Hbm := { recs := List.replicate 512 (2 ^ 42), quar := List.replicate 32 (2 ^ 32) }

/-- A ready record without an entry. -/
def plainReady (sq : Nat) (chip : Bool) : Ready :=
  { cont := ⟨0, 0, 0, 0⟩, launch := ⟨0, 0, 0, 0, 0, 0, 0, 0⟩, gid := none, u := 0, sq := sq, saved := false, chip := chip }

/-- Rank 0 runs the supervisor's node at U, and every other harness is idle. One record is ready on chip, and one is in the ring
at the offset 2^34 + 2^25. Space 0 goes through the table in the tower of rank 0: its entry 0 maps the first 16 GiB onto
themselves, its entry 1 leads to the table at 0x20000, whose entry 1 maps the ring's page. The scheduler block of die 0 stands
so that its counter TCE is that last entry: a corrected error of the tower makes it lead to a table at 0x40000. That granule
has an uncorrectable error, and no controller can record one. -/
def overlaid : State :=
  { State.reset with
    mem := memWrite (memWrite (memWrite [] 0x20008 (leBytes 8 0x200003D)) (2 ^ 61) (leBytes 8 0x3D))
      (2 ^ 61 + 8) (leBytes 8 0x20003)
    latent := [(0x1000, true), (2 ^ 55, false)]
    hbm := (List.range 8).map fun i => (i, fullHbm)
    hs := [(0, { ctl := { mode := .run, node := some placedNode } })]
    dies := [(0, { sched := { ready := [plainReady 0 true, plainReady 1 false], spbase := 0x402000000 }
                   cnt := Vector.replicate 9 0x40002 })]
    parts := [(0, { xlroot := 0x2000000000000001, gtbase := 0x15808 })] }

/-- The record that rank 1 takes has left its queue. -/
def overlaidLeft : State := overlaid.modSched 0 fun q => { q with ready := q.ready.filter fun x => x.sq != 0 }

/-- The corrected error has been counted. -/
def overlaidCounted : State := { overlaidLeft with latent := [(0x1000, true)] }.count 0 0

theorem overlaid_chooses : overlaid.chooser = some 1 ∧ overlaid.choose 1 = some (plainReady 0 true) := by decide +kernel

/-- A granule without a latent error is left alone. -/
theorem State.scrubGranule_of_find {s : State} {gr : Nat} (h : s.latent.find gr = none) : s.scrubGranule gr = s := by
  unfold State.scrubGranule
  rw [h]

/-- A correctable error is corrected and counted. -/
theorem State.scrubGranule_corrected {s : State} {gr : Nat} (h : s.latent.find gr = some false) :
    s.scrubGranule gr = { s with latent := s.latent.erase gr }.count (s.errDie (64 * gr)) (if isHbm (64 * gr) then 2 else 0) := by
  unfold State.scrubGranule
  rw [h]
  rfl

/-- An uncorrectable error that its controller cannot record is reported. -/
theorem State.scrubGranule_unrecorded {s : State} {gr : Nat} (h : s.latent.find gr = some true)
    (hq : s.quarantined (64 * gr) = false) (hm : isHbm (64 * gr) = true)
    (hfull : ¬((s.hbm.getD (s.hbmOf gr) {}).recs.length < 512 ∨ (s.hbm.getD (s.hbmOf gr) {}).quar.length < 32)) :
    s.scrubGranule gr = s.tell (s.errDie (64 * gr)) cMEM_ERROR 0 (BitVec.ofNat 64 (64 * gr)) 1 := by
  unfold State.scrubGranule
  rw [h]
  dsimp only
  rw [hq, if_neg Bool.false_ne_true, if_pos hm, if_neg hfull]

/-- The eight bytes of a table entry lie in one granule. -/
theorem State.scrub_entry {s : State} {k : Nat} (h : s.latent.isEmpty = false) (hk : (k + 7) / 64 = k / 64) :
    s.scrub k 8 = s.scrubGranule (k / 64) := by
  unfold State.scrub
  rw [if_neg (by simp [h]), show k + 8 - 1 = k + 7 from rfl, hk, Nat.sub_self]
  rfl

theorem overlaidLeft_latent : overlaidLeft.latent = [(0x1000, true), (2 ^ 55, false)] := rfl

theorem overlaidCounted_latent : overlaidCounted.latent = [(0x1000, true)] := by decide +kernel

/-- In both states the one granule of HBM with a latent error is that of 0x40000, and no controller's records or frames are of
memory. -/
theorem overlaid_consumes {s : State} (hs : s = overlaidLeft ∨ s = overlaidCounted) {k : Nat} (hk : k < 2 ^ 48)
    (hgr : k / 64 ≠ 0x1000) : s.consumes k = none := by
  have hhbm : s.hbm = (List.range 8).map fun i => (i, fullHbm) := by obtain rfl | rfl := hs <;> decide +kernel
  have hpoison : s.poison = [] := by obtain rfl | rfl := hs <;> decide +kernel
  have hlatent : s.latent.getD (k / 64) false = false := by
    have hne : k / 64 ≠ 2 ^ 55 := by omega
    obtain rfl | rfl := hs
    · rw [overlaidLeft_latent]
      rw [Table.getD, Table.find, if_neg hgr.symm, Table.find, if_neg hne.symm]
      simp [Table.find]
    · rw [overlaidCounted_latent]
      simp [Table.getD, Table.find, hgr.symm]
  have hin : ∀ kv ∈ s.hbm, kv.2 = fullHbm := by
    intro kv hkv
    rw [hhbm] at hkv
    obtain ⟨i, -, rfl⟩ := List.mem_map.mp hkv
    rfl
  refine State.consumes_eq_none ?_ (fun kv hkv hmem => ?_) (by rw [hpoison]; exact List.not_mem_nil) hlatent
  · unfold State.quarantined
    rw [Bool.and_eq_false_iff, List.any_eq_false]
    refine .inr fun kv hkv hmem => ?_
    rw [hin kv hkv, List.contains_iff_mem] at hmem
    have := List.eq_of_mem_replicate hmem
    omega
  · rw [hin kv hkv] at hmem
    have := List.eq_of_mem_replicate hmem
    omega

/-! The walks of the ring's slot -/

theorem overlaid_root {s : State} (hs : s = overlaidLeft ∨ s = overlaidCounted) :
    wf (s.part 0).xlroot 0 1 ≠ 0 ∧ wf (s.part 0).xlroot 16 48 * 2 ^ 16 = 2 ^ 61 := by
  obtain rfl | rfl := hs <;> decide +kernel

theorem overlaid_scrubWalk {s : State} (hs : s = overlaidLeft ∨ s = overlaidCounted) (va : Nat) :
    s.scrubWalk 0 va = (s.walkKeysFrom va 3 (2 ^ 61)).foldl (fun s k => s.scrub k 8) s := by
  have hl : s.latent.isEmpty = false := by obtain rfl | rfl := hs <;> decide +kernel
  rw [State.scrubWalk_eq hl (overlaid_root hs).1, (overlaid_root hs).2]

theorem overlaid_pte {s : State} (hs : s = overlaidLeft ∨ s = overlaidCounted) {k : Nat} (hk : k < 2 ^ 48)
    (hgr : k / 64 ≠ 0x1000) : s.pte k = .ok (BitVec.ofNat 64 (leNat (memRead s.mem k 8))) := by
  unfold State.pte
  rw [overlaid_consumes hs hk hgr]

theorem overlaidLeft_pte : overlaidLeft.pte (2 ^ 61 + 8) = .ok 0x20003 ∧ overlaidLeft.pte 0x20008 = .ok 0x200003D :=
  ⟨by decide +kernel, (overlaid_pte (.inl rfl) (by decide) (by decide)).trans (by decide +kernel)⟩

theorem overlaidLeft_walk {va : Nat} (h1 : walkEntry va 2 (2 ^ 61) = 2 ^ 61 + 8) (h2 : walkEntry va 1 0x20000 = 0x20008) :
    overlaidLeft.walk 0 va = .ok { va := va / 2 ^ 25 * 2 ^ 25, sz := 25, entry := 0x200003D } := by
  have htop : overlaidLeft.pte (walkEntry va 2 (2 ^ 61)) = .ok 0x20003 := h1 ▸ overlaidLeft_pte.1
  have hleaf : overlaidLeft.pte (walkEntry va 1 0x20000) = .ok 0x200003D := h2 ▸ overlaidLeft_pte.2
  calc overlaidLeft.walk 0 va = overlaidLeft.walkFrom va 3 (2 ^ 61) := by
        rw [State.walk_eq (overlaid_root (.inl rfl)).1, (overlaid_root (.inl rfl)).2]
    _ = overlaidLeft.walkFrom va 2 0x20000 := State.walkFrom_table htop (by decide) (by decide)
    _ = _ := State.walkFrom_leaf hleaf (by decide) (by decide)

theorem overlaidLeft_reads : overlaidLeft.ringReads 0 (plainReady 1 false) = true := by
  have hx : ∀ i, i < 32 → overlaidLeft.xlateP 0 ((0x402000000 + i) % 2 ^ 48) needR accRead = .ok (0x2000000 + i) ∧
      overlaidLeft.consumes (0x2000000 + i) = none := by
    intro i hi
    have hva : (0x402000000 + i) % 2 ^ 48 = 0x402000000 + i := by omega
    have hpage : (0x402000000 + i) / 2 ^ 25 * 2 ^ 25 = 0x402000000 := by omega
    have h1 : walkEntry (0x402000000 + i) 2 (2 ^ 61) = 2 ^ 61 + 8 := by simp [walkEntry, field]; omega
    have h2 : walkEntry (0x402000000 + i) 1 0x20000 = 0x20008 := by simp [walkEntry, field]; omega
    refine ⟨?_, overlaid_consumes (.inl rfl) (by omega) (by omega)⟩
    unfold State.xlateP
    rw [hva, overlaidLeft_walk h1 h2, hpage]
    dsimp only
    unfold useLeaf
    rw [if_pos (by decide +kernel)]
    unfold Leaf.pa
    dsimp only
    rw [Nat.add_sub_cancel_left]
    rfl
  exact State.devRead_isOk hx

/-- The walk of the slot's first byte meets the corrected error. -/
theorem overlaidLeft_scrubWalk : overlaidLeft.scrubWalk 0 0x402000000 = overlaidCounted := by
  have hkeys : overlaidLeft.walkKeysFrom 0x402000000 3 (2 ^ 61) = [2 ^ 61 + 8, 0x20008] :=
    (State.walkKeysFrom_table overlaidLeft_pte.1 (by decide) (by decide)).trans
      (congrArg _ (State.walkKeysFrom_leaf overlaidLeft_pte.2 (by decide)))
  have htop : overlaidLeft.scrubGranule ((2 ^ 61 + 8) / 64) = overlaidCounted :=
    (State.scrubGranule_corrected rfl).trans (by
      rw [show overlaidLeft.errDie (64 * ((2 ^ 61 + 8) / 64)) = 0 by decide, if_neg (by decide)]
      rfl)
  have hleaf : overlaidCounted.scrub 0x20008 8 = overlaidCounted :=
    (State.scrub_entry (by decide +kernel) (by decide)).trans (State.scrubGranule_of_find (by decide +kernel))
  calc overlaidLeft.scrubWalk 0 0x402000000
      = (overlaidLeft.walkKeysFrom 0x402000000 3 (2 ^ 61)).foldl (fun s k => s.scrub k 8) overlaidLeft :=
        overlaid_scrubWalk (.inl rfl) _
    _ = (overlaidLeft.scrub (2 ^ 61 + 8) 8).scrub 0x20008 8 := by rw [hkeys]; rfl
    _ = overlaidCounted := by
        rw [State.scrub_entry (k := 2 ^ 61 + 8) (by decide) (by decide), htop, hleaf]

/-- The walk of the slot's last byte goes through the counter, to the granule that no controller records. -/
theorem overlaidCounted_walkKeys :
    ∃ ks, overlaidCounted.walkKeysFrom 0x40200001F 3 (2 ^ 61) = (2 ^ 61 + 8) :: 0x20008 :: 0x40000 :: ks := by
  have htop : overlaidCounted.pte (2 ^ 61 + 8) = .ok 0x20003 := by decide +kernel
  have hcounter : overlaidCounted.pte 0x20008 = .ok 0x40003 :=
    (overlaid_pte (.inr rfl) (by decide) (by decide)).trans (by decide +kernel)
  refine ⟨_, (State.walkKeysFrom_table htop (by decide +kernel) (by decide)).trans (congrArg _
    ((State.walkKeysFrom_table hcounter (by decide +kernel) (by decide)).trans (congrArg _ rfl)))⟩

/-- Where the index of the message ring of die d stands. -/
def ringIndex (d : Nat) : Nat := 0x207C8 + 0x4000 * d

/-- The message of the error stands in the ring of die d. -/
def overlaidTold (d : Nat) : State :=
  overlaidCounted.writeKeys (List.range' (ringIndex d + 0x40) 64) (wordBytes
    [BitVec.ofNat 64 (2 ^ 32 + cMEM_ERROR * 2 ^ 16), 0x40000, 1, overlaidCounted.mcc, 0, 0, 0, 0])

theorem State.devWrite_of_devKeys {s : State} {p va : Nat} {bs : List Byte} {need : Need} {ks : List Nat}
    (h : s.devKeys p va bs.length need accWrite = .ok ks) : s.devWrite p va bs need = .ok (s.writeKeys ks bs) := by
  unfold State.devWrite
  rw [h]

theorem overlaidCounted_block :
    ∀ d, d < 4 → overlaidCounted.partOfDie d = 0 ∧ overlaidCounted.block d + 0x2FC0 = ringIndex d := by
  decide +kernel

theorem overlaidCounted_ring : ∀ d, d < 4 → ∀ va ∈ [ringIndex d, ringIndex d + 8],
    overlaidCounted.devKeys 0 va 8 needW accRead = .ok (List.range' va 8) ∧
      leNat ((List.range' va 8).map (memGet overlaidCounted.mem)) = 0 := by decide +kernel

/-- Both indices of the ring are zero. -/
theorem overlaidCounted_index {d va : Nat} (hd : d < 4) (hva : va ∈ [ringIndex d, ringIndex d + 8]) :
    overlaidCounted.devWord 0 va needW = .ok 0 := by
  obtain ⟨hk, hz⟩ := overlaidCounted_ring d hd va hva
  have hlt : ringIndex d ≤ va ∧ va ≤ ringIndex d + 8 := by
    rcases List.mem_pair.mp hva with rfl | rfl <;> omega
  refine (State.devWord_eq hk fun k hmem => ?_).trans (by rw [hz]; rfl)
  rw [List.mem_range'_1] at hmem
  unfold ringIndex at hlt
  exact overlaid_consumes (.inr rfl) (by omega) (by omega)

theorem overlaidCounted_writes : ∀ d, d < 4 →
    overlaidCounted.devKeys 0 (ringIndex d + 0x40) 64 needW accWrite = .ok (List.range' (ringIndex d + 0x40) 64) ∧
      (overlaidTold d).devKeys 0 (ringIndex d) 8 needW accWrite = .ok (List.range' (ringIndex d) 8) ∧
      (let v := (overlaidTold d).writeKeys (List.range' (ringIndex d) 8) (wordBytes [1])
       (v.part 0).suprank = 0 ∧ (v.har 0).running = true ∧ (v.har 0).sp.cur = 0) := by decide +kernel

theorem overlaidCounted_tell {d : Nat} (hd : d < 4) :
    (((overlaidCounted.tell d cMEM_ERROR 0 0x40000 1).har 0).ctl.intr).isSome = true := by
  obtain ⟨hpart, hblock⟩ := overlaidCounted_block d hd
  obtain ⟨hmsg, hidx, hsup, hrun, hcur⟩ := overlaidCounted_writes d hd
  have hird : overlaidCounted.block d + 0x2FC8 = ringIndex d + 8 := by omega
  have hslot : overlaidCounted.block d + 0x3000 + 64 * ((0 : Word).toNat % 64) = ringIndex d + 0x40 := by
    rw [show (0 : Word).toNat % 64 = 0 from rfl]; omega
  refine State.tell_intr (iwr := 0) (ird := 0) (u := overlaidTold d)
    (v := (overlaidTold d).writeKeys (List.range' (ringIndex d) 8) (wordBytes [1])) ?_ ?_ (by decide) ?_ ?_ ?_
  · rw [hpart, hblock]; exact overlaidCounted_index hd (.head _)
  · rw [hpart, hird]; exact overlaidCounted_index hd (.tail _ (.head _))
  · rw [hpart, hslot]; exact State.devWrite_of_devKeys hmsg
  · rw [hpart, hblock]; exact State.devWrite_of_devKeys hidx
  · rw [hpart, hsup]; exact ⟨rfl, hrun, hcur⟩

theorem overlaidCounted_scrubWalk : (((overlaidCounted.scrubWalk 0 0x40200001F).har 0).ctl.intr).isSome = true := by
  obtain ⟨ks, hks⟩ := overlaidCounted_walkKeys
  have hl : overlaidCounted.latent.isEmpty = false := by decide +kernel
  have htop : overlaidCounted.scrub (2 ^ 61 + 8) 8 = overlaidCounted :=
    (State.scrub_entry hl (by decide)).trans (State.scrubGranule_of_find (by decide +kernel))
  have hcounter : overlaidCounted.scrub 0x20008 8 = overlaidCounted :=
    (State.scrub_entry hl (by decide)).trans (State.scrubGranule_of_find (by decide +kernel))
  have htell : overlaidCounted.scrub 0x40000 8 = overlaidCounted.tell (overlaidCounted.errDie 0x40000) cMEM_ERROR 0 0x40000 1 := by
    have hfull : ∀ i, i < 8 → overlaidCounted.hbm.getD i {} = fullHbm := by decide +kernel
    have hctl : overlaidCounted.hbmOf 0x1000 < 8 := Nat.mod_lt _ (by decide)
    refine (State.scrub_entry hl (by decide)).trans
      (State.scrubGranule_unrecorded (by decide +kernel) (by decide +kernel) (by decide) ?_)
    rw [hfull _ hctl]
    decide +kernel
  have herr : overlaidCounted.errDie 0x40000 < 4 := by
    have hctl : overlaidCounted.hbmOf (0x40000 / 64) < 8 := Nat.mod_lt _ (by decide)
    unfold State.errDie
    rw [if_neg (by decide)]
    omega
  have hfold : overlaidCounted.scrubWalk 0 0x40200001F =
      ks.foldl (fun s k => s.scrub k 8) (overlaidCounted.tell (overlaidCounted.errDie 0x40000) cMEM_ERROR 0 0x40000 1) :=
    calc overlaidCounted.scrubWalk 0 0x40200001F
        = (overlaidCounted.walkKeysFrom 0x40200001F 3 (2 ^ 61)).foldl (fun s k => s.scrub k 8) overlaidCounted :=
          overlaid_scrubWalk (.inr rfl) _
      _ = ks.foldl (fun s k => s.scrub k 8) (((overlaidCounted.scrub (2 ^ 61 + 8) 8).scrub 0x20008 8).scrub 0x40000 8) := by
          rw [hks, List.foldl_cons, List.foldl_cons, List.foldl_cons]
      _ = _ := by rw [htop, hcounter, htell]
  rw [hfold]
  exact (keepsIntr.foldl (fun s k => s.scrub_keepsIntr k 8) ks _).intr 0 (overlaidCounted_tell herr)

/-! The node start -/

theorem overlaid_unspill : (((overlaidLeft.unspill 0 0).har 0).ctl.intr).isSome = true := by
  obtain ⟨t, ht, hintr⟩ : ∃ t, overlaidLeft.unspillOne 0 0 = some t ∧ ((t.har 0).ctl.intr).isSome = true := by
    have hold : (overlaidLeft.die 0).sched.ringOldest 0 = some (plainReady 1 false) := by decide +kernel
    have hat : (overlaidLeft.die 0).sched.ringAt 0 (plainReady 1 false).slot = 0x402000000 := by decide +kernel
    have hscrub : (((overlaidLeft.devScrub 0 0x402000000 32).har 0).ctl.intr).isSome = true := by
      refine State.devScrub_intr (by decide +kernel) ?_
      rw [overlaidLeft_scrubWalk]
      exact overlaidCounted_scrubWalk
    unfold State.unspillOne
    rw [hold]
    dsimp only
    rw [if_pos overlaidLeft_reads, hat]
    exact ⟨_, rfl, hscrub⟩
  have hn : (overlaidLeft.die 0).sched.chipCount 0 = 0 := by decide +kernel
  unfold State.unspill
  dsimp only
  rw [hn, if_pos (by decide)]
  unfold State.unspillN
  rw [ht]
  exact (State.unspillN_keepsIntr 0 0 255 t).intr 0 hintr

/-- The start of a node that is no replay leaves the other harnesses. -/
theorem State.har_startNode_other {s : State} {r q : Nat} {x : Ready} (hx : x.replay = false) (hq : q ≠ r) :
    (s.startNode r x).har q = s.har q := by
  unfold State.startNode
  dsimp only
  rw [hx, if_neg Bool.false_ne_true]
  show (s.hs.set r _).getD q {} = _
  exact Table.getD_set_other _ _ hq

theorem overlaid_nodeStart : ∃ t, exec .nodeStart overlaid = .next t ∧ ((t.har 0).ctl.intr).isSome = true := by
  obtain ⟨hchooser, hchoose⟩ := overlaid_chooses
  refine ⟨(overlaidLeft.unspill 0 0).startNode 1 (plainReady 0 true), ?_, ?_⟩
  · show execNodeStart overlaid = _
    unfold execNodeStart
    rw [hchooser]
    dsimp only
    unfold State.take
    rw [hchoose]
    rfl
  · rw [State.har_startNode_other rfl (by decide)]
    exact overlaid_unspill

/-- Refutes O49: with a latent error on the way of a spilled record that returns as another is taken, a node start can make an
interrupt due at the harness of the supervisor (17 R407, R411; 16 R404). -/
theorem not_schedulerEvents : ¬ Obligations.SchedulerEvents := by
  unfold Obligations.SchedulerEvents
  intro h
  obtain ⟨hchooser, hchoose⟩ := overlaid_chooses
  obtain ⟨t, ht, hintr⟩ := overlaid_nodeStart
  obtain ⟨hstarts, -⟩ := h overlaid [] (plainReady 0 true)
  obtain ⟨-, -, -, -, -, -, -, -, hnode⟩ := hstarts 1 hchooser
  obtain ⟨hplain, -⟩ := hnode hchoose (by decide)
  obtain ⟨u, hu, -, hother, -⟩ := hplain rfl
  obtain rfl : t = u := by injection ht.symm.trans hu
  rw [hother 0 (by decide)] at hintr
  exact absurd hintr (by decide)

end Sys2Proof.Machine
end

section

/-! What ends a node leaves unchanged, and what it leaves behind (01 R34, R39; 06 R187, R202). -/

namespace Sys2Proof.Machine

open Sys2Proof.Safety

/-! ### The scheduler of a die -/

@[simp] theorem State.die_modSched (s : State) (d : Nat) (f : Sched → Sched) :
    (s.modSched d f).die d = { s.die d with sched := f (s.die d).sched } := State.die_modDie ..

theorem State.die_modSched_other {s : State} {d e : Nat} (f : Sched → Sched) (he : e ≠ d) : (s.modSched d f).die e = s.die e :=
  State.die_modDie_other _ he

/-- A part of the scheduler that an update leaves on its die is as before on every die. -/
theorem State.sched_modSched {α : Type} {s : State} {d : Nat} {f : Sched → Sched} (g : Sched → α)
    (hf : ∀ q, g (f q) = g q) (e : Nat) : g ((s.modSched d f).die e).sched = g (s.die e).sched := by
  by_cases he : e = d
  · subst he; rw [State.die_modSched]; exact hf _
  · rw [State.die_modSched_other _ he]

/-! ### Nothing but the tables of entries -/

/-- Nothing differs but the tables of entries of the dies. -/
def onlyTabs (s t : State) : Prop :=
  t = { s with dies := t.dies } ∧ ∀ e, t.die e = { s.die e with sched := { (s.die e).sched with tab := (t.die e).sched.tab } }

theorem onlyTabs.refl (s : State) : onlyTabs s s := ⟨rfl, fun _ => rfl⟩

theorem State.modSched_onlyTabs (s : State) (d : Nat) {f : Sched → Sched} (hf : ∀ q, f q = { q with tab := (f q).tab }) :
    onlyTabs s (s.modSched d f) := by
  refine ⟨rfl, fun e => ?_⟩
  by_cases he : e = d
  · subst he; rw [State.die_modSched]; exact congrArg (fun q => { s.die e with sched := q }) (hf _)
  · rw [State.die_modSched_other _ he]

theorem onlyTabs.trans {s t u : State} (h : onlyTabs s t) (k : onlyTabs t u) : onlyTabs s u := by
  refine ⟨?_, fun e => ?_⟩
  · rw [k.1, h.1]
  · rw [k.2 e, h.2 e]

theorem onlyTabs.ready {s t : State} (h : onlyTabs s t) (e : Nat) : (t.die e).sched.ready = (s.die e).sched.ready := by rw [h.2 e]

theorem onlyTabs.late {s t : State} (h : onlyTabs s t) (e : Nat) : (t.die e).sched.late = (s.die e).sched.late := by rw [h.2 e]

theorem State.setEntry_onlyTabs (s : State) (d i : Nat) (st : EntSt) : onlyTabs s (s.setEntry d i st) := by
  unfold State.setEntry
  refine State.modSched_onlyTabs s d fun q => ?_
  split <;> rfl

theorem State.freeEntry_onlyTabs (s : State) (gid : Option Nat) : onlyTabs s (s.freeEntry gid) := by
  cases gid with
  | none => exact .refl s
  | some g => exact State.modSched_onlyTabs s (g / 4096) (f := fun q => { q with tab := q.tab.erase (g % 4096) }) fun _ => rfl

/-! ### A harness without its node -/

/-- Rank r runs no node any more, holds no grant and no record, and does not issue; its line is as before. No other harness, no
byte of memory and no scheduler differs. -/
structure leaves (r : Nat) (s t : State) : Prop where
  node : (t.har r).ctl.node = none
  recs : (t.har r).recs = []
  pwr : (t.har r).ctl.pwr = 0
  line : (t.har r).ctl.line = (s.har r).ctl.line
  active : (t.har r).seq.active = false
  other : ∀ q, q ≠ r → t.har q = s.har q
  mem : t.mem = s.mem
  sched : ∀ d, (t.die d).sched = (s.die d).sched

theorem State.returnPower_sched (s : State) (r d : Nat) : ((s.returnPower r).die d).sched = (s.die d).sched := by
  unfold State.returnPower
  dsimp only
  by_cases hd : d = dieOf r
  · subst hd; rw [State.die_modDie]; rfl
  · rw [State.die_modDie_other _ hd]; rfl

theorem State.returnPower_har (s : State) (r : Nat) :
    (s.returnPower r).har r = { s.har r with ctl := { (s.har r).ctl with pwr := 0 } } := by
  unfold State.returnPower
  rw [State.modDie_eq, State.har_setDie, State.modCtl_eq, State.har_setHar]

theorem State.returnPower_har_other {s : State} {r q : Nat} (hq : q ≠ r) : (s.returnPower r).har q = s.har q := by
  unfold State.returnPower
  rw [State.modDie_eq, State.har_setDie, State.modCtl_eq, State.har_setHar_other _ hq]

theorem leaves.modCtl {s t : State} {r : Nat} (h : leaves r s t) {f : Ctl → Ctl}
    (hf : ∀ c, (f c).node = c.node ∧ (f c).pwr = c.pwr ∧ (f c).line = c.line) : leaves r s (t.modCtl r f) where
  node := by rw [State.modCtl_eq, State.har_setHar]; exact (hf _).1.trans h.node
  recs := by rw [State.modCtl_eq, State.har_setHar]; exact h.recs
  pwr := by rw [State.modCtl_eq, State.har_setHar]; exact (hf _).2.1.trans h.pwr
  line := by rw [State.modCtl_eq, State.har_setHar]; exact (hf _).2.2.trans h.line
  active := by rw [State.modCtl_eq, State.har_setHar]; exact h.active
  other q hq := (State.har_setHar_other _ hq).trans (h.other q hq)
  mem := h.mem
  sched := h.sched

theorem leaves.fellIdle {s t : State} {r : Nat} (h : leaves r s t) : leaves r s (t.fellIdle r) := by
  unfold State.fellIdle
  dsimp only
  split
  · exact h.modCtl fun _ => ⟨rfl, rfl, rfl⟩
  · split
    · exact h.modCtl fun _ => ⟨rfl, rfl, rfl⟩
    · exact h

theorem State.leaveNode_leaves (s : State) (r : Nat) : leaves r s (s.leaveNode r) := by
  unfold State.leaveNode
  refine leaves.fellIdle ⟨?_, ?_, ?_, ?_, ?_, fun q hq => ?_, rfl, s.returnPower_sched r⟩
  case refine_6 => rw [State.har_modHar_other _ hq, State.returnPower_har_other hq]
  all_goals rw [State.har_modHar, State.returnPower_har]

/-! ### A record that finds room -/

theorem State.devScrub_of_no_latent {s : State} (hl : s.latent = []) (p va n : Nat) : s.devScrub p va n = s := by
  unfold State.devScrub
  rw [if_pos (by rw [hl]; rfl)]

theorem State.addReady_of_room {s : State} {d : Nat} {x : Ready} (hchip : (s.die d).sched.chipCount x.cont.prio < 256)
    (hring : (s.die d).sched.ringCount x.cont.prio = 0) :
    s.addReady d x = s.modSched d fun q => { q with ready := q.ready ++ [{ x with chip := true }] } := by
  unfold State.addReady
  dsimp only
  rw [if_pos ⟨hchip, hring⟩]
  dsimp only
  rw [if_pos hring]

theorem State.room_of_chip {s : State} {d prio : Nat} (hchip : (s.die d).sched.chipCount prio < 256)
    (hring : (s.die d).sched.ringCount prio = 0) : s.room d prio = true := by
  unfold State.room
  dsimp only
  rw [if_pos (by simp [hchip, hring])]

/-- The state in which a record has its entry and its number, and is about to enter the queue of die d. -/
def State.placed (s : State) (d : Nat) (gid : Option Nat) : State :=
  let s := s.modSched d fun q => { q with sq := q.sq + 1 }
  match gid with
  | some g => s.setEntry (g / 4096) (g % 4096) .ready
  | none => s

theorem State.placed_queues (s : State) (d : Nat) (gid : Option Nat) :
    s.placed d gid = { s with dies := (s.placed d gid).dies } ∧
      ∀ e, ((s.placed d gid).die e).sched.ready = (s.die e).sched.ready ∧
        ((s.placed d gid).die e).sched.late = (s.die e).sched.late := by
  let u := s.modSched d fun q => { q with sq := q.sq + 1 }
  have hu : onlyTabs u (s.placed d gid) := by
    unfold State.placed
    cases gid with
    | none => exact .refl u
    | some g => exact u.setEntry_onlyTabs ..
  refine ⟨hu.1, fun e => ⟨?_, ?_⟩⟩
  · rw [hu.ready]; exact State.sched_modSched (f := fun q => { q with sq := q.sq + 1 }) (·.ready) (fun _ => rfl) e
  · rw [hu.late]; exact State.sched_modSched (f := fun q => { q with sq := q.sq + 1 }) (·.late) (fun _ => rfl) e

/-- A record that passes its checks and finds room on chip is the last of its queue. -/
theorem State.enqueue_room {s : State} {d : Nat} {c : Cont} {gid : Option Nat} {saved replay : Bool} {w : Waiter}
    {held : Table (List (Nat × Cont))} {l : Packet} (hl : s.latent = []) (hchk : s.checkLaunch (s.partOfDie d) c = .ok l)
    (hlate : ∀ x ∈ (s.die (s.queueDie d (s.partOfDie d) c)).sched.late, x.1.cont.prio ≠ c.prio)
    (hchip : (s.die (s.queueDie d (s.partOfDie d) c)).sched.chipCount c.prio < 256)
    (hring : (s.die (s.queueDie d (s.partOfDie d) c)).sched.ringCount c.prio = 0) :
    ∃ t x, s.enqueue d c gid saved replay w held = (t, cOK) ∧ t = { s with dies := t.dies } ∧
      (∀ e, (t.die e).sched.late = (s.die e).sched.late) ∧
      (t.die (s.queueDie d (s.partOfDie d) c)).sched.ready = (s.die (s.queueDie d (s.partOfDie d) c)).sched.ready ++ [x] ∧
      x = { cont := c, launch := l, gid := gid, u := s.mcc.toNat, sq := x.sq, saved := saved, replay := replay, held := held } := by
  let q := s.queueDie d (s.partOfDie d) c
  let x : Ready := { cont := c, launch := l, gid := gid, u := s.mcc.toNat, sq := (s.placeOf d c gid (saved || replay) w).2
                     saved := saved, replay := replay, held := held }
  obtain ⟨honly, hq⟩ := s.placed_queues q gid
  have hchip' : ((s.placed q gid).die q).sched.chipCount c.prio < 256 := by unfold Sched.chipCount; rw [(hq q).1]; exact hchip
  have hring' : ((s.placed q gid).die q).sched.ringCount c.prio = 0 := by unfold Sched.ringCount; rw [(hq q).1]; exact hring
  have hnone : ((s.placed q gid).die q).sched.late.any (fun x => x.1.cont.prio == c.prio) = false := by
    rw [(hq q).2, List.any_eq_false]
    exact fun y hy => by simpa using hlate y hy
  refine ⟨(s.placed q gid).modSched q fun y => { y with ready := y.ready ++ [x] }, x, ?_, ?_, fun e => ?_, ?_, rfl⟩
  · unfold State.enqueue
    dsimp only
    rw [s.devScrub_of_no_latent hl, hchk]
    dsimp only
    have hroom : (!(((s.placed q gid).die q).sched.late.any fun x => x.1.cont.prio == c.prio) &&
        (s.placed q gid).room q c.prio) = true := by rw [hnone, State.room_of_chip hchip' hring']; rfl
    exact (if_pos hroom).trans (congrArg (·, cOK) (State.addReady_of_room (x := x) hchip' hring'))
  · let dies := ((s.placed q gid).modSched q fun y => { y with ready := y.ready ++ [x] }).dies
    exact congrArg (fun u : State => { u with dies := dies }) honly
  · exact (State.sched_modSched (f := fun y => { y with ready := y.ready ++ [x] }) (·.late) (fun _ => rfl) e).trans (hq e).2
  · rw [State.die_modSched, (hq q).1]

end Sys2Proof.Machine
end

section

/-! YIELD (06 R187, R201; 01 R39, R40). -/

namespace Sys2Proof.Machine

open Sys2Proof.Safety

/-! ### What does not look at harnesses, dies and gangs -/

/-- Nothing differs but harnesses, dies and gangs. -/
def onlyUnits (s t : State) : Prop := t = { s with hs := t.hs, dies := t.dies, gangs := t.gangs }

namespace onlyUnits

theorem refl (s : State) : onlyUnits s s := rfl

theorem trans {s t u : State} (h : onlyUnits s t) (k : onlyUnits t u) : onlyUnits s u := by
  unfold onlyUnits at *
  rw [k, h]

theorem checkLaunch {s t : State} (h : onlyUnits s t) (p : Nat) (c : Cont) : t.checkLaunch p c = s.checkLaunch p c := by
  rw [h]; rfl

theorem queueDie {s t : State} (h : onlyUnits s t) (d p : Nat) (c : Cont) : t.queueDie d p c = s.queueDie d p c := by
  rw [h]; rfl

theorem partOfDie {s t : State} (h : onlyUnits s t) (d : Nat) : t.partOfDie d = s.partOfDie d := by rw [h]; rfl

theorem nDies {s t : State} (h : onlyUnits s t) : t.nDies = s.nDies := by rw [h]; rfl

theorem mem {s t : State} (h : onlyUnits s t) : t.mem = s.mem := by rw [h]

/-- What waits for its enqueue waits as before. -/
theorem waits {s t : State} (h : onlyUnits s t) (hl : ∀ d, (t.die d).sched.late = (s.die d).sched.late) (w : Waiter) :
    t.waits w = s.waits w := by
  unfold State.waits
  rw [h.nDies]
  simp only [hl]

end onlyUnits

/-! ### The save -/

/-- The harness of rank r as its context has been saved: its line is low, and it holds no grant and no record. -/
def State.suspended (s : State) (r : Nat) (n : Node) : State :=
  (s.returnPower r).modHar r fun h =>
    { h with recs := [], ctl := { h.ctl with line := false, node := some { n with ending := 1 } } }

theorem State.suspended_onlyUnits (s : State) (r : Nat) (n : Node) : onlyUnits s (s.suspended r n) := rfl

theorem State.suspended_har (s : State) (r : Nat) (n : Node) : (s.suspended r n).har r =
    { s.har r with recs := [], ctl := { (s.har r).ctl with pwr := 0, line := false, node := some { n with ending := 1 } } } := by
  unfold State.suspended
  rw [State.har_modHar, State.returnPower_har]

theorem State.gangOf_eq_none {s : State} {r : Nat} {n : Node} (hn : (s.har r).ctl.node = some n) (hg : n.gang = none) :
    s.gangOf r = none := by
  unfold State.gangOf
  rw [hn]
  dsimp only
  rw [hg]
  rfl

theorem State.heldOf_alone {s : State} {r : Nat} (hg : s.gangOf r = none) (n : Node) :
    s.heldOf r n = if n.held = [] then [] else [(r, n.held)] := by
  unfold State.heldOf
  rw [hg]
  cases n.held <;> rfl

theorem State.leaveGang_alone {s : State} {r : Nat} (hg : s.gangOf r = none) : s.leaveGang r = (s, true) := by
  unfold State.leaveGang
  rw [hg]

theorem State.keepHeld_alone {s : State} {r : Nat} {n : Node} (hg : n.gang = none) : s.keepHeld r n = s := by
  unfold State.keepHeld
  rw [hg]

theorem State.saved_alone {s : State} {r : Nat} {n : Node} (hg : n.gang = none) :
    s.saved r n = ((s.suspended r n).enqueue (dieOf r) n.cont n.gid true false (.yield r)
      (if n.held = [] then [] else [(r, n.held)])).1 := by
  have hnode : ((s.suspended r n).har r).ctl.node = some { n with ending := 1 } := by rw [State.suspended_har]
  have hgang : (s.suspended r n).gangOf r = none := State.gangOf_eq_none hnode hg
  show (let s := s.suspended r n
        let held := s.heldOf r n
        let (s, last) := (s.keepHeld r n).leaveGang r
        if last then (s.enqueue (dieOf r) n.cont n.gid true false (.yield r) held).1 else s) = _
  dsimp only
  rw [State.keepHeld_alone hg, State.leaveGang_alone hgang, State.heldOf_alone hgang]
  rfl

/-- A node that is alone is queued again as saved. -/
theorem State.saved_room {s : State} {r : Nat} {n : Node} {l : Packet} (hg : n.gang = none) (hl : s.latent = [])
    (hchk : s.checkLaunch (s.partOf r) n.cont = .ok l)
    (hlate : ∀ x ∈ (s.die (s.queueDie (dieOf r) (s.partOf r) n.cont)).sched.late, x.1.cont.prio ≠ n.cont.prio)
    (hchip : (s.die (s.queueDie (dieOf r) (s.partOf r) n.cont)).sched.chipCount n.cont.prio < 256)
    (hring : (s.die (s.queueDie (dieOf r) (s.partOf r) n.cont)).sched.ringCount n.cont.prio = 0) :
    onlyUnits s (s.saved r n) ∧ (∀ e, ((s.saved r n).die e).sched.late = (s.die e).sched.late) ∧
      (∀ q, q ≠ r → (s.saved r n).har q = s.har q) ∧ ((s.saved r n).har r).ctl.line = false ∧
      ∃ x, ((s.saved r n).die (s.queueDie (dieOf r) (s.partOf r) n.cont)).sched.ready =
          (s.die (s.queueDie (dieOf r) (s.partOf r) n.cont)).sched.ready ++ [x] ∧
        x = { cont := n.cont, launch := l, gid := n.gid, u := s.mcc.toNat, sq := x.sq, saved := true, replay := false
              held := if n.held = [] then [] else [(r, n.held)] } := by
  let u := s.suspended r n
  have hu : onlyUnits s u := s.suspended_onlyUnits r n
  have hsched : ∀ e, (u.die e).sched = (s.die e).sched := s.returnPower_sched r
  have hq : u.queueDie (dieOf r) (u.partOfDie (dieOf r)) n.cont = s.queueDie (dieOf r) (s.partOf r) n.cont := by
    rw [hu.queueDie, hu.partOfDie]; rfl
  obtain ⟨t, x, ht, honly, hlates, hready, hx⟩ := State.enqueue_room (s := u) (d := dieOf r) (c := n.cont) (gid := n.gid)
    (saved := true) (replay := false) (w := .yield r) (held := if n.held = [] then [] else [(r, n.held)]) (l := l) hl
    (by rw [hu.partOfDie, hu.checkLaunch]; exact hchk) (by rw [hq, hsched]; exact hlate) (by rw [hq, hsched]; exact hchip)
    (by rw [hq, hsched]; exact hring)
  have hs : s.saved r n = t := by rw [State.saved_alone hg, ht]
  have hhar : ∀ q, t.har q = u.har q := fun q => by rw [honly]; rfl
  rw [hq, hsched] at hready
  rw [hs]
  refine ⟨hu.trans ?_, fun e => ?_, fun q hne => ?_, ?_, x, ?_, hx⟩
  · unfold onlyUnits; rw [honly]
  · rw [hlates, hsched]
  · rw [hhar]
    exact (State.har_modHar_other _ hne).trans (State.returnPower_har_other hne)
  · rw [hhar, State.suspended_har]
  · exact hready

/-! ### Bytes that the device writes -/

theorem State.reachScrub_of_no_latent {s : State} (hl : s.latent = []) (p va n : Nat) : s.reachScrub p va n = s := by
  unfold State.reachScrub
  rw [if_pos (by rw [hl]; rfl)]

theorem State.memGet_writeKeys {s : State} {ks : List Nat} {bs : List Byte} (hm : memWf s.mem = true)
    (hq : ∀ k ∈ ks, s.quarantined k = false) : memGet (s.writeKeys ks bs).mem = putPairs (memGet s.mem) (ks.zip bs) :=
  State.foldl_write_runs hm fun _ hx => hq _ (List.of_mem_zip hx).1

/-- Each key holds its byte after the write, and every other key what it held. -/
theorem State.writeKeys_bytes {s : State} {ks : List Nat} {bs : List Byte} (hm : memWf s.mem = true)
    (hq : ∀ k ∈ ks, s.quarantined k = false) (hks : ks.Nodup) (hlen : ks.length = bs.length) :
    ks.map (memGet (s.writeKeys ks bs).mem) = bs ∧ ∀ a, a ∉ ks → memGet (s.writeKeys ks bs).mem a = memGet s.mem a := by
  rw [State.memGet_writeKeys hm hq]
  exact ⟨map_putPairs_zip hks hlen _, fun a ha => putPairs_other fun x hx h => ha (h ▸ (List.of_mem_zip hx).1)⟩

theorem State.devStore_of_devKeys {s : State} {p va : Nat} {bs : List Byte} {need : Need} {ks : List Nat} (hl : s.latent = [])
    (h : s.devKeys p va bs.length need accWrite = .ok ks) : s.devStore p va bs need = .ok (s.writeKeys ks bs) := by
  unfold State.devStore
  rw [State.reachScrub_of_no_latent hl]
  exact State.devWrite_of_devKeys h

/-! ### The branches of YIELD -/

section
variable {s : State} {n : Node}

theorem execYield_idle (hs : s.inSlot = false) (hn : (s.har s.cur).ctl.node = none) :
    execYield s = .next (if (s.har s.cur).quiesced && (s.har s.cur).seq.sbClear then s.modSeq s.cur Seq.advance else s.stall) := by
  unfold execYield
  dsimp only
  rw [hs, if_neg Bool.false_ne_true, hn]

theorem execYield_stall (hs : s.inSlot = false) (hn : (s.har s.cur).ctl.node = some n) (he : n.ending = 0)
    (h : (s.har s.cur).ctl.abort.isSome = true ∨
      (s.har s.cur).seq.wait.stage = 0 ∧ ¬((s.har s.cur).quiesced = true ∧ (s.har s.cur).seq.sbClear = true)) :
    execYield s = .next s.stall := by
  unfold execYield
  dsimp only
  rw [hs, if_neg Bool.false_ne_true, hn]
  dsimp only
  split
  · rfl
  · rw [if_neg (by omega)]
    next ha =>
      rw [if_pos ((h.resolve_left ha).imp id fun hq => by rw [← Bool.and_eq_true, Bool.not_eq_true] at hq; rw [hq]; rfl)]

/-- The node waits for nothing, and no other instruction is in progress. -/
structure yields (s : State) (n : Node) : Prop where
  slot : s.inSlot = false
  node : (s.har s.cur).ctl.node = some n
  ending : n.ending = 0
  abort : (s.har s.cur).ctl.abort = none
  quiet : (s.har s.cur).quiesced = true ∧ (s.har s.cur).seq.sbClear = true

theorem execYield_low (h : yields s n) (hw : (s.har s.cur).seq.wait.stage = 0) (hline : (s.har s.cur).ctl.line = false) :
    execYield s = .next (s.yieldOn s.cur) := by
  unfold execYield
  dsimp only
  rw [h.slot, if_neg Bool.false_ne_true, h.node]
  dsimp only
  rw [h.abort, h.quiet.1, h.quiet.2, hline, if_neg (by decide), if_neg (by rw [h.ending]; decide), if_neg (by simp),
    if_pos ⟨hw, rfl⟩]

theorem execYield_high (h : yields s n) (hline : (s.har s.cur).ctl.line = true) :
    execYield s = .next (match s.gangOf s.cur with
      | some g => s.yieldGang s.cur n g
      | none => s.saveNode s.cur n) := by
  unfold execYield
  dsimp only
  rw [h.slot, if_neg Bool.false_ne_true, h.node]
  dsimp only
  rw [h.abort, h.quiet.1, h.quiet.2, hline, if_neg (by decide), if_neg (by rw [h.ending]; decide), if_neg (by simp),
    if_neg (by simp)]
  cases s.gangOf s.cur <;> rfl

end

/-! ### Where they lead -/

theorem State.yieldOn_har {s : State} {r : Nat} {n : Node} (hn : (s.har r).ctl.node = some n) : (s.yieldOn r).har r =
    { s.har r with seq := (s.har r).seq.advance, ctl := { (s.har r).ctl with node := some { n with count := 0 } } } := by
  unfold State.yieldOn State.modNode
  rw [State.modSeq_eq, State.har_setHar, State.modCtl_eq, State.har_setHar, hn]
  rfl

theorem State.yieldOn_onlyHar (s : State) (r : Nat) : onlyHar r s (s.yieldOn r) := by
  unfold State.yieldOn State.modNode State.modCtl State.modSeq
  exact onlyHar_trans (onlyHar_modHar ..) (onlyHar_modHar ..)

theorem State.yieldWait_har (s : State) :
    (s.yieldWait s.cur).har s.cur = { s.har s.cur with
      seq := { (s.har s.cur).seq with stalled := true, wait := { stage := 1 } } } := by
  unfold State.yieldWait State.stall
  rw [State.modSeq_modSeq, State.modSeq_eq, State.har_setHar]

theorem State.yieldWait_onlySeq (s : State) : onlySeq s.cur s (s.yieldWait s.cur) := by
  unfold State.yieldWait State.stall
  rw [State.modSeq_modSeq]
  exact onlySeq_modSeq ..

theorem State.saveNode_wait {s : State} {n : Node} (h : s.sendsGone s.cur = false ∨ (s.har s.cur).arrivalsDone = false) :
    s.saveNode s.cur n = s.yieldWait s.cur := by
  unfold State.saveNode
  dsimp only
  rw [if_pos]
  rcases h with h | h <;> simp [h]

theorem State.saveNode_saved {s u : State} {r : Nat} {n : Node} (hs : s.sendsGone r = true) (ha : (s.har r).arrivalsDone = true)
    (hu : s.devStore (s.partOf r) (saveAt n.cont.fp) ((s.har r).saveBytes ((s.har r).seq.pc + 4)) needW = .ok u)
    (hw : (u.saved r n).waits (.yield r) = false) : s.saveNode r n = (u.saved r n).leaveNode r := by
  unfold State.saveNode
  dsimp only
  rw [hs, ha, if_neg (by decide), hu]
  dsimp only
  rw [hw, if_neg Bool.false_ne_true]

/-! ### In a gang -/

theorem State.yieldGang_ended {s : State} {r : Nat} {n : Node} {g : Gang} (hg : g.saving = false)
    (hl : g.live.length < g.members.length) :
    s.yieldGang r n g = (s.modHar r fun h => { h with ctl := { h.ctl with line := false } }).yieldOn r := by
  unfold State.yieldGang
  rw [if_pos ⟨hl, by rw [hg]; rfl⟩]

/-- Those at their YIELD, with rank r. -/
def Gang.atYieldWith (g : Gang) (r : Nat) : List Nat := if g.atYield.contains r then g.atYield else g.atYield ++ [r]

theorem Gang.mem_atYieldWith {g : Gang} {r m : Nat} : m ∈ g.atYieldWith r ↔ m ∈ g.atYield ∨ m = r := by
  unfold Gang.atYieldWith
  split
  case isTrue h => exact ⟨.inl, fun hm => hm.elim (·) fun hr => hr ▸ List.contains_iff_mem.mp h⟩
  case isFalse => simp

theorem State.yieldGang_waits {s : State} {r : Nat} {n : Node} {g : Gang} (hg : g.saving = false)
    (hl : g.members.length ≤ g.live.length) (hm : ∃ m ∈ g.live, m ≠ r ∧ m ∉ g.atYield) :
    s.yieldGang r n g = (s.modGang g.id fun x => { x with atYield := g.atYieldWith r, saving := false }).yieldWait r := by
  have hall : (g.live.all (g.atYieldWith r).contains) = false := by
    obtain ⟨m, hm, hr, hy⟩ := hm
    refine List.all_eq_false.mpr ⟨m, hm, fun hc => ?_⟩
    exact (Gang.mem_atYieldWith.mp (List.contains_iff_mem.mp hc)).elim hy hr
  unfold State.yieldGang
  rw [if_neg fun h => absurd h.1 (by omega)]
  show (let all := g.saving || g.live.all (g.atYieldWith r).contains
        let s := s.modGang g.id fun x => { x with atYield := g.atYieldWith r, saving := all }
        if all then s.saveNode r n else s.yieldWait r) = _
  dsimp only
  rw [hg, hall]
  rfl

theorem State.gang_modGang {s : State} {id : Nat} {f : Gang → Gang} (hf : ∀ g, (f g).id = g.id) :
    (s.modGang id f).gang id = (s.gang id).map f := by
  unfold State.gang State.modGang
  dsimp only
  have hid : ((fun g : Gang => g.id == id) ∘ fun g => if g.id = id then f g else g) = fun g => g.id == id := by
    funext g
    dsimp only [Function.comp]
    split
    · rw [hf]
    · rfl
  rw [List.find?_map, hid]
  cases h : s.gangs.find? fun g => g.id == id with
  | none => rfl
  | some g => exact congrArg some (if_pos (by simpa using List.find?_some h))

/-! ### The clauses of the statement -/

/-- Rank r has been left without a node. -/
def gone (r : Nat) (t : State) : Prop :=
  (t.har r).ctl.node = none ∧ (t.har r).recs = [] ∧ (t.har r).ctl.pwr = 0 ∧ (t.har r).ctl.line = false ∧
    (t.har r).seq.active = false

theorem leaves.gone {r : Nat} {s t : State} (h : leaves r s t) (hl : (s.har r).ctl.line = false) : gone r t :=
  ⟨h.node, h.recs, h.pwr, h.line.trans hl, h.active⟩

section
variable {s : State} {n : Node}

theorem yield_saves (h : yields s n) (hline : (s.har s.cur).ctl.line = true) (hg : n.gang = none) (hs : s.sendsGone s.cur = true)
    (ha : (s.har s.cur).arrivalsDone = true) (hl : s.latent = []) (hm : memOk s) (hw : s.waits (.yield s.cur) = false)
    {ks : List Nat} {l : Packet}
    (hks : s.devKeys (s.partOf s.cur) (saveAt n.cont.fp) ((s.har s.cur).saveBytes ((s.har s.cur).seq.pc + 4)).length needW
      accWrite = .ok ks)
    (hnd : ks.Nodup) (hq : ∀ k ∈ ks, s.quarantined k = false)
    (hchk : ∀ u,
      s.devWrite (s.partOf s.cur) (saveAt n.cont.fp) ((s.har s.cur).saveBytes ((s.har s.cur).seq.pc + 4)) needW = .ok u →
      u.checkLaunch (s.partOf s.cur) n.cont = .ok l)
    (hlate : ∀ x ∈ (s.die (s.queueDie (dieOf s.cur) (s.partOf s.cur) n.cont)).sched.late, x.1.cont.prio ≠ n.cont.prio)
    (hchip : (s.die (s.queueDie (dieOf s.cur) (s.partOf s.cur) n.cont)).sched.chipCount n.cont.prio < 256)
    (hring : (s.die (s.queueDie (dieOf s.cur) (s.partOf s.cur) n.cont)).sched.ringCount n.cont.prio = 0) :
    ∃ t x, execYield s = .next t ∧ gone s.cur t ∧
      ks.map (memGet t.mem) = (s.har s.cur).saveBytes ((s.har s.cur).seq.pc + 4) ∧
      (∀ a, a ∉ ks → memGet t.mem a = memGet s.mem a) ∧ (∀ k, k ≠ s.cur → t.har k = s.har k) ∧
      (t.die (s.queueDie (dieOf s.cur) (s.partOf s.cur) n.cont)).sched.ready =
        (s.die (s.queueDie (dieOf s.cur) (s.partOf s.cur) n.cont)).sched.ready ++ [x] ∧ x.cont = n.cont ∧ x.launch = l ∧
      x.gid = n.gid ∧ x.saved = true ∧ x.replay = false ∧ x.chip = true ∧ x.u = s.mcc.toNat ∧
      x.held = if n.held = [] then [] else [(s.cur, n.held)] := by
  let bytes := (s.har s.cur).saveBytes ((s.har s.cur).seq.pc + 4)
  let u := s.writeKeys ks bytes
  have hu : wrote s u := s.writeKeys_wrote ks bytes
  have hpart : ∀ d, u.partOfDie d = s.partOfDie d := fun d => by rw [hu.only]; rfl
  have hqd : u.queueDie (dieOf s.cur) (u.partOf s.cur) n.cont = s.queueDie (dieOf s.cur) (s.partOf s.cur) n.cont := by
    rw [hu.only]; rfl
  have hdie : ∀ d, u.die d = s.die d := fun d => by rw [hu.only]; rfl
  have hmcc : u.mcc = s.mcc := by rw [hu.only]
  obtain ⟨honly, hlates, hother, hlow, x, hready, hx⟩ := State.saved_room (s := u) (r := s.cur) (n := n) (l := l) hg
    (hu.latent hl)
    ((congrArg (u.checkLaunch · n.cont) (hpart _)).trans (hchk u (State.devWrite_of_devKeys hks)))
    (by rw [hqd, hdie]; exact hlate) (by rw [hqd, hdie]; exact hchip) (by rw [hqd, hdie]; exact hring)
  rw [hqd, hdie] at hready
  have hwait : (u.saved s.cur n).waits (.yield s.cur) = false := by
    rw [honly.waits hlates, ← hw]
    unfold State.waits
    rw [show u.nDies = s.nDies by rw [hu.only]; rfl]
    simp only [hdie]
  have hleave := (u.saved s.cur n).leaveNode_leaves s.cur
  have hexec : execYield s = .next ((u.saved s.cur n).leaveNode s.cur) := by
    rw [execYield_high h hline, State.gangOf_eq_none h.node hg]
    exact congrArg _ (State.saveNode_saved hs ha (State.devStore_of_devKeys hl hks) hwait)
  have hmem : ((u.saved s.cur n).leaveNode s.cur).mem = u.mem := hleave.mem.trans honly.mem
  obtain ⟨hbytes, hrest⟩ := State.writeKeys_bytes hm hq hnd ((length_of_mapM_ok hks).trans List.length_range)
  refine ⟨_, x, hexec, hleave.gone hlow, ?_, ?_, fun k hk => ?_, ?_, ?_⟩
  · rw [hmem]; exact hbytes
  · rw [hmem]; exact hrest
  · rw [hleave.other k hk, hother k hk, hu.har]
  · rw [hleave.sched, hready]
  · rw [hx]
    exact ⟨rfl, rfl, rfl, rfl, rfl, rfl, by rw [hmcc], rfl⟩

end

end Sys2Proof.Machine
end

section

/-! NEND (06 R202; 01 R34, R445). -/

namespace Sys2Proof.Machine

open Sys2Proof.Safety

/-! ### Entries -/

/-- The entry of a GID. -/
def State.entry (s : State) (g : Nat) : Option NodeEnt := (s.die (g / 4096)).sched.tab.find (g % 4096)

/-- Every die's table of entries has its keys in order. -/
def State.tabsSorted (s : State) : Prop := ∀ d, Table.sorted (s.die d).sched.tab = true

/-- The state with another entry at a GID. -/
def State.putEntry (s : State) (g : Nat) (e : NodeEnt) : State :=
  s.modSched (g / 4096) fun q => { q with tab := q.tab.set (g % 4096) e }

theorem State.putEntry_onlyTabs (s : State) (g : Nat) (e : NodeEnt) : onlyTabs s (s.putEntry g e) :=
  s.modSched_onlyTabs _ fun _ => rfl

theorem State.entry_putEntry_same (s : State) (g : Nat) (e : NodeEnt) : (s.putEntry g e).entry g = some e := by
  unfold State.entry State.putEntry
  rw [State.die_modSched]
  exact Table.find_set_same ..

theorem State.entry_putEntry_other {s : State} {g j : Nat} (e : NodeEnt) (h : j ≠ g) : (s.putEntry g e).entry j = s.entry j := by
  unfold State.entry State.putEntry
  by_cases hd : j / 4096 = g / 4096
  · rw [hd, State.die_modSched]
    exact Table.find_set_other _ (by omega)
  · rw [State.die_modSched_other _ hd]

theorem State.tabsSorted.putEntry {s : State} (h : s.tabsSorted) (g : Nat) (e : NodeEnt) : (s.putEntry g e).tabsSorted := by
  intro d
  unfold State.putEntry
  by_cases hd : d = g / 4096
  · rw [hd, State.die_modSched]; exact Table.sorted_set (h _)
  · rw [State.die_modSched_other _ hd]; exact h d

theorem State.entry_freeEntry_same {s : State} (h : s.tabsSorted) (g : Nat) : (s.freeEntry (some g)).entry g = none := by
  unfold State.entry State.freeEntry
  dsimp only
  rw [State.die_modSched]
  exact Table.find_erase_same (h _)

theorem State.entry_freeEntry_other {s : State} (h : s.tabsSorted) {gid : Option Nat} {j : Nat} (hj : some j ≠ gid) :
    (s.freeEntry gid).entry j = s.entry j := by
  cases gid with
  | none => rfl
  | some g =>
    have hne : j ≠ g := fun he => hj (congrArg some he)
    unfold State.entry State.freeEntry
    dsimp only
    by_cases hd : j / 4096 = g / 4096
    · rw [hd, State.die_modSched]
      exact Table.find_erase_other (h _) (by omega)
    · rw [State.die_modSched_other _ hd]

/-- A decrement of a counter above one makes no record ready. -/
theorem State.decrement_of_two_le {s : State} {d g : Nat} {w : Waiter} {e : NodeEnt} (hd : g / 4096 < s.nDies)
    (hp : s.partOfDie (g / 4096) = s.partOfDie d) (he : s.entry g = some e) (hc : 2 ≤ e.ctr) :
    s.decrement d g w = (s.putEntry g { e with ctr := e.ctr - 1 }, cOK) := by
  unfold State.entry at he
  unfold State.decrement
  dsimp only
  rw [if_pos ⟨hd, hp⟩, he]
  dsimp only
  rw [if_neg (by omega), if_neg fun h => absurd h.1 (by omega)]
  rfl

/-! ### The decrements of a node's successors -/

/-- The entries of the GIDs `gs` have been decremented by the NEND of rank r; of the harness, only its node's own list of
successors differs, and of the dies only the tables of entries. -/
structure decremented (r : Nat) (gs : List Nat) (s t : State) : Prop where
  only : t = { s with hs := t.hs, dies := t.dies }
  other : ∀ q, q ≠ r → t.har q = s.har q
  har : ∃ sc go, t.har r = { s.har r with ctl := { (s.har r).ctl with
    node := (s.har r).ctl.node.map fun m => { m with succ := sc, gone := go } } }
  die : ∀ d, t.die d = { s.die d with sched := { (s.die d).sched with tab := (t.die d).sched.tab } }
  sorted : s.tabsSorted → t.tabsSorted
  hit : ∀ g ∈ gs, ∀ e, s.entry g = some e → t.entry g = some { e with ctr := e.ctr - 1 }
  miss : ∀ g, g ∉ gs → t.entry g = s.entry g

theorem decremented.refl (r : Nat) (s : State) : decremented r [] s s where
  only := rfl
  other _ _ := rfl
  har := by
    cases hm : (s.har r).ctl.node with
    | none => exact ⟨[], [], by rw [Option.map_none, ← hm]⟩
    | some m => exact ⟨m.succ, m.gone, by rw [Option.map_some, ← hm]⟩
  die _ := rfl
  sorted := id
  hit _ h := absurd h List.not_mem_nil
  miss _ _ := rfl

theorem decremented.cons {r g : Nat} {gs : List Nat} {s t u : State} (h : decremented r [g] s t) (k : decremented r gs t u)
    (hg : g ∉ gs) : decremented r (g :: gs) s u where
  only := by rw [k.only, h.only]
  other q hq := (k.other q hq).trans (h.other q hq)
  har := by
    obtain ⟨sc, go, hh⟩ := h.har
    obtain ⟨sc', go', hk⟩ := k.har
    refine ⟨sc', go', ?_⟩
    rw [hk, hh]
    dsimp only
    rw [Option.map_map]
    rfl
  die d := by rw [k.die, h.die]
  sorted hs := k.sorted (h.sorted hs)
  hit j hj e he := by
    rcases List.mem_cons.mp hj with rfl | hj
    · exact (k.miss j hg).trans (h.hit j (.head _) e he)
    · have hne : j ∉ [g] := fun hm => hg (List.mem_singleton.mp hm ▸ hj)
      exact k.hit j hj e ((h.miss j hne).trans he)
  miss j hj := by
    obtain ⟨hne, hj⟩ := not_or.mp fun hm => hj (List.mem_cons.mpr hm)
    exact (k.miss j hj).trans (h.miss j (by simpa using hne))

/-- One decrement, noted in the node. -/
def State.decrementNoted (s : State) (r g : Nat) (gs : List Nat) (e : NodeEnt) : State :=
  (s.putEntry g { e with ctr := e.ctr - 1 }).modNode r fun m => { m with succ := gs, gone := g :: m.gone }

theorem State.modNode_har {s : State} {r : Nat} {m : Node} (hm : (s.har r).ctl.node = some m) (f : Node → Node) :
    (s.modNode r f).har r = { s.har r with ctl := { (s.har r).ctl with node := some (f m) } } := by
  unfold State.modNode
  rw [State.modCtl_eq, State.har_setHar, hm]
  rfl

theorem State.decrementNoted_har {s : State} {r : Nat} {m : Node} (hm : (s.har r).ctl.node = some m) (g : Nat) (gs : List Nat)
    (e : NodeEnt) : (s.decrementNoted r g gs e).har r =
      { s.har r with ctl := { (s.har r).ctl with node := some { m with succ := gs, gone := g :: m.gone } } } :=
  State.modNode_har (s := s.putEntry g _) hm _

theorem State.decrementNoted_decremented {s : State} {r : Nat} {m : Node} (hm : (s.har r).ctl.node = some m) {g : Nat}
    (gs : List Nat) {e : NodeEnt} (he : s.entry g = some e) : decremented r [g] s (s.decrementNoted r g gs e) where
  only := rfl
  other q hq := State.har_modHar_other _ hq
  har := ⟨gs, g :: m.gone, by rw [State.decrementNoted_har hm, hm]; rfl⟩
  die := (s.putEntry_onlyTabs g _).2
  sorted hs := hs.putEntry g _
  hit j hj e' he' := by
    obtain rfl := List.mem_singleton.mp hj
    obtain rfl := Option.some.inj (he.symm.trans he')
    exact s.entry_putEntry_same j _
  miss j hj := State.entry_putEntry_other _ (by simpa using hj)

/-- A successor that a NEND of rank r decrements and that still waits for another node: an entry of the partition whose counter
is above one. -/
def State.stillWaits (s : State) (r g : Nat) : Prop :=
  g / 4096 < s.nDies ∧ s.partOfDie (g / 4096) = s.partOf r ∧ ∃ e, s.entry g = some e ∧ 2 ≤ e.ctr

theorem decremented.waits {r : Nat} {gs : List Nat} {s t : State} (h : decremented r gs s t) (w : Waiter) : t.waits w = s.waits w :=
  onlyUnits.waits (by unfold onlyUnits; rw [h.only]) (fun d => by rw [h.die d]) w

theorem State.nendStep_decremented {r : Nat} (gs : List Nat) {s : State} {m : Node} (hm : (s.har r).ctl.node = some m)
    (hheld : m.held = []) (hsucc : m.succ = gs) (hw : s.waits (.nend r) = false) (hnd : gs.Nodup)
    (hgs : ∀ g ∈ gs, s.stillWaits r g) : decremented r gs s (s.nendStep r gs.length) := by
  induction gs generalizing s m with
  | nil => exact .refl r s
  | cons g gs ih =>
    obtain ⟨hg, hnd⟩ := List.nodup_cons.mp hnd
    obtain ⟨hdie, hpart, e, he, hctr⟩ := hgs g (.head _)
    let t := s.decrementNoted r g gs e
    have ht : decremented r [g] s t := State.decrementNoted_decremented hm gs he
    have hstep : s.nendStep r (gs.length + 1) = t.nendStep r gs.length := by
      rw [State.nendStep, hm]
      dsimp only
      rw [hw, if_neg Bool.false_ne_true, hheld, hsucc]
      dsimp only
      rw [State.decrement_of_two_le hdie hpart he hctr]
      rfl
    rw [List.length_cons, hstep]
    refine ht.cons (ih (m := { m with succ := gs, gone := g :: m.gone }) ?_ hheld rfl ((ht.waits _).trans hw) hnd fun j hj => ?_) hg
    · rw [State.decrementNoted_har hm]
    · obtain ⟨hd, hp, e', he', hc'⟩ := hgs j (.tail _ hj)
      refine ⟨hd, hp, e', ?_, hc'⟩
      rw [ht.miss j fun hmem => hg (List.mem_singleton.mp hmem ▸ hj)]
      exact he'

end Sys2Proof.Machine
end

section

/-! The join counter and the last step of NEND; the statement on the ends of nodes (O23). -/

namespace Sys2Proof.Machine

open Sys2Proof.Safety

/-! ### The access to the join counter -/

/-- What the checks of a sequencer access look at of a harness is as before. -/
structure sameChecks (h k : Harness) : Prop where
  level : k.level = h.level
  tlb : k.tlb = h.tlb
  rtbase : k.rtbase = h.rtbase
  retired : k.ctl.retired = h.ctl.retired

theorem onlyUnits.seqAccess {s t : State} (h : onlyUnits s t) (hh : ∀ q, sameChecks (s.har q) (t.har q)) (r : Nat) (p : Word)
    (a : SeqAcc) : t.seqAccess r p a = s.seqAccess r p a := by
  have hwalk : ∀ p va, t.walk p va = s.walk p va := by rw [h]; intros; rfl
  have hpart : ∀ p, t.part p = s.part p := by rw [h]; intros; rfl
  have hpartOf : ∀ q, t.partOf q = s.partOf q := by rw [h]; intros; rfl
  have hranks : t.ranks = s.ranks := by rw [h]; rfl
  have hstale : ∀ va, t.stale va = s.stale va := by rw [h]; intros; rfl
  have hbound : ∀ k p, t.portBound k p = s.portBound k p := by rw [h]; intros; rfl
  have hlink : ∀ k, t.linkUp k = s.linkUp k := by rw [h]; intros; rfl
  have hpeer : ∀ p, t.peerKey p = s.peerKey p := by rw [h]; intros; rfl
  unfold State.seqAccess State.spaceCheck State.seqPriv State.seqKey State.xlate State.leafOf
  simp only [(hh _).level, (hh _).tlb, (hh _).rtbase, (hh _).retired, hwalk, hpart, hpartOf, hranks, hstale, hbound, hlink, hpeer]

/-- An alert does not depend on who waits at the bank. -/
theorem Bank.access_wait (b : Bank) (w : List BankReq) (now row beats tdmt : Nat) (close : Bool) :
    (({ b with wait := w } : Bank).access now row beats tdmt close).2.2 = (b.access now row beats tdmt close).2.2 := by
  unfold Bank.access
  dsimp only
  split
  · rfl
  · split <;> rfl

/-- Nothing differs but tower banks. -/
def onlyTowers (s t : State) : Prop := t = { s with hs := t.hs } ∧ ∀ q, t.har q = { s.har q with banks := (t.har q).banks }

theorem State.setBank_onlyTowers (s : State) (r k : Nat) (b : Bank) : onlyTowers s (s.setHar r ((s.har r).setBank k b)) := by
  refine ⟨rfl, fun q => ?_⟩
  by_cases hq : q = r
  · subst hq; rw [State.har_setHar]; rfl
  · rw [State.har_setHar_other _ hq]

theorem onlyTowers.trans {s t u : State} (h : onlyTowers s t) (k : onlyTowers t u) : onlyTowers s u := by
  refine ⟨by rw [k.1, h.1], fun q => ?_⟩
  rw [k.2 q, h.2 q]

/-- The harness of a tower key after an asker waits there no longer. -/
theorem State.unask_bank (s : State) (a : Asker) (k : Nat) : onlyTowers s (s.unask a k) ∧
    ∃ w, (s.unask a k).bankAt k = { s.bankAt k with wait := w } := by
  unfold State.unask
  split
  · refine ⟨s.setBank_onlyTowers _ _ _, (s.bankAt k).wait.filter fun q => q.who != a.who, ?_⟩
    unfold State.bankAt State.setBankAt
    rw [State.har_modHar, Harness.bank_setBank_same]
  · exact ⟨⟨rfl, fun _ => rfl⟩, (s.bankAt k).wait, rfl⟩

/-- An access that raises no alert changes tower banks alone. -/
theorem State.touch_calm {s : State} {a : Asker} {k : Nat} (h : calm a k s) : onlyTowers s (s.touch a k) := by
  obtain ⟨-, -, hcalm⟩ := h
  unfold State.touch State.touchLat
  split
  case isFalse => exact ⟨rfl, fun _ => rfl⟩
  case isTrue hk =>
    obtain ⟨hu, w, hw⟩ := s.unask_bank a k
    dsimp only
    refine hu.trans ?_
    unfold State.touchRow
    dsimp only
    have hal : ((((s.unask a k).har (towerRank k)).bank (bankKey (towCell k) (towBank k))).access
        (max (s.unask a k).mcc.toNat (((s.unask a k).har (towerRank k)).bank (bankKey (towCell k) (towBank k))).till)
        (((s.unask a k).har (towerRank k)).physRow (towCell k) (towBank k) (towRow k)) 1
        ((s.unask a k).die (dieOf (towerRank k))).tdmt.toNat false).2.2 = false := by
      have hphys : ∀ cell bank row, ((s.unask a k).har (towerRank k)).physRow cell bank row =
          (s.har (towerRank k)).physRow cell bank row := by rw [hu.2]; intros; rfl
      have hmcc : (s.unask a k).mcc = s.mcc := by rw [hu.1]
      have hdie : (s.unask a k).die (dieOf (towerRank k)) = s.die (dieOf (towerRank k)) := by rw [hu.1]; rfl
      have hbank : ((s.unask a k).har (towerRank k)).bank (bankKey (towCell k) (towBank k)) = { s.bankAt k with wait := w } := hw
      rw [hphys, hmcc, hdie, hbank, Bank.access_wait]
      exact hcalm hk
    rw [hal, if_neg Bool.false_ne_true]
    exact State.setBank_onlyTowers ..

/-! ### The end of a node that is alone -/

/-- The node as its NEND goes on: it has handed nothing over, and its successors stand ready. -/
def Node.outgoing (n : Node) (succ : List Nat) : Node := { n with ending := 2, held := [], succ := succ, gang := none }

/-- The NEND of a node that is alone has begun. -/
def State.nendBegun (s : State) (r : Nat) (n : Node) : State := s.modNode r fun m => m.outgoing (s.successors n.gid)

theorem State.nendBegun_har {s : State} {r : Nat} {n : Node} (hn : (s.har r).ctl.node = some n) : (s.nendBegun r n).har r =
    { s.har r with ctl := { (s.har r).ctl with node := some (n.outgoing (s.successors n.gid)) } } := State.modNode_har hn _

theorem State.nendOut_alone {s : State} {r : Nat} {n : Node} (hn : (s.har r).ctl.node = some n) (hg : n.gang = none)
    (hh : n.held = []) : s.nendOut r n = s.nendBegun r n := by
  have hgang : s.gangOf r = none := State.gangOf_eq_none hn hg
  unfold State.nendOut
  dsimp only
  rw [State.keepHeld_alone hg, State.leaveGang_alone hgang, State.heldOf_alone hgang, if_pos hh]
  rfl

theorem State.nendFree_alone {s : State} (r : Nat) {n : Node} (hg : n.gang = none) :
    gone r (s.nendFree r n) ∧ (∀ q, q ≠ r → (s.nendFree r n).har q = s.har q) ∧ (s.nendFree r n).mem = s.mem ∧
      ∀ g, (s.nendFree r n).entry g = (s.freeEntry n.gid).entry g := by
  let u := (s.freeEntry n.gid).modCtl r fun c => { c with line := false }
  have hfree : s.nendFree r n = u.leaveNode r := by
    unfold State.nendFree State.nended
    rw [hg]
    rfl
  have hu := u.leaveNode_leaves r
  have hf : ∀ q, (s.freeEntry n.gid).har q = s.har q := fun q => by rw [(s.freeEntry_onlyTabs n.gid).1]; rfl
  rw [hfree]
  refine ⟨hu.gone ?_, fun q hq => ?_, ?_, fun g => ?_⟩
  · show (((s.freeEntry n.gid).modCtl r _).har r).ctl.line = false
    rw [State.modCtl_eq, State.har_setHar]
  · exact (hu.other q hq).trans ((State.har_modHar_other _ hq).trans (hf q))
  · rw [hu.mem]
    show (s.freeEntry n.gid).mem = s.mem
    rw [(s.freeEntry_onlyTabs n.gid).1]
  · unfold State.entry
    rw [hu.sched]
    rfl

/-- What the decrements of a node's successors and the end of its entry leave in the tables. -/
theorem decremented.freed {r : Nat} {gs : List Nat} {s t : State} (h : decremented r gs s t) (hs : s.tabsSorted) {gid : Option Nat}
    (hgs : ∀ g ∈ gs, some g ≠ gid) :
    (∀ g ∈ gs, ∀ e, s.entry g = some e → (t.freeEntry gid).entry g = some { e with ctr := e.ctr - 1 }) ∧
      ∀ g, gid = some g → (t.freeEntry gid).entry g = none := by
  refine ⟨fun g hg e he => ?_, ?_⟩
  · rw [State.entry_freeEntry_other (h.sorted hs) (hgs g hg)]
    exact h.hit g hg e he
  · rintro g rfl
    exact State.entry_freeEntry_same (h.sorted hs) g

/-! ### The branches of NEND -/

section
variable {s : State} {n : Node}

theorem execNend_idle (hs : s.inSlot = false) (hn : (s.har s.cur).ctl.node = none) :
    execNend s = .next (if (s.har s.cur).quiesced && s.sendsGone s.cur then
      (s.modSeq s.cur fun q => { q with active := false }).nended s.cur else s.stall) := by
  unfold execNend
  dsimp only
  rw [hs, if_neg Bool.false_ne_true, hn]

/-- The node ends at its NEND, in no delay slot. -/
structure atNend (s : State) (n : Node) : Prop where
  slot : s.inSlot = false
  node : (s.har s.cur).ctl.node = some n
  ending : n.ending = 0

theorem execNend_stall (h : atNend s n)
    (hq : (s.har s.cur).ctl.abort.isSome = true ∨ (s.har s.cur).quiesced = false ∨ s.sendsGone s.cur = false) :
    execNend s = .next s.stall := by
  unfold execNend
  dsimp only
  rw [h.slot, if_neg Bool.false_ne_true, h.node]
  dsimp only
  rw [if_neg (by rw [h.ending]; decide), if_pos]
  rcases hq with hq | hq | hq <;> simp [hq]

/-- Nothing keeps the node. -/
structure nends (s : State) (n : Node) : Prop extends atNend s n where
  abort : (s.har s.cur).ctl.abort = none
  quiet : (s.har s.cur).quiesced = true
  sends : s.sendsGone s.cur = true

theorem execNend_fault (h : nends s n) (hj : n.cont.join ≠ 0) {f : Fail}
    (hf : s.seqAccess s.cur n.cont.join joinAcc = .error f) : execNend s = .next (s.preciseF s.cur f) := by
  unfold execNend
  dsimp only
  rw [h.slot, if_neg Bool.false_ne_true, h.node]
  dsimp only
  rw [h.abort, h.quiet, h.sends, if_neg (by rw [h.ending]; decide), if_neg (by decide), if_neg hj, hf]

theorem execNend_ends (h : nends s n) (hg : n.gang = none) (hh : n.held = [])
    (hj : n.cont.join = 0 ∨ ∃ k, s.seqAccess s.cur n.cont.join joinAcc = .ok (.mem k)) :
    execNend s = .next ((s.nendBegun s.cur n).nendOn s.cur (n.outgoing (s.successors n.gid))) := by
  have hchk : ∃ k,
      (if n.cont.join = 0 then .ok (.mem 0) else s.seqAccess s.cur n.cont.join joinAcc) = Except.ok (Place.mem k) := by
    by_cases h0 : n.cont.join = 0
    · exact ⟨0, if_pos h0⟩
    · obtain ⟨k, hk⟩ := hj.resolve_left h0
      exact ⟨k, (if_neg h0).trans hk⟩
  obtain ⟨k, hk⟩ := hchk
  unfold execNend
  dsimp only
  rw [h.slot, if_neg Bool.false_ne_true, h.node]
  dsimp only
  rw [h.abort, h.quiet, h.sends, if_neg (by rw [h.ending]; decide), if_neg (by decide), hk]
  dsimp only
  rw [State.nendOut_alone h.node hg hh, State.nendBegun_har h.node]

/-! ### The clauses of the statement -/

/-- The state of a node that ends alone once its successors have been decremented. -/
def State.nendDone (s : State) (n : Node) : State :=
  (s.nendBegun s.cur n).nendStep s.cur (s.successors n.gid).length

/-- What the NEND of a node that ends alone decrements, and what it finds. -/
structure nendsAlone (s : State) (n : Node) : Prop extends nends s n where
  gang : n.gang = none
  held : n.held = []
  waits : s.waits (.nend s.cur) = false
  sorted : s.tabsSorted
  nodup : (s.successors n.gid).Nodup
  succ : ∀ g ∈ s.successors n.gid, some g ≠ n.gid ∧ s.stillWaits s.cur g

theorem nendsAlone.decremented (h : nendsAlone s n) :
    decremented s.cur (s.successors n.gid) (s.nendBegun s.cur n) (s.nendDone n) :=
  State.nendStep_decremented _ (congrArg (fun x : Harness => x.ctl.node) (State.nendBegun_har h.node)) rfl rfl h.waits h.nodup
    fun g hg => (h.succ g hg).2

theorem nendsAlone.onlyUnits (h : nendsAlone s n) : onlyUnits s (s.nendDone n) := by
  have hd := h.decremented
  unfold Machine.onlyUnits
  rw [hd.only]
  rfl

theorem nendsAlone.har_other (h : nendsAlone s n) {q : Nat} (hq : q ≠ s.cur) : (s.nendDone n).har q = s.har q :=
  (h.decremented.other q hq).trans (State.har_modHar_other _ hq)

/-- Of the harness, only the node's own account of its end differs. -/
theorem nendsAlone.har_cur (h : nendsAlone s n) : ∃ m, m.launch = n.launch ∧
    (s.nendDone n).har s.cur = { s.har s.cur with ctl := { (s.har s.cur).ctl with node := some m } } := by
  obtain ⟨sc, go, hh⟩ := h.decremented.har
  refine ⟨{ (n.outgoing (s.successors n.gid)) with succ := sc, gone := go }, rfl, ?_⟩
  rw [hh, State.nendBegun_har h.node]
  rfl

theorem nendsAlone.sameChecks (h : nendsAlone s n) (q : Nat) : sameChecks (s.har q) ((s.nendDone n).har q) := by
  by_cases hq : q = s.cur
  · obtain ⟨m, hm, hcur⟩ := h.har_cur
    rw [hq, hcur]
    refine ⟨rfl, rfl, ?_, rfl⟩
    unfold Harness.rtbase
    rw [h.node]
    exact congrArg (fun l : Packet => offset l.w4) hm
  · rw [h.har_other hq]
    exact ⟨rfl, rfl, rfl, rfl⟩

/-- The banks of every tower are as before. -/
theorem nendsAlone.banks (h : nendsAlone s n) (q : Nat) : ∃ c, (s.nendDone n).har q = { s.har q with ctl := c } := by
  by_cases hq : q = s.cur
  · obtain ⟨m, -, hcur⟩ := h.har_cur
    exact ⟨_, hq ▸ hcur⟩
  · exact ⟨_, h.har_other hq⟩

theorem nendsAlone.calm (h : nendsAlone s n) {k : Nat} (hc : calm s.issuer k s) : calm s.issuer k (s.nendDone n) := by
  obtain ⟨c, hk⟩ := h.banks (towerRank k)
  have hmcc : (s.nendDone n).mcc = s.mcc := by rw [h.onlyUnits]
  have hlat : (s.nendDone n).latent = s.latent := by rw [h.onlyUnits]
  have htdmt : ∀ d, ((s.nendDone n).die d).tdmt = (s.die d).tdmt := fun d => by rw [h.decremented.die]; rfl
  obtain ⟨hl, hserves, hcalm⟩ := hc
  refine ⟨hlat.trans hl, ?_, fun ht => ?_⟩
  · unfold State.serves State.bankAt at hserves ⊢
    rw [hk, hmcc]
    exact hserves
  · dsimp only
    rw [hk, hmcc, htdmt]
    exact hcalm ht

theorem nendsAlone.exec (h : nendsAlone s n)
    (hj : n.cont.join = 0 ∨ ∃ k, s.seqAccess s.cur n.cont.join joinAcc = .ok (.mem k)) :
    execNend s = .next ((s.nendDone n).nendJoin s.cur (n.outgoing (s.successors n.gid))) := by
  rw [execNend_ends h.tonends h.gang h.held hj]
  unfold State.nendOn
  dsimp only
  have hfuel : (n.outgoing (s.successors n.gid)).held.length + (n.outgoing (s.successors n.gid)).succ.length =
      (s.successors n.gid).length := Nat.zero_add _
  rw [hfuel]
  exact congrArg _ (if_neg (Bool.not_eq_true _ ▸ (h.decremented.waits _).trans h.waits))

/-- The node has ended: its successors count one less, and its entry is free. -/
def endedAlone (s : State) (n : Node) (t : State) : Prop :=
  gone s.cur t ∧ (∀ k, k ≠ s.cur → (t.har k).seq = (s.har k).seq) ∧
    (∀ g ∈ s.successors n.gid, ∀ e, s.entry g = some e → t.entry g = some { e with ctr := e.ctr - 1 }) ∧
    ∀ g, n.gid = some g → t.entry g = none

theorem nendsAlone.endedAlone (h : nendsAlone s n) {u : State}
    (hu : u = { s.nendDone n with
      hs := u.hs, mem := u.mem, poison := u.poison, latent := u.latent, hbm := u.hbm, tagger := u.tagger })
    (hseq : ∀ k, k ≠ s.cur → (u.har k).seq = ((s.nendDone n).har k).seq) :
    endedAlone s n (u.nendFree s.cur (n.outgoing (s.successors n.gid))) := by
  obtain ⟨hgone, hother, -, hentry⟩ := u.nendFree_alone s.cur (n := n.outgoing (s.successors n.gid)) rfl
  obtain ⟨hhit, hfree⟩ := h.decremented.freed h.sorted fun g hg => (h.succ g hg).1
  have hdies : ∀ g, (u.freeEntry n.gid).entry g = ((s.nendDone n).freeEntry n.gid).entry g := by
    rw [hu]
    intro g
    cases n.gid <;> rfl
  refine ⟨hgone, fun k hk => ?_, fun g hg e he => ?_, fun g hg => ?_⟩
  · rw [hother k hk, hseq k hk, h.har_other hk]
  · exact (hentry g).trans ((hdies g).trans (hhit g hg e he))
  · exact (hentry g).trans ((hdies g).trans (hfree g hg))

theorem nend_frees (h : nendsAlone s n) (hj : n.cont.join = 0) :
    ∃ t, execNend s = .next t ∧ endedAlone s n t ∧ memSame s t := by
  refine ⟨_, h.exec (.inl hj), ?_⟩
  unfold State.nendJoin
  rw [if_pos (.inl hj)]
  have hmem := (State.nendFree_alone (s := s.nendDone n) s.cur (n := n.outgoing (s.successors n.gid)) rfl).2.2.1
  exact ⟨h.endedAlone rfl fun _ _ => rfl, fun a => by rw [hmem, h.onlyUnits.mem]⟩

theorem State.scrub_of_no_latent {s : State} (hl : s.latent = []) (k n : Nat) : s.scrub k n = s := by
  unfold State.scrub
  rw [if_pos (.inl (by rw [hl]; rfl))]

theorem State.noteTag_wrote (s : State) (k n : Nat) (w : Poster) : wrote s (s.noteTag k n w) := by
  unfold State.noteTag
  split
  · exact ⟨rfl, id, fun _ => rfl⟩
  · exact .refl s

theorem State.noteTag_mem (s : State) (k n : Nat) (w : Poster) : (s.noteTag k n w).mem = s.mem := by
  unfold State.noteTag
  split <;> rfl

/-- A word written where every byte is in service. -/
theorem State.write_word {s : State} (hm : memWf s.mem = true) {k : Nat} (hq : ∀ i, i < 8 → s.quarantined (k + i) = false)
    (v : Word) : (s.write k (leBytes 8 v.toNat)).wordAt k = v ∧ memSameBut k 8 s (s.write k (leBytes 8 v.toNat)) := by
  have hlen : (leBytes 8 v.toNat).length = 8 := length_leBytes 8 _
  have hmem : (s.write k (leBytes 8 v.toNat)).mem = memWrite s.mem k (leBytes 8 v.toNat) :=
    State.write_mem fun i hi => hq i (hlen ▸ hi)
  refine ⟨?_, fun a ha => ?_⟩
  · unfold State.wordAt
    rw [hmem, show memRead (memWrite s.mem k (leBytes 8 v.toNat)) k 8 = leBytes 8 v.toNat from
      hlen ▸ memRead_memWrite hm k (leBytes 8 v.toNat), leNat_leBytes]
    exact BitVec.eq_of_toNat_eq (by rw [BitVec.toNat_ofNat]; exact (Nat.mod_mod _ _).trans (Nat.mod_eq_of_lt v.isLt))
  · rw [hmem]
    exact memGet_memWrite_other hm (by rw [hlen]; exact ha)

theorem nend_joins (h : nendsAlone s n) (hj : n.cont.join ≠ 0) {k : Nat}
    (hk : s.seqAccess s.cur n.cont.join joinAcc = .ok (.mem k)) (hc : s.consumesN k 8 = none) (hcalm : calm s.issuer k s)
    (hm : memOk s) (hq : ∀ i, i < 8 → s.quarantined (k + i) = false) :
    ∃ t, execNend s = .next t ∧ endedAlone s n t ∧ memSameBut k 8 s t ∧ t.wordAt k = s.wordAt k - 1 := by
  let w := s.nendDone n
  have hw : onlyUnits s w := h.onlyUnits
  have hissuer : w.issuer = s.issuer := by unfold State.issuer; rw [hw]
  have hcalm' : calm s.issuer k w := h.calm hcalm
  let v := w.touch s.issuer k
  have hv : onlyTowers w v := State.touch_calm hcalm'
  let old := BitVec.ofNat 64 (leNat (memRead w.mem k 8))
  let u := (v.write k (leBytes 8 (old - 1).toNat)).noteTag k 8 (w.asPoster s.cur)
  have hstep : w.nendJoin s.cur (n.outgoing (s.successors n.gid)) = u.nendFree s.cur (n.outgoing (s.successors n.gid)) := by
    have hfree : w.towerFree k = true := by
      unfold State.towerFree
      rw [hissuer]
      exact hcalm'.2.1
    have hnone : w.consumesN k 8 = none := by rw [← hc, hw]; rfl
    have hacc : w.seqAccess s.cur (n.outgoing (s.successors n.gid)).cont.join joinAcc = .ok (.mem k) :=
      (hw.seqAccess h.sameChecks _ _ _).trans hk
    unfold State.nendJoin
    refine (if_neg (not_or.mpr ⟨hj, Bool.false_ne_true⟩)).trans ?_
    rw [hacc]
    dsimp only
    rw [hfree, hnone, State.scrub_of_no_latent hcalm'.1, hissuer]
    rfl
  have hmemw : v.mem = s.mem := by rw [hv.1]; exact hw.mem
  have hqv : ∀ i, i < 8 → v.quarantined (k + i) = false := fun i hi => by rw [← hq i hi, hv.1, hw]; rfl
  obtain ⟨hword, hrest⟩ := State.write_word (hmemw ▸ hm : memWf v.mem = true) hqv (old - 1)
  have hu : wrote v u := (v.write_wrote _ _).trans (State.noteTag_wrote ..)
  have humem : u.mem = (v.write k (leBytes 8 (old - 1).toNat)).mem := State.noteTag_mem ..
  have htmem := (State.nendFree_alone (s := u) s.cur (n := n.outgoing (s.successors n.gid)) rfl).2.2.1
  refine ⟨_, (h.exec (.inr ⟨k, hk⟩)).trans (congrArg _ hstep), h.endedAlone ?_ fun q _ => ?_, fun a ha => ?_, ?_⟩
  · rw [hu.only, hv.1]
  · rw [hu.har, hv.2]
  · rw [htmem, humem, hrest a ha, hmemw]
  · have hold : old = s.wordAt k := by unfold State.wordAt; rw [← hw.mem]
    unfold State.wordAt at hword ⊢
    rw [htmem, humem, hword, hold]
    rfl

end

/-! ### The statement -/

theorem yield_without_node {s : State} (hslot : s.inSlot = false) (hn : (s.har s.cur).ctl.node = none) :
    ((s.har s.cur).quiesced = true ∧ (s.har s.cur).seq.sbClear = true → onlyPasses .yield s) ∧
      (¬((s.har s.cur).quiesced = true ∧ (s.har s.cur).seq.sbClear = true) → stalls .yield s) := by
  have hexec := execYield_idle hslot hn
  refine ⟨fun hq => ?_, fun hq => ?_⟩
  · rw [hq.1, hq.2] at hexec
    exact ⟨s.modSeq s.cur Seq.advance, hexec, onlySeq_modSeq .., by rw [State.modSeq_eq, State.har_setHar]⟩
  · rw [← Bool.and_eq_true] at hq
    exact State.stall_stalls (hexec.trans (congrArg _ (if_neg hq)))

theorem nend_without_node {s : State} (hslot : s.inSlot = false) (hn : (s.har s.cur).ctl.node = none) :
    ((s.har s.cur).quiesced = true → s.sendsGone s.cur = true →
      ∃ t, exec .nend s = .next t ∧ gone s.cur t ∧ memSame s t) ∧
    ((s.har s.cur).quiesced = false ∨ s.sendsGone s.cur = false → stalls .nend s) := by
  have hexec := execNend_idle hslot hn
  refine ⟨fun hq hs => ?_, fun hq => ?_⟩
  · rw [hq, hs] at hexec
    let u := (s.modSeq s.cur fun q => { q with active := false }).modCtl s.cur fun c => { c with line := false }
    have hu := u.leaveNode_leaves s.cur
    refine ⟨u.leaveNode s.cur, hexec, hu.gone ?_, fun a => by rw [hu.mem]; rfl⟩
    show ((State.modCtl _ s.cur _).har s.cur).ctl.line = false
    rw [State.modCtl_eq, State.har_setHar]
  · refine State.stall_stalls (hexec.trans (congrArg _ (if_neg ?_)))
    rcases hq with hq | hq <;> simp [hq]

theorem yield_in_gang {s : State} {n : Node} {g : Gang} (h : yields s n) (hline : (s.har s.cur).ctl.line = true)
    (hg : s.gangOf s.cur = some g) (hsave : g.saving = false) :
    (g.live.length < g.members.length → ∃ t, exec .yield s = .next t ∧ onlyHar s.cur s t ∧ t.har s.cur = { s.har s.cur with
      seq := (s.har s.cur).seq.advance
      ctl := { (s.har s.cur).ctl with line := false, node := some { n with count := 0 } } }) ∧
    (g.members.length ≤ g.live.length → (∃ m ∈ g.live, m ≠ s.cur ∧ m ∉ g.atYield) →
      ∃ t, exec .yield s = .next t ∧ t = { s with hs := t.hs, gangs := t.gangs } ∧
        (∀ k, k ≠ s.cur → t.har k = s.har k) ∧
        t.har s.cur = { s.har s.cur with seq := { (s.har s.cur).seq with stalled := true, wait := { stage := 1 } } } ∧
        ∀ g', t.gang g.id = some g' → s.cur ∈ g'.atYield ∧ g'.saving = false) := by
  have hexec : execYield s = .next (s.yieldGang s.cur n g) := by rw [execYield_high h hline, hg]
  refine ⟨fun hl => ?_, fun hl hm => ?_⟩
  · rw [State.yieldGang_ended hsave hl] at hexec
    refine ⟨_, hexec, onlyHar_trans (onlyHar_modHar ..) (State.yieldOn_onlyHar ..), ?_⟩
    rw [State.yieldOn_har (n := n) (by rw [State.har_modHar]; exact h.node), State.har_modHar]
  · rw [State.yieldGang_waits hsave hl hm] at hexec
    let wait := fun x : Gang => { x with atYield := g.atYieldWith s.cur, saving := false }
    let u := s.modGang g.id wait
    obtain ⟨⟨honly, hother, -⟩, -⟩ := u.yieldWait_onlySeq
    refine ⟨u.yieldWait s.cur, hexec, ?_, hother, u.yieldWait_har, fun g' hg' => ?_⟩
    · exact honly.trans rfl
    · have hgang : (u.yieldWait s.cur).gang g.id = u.gang g.id := rfl
      rw [hgang, State.gang_modGang (f := wait) fun _ => rfl] at hg'
      obtain ⟨x, -, rfl⟩ := Option.map_eq_some_iff.mp hg'
      exact ⟨Gang.mem_atYieldWith.mpr (.inr rfl), rfl⟩

/-- Settles O23, by the branches of YIELD and NEND, and by induction on the successors that a NEND decrements. -/
theorem nodeEnds : Obligations.NodeEnds := by
  unfold Obligations.NodeEnds
  intro s r h q gone' quiet' hslot
  refine ⟨fun hn => ⟨(yield_without_node hslot hn).1, (yield_without_node hslot hn).2, (nend_without_node hslot hn).1,
    (nend_without_node hslot hn).2⟩, fun n hn hend => ⟨fun hst => ?_, fun ha => ⟨fun hw hq hline => ?_, fun hq hline => ?_⟩,
    fun hst => ?_, fun ha hq hs => ⟨fun f hj hf => ?_, ?_⟩⟩⟩
  · exact State.stall_stalls (execYield_stall hslot hn hend hst)
  · exact ⟨_, execYield_low ⟨hslot, hn, hend, ha, hq⟩ hw hline, State.yieldOn_onlyHar .., State.yieldOn_har hn⟩
  · have hy : yields s n := ⟨hslot, hn, hend, ha, hq⟩
    refine ⟨fun hg hwait => ?_, fun hg hs har hl hm hw ks l hks hnd hfree hchk hlate hchip hring => ?_, fun g hg hsave => ?_⟩
    · have hexec := execYield_high hy hline
      rw [State.gangOf_eq_none hn hg, State.saveNode_wait hwait] at hexec
      exact ⟨_, hexec, s.yieldWait_onlySeq, congrArg Harness.seq s.yieldWait_har⟩
    · exact yield_saves hy hline hg hs har hl hm hw hks hnd hfree hchk hlate hchip hring
    · exact yield_in_gang hy hline hg hsave
  · exact State.stall_stalls (execNend_stall ⟨hslot, hn, hend⟩ hst)
  · exact execNend_fault ⟨⟨hslot, hn, hend⟩, ha, hq, hs⟩ hj hf
  · intro hg hheld hw succ tab hsorted hnd hsucc ended
    have hnend : nendsAlone s n := ⟨⟨⟨hslot, hn, hend⟩, ha, hq, hs⟩, hg, hheld, hw, hsorted, hnd, hsucc⟩
    refine ⟨fun hj => nend_frees hnend hj, fun k hj hk hc hcalm hm hfree => ?_⟩
    exact nend_joins hnend hj hk hc hcalm hm hfree

end Sys2Proof.Machine
end

section
/-! SUPPORT. Results whose states have their memory in canonical form (log entry 3), and how binds,
folds and alternatives keep it. -/

namespace Sys2Proof.Machine

open Sys2Proof.Safety

/-- What an operation gives, where it gives anything, satisfies P. -/
def givesOn {ε α : Type} (P : α → Prop) (x : Except ε α) : Prop := ∀ a, x = .ok a → P a

/-- The state that an operation gives, where it gives one, has its memory in canonical form. -/
abbrev okMem {ε : Type} (x : Except ε State) : Prop := givesOn memOk x

def someMem (x : Option State) : Prop := ∀ t, x = some t → memOk t

/-- The next state that an instruction gives, where it gives one, has its memory in canonical form. -/
def outOk (x : Out) : Prop := ∀ t, x = .next t → memOk t

/-- Every state that the issue of an engine word keeps has its memory in canonical form. -/
def Issue.memOk : Issue → Prop
  | .faultAt s _ => Safety.memOk s
  | .waitAt s => Safety.memOk s
  | .go s _ _ => Safety.memOk s
  | .goP s _ => Safety.memOk s
  | .fault _ => True
  | .wait => True

def Turn.memOk : Turn → Prop
  | .run _ _ s => Safety.memOk s
  | .move s => Safety.memOk s

theorem outOk_next {t : State} (h : memOk t) : outOk (.next t) := fun _ e => by cases e; exact h

section

variable {ε α β : Type} {P : α → Prop} {Q : β → Prop}

theorem givesOn_ok {a : α} (h : P a) : givesOn P (.ok a : Except ε α) := fun _ e => by cases e; exact h

theorem givesOn_error (x : ε) : givesOn P (.error x) := fun _ e => by cases e

theorem givesOn_ite {c : Prop} [Decidable c] {x y : Except ε α} (hx : givesOn P x) (hy : givesOn P y) :
    givesOn P (if c then x else y) := by
  split
  · exact hx
  · exact hy

theorem givesOn_bind {x : Except ε α} {f : α → Except ε β} (hx : givesOn P x) (hf : ∀ a, P a → givesOn Q (f a)) :
    givesOn Q (x >>= f) := by
  cases x with
  | error e => exact givesOn_error e
  | ok a => exact hf a (hx a rfl)

/-- A check in front of an operation. -/
theorem givesOn_after {x : Except ε α} {f : α → Except ε β} (hf : ∀ a, givesOn Q (f a)) : givesOn Q (x >>= f) :=
  givesOn_bind (P := fun _ => True) (fun _ _ => trivial) fun a _ => hf a

theorem givesOn_map {x : Except ε α} {f : α → β} (hx : givesOn (fun a => Q (f a)) x) : givesOn Q (x.map f) := by
  cases x with
  | error e => exact givesOn_error e
  | ok a => exact givesOn_ok (hx a rfl)

theorem givesOn_foldlM {xs : List β} {f : α → β → Except ε α} {a : α} (ha : P a) (hf : ∀ a x, P a → givesOn P (f a x)) :
    givesOn P (xs.foldlM f a) := by
  induction xs generalizing a with
  | nil => exact givesOn_ok ha
  | cons x xs ih => exact givesOn_bind (hf a x ha) fun b hb => ih hb

end

theorem okMem_ok {ε : Type} {t : State} (h : memOk t) : okMem (.ok t : Except ε State) := givesOn_ok h

theorem okMem_error {ε : Type} (x : ε) : okMem (.error x) := givesOn_error x

theorem someMem_some {t : State} (h : memOk t) : someMem (some t) := fun _ e => by cases e; exact h

theorem someMem_none : someMem none := fun _ e => by cases e

theorem memOk_of_fst {α : Type} {x : State × α} {t : State} {n : α} (e : x = (t, n)) (h : memOk x.1) : memOk t := by
  rw [e] at h; exact h

theorem memOk_ite {c : Prop} [Decidable c] {x y : State} (hx : memOk x) (hy : memOk y) : memOk (if c then x else y) := by
  split
  · exact hx
  · exact hy

theorem memOk_getD {x : Option State} {s : State} (h : memOk s) (hx : someMem x) : memOk (x.getD s) := by
  cases x with
  | none => exact h
  | some t => exact hx t rfl

theorem someMem_toOption {ε : Type} {x : Except ε State} (h : okMem x) : someMem x.toOption := by
  cases x with
  | error e => exact someMem_none
  | ok t => exact someMem_some (h t rfl)

/-- A fold of operations each of which keeps memory in canonical form keeps it. -/
theorem memOk_foldl {α : Type} {f : State → α → State} {xs : List α} {s : State} (hf : ∀ s x, memOk s → memOk (f s x))
    (h : memOk s) : memOk (xs.foldl f s) :=
  List.foldlRecOn xs f h fun _ h x _ => hf _ x h

variable {s : State}

theorem State.write_memOk {k : Nat} {bs : List Byte} (h : memOk s) : memOk (s.write k bs) := State.write_memWf h k bs

theorem State.writeKeys_memOk {ks : List Nat} {bs : List Byte} (h : memOk s) : memOk (s.writeKeys ks bs) :=
  State.writeKeys_memWf h ks bs

end Sys2Proof.Machine
end

section
/-! SUPPORT. What reads, writes, traps, tower banks, links, nodes and the boot do keeps memory in its
canonical form (log entry 3). -/

namespace Sys2Proof.Machine

open Sys2Proof.Safety

variable {s : State}

/-! ### Checks, messages, scrubbing and traps (Machine/Ops) -/

theorem State.cleanGranule_memOk {gr : Nat} (h : memOk s) : memOk (s.cleanGranule gr) := by
  unfold State.cleanGranule
  dsimp only
  split
  · split <;> exact h
  · exact h

theorem State.devWrite_memOk {p va : Nat} {bytes : List Byte} {need : Need} (h : memOk s) : okMem
    (s.devWrite p va bytes need) := by
  unfold State.devWrite
  split
  · exact okMem_error _
  · exact okMem_ok (State.writeKeys_memOk h)

theorem State.raiseInt_memOk {p code : Nat} (h : memOk s) : memOk (s.raiseInt p code) := by
  unfold State.raiseInt
  dsimp only
  split <;> exact h

theorem State.tell_memOk {d code rank : Nat} {subject detail : Word} (h : memOk s) : memOk
    (s.tell d code rank subject detail) := by
  unfold State.tell
  dsimp only
  split
  · split
    · split
      · split
        next h1 => exact State.devWrite_memOk h _ h1
        · exact h
      · exact h
    split
    · exact h
    rename_i h2
    split
    · exact State.devWrite_memOk h _ h2
    rename_i h3
    split
    · split <;> exact State.raiseInt_memOk (State.devWrite_memOk (State.devWrite_memOk h _ h2) _ h3)
    · exact State.raiseInt_memOk (State.devWrite_memOk (State.devWrite_memOk h _ h2) _ h3)
  · exact h

theorem State.count_memOk {d i : Nat} (h : memOk s) : memOk (s.count d i) := by
  unfold State.count
  dsimp only
  split
  next h1 => exact State.devWrite_memOk (by exact h) _ h1
  · exact h

theorem State.hbmSummary_memOk {i : Nat} (h : memOk s) : memOk (s.hbmSummary i) := by
  unfold State.hbmSummary
  dsimp only
  split
  next h1 =>
    refine State.devWrite_memOk ?_ _ h1
    split
    next h2 => exact State.devWrite_memOk h _ h2
    · exact h
  split
  next h3 => exact State.devWrite_memOk h _ h3
  · exact h

theorem State.scrubGranule_memOk {gr : Nat} (h : memOk s) : memOk (s.scrubGranule gr) := by
  unfold State.scrubGranule
  dsimp only
  split
  · exact h
  · exact State.count_memOk h
  split
  · exact h
  split
  · split
    · exact State.hbmSummary_memOk (State.count_memOk h)
    · exact State.tell_memOk h
  · exact State.count_memOk h

theorem State.settleHbm_memOk {i : Nat} (h : memOk s) : memOk (s.settleHbm i) := by
  unfold State.settleHbm
  dsimp only
  split
  · exact State.hbmSummary_memOk h
  · split <;> exact State.tell_memOk h

theorem State.scrub_memOk {k n : Nat} (h : memOk s) : memOk (s.scrub k n) := by
  unfold State.scrub
  split
  · exact h
  · exact memOk_foldl (fun _ _ h => State.scrubGranule_memOk h) h

theorem State.scrubWalk_memOk {p va : Nat} (h : memOk s) : memOk (s.scrubWalk p va) := by
  unfold State.scrubWalk
  dsimp only
  split
  · exact h
  · exact memOk_foldl (fun _ _ h => State.scrub_memOk h) h

theorem State.devScrub_memOk {p va n : Nat} (h : memOk s) : memOk (s.devScrub p va n) := by
  unfold State.devScrub
  dsimp only
  split
  · exact h
  split
  · exact memOk_foldl (fun _ _ h => State.scrub_memOk h) (State.scrubWalk_memOk (State.scrubWalk_memOk h))
  · exact State.scrubWalk_memOk (State.scrubWalk_memOk h)

theorem State.reachScrub_memOk {p va n : Nat} (h : memOk s) : memOk (s.reachScrub p va n) := by
  unfold State.reachScrub
  split
  · exact h
  · exact State.scrubWalk_memOk (State.scrubWalk_memOk h)

theorem State.devStore_memOk {p va : Nat} {bytes : List Byte} {need : Need} (h : memOk s) : okMem
    (s.devStore p va bytes need) :=
  State.devWrite_memOk (State.reachScrub_memOk h)

theorem State.message_memOk {d code rank : Nat} {subject detail : Word} (h : memOk s) : memOk
    (s.message d code rank subject detail) :=
  State.tell_memOk (State.reachScrub_memOk (State.devScrub_memOk h))

theorem State.cacheLeaf_memOk {r va : Nat} (h : memOk s) : memOk (s.cacheLeaf r va) := by
  unfold State.cacheLeaf
  split
  · exact h
  · exact State.scrubWalk_memOk h

theorem State.tally_memOk {r : Nat} {f : Fail} (h : memOk s) : memOk (s.tally r f) := by
  unfold State.tally
  split
  · exact h
  · exact State.count_memOk (State.scrub_memOk h)

theorem State.cacheFor_memOk {r : Nat} {p : Word} (h : memOk s) : memOk (s.cacheFor r p) := by
  unfold State.cacheFor
  split
  · exact State.cacheLeaf_memOk h
  · exact State.cacheLeaf_memOk h
  · exact h

theorem State.takeTrap_memOk {r : Nat} {t : Trap} (h : memOk s) : memOk (s.takeTrap r t) := by
  unfold State.takeTrap
  dsimp only
  split
  · exact h
  split
  · exact State.tally_memOk (State.reachScrub_memOk h)
  next h1 => exact (State.devWrite_memOk (State.reachScrub_memOk h) _ h1 :)

theorem State.precise_memOk {r : Nat} {f : Fail} (h : memOk s) : memOk (s.precise r f) := State.takeTrap_memOk h

theorem State.preciseC_memOk {r code : Nat} (h : memOk s) : memOk (s.preciseC r code) := State.precise_memOk h

theorem State.preciseF_memOk {r : Nat} {f : Fail} (h : memOk s) : memOk (s.preciseF r f) := by
  unfold State.preciseF
  dsimp only
  split
  · split
    · exact h
    · exact State.tally_memOk h
  · exact State.precise_memOk (State.tally_memOk h)

/-! ### Arithmetic that may trap (Machine/SeqAlu) -/

theorem execSext_memOk {d a z : BitVec 6} (h : memOk s) : outOk (execSext d a z s) := by
  unfold execSext
  split
  · exact outOk_next (State.preciseC_memOk h)
  · exact outOk_next h

theorem execCmp_memOk {k c : BitVec 4} {a b : BitVec 6} (h : memOk s) : outOk (execCmp k c a b s) := by
  unfold execCmp
  split
  · exact outOk_next (State.preciseC_memOk h)
  · exact outOk_next h

theorem execCmpi_memOk {k c : BitVec 4} {a : BitVec 6} {i : BitVec 12} (h : memOk s) : outOk (execCmpi k c a i s) := by
  unfold execCmpi
  split
  · exact outOk_next (State.preciseC_memOk h)
  · exact outOk_next h

/-! ### Tower banks (Machine/Tower) -/

theorem State.refreshGranule_memOk {gr : Nat} (h : memOk s) : memOk (s.refreshGranule gr) := by
  unfold State.refreshGranule
  dsimp only
  split
  · exact State.message_memOk (State.scrubGranule_memOk h)
  · exact State.scrubGranule_memOk h

theorem State.refreshRows_memOk {r : Nat} {f : Nat → Bool} (h : memOk s) : memOk (s.refreshRows r f) :=
  memOk_foldl (fun _ _ h => State.refreshGranule_memOk h) h

theorem State.alert_memOk {r cell bank row : Nat} (h : memOk s) : memOk (s.alert r cell bank row) :=
  State.message_memOk (State.refreshRows_memOk h)

theorem State.touchRow_memOk {r cell bank row beats : Nat} {close : Bool} (h : memOk s) : memOk
    (s.touchRow r cell bank row beats close).1 := by
  unfold State.touchRow
  dsimp only
  split
  · exact State.alert_memOk h
  · exact h

theorem State.ask_memOk {a : Asker} {k : Nat} (h : memOk s) : memOk (s.ask a k) := by
  unfold State.ask
  dsimp only
  split <;> exact h

theorem State.unask_memOk {a : Asker} {k : Nat} (h : memOk s) : memOk (s.unask a k) := by
  unfold State.unask
  dsimp only
  split <;> exact h

theorem State.touchLat_memOk {a : Asker} {k : Nat} (h : memOk s) : memOk (s.touchLat a k).1 := by
  unfold State.touchLat
  dsimp only
  split
  · exact State.touchRow_memOk (State.unask_memOk h)
  · exact h

theorem State.touch_memOk {a : Asker} {k : Nat} (h : memOk s) : memOk (s.touch a k) := State.touchLat_memOk h

theorem State.touchIssue_memOk {k : Nat} (h : memOk s) : memOk (s.touchIssue k) := by
  unfold State.touchIssue
  dsimp only
  split <;> exact State.touchLat_memOk h

theorem State.post_memOk {k : Nat} {close : Bool} {who : PktId} (h : memOk s) : memOk (s.post k close who) := by
  unfold State.post
  dsimp only
  split <;> exact h

theorem State.drainLate_memOk (h : memOk s) : memOk s.drainLate := by
  unfold State.drainLate
  dsimp only
  refine memOk_foldl (fun _ _ h => ?_) h
  refine memOk_foldl (fun _ _ h => ?_) h
  split
  · exact h
  · exact State.touchRow_memOk h

/-! ### Loads, stores and atomics of a sequencer (Machine/SeqMem) -/

theorem State.consumeFault_memOk {r k code : Nat} {p : Word} {acc : Nat} (h : memOk s) : memOk
    (s.consumeFault r k code p acc) :=
  State.preciseF_memOk h

theorem State.load_memOk {d : BitVec 6} {p : Word} {size : Nat} {sext : Bool} {sb : BitVec 4} (h : memOk s) : memOk
    (s.load d p size sext sb) := by
  unfold State.load
  dsimp only
  split
  · exact State.preciseF_memOk h
  split
  · exact State.consumeFault_memOk h
  split
  · exact h
  · exact State.cacheFor_memOk h

theorem State.store_memOk {d : BitVec 6} {p : Word} {size : Nat} {sb : BitVec 4} (h : memOk s) : memOk
    (s.store d p size sb) := by
  unfold State.store
  dsimp only
  split
  · exact State.preciseF_memOk h
  split
  · exact h
  · exact State.cacheFor_memOk h

theorem execWait_memOk {m : BitVec 15} (h : memOk s) : outOk (execWait m s) := by
  unfold execWait
  refine outOk_next ?_
  split <;> exact h

theorem execFence_memOk {sc : BitVec 3} {_o : BitVec 2} (h : memOk s) : outOk (execFence sc _o s) := by
  unfold execFence
  split
  · exact outOk_next (State.preciseC_memOk h)
  refine outOk_next ?_
  split <;> exact h

theorem State.noteTag_memOk {k n : Nat} {w : Poster} (h : memOk s) : memOk (s.noteTag k n w) := by
  unfold State.noteTag
  split <;> exact h

theorem State.noteKeys_memOk {ks : List Nat} {w : Poster} (h : memOk s) : memOk (s.noteKeys ks w) := by
  unfold State.noteKeys
  dsimp only
  split <;> exact h

theorem State.atomic_memOk {p : Word} {s5 : Bool} {fn : Word → Option Word} {fin : Word → Seq → Seq} (h : memOk s) : memOk
    (s.atomic p s5 fn fin) := by
  unfold State.atomic
  dsimp only
  split
  · exact h
  split
  · exact State.preciseF_memOk h
  · exact State.precise_memOk h
  split
  · exact State.ask_memOk h
  split
  · exact State.consumeFault_memOk (State.unask_memOk h)
  split
  · exact State.noteTag_memOk (State.write_memOk (State.touchIssue_memOk (State.scrub_memOk (State.cacheFor_memOk h))))
  · exact State.touchIssue_memOk (State.scrub_memOk (State.cacheFor_memOk h))

theorem State.atomicOld_memOk {d a : BitVec 6} {sc : BitVec 3} {fn : Word → Option Word} (h : memOk s) : memOk
    (s.atomicOld d a sc fn) := by
  unfold State.atomicOld
  split
  · exact State.preciseC_memOk h
  · exact State.atomic_memOk h

theorem execAload_memOk {_o : BitVec 2} {d a : BitVec 6} {sc : BitVec 3} (h : memOk s) : outOk (execAload _o d a sc s) := by
  unfold execAload
  split
  · exact outOk_next (State.preciseC_memOk h)
  · exact outOk_next (State.atomic_memOk h)

theorem execAstore_memOk {_o : BitVec 2} {a b : BitVec 6} {sc : BitVec 3} (h : memOk s) : outOk (execAstore _o a b sc s) := by
  unfold execAstore
  split
  · exact outOk_next (State.preciseC_memOk h)
  · exact outOk_next (State.atomic_memOk h)

/-! ### Barrier objects (Machine/Barrier) -/

theorem State.barChunks_memOk {k : Nat} {cs : List Nat} (h : memOk s) : memOk (s.barChunks k cs).1 := by
  induction cs generalizing s with
  | nil => exact h
  | cons c cs ih =>
    unfold State.barChunks
    split
    · exact ih (State.write_memOk h)
    · exact h

theorem State.barAtomic_memOk {p : Word} {f : Word → Except Nat Word} (h : memOk s) : memOk (s.barAtomic p f) := by
  unfold State.barAtomic
  dsimp only
  split
  · exact h
  split
  · exact State.preciseF_memOk h
  · exact State.precise_memOk h
  split
  · exact State.ask_memOk h
  split
  · exact State.consumeFault_memOk (State.unask_memOk h)
  split
  · exact State.preciseC_memOk h
  · exact State.write_memOk (State.touchIssue_memOk (State.scrub_memOk (State.cacheFor_memOk h)))

theorem execBarinit_memOk {a b : BitVec 6} (h : memOk s) : outOk (execBarinit a b s) := by
  unfold execBarinit
  dsimp only
  split
  · exact outOk_next h
  split
  · exact outOk_next (State.preciseF_memOk h)
  · exact outOk_next (State.precise_memOk h)
  split
  · exact outOk_next (State.ask_memOk h)
  · exact outOk_next (State.write_memOk (State.touchIssue_memOk (State.cacheFor_memOk h)))

theorem execBarexp_memOk {a b : BitVec 6} (h : memOk s) : outOk (execBarexp a b s) := by
  unfold execBarexp
  split
  · exact outOk_next (State.preciseC_memOk h)
  · exact outOk_next (State.barAtomic_memOk h)

theorem State.waitWord_memOk {p : Word} {a : SeqAcc} {f : Word → Option (Seq → Seq)} (h : memOk s) : memOk
    (s.waitWord p a f) := by
  unfold State.waitWord
  dsimp only
  split
  · exact h
  split
  · exact State.preciseF_memOk h
  · exact State.precise_memOk h
  split
  · exact State.ask_memOk h
  split
  · exact State.consumeFault_memOk (State.unask_memOk h)
  split
  · exact h
  · exact State.touchIssue_memOk (State.scrub_memOk (State.cacheFor_memOk h))

theorem execWaita_memOk {c a b : BitVec 6} {sc : BitVec 3} (h : memOk s) : outOk (execWaita c a b sc s) := by
  unfold execWaita
  split
  · exact outOk_next (State.preciseC_memOk h)
  · exact outOk_next (State.waitWord_memOk h)

/-! ### Links and the console (Machine/Links) -/

theorem State.scrubKeys_memOk {ks : List Nat} (h : memOk s) : memOk (s.scrubKeys ks) := by
  unfold State.scrubKeys
  split
  · exact h
  · exact memOk_foldl (fun _ _ h => State.scrub_memOk h) h

theorem State.hostDo_memOk {p va : Nat} {op : HostOp} (h : memOk s) : memOk (s.hostDo p va op) := by
  unfold State.hostDo
  dsimp only
  split
  · split
    · exact h
    · split <;> exact State.scrubKeys_memOk h
  · split
    · exact h
    · exact State.writeKeys_memOk (State.noteKeys_memOk h)
  split
  · split
    · exact State.scrub_memOk h
    split
    · exact State.noteTag_memOk (State.write_memOk (State.scrub_memOk h))
    · exact State.scrub_memOk h
  · exact h

theorem State.consoleDrain_memOk {p : Nat} (h : memOk s) : someMem (s.consoleDrain p) := by
  unfold State.consoleDrain
  dsimp only
  split
  · split
    · exact someMem_none
    split
    · exact someMem_none
    split
    · exact someMem_none
    next h1 => exact someMem_some (State.devStore_memOk h _ h1 :)
  · exact someMem_none

theorem execConsoleSend_memOk (h : memOk s) : outOk (execConsoleSend s) := by
  exact outOk_next (memOk_getD h (State.consoleDrain_memOk h))

theorem State.consoleTake_memOk {p : Nat} {x : Byte} (h : memOk s) : someMem (s.consoleTake p x) := by
  unfold State.consoleTake
  dsimp only
  split
  · split
    · exact someMem_none
    split
    · exact someMem_none
    next h1 => exact someMem_toOption (State.devStore_memOk (State.devStore_memOk h _ h1))
  · exact someMem_none

theorem State.consoleEnter_memOk {p : Nat} (h : memOk s) : someMem (s.consoleEnter p) := by
  unfold State.consoleEnter
  split
  · exact someMem_none
  · exact State.consoleTake_memOk h

theorem execConsoleReceive_memOk (h : memOk s) : outOk (execConsoleReceive s) := by
  unfold execConsoleReceive
  dsimp only
  split
  · exact outOk_next h
  · exact outOk_next (memOk_getD h (State.consoleEnter_memOk h))

theorem State.portDown_memOk {n : Nat} (h : memOk s) : memOk (s.portDown n) := by
  unfold State.portDown
  dsimp only
  split <;> exact h

theorem State.refuseFlit_memOk {n sq : Nat} (h : memOk s) : memOk (s.refuseFlit n sq) := by
  unfold State.refuseFlit
  dsimp only
  split
  · exact State.portDown_memOk h
  · exact h

theorem execFlitReceive_memOk (h : memOk s) : outOk (execFlitReceive s) := by
  unfold execFlitReceive
  dsimp only
  split
  · exact outOk_next h
  split
  · exact outOk_next (State.refuseFlit_memOk h)
  split
  · split
    · exact outOk_next h
    refine outOk_next ?_
    split <;> exact h
  split
  · exact outOk_next (State.refuseFlit_memOk h)
  · exact outOk_next h

theorem execLinkDown_memOk (h : memOk s) : outOk (execLinkDown s) := by
  unfold execLinkDown
  refine outOk_next ?_
  split
  · exact State.portDown_memOk h
  · exact h

theorem execLinkTrain_memOk (h : memOk s) : outOk (execLinkTrain s) := by
  unfold execLinkTrain
  dsimp only
  refine outOk_next ?_
  split <;> exact h

/-! ### Buffer records (Machine/Records) -/

theorem State.scrubPins_memOk {r : Nat} {x : Except Fail (List Leaf)} (h : memOk s) : memOk (s.scrubPins r x) := by
  unfold State.scrubPins
  split
  · exact h
  split
  · exact memOk_foldl (fun _ _ h => State.scrubWalk_memOk h) h
  split
  · exact State.scrubWalk_memOk h
  · exact h

/-! ### The entry and the resumption of nodes (Machine/Nodes) -/

theorem State.unspillOne_memOk {d prio : Nat} (h : memOk s) : someMem (s.unspillOne d prio) := by
  unfold State.unspillOne
  split
  · exact someMem_none
  split
  · exact someMem_some (State.devScrub_memOk h)
  · exact someMem_none

theorem State.spill_memOk {d : Nat} {r : Ready} (h : memOk s) : memOk (s.spill d r) := by
  have hroom : memOk (if (s.die d).sched.ringCount r.cont.prio < 2 ^ (s.die d).sched.spsz then s
      else (s.unspillOne d r.cont.prio).getD s) := by
    split
    · exact h
    · exact memOk_getD h (State.unspillOne_memOk h)
  unfold State.spill
  dsimp only
  split
  next h1 => exact State.devStore_memOk (by exact hroom) _ h1
  · exact hroom

theorem State.addReady_memOk {d : Nat} {r : Ready} (h : memOk s) : memOk (s.addReady d r) := by
  unfold State.addReady
  dsimp only
  split
  · split
    · exact State.spill_memOk h
    split
    · exact h
    · exact State.spill_memOk h
  split
  · exact h
  · exact State.spill_memOk h

theorem State.unspillN_memOk {d prio n : Nat} (h : memOk s) : memOk (s.unspillN d prio n) := by
  induction n generalizing s with
  | zero => exact h
  | succ n ih =>
    unfold State.unspillN
    split
    next h1 => exact ih (State.unspillOne_memOk h _ h1)
    · exact h

theorem State.unspill_memOk {d prio : Nat} (h : memOk s) : memOk (s.unspill d prio) := by
  unfold State.unspill
  dsimp only
  split
  · exact State.unspillN_memOk h
  · exact h

theorem State.freeEntry_memOk {gid : Option Nat} (h : memOk s) : memOk (s.freeEntry gid) := by
  unfold State.freeEntry
  split <;> exact h

theorem State.enqueue_memOk {d : Nat} {c : Cont} {gid : Option Nat} {saved replay : Bool} {w : Waiter} {held : optParam
    (Table (List (Nat × Cont))) []} (h : memOk s) : memOk (s.enqueue d c gid saved replay w held).1 := by
  unfold State.enqueue
  dsimp only
  split
  · exact State.message_memOk (State.freeEntry_memOk (State.tally_memOk (State.devScrub_memOk h)))
  split
  · split
    · exact State.addReady_memOk (State.devScrub_memOk h)
    split
    · exact State.message_memOk (State.devScrub_memOk h)
    · exact State.devScrub_memOk h
  split
  · exact State.addReady_memOk (State.devScrub_memOk h)
  split
  · exact State.message_memOk (State.devScrub_memOk h)
  · exact State.devScrub_memOk h

theorem State.dropReady_memOk {d : Nat} {r : Ready} (h : memOk s) : memOk (s.dropReady d r) := State.unspill_memOk h

theorem State.startNode_memOk {r : Nat} {x : Ready} (h : memOk s) : memOk (s.startNode r x) := by
  unfold State.startNode
  dsimp only
  split
  · exact State.count_memOk h
  · exact h

theorem State.repin_memOk {r : Nat} {bs : List Byte} {n : Nat} (h : memOk s) : okMem (s.repin r bs n) := by
  unfold State.repin
  dsimp only
  split
  · exact okMem_error _
  · exact okMem_ok h

/-- The records of a saved node are pinned one after the other, whatever becomes of each. -/
theorem State.repins_memOk {r : Nat} {bs : List Byte} {mask : Word} {ns : List Nat} {x : State × Option Fail} (h : memOk x.1) :
    memOk (ns.foldl (fun (acc : State × Option Fail) n =>
      if mask.getLsbD n then
        match acc.1.repin r bs n with
        | .ok s => (s, acc.2)
        | .error f => (acc.1, acc.2 <|> some f)
      else acc) x).1 := by
  induction ns generalizing x with
  | nil => exact h
  | cons n ns ih =>
    refine ih ?_
    dsimp only
    split
    · split
      next h1 => exact State.repin_memOk h _ h1
      · exact h
    · exact h

theorem State.resumeNode_memOk {r : Nat} {x : Ready} (h : memOk s) : memOk (s.resumeNode r x) := by
  unfold State.resumeNode
  dsimp only
  split
  · exact State.message_memOk (State.tally_memOk (State.devScrub_memOk h))
  split
  · exact State.message_memOk h
  have hpins (bs : List Byte) := State.repins_memOk (r := r) (bs := bs) (mask := areaWord bs 0x238) (ns := List.range 64)
    (x := (((s.devScrub (s.partOf r) (saveAt x.cont.fp) saveSize).startNode r x).modHar r fun h => h.restore bs, none))
    (State.startNode_memOk (State.devScrub_memOk h))
  split
  · exact hpins _
  · exact State.preciseF_memOk (hpins _)

theorem State.beginNode_memOk {r : Nat} {x : Ready} (h : memOk s) : memOk (s.beginNode r x) := by
  unfold State.beginNode
  split
  · exact State.resumeNode_memOk h
  · exact State.startNode_memOk h

theorem State.holdFor_memOk {gi r : Nat} (h : memOk s) : memOk (s.holdFor gi r) := by
  unfold State.holdFor
  dsimp only
  split
  · exact h
  · split <;> exact h

theorem State.fellIdle_memOk {r : Nat} (h : memOk s) : memOk (s.fellIdle r) := by
  unfold State.fellIdle
  dsimp only
  split
  · exact h
  · split <;> exact h

theorem State.leaveNode_memOk {r : Nat} (h : memOk s) : memOk (s.leaveNode r) := State.fellIdle_memOk h

theorem State.armGang_memOk {r : Nat} {x : Ready} (h : memOk s) : memOk (s.armGang r x) := by
  unfold State.armGang
  dsimp only
  split <;> exact State.dropReady_memOk h

theorem State.take_memOk {r : Nat} (h : memOk s) : memOk (s.take r) := by
  unfold State.take
  dsimp only
  split
  · exact h
  split
  · exact State.armGang_memOk h
  refine State.beginNode_memOk ?_
  split <;> exact State.dropReady_memOk h

theorem State.decrement_memOk {d0 gid : Nat} {w : Waiter} (h : memOk s) : memOk (s.decrement d0 gid w).1 := by
  unfold State.decrement
  dsimp only
  split
  · exact State.message_memOk h
  split
  · exact State.message_memOk h
  split
  · exact State.enqueue_memOk h
  · exact h

/-! ### Boot (Machine/Boot) -/

theorem execAntiRollbackRaise_memOk (h : memOk s) : outOk (execAntiRollbackRaise s) := by
  unfold execAntiRollbackRaise
  dsimp only
  refine outOk_next ?_
  split <;> exact h

theorem State.rebooted_memOk : memOk s.rebooted := rfl

theorem State.stage1_memOk {bs : List Byte} (h : memOk s) : memOk (s.stage1 bs) := by
  unfold State.stage1
  dsimp only
  split
  · exact h
  · split <;> exact h

theorem State.repairRank_memOk {p : BootPlan} {r : Nat} (h : memOk s) : memOk (s.repairRank p r) := by
  unfold State.repairRank
  split <;> exact h

theorem State.remap_memOk {p : BootPlan} (h : memOk s) : memOk (s.remap p) := by
  unfold State.remap
  dsimp only
  refine memOk_foldl (fun _ _ h => ?_) ?_
  · split <;> exact h
  refine memOk_foldl (fun _ _ h => State.repairRank_memOk h) (memOk_foldl (fun _ _ h => h) ?_)
  refine memOk_foldl (fun _ _ h => ?_) ?_
  · split <;> exact h
  refine memOk_foldl (fun _ _ h => h) (memOk_foldl (fun _ _ h => ?_) h)
  split <;> exact h

theorem State.firmWrite_memOk {pa : Nat} {bs : List Byte} (h : memOk s) : memOk (s.firmWrite pa bs) := State.write_memOk h

theorem State.unhalt_memOk {r : Nat} (h : memOk s) : memOk (s.unhalt r) := by
  unfold State.unhalt
  split
  · exact State.leaveNode_memOk h
  · exact h

theorem State.startSupervisor_memOk {p at' entry : Nat} (h : memOk s) : memOk (s.startSupervisor p at' entry) := by
  unfold State.startSupervisor
  dsimp only
  split <;> exact memOk_foldl (fun _ _ h => State.unhalt_memOk h) h

theorem State.startImage_memOk {p : Nat} {i : SupImage} {at' : Nat} (h : memOk s) : memOk (s.startImage p i at') :=
  State.startSupervisor_memOk (State.firmWrite_memOk h)

theorem State.bootPartition_memOk {p : Nat} {bs : List Byte} {at' : Nat} (h : memOk s) : memOk (s.bootPartition p bs at') := by
  unfold State.bootPartition
  dsimp only
  split
  · exact h
  · exact State.startImage_memOk h

theorem execFirmwareBoot_memOk (h : memOk s) : outOk (execFirmwareBoot s) := by
  unfold execFirmwareBoot
  dsimp only
  split
  · exact outOk_next (State.stage1_memOk h)
  split
  · exact outOk_next h
  · exact outOk_next (memOk_foldl (fun _ _ h => State.bootPartition_memOk h) (memOk_foldl (fun _ _ h => h) (memOk_foldl
    (fun _ _ h => State.firmWrite_memOk h) (memOk_foldl (fun _ _ h => h) (memOk_foldl (fun _ _ h => h)
      (State.remap_memOk h))))))

theorem execPartitionStart_memOk (h : memOk s) : outOk (execPartitionStart s) := by
  unfold execPartitionStart
  dsimp only
  split
  · exact outOk_next h
  split
  · exact outOk_next h
  · exact outOk_next (State.startImage_memOk h)

end Sys2Proof.Machine
end

section
/-! SUPPORT. What Bugle, the engines' control and the packet queues do keeps memory in its canonical form (log entry 3). -/

namespace Sys2Proof.Machine

open Sys2Proof.Safety

variable {s : State}

/-! ### Bugle (Machine/Bugle) -/

theorem execBgarr_memOk {a : BitVec 6} (h : memOk s) : outOk (execBgarr a s) := by
  unfold execBgarr
  dsimp only
  split
  · exact outOk_next (State.preciseC_memOk h)
  · split <;> exact outOk_next h

theorem execBgwait_memOk {a : BitVec 6} (h : memOk s) : outOk (execBgwait a s) := by
  unfold execBgwait
  dsimp only
  split
  · exact outOk_next (State.preciseC_memOk h)
  · split <;> exact outOk_next h

theorem execBgbar_memOk {a : BitVec 6} (h : memOk s) : outOk (execBgbar a s) := by
  unfold execBgbar
  dsimp only
  split
  · exact outOk_next (State.preciseC_memOk h)
  · split <;> split <;> exact outOk_next h

theorem execBgsend_memOk {a b : BitVec 6} (h : memOk s) : outOk (execBgsend a b s) := by
  unfold execBgsend
  dsimp only
  split
  · exact outOk_next (State.preciseC_memOk h)
  · split <;> exact outOk_next h

theorem execBgrecv_memOk {d a : BitVec 6} (h : memOk s) : outOk (execBgrecv d a s) := by
  unfold execBgrecv
  dsimp only
  split
  · exact outOk_next (State.preciseC_memOk h)
  split
  · exact outOk_next (State.preciseC_memOk h)
  · split <;> exact outOk_next h

theorem execBgtime_memOk {d a : BitVec 6} (h : memOk s) : outOk (execBgtime d a s) := by
  unfold execBgtime
  dsimp only
  split
  · exact outOk_next (State.preciseC_memOk h)
  · exact outOk_next h

theorem State.tellTimes_memOk (h : memOk s) : memOk s.tellTimes := memOk_foldl (fun _ _ h => h) h

theorem execBgsendDeparture_memOk (h : memOk s) : outOk (execBgsendDeparture s) := by
  unfold execBgsendDeparture
  dsimp only
  split <;> exact outOk_next h

theorem execBugleDelivery_memOk (h : memOk s) : outOk (execBugleDelivery s) := by
  unfold execBugleDelivery
  dsimp only
  split
  · exact outOk_next h
  · exact outOk_next (memOk_foldl (fun _ _ h => h) h)

theorem State.completeInstance_memOk {key : Nat} {arr : List (Nat × Nat)} (h : memOk s) : memOk (s.completeInstance key arr) :=
  memOk_foldl (fun _ _ h => h) h

theorem execBarrierInstanceComplete_memOk (h : memOk s) : outOk (execBarrierInstanceComplete s) := by
  unfold execBarrierInstanceComplete
  dsimp only
  split
  · exact outOk_next h
  · exact outOk_next (State.completeInstance_memOk h)

/-! ### The issue of an engine word (Machine/Engine) -/

theorem State.raiseFault_memOk {e : Eng} {b : Block} {bf : BFault} {f : Fail} {g : EngSt → EngSt} (h : memOk s) : memOk
    (s.raiseFault e b bf f g) := by
  unfold State.raiseFault
  dsimp only
  split
  · split
    · exact h
    · exact State.tally_memOk h
  · exact State.tally_memOk h

theorem State.blockFault_memOk {e : Eng} {f : Fail} (h : memOk s) : memOk (s.blockFault e f) := by
  unfold State.blockFault
  dsimp only
  split
  · exact h
  · exact State.raiseFault_memOk h

theorem State.blockFaultC_memOk {e : Eng} {code : Nat} (h : memOk s) : memOk (s.blockFaultC e code) := State.blockFault_memOk h

theorem State.engStall_memOk {e : Eng} {cause : Nat} {awaited : optParam (List FeReg) []} (h : memOk s) : memOk
    (s.engStall e cause awaited) := by
  unfold State.engStall
  dsimp only
  split
  · exact h
  split
  · exact State.blockFault_memOk h
  split
  · split <;> exact h
  · exact h

theorem State.pend_memOk {e : Eng} {p : Pend} (h : memOk s) : memOk (s.pend e p) := by
  unfold State.pend
  split <;> exact h

theorem State.issued_memOk {f : Front} {b : Block} {p : Pend} (h : memOk s) : memOk (s.issued f b p) := State.pend_memOk h

/-- A word that issues keeps memory in canonical form where what it does at once does. -/
theorem State.issue_memOk {f : Front} {run : State → Issue} (h : memOk s) (hrun : (run s).memOk) : memOk (s.issue f run) := by
  unfold State.issue
  dsimp only
  split
  · exact h
  split
  · exact State.blockFaultC_memOk h
  split
  · exact h
  split
  · exact h
  split
  · exact State.engStall_memOk h
  split
  · exact State.blockFault_memOk h
  · exact State.engStall_memOk h
  next h1 => rw [h1] at hrun; exact State.engStall_memOk hrun
  next h1 => rw [h1] at hrun; exact State.blockFault_memOk hrun
  next h1 => rw [h1] at hrun; exact State.issued_memOk hrun
  next h1 => rw [h1] at hrun; exact State.issued_memOk hrun

theorem State.nextJ_memOk {e : Eng} {sr : Bool} (h : memOk s) : memOk (s.nextJ e sr).1 := by
  unfold State.nextJ
  split
  · exact h
  · split <;> exact h

theorem State.endBlock_memOk {e : Eng} (h : memOk s) : memOk (s.endBlock e) := by
  unfold State.endBlock
  dsimp only
  split
  · exact h
  split
  · exact State.blockFaultC_memOk h
  · exact h

theorem State.loop_memOk {e : Eng} {w : LWord} (h : memOk s) : memOk (s.loop e w) := by
  unfold State.loop
  dsimp only
  split
  · exact h
  split
  · split <;> split <;> exact h
  split
  · exact State.blockFaultC_memOk h
  split
  · split
    · exact State.blockFaultC_memOk h
    · split <;> exact h
  split
  · exact State.blockFaultC_memOk h
  · split <;> exact h

theorem State.fetchScrub_memOk {r : Nat} {p : Word} {n : Nat} (h : memOk s) : memOk (s.fetchScrub r p n) :=
  State.devScrub_memOk h

theorem State.fetchFault_memOk {e : Eng} {f : Fail} (h : memOk s) : memOk (s.fetchFault e f) := by
  unfold State.fetchFault
  split
  · exact h
  · exact State.blockFault_memOk h

theorem State.codeScrub_memOk {e : Eng} {b : Block} {n : Nat} (h : memOk s) : memOk (s.codeScrub e b n) := by
  unfold State.codeScrub
  split
  · exact State.fetchScrub_memOk h
  · exact h

theorem State.fetchBlock_memOk {e : Eng} {ends : Nat → Bool} (h : memOk s) : memOk (s.fetchBlock e ends) := by
  unfold State.fetchBlock
  split
  · exact h
  split
  · exact State.codeScrub_memOk h
  · exact State.raiseFault_memOk (State.codeScrub_memOk h)

theorem execBlockDispatch_memOk (h : memOk s) : outOk (execBlockDispatch s) := by
  unfold execBlockDispatch
  dsimp only
  split
  · exact outOk_next h
  refine outOk_next ?_
  split <;> exact h

theorem execTimedBlockStart_memOk (h : memOk s) : outOk (execTimedBlockStart s) := by
  unfold execTimedBlockStart
  dsimp only
  split
  · exact outOk_next h
  split
  · exact outOk_next h
  split
  · exact outOk_next h
  refine outOk_next ?_
  split <;> exact h

theorem execBlockRetire_memOk (h : memOk s) : outOk (execBlockRetire s) := by
  unfold execBlockRetire
  dsimp only
  split <;> exact outOk_next h

theorem State.lateFaultAt_memOk {r : Nat} {e : Eng} {p : Pend} {f : Fail} (h : memOk s) : memOk (s.lateFaultAt r e p f) := by
  unfold State.lateFaultAt
  dsimp only
  split <;> exact h

theorem State.linkFault_memOk {r : Nat} {e : Eng} {p : Pend} (h : memOk s) : memOk (s.linkFault r e p) :=
  State.lateFaultAt_memOk h

theorem execTLoadArrival_memOk (h : memOk s) : outOk (execTLoadArrival s) := by
  unfold execTLoadArrival
  split
  · refine outOk_next ?_
    split
    · exact State.linkFault_memOk h
    · exact h
  · exact outOk_next h

/-! ### Control of the engines (Machine/SeqCtl) -/

theorem execBr_memOk {k : BitVec 4} {n : Bool} {disp : BitVec 21} (h : memOk s) : outOk (execBr k n disp s) := by
  unfold execBr
  dsimp only
  split
  · exact outOk_next (State.preciseC_memOk h)
  · exact outOk_next h

theorem execBrl_memOk {k : BitVec 4} {n : Bool} {disp : BitVec 21} (h : memOk s) : outOk (execBrl k n disp s) := by
  unfold execBrl
  dsimp only
  split
  · exact outOk_next (State.preciseC_memOk h)
  · exact outOk_next h

theorem execJr_memOk {a : BitVec 6} (h : memOk s) : outOk (execJr a s) := by
  unfold execJr
  dsimp only
  split
  · exact outOk_next (State.preciseC_memOk h)
  split
  · exact outOk_next (State.precise_memOk h)
  · exact outOk_next h

theorem execJrl_memOk {d a : BitVec 6} (h : memOk s) : outOk (execJrl d a s) := by
  unfold execJrl
  dsimp only
  split
  · exact outOk_next (State.preciseC_memOk h)
  split
  · exact outOk_next (State.precise_memOk h)
  · exact outOk_next h

theorem execHalt_memOk (h : memOk s) : outOk (execHalt s) := by
  unfold execHalt
  split
  · exact outOk_next (State.preciseC_memOk h)
  · exact outOk_next h

theorem execWaitint_memOk (h : memOk s) : outOk (execWaitint s) := by
  unfold execWaitint
  dsimp only
  split
  · exact outOk_next (State.preciseC_memOk h)
  · split <;> exact outOk_next h

theorem execUnassignedSEncoding_memOk {w : BitVec 32} (h : memOk s) : outOk (execUnassignedSEncoding w s) := by
  unfold execUnassignedSEncoding
  split <;> exact outOk_next (State.preciseC_memOk h)

/-! ### Blocks and their faults (Machine/EngCtl) -/

theorem execExec_memOk {e : BitVec 2} {t : Bool} {a : BitVec 6} {o : BitVec 16} (h : memOk s) : outOk (execExec e t a o s) := by
  unfold execExec
  dsimp only
  split
  · exact outOk_next (State.preciseC_memOk h)
  split
  · split
    · exact outOk_next (State.preciseC_memOk h)
    split
    · exact outOk_next h
    split
    · exact outOk_next h
    · split <;> exact outOk_next h
  split
  · exact outOk_next (State.preciseC_memOk h)
  split
  · exact outOk_next h
  split
  · exact outOk_next h
  · split <;> exact outOk_next h

theorem execEngwait_memOk {a e : BitVec 6} (h : memOk s) : outOk (execEngwait a e s) := by
  unfold execEngwait
  dsimp only
  split
  · exact outOk_next (State.preciseC_memOk h)
  · split <;> exact outOk_next h

theorem execEngseq_memOk {d e : BitVec 6} (h : memOk s) : outOk (execEngseq d e s) := by
  unfold execEngseq
  split
  · exact outOk_next (State.preciseC_memOk h)
  · exact outOk_next h

theorem execPwrreq_memOk {n : BitVec 6} (h : memOk s) : outOk (execPwrreq n s) := by
  unfold execPwrreq
  dsimp only
  split
  · exact outOk_next (State.preciseC_memOk h)
  · split <;> exact outOk_next h

theorem execPowerGrant_memOk (h : memOk s) : outOk (execPowerGrant s) := by
  unfold execPowerGrant
  dsimp only
  split
  · exact outOk_next h
  · split <;> exact outOk_next h

theorem State.enterPending_memOk {r : Nat} {b : BFault} (h : memOk s) : memOk (s.enterPending r b) := State.takeTrap_memOk h

theorem execBlockFaultEntry_memOk (h : memOk s) : outOk (execBlockFaultEntry s) := by
  unfold execBlockFaultEntry
  dsimp only
  split
  · refine outOk_next ?_
    split
    · exact State.enterPending_memOk h
    · exact h
  · exact outOk_next h

theorem execInterruptEntry_memOk (h : memOk s) : outOk (execInterruptEntry s) := by
  unfold execInterruptEntry
  dsimp only
  split
  · refine outOk_next ?_
    split
    · exact State.takeTrap_memOk h
    · exact h
  · exact outOk_next h

theorem execWdogExpire_memOk (h : memOk s) : outOk (execWdogExpire s) := by
  unfold execWdogExpire
  dsimp only
  split
  · exact outOk_next (State.takeTrap_memOk h)
  · exact outOk_next h

theorem execResumeCycle_memOk (h : memOk s) : outOk (execResumeCycle s) := by
  unfold execResumeCycle
  split <;> exact outOk_next h

/-! ### The bridge to the queues and the records (Machine/Post) -/

theorem State.postFault_memOk {f : Fail} {idx : Word} {sz : Nat} (h : memOk s) : memOk (s.postFault f idx sz) := by
  unfold State.postFault
  split
  · exact State.preciseF_memOk h
  · exact State.takeTrap_memOk (State.tally_memOk h)

theorem State.postWords_memOk {slot : Word} {ws : List (Nat × Word)} (h : memOk s) : okMem (s.postWords slot ws) := by
  induction ws generalizing s with
  | nil => exact okMem_ok h
  | cons x ws ih =>
    unfold State.postWords
    split
    · exact okMem_error _
    · exact ih (State.noteTag_memOk (State.write_memOk h))

theorem State.postSlot_memOk {d b : BitVec 6} {hdr idx : Word} {sz : Nat} (h : memOk s) : memOk
    (s.postSlot d b hdr idx sz) := by
  unfold State.postSlot
  dsimp only
  split
  · exact State.postFault_memOk h
  split
  · exact h
  split
  · exact State.postFault_memOk h
  next h1 => exact (State.postWords_memOk h _ h1 :)

theorem execQpost_memOk {d a b : BitVec 6} (h : memOk s) : outOk (execQpost d a b s) := by
  unfold execQpost
  dsimp only
  split
  · exact outOk_next (State.preciseC_memOk h)
  split
  · exact outOk_next (State.postSlot_memOk h)
  split
  · exact outOk_next h
  split
  · exact outOk_next (State.precise_memOk h)
  split
  · exact outOk_next (State.precise_memOk h)
  split
  · exact outOk_next (State.preciseF_memOk h)
  split
  · exact outOk_next (State.preciseC_memOk h)
  split
  · exact outOk_next (State.preciseF_memOk h)
  · exact outOk_next (State.postSlot_memOk (State.write_memOk (State.scrub_memOk (State.cacheFor_memOk h))))

theorem execBrld_memOk {d a : BitVec 6} (h : memOk s) : outOk (execBrld d a s) := by
  unfold execBrld
  dsimp only
  split
  · exact outOk_next h
  split
  · exact outOk_next (State.preciseC_memOk h)
  split
  · exact outOk_next (State.preciseF_memOk (State.devScrub_memOk h))
  split
  · exact outOk_next (State.preciseC_memOk (State.devScrub_memOk h))
  split
  · exact outOk_next (State.preciseC_memOk (State.devScrub_memOk h))
  split
  · exact outOk_next (State.preciseF_memOk (State.scrubPins_memOk (State.devScrub_memOk h)))
  · exact outOk_next (State.scrubPins_memOk (State.devScrub_memOk h))

theorem execBrget_memOk {d a : BitVec 6} (h : memOk s) : outOk (execBrget d a s) := by
  unfold execBrget
  split
  · exact outOk_next (State.preciseC_memOk h)
  split
  · exact outOk_next (State.preciseC_memOk h)
  · exact outOk_next h

theorem execTref_memOk {n : BitVec 4} {a b : BitVec 6} (h : memOk s) : outOk (execTref n a b s) := by
  unfold execTref
  dsimp only
  split
  · exact outOk_next (State.preciseC_memOk h)
  · exact outOk_next h

theorem execTrefBankRefresh_memOk (h : memOk s) : outOk (execTrefBankRefresh s) := by
  unfold execTrefBankRefresh
  dsimp only
  split <;> exact outOk_next h

theorem execRefreshComplete_memOk (h : memOk s) : outOk (execRefreshComplete s) := by
  unfold execRefreshComplete
  dsimp only
  split
  · exact outOk_next h
  · exact outOk_next (State.refreshRows_memOk h)

theorem execBackoffEnd_memOk (h : memOk s) : outOk (execBackoffEnd s) := by
  unfold execBackoffEnd
  dsimp only
  split <;> exact outOk_next h

theorem execForcedRefresh_memOk (h : memOk s) : outOk (execForcedRefresh s) := by
  unfold execForcedRefresh
  dsimp only
  split <;> exact outOk_next h

/-! ### Engine accesses (Machine/Access) -/

theorem State.scrubSpots_memOk {sps : List Spot} (h : memOk s) : memOk (s.scrubSpots sps) := by
  unfold State.scrubSpots
  split
  · exact h
  · exact memOk_foldl (fun _ _ h => memOk_foldl (fun _ _ h => State.scrub_memOk h) h) h

theorem State.cacheSpots_memOk {r : Nat} {b : BufRec} {sps : List Spot} (h : memOk s) : memOk (s.cacheSpots r b sps) := by
  unfold State.cacheSpots
  split
  · exact memOk_foldl (fun _ _ h => State.cacheLeaf_memOk h) h
  · exact h

theorem Served.step_memOk {close : Bool} {x : Served} {bs : List Nat} (h : memOk x.s) : memOk (x.step close bs).s := by
  unfold Served.step
  dsimp only
  split
  · exact h
  split
  · exact h
  · exact State.touchRow_memOk h

theorem State.serveBeats_memOk {close : Bool} {done : List (Nat × Bool)} {bs : List Nat} (h : memOk s) :
    memOk (s.serveBeats close done bs).s :=
  List.foldlRecOn (motive := fun x : Served => memOk x.s) _ _ h fun _ h _ _ => Served.step_memOk h

theorem State.asks_memOk {a : Asker} {bs : List Nat} (h : memOk s) : memOk (bs.foldl (fun s b => s.ask a (256 * b)) s) :=
  memOk_foldl (fun _ _ h => State.ask_memOk h) h

theorem State.unasks_memOk {a : Asker} {bs : List Nat} (h : memOk s) : memOk (bs.foldl (fun s b => s.unask a (256 * b)) s) :=
  memOk_foldl (fun _ _ h => State.unask_memOk h) h

theorem State.banks_memOk {e : Eng} {f : Rec} {ks : List Nat} {t : State} {n : Nat} (h : memOk s)
    (ht : s.banks e f ks = .ok (t, n)) : memOk t := by
  unfold State.banks at ht
  dsimp only at ht
  split at ht
  · cases ht
  split at ht <;> cases ht
  exact State.serveBeats_memOk (State.unasks_memOk h)

theorem State.banks_error_memOk {e : Eng} {f : Rec} {ks : List Nat} {t : State} (h : memOk s)
    (ht : s.banks e f ks = .error t) : memOk t := by
  unfold State.banks at ht
  dsimp only at ht
  split at ht
  · cases ht
    exact State.asks_memOk h
  split at ht <;> cases ht
  exact State.asks_memOk (State.serveBeats_memOk (State.unasks_memOk h))

theorem State.putCells_memOk {bits : Nat} {rows : List (List (Option Spot) × List Nat)} (h : memOk s) :
    memOk (s.putCells bits rows).1 :=
  List.foldlRecOn (motive := fun x : State × Nat => memOk x.1) rows _ h fun _ h row _ =>
    State.putCell_memWf h bits (s.asPoster s.cur) row

/-! ### Packet queues (Machine/Queue) -/

theorem State.headerWrite_memOk {c : Cew} {off : Nat} {w : Word} (h : memOk s) : okMem (s.headerWrite c off w) :=
  State.devStore_memOk h

theorem State.headerFlags_memOk {c : Cew} {set clear : Word} (h : memOk s) : okMem (s.headerFlags c set clear) := by
  unfold State.headerFlags
  split
  · exact okMem_error _
  · exact State.headerWrite_memOk h

theorem orKeep_memOk {x : Except Fail State} (h : memOk s) (hx : okMem x) : memOk (orKeep s x) := by
  unfold orKeep
  split
  · exact hx _ rfl
  · exact h

theorem State.modQueue_memOk {d n ent : Nat} {f : Cew → Cew} (h : memOk s) : memOk (s.modQueue d n ent f) := by
  unfold State.modQueue
  split <;> exact h

theorem State.queueHalt_memOk {d n ent code idx unit : Nat} {rank : optParam (Option Nat) none} (h : memOk s) : memOk
    (s.queueHalt d n ent code idx unit rank) :=
  State.message_memOk (orKeep_memOk (orKeep_memOk (State.modQueue_memOk h) (State.headerWrite_memOk
    (State.modQueue_memOk h))) (State.headerFlags_memOk (orKeep_memOk (State.modQueue_memOk h) (State.headerWrite_memOk
      (State.modQueue_memOk h)))))

theorem State.queueTake_memOk {d n hdr p : Nat} {ws : List Word} (h : memOk s) : memOk (s.queueTake d n hdr p ws) := by
  unfold State.queueTake
  dsimp only
  split
  · exact h
  · split <;> exact h

theorem State.queueEnter_memOk {d n hdr : Nat} (h : memOk s) : memOk (s.queueEnter d n hdr) := by
  unfold State.queueEnter
  dsimp only
  split
  · exact State.queueHalt_memOk (State.tally_memOk (State.devScrub_memOk h))
  · exact State.queueTake_memOk (State.devScrub_memOk h)

theorem State.queueStop_memOk {d n hdr : Nat} (h : memOk s) : memOk (s.queueStop d n hdr) := by
  unfold State.queueStop
  dsimp only
  split <;> exact h

theorem State.raiseDone_memOk {d n ent : Nat} (h : memOk s) : okMem (s.raiseDone d n ent) := by
  unfold State.raiseDone
  dsimp only
  split
  · exact okMem_ok h
  · exact givesOn_map fun t ht => State.modQueue_memOk (State.headerWrite_memOk h t ht)

theorem State.haltAgain_memOk {d n : Nat} {f : Fail} (h : memOk s) : memOk (s.haltAgain d n f) :=
  State.queueHalt_memOk (State.tally_memOk h)

theorem State.clearHalt_memOk {d n : Nat} (h : memOk s) : okMem (s.clearHalt d n) := by
  unfold State.clearHalt
  dsimp only
  split
  · exact okMem_error _
  rename_i h1
  split
  · exact okMem_error _
  refine okMem_ok ?_
  split <;> exact (State.headerFlags_memOk h _ h1 :)

theorem State.dropPkt_memOk {q : PktId} (h : memOk s) : memOk (s.dropPkt q) := by
  unfold State.dropPkt
  dsimp only
  split
  · exact h
  split
  · exact h
  split
  · exact h
  · exact memOk_foldl (fun _ _ h => h) h

theorem State.nextHalt_memOk {d n : Nat} (h : memOk s) : memOk (s.nextHalt d n) := by
  unfold State.nextHalt
  dsimp only
  split
  · exact h
  split
  · exact State.queueHalt_memOk h
  · exact h

theorem State.afterHalt_memOk {d n : Nat} (h : memOk s) : memOk (s.afterHalt d n) := by
  unfold State.afterHalt
  dsimp only
  split
  next h1 => exact State.nextHalt_memOk (State.raiseDone_memOk h _ h1)
  · exact State.queueHalt_memOk h

theorem State.scrubHeader_memOk {d n : Nat} (h : memOk s) : memOk (s.scrubHeader d n) := by
  unfold State.scrubHeader
  dsimp only
  split
  · exact State.devScrub_memOk h
  · exact h

theorem State.queueRetry_memOk {s0 : State} {d n : Nat} (h : memOk s0) : memOk (s0.queueRetry d n) := by
  unfold State.queueRetry
  dsimp only
  split
  · exact State.scrubHeader_memOk h
  split
  · exact State.haltAgain_memOk (State.scrubHeader_memOk h)
  rename_i h1
  refine State.afterHalt_memOk ?_
  split <;> exact (State.clearHalt_memOk (State.scrubHeader_memOk h) _ h1 :)

theorem State.queueAbandon_memOk {s0 : State} {d n : Nat} (h : memOk s0) : memOk (s0.queueAbandon d n) := by
  unfold State.queueAbandon
  dsimp only
  split
  · exact State.scrubHeader_memOk h
  split
  · exact State.scrubHeader_memOk h
  split
  · exact State.haltAgain_memOk (State.scrubHeader_memOk h)
  next t h1 =>
  have ht : memOk t := State.clearHalt_memOk (State.scrubHeader_memOk h) t h1
  split
  · exact State.afterHalt_memOk ht
  have hdrop {i : PktId} : memOk ((t.dropPkt i).dropQueues d) := State.dropPkt_memOk ht
  refine State.afterHalt_memOk ?_
  split
  · split
    · exact orKeep_memOk hdrop (State.headerWrite_memOk hdrop)
    · exact hdrop
  split
  · exact orKeep_memOk hdrop (State.headerWrite_memOk hdrop)
  · exact hdrop

/-! ### The acceptance of a packet (Machine/Packets) -/

theorem State.scrubAccept_memOk {q : Cew} {by' : Poster} {c : Packet} (h : memOk s) : memOk (s.scrubAccept q by' c) := by
  unfold State.scrubAccept
  dsimp only
  split
  · exact h
  · exact memOk_foldl (fun _ _ h => State.scrub_memOk h) (memOk_foldl (fun _ _ h => State.devScrub_memOk h) h)

theorem State.accept_memOk {d n : Nat} (h : memOk s) : memOk (s.accept d n) := by
  unfold State.accept
  dsimp only
  split
  · exact State.queueHalt_memOk (State.tally_memOk (State.devScrub_memOk h))
  split
  · exact State.queueHalt_memOk (State.scrubAccept_memOk (State.devScrub_memOk h))
  next t h1 =>
  have ht : memOk t := State.headerWrite_memOk (State.scrubAccept_memOk (by exact State.devScrub_memOk h)) t h1
  refine (memOk_foldl (fun _ _ h => State.post_memOk h) ?_ :)
  split
  · split
    · exact State.count_memOk ht
    · exact ht
  · exact ht

theorem execPacketAccept_memOk (h : memOk s) : outOk (execPacketAccept s) := by
  unfold execPacketAccept
  dsimp only
  split
  · exact outOk_next h
  · exact outOk_next (State.accept_memOk h)

/-! ### What a packet carries and its end (Machine/Carry) -/

theorem State.freezeOwner_memOk {k : Pkt} {code : Nat} {f : Fail} (h : memOk s) : memOk (s.freezeOwner k code f) := by
  unfold State.freezeOwner
  split
  · split <;> exact h
  · exact h

theorem State.statusWrite_memOk {k : Pkt} {st det : Nat} (h : memOk s) : okMem (s.statusWrite k st det) :=
  State.devStore_memOk h

theorem State.packetHalt_memOk {k : Pkt} {f : Fail} {unit : Nat} (h : memOk s) : memOk (s.packetHalt k f unit) := by
  unfold State.packetHalt
  dsimp only
  refine State.freezeOwner_memOk (orKeep_memOk ?_ ?_)
  · split
    · exact State.tally_memOk h
    · exact State.queueHalt_memOk (State.tally_memOk h)
  · refine State.statusWrite_memOk ?_
    split
    · exact State.tally_memOk h
    · exact State.queueHalt_memOk (State.tally_memOk h)

theorem State.askBanks_memOk {k : Pkt} {ks : List Nat} (h : memOk s) : memOk (s.askBanks k ks) :=
  memOk_foldl (fun _ _ h => State.post_memOk h) h

theorem State.readKeys_memOk {ks : List Nat} (h : memOk s) : memOk (s.readKeys ks) := by
  unfold State.readKeys
  split
  · exact h
  · exact memOk_foldl (fun _ _ h => State.scrubGranule_memOk h) h

theorem State.carry_memOk {k : Pkt} {els : List OutEl} {fin : Status} (h : memOk s) : memOk (s.carry k els fin) := by
  unfold State.carry
  dsimp only
  split
  · exact State.askBanks_memOk h
  split
  · exact memOk_foldl (fun _ _ h => State.write_memOk h) (State.noteKeys_memOk (State.readKeys_memOk h))
  · exact State.packetHalt_memOk (memOk_foldl (fun _ _ h => State.write_memOk h) (State.noteKeys_memOk
    (State.readKeys_memOk h)))

theorem State.runPacket_memOk {q : PktId} {ty : Nat} {f : Pkt → List OutEl × Status} (h : memOk s) : memOk
    (s.runPacket q ty f) := by
  unfold State.runPacket
  dsimp only
  split
  · exact h
  · exact State.carry_memOk h

theorem State.flagWrite_memOk {k : Pkt} {st : Nat} (h : memOk s) : okMem (s.flagWrite k st) := by
  unfold State.flagWrite
  dsimp only
  split
  · split
    · exact okMem_ok h
    split
    · exact okMem_error _
    · exact okMem_ok h
    · exact okMem_ok (State.write_memOk h)
  · exact okMem_ok h

theorem State.doneWrite_memOk {k : Pkt} (h : memOk s) : okMem (s.doneWrite k) := by
  unfold State.doneWrite
  dsimp only
  split
  · exact okMem_ok (State.dropPkt_memOk (State.modQueue_memOk h))
  · exact givesOn_map fun t ht => State.dropPkt_memOk (State.modQueue_memOk (State.headerWrite_memOk h t ht))

/-- What the look at a packet's barrier object leaves. -/
theorem State.barrierStatus_memOk {k : Pkt} {st : Nat} (h : memOk s) :
    givesOn (fun x => memOk ((x.2.map (·.1)).getD s)) (s.barrierStatus k st) := by
  unfold State.barrierStatus
  dsimp only
  split
  · split
    · exact givesOn_error _
    split
    · exact givesOn_error _
    split
    · split
      · exact givesOn_ok (State.write_memOk (State.scrub_memOk h))
      · exact givesOn_ok (State.scrub_memOk h)
    · exact givesOn_ok (State.barChunks_memOk (State.scrub_memOk h))
  · exact givesOn_ok h

theorem Stop.halt_memOk {x : Stop} {k : Pkt} {det : Nat} (h : memOk x.s) : memOk (x.halt k det) := by
  have hq {c : Prop} [Decidable c] {t : State} {d n ent code idx unit : Nat} (ht : memOk t) :
      memOk (if c then t else t.queueHalt d n ent code idx unit) := by
    split
    · exact ht
    · exact State.queueHalt_memOk ht
  unfold Stop.halt
  dsimp only
  refine State.freezeOwner_memOk ?_
  split
  · exact hq (State.tally_memOk h)
  · exact orKeep_memOk (hq (State.tally_memOk h)) (State.statusWrite_memOk (hq (State.tally_memOk h)))

/-- The state that a packet's completion leaves, where it ends and where it stops. -/
def completed (x : Except Stop State) : Prop := okMem x ∧ ∀ y, x = .error y → memOk y.s

theorem completed_ok {t : State} (h : memOk t) : completed (.ok t) := ⟨okMem_ok h, fun _ e => by cases e⟩

theorem completed_error {x : Stop} (h : memOk x.s) : completed (.error x) := ⟨okMem_error _, fun _ e => by cases e; exact h⟩

theorem State.complete_memOk {k : Pkt} {st det stage : Nat} (h : memOk s) : completed (s.complete k st det stage) := by
  unfold State.complete
  dsimp only
  split
  · exact completed_error h
  split
  · exact completed_error h
  next h1 =>
  have ht := (givesOn_ite (okMem_ok h) (givesOn_bind (State.statusWrite_memOk h) fun t ht =>
    givesOn_ite (okMem_ok ht) (State.headerFlags_memOk ht))) _ h1
  split
  · exact completed_error ht
  next h2 =>
  have hu := (givesOn_ite (okMem_ok ht) (givesOn_ite (givesOn_map (State.barrierStatus_memOk ht))
    (givesOn_map (State.barrierStatus_memOk ht)))) _ h2
  split
  · exact completed_error hu
  next h3 =>
  have hv := (givesOn_ite (okMem_ok hu) (State.flagWrite_memOk hu)) _ h3
  split
  · exact completed_error hv
  next h4 => exact completed_ok (State.doneWrite_memOk hv _ h4)

theorem execPacketCompletion_memOk (h : memOk s) : outOk (execPacketCompletion s) := by
  unfold execPacketCompletion
  split
  · exact outOk_next h
  split
  · split
    · exact outOk_next h
    split
    · exact outOk_next (State.askBanks_memOk h)
    split
    next h1 => exact outOk_next ((State.complete_memOk h).1 _ h1)
    next h1 => exact outOk_next (Stop.halt_memOk ((State.complete_memOk h).2 _ h1))
  · exact outOk_next h

end Sys2Proof.Machine
end

section
/-! SUPPORT. What engine words and the queues of a sequencer do keeps memory in its canonical form (log entry 3). -/

namespace Sys2Proof.Machine

open Sys2Proof.Safety

variable {s : State}

/-! ### Special registers (Machine/Priv) -/

theorem State.repairSummary_memOk {d : Nat} (h : memOk s) : memOk (s.repairSummary d) := by
  unfold State.repairSummary
  dsimp only
  refine State.hbmSummary_memOk ?_
  split
  next h1 => exact State.devStore_memOk h _ h1
  · exact h

theorem State.gtbaseWrite_memOk {p : Nat} {v : Word} (h : memOk s) : memOk (s.gtbaseWrite p v) :=
  memOk_foldl (fun _ _ h => State.repairSummary_memOk h) h

theorem State.rperiodWrite_memOk {d : Nat} {v : Word} (h : memOk s) : memOk (s.rperiodWrite d v) := by
  unfold State.rperiodWrite
  dsimp only
  split
  · exact memOk_foldl (fun _ _ h => h) h
  · exact h

theorem State.cewWrite_memOk {d n : Nat} {v : Word} (h : memOk s) : memOk (s.cewWrite d n v) := by
  unfold State.cewWrite
  dsimp only
  split
  · refine State.queueStop_memOk ?_
    split
    · exact State.queueRetry_memOk h
    split
    · exact State.queueAbandon_memOk h
    · exact h
  refine State.queueEnter_memOk ?_
  split
  · exact State.queueRetry_memOk h
  split
  · exact State.queueAbandon_memOk h
  · exact h

theorem State.plainWrite_memOk {r n : Nat} {v : Word} (h : memOk s) : memOk (s.plainWrite r n v) := by
  unfold State.plainWrite
  dsimp only
  split
  · exact h
  · exact h
  · exact h
  · exact h
  · exact h
  · exact h
  · exact h
  · exact h
  · exact h
  · exact h
  · exact h
  · exact h
  · split <;> exact h

theorem State.privWrite_memOk {r n level : Nat} {v : Word} (h : memOk s) : memOk (s.privWrite r n level v) := by
  unfold State.privWrite
  split
  · exact State.gtbaseWrite_memOk h
  split
  · exact h
  split
  · exact State.rperiodWrite_memOk h
  split
  · exact h
  split
  · exact State.cewWrite_memOk h
  · exact State.plainWrite_memOk h

theorem execPartmapChange_memOk (h : memOk s) : outOk (execPartmapChange s) := by
  unfold execPartmapChange
  split
  · exact outOk_next h
  · split <;> exact outOk_next h

/-! ### Vector words (Machine/VArith) -/

theorem State.vIssue_memOk {w : VWord} {f : VForm} {body : Harness → Nat → Nat → List Eff} (h : memOk s) : memOk
    (s.vIssue w f body) := by
  exact State.issue_memOk h (State.nextJ_memOk h)

theorem State.vArith_memOk {w : VWord} {o : ArOp} {scalar : Bool} (h : memOk s) : memOk (s.vArith w o scalar) := by
  unfold State.vArith
  exact State.vIssue_memOk h

theorem State.vDot_memOk {w : VWord} {ty lat : Nat} {el : Nat → Nat → Nat → Nat × Num.Flags} (h : memOk s) : memOk
    (s.vDot w ty lat el) := by
  unfold State.vDot
  exact State.vIssue_memOk h

theorem State.vFunc_memOk {w : VWord} {two : Bool} {fn : Num.Val → Num.Val → Num.Val × Num.Flags} (h : memOk s) : memOk
    (s.vFunc w two fn) := by
  unfold State.vFunc
  exact State.vIssue_memOk h

theorem State.vSeed_memOk {w : VWord} {fn : Num.Val → Num.Val × Num.Flags} (h : memOk s) : memOk (s.vSeed w fn) := by
  unfold State.vSeed
  exact State.vIssue_memOk h

theorem State.vBits_memOk {w : VWord} {use : VUse} {extOk : Bool} {el : VTy → List Nat → Nat} (h : memOk s) : memOk
    (s.vBits w use extOk el) := by
  unfold State.vBits
  exact State.vIssue_memOk h

/-! ### Conversions (Machine/VConv) -/

theorem State.vReduce_memOk {w : VWord} {o : RedOp} {sq : Bool} (h : memOk s) : memOk (s.vReduce w o sq) := State.vIssue_memOk h

/-! ### Collectives (Machine/Collect) -/

theorem State.latchMates_memOk {k : Pkt} (h : memOk s) : memOk (s.latchMates k) := by
  unfold State.latchMates
  dsimp only
  split
  · exact h
  refine memOk_foldl (fun _ _ h => ?_) h
  split <;> exact h

theorem execCred_memOk {q : PktId} (h : memOk s) : outOk (execCred q s) := by
  unfold execCred
  dsimp only
  refine outOk_next ?_
  split
  · exact h
  · exact State.carry_memOk (State.latchMates_memOk h)

theorem execCgath_memOk {q : PktId} (h : memOk s) : outOk (execCgath q s) := by
  unfold execCgath
  dsimp only
  refine outOk_next ?_
  split
  · exact h
  · exact State.carry_memOk (State.latchMates_memOk h)

theorem State.beginInstance_memOk {ps : List Pkt} (h : memOk s) : memOk (s.beginInstance ps) := by
  unfold State.beginInstance
  dsimp only
  split <;> exact memOk_foldl (fun _ _ h => h) h

theorem execCollectiveInstanceBegin_memOk (h : memOk s) : outOk (execCollectiveInstanceBegin s) := by
  unfold execCollectiveInstanceBegin
  split
  · exact outOk_next h
  · exact outOk_next (State.beginInstance_memOk h)

/-! ### The matrix engine (Machine/Dot) -/

theorem execDclaim_memOk {w : DWord} (h : memOk s) : outOk (execDclaim w s) := by
  unfold execDclaim
  refine outOk_next (State.issue_memOk h ?_)
  split
  · exact trivial
  · exact h

theorem execDrel_memOk {w : DWord} (h : memOk s) : outOk (execDrel w s) := by
  unfold execDrel
  dsimp only
  refine outOk_next (State.issue_memOk h ?_)
  split
  · exact trivial
  split
  · exact trivial
  split
  · exact trivial
  · exact h

theorem execDmma_memOk {w : MWord} (h : memOk s) : outOk (execDmma w s) := by
  unfold execDmma
  dsimp only
  refine outOk_next (State.issue_memOk h ?_)
  split
  · split
    · exact trivial
    split
    · exact trivial
    split
    · exact trivial
    split
    · exact trivial
    · exact h
  · exact trivial

theorem execDread_memOk {w : DWord} (h : memOk s) : outOk (execDread w s) := by
  exact outOk_next (State.issue_memOk h (State.nextJ_memOk h))

theorem execDcvt_memOk {w : DWord} (h : memOk s) : outOk (execDcvt w s) := by
  unfold execDcvt
  dsimp only
  refine outOk_next (State.issue_memOk h ?_)
  split
  · exact trivial
  · exact State.nextJ_memOk h

theorem execDlds_memOk {w : DWord} (h : memOk s) : outOk (execDlds w s) := by
  unfold execDlds
  dsimp only
  refine outOk_next (State.issue_memOk h ?_)
  split
  · exact trivial
  · exact h

theorem execDldt_memOk {w : DWord} (h : memOk s) : outOk (execDldt w s) := by
  unfold execDldt
  dsimp only
  refine outOk_next (State.issue_memOk h ?_)
  split
  · exact trivial
  · exact h

theorem execDscl_memOk {w : DWord} (h : memOk s) : outOk (execDscl w s) := by
  unfold execDscl
  dsimp only
  refine outOk_next (State.issue_memOk h ?_)
  split
  · exact trivial
  · exact h

theorem execDstat_memOk {w : DWord} (h : memOk s) : outOk (execDstat w s) := by
  unfold execDstat
  dsimp only
  refine outOk_next (State.issue_memOk h ?_)
  split
  · exact trivial
  · exact h

/-! ### The decoder (Machine/Decoder) -/

theorem State.readFault_memOk {b : Rec} {pos cell : Nat} {a : Read Unit} (h : memOk s) : (s.readFault b pos cell a).memOk := by
  unfold State.readFault
  split
  · split
    next h1 => exact State.banks_error_memOk h h1
    next h2 => exact State.banks_memOk h h2
  · exact h
  · exact h
  · exact trivial

theorem execDtbl_memOk {w : DWord} (h : memOk s) : outOk (execDtbl w s) := by
  unfold execDtbl
  dsimp only
  refine outOk_next (State.issue_memOk h ?_)
  split
  · exact trivial
  · split <;> exact h

theorem execDseek_memOk {w : DWord} (h : memOk s) : outOk (execDseek w s) := by
  unfold execDseek
  dsimp only
  refine outOk_next (State.issue_memOk h ?_)
  split
  · exact trivial
  split
  · exact trivial
  split
  · exact trivial
  split
  · split
    · exact trivial
    split
    next h1 => exact State.banks_error_memOk h h1
    next h2 => exact State.banks_memOk h h2
  · exact State.readFault_memOk h

theorem State.decode_memOk {s s' : State} {w : DWord} {pos : Pos} {x : Tile} {tslot : Nat} {bar : Option
    (Word × Word)} {via : Option Word} {segs : List (Nat × List (List Byte))} (h : memOk s) (h2 : memOk s') :
      (s.decode s' w pos x tslot bar via segs).memOk := by
  unfold State.decode
  dsimp only
  split
  · exact h
  · exact h2

theorem State.latchSeg_memOk {p : Nat} {pos : Pos} {b : BufRec} (h : memOk s) : memOk (s.latchSeg p pos b) := by
  unfold State.latchSeg
  split <;> exact h

theorem execDdec_memOk {w : DWord} (h : memOk s) : outOk (execDdec w s) := by
  unfold execDdec
  dsimp only
  refine outOk_next (State.issue_memOk h ?_)
  split
  · exact trivial
  split
  · exact trivial
  split
  · exact trivial
  split
  · exact trivial
  split
  · exact trivial
  split
  · split
    · exact trivial
    split
    next h1 => exact State.banks_error_memOk h h1
    next h2 => exact State.decode_memOk h (State.banks_memOk h h2)
  · exact State.readFault_memOk (State.latchSeg_memOk h)

theorem State.askDecode_memOk {r : Nat} (h : memOk s) : memOk (s.askDecode r) := by
  unfold State.askDecode
  split
  next p _ =>
    cases p.bar with
    | none => exact h
    | some k => exact (apply_ite memOk _ _ _).mpr (by split; exact h; exact State.ask_memOk h)
  · exact h

theorem execDecodeComplete_memOk (h : memOk s) : outOk (execDecodeComplete s) := by
  unfold execDecodeComplete
  dsimp only
  split
  · exact outOk_next h
  split
  · exact outOk_next (State.linkFault_memOk h)
  split
  · exact outOk_next h
  split
  · exact outOk_next (State.lateFaultAt_memOk (State.count_memOk (State.scrub_memOk h)))
  refine outOk_next ?_
  split
  · exact State.barChunks_memOk (State.touch_memOk h)
  · exact State.lateFaultAt_memOk (State.barChunks_memOk (State.touch_memOk h))

/-! ### The transfer engine (Machine/Transfer) -/

theorem State.tLoad_memOk {b : BufRec} {f : Rec} {fixed : Bool} {rows : Except Fail (List (List
    (Option Spot)))} {effs : Nat → List Nat → List Eff} (h : memOk s) : (s.tLoad b f fixed rows effs).memOk := by
  unfold State.tLoad
  dsimp only
  split
  · exact trivial
  split
  · exact trivial
  split
  next h1 => exact State.banks_error_memOk h h1
  rename_i h2
  split
  · exact State.banks_memOk h h2
  · exact State.cacheSpots_memOk (State.scrubSpots_memOk (State.banks_memOk h h2))

theorem State.tStore_memOk {b : BufRec} {f : Rec} {rows : Except Fail (List (List (Option Spot)))} {codes : Nat → List Nat}
    (h : memOk s) : (s.tStore b f rows codes).memOk := by
  unfold State.tStore
  dsimp only
  split
  · exact trivial
  split
  · exact trivial
  split
  next h1 => exact State.banks_error_memOk h h1
  next h2 => exact State.putCells_memOk (State.cacheSpots_memOk (State.banks_memOk h h2))

theorem execTld_memOk {w : TWord} (h : memOk s) : outOk (execTld w s) := by
  unfold execTld
  dsimp only
  refine outOk_next (State.issue_memOk h ?_)
  split
  · exact trivial
  split
  · exact trivial
  · exact State.tLoad_memOk h

theorem execTst_memOk {w : TWord} (h : memOk s) : outOk (execTst w s) := by
  unfold execTst
  dsimp only
  refine outOk_next (State.issue_memOk h ?_)
  split
  · exact trivial
  split
  · exact trivial
  · exact State.tStore_memOk h

theorem execTlds_memOk {w : TWord} (h : memOk s) : outOk (execTlds w s) := by
  unfold execTlds
  dsimp only
  refine outOk_next (State.issue_memOk h ?_)
  split
  · exact trivial
  split
  · exact trivial
  · exact State.tLoad_memOk h

theorem execTgath_memOk {w : TWord} (h : memOk s) : outOk (execTgath w s) := by
  unfold execTgath
  dsimp only
  refine outOk_next (State.issue_memOk h ?_)
  split
  · exact trivial
  split
  · exact trivial
  · exact State.tLoad_memOk h

theorem execTscat_memOk {w : TWord} (h : memOk s) : outOk (execTscat w s) := by
  unfold execTscat
  dsimp only
  refine outOk_next (State.issue_memOk h ?_)
  split
  · exact trivial
  split
  · exact trivial
  · exact State.tStore_memOk h

theorem execTspst_memOk {w : TWord} (h : memOk s) : outOk (execTspst w s) := by
  unfold execTspst
  dsimp only
  refine outOk_next (State.issue_memOk h ?_)
  split
  · exact trivial
  split
  · exact trivial
  split
  · exact trivial
  split
  · exact trivial
  split
  · exact trivial
  · exact State.tStore_memOk h

theorem execTspld_memOk {w : TWord} (h : memOk s) : outOk (execTspld w s) := by
  unfold execTspld
  dsimp only
  refine outOk_next (State.issue_memOk h ?_)
  split
  · exact trivial
  split
  · exact trivial
  split
  · exact trivial
  split
  · exact trivial
  split
  · exact trivial
  split
  · exact trivial
  · split
    next h1 => exact State.banks_error_memOk h h1
    next h2 => exact State.banks_memOk h h2
  split
  next h3 => exact State.banks_error_memOk h h3
  next h4 => exact State.cacheSpots_memOk (State.scrubSpots_memOk (State.banks_memOk h h4))

theorem State.barrUpdates_memOk {k n : Nat} {arr : Bool} (h : memOk s) : memOk (s.barrUpdates k n arr).1 := by
  unfold State.barrUpdates
  dsimp only
  split
  · exact State.barChunks_memOk h
  split
  · exact State.barChunks_memOk h
  split
  · exact State.write_memOk (State.barChunks_memOk h)
  · exact State.barChunks_memOk h

theorem execTbarr_memOk {w : TWord} (h : memOk s) : outOk (execTbarr w s) := by
  unfold execTbarr
  dsimp only
  refine outOk_next (State.issue_memOk h ?_)
  split
  · exact trivial
  split
  · exact trivial
  split
  · exact trivial
  split
  · exact trivial
  split
  · exact h
  split
  · exact trivial
  split
  next h1 => exact State.banks_error_memOk h h1
  rename_i h2
  split
  · exact State.banks_memOk h h2
  split <;>
    exact State.barrUpdates_memOk (State.cacheSpots_memOk (State.scrubSpots_memOk (State.banks_memOk h h2)))

theorem State.atomAll_memOk {f : Rec} {rows : List (List (Option Spot) × List Nat)} (h : memOk s) : memOk
    (s.atomAll f rows) := by
  unfold State.atomAll
  refine memOk_foldl (fun _ _ h => ?_) h
  refine memOk_foldl (fun _ _ h => ?_) h
  split
  · exact h
  · exact State.writeKeys_memOk (State.noteKeys_memOk h)

theorem execTatom_memOk {w : TWord} (h : memOk s) : outOk (execTatom w s) := by
  unfold execTatom
  dsimp only
  refine outOk_next (State.issue_memOk h ?_)
  split
  · exact trivial
  split
  · exact trivial
  split
  · exact trivial
  split
  · exact trivial
  split
  · exact trivial
  split
  · exact trivial
  split
  next h1 => exact State.banks_error_memOk h h1
  rename_i h2
  split
  · exact State.banks_memOk h h2
  · exact State.atomAll_memOk (State.scrubSpots_memOk (State.banks_memOk h h2))

/-! ### Express messages (Machine/Express) -/

theorem execTshift_memOk {w : TWord} (h : memOk s) : outOk (execTshift w s) := by
  unfold execTshift
  dsimp only
  refine outOk_next (State.issue_memOk h ?_)
  split
  · split
    · split
      · exact trivial
      · split <;> exact h
    split
    · exact trivial
    · split <;> exact h
  split
  · split
    · exact trivial
    · split <;> exact h
  split
  · exact trivial
  · split <;> exact h

theorem execEdgeDataArrival_memOk (h : memOk s) : outOk (execEdgeDataArrival s) := by
  unfold execEdgeDataArrival
  dsimp only
  split
  · exact outOk_next h
  refine outOk_next ?_
  split <;> exact h

theorem execTxsend_memOk {w : TWord} (h : memOk s) : outOk (execTxsend w s) := by
  unfold execTxsend
  dsimp only
  refine outOk_next (State.issue_memOk h ?_)
  split
  · exact trivial
  split
  · exact trivial
  · exact h

theorem execTxrecv_memOk {w : TWord} (h : memOk s) : outOk (execTxrecv w s) := by
  unfold execTxrecv
  dsimp only
  refine outOk_next (State.issue_memOk h ?_)
  split
  · exact trivial
  split
  · exact trivial
  · exact h

theorem execExpressMessageArrival_memOk (h : memOk s) : outOk (execExpressMessageArrival s) := by
  unfold execExpressMessageArrival
  dsimp only
  split
  · exact outOk_next h
  refine outOk_next ?_
  split <;> exact h

/-! ### The queues of a sequencer (Machine/SeqQueue) -/

theorem State.lateFault_memOk {r : Nat} {f : Fail} (h : memOk s) : memOk (s.lateFault r f) := by
  unfold State.lateFault
  split
  · exact State.preciseF_memOk h
  · exact State.tally_memOk h

theorem State.performLoad_memOk {r : Nat} (h : memOk s) : memOk (s.performLoad r) := by
  unfold State.performLoad
  dsimp only
  split
  · exact h
  · exact h
  split
  · exact State.lateFault_memOk h
  split
  · split <;> exact State.touchLat_memOk (State.scrub_memOk h)
  · split <;> exact h

theorem execSeqLoadReturn_memOk (h : memOk s) : outOk (execSeqLoadReturn s) := by
  unfold execSeqLoadReturn
  refine outOk_next ?_
  split
  · exact State.performLoad_memOk h
  · exact h

theorem State.spawnRecord_memOk {r : Nat} {c : Cont} (h : memOk s) : memOk (s.spawnRecord r c) := by
  unfold State.spawnRecord
  split
  · split
    · exact h
    · exact State.enqueue_memOk h
  · exact State.enqueue_memOk h

theorem State.storeEffect_memOk {r : Nat} {w : StoreWhat} (h : memOk s) : memOk (s.storeEffect r w) := by
  unfold State.storeEffect
  split
  · split
    · exact State.lateFault_memOk h
    · exact State.noteTag_memOk (State.touch_memOk (State.write_memOk h))
  · exact State.privWrite_memOk h
  · exact State.spawnRecord_memOk h

theorem State.performStore_memOk {r : Nat} (h : memOk s) : memOk (s.performStore r) := by
  unfold State.performStore
  dsimp only
  split
  · exact h
  split
  · split <;> exact State.spawnRecord_memOk h
  · exact State.storeEffect_memOk h

theorem State.askQueues_memOk {r : Nat} (h : memOk s) : memOk (s.askQueues r) := by
  unfold State.askQueues
  dsimp only
  split
  · split
    · refine State.ask_memOk ?_
      split
      · split
        · exact State.ask_memOk h
        · exact h
      · exact h
    split
    · split
      · exact State.ask_memOk h
      · exact h
    · exact h
  split
  · split
    · exact State.ask_memOk h
    · exact h
  · exact h

theorem execSeqStorePerform_memOk (h : memOk s) : outOk (execSeqStorePerform s) := by
  unfold execSeqStorePerform
  refine outOk_next ?_
  split
  · exact State.performStore_memOk h
  · exact h

theorem execMfs_memOk {d : BitVec 6} {n : BitVec 12} (h : memOk s) : outOk (execMfs d n s) := by
  unfold execMfs
  dsimp only
  split
  · split
    · exact outOk_next h
    · exact outOk_next (State.preciseC_memOk h)
  split
  · exact outOk_next (State.precise_memOk h)
  · split <;> exact outOk_next h

theorem execMts_memOk {a : BitVec 6} {n : BitVec 12} (h : memOk s) : outOk (execMts a n s) := by
  unfold execMts
  dsimp only
  split
  · split
    · exact outOk_next h
    · exact outOk_next (State.preciseC_memOk h)
  split
  · exact outOk_next (State.precise_memOk h)
  · split <;> exact outOk_next h

theorem execSpawn_memOk {a : BitVec 6} (h : memOk s) : outOk (execSpawn a s) := by
  unfold execSpawn
  dsimp only
  split
  · exact outOk_next (State.preciseC_memOk h)
  · split <;> exact outOk_next h

end Sys2Proof.Machine
end

section
/-! O60: every step keeps memory in its canonical form (log entry 3). -/

namespace Sys2Proof.Machine

open Sys2Proof.Safety

variable {s : State}

/-! ### The scheduler and the privileged forms (Machine/System) -/

theorem State.leaveGang_memOk {r : Nat} (h : memOk s) : memOk (s.leaveGang r).1 := by
  unfold State.leaveGang
  dsimp only
  split
  · exact h
  · split <;> exact h

theorem State.keepHeld_memOk {r : Nat} {n : Node} (h : memOk s) : memOk (s.keepHeld r n) := by
  unfold State.keepHeld
  dsimp only
  split <;> exact h

theorem State.saved_memOk {r : Nat} {n : Node} (h : memOk s) : memOk (s.saved r n) := by
  unfold State.saved
  dsimp only
  split
  · exact State.enqueue_memOk (State.leaveGang_memOk (State.keepHeld_memOk h))
  · exact State.leaveGang_memOk (State.keepHeld_memOk h)

theorem State.saveNode_memOk {r : Nat} {n : Node} (h : memOk s) : memOk (s.saveNode r n) := by
  unfold State.saveNode
  dsimp only
  split
  · exact h
  split
  · exact State.preciseF_memOk h
  rename_i h1
  split
  · exact State.saved_memOk (State.devStore_memOk h _ h1)
  · exact State.leaveNode_memOk (State.saved_memOk (State.devStore_memOk h _ h1))

theorem State.yieldGang_memOk {r : Nat} {n : Node} {g : Gang} (h : memOk s) : memOk (s.yieldGang r n g) := by
  unfold State.yieldGang
  dsimp only
  split
  · exact h
  split
  · split
    · exact State.saveNode_memOk h
    · exact h
  split
  · exact State.saveNode_memOk h
  · exact h

theorem execYield_memOk (h : memOk s) : outOk (execYield s) := by
  unfold execYield
  dsimp only
  split
  · exact outOk_next (State.preciseC_memOk h)
  split
  · refine outOk_next ?_
    split <;> exact h
  split
  · exact outOk_next h
  split
  · refine outOk_next ?_
    split
    · exact h
    · exact State.leaveNode_memOk h
  split
  · exact outOk_next h
  split
  · exact outOk_next h
  split
  · exact outOk_next (State.yieldGang_memOk h)
  · exact outOk_next (State.saveNode_memOk h)

theorem State.nendOut_memOk {r : Nat} {n : Node} (h : memOk s) : memOk (s.nendOut r n) := by
  exact State.leaveGang_memOk (State.keepHeld_memOk h)

theorem State.nendStep_memOk {r fuel : Nat} (h : memOk s) : memOk (s.nendStep r fuel) := by
  induction fuel generalizing s with
  | zero => exact h
  | succ fuel ih =>
    unfold State.nendStep
    split
    · exact h
    split
    · exact h
    split
    · exact ih (State.enqueue_memOk h :)
    · exact ih (State.decrement_memOk h :)
    · exact h

theorem State.nended_memOk {r : Nat} (h : memOk s) : memOk (s.nended r) := State.leaveNode_memOk h

theorem State.nendFree_memOk {r : Nat} {n : Node} (h : memOk s) : memOk (s.nendFree r n) :=
  State.nended_memOk (State.freeEntry_memOk h)

theorem State.joinLost_memOk {r : Nat} {n : Node} {f : Fail} (h : memOk s) : memOk (s.joinLost r n f) :=
  State.nendFree_memOk (State.message_memOk (State.tally_memOk h))

theorem State.nendJoin_memOk {r : Nat} {n : Node} (h : memOk s) : memOk (s.nendJoin r n) := by
  unfold State.nendJoin
  dsimp only
  split
  · exact State.nendFree_memOk h
  split
  · split
    · exact State.ask_memOk h
    split
    · exact State.joinLost_memOk (State.unask_memOk h)
    · exact State.nendFree_memOk (State.noteTag_memOk (State.write_memOk (State.touch_memOk (State.scrub_memOk h))))
  · exact State.nendFree_memOk h
  · exact State.joinLost_memOk h

theorem State.nendOn_memOk {r : Nat} {n : Node} (h : memOk s) : memOk (s.nendOn r n) := by
  unfold State.nendOn
  dsimp only
  split
  · exact State.nendStep_memOk h
  · exact State.nendJoin_memOk (State.nendStep_memOk h)

theorem execNend_memOk (h : memOk s) : outOk (execNend s) := by
  unfold execNend
  dsimp only
  split
  · exact outOk_next (State.preciseC_memOk h)
  split
  · refine outOk_next ?_
    split
    · exact State.nended_memOk h
    · exact h
  split
  · exact outOk_next (State.nendOn_memOk h)
  split
  · exact outOk_next h
  split
  · exact outOk_next (State.preciseF_memOk h)
  · exact outOk_next (State.precise_memOk h)
  refine outOk_next ?_
  split
  · exact State.nendOn_memOk (State.nendOut_memOk h)
  · exact State.nendOut_memOk h

theorem State.flushQueues_memOk {r : Nat} (h : memOk s) : memOk (s.flushQueues r) :=
  memOk_foldl (fun _ _ h => h) (memOk_foldl (fun _ _ h => State.storeEffect_memOk h) h)

theorem State.spreadAbort_memOk {r : Nat} (h : memOk s) : memOk (s.spreadAbort r) := by
  unfold State.spreadAbort
  dsimp only
  split
  · exact h
  split
  · exact h
  refine memOk_foldl (fun _ _ h => ?_) h
  split <;> exact h

theorem State.dropRecords_memOk {d : Nat} {out : Ready × Waiter → Bool} (h : memOk s) : memOk (s.dropRecords d out) :=
  memOk_foldl (fun _ _ h => State.unspill_memOk h) h

theorem State.undoDecrement_memOk {gid : Nat} (h : memOk s) : memOk (s.undoDecrement gid) := by
  unfold State.undoDecrement
  dsimp only
  split
  · exact h
  split
  · exact h
  · exact memOk_foldl (fun _ _ h => State.dropRecords_memOk h) h
  · exact h

theorem State.undoEnding_memOk {r : Nat} {n : Node} (h : memOk s) : memOk (s.undoEnding r n) :=
  memOk_foldl (fun _ _ h => State.undoDecrement_memOk h) (memOk_foldl (fun _ _ h => State.dropRecords_memOk h) h)

theorem State.abortEntry_memOk {r : Nat} {n : Node} (h : memOk s) : memOk (s.abortEntry r n) := by
  unfold State.abortEntry
  dsimp only
  split
  · refine State.enqueue_memOk ?_
    split
    · exact h
    · exact State.undoEnding_memOk h
  refine State.freeEntry_memOk ?_
  split
  · exact h
  · exact State.undoEnding_memOk h

theorem State.abortNode_memOk {r : Nat} (h : memOk s) : memOk (s.abortNode r) := by
  unfold State.abortNode
  dsimp only
  refine State.count_memOk (State.leaveNode_memOk ?_)
  split
  · split
    · exact State.abortEntry_memOk (State.leaveGang_memOk (State.flushQueues_memOk (State.spreadAbort_memOk h)))
    · exact State.leaveGang_memOk (State.flushQueues_memOk (State.spreadAbort_memOk h))
  · exact State.leaveGang_memOk (State.flushQueues_memOk (State.spreadAbort_memOk h))

theorem execGangAbort_memOk (h : memOk s) : outOk (execGangAbort s) := by
  unfold execGangAbort
  dsimp only
  split
  · refine outOk_next ?_
    split
    · exact State.abortNode_memOk h
    · exact h
  · exact outOk_next h

theorem State.modCtl_memOk {r : Nat} {f : Ctl → Ctl} (h : memOk s) : memOk (s.modCtl r f) := h

theorem State.eret_memOk {r : Nat} {ws : List Word} (h : memOk s) : memOk (s.eret r ws) := by
  unfold State.eret
  dsimp only
  split
  · split <;> exact memOk_ite (State.enterPending_memOk (State.modCtl_memOk h)) h
  · exact memOk_ite h h

theorem execEret_memOk (h : memOk s) : outOk (execEret s) := by
  unfold execEret
  dsimp only
  split
  · exact outOk_next (State.preciseC_memOk h)
  split
  · exact outOk_next (State.preciseF_memOk h)
  refine outOk_next ?_
  split
  · split
    · exact State.abortNode_memOk (State.devScrub_memOk h)
    · exact State.eret_memOk (State.devScrub_memOk h)
  split
  · exact State.abortNode_memOk (State.devScrub_memOk h)
  · exact State.eret_memOk (State.devScrub_memOk h)

theorem execTlbi_memOk {sz : BitVec 2} {n : BitVec 6} (h : memOk s) : outOk (execTlbi sz n s) := by
  unfold execTlbi
  dsimp only
  split
  · exact outOk_next (State.preciseC_memOk h)
  split
  · exact outOk_next (State.preciseC_memOk h)
  split
  · exact outOk_next (State.precise_memOk h)
  split <;> split <;> exact outOk_next h

theorem execGangStart_memOk (h : memOk s) : outOk (execGangStart s) := by
  unfold execGangStart
  dsimp only
  split
  · exact outOk_next h
  refine outOk_next (memOk_foldl (fun _ _ h => State.fellIdle_memOk h) ?_)
  split <;> exact memOk_foldl (fun _ _ h => State.beginNode_memOk h) h

theorem execNodeStart_memOk (h : memOk s) : outOk (execNodeStart s) := by
  unfold execNodeStart
  split
  · exact outOk_next (State.take_memOk h)
  · exact outOk_next h

/-! ### Scheduler commands and events (Machine/Sched) -/

theorem State.readParams_memOk {d : Nat} (h : memOk s) : memOk (s.readParams d).1 := by
  unfold State.readParams
  dsimp only
  split
  · exact State.message_memOk (State.tally_memOk (State.devScrub_memOk h))
  split
  · exact State.message_memOk (State.devScrub_memOk h)
  · exact State.devScrub_memOk h

theorem State.enterCommands_memOk {d : Nat} (h : memOk s) : memOk (s.enterCommands d) := by
  unfold State.enterCommands
  dsimp only
  split
  · exact State.message_memOk (State.tally_memOk (State.devScrub_memOk h))
  split
  · exact State.message_memOk (State.devScrub_memOk h)
  · exact State.devScrub_memOk h

theorem State.cmdWrite_memOk {d va : Nat} {w : Word} (h : memOk s) : memOk (s.cmdWrite d va w) :=
  orKeep_memOk h (State.devStore_memOk h)

theorem State.finishCommand_memOk {d status : Nat} (h : memOk s) : memOk (s.finishCommand d status) := by
  unfold State.finishCommand
  dsimp only
  refine State.cmdWrite_memOk ?_
  split
  · exact State.cmdWrite_memOk h
  split
  · exact State.cmdWrite_memOk (State.cmdWrite_memOk h)
  · exact State.cmdWrite_memOk h

theorem State.runCommand_memOk {d : Nat} {f : State → State × Nat} (h : memOk s) (hf : ∀ u, memOk u → memOk (f u).1) :
    memOk (s.runCommand d f) := by
  unfold State.runCommand
  dsimp only
  have ht {p va n k : Nat} {w : Word} : memOk (f ((s.devScrub p va n).cmdWrite d k w)).1 :=
    hf _ (State.cmdWrite_memOk (State.devScrub_memOk h))
  split
  · exact ht
  · exact State.finishCommand_memOk ht

theorem State.rejectCommand_memOk {d : Nat} (h : memOk s) : memOk (s.rejectCommand d) :=
  State.runCommand_memOk h (fun _ hu => hu)

theorem State.nodeCommand_memOk {d : Nat} {c : Packet} (h : memOk s) : memOk (s.nodeCommand d c).1 := by
  unfold State.nodeCommand
  dsimp only
  split
  · exact h
  split
  · exact h
  split
  · exact State.message_memOk h
  split
  · exact State.message_memOk (State.tally_memOk h)
  split
  · exact State.devScrub_memOk h
  · exact State.enqueue_memOk (State.devScrub_memOk h)

theorem execDec_memOk {die : Nat} {c : Packet} (h : memOk s) : outOk (execDec die c s) := by
  unfold execDec
  refine outOk_next (State.runCommand_memOk h ?_)
  intro u hu
  split
  · exact hu
  · exact State.decrement_memOk hu

theorem State.freeCommand_memOk {d : Nat} (h : memOk s) : memOk (s.freeCommand d) := by
  unfold State.freeCommand
  split
  · split
    · exact h
    · exact State.finishCommand_memOk h
  · exact h

theorem State.dropGid_memOk {gid : Nat} (h : memOk s) : memOk (s.dropGid gid) :=
  memOk_foldl (fun _ _ h => State.freeCommand_memOk h) (memOk_foldl (fun _ _ h => State.dropRecords_memOk h) h)

theorem State.removeEntry_memOk {d gid : Nat} (h : memOk s) : memOk (s.removeEntry d gid).1 := by
  unfold State.removeEntry
  dsimp only
  split
  · exact h
  split
  · exact State.message_memOk h
  · exact State.freeEntry_memOk (State.dropGid_memOk h)

theorem State.removeGang_memOk {d r : Nat} (h : memOk s) : memOk (s.removeGang d r).1 := by
  unfold State.removeGang
  dsimp only
  split
  · exact State.freeEntry_memOk (memOk_foldl (fun _ _ h => State.fellIdle_memOk h) (memOk_foldl (fun _ _ h => h) h))
  split
  · exact State.message_memOk h
  · exact h

theorem execRemove_memOk {die : Nat} {c : Packet} (h : memOk s) : outOk (execRemove die c s) := by
  unfold execRemove
  dsimp only
  refine outOk_next (State.runCommand_memOk h ?_)
  intro u hu
  split
  · split
    · exact hu
    split
    · exact State.removeGang_memOk hu
    · exact hu
  split
  · exact hu
  · exact State.removeEntry_memOk hu

theorem execPreempt_memOk {die : Nat} {c : Packet} (h : memOk s) : outOk (execPreempt die c s) := by
  unfold execPreempt
  dsimp only
  refine outOk_next (State.runCommand_memOk h ?_)
  intro u hu
  split
  · exact hu
  split
  · exact hu
  · exact memOk_foldl (fun _ _ h => h) hu

theorem execParam_memOk {die : Nat} {c : Packet} (h : memOk s) : outOk (execParam die c s) := by
  unfold execParam
  refine outOk_next (State.runCommand_memOk h ?_)
  intro u hu
  split
  · exact hu
  · exact State.readParams_memOk hu

theorem execCkpt_memOk {die : Nat} {c : Packet} (h : memOk s) : outOk (execCkpt die c s) := by
  unfold execCkpt
  dsimp only
  refine outOk_next (State.runCommand_memOk h ?_)
  intro u hu
  split
  · exact hu
  split
  · exact hu
  split
  · exact State.message_memOk hu
  split
  · exact State.message_memOk hu
  next h1 => exact (State.devStore_memOk hu _ h1 :)

theorem State.ckptPass_memOk {r began : Nat} (h : memOk s) : memOk (s.ckptPass r began) := by
  unfold State.ckptPass
  dsimp only
  refine memOk_foldl (fun _ _ h => ?_) h
  split
  · split
    · exact orKeep_memOk (orKeep_memOk h (State.devStore_memOk h)) (State.devStore_memOk (orKeep_memOk h
      (State.devStore_memOk h)))
    · exact orKeep_memOk h (State.devStore_memOk h)
  · exact h

theorem State.ckptFail_memOk {r : Nat} (h : memOk s) : memOk (s.ckptFail r) :=
  memOk_foldl (fun _ _ h => State.message_memOk (orKeep_memOk h (State.devStore_memOk h))) h

theorem execFenceCmd_memOk {die : Nat} {c : Packet} (h : memOk s) : outOk (execFenceCmd die c s) := by
  unfold execFenceCmd
  dsimp only
  refine outOk_next (State.runCommand_memOk h ?_)
  intro u hu
  split
  · exact hu
  split
  · exact hu
  · split <;> split <;> exact hu

theorem execSelftestDrain_memOk (h : memOk s) : outOk (execSelftestDrain s) := by
  unfold execSelftestDrain
  dsimp only
  split
  · exact outOk_next h
  split
  · refine outOk_next ?_
    split
    · exact State.fellIdle_memOk h
    · exact h
  · exact outOk_next h

theorem State.endTest_memOk {r : Nat} {fence : Bool} (h : memOk s) : memOk (s.endTest r fence) := by
  unfold State.endTest
  dsimp only
  split <;> split <;> exact h

theorem State.logScan_memOk {r u : Nat} (h : memOk s) : memOk (s.logScan r u) := by
  unfold State.logScan
  dsimp only
  split <;> exact h

theorem execScanTest_memOk (h : memOk s) : outOk (execScanTest s) := by
  unfold execScanTest
  dsimp only
  split
  · split
    · exact outOk_next h
    split
    · exact outOk_next (State.endTest_memOk (State.ckptPass_memOk h))
    · exact outOk_next (State.endTest_memOk (State.ckptFail_memOk (State.logScan_memOk (State.message_memOk h))))
  · exact outOk_next h

theorem execEnqueueResume_memOk (h : memOk s) : outOk (execEnqueueResume s) := by
  unfold execEnqueueResume
  dsimp only
  split
  · exact outOk_next h
  split
  · exact outOk_next (State.freeCommand_memOk (State.addReady_memOk h))
  · exact outOk_next (State.freeCommand_memOk (State.addReady_memOk h))
  · refine outOk_next ?_
    split <;> exact State.addReady_memOk h
  · exact outOk_next (State.addReady_memOk h)

theorem execPreemptLineChange_memOk (h : memOk s) : outOk (execPreemptLineChange s) := by
  unfold execPreemptLineChange
  dsimp only
  split <;> exact outOk_next h

theorem execAutoPreempt_memOk (h : memOk s) : outOk (execAutoPreempt s) := by
  unfold execAutoPreempt
  dsimp only
  split <;> exact outOk_next h

theorem State.tableScrub_memOk {p n : Nat} (h : memOk s) : memOk (s.tableScrub p n) := State.devScrub_memOk h

theorem State.countIf_memOk {d code : Nat} (h : memOk s) : memOk (s.countIf d code) := by
  unfold State.countIf
  split
  · exact State.count_memOk h
  · exact h

theorem State.loadReport_memOk {p code ix : Nat} (h : memOk s) : memOk (s.loadReport p code ix) := by
  unfold State.loadReport
  split <;> exact h

theorem execGroupTableActivation_memOk (h : memOk s) : outOk (execGroupTableActivation s) := by
  unfold execGroupTableActivation
  dsimp only
  split
  · exact outOk_next h
  split
  · refine outOk_next ?_
    split
    · exact State.message_memOk (State.countIf_memOk (State.loadReport_memOk (State.tableScrub_memOk h)))
    · exact State.loadReport_memOk (State.tableScrub_memOk h)
  · exact outOk_next (memOk_foldl (fun _ _ h => State.enterCommands_memOk (State.readParams_memOk h))
    (State.loadReport_memOk (State.tableScrub_memOk h)))

/-! ### The loader (Machine/Loader) -/

theorem Load.put_memOk {l : Load} {p va ix : Nat} {bs : List Byte} {code : Bool} (h : memOk l.s) :
    givesOn (fun l => memOk l.s) (l.put p va bs ix code) := by
  unfold Load.put
  split
  next h1 => exact givesOn_ite (givesOn_ok (State.devStore_memOk h _ h1)) (givesOn_error _)
  · exact givesOn_error _

theorem Load.place_memOk {l : Load} {xs : List (Section × Nat)} (h : memOk l.s) : memOk (l.place xs).s :=
  List.foldlRecOn (motive := fun l : Load => memOk l.s) xs _ h fun _ h _ _ => by
    dsimp only
    split <;> exact h

theorem Load.takeGroups_memOk {l : Load} {p : Nat} {x : Section} (h : memOk l.s) :
    givesOn (fun l => memOk l.s) (l.takeGroups p x) := by
  unfold Load.takeGroups
  refine givesOn_after fun _ => givesOn_bind (Load.put_memOk h) fun l hl => ?_
  split
  · exact givesOn_error _
  · exact givesOn_ok (State.gtbaseWrite_memOk hl)

theorem Load.resource_memOk {l : Load} {p rb table rank k : Nat} {data : List Byte} {ws : List Word} (h : memOk l.s) :
    givesOn (fun l => memOk l.s) (l.resource p rb table rank data k ws) := by
  unfold Load.resource
  extract_lets -underBinder w f gen image size lo
  refine givesOn_after fun _ => givesOn_after fun _ => givesOn_after fun _ => givesOn_after fun _ => givesOn_after fun _ => ?_
  extract_lets -underBinder tower alloc start base first bytes placed finish
  have hfin (l : Load) (hl : memOk l.s) : givesOn (fun l => memOk l.s) (finish l) :=
    givesOn_bind (Load.put_memOk hl) fun _ hl => givesOn_ok hl
  have hp : memOk placed.s := by
    unfold placed
    split
    · exact h
    split <;> exact h
  split
  · exact hfin _ hp
  split
  · exact givesOn_after fun _ => hfin _ (State.write_memOk hp)
  split
  · exact givesOn_bind (Load.put_memOk hp) hfin
  · exact givesOn_after fun _ => hfin _ (State.write_memOk hp)

theorem Load.resources_memOk {l : Load} {p rb table rank : Nat} {data : List Byte} {x : Section} (h : memOk l.s) :
    givesOn (fun l => memOk l.s) (l.resources p rb table rank data x) := by
  unfold Load.resources
  refine givesOn_foldlM ?_ fun _ _ h => Load.resource_memOk h
  split <;> exact h

/-- A relocation patches sections alone. -/
theorem relocate_s {l l' : Load} {xs : List (Section × Nat)} {rb p : Nat} {w0 w1 : Word}
    (h : relocate l xs rb p w0 w1 = some l') : l'.s = l.s := by
  unfold relocate at h
  extract_lets -underBinder kind ix off at h
  obtain ⟨target, -, h⟩ := Option.bind_eq_some_iff.mp h
  extract_lets -underBinder sec jp at h
  have hjp {v : Nat} (hv : jp v = some l') : l'.s = l.s := by
    unfold jp at hv
    obtain ⟨-, hv⟩ := Option.ite_none_right_eq_some.mp hv
    obtain ⟨bs, -, hbs⟩ := Option.bind_eq_some_iff.mp hv
    cases hbs
    rfl
  split at h
  · obtain ⟨src, -, h⟩ := Option.bind_eq_some_iff.mp h
    split at h
    · exact hjp h
    · cases h
  split at h
  · obtain ⟨res, -, h⟩ := Option.bind_eq_some_iff.mp h
    split at h
    · exact hjp h
    · cases h
  · cases h

theorem Load.finish_memOk {l : Load} {p rb table : Nat} {xs : List (Section × Nat)} (h : memOk l.s) :
    givesOn (fun l => memOk l.s) (l.finish p rb table xs) := by
  unfold Load.finish
  refine givesOn_after fun _ => givesOn_bind (givesOn_foldlM h fun l x hl => ?_) fun l hl => givesOn_foldlM hl fun l x hl => ?_
  · dsimp only
    split
    next h1 => exact givesOn_ok (by rw [relocate_s h1]; exact hl)
    · exact givesOn_error _
  · split
    · exact givesOn_ok hl
    · exact Load.put_memOk hl

theorem State.loadContainer_memOk {p rb hbm table tower : Nat} {keys : List (List Byte)} {c : List Byte} (h : memOk s) :
    okMem (s.loadContainer p rb hbm table tower keys c) := by
  unfold State.loadContainer
  refine givesOn_after fun _ => givesOn_after fun _ => givesOn_after fun _ => ?_
  extract_lets -underBinder mask
  refine givesOn_after fun _ => givesOn_after fun _ => givesOn_after fun _ => ?_
  extract_lets -underBinder xs one placed grouped
  have hg (l : Load) (hl : memOk l.s) : okMem (grouped l) := by
    unfold grouped
    extract_lets -underBinder data rank filled
    have hf (l : Load) (hl : memOk l.s) : okMem (filled l) := givesOn_bind (Load.finish_memOk hl) fun _ hl => givesOn_ok hl
    split
    · exact givesOn_bind (Load.resources_memOk hl) hf
    · exact hf _ hl
  have hp : memOk placed.s := Load.place_memOk h
  split
  · exact givesOn_bind (Load.takeGroups_memOk hp) hg
  · exact hg _ hp

theorem execContainerLoad_memOk (h : memOk s) : outOk (execContainerLoad s) := by
  unfold execContainerLoad
  dsimp only
  split
  next h1 =>
    refine outOk_next ?_
    split <;> exact (State.loadContainer_memOk h _ h1 :)
  · exact outOk_next h

/-! ### The vector length (Machine/VMove) -/

theorem execVsetl_memOk {w : VWord} (h : memOk s) : outOk (execVsetl w s) := by
  unfold execVsetl
  dsimp only
  refine outOk_next (State.issue_memOk h ?_)
  split
  · split
    · exact trivial
    · exact h
  split
  · exact trivial
  · exact h

/-! ### Deadlines and events in time (Machine/Schedule) -/

theorem State.claimG_memOk {r : Nat} {i : Instr} (h : memOk s) : memOk (s.claimG r i) := by
  unfold State.claimG
  dsimp only
  split <;> exact h

theorem State.nextLater_memOk (h : memOk s) : memOk s.nextLater := by
  unfold State.nextLater
  split <;> exact h

theorem State.nextHar_memOk {r : Nat} (h : memOk s) : memOk (s.nextHar r) := by
  unfold State.nextHar
  split
  · exact State.nextLater_memOk h
  split
  · exact h
  · exact State.nextLater_memOk h

theorem State.wordTurn_memOk {e : Eng} (h : memOk s) : (s.wordTurn e).memOk := by
  unfold State.wordTurn
  dsimp only
  split
  · exact h
  split
  · exact State.fetchBlock_memOk h
  split
  · exact State.fetchFault_memOk h
  · exact h
  split
  · exact State.nextHar_memOk h
  split
  · exact h
  · exact State.fetchScrub_memOk h

theorem State.engTurn_memOk {e : Eng} (h : memOk s) : (s.engTurn e).memOk := by
  unfold State.engTurn
  dsimp only
  split
  · exact h
  split
  · exact h
  split
  · exact h
  split
  · exact h
  · exact h
  split
  · exact State.wordTurn_memOk h
  · exact h

theorem State.seqTurn_memOk (h : memOk s) : s.seqTurn.memOk := by
  unfold State.seqTurn
  dsimp only
  split
  · exact h
  split
  · exact h
  split
  · exact h
  split
  · exact h
  split
  · exact h
  split
  · exact State.preciseF_memOk h
  split
  · exact h
  · exact State.claimG_memOk (State.fetchScrub_memOk h)

theorem State.memTurn_memOk (h : memOk s) : s.memTurn.memOk := by
  unfold State.memTurn
  dsimp only
  split
  · exact h
  split
  · exact h
  · exact State.nextHar_memOk (State.askDecode_memOk (State.askQueues_memOk h))

theorem State.endCycle_memOk (h : memOk s) : memOk s.endCycle := State.nextHar_memOk (State.drainLate_memOk h)

/-! ### Events (Machine/Events) -/

theorem State.consoleWaits_memOk (h : memOk s) : someMem s.consoleWaits := by
  unfold State.consoleWaits
  split
  · exact someMem_none
  intro t ht
  obtain ⟨p, -, hp⟩ := List.exists_of_findSome?_eq_some ht
  exact State.consoleEnter_memOk h t hp

theorem State.pauseBehind_memOk {i : Instr} (h : memOk s) : memOk (s.pauseBehind i) := by
  unfold State.pauseBehind
  split <;> exact h

theorem State.slotCheck_memOk (h : memOk s) : someMem s.slotCheck := by
  unfold State.slotCheck
  split
  · exact someMem_none
  intro t ht
  obtain ⟨d, -, hd⟩ := List.exists_of_findSome?_eq_some ht
  dsimp only at hd
  split at hd
  · cases hd
  split at hd
  · cases hd
  split at hd
  · cases hd
  split at hd <;> cases hd
  · exact State.count_memOk (State.devScrub_memOk h)
  · exact State.devScrub_memOk h

theorem State.beforeEvents_memOk (h : memOk s) : someMem s.beforeEvents := by
  unfold State.beforeEvents
  split
  · exact State.slotCheck_memOk h
  · exact someMem_some (State.tellTimes_memOk h)

theorem State.eventTurn_memOk (h : memOk s) : s.eventTurn.memOk := by
  unfold State.eventTurn
  split
  · exact h
  next h1 => exact State.consoleWaits_memOk h _ h1
  · exact State.settleHbm_memOk h
  · exact State.holdFor_memOk h
  split
  · exact State.rejectCommand_memOk h
  · exact State.pauseBehind_memOk h
  · exact h

theorem State.devTurn_memOk (h : memOk s) : s.devTurn.memOk := by
  unfold State.devTurn
  split
  next h1 => exact State.beforeEvents_memOk h _ h1
  · exact State.eventTurn_memOk h

theorem State.turn_memOk (h : memOk s) : s.turn.memOk := by
  unfold State.turn
  split
  · exact State.engTurn_memOk h
  · exact State.engTurn_memOk h
  · exact State.engTurn_memOk h
  · exact State.seqTurn_memOk h
  · exact State.memTurn_memOk h
  · exact State.devTurn_memOk h
  · exact State.endCycle_memOk h

/-! ### The step (Machine/Step) -/

theorem State.nextTurn_memOk (h : memOk s) : s.nextTurn.memOk := by
  unfold State.nextTurn
  split
  · exact h
  · exact State.turn_memOk h

theorem exec_memOk (i : Instr) (h : memOk s) : outOk (exec i s) := by
  cases i with
  | add | sub | and | or | xor | andn | orn | shl | shr | sra | rol | mul | mulh | mulhu | div | divu | rem | remu | min
    | max | minu | maxu | clz | ctz | popc | bswap | addi | andi | ori | xori | shli | shri | srai | roli | movi | movm
    | movh | kand | kor | kxor | kandn | kset | kget | sel | ptag | pspace | prank | padd | qsync | nop | framego | pwrrel
    | brfree | trefq | vnop | dnop | tnop | partmapWrite | pwrshareWrite => exact outOk_next h
  | sext => exact execSext_memOk h
  | cmp => exact execCmp_memOk h
  | cmpi => exact execCmpi_memOk h
  | br => exact execBr_memOk h
  | brl => exact execBrl_memOk h
  | jr => exact execJr_memOk h
  | jrl => exact execJrl_memOk h
  | ldb | ldbu | ldh | ldhu | ldw | ldwu | ldd => exact outOk_next (State.load_memOk h)
  | stb | sth | stw | std => exact outOk_next (State.store_memOk h)
  | wait => exact execWait_memOk h
  | fence p o => exact execFence_memOk (_o := o) h
  | yield => exact execYield_memOk h
  | nend => exact execNend_memOk h
  | trap | brk => exact outOk_next (State.takeTrap_memOk h)
  | waita => exact execWaita_memOk h
  | barinit => exact execBarinit_memOk h
  | barexp => exact execBarexp_memOk h
  | bararr => exact outOk_next (State.barAtomic_memOk h)
  | barwait | bartest => exact outOk_next (State.waitWord_memOk h)
  | bgbar => exact execBgbar_memOk h
  | bgarr => exact execBgarr_memOk h
  | bgwait => exact execBgwait_memOk h
  | bgsend => exact execBgsend_memOk h
  | bgrecv => exact execBgrecv_memOk h
  | bgtime => exact execBgtime_memOk h
  | exec => exact execExec_memOk h
  | engwait => exact execEngwait_memOk h
  | engseq => exact execEngseq_memOk h
  | pwrreq => exact execPwrreq_memOk h
  | qpost => exact execQpost_memOk h
  | spawn => exact execSpawn_memOk h
  | join => exact outOk_next (State.atomic_memOk h)
  | brld => exact execBrld_memOk h
  | brget => exact execBrget_memOk h
  | mfs => exact execMfs_memOk h
  | mts => exact execMts_memOk h
  | tref => exact execTref_memOk h
  | aadd | aand | aor | axor | amin | amax | aminu | amaxu | aswap | acas => exact outOk_next (State.atomicOld_memOk h)
  | aload o => exact execAload_memOk (_o := o) h
  | astore o => exact execAstore_memOk (_o := o) h
  | eret => exact execEret_memOk h
  | tlbi => exact execTlbi_memOk h
  | halt => exact execHalt_memOk h
  | waitint => exact execWaitint_memOk h
  | vadd | vsub | vmul | vfma | vmin | vmax | vmulh | vabsd | vadds | vsubs | vmuls | vfmas | vmins
    | vmaxs => exact outOk_next (State.vArith_memOk h)
  | vdot4 | vdot2 => exact outOk_next (State.vDot_memOk h)
  | vrcpe | vrsqe => exact outOk_next (State.vSeed_memOk h)
  | vrcp | vrsq | vsqrt | vexp2 | vlog2 | vexp | vlog | vsinp | vcosp | vtanh | verf
    | vdiv => exact outOk_next (State.vFunc_memOk h)
  | vcmp | vclass | vsel | vand | vor | vxor | vnot | vshl | vshr | vsra | vmov => exact outOk_next (State.vBits_memOk h)
  | vcvt | vpack | vunpk | vquant | vdeq | vbmax | vscan | vpart | viota | vperm | vgath | vscat | vsplat | vbcst | vextr
    | vins | vcadd => exact outOk_next (State.vIssue_memOk h)
  | vrsum | vrmax | vrmin | vrssq => exact outOk_next (State.vReduce_memOk h)
  | vsetl => exact execVsetl_memOk h
  | loopV | loopD | loopT => exact outOk_next (State.loop_memOk h)
  | vend | dend | tend => exact outOk_next (State.endBlock_memOk h)
  | dclaim => exact execDclaim_memOk h
  | drel => exact execDrel_memOk h
  | dmma => exact execDmma_memOk h
  | dzero | dfill | dcadd | teadd | temov | txch => exact outOk_next (State.issue_memOk h h)
  | dread => exact execDread_memOk h
  | dcvt => exact execDcvt_memOk h
  | dlds => exact execDlds_memOk h
  | dldt => exact execDldt_memOk h
  | dscl => exact execDscl_memOk h
  | dtbl => exact execDtbl_memOk h
  | dseek => exact execDseek_memOk h
  | ddec => exact execDdec_memOk h
  | dstat => exact execDstat_memOk h
  | tld => exact execTld_memOk h
  | tst => exact execTst_memOk h
  | tlds => exact execTlds_memOk h
  | tgath => exact execTgath_memOk h
  | tscat => exact execTscat_memOk h
  | tshift => exact execTshift_memOk h
  | txsend => exact execTxsend_memOk h
  | txrecv => exact execTxrecv_memOk h
  | tspst => exact execTspst_memOk h
  | tspld => exact execTspld_memOk h
  | tbarr => exact execTbarr_memOk h
  | tatom => exact execTatom_memOk h
  | copy | copy4d | bcast | fill | gather | gridr | gridp | gridc | ebz | ebx => exact outOk_next (State.runPacket_memOk h)
  | cred => exact execCred_memOk h
  | cgath => exact execCgath_memOk h
  | node => exact outOk_next (State.runCommand_memOk h (fun _ hu => State.nodeCommand_memOk hu))
  | dec => exact execDec_memOk h
  | remove => exact execRemove_memOk h
  | preempt => exact execPreempt_memOk h
  | param => exact execParam_memOk h
  | ckpt => exact execCkpt_memOk h
  | fenceCmd => exact execFenceCmd_memOk h
  | unassignedSEncoding => exact execUnassignedSEncoding_memOk h
  | unassignedEngineOpcode => exact outOk_next (State.issue_memOk h trivial)
  | blockDispatch => exact execBlockDispatch_memOk h
  | timedBlockStart => exact execTimedBlockStart_memOk h
  | blockRetire => exact execBlockRetire_memOk h
  | seqLoadReturn => exact execSeqLoadReturn_memOk h
  | seqStorePerform => exact execSeqStorePerform_memOk h
  | tLoadArrival => exact execTLoadArrival_memOk h
  | decodeComplete => exact execDecodeComplete_memOk h
  | expressMessageArrival => exact execExpressMessageArrival_memOk h
  | edgeDataArrival => exact execEdgeDataArrival_memOk h
  | bgsendDeparture => exact execBgsendDeparture_memOk h
  | bugleDelivery => exact execBugleDelivery_memOk h
  | barrierInstanceComplete => exact execBarrierInstanceComplete_memOk h
  | gangStart => exact execGangStart_memOk h
  | preemptLineChange => exact execPreemptLineChange_memOk h
  | autoPreempt => exact execAutoPreempt_memOk h
  | nodeStart => exact execNodeStart_memOk h
  | enqueueResume => exact execEnqueueResume_memOk h
  | powerGrant => exact execPowerGrant_memOk h
  | wdogExpire => exact execWdogExpire_memOk h
  | blockFaultEntry => exact execBlockFaultEntry_memOk h
  | interruptEntry => exact execInterruptEntry_memOk h
  | gangAbort => exact execGangAbort_memOk h
  | forcedRefresh => exact execForcedRefresh_memOk h
  | trefBankRefresh => exact execTrefBankRefresh_memOk h
  | refreshComplete => exact execRefreshComplete_memOk h
  | backoffEnd => exact execBackoffEnd_memOk h
  | packetAccept => exact execPacketAccept_memOk h
  | collectiveInstanceBegin => exact execCollectiveInstanceBegin_memOk h
  | collectiveCancel => exact outOk_next (memOk_foldl (fun _ _ h => h) h)
  | packetCompletion => exact execPacketCompletion_memOk h
  | selftestDrain => exact execSelftestDrain_memOk h
  | scanTest => exact execScanTest_memOk h
  | queueEnter => exact outOk_next (State.queueEnter_memOk h)
  | queueStop => exact outOk_next (State.queueStop_memOk h)
  | retry => exact outOk_next (State.queueRetry_memOk h)
  | abandon => exact outOk_next (State.queueAbandon_memOk h)
  | gtbaseWrite => exact outOk_next (State.gtbaseWrite_memOk h)
  | groupTableActivation => exact execGroupTableActivation_memOk h
  | partmapChange => exact execPartmapChange_memOk h
  | rperiodWrite => exact outOk_next (State.rperiodWrite_memOk h)
  | privilegedRegisterWrite => exact outOk_next (State.plainWrite_memOk h)
  | hostAccess => exact outOk_next (State.hostDo_memOk h)
  | consoleSend => exact execConsoleSend_memOk h
  | consoleReceive => exact execConsoleReceive_memOk h
  | flitReceive => exact execFlitReceive_memOk h
  | linkDown => exact execLinkDown_memOk h
  | linkTrain => exact execLinkTrain_memOk h
  | moduleReset => exact outOk_next (State.stage1_memOk State.rebooted_memOk)
  | firmwareBoot => exact execFirmwareBoot_memOk h
  | partitionStart => exact execPartitionStart_memOk h
  | containerLoad => exact execContainerLoad_memOk h
  | resumeCycle => exact execResumeCycle_memOk h
  | antiRollbackRaise => exact execAntiRollbackRaise_memOk h

theorem step_memOk (h : memOk s) : outOk (step s) := by
  have hturn : s.fresh.nextTurn.memOk := State.nextTurn_memOk h
  unfold step
  split
  · exact fun _ e => by cases e
  split
  next h1 => rw [h1] at hturn; exact exec_memOk _ hturn
  next h1 => rw [h1] at hturn; exact outOk_next hturn

/-- Settles O60: memory changes through State.write and State.writeKeys alone, which keep its form, and a reset leaves it
empty; so each function that a step goes through keeps it. -/
theorem stepKeepsMemory : Obligations.StepKeepsMemory := by
  unfold Obligations.StepKeepsMemory
  exact fun s t h ht => step_memOk h t ht

end Sys2Proof.Machine
end

section
/-! O9: the checks of a sequencer access in their order (02 R47; 14 R349; 17 R420; 18 R430). -/

namespace Sys2Proof.Machine

open Sys2Proof.Safety

theorem eaSM_eq (x : Word) (i : BitVec 10) (n : Nat) : eaSM x i n = BitVec.ofInt 64 (x.toNat + i.toInt * n) := by
  rw [eaSM, BitVec.ofInt_add, BitVec.ofInt_mul, BitVec.ofInt_natCast, BitVec.ofInt_natCast, BitVec.ofNat_toNat,
    BitVec.setWidth_eq]
  rfl

/-- An access that the check refuses with a code at its own address. -/
def refused (s : State) (p : Word) (a : SeqAcc) (c : Nat) : Prop :=
  s.seqAccess s.cur p a = .error { code := c, addr := p, acc := a.acc }

/-- A load of n bytes, as the check of its access sees it. -/
def loadAcc (n : Nat) : SeqAcc := ⟨n, n, accRead, true, false, false, false⟩

/-- A store of n bytes, as the check of its access sees it. -/
def storeAcc (n : Nat) : SeqAcc := ⟨n, n, accWrite, false, true, true, false⟩

section

variable {s : State} {p : Word} {a : SeqAcc} {c n : Nat}

theorem State.load_refused {d : BitVec 6} {sext : Bool} {sb : BitVec 4} (h : refused s p (loadAcc n) c) :
    s.load d p n sext sb = s.preciseF s.cur { code := c, addr := p, acc := accRead } := by
  unfold State.load
  simp only [show s.seqAccess s.cur p ⟨n, n, accRead, true, false, false, false⟩ = _ from h]
  rfl

theorem State.store_refused {d : BitVec 6} {sb : BitVec 4} (h : refused s p (storeAcc n) c) :
    s.store d p n sb = s.preciseF s.cur { code := c, addr := p, acc := accWrite } := by
  unfold State.store
  simp only [show s.seqAccess s.cur p ⟨n, n, accWrite, false, true, true, false⟩ = _ from h]
  rfl

/-- What the check of a space refuses is refused before anything else. -/
theorem refused_of_spaceCheck (h : s.spaceCheck s.cur .seq p a.acc = .error { code := c, addr := p, acc := a.acc }) :
    refused s p a c := by
  rw [refused, State.seqAccess, h]

theorem refused_space6to14 (hlo : 6 ≤ space p) (hhi : space p ≤ 14) : refused s p a cBAD_SPACE :=
  refused_of_spaceCheck (by rw [State.spaceCheck]; exact if_pos ⟨hlo, hhi⟩)

/-- The spaces that have no OWNER. -/
theorem refused_owner (hs : space p = 0 ∨ space p = 3 ∨ space p = 5 ∨ space p = 15) (ho : owner p ≠ 0) :
    refused s p a cBAD_SPACE := by
  refine refused_of_spaceCheck ?_
  obtain hs | hs | hs | hs := hs <;> simp [State.spaceCheck, hs, ho]

theorem refused_ownTower (hs : space p = 1) (ho : 2 ^ 26 ≤ offset p) : refused s p a cBAD_ADDRESS :=
  refused_of_spaceCheck (by simpa [State.spaceCheck, hs] using ho)

theorem refused_noHarness (hs : space p = 2)
    (h : s.ranks ≤ owner p ∨ s.partOf (owner p) ≠ s.partOf s.cur ∨ (s.har (owner p)).ctl.retired = true) :
    refused s p a cBAD_SPACE := by
  refine refused_of_spaceCheck ?_
  simp only [State.spaceCheck, hs]
  exact if_pos h

theorem refused_otherTower (hs : space p = 2) (hr : owner p < s.ranks) (hp : s.partOf (owner p) = s.partOf s.cur)
    (hret : (s.har (owner p)).ctl.retired = false) (ho : 2 ^ 26 ≤ offset p) : refused s p a cBAD_ADDRESS :=
  refused_of_spaceCheck (by simpa [State.spaceCheck, hs, hp, hret, Nat.not_le.mpr hr] using ho)

theorem refused_port (hs : space p = 4) (h : 16 ≤ owner p ∨ s.portBound (owner p) (s.partOf s.cur) = false) :
    refused s p a cBAD_SPACE :=
  refused_of_spaceCheck (by simp [State.spaceCheck, hs, h])

theorem refused_index (hs : space p = 5) (ho : owner p = 0)
    (h : (s.part (s.partOf s.cur)).rtlim.toNat * 64 ≤ offset p) : refused s p a cBAD_ADDRESS :=
  refused_of_spaceCheck (by simp [State.spaceCheck, hs, ho, h])

/-! ### Behind the check of the space -/

theorem spaceCheck_tower (hs : space p = 1) (ho : offset p < 2 ^ 26) : s.spaceCheck s.cur .seq p c = .ok () := by
  simpa [State.spaceCheck, hs] using ho

theorem spaceCheck_otherTower (hs : space p = 2) (hr : owner p < s.ranks) (hp : s.partOf (owner p) = s.partOf s.cur)
    (hret : (s.har (owner p)).ctl.retired = false) (ho : offset p < 2 ^ 26) : s.spaceCheck s.cur .seq p c = .ok () := by
  simpa [State.spaceCheck, hs, hp, hret, Nat.not_le.mpr hr] using ho

theorem spaceCheck_ownerless (hs : space p = 0 ∨ space p = 3 ∨ space p = 15) (ho : owner p = 0) :
    s.spaceCheck s.cur .seq p c = .ok () := by
  obtain hs | hs | hs := hs <;> simp [State.spaceCheck, hs, ho]

theorem spaceCheck_port (hs : space p = 4) (ho : owner p < 16) (hb : s.portBound (owner p) (s.partOf s.cur) = true) :
    s.spaceCheck s.cur .seq p c = .ok () := by
  simpa [State.spaceCheck, hs, hb] using ho

theorem spaceCheck_index (hs : space p = 5) (ho : owner p = 0)
    (h : offset p < (s.part (s.partOf s.cur)).rtlim.toNat * 64) : s.spaceCheck s.cur .seq p c = .ok () := by
  simpa [State.spaceCheck, hs, ho] using h

/-- A store to the resource table asks for a level above U. -/
theorem refused_priv5 (hc : s.spaceCheck s.cur .seq p a.acc = .ok ()) (hs : space p = 5) (h5 : a.s5 = true)
    (hl : (s.har s.cur).level = 0) : refused s p a cPRIV_SPACE := by
  simp [refused, State.seqAccess, hc, hs, h5, hl]

theorem refused_misaligned (hc : s.spaceCheck s.cur .seq p a.acc = .ok ()) (h15 : space p ≠ 15)
    (h5 : space p = 5 → a.s5 = true → (s.har s.cur).level ≠ 0) (h : offset p % a.align ≠ 0) :
    refused s p a cMISALIGNED := by
  have h5' : ¬(space p = 5 ∧ a.s5 = true ∧ (s.har s.cur).level = 0) := fun ⟨hs, ha, hl⟩ => h5 hs ha hl
  rw [refused, State.seqAccess, hc]
  dsimp only
  rw [if_neg h15, if_neg h5', if_pos h]

theorem refused_linkDown (hc : s.spaceCheck s.cur .seq p a.acc = .ok ()) (hs : space p = 4) (h : offset p % a.align = 0)
    (hd : s.linkUp (owner p) = false) : refused s p a cMEM_ERROR := by
  simp [refused, State.seqAccess, hc, hs, h, hd]

/-! ### Privileged registers -/

theorem seqAccess_space15 (hs : space p = 15) (ho : owner p = 0) : s.seqAccess s.cur p a = s.seqPriv s.cur p a := by
  rw [State.seqAccess, spaceCheck_ownerless (.inr (.inr hs)) ho]
  exact if_pos hs

/-- Every register number stands below offset 0x8000. -/
theorem offset_lt_of_privLevel {o : Nat} {f : Bool} (h : privLevel (o / 8) = some f) : o < 0x8000 := by
  unfold privLevel at h
  split at h
  · omega
  split at h
  · omega
  · cases h

theorem refused_privLevel (hs : space p = 15) (ho : owner p = 0)
    (h : (s.har s.cur).level = 0 ∨ (s.har s.cur).level = 1 ∧ privLevel (offset p / 8) = some true) :
    refused s p a cPRIV_SPACE := by
  rw [refused, seqAccess_space15 hs ho, State.seqPriv]
  obtain h | ⟨hl, hf⟩ := h
  · simp [h]
  · simp [hl, hf]

theorem refused_noRegister (hs : space p = 15) (ho : owner p = 0) (hl : (s.har s.cur).level ≠ 0)
    (h : privLevel (offset p / 8) = none) : refused s p a cBAD_ADDRESS := by
  simp [refused, seqAccess_space15 hs ho, State.seqPriv, hl, h]

section

variable {f : Bool} (hs : space p = 15) (ho : owner p = 0) (hf : privLevel (offset p / 8) = some f)
  (hl : (s.har s.cur).level = 2 ∨ (s.har s.cur).level = 1 ∧ f = false)

include hs ho hf hl

/-- The access to a register that the level may read and write gets to the checks of its size and alignment. -/
theorem seqAccess_register : s.seqAccess s.cur p a =
    if a.n < 8 then .error { code := cBAD_ADDRESS, addr := p, acc := a.acc }
    else if a.no15 then .error { code := cBAD_SPACE, addr := p, acc := a.acc }
    else if offset p % 8 ≠ 0 then .error { code := cMISALIGNED, addr := p, acc := a.acc }
    else .ok (.reg (offset p / 8)) := by
  have hlt : ¬0x8000 ≤ offset p := Nat.not_le.mpr (offset_lt_of_privLevel hf)
  rw [seqAccess_space15 hs ho, State.seqPriv]
  obtain hl | ⟨hl, rfl⟩ := hl <;> simp [hl, hf, hlt]

theorem refused_narrow (hn : a.n < 8) : refused s p a cBAD_ADDRESS := by
  rw [refused, seqAccess_register hs ho hf hl, if_pos hn]

theorem refused_registerMisaligned (hn : a.n = 8) (h15 : a.no15 = false) (h : offset p % 8 ≠ 0) :
    refused s p a cMISALIGNED := by
  simp [refused, seqAccess_register hs ho hf hl, hn, h15, h]

end

end

/-- Settles O9: each clause is the check that refuses the access, none before it refusing it. -/
theorem accessChecks : Obligations.AccessChecks := by
  unfold Obligations.AccessChecks
  intro s d a i sb ld st n hrow p own loads writes both
  have hexec : (∃ sext, exec ld s = .next (s.load d p n sext sb)) ∧ exec st s = .next (s.store d p n sb) := by
    simp only [List.mem_cons, Prod.mk.injEq, List.mem_nil_iff, or_false] at hrow
    have hp (q : Word → State) (m : Nat) : (.next (q (eaSM (s.g a) i m)) : Out) = .next (q _) :=
      congrArg (fun x => (.next (q x) : Out)) (eaSM_eq (s.g a) i m)
    obtain ⟨rfl, rfl, rfl⟩ | ⟨rfl, rfl, rfl⟩ | ⟨rfl, rfl, rfl⟩ | ⟨rfl, rfl, rfl⟩ | ⟨rfl, rfl, rfl⟩ | ⟨rfl, rfl, rfl⟩ |
        ⟨rfl, rfl, rfl⟩ := hrow <;>
      exact ⟨⟨_, hp (fun q => s.load d q _ _ sb) _⟩, hp (fun q => s.store d q _ sb) _⟩
  obtain ⟨⟨sext, hld⟩, hst⟩ := hexec
  have hloads {c : Nat} (h : refused s p (loadAcc n) c) : loads c := hld.trans (congrArg _ (State.load_refused h))
  have hwrites {c : Nat} (h : refused s p (storeAcc n) c) : writes c := hst.trans (congrArg _ (State.store_refused h))
  have hboth {c : Nat} (h : ∀ a, a = loadAcc n ∨ a = storeAcc n → refused s p a c) : both c :=
    ⟨hloads (h _ (.inl rfl)), hwrites (h _ (.inr rfl))⟩
  have hmis (hc : ∀ acc, s.spaceCheck s.cur .seq p acc = .ok ()) (h15 : space p ≠ 15) (h5 : space p ≠ 5)
      (ho : offset p % n ≠ 0) : both cMISALIGNED := by
    refine hboth ?_
    rintro _ (rfl | rfl) <;> exact refused_misaligned (hc _) h15 (fun h => absurd h h5) ho
  have hno15 {a : SeqAcc} (h : a = loadAcc n ∨ a = storeAcc n) : a.n = n ∧ a.align = n ∧ a.no15 = false := by
    obtain rfl | rfl := h <;> exact ⟨rfl, rfl, rfl⟩
  refine ⟨fun hlo hhi => hboth fun _ _ => refused_space6to14 hlo hhi,
    fun hs ho => hboth fun _ _ => refused_owner (.inl hs) ho,
    fun hs ho => hboth fun _ _ => refused_ownTower hs ho, fun hs ho => hboth fun _ _ => refused_noHarness hs (.inl ho),
    fun hs _ h => hboth fun _ _ => refused_noHarness hs (.inr h), fun hs hr hp hret => ⟨?_, ?_⟩, fun hs => ⟨?_, ?_⟩,
    fun hs h => hboth fun _ _ => refused_port hs h, fun hs ho hb => ⟨?_, ?_⟩,
    fun hs ho => hboth fun _ _ => refused_owner (.inr (.inr (.inl hs))) ho,
    fun hs ho h => hboth fun _ _ => refused_index hs ho h, fun hs ho h => ⟨?_, ?_⟩,
    fun hs ho => hboth fun _ _ => refused_owner (.inr (.inr (.inr hs))) ho, fun hs ho => ⟨?_, ?_, ?_⟩, ?_, ?_⟩
  · exact fun ho => hboth fun _ _ => refused_otherTower hs hr hp hret ho
  · exact fun ho => hmis (fun _ => spaceCheck_otherTower hs hr hp hret ho) (by omega) (by omega)
  · exact fun ho => hboth fun _ _ => refused_owner (.inr (.inl hs)) ho
  · exact fun ho => hmis (fun _ => spaceCheck_ownerless (.inr (.inl hs)) ho) (by omega) (by omega)
  · exact hmis (fun _ => spaceCheck_port hs ho hb) (by omega) (by omega)
  · exact fun h hd => hboth fun a ha => refused_linkDown (spaceCheck_port hs ho hb) hs ((hno15 ha).2.1 ▸ h) hd
  · exact fun hl => hwrites (refused_priv5 (spaceCheck_index hs ho h) hs rfl hl)
  · refine fun hm => ⟨?_, fun hl => ?_⟩
    · exact hloads (refused_misaligned (spaceCheck_index hs ho h) (by omega) (fun _ h5 => by cases h5) hm)
    · exact hwrites (refused_misaligned (spaceCheck_index hs ho h) (by omega) (fun _ _ => hl) hm)
  · exact fun h => hboth fun _ _ => refused_privLevel hs ho h
  · exact fun hl h => hboth fun _ _ => refused_noRegister hs ho hl h
  · refine fun f hf hl => ⟨fun hlt => hboth fun a ha => ?_, fun heq hm => hboth fun a ha => ?_⟩
    · exact refused_narrow hs ho hf hl ((hno15 ha).1 ▸ hlt)
    · exact refused_registerMisaligned hs ho hf hl ((hno15 ha).1.trans heq) (hno15 ha).2.2 hm
  · exact fun hs ho => hmis (fun _ => spaceCheck_ownerless (.inl hs) ho) (by omega) (by omega)
  · exact fun hs ho => hmis (fun _ => spaceCheck_tower hs ho) (by omega) (by omega)

end Sys2Proof.Machine
end

section
/-! O22: TREF and TREFQ (06 R199, R200; 02 R64, R65; 17 R421). -/

namespace Sys2Proof.Machine

open Sys2Proof.Safety

theorem State.har_retire (s : State) (f : Harness → Harness) :
    (s.retire f).har s.cur = { f (s.har s.cur) with seq := (f (s.har s.cur)).seq.advance } := by
  rw [State.retire, State.har_modHar]

/-- A slot that an instruction takes stays taken while the sequencer goes on. -/
theorem Seq.holdsSlot_setSb (q : Seq) {n : Nat} (hn : n < 16) : holdsSlot n q (q.setSb n).advance := by
  have hadv : (q.setSb n).advance.sbn = (q.setSb n).sbn := by rw [Seq.advance_eq]
  intro m
  rw [hadv, Seq.setSb]
  by_cases h0 : n = 0
  · simp [h0]
  · by_cases hm : m = n
    · subst hm
      simp [h0, hn, Vector.getD]
    · have hm' : ¬n = m := fun h => hm h.symm
      simp [h0, hm, Vector.getD, Array.getD_eq_getD_getElem?, hm']

theorem Seq.advance_setSb (q : Seq) (n : Nat) : (q.setSb n).advance = { q.advance with sbn := (q.setSb n).advance.sbn } := by
  unfold Seq.setSb
  split
  · rfl
  · simp only [Seq.advance_eq]

theorem mem_bankKeys {k n : Nat} (hn : n < 16) : k ∈ bankKeys n ↔ k < 256 ∧ k % 16 = n := by
  simp only [bankKeys, bankKey, List.mem_map, List.mem_range]
  constructor
  · rintro ⟨c, hc, rfl⟩
    omega
  · rintro ⟨hk, rfl⟩
    exact ⟨k / 16, by omega, by omega⟩

/-- The banks that a TREF names. -/
theorem mem_bankKeys_range {k lo hi : Nat} (hh : hi ≤ 15) :
    k ∈ (List.range' lo (hi + 1 - lo)).flatMap bankKeys ↔ k < 256 ∧ lo ≤ k % 16 ∧ k % 16 ≤ hi := by
  simp only [List.mem_flatMap, List.mem_range'_1]
  constructor
  · rintro ⟨n, hn, hk⟩
    obtain ⟨hk, rfl⟩ := (mem_bankKeys (by omega)).mp hk
    omega
  · rintro ⟨hk, hlo, hhi⟩
    exact ⟨k % 16, by omega, (mem_bankKeys (by omega)).mpr ⟨hk, rfl⟩⟩

/-- The banks in a forced refresh among those that a TREF of the numbers lo to hi names. -/
def Harness.forcedIn (h : Harness) (lo hi : Nat) : List Nat :=
  ((List.range' lo (hi + 1 - lo)).flatMap bankKeys).filter fun k => (h.bank k).st == .forced

theorem Harness.mem_forcedIn {h : Harness} {k lo hi : Nat} (hh : hi ≤ 15) :
    k ∈ h.forcedIn lo hi ↔ k < 256 ∧ lo ≤ k % 16 ∧ k % 16 ≤ hi ∧ (h.bank k).st = .forced := by
  rw [Harness.forcedIn, List.mem_filter, mem_bankKeys_range hh, beq_iff_eq, and_assoc, and_assoc]

theorem tref_queues {s : State} {n : BitVec 4} {a b : BitVec 6} (hlo : (s.g a).toNat ≤ 15) (hhi : (s.g b).toNat ≤ 15) :
    exec (.tref n a b) s = .next (s.retire fun h => { h with
      tref := h.tref ++ [⟨List.range' (s.g a).toNat ((s.g b).toNat + 1 - (s.g a).toNat), none, n.toNat,
        h.forcedIn (s.g a).toNat (s.g b).toNat⟩]
      seq := h.seq.setSb n.toNat }) :=
  if_neg (by omega)

/-- The fold that starts with a list's first element gives its least element. -/
theorem min?_eq_foldl_headD {ds : List Int} (h : ds ≠ []) : ds.min? = some (ds.foldl min (ds.headD 0)) := by
  cases ds with
  | nil => exact absurd rfl h
  | cons x xs => simp [List.min?]

/-- The least remaining time is at most that of each listed bank and of an unlisted one, and is one of them. -/
theorem Harness.leastLeft_spec (h : Harness) (now : Nat) :
    (∀ kb ∈ h.banks, h.leastLeft now ≤ (kb.2.deadline : Int) - now) ∧
    (h.banks.length < 256 → h.leastLeft now ≤ (h.dl0 : Int) - now) ∧
    ((∃ kb ∈ h.banks, h.leastLeft now = (kb.2.deadline : Int) - now) ∨
      h.banks.length < 256 ∧ h.leastLeft now = (h.dl0 : Int) - now) := by
  unfold Harness.leastLeft
  extract_lets ds all
  have hall (x : Int) : x ∈ all ↔
      (∃ kb ∈ h.banks, (kb.2.deadline : Int) - now = x) ∨ h.banks.length < 256 ∧ x = h.dl0 - now := by
    by_cases hl : h.banks.length < 256 <;> simp [all, ds, hl, Bank.left, or_comm]
  have hne : all ≠ [] := by
    by_cases hl : h.banks.length < 256
    · exact List.ne_nil_of_mem ((hall _).mpr (.inr ⟨hl, rfl⟩))
    · exact fun h0 => hl (by simp [all, ds, hl] at h0; simp [h0])
  obtain ⟨hmem, hle⟩ := List.min?_eq_some_iff.mp (min?_eq_foldl_headD hne)
  refine ⟨fun kb hkb => hle _ ((hall _).mpr (.inl ⟨kb, hkb, rfl⟩)), fun hl => hle _ ((hall _).mpr (.inr ⟨hl, rfl⟩)), ?_⟩
  exact ((hall _).mp hmem).imp_left fun ⟨kb, hkb, h⟩ => ⟨kb, hkb, h.symm⟩

/-- Settles O22: the forced banks are filtered from those that TREF names, and TREFQ's fold is a least element. -/
theorem refreshInstructions : Obligations.RefreshInstructions := by
  unfold Obligations.RefreshInstructions
  intro s n d a b r h lo hi now
  obtain ⟨hlisted, hunlisted, hone⟩ := h.leastLeft_spec now
  refine ⟨fun hbad => ?_, fun hlo hhi => ?_, _, State.toG_writes rfl, hlisted, hunlisted, hone.imp_right And.right⟩
  · exact if_pos hbad
  · refine ⟨_, h.forcedIn lo hi, tref_queues hlo hhi, onlyHar_modHar _ _ _, ?_, fun k => Harness.mem_forcedIn hhi,
      ?_, ?_⟩
    · rw [State.har_retire]
    · rw [State.har_retire]
      exact Seq.holdsSlot_setSb _ n.isLt
    · rw [State.har_retire]
      exact Seq.advance_setSb _ _

end Sys2Proof.Machine
end

section
/-! O51: a forced refresh of a bank whose key the table lists, but not in order (02 R66). -/

namespace Sys2Proof.Machine

open Sys2Proof.Safety

/-- A table of 256 banks, all far from their deadlines, that lists bank 1 before bank 0. -/
def unsortedBanks : Table Bank := (1, { deadline := 10 ^ 12 }) :: List.replicate 255 (0, { deadline := 10 ^ 12 })

/-- A harness at reset with that table, and whose other banks are at their deadline. -/
def unsortedTower : State := State.reset.setHar 0 { State.reset.har 0 with banks := unsortedBanks, dl0 := 0 }

/-- A look at bank 0 stops at bank 1, and so finds the deadline of a bank that nothing has refreshed. -/
theorem unsortedTower_bank : (unsortedTower.har 0).bank 0 = { deadline := 0 } := by decide

/-- The least remaining time is that of the listed banks, and no forced refresh is due. -/
theorem unsortedTower_forcedBank : (unsortedTower.har 0).forcedBank 1 188000000 = none := by
  have hbanks : (unsortedTower.har 0).banks = unsortedBanks := rfl
  have hfar : ∀ kb ∈ unsortedBanks, kb.2.deadline = 10 ^ 12 := by simp [unsortedBanks, -List.reduceReplicate]
  have hlen : unsortedBanks.length = 256 := by simp [unsortedBanks, -List.reduceReplicate]
  have hleast : (unsortedTower.har 0).leastLeft 1 = 10 ^ 12 - 1 := by
    obtain ⟨-, -, ⟨kb, hkb, h⟩ | ⟨h, -⟩⟩ := (unsortedTower.har 0).leastLeft_spec 1
    · rw [h, hfar kb (hbanks ▸ hkb)]
      rfl
    · rw [hbanks, hlen] at h
      exact absurd h (Nat.lt_irrefl _)
  rw [Harness.forcedBank, hleast]
  rfl

theorem forcedRefresh_unsortedTower : exec .forcedRefresh unsortedTower = .next unsortedTower := by
  have hguard : (unsortedTower.die (dieOf unsortedTower.ev.a)).rguard.toNat = 188000000 := by decide
  have hnow : unsortedTower.mcc.toNat + 1 = 1 := by decide
  have hrank : unsortedTower.ev.a = 0 := rfl
  change execForcedRefresh unsortedTower = _
  rw [execForcedRefresh, hguard, hnow, hrank]
  simp only [unsortedTower_forcedBank]

/-- Refutes O51: in its last clause bank k may be listed where a look at it does not find it, when the table of banks is not
sorted. With 256 entries, the least remaining time is then that of the listed banks alone, and bank 0, which is at its
deadline, is not refreshed. -/
theorem not_bankEvents : ¬ Obligations.BankEvents := by
  unfold Obligations.BankEvents
  intro h
  obtain ⟨-, -, -, -, -, -, hforced⟩ := h unsortedTower ⟨[], none, 0, []⟩ [] [] [] 0 {} [] []
  obtain ⟨h', hexec, hh, -⟩ := hforced (by decide) (by decide)
    (fun j hj => absurd hj (Nat.not_lt_zero j)) (.inr ⟨{ deadline := 10 ^ 12 }, by decide⟩)
  rw [forcedRefresh_unsortedTower] at hexec
  have hhar : unsortedTower.har 0 = h' := by
    conv_lhs => rw [Host.Outcome.next.inj hexec]
    exact State.har_setHar _ _ _
  have hfref : (unsortedTower.har 0).sp.fref = (unsortedTower.har 0).sp.fref + 1 := congrArg (fun x => x.sp.fref) (hhar.trans hh)
  exact absurd hfref (by decide)

end Sys2Proof.Machine
end

section
/-! SUPPORT. A blocking access of the sequencer that meets no error: what it leaves as it was, and when the sequencer issues again
(02 R49, R50, R67; 04 R107). -/

namespace Sys2Proof.Machine

open Sys2Proof.Safety

/-! ### Short writes -/

theorem wholeGranules_of_lt {k n : Nat} (h : n < 64) : wholeGranules k n = [] := by
  unfold wholeGranules cdiv
  dsimp only
  rw [show (k + n) / 64 - (k + 64 - 1) / 64 = 0 by omega]
  rfl

/-- A write of less than a granule, every byte in service, changes memory alone. -/
theorem State.write_short {s : State} {k : Nat} {bs : List Byte} (hq : ∀ i, i < bs.length → s.quarantined (k + i) = false)
    (hlen : bs.length < 64) : s.write k bs = { s with mem := memWrite s.mem k bs } := by
  have hall : (List.range bs.length).all (fun i => !s.quarantined (k + i)) = true := by simpa [List.all_eq_true] using hq
  rw [State.write, if_pos (by simp [hall]), State.put, wholeGranules_of_lt hlen]
  exact ite_self _

/-! ### The translation cache -/

/-- Nothing differs but the translation cache of rank r. -/
structure onlyTlb (r : Nat) (s t : State) : Prop where
  only : t = { s with hs := t.hs }
  har : ∀ q, t.har q = { s.har q with tlb := (t.har q).tlb }
  other : ∀ q, q ≠ r → t.har q = s.har q

theorem onlyTlb.refl (r : Nat) (s : State) : onlyTlb r s s := ⟨rfl, fun _ => rfl, fun _ _ => rfl⟩

theorem State.cacheLeaf_onlyTlb {s : State} (hl : s.latent = []) (r va : Nat) : onlyTlb r s (s.cacheLeaf r va) := by
  unfold State.cacheLeaf
  split
  · exact .refl r s
  next l _ =>
    rw [State.scrubWalk, if_pos (.inl (by rw [hl]; rfl))]
    refine ⟨rfl, fun q => ?_, fun q hq => State.har_modHar_other _ hq⟩
    by_cases hq : q = r
    · rw [hq, State.har_modHar]
      split <;> rfl
    · rw [State.har_modHar_other _ hq]

theorem State.cacheFor_onlyTlb {s : State} (hl : s.latent = []) (r : Nat) (p : Word) : onlyTlb r s (s.cacheFor r p) := by
  unfold State.cacheFor
  split
  · exact State.cacheLeaf_onlyTlb hl ..
  · exact State.cacheLeaf_onlyTlb hl ..
  · exact .refl r s

section

variable {r k : Nat} {s t : State} {a : Asker} (h : onlyTlb r s t)

include h

theorem onlyTlb.bank (q j : Nat) : (t.har q).bank j = (s.har q).bank j := by rw [h.har]; rfl

theorem onlyTlb.physRow (q cell bank row : Nat) : (t.har q).physRow cell bank row = (s.har q).physRow cell bank row := by
  rw [h.har]; rfl

theorem onlyTlb.cur : t.cur = s.cur := by rw [h.only]

theorem onlyTlb.mcc : t.mcc = s.mcc := by rw [h.only]

theorem onlyTlb.calm (hc : calm a k s) : calm a k t := by
  obtain ⟨hl, hs, hal⟩ := hc
  have hdie : ∀ d, t.die d = s.die d := fun d => by rw [h.only]; rfl
  refine ⟨by rw [h.only]; exact hl, ?_, fun hk => ?_⟩
  · unfold State.serves State.bankAt at hs ⊢
    rw [h.bank, h.mcc]
    exact hs
  · dsimp only
    rw [h.bank, h.physRow, h.mcc, hdie]
    exact hal hk

theorem onlyTlb.issuesAgain (k : Nat) : issuesAgain k t = issuesAgain k s := by
  unfold Safety.issuesAgain towerCycles State.bankAt
  rw [h.bank, h.physRow, h.mcc, h.cur, h.har s.cur]

end

/-! ### The access -/

/-- Nothing differs but the translation cache of the current harness, the state of tower banks, and that its sequencer issues
again in cycle c. -/
structure answered (c : Nat) (s t : State) : Prop where
  only : t = { s with hs := t.hs }
  har : ∀ q, t.har q = { s.har q with
    tlb := (t.har q).tlb, banks := (t.har q).banks, reply := if q = s.cur then c else (s.har q).reply }
  other : ∀ q, q ≠ s.cur → (t.har q).tlb = (s.har q).tlb

theorem answered.cur {c : Nat} {s t : State} (h : answered c s t) : t.cur = s.cur := by rw [h.only]

theorem answered.mem {c : Nat} {s t : State} (h : answered c s t) : t.mem = s.mem := by rw [h.only]

theorem answered.seq {c : Nat} {s t : State} (h : answered c s t) (q : Nat) : (t.har q).seq = (s.har q).seq := by rw [h.har]

theorem answered.quarantined {c : Nat} {s t : State} (h : answered c s t) (k : Nat) : t.quarantined k = s.quarantined k := by
  rw [h.only]; rfl

theorem onlyTlb.answered {c : Nat} {s t u : State} (h : onlyTlb s.cur s t) (k : answered c t u) : answered c s u := by
  refine ⟨by rw [k.only, h.only], fun q => ?_, fun q hq => ?_⟩
  · rw [k.har q, h.har q, h.cur]
  · rw [k.other q (h.cur.symm ▸ hq), h.other q hq]

theorem onlyTowers.answered {s t : State} (h : onlyTowers s t) : answered (s.har s.cur).reply s t := by
  refine ⟨h.1, fun q => ?_, fun q _ => by rw [h.2 q]⟩
  rw [h.2 q]
  split
  next hq => rw [hq]
  next => rfl

/-- An access activates the row unless it stands open. -/
theorem Bank.access_act (b : Bank) (now row beats tdmt : Nat) :
    (b.access now row beats tdmt false).2.1 = !decide (b.row = some row) := by
  unfold Bank.access
  by_cases h : b.row = some row
  · simp [h]
  · simp only [h, false_and, if_false, decide_false, Bool.not_false]
    split <;> rfl

/-- An access to a tower returns 8 cycles later where the row was open, and 20 where it was not. -/
theorem State.touchLat_cycles (s : State) (a : Asker) {k : Nat} (hk : isTower k = true) :
    (s.touchLat a k).2 = towerCycles k s := by
  obtain ⟨hu, w, hw⟩ := s.unask_bank a k
  have hrow : (((s.unask a k).har (towerRank k)).bank (bankKey (towCell k) (towBank k))).row = (s.bankAt k).row := by
    rw [show ((s.unask a k).har (towerRank k)).bank (bankKey (towCell k) (towBank k)) = _ from hw]
  have hphys : ((s.unask a k).har (towerRank k)).physRow (towCell k) (towBank k) (towRow k) =
      (s.har (towerRank k)).physRow (towCell k) (towBank k) (towRow k) := by rw [hu.2]; rfl
  unfold State.touchLat State.touchRow towerCycles
  rw [if_pos hk]
  dsimp only
  rw [Bank.access_act, hrow, hphys]
  by_cases h : (s.bankAt k).row = some ((s.har (towerRank k)).physRow (towCell k) (towBank k) (towRow k)) <;> simp [h]

theorem State.touchIssue_answered {s : State} {k : Nat} (h : calm s.issuer k s) :
    answered (issuesAgain k s) s (s.touchIssue k) := by
  have ht : onlyTowers s (s.touchLat s.issuer k).1 := State.touch_calm h
  unfold State.touchIssue issuesAgain
  by_cases hk : isTower k = true
  · have hcyc : towerCycles k s ≠ 0 := by unfold towerCycles; split <;> decide
    dsimp only
    rw [State.touchLat_cycles s _ hk, if_neg hcyc, if_pos hk]
    refine ⟨by rw [ht.1]; rfl, fun q => ?_, fun q hq => ?_⟩
    · by_cases hq : q = s.cur
      · subst hq
        rw [State.har_modHar, ht.2 s.cur, if_pos rfl]
      · rw [State.har_modHar_other _ hq, ht.2 q, if_neg hq]
    · rw [State.har_modHar_other _ hq, ht.2 q]
  · have hlat : s.touchLat s.issuer k = (s, 0) := if_neg hk
    rw [hlat, if_neg hk]
    exact onlyTowers.answered ⟨rfl, fun _ => rfl⟩

/-- The access of the blocking instruction in issue, its translation cached. -/
def State.reached (s : State) (p : Word) (k : Nat) : State := (s.cacheFor s.cur p).touchIssue k

theorem State.reached_answered {s : State} {k : Nat} (p : Word) (h : calm s.issuer k s) :
    answered (issuesAgain k s) s (s.reached p k) := by
  have ht : onlyTlb s.cur s (s.cacheFor s.cur p) := State.cacheFor_onlyTlb h.1 ..
  have hissuer : (s.cacheFor s.cur p).issuer = s.issuer := by unfold State.issuer; rw [ht.cur]
  refine ht.answered ?_
  rw [← ht.issuesAgain]
  exact State.touchIssue_answered (hissuer ▸ ht.calm h)

/-- A granule that holds no latent error is not scrubbed. -/
theorem State.scrub_reached {s : State} {k n : Nat} {p : Word} (h : calm s.issuer k s) :
    ((s.cacheFor s.cur p).scrub k n).touchIssue k = s.reached p k := by
  have ht : onlyTlb s.cur s (s.cacheFor s.cur p) := State.cacheFor_onlyTlb h.1 ..
  rw [State.scrub_of_no_latent (by rw [ht.only]; exact h.1)]
  rfl

/-- The sequencer goes on after an access that changed n bytes from key k at most. -/
theorem answered.onlyWordTill {c k n : Nat} {s t : State} {m : List Host.Cell} (h : answered c s t)
    (hm : ∀ a, a < k ∨ k + n ≤ a → memGet m a = memGet s.mem a) (f : Seq → Seq) :
    onlyWordTill s.cur k n c s (({ t with mem := m } : State).retireSeq f) := by
  have hhar (q : Nat) (hq : q ≠ s.cur) : (({ t with mem := m } : State).retireSeq f).har q = t.har q :=
    State.har_modHar_other _ (h.cur.symm ▸ hq)
  refine ⟨by rw [h.only]; rfl, hm, fun q => ?_, fun q hq => by rw [hhar q hq]; exact ⟨h.seq q, h.other q hq⟩⟩
  by_cases hq : q = s.cur
  · have hcur : (({ t with mem := m } : State).retireSeq f).har t.cur =
        { t.har t.cur with seq := (f (t.har t.cur).seq).advance } := State.retireSeq_har _ f
    rw [hq, ← h.cur, hcur, h.har t.cur, h.cur]
  · rw [hhar q hq, h.har q]

theorem answered.retireSeq_seq {c : Nat} {s t : State} {m : List Host.Cell} (h : answered c s t) (f : Seq → Seq) :
    ((({ t with mem := m } : State).retireSeq f).har s.cur).seq = (f (s.har s.cur).seq).advance := by
  rw [← h.cur, show t.cur = ({ t with mem := m } : State).cur from rfl, State.retireSeq_har, ← h.seq, h.cur]
  rfl

end Sys2Proof.Machine
end

section
/-! O13: waits on a word, and updates of barrier objects (04 R121-R126; 06 R179, R180; 02 R49). -/

namespace Sys2Proof.Machine

open Sys2Proof.Safety

/-! ### The word of a barrier object -/

/-- The word 0 that BARINIT writes for a count c. -/
def reloadWord (c : Nat) : Word := BitVec.ofNat 64 (c * 2 ^ 48 + c * 2 ^ 32)

theorem barPhase_eq (w : Word) : barPhase w = w.getLsbD 24 := by
  unfold barPhase wf field BitVec.getLsbD
  rw [Nat.testBit_eq_decide_div_mod_eq]
  rfl

theorem toNat_barPut {w : Word} {pend : Nat} {phase : Bool} {bal : Int} (hp : pend < 2 ^ 16) : (barPut w pend phase bal).toNat =
    wf w 48 16 * 2 ^ 48 + pend * 2 ^ 32 + wf w 25 7 * 2 ^ 25 + b2n phase * 2 ^ 24 + (bal % 2 ^ 24).toNat := by
  have h48 : wf w 48 16 < 2 ^ 16 := Nat.mod_lt _ (by decide)
  have h25 : wf w 25 7 < 2 ^ 7 := Nat.mod_lt _ (by decide)
  have hphase : b2n phase ≤ 1 := by cases phase <;> decide
  rw [barPut, BitVec.toNat_ofNat]
  omega

section

variable {w : Word} {pend : Nat} {phase : Bool} {bal : Int} (hp : pend < 2 ^ 16)

include hp

theorem barReload_barPut : barReload (barPut w pend phase bal) = barReload w := by
  have h48 : wf w 48 16 < 2 ^ 16 := Nat.mod_lt _ (by decide)
  have h25 : wf w 25 7 < 2 ^ 7 := Nat.mod_lt _ (by decide)
  have hphase : b2n phase ≤ 1 := by cases phase <;> decide
  have hw := toNat_barPut (w := w) (phase := phase) (bal := bal) hp
  show (barPut w pend phase bal).toNat / 2 ^ 48 % 2 ^ 16 = wf w 48 16
  omega

theorem reserved_barPut : wf (barPut w pend phase bal) 25 7 = wf w 25 7 := by
  have h25 : wf w 25 7 < 2 ^ 7 := Nat.mod_lt _ (by decide)
  have hphase : b2n phase ≤ 1 := by cases phase <;> decide
  have hw := toNat_barPut (w := w) (phase := phase) (bal := bal) hp
  show (barPut w pend phase bal).toNat / 2 ^ 25 % 2 ^ 7 = wf w 25 7
  omega

theorem barPend_barPut : barPend (barPut w pend phase bal) = pend := by
  have h25 : wf w 25 7 < 2 ^ 7 := Nat.mod_lt _ (by decide)
  have hphase : b2n phase ≤ 1 := by cases phase <;> decide
  have hw := toNat_barPut (w := w) (phase := phase) (bal := bal) hp
  show (barPut w pend phase bal).toNat / 2 ^ 32 % 2 ^ 16 = pend
  omega

theorem barPhase_barPut : barPhase (barPut w pend phase bal) = phase := by
  have hw := toNat_barPut (w := w) (phase := phase) (bal := bal) hp
  have hbit : (barPut w pend phase bal).toNat / 2 ^ 24 % 2 ^ 1 = b2n phase := by
    cases phase <;> simp only [b2n, Bool.false_eq_true, if_false, if_true] at hw ⊢ <;> omega
  show ((barPut w pend phase bal).toNat / 2 ^ 24 % 2 ^ 1 == 1) = phase
  rw [hbit]
  cases phase <;> rfl

theorem barBal_barPut (hlo : -(2 ^ 23 : Int) ≤ bal) (hhi : bal < 2 ^ 23) : barBal (barPut w pend phase bal) = bal := by
  have hphase : b2n phase ≤ 1 := by cases phase <;> decide
  have hw := toNat_barPut (w := w) (phase := phase) (bal := bal) hp
  have hlow : wf (barPut w pend phase bal) 0 24 = (bal % 2 ^ 24).toNat := by
    show (barPut w pend phase bal).toNat / 2 ^ 0 % 2 ^ 24 = _
    omega
  rw [barBal, hlow, sextNat]
  rw [if_neg (by decide)]
  split <;> omega

end

theorem barPend_lt (w : Word) : barPend w < 2 ^ 16 := Nat.mod_lt _ (by decide)

theorem barReload_lt (w : Word) : barReload w < 2 ^ 16 := Nat.mod_lt _ (by decide)

theorem barBal_range (w : Word) : -(2 ^ 23 : Int) ≤ barBal w ∧ barBal w < 2 ^ 23 := by
  have h : wf w 0 24 < 2 ^ 24 := Nat.mod_lt _ (by decide)
  rw [barBal, sextNat]
  rw [if_neg (by decide)]
  split <;> omega

/-- What an update with its flip test leaves in the fields of word w. -/
structure barFields (w v : Word) (n : Nat) (x : Int) : Prop where
  reload : barReload v = barReload w
  reserved : wf v 25 7 = wf w 25 7
  pend : barPend v = if n = 0 ∧ x = 0 then barReload w else n
  phase : barPhase v = if n = 0 ∧ x = 0 then !barPhase w else barPhase w
  bal : barBal v = x

theorem barFlip_fields {w : Word} {pend : Nat} {bal : Int} (hp : pend < 2 ^ 16) (hlo : -(2 ^ 23 : Int) ≤ bal)
    (hhi : bal < 2 ^ 23) : barFields w (barFlip w pend bal) pend bal := by
  have hr := barReload_lt w
  unfold barFlip
  by_cases h : pend = 0 ∧ bal = 0
  · simp only [h, and_self, if_true]
    refine ⟨barReload_barPut hr, reserved_barPut hr, ?_, ?_, barBal_barPut hr (by decide) (by decide)⟩
    · rw [barPend_barPut hr]; rfl
    · rw [barPhase_barPut hr]; rfl
  · rw [if_neg h]
    refine ⟨barReload_barPut hp, reserved_barPut hp, ?_, ?_, barBal_barPut hp hlo hhi⟩
    · rw [barPend_barPut hp, if_neg h]
    · rw [barPhase_barPut hp, if_neg h]

/-! ### The instructions behind their checks -/

section

variable {s : State} {p : Word} {a : SeqAcc} {k : Nat}

theorem clear_waitWord (h : clear s p a k) (f : Word → Option (Seq → Seq)) : s.waitWord p a f =
    match f (s.wordAt k) with
    | none => s.stall
    | some g => (s.reached p k).retireSeq fun q => g { q with epoch := q.epoch + 1 } := by
  obtain ⟨hd, ha, hc, hcalm⟩ := h
  have hfree : s.towerFree k = true := hcalm.2.1
  unfold State.waitWord
  simp only [hd, ha, hfree, hc, State.scrub_reached hcalm, Bool.not_true, Bool.false_eq_true, if_false] <;> rfl

theorem clear_barAtomic (h : clear s p (barAcc true) k) (f : Word → Except Nat Word) : s.barAtomic p f =
    match f (s.wordAt k) with
    | .error c => s.preciseC s.cur c
    | .ok w => ((s.reached p k).write k (leBytes 8 w.toNat)).retireSeq id := by
  obtain ⟨hd, ha, hc, hcalm⟩ := h
  have hfree : s.towerFree k = true := hcalm.2.1
  unfold State.barAtomic
  simp only [hd, ha, hfree, hc, State.scrub_reached hcalm, Bool.not_true, Bool.false_eq_true, if_false] <;> rfl

theorem clear_barinit {a b : BitVec 6} (h : clear s (s.g a) (barAcc true) k) : exec (.barinit a b) s =
    .next (((s.reached (s.g a) k).write k
      (wordBytes [reloadWord (wf (s.g b) 0 16), 0])).retireSeq id) := by
  obtain ⟨hd, ha, -, hcalm⟩ := h
  have hfree : s.towerFree k = true := hcalm.2.1
  show execBarinit a b s = _
  unfold execBarinit
  simp only [hd, ha, hfree, Bool.not_true, Bool.false_eq_true, if_false]
  rfl

/-- A wait that is over, or a test: the sequencer goes on behind a separation. -/
theorem clear_goesOn (h : clear s p a k) (g : Seq → Seq) :
    onlyWordTill s.cur 0 0 (issuesAgain k s) s ((s.reached p k).retireSeq fun q => g { q with epoch := q.epoch + 1 }) ∧
    (((s.reached p k).retireSeq fun q => g { q with epoch := q.epoch + 1 }).har s.cur).seq =
      (g { (s.har s.cur).seq with epoch := (s.har s.cur).seq.epoch + 1 }).advance := by
  have hv := State.reached_answered p h.2.2.2
  exact ⟨hv.onlyWordTill (m := (s.reached p k).mem) (fun _ _ => by rw [hv.mem]) _,
    hv.retireSeq_seq (m := (s.reached p k).mem) _⟩

/-- A short write behind the access. -/
theorem clear_writes (h : clear s p a k) (hm : memOk s) {bs : List Byte}
    (hq : ∀ i, i < bs.length → s.quarantined (k + i) = false) (hlen : bs.length < 64) :
    let t := ((s.reached p k).write k bs).retireSeq id
    onlyWordTill s.cur k bs.length (issuesAgain k s) s t ∧ (t.har s.cur).seq = (s.har s.cur).seq.advance ∧
      t.mem = memWrite s.mem k bs := by
  have hv := State.reached_answered p h.2.2.2
  have hw : (s.reached p k).write k bs = { s.reached p k with mem := memWrite s.mem k bs } := by
    rw [State.write_short (fun i hi => (hv.quarantined _).trans (hq i hi)) hlen, hv.mem]
  dsimp only
  rw [hw]
  exact ⟨hv.onlyWordTill (fun _ ha => memGet_memWrite_other hm ha) id, hv.retireSeq_seq id, rfl⟩

/-- A new word 0 behind the access. -/
theorem clear_putsWord {i : Instr} (h : clear s p a k) (hm : memOk s) (hq : ∀ i, i < 8 → s.quarantined (k + i) = false)
    {w : Word} (hexec : exec i s = .next (((s.reached p k).write k (leBytes 8 w.toNat)).retireSeq id)) :
    ∃ t, putsWord i k (some w) s t ∧ (t.har s.cur).seq = (s.har s.cur).seq.advance := by
  have hlen : (leBytes 8 w.toNat).length = 8 := length_leBytes 8 _
  obtain ⟨honly, hseq, hmem⟩ := clear_writes h hm (bs := leBytes 8 w.toNat) (fun i hi => hq i (hlen ▸ hi)) (by omega)
  refine ⟨_, ⟨hexec, ?_, ?_⟩, hseq⟩
  · rw [hmem]
    exact hlen ▸ memRead_memWrite hm k (leBytes 8 w.toNat)
  · rw [hlen] at honly
    exact honly

end

/-! ### The statement -/

theorem waits_settled (s : State) (c a b : BitVec 6) (d : BitVec 4) (sc : BitVec 3) (k : Nat) :
    let q := (s.har s.cur).seq
    let w := s.wordAt k
    let phase := w.getLsbD 24 != (s.g b).getLsbD 0
    let goes := fun i => ∃ t, exec i s = .next t ∧ onlyWordTill s.cur 0 0 (issuesAgain k s) s t ∧
      (t.har s.cur).seq = { q.advance with epoch := q.epoch + 1 }
    (c.toNat ≤ 9 → sc.toNat ≤ 4 → clear s (s.g a) ⟨8, 8, accRead, true, false, true, true⟩ k →
      if condHolds c.toNat w (s.g b) then goes (.waita c a b sc) else stalls (.waita c a b sc) s) ∧
    (clear s (s.g a) ⟨16, 16, accRead, true, false, true, true⟩ k →
      (if phase then goes (.barwait a b) else stalls (.barwait a b) s) ∧
      ∃ t, exec (.bartest d a b) s = .next t ∧ onlyWordTill s.cur 0 0 (issuesAgain k s) s t ∧
        (t.har s.cur).seq = { q.advance with epoch := q.epoch + 1, k := (t.har s.cur).seq.k } ∧
        ∀ x, (t.har s.cur).seq.rk x = if x = d ∧ d ≠ 0 then phase else q.rk x) := by
  intro q w phase goes
  have hgoes {i : Instr} {acc : SeqAcc} (h : clear s (s.g a) acc k) (hexec : exec i s =
      .next ((s.reached (s.g a) k).retireSeq fun q => id { q with epoch := q.epoch + 1 })) : goes i := by
    obtain ⟨honly, hseq⟩ := clear_goesOn h id
    exact ⟨_, hexec, honly, hseq.trans (by simp only [id, Seq.advance_eq]; rfl)⟩
  refine ⟨fun hc hsc h => ?_, fun h => ⟨?_, ?_⟩⟩
  · have hexec : exec (.waita c a b sc) s = .next (s.waitWord (s.g a) ⟨8, 8, accRead, true, false, true, true⟩ fun w =>
        if condHolds c.toNat w (s.g b) then some id else none) := if_neg (by omega)
    rw [clear_waitWord h] at hexec
    by_cases hcond : condHolds c.toNat w (s.g b) = true
    · rw [if_pos hcond] at hexec ⊢
      exact hgoes h hexec
    · rw [if_neg hcond] at hexec ⊢
      exact State.stall_stalls hexec
  · have hexec : exec (.barwait a b) s = .next (s.waitWord (s.g a) ⟨16, 16, accRead, true, false, true, true⟩ fun w =>
        if barPhase w ≠ (s.g b).getLsbD 0 then some id else none) := rfl
    have hphase : phase = true ↔ barPhase w ≠ (s.g b).getLsbD 0 := by rw [barPhase_eq]; exact bne_iff_ne
    rw [clear_waitWord h] at hexec
    by_cases hp : barPhase w ≠ (s.g b).getLsbD 0
    · rw [if_pos hp] at hexec
      rw [if_pos (hphase.mpr hp)]
      exact hgoes h hexec
    · rw [if_neg hp] at hexec
      rw [if_neg (fun h => hp (hphase.mp h))]
      exact State.stall_stalls hexec
  · have hexec : exec (.bartest d a b) s = .next (s.waitWord (s.g a) ⟨16, 16, accRead, true, false, true, true⟩ fun w =>
        some fun q => q.wk d (barPhase w != (s.g b).getLsbD 0)) := rfl
    rw [clear_waitWord h] at hexec
    obtain ⟨honly, hseq⟩ := clear_goesOn h fun q => q.wk d (barPhase w != (s.g b).getLsbD 0)
    refine ⟨_, hexec, honly, ?_, fun x => ?_⟩
    · rw [hseq, Seq.advance_wk]
      simp only [Seq.advance_eq]
      rfl
    · rw [hseq, Seq.rk_advance, barPhase_eq]
      by_cases hx : x = d
      · subst hx
        rw [Seq.rk_wk]
        by_cases h0 : x = 0
        · subst h0
          rfl
        · rw [if_neg h0, if_pos ⟨rfl, h0⟩]
      · rw [Seq.rk_wk_other _ hx, if_neg (fun h => hx h.1)]
        rfl

theorem memWrite_append (m : List Host.Cell) (k : Nat) (xs ys : List Byte) :
    memWrite m k (xs ++ ys) = memWrite (memWrite m k xs) (k + xs.length) ys := by
  induction xs generalizing m k with
  | nil => rfl
  | cons x xs ih => rw [List.cons_append, memWrite, memWrite, ih, List.length_cons, Nat.add_right_comm, Nat.add_assoc]

theorem ofNat_leNat_leBytes (v : Word) : BitVec.ofNat 64 (leNat (leBytes 8 v.toNat)) = v := by
  rw [leNat_leBytes]
  exact BitVec.eq_of_toNat_eq (by rw [BitVec.toNat_ofNat]; exact (Nat.mod_mod _ _).trans (Nat.mod_eq_of_lt v.isLt))

/-- Two words written side by side. -/
theorem wordAt_memWrite_two {s t : State} (hm : memOk s) {k : Nat} {v w : Word}
    (ht : t.mem = memWrite s.mem k (wordBytes [v, w])) : t.wordAt k = v ∧ t.wordAt (k + 8) = w := by
  have hlen (x : Word) : (leBytes 8 x.toNat).length = 8 := length_leBytes 8 _
  have hmem : t.mem = memWrite (memWrite s.mem k (leBytes 8 v.toNat)) (k + 8) (leBytes 8 w.toNat) := by
    rw [ht, wordBytes, List.flatMap_cons, List.flatMap_cons, List.flatMap_nil, List.append_nil, memWrite_append, hlen]
  have hm' : memWf (memWrite s.mem k (leBytes 8 v.toNat)) = true := memWf_memWrite hm _ _
  have hread {m : List Host.Cell} (hm : memWf m = true) {k : Nat} {x : Word} :
      memRead (memWrite m k (leBytes 8 x.toNat)) k 8 = leBytes 8 x.toNat := hlen x ▸ memRead_memWrite hm k _
  unfold State.wordAt
  rw [hmem]
  constructor
  · rw [memRead_memWrite_other hm' (.inl (Nat.le_refl _)), hread hm, ofNat_leNat_leBytes]
  · rw [hread hm', ofNat_leNat_leBytes]

theorem fields_of_reload {c : Nat} (hc : c < 2 ^ 16) : barReload (reloadWord c) = c ∧
    barPend (reloadWord c) = c ∧ wf (reloadWord c) 0 32 = 0 := by
  have hnat : (reloadWord c).toNat = c * 2 ^ 48 + c * 2 ^ 32 := by
    rw [reloadWord, BitVec.toNat_ofNat]; omega
  have hdiv : (c * 2 ^ 48 + c * 2 ^ 32) / 2 ^ 48 = c := by omega
  unfold barReload barPend wf field
  rw [hnat, hdiv]
  omega

theorem barUpdate_expect {w : Word} {n : Nat} (h : barBal w + n < 2 ^ 23) :
    barUpdate w (.expect n) = some (barFlip w (barPend w) (barBal w + n)) := by
  have hlo : -(2 ^ 23 : Int) ≤ barBal w + n := by have := barBal_range w; omega
  refine if_pos ?_
  dsimp only
  rw [decide_eq_true hlo, decide_eq_true h]
  rfl

theorem barUpdate_expect_none {w : Word} {n : Nat} (h : ¬barBal w + n < 2 ^ 23) : barUpdate w (.expect n) = none := by
  refine if_neg ?_
  dsimp only
  rw [decide_eq_false h, Bool.and_false]
  exact Bool.false_ne_true

section

variable {s : State} {a b : BitVec 6} {k : Nat} (hm : memOk s) (hq : ∀ i, i < 16 → s.quarantined (k + i) = false)
  (h : clear s (s.g a) (barAcc true) k)

include hm hq h

theorem barinit_settled : ∃ t, exec (.barinit a b) s = .next t ∧ onlyWordTill s.cur k 16 (issuesAgain k s) s t ∧
    (t.har s.cur).seq = (s.har s.cur).seq.advance ∧ barReload (t.wordAt k) = wf (s.g b) 0 16 ∧
    barPend (t.wordAt k) = wf (s.g b) 0 16 ∧ wf (t.wordAt k) 0 32 = 0 ∧ t.wordAt (k + 8) = 0 := by
  have hlen (v w : Word) : (wordBytes [v, w]).length = 16 := by simp [wordBytes, length_leBytes]
  obtain ⟨honly, hseq, hmem⟩ := clear_writes h hm
    (bs := wordBytes [reloadWord (wf (s.g b) 0 16), 0])
    (fun i hi => hq i (hlen _ _ ▸ hi)) (by rw [hlen]; decide)
  rw [hlen] at honly
  obtain ⟨hword, hnext⟩ := wordAt_memWrite_two hm hmem
  have hc : wf (s.g b) 0 16 < 2 ^ 16 := Nat.mod_lt _ (by decide)
  obtain ⟨hreload, hpend, hlow⟩ := fields_of_reload hc
  refine ⟨_, clear_barinit h, honly, hseq, ?_, ?_, ?_, hnext⟩
  · rw [hword]; exact hreload
  · rw [hword]; exact hpend
  · rw [hword]; exact hlow

theorem barexp_settled : if (s.g b).toNat < 2 ^ 23 ∧ barBal (s.wordAt k) + (s.g b).toNat < 2 ^ 23 then
      ∃ t v, putsWord (.barexp a b) k (some v) s t ∧ (t.har s.cur).seq = (s.har s.cur).seq.advance ∧
        barFields (s.wordAt k) v (barPend (s.wordAt k)) (barBal (s.wordAt k) + (s.g b).toNat)
    else faults (.barexp a b) cBAR_OVERFLOW s := by
  by_cases hn : (s.g b).toNat < 2 ^ 23
  · have hexec : exec (.barexp a b) s = .next (s.barAtomic (s.g a) fun w => match barUpdate w (.expect (s.g b).toNat) with
        | some w => .ok w
        | none => .error cBAR_OVERFLOW) := if_neg (Nat.not_le.mpr hn)
    rw [clear_barAtomic h] at hexec
    by_cases hsum : barBal (s.wordAt k) + (s.g b).toNat < 2 ^ 23
    · rw [if_pos ⟨hn, hsum⟩]
      rw [barUpdate_expect hsum] at hexec
      obtain ⟨t, hput, hseq⟩ := clear_putsWord h hm (fun i hi => hq i (by omega)) hexec
      have hbal := barBal_range (s.wordAt k)
      exact ⟨t, _, hput, hseq, barFlip_fields (barPend_lt _) (by omega) hsum⟩
    · rw [if_neg (fun h => hsum h.2)]
      rw [barUpdate_expect_none hsum] at hexec
      exact hexec
  · rw [if_neg (fun h => hn h.1)]
    exact if_pos (Nat.not_lt.mp hn)

theorem bararr_settled : if barPend (s.wordAt k) = 0 then faults (.bararr a) cBAR_OVERFLOW s
    else ∃ t v, putsWord (.bararr a) k (some v) s t ∧ (t.har s.cur).seq = (s.har s.cur).seq.advance ∧
      barFields (s.wordAt k) v (barPend (s.wordAt k) - 1) (barBal (s.wordAt k)) := by
  have hexec : exec (.bararr a) s = .next (s.barAtomic (s.g a) fun w => match barUpdate w .arrive with
      | some w => .ok w
      | none => .error cBAR_OVERFLOW) := rfl
  rw [clear_barAtomic h] at hexec
  by_cases h0 : barPend (s.wordAt k) = 0
  · rw [if_pos h0]
    rw [show barUpdate (s.wordAt k) .arrive = none from if_pos h0] at hexec
    exact hexec
  · rw [if_neg h0]
    rw [show barUpdate (s.wordAt k) .arrive = _ from if_neg h0] at hexec
    obtain ⟨t, hput, hseq⟩ := clear_putsWord h hm (fun i hi => hq i (by omega)) hexec
    obtain ⟨hlo, hhi⟩ := barBal_range (s.wordAt k)
    have hpend := barPend_lt (s.wordAt k)
    exact ⟨t, _, hput, hseq, barFlip_fields (by omega) hlo hhi⟩

end

/-- Settles O13: behind the checks of `clear` each instruction is its test or its update of the word, and the fields of an
updated word come from its one flip test. -/
theorem waitsAndBarrierObjects : Obligations.WaitsAndBarrierObjects := by
  unfold Obligations.WaitsAndBarrierObjects
  refine ⟨fun s c a b d sc k => waits_settled s c a b d sc k, fun s a b k hm hq h => ?_⟩
  have hfields {w v : Word} {n : Nat} {x : Int} (hf : barFields w v n x) : barReload v = barReload w ∧ wf v 25 7 = wf w 25 7 ∧
      barPend v = (if n = 0 ∧ x = 0 then barReload w else n) ∧
      barPhase v = (if n = 0 ∧ x = 0 then !barPhase w else barPhase w) ∧ barBal v = x :=
    ⟨hf.reload, hf.reserved, hf.pend, hf.phase, hf.bal⟩
  refine ⟨barinit_settled hm hq h, ?_, ?_⟩
  · have hexp := barexp_settled (b := b) hm hq h
    dsimp only
    split at hexp
    next hc =>
      obtain ⟨t, v, hput, hseq, hf⟩ := hexp
      rw [if_pos hc]
      exact ⟨t, v, hput, hseq, hfields hf⟩
    next hc =>
      rw [if_neg hc]
      exact hexp
  · have harr := bararr_settled hm hq h
    dsimp only
    split at harr
    next hc =>
      rw [if_pos hc]
      exact harr
    next hc =>
      obtain ⟨t, v, hput, hseq, hf⟩ := harr
      rw [if_neg hc]
      exact ⟨t, v, hput, hseq, hfields hf⟩

end Sys2Proof.Machine
end

section
/-! O20: the buffer-record instructions (06 R195-R197; 02 R57, R59, R61). -/

namespace Sys2Proof.Machine

open Sys2Proof.Safety

/-! ### The checks of a record (R57) -/

/-- A bit outside a field does not change it. -/
theorem wf_or_two_pow {w : Word} {j lo n : Nat} (hj : j < 64) (h : j < lo ∨ lo + n ≤ j) :
    wf (w ||| 2 ^ j) lo n = wf w lo n := by
  have hbit : (2 ^ j : Word).toNat = 2 ^ j := by
    rw [BitVec.toNat_pow]
    exact Nat.mod_eq_of_lt (Nat.pow_lt_pow_right (by decide) hj)
  unfold wf field
  refine Nat.eq_of_testBit_eq fun i => ?_
  rw [Nat.testBit_mod_two_pow, Nat.testBit_mod_two_pow, Nat.testBit_div_two_pow, Nat.testBit_div_two_pow, BitVec.toNat_or,
    hbit, Nat.testBit_or, Nat.testBit_two_pow]
  by_cases hi : i < n
  · rw [decide_eq_false (show ¬j = i + lo by omega), Bool.or_false]
  · rw [decide_eq_false hi, Bool.false_and, Bool.false_and]

theorem shift_59 : (1 <<< 59 : Word) = 2 ^ 59 := by decide

theorem Entry.wf_w3r (e : Entry) {lo n : Nat} (h : 59 < lo ∨ lo + n ≤ 59) : wf e.w3r lo n = wf e.w3 lo n := by
  unfold Entry.w3r
  split
  · rw [shift_59]
    exact wf_or_two_pow (by decide) h
  · rfl

theorem mem_formatBits {f n : Nat} : (f, n) ∈ formatBits ↔ fmtBits f = some n := by
  constructor
  · intro h
    simp only [formatBits, List.mem_cons, Prod.mk.injEq, List.mem_nil_iff, or_false] at h
    rcases h with h | h | h | h | h | h | h | h | h | h | h | h | h | h | h | h | h | h | h | h | h <;>
      obtain ⟨rfl, rfl⟩ := h <;> rfl
  · intro h
    unfold fmtBits at h
    split at h <;> cases h <;> decide

/-- Elements have 1, 2, 4 or 8 bytes. -/
theorem elementBytes {f n : Nat} (h : fmtBits f = some n) :
    max 1 (n / 8) = 1 ∨ max 1 (n / 8) = 2 ∨ max 1 (n / 8) = 4 ∨ max 1 (n / 8) = 8 := by
  have hn := mem_formatBits.mpr h
  simp only [formatBits, List.mem_cons, Prod.mk.injEq, List.mem_nil_iff, or_false] at hn
  omega

/-- A stride of 40 bits is a multiple of an element's bytes whether its sign is extended or not. -/
theorem sextNat_emod {v m : Nat} (hv : v < 2 ^ 40) (hm : m = 1 ∨ m = 2 ∨ m = 4 ∨ m = 8) :
    sextNat 40 v % (m : Int) = 0 ↔ v % m = 0 := by
  rw [sextNat, if_neg (by decide), Nat.mod_eq_of_lt hv]
  obtain rfl | rfl | rfl | rfl := hm <;> split <;> omega

theorem isSparseFmt_iff {f : Nat} : isSparseFmt f = true ↔ f = 0x30 ∨ f = 0x31 := by simp [isSparseFmt]

theorem isBlockFmt_iff {f : Nat} : isBlockFmt f = true ↔ f = 0x20 ∨ f = 0x21 ∨ f = 0x22 := by simp [isBlockFmt, or_assoc]

theorem Entry.record_ok (e : Entry) : e.record.ok (wf e.w3 62 2) = true ↔ recordSound e.w0 e.w1 e.w2 e.w3 := by
  have hfmt := e.wf_w3r (lo := 40) (n := 8) (by decide)
  have hbounds := e.wf_w3r (lo := 48) (n := 4) (by decide)
  have hplace := e.wf_w3r (lo := 52) (n := 4) (by decide)
  have hscope := e.wf_w3r (lo := 56) (n := 3) (by decide)
  have hspf := e.wf_w3r (lo := 60) (n := 1) (by decide)
  have hscf := e.wf_w3r (lo := 61) (n := 1) (by decide)
  have hs2 := e.wf_w3r (lo := 0) (n := 40) (by decide)
  unfold Rec.ok recordSound Rec.bytes Rec.bits Entry.record recOf
  dsimp only
  rw [hfmt, hbounds, hplace, hscope, hspf, hscf, hs2]
  simp only [mem_formatBits]
  cases hf : fmtBits (wf e.w3 40 8) with
  | none => simp
  | some n =>
    have hm := elementBytes hf
    have hstride (w : Word) : sextNat 40 (wf w 0 40) % ((max 1 (n / 8) : Nat) : Int) = 0 ↔ wf w 0 40 % max 1 (n / 8) = 0 :=
      sextNat_emod (Nat.mod_lt _ (by decide)) hm
    simp only [Option.getD_some, Option.some.injEq, exists_eq_left', Bool.and_eq_true, decide_eq_true_eq, beq_iff_eq, hstride,
      Option.isSome_some, Bool.not_eq_true', Bool.and_eq_false_iff, Bool.or_eq_false_iff, decide_eq_false_iff_not,
      beq_eq_false_iff_ne, Bool.not_eq_false', isSparseFmt_iff, isBlockFmt_iff, and_assoc, ne_eq, and_true,
      ← Decidable.imp_iff_not_or]

/-! ### The checks of an entry (R61) -/

section

variable {e : Entry} {gen r : Nat}

theorem entryCheck_stale (h : ¬(wf e.w4 16 1 = 1 ∧ wf e.w4 0 12 = gen)) : entryCheck e gen r false = cSTALE_HANDLE := by
  have hbit : wf e.w4 16 1 < 2 := Nat.mod_lt _ (by decide)
  exact if_pos (by omega)

variable (hlive : wf e.w4 16 1 = 1 ∧ wf e.w4 0 12 = gen)

include hlive

theorem entryCheck_live : entryCheck e gen r false =
    if ¬(wf e.w4 24 1 = 1 ∨ wf e.w4 25 9 = r) then cNO_PERMISSION
    else if ¬(wf e.w4 17 1 = 1 ∨ wf e.w4 18 1 = 1) then cNO_PERMISSION
    else if ¬(wf e.w4 34 30 = 0 ∧ wf e.w4 21 3 = 0 ∧ wf e.w4 12 4 = 0) then cBAD_BUFREC
    else cOK := by
  have h24 : wf e.w4 24 1 < 2 := Nat.mod_lt _ (by decide)
  have h17 : wf e.w4 17 1 < 2 := Nat.mod_lt _ (by decide)
  have h18 : wf e.w4 18 1 < 2 := Nat.mod_lt _ (by decide)
  unfold entryCheck
  rw [if_neg (by omega)]
  refine if_congr ?_ rfl (if_congr (by omega) rfl (if_congr (by omega) rfl rfl))
  simp only [Bool.not_false, Bool.true_and, Bool.and_eq_true, beq_iff_eq, bne_iff_ne]
  omega

theorem entryCheck_closed (h : ¬((wf e.w4 24 1 = 1 ∨ wf e.w4 25 9 = r) ∧ (wf e.w4 17 1 = 1 ∨ wf e.w4 18 1 = 1))) :
    entryCheck e gen r false = cNO_PERMISSION := by
  rw [entryCheck_live hlive]
  by_cases hm : wf e.w4 24 1 = 1 ∨ wf e.w4 25 9 = r
  · rw [if_neg (not_not.mpr hm), if_pos fun ho => h ⟨hm, ho⟩]
  · rw [if_pos hm]

theorem entryCheck_open (hm : wf e.w4 24 1 = 1 ∨ wf e.w4 25 9 = r) (ho : wf e.w4 17 1 = 1 ∨ wf e.w4 18 1 = 1) :
    entryCheck e gen r false =
      if ¬(wf e.w4 34 30 = 0 ∧ wf e.w4 21 3 = 0 ∧ wf e.w4 12 4 = 0) then cBAD_BUFREC else cOK := by
  rw [entryCheck_live hlive, if_neg (not_not.mpr hm), if_neg (not_not.mpr ho)]

end

/-! ### Versions of a record (R59) -/

/-- The first version that is not younger than an age. -/
def versionAt (age : Nat) (bs : List BufRec) : Option BufRec :=
  match bs.find? fun b => b.fromAge ≤ age with
  | some b => if b.loaded then some b else none
  | none => none

theorem Harness.recAt_eq (h : Harness) (n age : Nat) : h.recAt n age = versionAt age (h.recs.getD n []) := rfl

theorem versionAt_cons (age : Nat) (b : BufRec) (bs : List BufRec) : versionAt age (b :: bs) =
    if b.fromAge ≤ age then (if b.loaded then some b else none) else versionAt age bs := by
  unfold versionAt
  rw [List.find?_cons]
  by_cases h : b.fromAge ≤ age <;> simp [h]

/-- What is pruned no command of an age from the oldest on can use. -/
theorem versionAt_pruneVersions {oldest age : Nat} (h : oldest ≤ age) (bs : List BufRec) :
    versionAt age (pruneVersions oldest bs) = versionAt age bs := by
  induction bs with
  | nil => rfl
  | cons b bs ih =>
    rw [pruneVersions, versionAt_cons]
    by_cases hb : b.fromAge ≤ oldest
    · rw [if_pos hb, if_pos (hb.trans h)]
      by_cases hl : b.loaded = true
      · rw [if_pos hl, versionAt_cons, if_pos (hb.trans h)]
      · rw [if_neg hl, if_neg hl]
        rfl
    · rw [if_neg hb, versionAt_cons, ih]

/-- Versions from a later age on are not seen at an age. -/
theorem versionAt_filter {age m : Nat} (h : age < m) (bs : List BufRec) :
    versionAt age (bs.filter fun x => x.fromAge < m) = versionAt age bs := by
  induction bs with
  | nil => rfl
  | cons b bs ih =>
    rw [List.filter_cons, versionAt_cons]
    by_cases hb : b.fromAge < m
    · rw [if_pos (by simpa using hb), versionAt_cons, ih]
    · rw [if_neg (by simpa using hb), if_neg (by omega), ih]

theorem Harness.recAt_putRec_older {h : Harness} {d n age : Nat} {b : BufRec} (ho : h.oldest ≤ age)
    (hn : n ≠ d ∨ age < h.ctl.issued) : (h.putRec d b).recAt n age = h.recAt n age := by
  rw [Harness.recAt_eq, Harness.recAt_eq]
  show versionAt age ((h.recs.set d _).getD n []) = _
  by_cases hd : n = d
  · subst hd
    have hage := hn.resolve_left (not_not.mpr rfl)
    rw [Table.getD_set_same, versionAt_pruneVersions ho, versionAt_cons, if_neg (Nat.not_le.mpr hage), versionAt_filter hage]
  · rw [Table.getD_set_other _ _ hd]

theorem Harness.oldest_le (h : Harness) : h.oldest ≤ h.ctl.issued := by
  unfold Harness.oldest
  exact List.foldlRecOn (motive := (· ≤ h.ctl.issued)) _ _ (Nat.le_refl _) fun _ hx _ _ => (Nat.min_le_left ..).trans hx

theorem Harness.recNow_putRec (h : Harness) (d : Nat) (b : BufRec) : (h.putRec d b).recNow d =
    if b.loaded then some { b with fromAge := h.ctl.issued } else none := by
  rw [Harness.recNow, Harness.recAt_eq]
  show versionAt h.ctl.issued ((h.recs.set d _).getD d []) = _
  rw [Table.getD_set_same, versionAt_pruneVersions h.oldest_le, versionAt_cons, if_pos (Nat.le_refl _)]

/-! ### BRLD -/

/-- BRLD with the entry that its handle names (R61, R57, R394). -/
def State.loadsEntry (s : State) (d : BitVec 6) (gen : Nat) (e : Entry) : State :=
  if entryCheck e gen s.cur false ≠ cOK then s.preciseC s.cur (entryCheck e gen s.cur false)
  else if !e.record.ok (wf e.w3 62 2) then s.preciseC s.cur cBAD_BUFREC
  else match s.recPins s.cur e.record e.nr with
    | .error f => s.preciseF s.cur f
    | .ok pins => s.retire fun h => h.putRec d.toNat { fromAge := 0, loaded := true, w0 := e.w0, w1 := e.w1, w2 := e.w2
                                                       w3 := e.w3r, nr := e.nr, pins := pins, pinId := s.freeCtr }

theorem State.scrubPins_of_no_latent {s : State} (hl : s.latent = []) (r : Nat) (x : Except Fail (List Leaf)) :
    s.scrubPins r x = s := if_pos (by rw [hl]; rfl)

section

variable {s : State} {d a : BitVec 6} (hd : s.drained = true)

include hd

theorem brld_badIndex (h : wf (s.g a) 32 32 ≠ 0 ∨ (s.part (s.partOf s.cur)).rtlim.toNat ≤ wf (s.g a) 12 20) :
    faults (.brld d a) cBAD_ADDRESS s := by
  show execBrld d a s = _
  unfold execBrld
  dsimp only
  rw [hd, if_neg (by decide), if_pos h]

variable (hv : wf (s.g a) 32 32 = 0) (hidx : wf (s.g a) 12 20 < (s.part (s.partOf s.cur)).rtlim.toNat) (hl : s.latent = [])

include hv hidx hl

theorem brld_unread {f : Fail} (he : s.tableEntry s.cur (wf (s.g a) 12 20) = .error f) : faultsAt (.brld d a) f s := by
  show execBrld d a s = _
  unfold execBrld
  dsimp only
  rw [hd, if_neg (by decide), if_neg (by omega), State.devScrub_of_no_latent hl, he]

theorem brld_reads {e : Entry} (he : s.tableEntry s.cur (wf (s.g a) 12 20) = .ok e) :
    exec (.brld d a) s = .next (s.loadsEntry d (wf (s.g a) 0 12) e) := by
  show execBrld d a s = _
  unfold execBrld State.loadsEntry
  dsimp only
  rw [hd, if_neg (by decide), if_neg (by omega), State.devScrub_of_no_latent hl, he]
  dsimp only
  split
  · rfl
  split
  · rfl
  rw [State.scrubPins_of_no_latent hl]
  cases s.recPins s.cur e.record e.nr <;> rfl

end

section

variable {s : State} {d : BitVec 6} {gen : Nat} {e : Entry}

theorem State.loadsEntry_refused {c : Nat} (h : entryCheck e gen s.cur false = c) (hc : c ≠ cOK) :
    s.loadsEntry d gen e = s.preciseC s.cur c := by
  rw [State.loadsEntry, h, if_pos hc]

variable (hc : entryCheck e gen s.cur false = cOK)

include hc

theorem State.loadsEntry_unsound (h : ¬recordSound e.w0 e.w1 e.w2 e.w3) :
    s.loadsEntry d gen e = s.preciseC s.cur cBAD_BUFREC := by
  rw [← Entry.record_ok, Bool.not_eq_true] at h
  rw [State.loadsEntry, if_neg (not_not.mpr hc), h]
  rfl

theorem State.loadsEntry_sound (h : recordSound e.w0 e.w1 e.w2 e.w3) : s.loadsEntry d gen e =
    match s.recPins s.cur e.record e.nr with
    | .error f => s.preciseF s.cur f
    | .ok pins => s.retire fun h => h.putRec d.toNat { fromAge := 0, loaded := true, w0 := e.w0, w1 := e.w1, w2 := e.w2
                                                       w3 := e.w3r, nr := e.nr, pins := pins, pinId := s.freeCtr } := by
  rw [← Entry.record_ok] at h
  rw [State.loadsEntry, if_neg (not_not.mpr hc), h]
  rfl

end

/-! ### What the instructions leave -/

/-- The records of the current harness with a new version of record d. -/
theorem State.putRec_leaves (s : State) (d : Nat) (b : BufRec) (t : State) (ht : t = s.retire fun h => h.putRec d b) :
    onlyHar s.cur s t ∧
    t.har s.cur = { s.har s.cur with seq := (s.har s.cur).seq.advance, recs := (t.har s.cur).recs } ∧
    (t.har s.cur).recNow d = (if b.loaded then some { b with fromAge := (s.har s.cur).ctl.issued } else none) ∧
    ∀ n age, (s.har s.cur).oldest ≤ age → (n ≠ d ∨ age < (s.har s.cur).ctl.issued) →
      (t.har s.cur).recAt n age = (s.har s.cur).recAt n age := by
  subst ht
  rw [State.har_retire]
  refine ⟨onlyHar_modHar .., rfl, ?_, fun n age ho hn => Harness.recAt_putRec_older ho hn⟩
  exact Harness.recNow_putRec (s.har s.cur) d b

theorem brfree_settled (s : State) (d : BitVec 6) : ∃ t, exec (.brfree d) s = .next t ∧ onlyHar s.cur s t ∧
    t.har s.cur = { s.har s.cur with seq := (s.har s.cur).seq.advance, recs := (t.har s.cur).recs } ∧
    (t.har s.cur).recNow d.toNat = none ∧
    ∀ n age, (s.har s.cur).oldest ≤ age → (n ≠ d.toNat ∨ age < (s.har s.cur).ctl.issued) →
      (t.har s.cur).recAt n age = (s.har s.cur).recAt n age := by
  have hexec : exec (.brfree d) s = .next (s.retire fun h =>
    if (h.recNow d.toNat).isSome then h.putRec d.toNat { fromAge := 0, loaded := false } else h) := rfl
  cases hr : (s.har s.cur).recNow d.toNat with
  | none =>
    refine ⟨_, hexec, onlyHar_modHar .., ?_⟩
    rw [State.har_retire, hr]
    exact ⟨rfl, hr, fun _ _ _ _ => rfl⟩
  | some b =>
    have hput : (s.retire fun h => if (h.recNow d.toNat).isSome then h.putRec d.toNat { fromAge := 0, loaded := false } else h) =
        s.retire fun h => h.putRec d.toNat { fromAge := 0, loaded := false } := by
      rw [State.retire_eq, State.retire_eq, hr]
      rfl
    obtain ⟨honly, hhar, hnow, hold⟩ := s.putRec_leaves d.toNat { fromAge := 0, loaded := false } _ rfl
    exact ⟨_, hexec.trans (congrArg _ hput), honly, hhar, hnow, hold⟩

section

variable {d : BitVec 6} (hd : d.toNat ≤ 60)

include hd

/-- Four words delivered to consecutive registers, the first of which may be g0. -/
theorem Seq.rg_wg_four (q : Seq) (x0 x1 x2 x3 : Word) :
    let q' := (((q.wg d x0).wg (d + 1) x1).wg (d + 2) x2).wg (d + 3) x3
    q'.rg d = (if d = 0 then 0 else x0) ∧ q'.rg (d + 1) = x1 ∧ q'.rg (d + 2) = x2 ∧ q'.rg (d + 3) = x3 ∧
      ∀ x, x ∉ [d, d + 1, d + 2, d + 3] → q'.rg x = q.rg x := by
  have h1 : (d + 1).toNat = d.toNat + 1 := BitVec.toNat_add_of_lt (show d.toNat + 1 < 2 ^ 6 by omega)
  have h2 : (d + 2).toNat = d.toNat + 2 := BitVec.toNat_add_of_lt (show d.toNat + 2 < 2 ^ 6 by omega)
  have h3 : (d + 3).toNat = d.toNat + 3 := BitVec.toNat_add_of_lt (show d.toNat + 3 < 2 ^ 6 by omega)
  have hne {x y : BitVec 6} (h : x.toNat ≠ y.toNat) : x ≠ y := fun e => h (congrArg _ e)
  have hz {x : BitVec 6} (h : x.toNat ≠ 0) : x ≠ 0 := hne h
  refine ⟨?_, ?_, ?_, ?_, fun x hx => ?_⟩
  · rw [Seq.rg_wg_other _ (hne (by omega)), Seq.rg_wg_other _ (hne (by omega)), Seq.rg_wg_other _ (hne (by omega)), Seq.rg_wg]
  · rw [Seq.rg_wg_other _ (hne (by omega)), Seq.rg_wg_other _ (hne (by omega)), Seq.rg_wg_same _ (hz (by omega))]
  · rw [Seq.rg_wg_other _ (hne (by omega)), Seq.rg_wg_same _ (hz (by omega))]
  · rw [Seq.rg_wg_same _ (hz (by omega))]
  · simp only [List.mem_cons, List.mem_nil_iff, or_false, not_or] at hx
    obtain ⟨hx0, hx1, hx2, hx3⟩ := hx
    rw [Seq.rg_wg_other _ hx3, Seq.rg_wg_other _ hx2, Seq.rg_wg_other _ hx1, Seq.rg_wg_other _ hx0]

theorem brget_unloaded {s : State} {a : BitVec 6} (h : (s.har s.cur).recNow a.toNat = none) :
    faults (.brget d a) cBAD_BUFREC s := by
  show execBrget d a s = _
  rw [execBrget, if_neg (by omega), h]

theorem brget_settled {s : State} {a : BitVec 6} {b : BufRec} (h : (s.har s.cur).recNow a.toNat = some b) :
    ∃ t, exec (.brget d a) s = .next t ∧ onlySeq s.cur s t ∧ passed s t ∧ kSame s t ∧
      (t.har s.cur).seq.rg d = (if d = 0 then 0 else b.w0) ∧ (t.har s.cur).seq.rg (d + 1) = b.w1 ∧
      (t.har s.cur).seq.rg (d + 2) = b.w2 ∧ (t.har s.cur).seq.rg (d + 3) = b.w3 ∧
      ∀ x, x ∉ [d, d + 1, d + 2, d + 3] → (t.har s.cur).seq.rg x = (s.har s.cur).seq.rg x := by
  have hexec : exec (.brget d a) s =
      .next (s.retireSeq fun q => (((q.wg d b.w0).wg (d + 1) b.w1).wg (d + 2) b.w2).wg (d + 3) b.w3) := by
    show execBrget d a s = _
    rw [execBrget, if_neg (by omega), h]
  refine ⟨_, hexec, s.retireSeq_onlySeq _, ?_, ?_, ?_⟩
  · simp only [passed, State.retireSeq_har, Seq.advance_wg]
  · simp only [kSame, State.retireSeq_har, Seq.rk_advance, Seq.rk_wg, implies_true]
  · simp only [State.retireSeq_har, Seq.rg_advance]
    exact Seq.rg_wg_four hd _ _ _ _ _

end

/-- Settles O20: BRLD by the order of its checks, and a new version of a record by what an age sees of the list of versions. -/
theorem bufferRecords : Obligations.BufferRecords := by
  unfold Obligations.BufferRecords
  intro s d a e pins r h q v idx older
  refine ⟨fun hd => ⟨brld_badIndex hd, fun hv hidx hl he => ?_, fun f hv hidx hl he => brld_unread hd hv hidx hl he⟩,
    brfree_settled s d, fun hr hd => brget_unloaded hd hr, fun b hr hd => brget_settled hd hr⟩
  intro x live mine open' plain w3 nr
  have hexec : exec (.brld d a) s = .next (s.loadsEntry d (wf v 0 12) e) := brld_reads hd hv hidx hl he
  have hw3 : w3 = e.w3r := by simp only [w3, Entry.w3r, shift_59]; rfl
  have hrec : recOf e.w0 e.w1 e.w2 w3 = e.record := by rw [hw3]; rfl
  have hnr : nr = e.nr := by simp only [nr, Entry.nr, x]; rfl
  refine ⟨fun hlive => ?_, fun hlive ho => ?_, fun hlive hm ho hbad => ?_, fun hlive hm ho hp hs => ?_⟩
  · exact hexec.trans (congrArg _ (State.loadsEntry_refused (entryCheck_stale hlive) (by decide)))
  · exact hexec.trans (congrArg _ (State.loadsEntry_refused (entryCheck_closed hlive ho) (by decide)))
  · have hopen := entryCheck_open hlive hm ho
    by_cases hp : plain
    · rw [if_neg (not_not.mpr hp)] at hopen
      exact hexec.trans (congrArg _ (State.loadsEntry_unsound hopen fun hs => hbad ⟨hp, hs⟩))
    · rw [if_pos hp] at hopen
      exact hexec.trans (congrArg _ (State.loadsEntry_refused hopen (by decide)))
  · have hopen := (entryCheck_open hlive hm ho).trans (if_neg (not_not.mpr hp))
    rw [State.loadsEntry_sound hopen hs] at hexec
    rw [hrec, hnr]
    refine ⟨fun f hf => ?_, fun hf => ?_⟩
    · rw [hf] at hexec
      exact hexec
    · rw [hf] at hexec
      obtain ⟨honly, hhar, hnow, hold⟩ := s.putRec_leaves d.toNat _ _ rfl
      exact ⟨_, hexec, honly, hhar, hold, _, hnow, rfl, rfl, rfl, hw3.symm, rfl, rfl⟩

end Sys2Proof.Machine
end

section
/-! O10: the load and store queues perform (04 R109; 06 R174, R175, R193; 02 R49; 14 R349; 15 R377; 17 R417, R424). -/

namespace Sys2Proof.Machine

open Sys2Proof.Safety

/-! ### What a sequencer is after a delivery -/

theorem Seq.sbn_clearSb (q : Seq) (n m : Nat) :
    (q.clearSb n).sbn.getD m 0 = q.sbn.getD m 0 - if m = n ∧ n ≠ 0 then 1 else 0 := by
  unfold Seq.clearSb
  by_cases hn : n = 0
  · simp [hn]
  · by_cases hm : m = n
    · subst hm
      by_cases hlt : m < 16 <;> simp [hn, hlt, Vector.getD]
    · have hm' : ¬n = m := fun h => hm h.symm
      simp [hn, hm, Vector.getD, Array.getD_eq_getD_getElem?, hm']

theorem Seq.clearSb_eq (q : Seq) (n : Nat) : q.clearSb n = { q with sbn := (q.clearSb n).sbn } := by
  unfold Seq.clearSb; split <;> rfl

/-- A value delivered to g(d): the slot is released, and the register is usable from cycle c on. -/
def Seq.delivered (q : Seq) (d : BitVec 6) (v : Word) (sb c : Nat) : Seq := ((q.wg d v).clearSb sb).readyAt d c

section

variable (q : Seq) (d : BitVec 6) (v : Word) (sb c : Nat)

theorem Seq.delivered_eq : q.delivered d v sb c = { q with
    g := (q.delivered d v sb c).g, sbn := (q.delivered d v sb c).sbn, ready := (q.delivered d v sb c).ready } := by
  unfold Seq.delivered Seq.readyAt Seq.clearSb Seq.wg
  split_ifs <;> rfl

theorem Seq.delivered_sbn (m : Nat) :
    (q.delivered d v sb c).sbn.getD m 0 = q.sbn.getD m 0 - if m = sb ∧ sb ≠ 0 then 1 else 0 := by
  have hr : (q.delivered d v sb c).sbn = ((q.wg d v).clearSb sb).sbn := by rw [Seq.delivered, Seq.readyAt_eq]
  have hw : (q.wg d v).sbn = q.sbn := by unfold Seq.wg; split <;> rfl
  rw [hr, Seq.sbn_clearSb, hw]

theorem Seq.delivered_rg (x : BitVec 6) : (q.delivered d v sb c).rg x = if x = d ∧ d ≠ 0 then v else q.rg x := by
  have hc : ((q.wg d v).clearSb sb).rg x = (q.wg d v).rg x := by unfold Seq.clearSb; split <;> rfl
  rw [Seq.delivered, Seq.rg_readyAt, hc]
  by_cases hx : x = d
  · subst hx
    rw [Seq.rg_wg]
    by_cases h0 : x = 0
    · subst h0; rfl
    · rw [if_neg h0, if_pos ⟨rfl, h0⟩]
  · rw [Seq.rg_wg_other _ hx, if_neg fun h => hx h.1]

theorem Seq.delivered_ready (x : Nat) : (q.delivered d v sb c).ready.find x =
    if x = d.toNat ∧ d ≠ 0 then some (max c (q.ready.getD x 0)) else q.ready.find x := by
  have hc : ((q.wg d v).clearSb sb).ready = q.ready := by rw [Seq.clearSb_eq, ← Seq.wg_ready q d v]
  unfold Seq.delivered Seq.readyAt
  by_cases hd : d = 0
  · rw [if_pos hd, hc, if_neg fun h => h.2 hd]
  · rw [if_neg hd, hc]
    by_cases hx : x = d.toNat
    · subst hx
      rw [if_pos ⟨rfl, hd⟩]
      exact Table.find_set_same ..
    · rw [if_neg fun h => hx h.1]
      exact Table.find_set_other _ hx

end

/-- Between q and q', a load has left its queue, the rest stays, and slot sb is released. -/
def leftLoads (q q' : Seq) (sb : Nat) (rest : List LoadReq) : Prop :=
  (∀ m, q'.sbn.getD m 0 = q.sbn.getD m 0 - if m = sb ∧ sb ≠ 0 then 1 else 0) ∧
    q' = { q with g := q'.g, loadQ := rest, sbn := q'.sbn, ready := q'.ready }

/-- Between q and q', the oldest store has left its queue, the rest stays, and slot sb is released. -/
def leftStores (q q' : Seq) (sb : Nat) (rest : List StoreReq) : Prop :=
  (∀ m, q'.sbn.getD m 0 = q.sbn.getD m 0 - if m = sb ∧ sb ≠ 0 then 1 else 0) ∧ q' = { q with storeQ := rest, sbn := q'.sbn }

/-- The value of a load of 1, 2, 4 or 8 bytes. -/
theorem loadValue_eq {size : Nat} (hs : size ∈ [1, 2, 4, 8]) (sext : Bool) {bs : List Byte} (hlen : bs.length = size) :
    loadValue size sext bs = if sext ∧ 2 ^ (8 * size - 1) ≤ leNat bs then BitVec.ofInt 64 ((leNat bs : Int) - 2 ^ (8 * size))
      else BitVec.ofNat 64 (leNat bs) := by
  have hlt : leNat bs < 2 ^ (8 * size) := by
    rw [← hlen, Nat.pow_mul]
    exact leNat_lt bs
  have h0 : ¬8 * size = 0 := by simp at hs; omega
  unfold loadValue sextNat
  dsimp only
  rw [if_neg h0, Nat.mod_eq_of_lt hlt]
  cases sext with
  | false => rfl
  | true =>
    by_cases h : leNat bs < 2 ^ (8 * size - 1)
    · rw [if_pos rfl, if_pos h, if_neg (by omega), BitVec.ofInt_natCast]
    · rw [if_pos rfl, if_neg h, if_pos ⟨rfl, Nat.not_lt.mp h⟩]
      norm_cast

/-! ### Frames -/

section

variable {s t u : State} {r k n : Nat}

/-- A change of the sequencer of rank r, of tower banks, and of n bytes from key k. -/
theorem onlyWord_of (ht : t = { s with hs := t.hs, mem := t.mem, tagger := t.tagger }) (hm : memSameBut k n s t)
    (hh : ∀ q, t.har q = { s.har q with seq := (t.har q).seq, banks := (t.har q).banks })
    (ho : ∀ q, q ≠ r → (t.har q).seq = (s.har q).seq) : onlyWord r k n s t := by
  refine ⟨ht, hm, fun q => ?_, fun q hq => ⟨ho q hq, by rw [hh q]⟩⟩
  rw [hh q]
  by_cases hq : q = r
  · rw [if_pos hq, hq]
  · rw [if_neg hq]

theorem State.modSeq_har (s : State) (r : Nat) (f : Seq → Seq) :
    (s.modSeq r f).har r = { s.har r with seq := f (s.har r).seq } := State.har_modHar ..

theorem State.modSeq_har_other {q : Nat} (f : Seq → Seq) (hq : q ≠ r) : (s.modSeq r f).har q = s.har q :=
  State.har_modHar_other _ hq

/-- The sequencer goes on after an access to a tower bank. -/
theorem onlyTowers.modSeq (h : onlyTowers s t) (f : Seq → Seq) : onlyWord r 0 0 s (t.modSeq r f) ∧
    ((t.modSeq r f).har r).seq = f (s.har r).seq := by
  have hseq (q : Nat) : (t.har q).seq = (s.har q).seq := by rw [h.2 q]
  refine ⟨onlyWord_of ?_ (fun a _ => ?_) (fun q => ?_) fun q hq => ?_, by rw [State.modSeq_har, hseq]⟩
  · rw [h.1]; rfl
  · rw [h.1]; rfl
  · by_cases hq : q = r
    · rw [hq, State.modSeq_har, h.2 r]
    · rw [State.modSeq_har_other _ hq, h.2 q]
  · rw [State.modSeq_har_other _ hq, hseq]

theorem modSeq_onlyWord (s : State) (r : Nat) (f : Seq → Seq) : onlyWord r 0 0 s (s.modSeq r f) ∧
    ((s.modSeq r f).har r).seq = f (s.har r).seq := onlyTowers.modSeq ⟨rfl, fun _ => rfl⟩ f

/-- An access finds its bank the same whatever the sequencers and memory hold. -/
theorem calm_modSeq {a : Asker} {m : List Host.Cell} {f : Seq → Seq} (h : calm a k s) :
    calm a k { s.modSeq r f with mem := m } := by
  obtain ⟨hl, hs, hal⟩ := h
  have hhar (q : Nat) : ({ s.modSeq r f with mem := m } : State).har q = (s.modSeq r f).har q := rfl
  have hbank (q j : Nat) : ((s.modSeq r f).har q).bank j = (s.har q).bank j := by
    by_cases hq : q = r
    · rw [hq, State.modSeq_har]; rfl
    · rw [State.modSeq_har_other _ hq]
  have hphys (q cell bank row : Nat) : ((s.modSeq r f).har q).physRow cell bank row = (s.har q).physRow cell bank row := by
    by_cases hq : q = r
    · rw [hq, State.modSeq_har]; rfl
    · rw [State.modSeq_har_other _ hq]
  refine ⟨hl, ?_, fun hk => ?_⟩
  · unfold State.serves State.bankAt at hs ⊢
    rw [hhar, hbank]
    exact hs
  · dsimp only
    rw [hhar, hbank, hphys]
    exact hal hk

end

/-! ### The load queue -/

theorem load_stays {s : State} {r : Nat} (hr : s.ev.a = r) (h : s.loadReady r = false) : exec .seqLoadReturn s = .next s := by
  show execSeqLoadReturn s = _
  rw [execSeqLoadReturn, hr, h]
  rfl

theorem State.loadBack_none {s : State} {r : Nat} (hb : ∀ b ∈ (s.har r).seq.back, s.mcc.toNat < b.at') : s.loadBack r = none :=
  List.find?_eq_none.mpr fun b hm => by simpa using hb b hm

theorem towerCycles_ne_zero (k : Nat) (s : State) : towerCycles k s ≠ 0 := by unfold towerCycles; split <;> decide

section

variable {s : State} {r : Nat} {l : LoadReq} {rest : List LoadReq} (hq : (s.har r).seq.loadQ = l :: rest)
  (hb : ∀ b ∈ (s.har r).seq.back, s.mcc.toNat < b.at')

include hq hb

theorem load_held (h : (∃ w ∈ (s.har r).seq.storeQ, w.epoch < l.epoch) ∨ ∃ b ∈ (s.har r).seq.back, b.epoch < l.epoch) :
    s.loadReady r = false := by
  have hnext : (s.har r).seq.nextLoad = none := by
    rw [Seq.nextLoad, hq]
    refine if_neg ?_
    simp only [Bool.and_eq_true, List.all_eq_true, Bool.not_eq_true', decide_eq_false_iff_not]
    rintro ⟨h1, h2⟩
    obtain ⟨w, hw, hlt⟩ | ⟨b, hbm, hlt⟩ := h
    · exact h1 w hw hlt
    · exact h2 b hbm hlt
  rw [State.loadReady, State.loadBack_none hb, hnext]
  rfl

variable (hs : ∀ w ∈ (s.har r).seq.storeQ, l.epoch ≤ w.epoch) (he : ∀ b ∈ (s.har r).seq.back, l.epoch ≤ b.epoch)

include hs he

theorem load_ready (hp : ∀ k, l.place = .mem k → s.serves (loadAsker r) k = true) : s.loadReady r = true := by
  have hnext : (s.har r).seq.nextLoad = some l := by
    rw [Seq.nextLoad, hq]
    refine if_pos ?_
    simp only [Bool.and_eq_true, List.all_eq_true, Bool.not_eq_true', decide_eq_false_iff_not, Nat.not_lt]
    exact ⟨hs, he⟩
  rw [State.loadReady, State.loadBack_none hb, hnext]
  cases hl : l.place with
  | mem k => simpa [hl] using hp k hl
  | reg n => simp [hl]

theorem load_performs (hr : s.ev.a = r) (hp : ∀ k, l.place = .mem k → s.serves (loadAsker r) k = true) :
    exec .seqLoadReturn s = .next (s.performLoad r) := by
  show execSeqLoadReturn s = _
  rw [execSeqLoadReturn, hr, load_ready hq hb hs he hp]
  rfl

/-- The load leaves its queue without a value. -/
theorem load_fails (hr : s.ev.a = r) (hp : ∀ k, l.place = .mem k → s.serves (loadAsker r) k = true) {f : Fail}
    (hf : s.loadFails l = some f) (hact : (s.har r).seq.active = true) :
    ∃ u, exec .seqLoadReturn s = .next (u.preciseF r f) ∧ onlySeq r s u ∧
      leftLoads (s.har r).seq (u.har r).seq l.sb rest ∧ ∀ x, (u.har r).seq.rg x = (s.har r).seq.rg x := by
  have hperf : s.performLoad r =
      (s.modSeq r fun q => { q with loadQ := rest }.clearSb l.sb).lateFault r f := by
    rw [State.performLoad, State.loadBack_none hb, hq]
    dsimp only
    rw [hf]
  have hseq := congrArg Harness.seq (s.modSeq_har r fun q => { q with loadQ := rest }.clearSb l.sb)
  have hlate : (s.modSeq r fun q => { q with loadQ := rest }.clearSb l.sb).lateFault r f =
      (s.modSeq r fun q => { q with loadQ := rest }.clearSb l.sb).preciseF r f := by
    rw [State.lateFault, hseq, Seq.clearSb_eq]
    exact if_pos hact
  refine ⟨_, (load_performs hq hb hs he hr hp).trans (congrArg _ (hperf.trans hlate)), onlySeq_modSeq .., ⟨fun m => ?_, ?_⟩,
    fun x => ?_⟩
  · rw [hseq, Seq.sbn_clearSb]
  · rw [hseq, Seq.clearSb_eq]
  · rw [hseq, Seq.clearSb_eq]; rfl

/-- The load delivers its value at once. -/
theorem load_delivers (hr : s.ev.a = r) (hp : ∀ k, l.place = .mem k → s.serves (loadAsker r) k = true) {v : Word}
    (hperf : s.performLoad r = s.modSeq r fun q => { q with loadQ := rest }.delivered l.d v l.sb (s.mcc.toNat + 1)) :
    ∃ t, exec .seqLoadReturn s = .next t ∧ onlyWord r 0 0 s t ∧ leftLoads (s.har r).seq (t.har r).seq l.sb rest ∧
      (∀ x, (t.har r).seq.rg x = if x = l.d ∧ l.d ≠ 0 then v else (s.har r).seq.rg x) ∧
      ∀ x, (t.har r).seq.ready.find x = if x = l.d.toNat ∧ l.d ≠ 0 then
        some (max (s.mcc.toNat + 1) ((s.har r).seq.ready.getD x 0)) else (s.har r).seq.ready.find x := by
  obtain ⟨honly, hseq⟩ := modSeq_onlyWord s r fun q => { q with loadQ := rest }.delivered l.d v l.sb (s.mcc.toNat + 1)
  refine ⟨_, (load_performs hq hb hs he hr hp).trans (congrArg _ hperf), honly, ⟨fun m => ?_, ?_⟩, fun x => ?_, fun x => ?_⟩
  · rw [hseq, Seq.delivered_sbn]
  · rw [hseq, Seq.delivered_eq]
  · rw [hseq, Seq.delivered_rg]; rfl
  · rw [hseq, Seq.delivered_ready]

end

/-- The load of value v after its access: it returns at once, or as many cycles later as the access takes. -/
def LoadReq.done (l : LoadReq) (r : Nat) (rest : List LoadReq) (v : Word) (x : State × Nat) : State :=
  if x.2 = 0 then x.1.modSeq r fun q => { q with loadQ := rest }.delivered l.d v l.sb (x.1.mcc.toNat + 1)
  else x.1.modSeq r fun q =>
    { q with loadQ := rest, back := q.back ++ [⟨l.d, v, l.sb, l.epoch, x.1.mcc.toNat + x.2⟩] }

section

variable {s : State} {r : Nat} {l : LoadReq} {rest : List LoadReq} (hq : (s.har r).seq.loadQ = l :: rest)
  (hb : ∀ b ∈ (s.har r).seq.back, s.mcc.toNat < b.at')

include hq hb

theorem performLoad_reg {n : Nat} (hl : l.place = .reg n) : s.performLoad r =
    s.modSeq r fun q => { q with loadQ := rest }.delivered l.d (s.privRead r n) l.sb (s.mcc.toNat + 1) := by
  have hf : s.loadFails l = none := by rw [State.loadFails, hl]
  rw [State.performLoad, State.loadBack_none hb, hq]
  dsimp only
  rw [hf, hl]
  rfl

variable {k : Nat} (hl : l.place = .mem k) (hf : s.loadFails l = none) (hc : calm (loadAsker r) k s)

include hl hf hc

theorem performLoad_done : s.performLoad r =
    l.done r rest (loadValue l.size l.sext (memRead s.mem k l.size)) (s.touchLat (loadAsker r) k) := by
  have hdone : s.performLoad r = l.done r rest (loadValue l.size l.sext (memRead s.mem k l.size))
      ((s.scrub k l.size).touchLat (loadAsker r) k) := by
    rw [State.performLoad, State.loadBack_none hb, hq]
    dsimp only
    rw [hf, hl]
    rfl
  rw [hdone, State.scrub_of_no_latent hc.1]

theorem performLoad_mem (ht : isTower k = false) : s.performLoad r = s.modSeq r fun q =>
    { q with loadQ := rest }.delivered l.d (loadValue l.size l.sext (memRead s.mem k l.size)) l.sb (s.mcc.toNat + 1) := by
  have hlat : s.touchLat (loadAsker r) k = (s, 0) := if_neg (by rw [ht]; decide)
  rw [performLoad_done hq hb hl hf hc, hlat]
  rfl

theorem performLoad_tower (ht : isTower k = true) : s.performLoad r =
    (s.touchLat (loadAsker r) k).1.modSeq r fun q => { q with
      loadQ := rest
      back := q.back ++ [⟨l.d, loadValue l.size l.sext (memRead s.mem k l.size), l.sb, l.epoch,
        s.mcc.toNat + towerCycles k s⟩] } := by
  have htow : onlyTowers s (s.touchLat (loadAsker r) k).1 := State.touch_calm hc
  have hmcc : (s.touchLat (loadAsker r) k).1.mcc = s.mcc := by rw [htow.1]
  have hcyc := State.touchLat_cycles s (loadAsker r) ht
  rw [performLoad_done hq hb hl hf hc, LoadReq.done, if_neg (hcyc.symm ▸ towerCycles_ne_zero k s), hmcc, hcyc]

end

section

variable {s : State} {l : LoadReq} {k : Nat} (hl : l.place = .mem k)

include hl

theorem State.loadFails_mem (hlink : k / 2 ^ 60 = 4 → s.linkUp (owner l.ptr) = true) : s.loadFails l =
    (s.consumesN k l.size).map fun c => { code := c, addr := l.ptr, gran := some k } := by
  rw [State.loadFails, hl]
  refine if_neg fun h => ?_
  rw [hlink h.1] at h
  exact Bool.noConfusion h.2

theorem State.loadFails_link (hk : k / 2 ^ 60 = 4) (hd : s.linkUp (owner l.ptr) = false) :
    s.loadFails l = some { code := cMEM_ERROR, addr := l.ptr } := by
  rw [State.loadFails, hl]
  exact if_pos ⟨hk, by rw [hd]; rfl⟩

end

/-- A key behind a link is in no tower, and no bank holds it back. -/
theorem State.serves_of_peer (s : State) (a : Asker) {k : Nat} (hk : k / 2 ^ 60 = 4) : s.serves a k = true := by
  have ht : isTower k = false := by rw [isTower, hk]; rfl
  rw [State.serves, ht]
  rfl

theorem LoadReq.serves_of_place {s : State} {a : Asker} {l : LoadReq} {k : Nat} (hl : l.place = .mem k)
    (h : s.serves a k = true) : ∀ j, l.place = .mem j → s.serves a j = true := by
  intro j hj
  rw [hl] at hj
  cases hj
  exact h

/-! ### A load on its way back -/

theorem eraseOne_append {α : Type} [DecidableEq α] {x : α} {pre post : List α} (h : x ∉ pre) :
    eraseOne x (pre ++ x :: post) = pre ++ post := by
  induction pre with
  | nil => exact if_pos rfl
  | cons y ys ih =>
    rw [List.mem_cons, not_or] at h
    rw [List.cons_append, eraseOne, if_neg (Ne.symm h.1), ih h.2]
    rfl

theorem back_settled (s : State) (r : Nat) (l : LoadBack) (pre post : List LoadBack) :
    let q := (s.har r).seq
    s.ev.a = r → q.back = pre ++ l :: post → (∀ b ∈ pre, s.mcc.toNat < b.at') → l.at' ≤ s.mcc.toNat →
    ∃ t, exec .seqLoadReturn s = .next t ∧ onlySeq r s t ∧
      (t.har r).seq =
        { q with g := (t.har r).seq.g, back := pre ++ post, sbn := (t.har r).seq.sbn, ready := (t.har r).seq.ready } ∧
      (∀ m, (t.har r).seq.sbn.getD m 0 = q.sbn.getD m 0 - if m = l.sb ∧ l.sb ≠ 0 then 1 else 0) ∧
      (∀ x, (t.har r).seq.rg x = if x = l.d ∧ l.d ≠ 0 then l.v else q.rg x) ∧
      ∀ x, (t.har r).seq.ready.find x =
        if x = l.d.toNat ∧ l.d ≠ 0 then some (max (s.mcc.toNat + 1) (q.ready.getD x 0)) else q.ready.find x := by
  intro q hr hq hpre hl
  have hback : s.loadBack r = some l := by
    rw [State.loadBack, show (s.har r).seq.back = pre ++ l :: post from hq]
    refine List.find?_eq_some_iff_append.mpr ⟨decide_eq_true hl, pre, post, rfl, fun b hb => ?_⟩
    simpa using hpre b hb
  have hmem : l ∉ pre := fun h => absurd (hpre l h) (Nat.not_lt.mpr hl)
  have herase : eraseOne l q.back = pre ++ post := by rw [hq, eraseOne_append hmem]
  have hexec : exec .seqLoadReturn s = .next (s.modSeq r fun q =>
      { q with back := eraseOne l q.back }.delivered l.d l.v l.sb (s.mcc.toNat + 1)) := by
    show execSeqLoadReturn s = _
    rw [execSeqLoadReturn, hr, State.loadReady, State.performLoad, hback]
    rfl
  have hseq : ((s.modSeq r fun q => { q with back := eraseOne l q.back }.delivered l.d l.v l.sb (s.mcc.toNat + 1)).har r).seq =
      { q with back := pre ++ post }.delivered l.d l.v l.sb (s.mcc.toNat + 1) := by
    rw [State.modSeq_har, ← herase]
  refine ⟨_, hexec, onlySeq_modSeq .., ?_, fun m => ?_, fun x => ?_, fun x => ?_⟩
  · rw [hseq, Seq.delivered_eq]
  · rw [hseq, Seq.delivered_sbn]
  · rw [hseq, Seq.delivered_rg]; rfl
  · rw [hseq, Seq.delivered_ready]

/-! ### The store queue -/

section

variable {s : State} {r : Nat} {w : StoreWhat} {sb ep : Nat} {rest : List StoreReq}
  (hq : (s.har r).seq.storeQ = ⟨w, sb, ep⟩ :: rest)

include hq

theorem store_held (h : (∃ l ∈ (s.har r).seq.loadQ, l.epoch < ep) ∨ ∃ b ∈ (s.har r).seq.back, b.epoch < ep) :
    s.storeReady r = false := by
  have hnext : (s.har r).seq.nextStore = none := by
    rw [Seq.nextStore, hq]
    refine if_neg ?_
    simp only [Bool.and_eq_true, List.all_eq_true, Bool.not_eq_true', decide_eq_false_iff_not]
    rintro ⟨h1, h2⟩
    obtain ⟨l, hl, hlt⟩ | ⟨b, hb, hlt⟩ := h
    · exact h1 l hl hlt
    · exact h2 b hb hlt
  rw [State.storeReady, hnext]

variable (hl : ∀ l ∈ (s.har r).seq.loadQ, ep ≤ l.epoch) (hb : ∀ b ∈ (s.har r).seq.back, ep ≤ b.epoch)

include hl hb

theorem storeReady_eq : s.storeReady r = match w with
    | .mem k _ => s.serves (storeAsker r) k
    | .spawn _ => !s.waits (.spawn r)
    | .reg _ _ _ => true := by
  have hnext : (s.har r).seq.nextStore = some ⟨w, sb, ep⟩ := by
    rw [Seq.nextStore, hq]
    refine if_pos ?_
    simp only [Bool.and_eq_true, List.all_eq_true, Bool.not_eq_true', decide_eq_false_iff_not, Nat.not_lt]
    exact ⟨hl, hb⟩
  rw [State.storeReady, hnext]
  cases w <;> rfl

end

section

variable {s : State} {r sb ep : Nat} {w : StoreWhat} {rest : List StoreReq}

theorem Seq.popStore_eq {q : Seq} (hq : q.storeQ = ⟨w, sb, ep⟩ :: rest) :
    q.popStore = { q with storeQ := rest }.clearSb sb := by
  rw [Seq.popStore, hq]

/-- The oldest store has left its queue. -/
theorem popStore_leaves {q : Seq} (hq : q.storeQ = ⟨w, sb, ep⟩ :: rest) : leftStores q q.popStore sb rest := by
  rw [Seq.popStore_eq hq]
  exact ⟨fun m => Seq.sbn_clearSb .., Seq.clearSb_eq ..⟩

theorem Seq.popStore_tail (q : Seq) : q.popStore.storeQ = q.storeQ.tail := by
  unfold Seq.popStore
  split
  next h => rw [h]; rfl
  next h => rw [h, Seq.clearSb_eq]; rfl

theorem State.storeEffect_mem {u : State} {k : Nat} {bytes : List Byte} (hlink : k / 2 ^ 60 = 4 → u.linkUp (peerPort k) = true) :
    u.storeEffect r (.mem k bytes) =
      ((u.write k bytes).touch (storeAsker r) k).noteTag k bytes.length (u.asPoster r) := by
  refine if_neg fun h => ?_
  rw [hlink h.1] at h
  exact Bool.noConfusion h.2

theorem State.storeEffect_link {u : State} {k : Nat} {bytes : List Byte} (hk : k / 2 ^ 60 = 4)
    (hd : u.linkUp (peerPort k) = false) (hact : (u.har r).seq.active = true) :
    u.storeEffect r (.mem k bytes) = u.preciseF r { code := cMEM_ERROR, addr := peerPtr k, acc := accWrite } := by
  have h : u.storeEffect r (.mem k bytes) = u.lateFault r { code := cMEM_ERROR, addr := peerPtr k, acc := accWrite } :=
    if_pos ⟨hk, by rw [hd]; rfl⟩
  rw [h, State.lateFault, if_pos hact]

/-- The bytes of a store stand at its place, and nothing else has changed but tower banks and who wrote there. -/
theorem store_stands {k : Nat} {bytes : List Byte} {f : Seq → Seq} {p : Poster} (hm : memOk s) (hc : calm (storeAsker r) k s)
    (hquar : ∀ i, i < bytes.length → s.quarantined (k + i) = false) (hlen : bytes.length ≤ 8) :
    let t := (((s.modSeq r f).write k bytes).touch (storeAsker r) k).noteTag k bytes.length p
    memRead t.mem k bytes.length = bytes ∧ onlyWord r k bytes.length s t ∧ (t.har r).seq = f (s.har r).seq := by
  have hwrite : (s.modSeq r f).write k bytes = { s.modSeq r f with mem := memWrite s.mem k bytes } :=
    State.write_short (fun i hi => hquar i hi) (by omega)
  dsimp only
  rw [hwrite]
  have htow := State.touch_calm (calm_modSeq (r := r) (m := memWrite s.mem k bytes) (f := f) hc)
  generalize State.touch _ (storeAsker r) k = v at htow
  have hhar (q : Nat) : (v.noteTag k bytes.length p).har q = { (s.modSeq r f).har q with banks := (v.har q).banks } := by
    have hn : (v.noteTag k bytes.length p).har q = v.har q := (State.noteTag_wrote ..).har q
    rw [hn, htow.2 q]
    rfl
  have hmem : (v.noteTag k bytes.length p).mem = memWrite s.mem k bytes := by rw [State.noteTag_mem, htow.1]
  refine ⟨by rw [hmem]; exact memRead_memWrite hm k bytes, onlyWord_of ?_ (fun a ha => ?_) (fun q => ?_) fun q hq => ?_, ?_⟩
  · have htag : v.noteTag k bytes.length p = { v with tagger := (v.noteTag k bytes.length p).tagger } := by
      unfold State.noteTag; split <;> rfl
    rw [htag, htow.1]
    rfl
  · rw [hmem]
    exact memGet_memWrite_other hm ha
  · rw [hhar]
    by_cases hq : q = r
    · rw [hq, State.modSeq_har]
    · rw [State.modSeq_har_other _ hq]
  · rw [hhar, State.modSeq_har_other _ hq]
  · rw [hhar, State.modSeq_har]

end

section

variable {s : State} {r sb ep : Nat} {w : StoreWhat} {rest : List StoreReq} (hr : s.ev.a = r)
  (hq : (s.har r).seq.storeQ = ⟨w, sb, ep⟩ :: rest)

include hr

theorem store_goes (h : s.storeReady r = true) : exec .seqStorePerform s = .next (s.performStore r) := by
  show execSeqStorePerform s = _
  rw [execSeqStorePerform, hr, h]
  rfl

theorem store_stays (h : s.storeReady r = false) : exec .seqStorePerform s = .next s := by
  show execSeqStorePerform s = _
  rw [execSeqStorePerform, hr, h]
  rfl

omit hr

include hq

theorem popped_of_seq {t : State} (h : (t.har r).seq = (s.har r).seq.popStore) :
    leftStores (s.har r).seq (t.har r).seq sb rest := by
  rw [h]
  exact popStore_leaves hq

theorem popped_modSeq : leftStores (s.har r).seq ((s.modSeq r Seq.popStore).har r).seq sb rest :=
  popped_of_seq hq (by rw [State.modSeq_har])

theorem popped_active : ((s.modSeq r Seq.popStore).har r).seq.active = (s.har r).seq.active := by
  rw [State.modSeq_har, (popStore_leaves hq).2]

theorem performStore_effect (hw : ∀ c, w ≠ .spawn c) :
    s.performStore r = (s.modSeq r Seq.popStore).storeEffect r w := by
  rw [State.performStore, hq]
  cases w with
  | mem k bs => rfl
  | reg n lv v => rfl
  | spawn c => exact absurd rfl (hw c)

variable (hl : ∀ l ∈ (s.har r).seq.loadQ, ep ≤ l.epoch) (hb : ∀ b ∈ (s.har r).seq.back, ep ≤ b.epoch)

include hr hl hb

theorem store_mem {k : Nat} {bytes : List Byte} (hw : w = .mem k bytes) (hm : memOk s)
    (hlink : k / 2 ^ 60 = 4 → s.linkUp (peerPort k) = true) (hc : calm (storeAsker r) k s)
    (hquar : ∀ i, i < bytes.length → s.quarantined (k + i) = false) (hlen : bytes.length ≤ 8) :
    ∃ t, exec .seqStorePerform s = .next t ∧ memRead t.mem k bytes.length = bytes ∧ onlyWord r k bytes.length s t ∧
      leftStores (s.har r).seq (t.har r).seq sb rest := by
  subst hw
  obtain ⟨hread, honly, hseq⟩ := store_stands (p := (s.modSeq r Seq.popStore).asPoster r) (f := Seq.popStore) hm hc hquar hlen
  have hgoes := store_goes hr ((storeReady_eq hq hl hb).trans hc.2.1)
  exact ⟨_, hgoes.trans (congrArg _ ((performStore_effect hq nofun).trans (State.storeEffect_mem hlink))), hread, honly,
    popped_of_seq hq hseq⟩

theorem store_linkDown {k : Nat} {bytes : List Byte} (hw : w = .mem k bytes) (hk : k / 2 ^ 60 = 4)
    (hd : s.linkUp (peerPort k) = false) (ha : (s.har r).seq.active = true) :
    ∃ u, exec .seqStorePerform s = .next (u.preciseF r { code := cMEM_ERROR, addr := peerPtr k, acc := accWrite }) ∧
      onlySeq r s u ∧ leftStores (s.har r).seq (u.har r).seq sb rest := by
  subst hw
  have hgoes := store_goes hr ((storeReady_eq hq hl hb).trans (s.serves_of_peer _ hk))
  have heffect := State.storeEffect_link (u := s.modSeq r Seq.popStore) (bytes := bytes) hk hd ((popped_active hq).trans ha)
  exact ⟨_, hgoes.trans (congrArg _ ((performStore_effect hq nofun).trans heffect)), onlySeq_modSeq .., popped_modSeq hq⟩

theorem store_reg {n lv : Nat} {v : Word} (hw : w = .reg n lv v) :
    ∃ u, exec .seqStorePerform s = .next (u.privWrite r n lv v) ∧ onlySeq r s u ∧
      leftStores (s.har r).seq (u.har r).seq sb rest := by
  subst hw
  exact ⟨_, (store_goes hr (storeReady_eq hq hl hb)).trans (congrArg _ (performStore_effect hq nofun)), onlySeq_modSeq ..,
    popped_modSeq hq⟩

/-- A scratch register of the current harness, written. -/
theorem store_scratch {lv : Nat} {v : Word} (hw : w = .reg 0x102 lv v) :
    ∃ t, exec .seqStorePerform s = .next t ∧ onlyHar r s t ∧ leftStores (s.har r).seq (t.har r).seq sb rest ∧
      t.har r = { s.har r with seq := (t.har r).seq, sp := { (s.har r).sp with tscr0 := v } } := by
  subst hw
  have hwrite : (s.modSeq r Seq.popStore).privWrite r 0x102 lv v =
      (s.modSeq r Seq.popStore).modSp r fun x => { x with tscr0 := v } := rfl
  have hhar : ((s.modSeq r Seq.popStore).modSp r fun x => { x with tscr0 := v }).har r =
      { s.har r with seq := (s.har r).seq.popStore, sp := { (s.har r).sp with tscr0 := v } } := by
    rw [State.modSp_eq, State.har_setHar, State.modSeq_har]
  refine ⟨_, (store_goes hr (storeReady_eq hq hl hb)).trans (congrArg _ ((performStore_effect hq nofun).trans hwrite)),
    onlyHar_trans (onlySeq_modSeq ..).1 (onlyHar_modHar ..), popped_of_seq hq (congrArg Harness.seq hhar), ?_⟩
  rw [hhar]

section

variable {c : Cont} (hw : w = .spawn c)

include hw

theorem spawn_stays (hs : s.waits (.spawn r) = true) : exec .seqStorePerform s = .next s := by
  subst hw
  exact store_stays hr ((storeReady_eq hq hl hb).trans (by rw [hs]; rfl))

theorem spawn_goes (hs : s.waits (.spawn r) = false) : exec .seqStorePerform s = .next
    (if (s.spawnRecord r c).waits (.spawn r) then s.spawnRecord r c else (s.spawnRecord r c).modSeq r Seq.popStore) := by
  subst hw
  refine (store_goes hr ((storeReady_eq hq hl hb).trans (by rw [hs]; rfl))).trans (congrArg _ ?_)
  rw [State.performStore, hq]

theorem spawn_held (hs : s.waits (.spawn r) = false) {n : Node} (hn : (s.har r).ctl.node = some n)
    (hrepl : launchRepl n.launch = true) :
    ∃ t, exec .seqStorePerform s = .next t ∧ onlyHar r s t ∧ leftStores (s.har r).seq (t.har r).seq sb rest ∧
      t.har r = { s.har r with
        seq := (t.har r).seq, ctl := { (s.har r).ctl with node := some { n with held := n.held ++ [(s.mcc.toNat, c)] } } } := by
  have hgoes := spawn_goes hr hq hl hb hw hs
  have hrec : s.spawnRecord r c = s.modCtl r fun x => { x with node := some { n with held := n.held ++ [(s.mcc.toNat, c)] } } := by
    rw [State.spawnRecord, hn]
    exact if_pos hrepl
  have hs' : (s.modCtl r fun x => { x with node := some { n with held := n.held ++ [(s.mcc.toNat, c)] } }).waits (.spawn r) =
      false := hs
  rw [hrec, hs', if_neg Bool.false_ne_true] at hgoes
  refine ⟨_, hgoes, onlyHar_trans (onlyHar_modHar ..) (onlySeq_modSeq ..).1, popped_of_seq hq ?_, ?_⟩
  · rw [State.modSeq_har, State.modCtl_eq, State.har_setHar]
  · rw [State.modSeq_har, State.modCtl_eq, State.har_setHar]

theorem spawn_enqueued (hs : s.waits (.spawn r) = false)
    (hrepl : ∀ n, (s.har r).ctl.node = some n → launchRepl n.launch = false) :
    let u := (s.enqueue (dieOf r) c none false false (.spawn r)).1
    (u.waits (.spawn r) = true → exec .seqStorePerform s = .next u) ∧
    (u.waits (.spawn r) = false →
      ∃ t, exec .seqStorePerform s = .next t ∧ onlySeq r u t ∧ (t.har r).seq.storeQ = (u.har r).seq.storeQ.tail) := by
  have hgoes := spawn_goes hr hq hl hb hw hs
  have hrec : s.spawnRecord r c = (s.enqueue (dieOf r) c none false false (.spawn r)).1 := by
    unfold State.spawnRecord
    split
    next n hn => exact if_neg (by rw [hrepl n hn]; decide)
    next => rfl
  rw [hrec] at hgoes
  refine ⟨fun hu => ?_, fun hu => ?_⟩
  · rw [hu] at hgoes
    exact hgoes
  · rw [hu] at hgoes
    exact ⟨_, hgoes, onlySeq_modSeq .., by rw [if_neg Bool.false_ne_true, State.modSeq_har, Seq.popStore_tail]⟩

end

end

/-! ### The statement -/

/-- Settles O10: the queue whose oldest access nothing holds back performs it, and each case is what its effect leaves. -/
theorem loadReturnsAndStorePerforms : Obligations.LoadReturnsAndStorePerforms := by
  unfold Obligations.LoadReturnsAndStorePerforms
  refine ⟨fun s r l rest => ?_, back_settled, fun s r w sb ep rest => ?_⟩
  · intro q hr hq hb
    refine ⟨fun h => load_stays hr (load_held hq hb h), fun hs he =>
      ⟨fun k hl hsize hlink => ⟨fun hc hcalm => ?_, fun c hc hk hact => ?_⟩,
      fun k hl hk hd hact => ?_, fun n hl => ?_⟩⟩
    · have hf : s.loadFails l = none := by rw [State.loadFails_mem hl hlink, hc]; rfl
      have hv := loadValue_eq hsize l.sext (length_memRead s.mem k l.size)
      have hserves := LoadReq.serves_of_place hl hcalm.2.1
      refine ⟨fun ht => ?_, fun ht => ?_⟩
      · have hperf := performLoad_mem hq hb hl hf hcalm ht
        rw [hv] at hperf
        exact load_delivers hq hb hs he hr hserves hperf
      · have hperf := performLoad_tower hq hb hl hf hcalm ht
        rw [hv] at hperf
        obtain ⟨honly, hseq⟩ := (State.touch_calm hcalm : onlyTowers s (s.touchLat (loadAsker r) k).1).modSeq (r := r) _
        exact ⟨_, (load_performs hq hb hs he hr hserves).trans (congrArg _ hperf), honly, hseq⟩
    · have hf : s.loadFails l = some { code := c, addr := l.ptr, gran := some k } := by
        rw [State.loadFails_mem hl hlink, hc]; rfl
      exact load_fails hq hb hs he hr (LoadReq.serves_of_place hl hk) hf hact
    · exact load_fails hq hb hs he hr (LoadReq.serves_of_place hl (s.serves_of_peer _ hk)) (State.loadFails_link hl hk hd) hact
    · exact load_delivers hq hb hs he hr (fun k hk => by rw [hl] at hk; cases hk) (performLoad_reg hq hb hl)
  · intro q popped hr hq
    refine ⟨fun h => store_stays hr (store_held hq h), fun hl hb => ⟨?_, ?_, ?_, ?_, fun c hw => ?_⟩⟩
    · exact fun k bytes hw hm hlink hc hquar hlen => store_mem hr hq hl hb hw hm hlink hc hquar hlen
    · exact fun k bytes hw hk hd ha => store_linkDown hr hq hl hb hw hk hd ha
    · exact fun n lv v hw => store_reg hr hq hl hb hw
    · exact fun lv v hw => store_scratch hr hq hl hb hw
    · exact ⟨spawn_stays hr hq hl hb hw, fun hs => ⟨fun n hn hrepl => spawn_held hr hq hl hb hw hs hn hrepl,
        spawn_enqueued hr hq hl hb hw hs⟩⟩

end Sys2Proof.Machine
end

section
/-! O40: transfer loads (08 R260-R264). -/

namespace Sys2Proof.Machine

open Sys2Proof.Safety

/-! ### Results that write one slot of each cell -/

/-- One write of s(reg) in every cell of a list. -/
def slotEffs (reg : Nat) (new : Nat → List Byte) (cs : List Nat) : List Eff := cs.map fun cell => .s cell reg 0 (new cell)

theorem Harness.applyAll_slotEffs_eq (reg : Nat) (new : Nat → List Byte) (cs : List Nat) (h : Harness) :
    h.applyAll (slotEffs reg new cs) = { h with s := (h.applyAll (slotEffs reg new cs)).s } := by
  induction cs generalizing h with
  | nil => rfl
  | cons c cs ih =>
    have hstep : h.applyAll (slotEffs reg new (c :: cs)) =
        (h.apply (.s c reg 0 (new c))).applyAll (slotEffs reg new cs) := rfl
    rw [hstep, ih]
    rfl

theorem Harness.sget_apply_s (h : Harness) {cell reg : Nat} (new : List Byte) (hreg : reg < 32) {cell' reg' : Nat}
    (hreg' : reg' < 32) : (h.apply (.s cell reg 0 new)).sget cell' reg' =
      if cell' = cell ∧ reg' = reg then (splice (h.sget cell' reg') 0 new).take 2048 else h.sget cell' reg' := by
  split
  next heq =>
    obtain ⟨rfl, rfl⟩ := heq
    exact RegFile.get_put_same ..
  next hne => exact RegFile.get_put_other _ _ _ _ _ (by omega)

theorem Harness.sget_applyAll_slotEffs {reg : Nat} (new : Nat → List Byte) (hreg : reg < 32) {cs : List Nat} (hcs : cs.Nodup)
    {cell reg' : Nat} (hreg' : reg' < 32) (h : Harness) : (h.applyAll (slotEffs reg new cs)).sget cell reg' =
      if cell ∈ cs ∧ reg' = reg then (splice (h.sget cell reg') 0 (new cell)).take 2048 else h.sget cell reg' := by
  induction cs generalizing h with
  | nil => simp [slotEffs, applyAll]
  | cons c cs ih =>
    obtain ⟨hc, hcs⟩ := List.nodup_cons.mp hcs
    have hstep : h.applyAll (slotEffs reg new (c :: cs)) =
        (h.apply (.s c reg 0 (new c))).applyAll (slotEffs reg new cs) := rfl
    rw [hstep, ih hcs, Harness.sget_apply_s h (new c) hreg hreg']
    by_cases hcell : cell = c
    · subst hcell
      simp [hc]
    · simp [hcell]

theorem writesD_slotEffs {reg : Nat} (new : Nat → List Byte) (hreg : reg < 32) {cs : List Nat} (hcs : cs.Nodup) :
    writesD [] [reg] [] (slotEffs reg new cs) := by
  intro h
  have heq := h.applyAll_slotEffs_eq reg new cs
  refine ⟨by rw [heq], fun cell _ => ⟨fun r _ _ => by rw [heq]; rfl, fun r hr hne => ?_, fun r _ _ => by rw [heq]; rfl⟩⟩
  rw [Harness.sget_applyAll_slotEffs new hreg hcs hr, if_neg]
  rintro ⟨-, rfl⟩
  exact hne List.mem_cons_self

/-- Codes that fill a register from its first byte on. -/
theorem code_codeBytes {bits : Nat} (hb : elemBits bits) {cs : List Nat} (hfit : cs.length * bits ≤ 16384) (old : List Byte)
    {k : Nat} (hk : k < cs.length) : code bits ((splice old 0 (codeBytes bits cs)).take 2048) k = cs.getD k 0 % 2 ^ bits := by
  by_cases h4 : bits = 4
  · subst h4
    have hlen : (nibbleBytes cs).length = (cs.length + 1) / 2 := length_nibbleBytes cs
    have hbyte : at' (nibbleBytes cs) (k / 2) 1 = cs.getD (2 * (k / 2)) 0 % 16 + 16 * (cs.getD (2 * (k / 2) + 1) 0 % 16) := by
      rw [at'_one, toNat_getD_nibbleBytes]
    rw [code, if_pos rfl, codeBytes, if_pos rfl, at'_take_splice (by omega) (by omega), hbyte]
    rcases Nat.mod_two_eq_zero_or_one k with h | h
    · rw [h, show 2 * (k / 2) = k by omega]
      omega
    · rw [h, show 2 * (k / 2) + 1 = k by omega]
      omega
  · obtain ⟨n, rfl⟩ := (hb.resolve_left h4).1
    have hn : 8 * n / 8 = n := Nat.mul_div_cancel_left _ (by decide)
    have hlast : n * k + n ≤ n * cs.length := Nat.mul_succ n k ▸ Nat.mul_le_mul_left n hk
    have hsize : n * cs.length ≤ 2048 := by
      rw [Nat.mul_comm n]
      rw [Nat.mul_left_comm] at hfit
      omega
    rw [code, if_neg h4, codeBytes, if_neg h4, hn, at'_take_splice (by rwa [length_elemBytes]) (hlast.trans hsize),
      at'_elemBytes hk, pow_mul]
    norm_num

/-! ### The codes that a load brings -/

/-- An element's place for each index, in every cell. -/
theorem State.length_of_elSpots {s : State} {r : Nat} {b : BufRec} {f : Rec} {write : Bool} {w acc : Nat} {o : Int}
    {perCell : Bool} {idx : Nat → List (Int × Int × Int)} {rows : List (List (Option Spot))} {n : Nat}
    (hidx : ∀ c, (idx c).length = n) (h : s.elSpots r b f write w acc o perCell idx = .ok rows) :
    rows.length = 16 ∧ ∀ row ∈ rows, row.length = n := by
  unfold State.elSpots at h
  dsimp only at h
  split at h
  · refine ⟨(length_of_mapM_ok h).trans length_cells, fun row hr => ?_⟩
    obtain ⟨c, -, hc⟩ := exists_of_mem_mapM_ok h hr
    exact (length_of_mapM_ok hc).trans (hidx c)
  · cases h0 : (idx 0).mapM (s.elSpot r b f 0 write w acc o) with
    | error e => rw [h0] at h; cases h
    | ok row =>
      rw [h0] at h
      cases h
      refine ⟨by simp [cells], fun x hx => ?_⟩
      obtain ⟨-, -, rfl⟩ := List.mem_map.mp hx
      exact (length_of_mapM_ok h0).trans (hidx 0)

/-- The codes of a cell. -/
def State.rowCodes (s : State) (bits : Nat) (rows : List (List (Option Spot))) (cell : Nat) : List Nat :=
  (rows.getD cell []).map (s.spotCode bits)

/-- What the statement reads at the place of an element. -/
def State.elemValue (s : State) (bits : Nat) (rows : List (List (Option Spot))) (cell k : Nat) : Nat :=
  match elem rows cell k with
  | none => 0
  | some x => (if bits = 4 then (leNat (x.keys.map (memGet s.mem))) / 2 ^ x.half else leNat (x.keys.map (memGet s.mem))) % 2 ^ bits

theorem State.getD_rowCodes (s : State) (bits : Nat) (rows : List (List (Option Spot))) (cell k : Nat) :
    (s.rowCodes bits rows cell).getD k 0 % 2 ^ bits = s.elemValue bits rows cell k := by
  have hget : (s.rowCodes bits rows cell).getD k 0 = s.spotCode bits (elem rows cell k) :=
    List.getD_map (f := s.spotCode bits) (d := none) ..
  rw [hget, State.elemValue]
  cases elem rows cell k with
  | none => exact Nat.zero_mod _
  | some x =>
    rw [State.spotCode]
    split
    next h4 => rw [h4]; exact Nat.mod_mod _ _
    next => rfl

section
variable {s : State} {bits n : Nat} {rows : List (List (Option Spot))} (hrows : rows.length = 16 ∧ ∀ row ∈ rows, row.length = n)
include hrows

theorem State.length_rowCodes {cell : Nat} (hc : cell < 16) : (s.rowCodes bits rows cell).length = n := by
  have hlt : cell < rows.length := hrows.1 ▸ hc
  rw [State.rowCodes, List.length_map, List.getD_eq_getElem _ _ hlt]
  exact hrows.2 _ (List.getElem_mem hlt)

/-- Loaded into a v register. -/
theorem loaded_in_register (hb : elemBits bits) (hfit : n * bits ≤ 16384) {reg : Nat} (hreg : reg < 64) :
    let effs := cells.flatMap fun c => codeEffs bits c reg (s.rowCodes bits rows c)
    writesV [reg] effs ∧ ∀ (h0 : Harness) cell k, cell < 16 → k < n →
      code bits ((h0.applyAll effs).vget cell reg) k = s.elemValue bits rows cell k := by
  have hF (c : Nat) : ∀ x ∈ codeEffs bits c reg (s.rowCodes bits rows c), x.onV c reg := codeEffs_onV _ _ _ _
  refine ⟨writesV_cells hF hreg cells_nodup, fun h0 cell k hc hk => ?_⟩
  have hlen := State.length_rowCodes (s := s) (bits := bits) hrows hc
  rw [Harness.vget_applyAll_cells hF hreg cells_nodup hreg, if_pos ⟨mem_cells.mpr hc, rfl⟩,
    code_codeEffs hb (hlen ▸ hfit) cell reg (Harness.length_vget ..) (hlen ▸ hk), State.getD_rowCodes]

/-- Loaded into a slot. -/
theorem loaded_in_slot (hb : elemBits bits) (hfit : n * bits ≤ 16384) {reg : Nat} (hreg : reg < 32) :
    let effs := slotEffs reg (fun c => codeBytes bits (s.rowCodes bits rows c)) cells
    writesD [] [reg] [] effs ∧ ∀ (h0 : Harness) cell k, cell < 16 → k < n →
      code bits ((h0.applyAll effs).sget cell reg) k = s.elemValue bits rows cell k := by
  refine ⟨writesD_slotEffs _ hreg cells_nodup, fun h0 cell k hc hk => ?_⟩
  have hlen := State.length_rowCodes (s := s) (bits := bits) hrows hc
  rw [Harness.sget_applyAll_slotEffs _ hreg cells_nodup hreg, if_pos ⟨mem_cells.mpr hc, rfl⟩,
    code_codeBytes hb (hlen ▸ hfit) _ (hlen ▸ hk), State.getD_rowCodes]

end

/-! ### The issue -/

/-- A load has room for its request (01 R27). -/
def loadRoomy (f : Rec) (fixed : Bool) (s : State) : Prop :=
  space f.base = 1 ∧ fixed = true ∨ outstanding (s.har s.cur) < 2048

theorem State.loadStalls_iff (s : State) (f : Rec) (fixed : Bool) : s.loadStalls f fixed = true ↔ ¬loadRoomy f fixed s := by
  simp only [State.loadStalls, Harness.atLimit, loadRoomy, Harness.requests_eq, Bool.and_eq_true, Bool.not_eq_true',
    Bool.and_eq_false_iff, beq_eq_false_iff_ne, decide_eq_true_eq]
  cases fixed <;> simp

/-- The load of rows through a record issues, with a result of which P holds. -/
def loadIssues (i : Instr) (b : Block) (fills : List FeReg) (f : Rec) (fixed : Bool) (rows : List (List (Option Spot)))
    (P : List Eff → Prop) (s : State) : Prop :=
  ∃ s1 s2 lat t effs, s.banks .t f ((liveSpots rows).flatMap (·.keys)) = .ok (s1, lat) ∧ onlyBanks s.cur s s1 ∧
    onlyBanks s.cur s s2 ∧ tGoes i b [] fills { age := 0, effs := effs, via := viaOf f, due := s.loadDue f fixed lat } s s2 t ∧
    memSame s t ∧ P effs

section
variable {i : Instr} {w : TWord} {u : TUse} {b : Block} {fills : List FeReg} {s : State} {run : State → Issue} {rb : BufRec}
  {f : Rec} {fixed : Bool} {rows : List (List (Option Spot))} {effs : Nat → List Nat → List Eff}
  (hi : exec i s = .next (s.issue (tFront w u) run)) (hlegal : tBad w u = false)
  (htakes : (if u.take then (if w.take then tFe w u.reg else []) else []) = [])
  (hfills : (if u.fild then (if w.fild then tFe w u.reg else []) else []) = fills) (hr : ready .t b w.gk w.gn [] fills s)
  (hrun : run s = s.tLoad rb f fixed (.ok rows) effs)
include hi hlegal htakes hfills hr hrun

theorem load_waits (hroom : ¬loadRoomy f fixed s) : waits .t b i s := by
  refine waits_of_run hi hlegal htakes hfills hr (hrun.trans ?_)
  simp only [State.tLoad]
  rw [if_pos ((State.loadStalls_iff ..).mpr hroom)]

theorem load_issues (hlen : rows.length = 16) {P : List Eff → Prop}
    (hP : P (cells.flatMap fun c => effs c (s.rowCodes f.bits rows c))) (hroom : loadRoomy f fixed s)
    (hcon : s.spotsConsume accRead (liveSpots rows) = none) (hq : quiet (s.engAsker .t f) ((liveSpots rows).flatMap (·.keys)) s) :
    loadIssues i b fills f fixed rows P s := by
  obtain ⟨s1, lat, hbanks, hworn⟩ := State.banks_of_quiet hq
  have hb := hworn.onlyBanks s.cur
  have hl : s1.latent = [] := by rw [hb.1]; exact hq.1.1
  have hs2 := onlyBanks_trans hb (State.cacheSpots_onlyBanks hl s.cur rb (liveSpots rows))
  have hsame := (State.banks_ok_sameEngines hbanks).trans (State.cacheSpots_sameEngines _ s.cur rb (liveSpots rows))
  have hgo : run s = .goP (s1.cacheSpots s.cur rb (liveSpots rows))
      { age := 0, effs := cells.flatMap fun c => effs c (s.rowCodes f.bits rows c), via := viaOf f
        due := s.loadDue f fixed lat } := by
    rw [hrun]
    simp only [State.tLoad]
    rw [if_neg (fun h => (State.loadStalls_iff ..).mp h hroom), hbanks]
    simp only [hcon]
    rw [State.scrubSpots_of_no_latent hl, zip_cells hlen [], List.flatMap_map]
    rfl
  obtain ⟨t, ht⟩ := tGoes_of_run hi hlegal htakes hfills hr (keepsBlock_of_same hsame).1 (keepsBlock_of_same hsame).2
    (by rw [hgo]; rfl)
  exact ⟨s1, _, lat, t, _, hbanks, hb, hs2, ht, memSame_of_tGoes ht (by rw [hs2.1]), hP⟩

end

/-! ### The words -/

section
variable {s : State} {w : TWord} {rb : BufRec} {f : Rec}

theorem tld_run (hrec : s.tRec w false true false = .ok (rb, f)) (hfit : (s.har s.cur).vl.toNat * f.bits ≤ 16384) :
    ∃ run, exec (.tld w) s = .next (s.issue (tFront w (memUse w false false)) run) ∧
      run s = s.tLoad rb f true (s.elSpots s.cur rb f false 0 accRead (tDisp (s.har s.cur) w) (tCs w)
        (tIdx (s.har s.cur) w (s.har s.cur).vl.toNat)) fun cell cs => codeEffs f.bits cell w.reg.toNat cs := by
  refine ⟨_, rfl, ?_⟩
  simp only [hrec]
  rw [vlFits, decide_eq_true hfit, Bool.not_true, if_neg Bool.false_ne_true]

theorem tgath_run (hrec : s.tRec w false true false = .ok (rb, f)) (hfit : (s.har s.cur).vl.toNat * max 32 f.bits ≤ 16384) :
    ∃ run, exec (.tgath w) s = .next (s.issue (tFront w (memUse w false true)) run) ∧
      run s = s.tLoad rb f false (s.elSpots s.cur rb f false 0 accRead (tDisp (s.har s.cur) w) true
        (tGatherIdx (s.har s.cur) w)) fun cell cs => codeEffs f.bits cell w.reg.toNat cs := by
  refine ⟨_, rfl, ?_⟩
  simp only [hrec]
  rw [vlFits, decide_eq_true hfit, Bool.not_true, if_neg Bool.false_ne_true]

/-- How a load of a slot uses its word. -/
def tldsUse (w : TWord) : TUse :=
  { reg := .slot, brec := true, ereg := true, fild := true, imm := true, ext := tExtMem w false }

theorem tlds_run (hrec : s.tRec w false true false = .ok (rb, f)) (hclaim : (s.har s.cur).claim.getLsbD w.reg.toNat = true) :
    ∃ run, exec (.tlds w) s = .next (s.issue (tFront w (tldsUse w)) run) ∧
      run s = s.tLoad rb f true (s.elSpots s.cur rb f false 0 accRead (tDisp (s.har s.cur) w) (tCs w)
        (tIdx (s.har s.cur) w (16384 / f.bits))) fun cell cs => [.s cell w.reg.toNat 0 (codeBytes f.bits cs)] := by
  refine ⟨_, rfl, ?_⟩
  simp only [hrec, hclaim]
  rw [Bool.not_true, if_neg Bool.false_ne_true]

theorem slot_lt_of_legal (h : tBad w (tldsUse w) = false) : w.reg.toNat < 32 := by
  simp only [tBad, tldsUse, Bool.or_eq_false_iff, decide_eq_false_iff_not, Nat.not_le] at h
  omega

/-- A slot written in every cell, as a result by cells. -/
theorem flatMap_slot (reg : Nat) (new : Nat → List Byte) (cs : List Nat) :
    (cs.flatMap fun c => [Eff.s c reg 0 (new c)]) = slotEffs reg new cs := List.map_eq_flatMap.symm

end

/-- Settles O40: each word is a load of the rows that its indices place (`load_issues`), and what it puts into a register or a slot
reads back as the codes of their places (`loaded_in_register`, `loaded_in_slot`). -/
theorem transferLoads : Obligations.TransferLoads := by
  intro s w b rb f rows h vl reg live value lands inReg hrec
  have hb := f.bits_elemBits
  refine ⟨fun hlegal hfit hspots => ?_, fun hlegal hfit hspots => ?_, fun hlegal hclaim hspots => ?_⟩
  · obtain ⟨run, hi, hrun⟩ := tld_run (w := w) hrec hfit
    have hrows := State.length_of_elSpots (fun c => length_tIdx h w vl c) hspots
    rw [hspots] at hrun
    intro hr
    exact ⟨load_waits hi hlegal rfl rfl hr hrun,
      load_issues hi hlegal rfl rfl hr hrun hrows.1 (loaded_in_register hrows hb hfit w.reg.isLt)⟩
  · obtain ⟨run, hi, hrun⟩ := tgath_run (w := w) hrec hfit
    have hrows := State.length_of_elSpots (fun c => length_tGatherIdx h w c) hspots
    rw [hspots] at hrun
    have hfit' : vl * f.bits ≤ 16384 := (Nat.mul_le_mul_left vl (le_max_right 32 f.bits)).trans hfit
    intro hr
    exact ⟨load_waits hi hlegal rfl rfl hr hrun,
      load_issues hi hlegal rfl rfl hr hrun hrows.1 (loaded_in_register hrows hb hfit' w.reg.isLt)⟩
  · obtain ⟨run, hi, hrun⟩ := tlds_run (w := w) hrec hclaim
    have hrows := State.length_of_elSpots (fun c => length_tIdx h w (16384 / f.bits) c) hspots
    rw [hspots] at hrun
    intro hr
    refine ⟨load_waits hi hlegal rfl rfl hr hrun, load_issues hi hlegal rfl rfl hr hrun hrows.1 ?_⟩
    rw [flatMap_slot]
    exact loaded_in_slot hrows hb (Nat.div_mul_le_self ..) (slot_lt_of_legal hlegal)

end Sys2Proof.Machine
end

section
/-! SUPPORT. The writes of a packet (09 R306; 08 R262): elements of several widths put in order, what a packet that nothing stops
leaves behind, and the places and codes that its plan names. -/

namespace Sys2Proof.Machine

open Sys2Proof.Safety

/-! ### Elements of several widths -/

/-- A write of a packet: a place with its width, and the code. -/
abbrev PktWrite := (Spot × Nat) × Nat

/-- The place of a write has the bytes of its width. -/
def soundWrite (w : PktWrite) : Prop := w.1.1.fits w.1.2 ∧ elemBits w.1.2

/-- What memory reads after writes in order. -/
def putWrites (g : Nat → Byte) (ws : List PktWrite) : Nat → Byte := ws.foldl (fun g w => putElem w.1.2 g w.1.1 w.2) g

theorem putWrites_cons (g : Nat → Byte) (w : PktWrite) (ws : List PktWrite) :
    putWrites g (w :: ws) = putWrites (putElem w.1.2 g w.1.1 w.2) ws := rfl

theorem putWrites_append (g : Nat → Byte) (xs ys : List PktWrite) : putWrites g (xs ++ ys) = putWrites (putWrites g xs) ys :=
  List.foldl_append ..

theorem putWrites_other {g : Nat → Byte} {ws : List PktWrite} {a : Nat} (hws : ∀ w ∈ ws, soundWrite w)
    (ha : ∀ w ∈ ws, a ∉ w.1.1.keys) :
    putWrites g ws a = g a := by
  induction ws generalizing g with
  | nil => rfl
  | cons w ws ih =>
    obtain ⟨hw, hws⟩ := List.forall_mem_cons.mp hws
    obtain ⟨haw, ha⟩ := List.forall_mem_cons.mp ha
    rw [putWrites_cons, ih hws ha, putElem_other hw.1 haw]

/-- A write that shares no bit with a place leaves its code. -/
theorem spotVal_putWrite_other {g : Nat → Byte} {x : Spot × Nat} {w : PktWrite} (hx : x.1.fits x.2) (hw : soundWrite w)
    (hxw : ¬sharesBit x w.1) : spotVal x.2 (putElem w.1.2 g w.1.1 w.2) x.1 = spotVal x.2 g x.1 := by
  obtain ⟨⟨y, b⟩, c⟩ := w
  unfold sharesBit at hxw
  split at hxw
  next h =>
    obtain ⟨hx4, hy4⟩ := h
    change b = 4 at hy4
    subst hy4
    rw [hx4] at hx ⊢
    exact spotVal_putElem_other hx hw.1 (by rwa [Spot.meets, if_pos rfl])
  next =>
    have hdis : ∀ a ∈ x.1.keys, putElem b g y c a = g a := fun a ha => putElem_other hw.1 fun hy => hxw ⟨a, ha, hy⟩
    simp only [spotVal, List.map_congr_left hdis]

theorem spotVal_putWrites_other {g : Nat → Byte} {x : Spot × Nat} {ws : List PktWrite} (hx : x.1.fits x.2)
    (hws : ∀ w ∈ ws, soundWrite w ∧ ¬sharesBit x w.1) : spotVal x.2 (putWrites g ws) x.1 = spotVal x.2 g x.1 := by
  induction ws generalizing g with
  | nil => rfl
  | cons w ws ih =>
    obtain ⟨⟨hw, hxw⟩, hws⟩ := List.forall_mem_cons.mp hws
    rw [putWrites_cons, ih hws, spotVal_putWrite_other hx hw hxw]

/-- The last write at a place is read there. -/
theorem spotVal_putWrites_last {g : Nat → Byte} {w : PktWrite} {pre post : List PktWrite} (hw : soundWrite w)
    (hnd : w.1.1.keys.Nodup) (hpost : ∀ y ∈ post, soundWrite y ∧ ¬sharesBit w.1 y.1) :
    spotVal w.1.2 (putWrites g (pre ++ w :: post)) w.1.1 = w.2 % 2 ^ w.1.2 := by
  rw [putWrites_append, putWrites_cons, spotVal_putWrites_other hw.1 hpost, spotVal_putElem_same hw.2 hw.1 hnd]

/-! ### The bytes that stand aside -/

theorem State.overlay_elPut (s : State) (t : Table Byte) (ws : List PktWrite) :
    overlay (s.elPut t ws) (memGet s.mem) = putWrites (overlay t (memGet s.mem)) ws := by
  induction ws generalizing t with
  | nil => rfl
  | cons w ws ih =>
    have hstep : s.elPut t (w :: ws) = s.elPut (s.spotPut w.1.2 t w.1.1 w.2) ws := rfl
    rw [hstep, ih, State.overlay_spotPut, putWrites_cons]

theorem State.elPut_sorted (s : State) {t : Table Byte} (ht : t.sorted = true) (ws : List PktWrite) :
    (s.elPut t ws).sorted = true :=
  List.foldlRecOn (motive := fun t : Table Byte => t.sorted = true) ws _ ht fun _ h _ _ => State.spotPut_sorted h

theorem State.elPut_keys {s : State} {t : Table Byte} {ws : List PktWrite} {P : Nat → Prop} (ht : ∀ y ∈ t, P y.1)
    (hws : ∀ w ∈ ws, soundWrite w ∧ ∀ k ∈ w.1.1.keys, P k) : ∀ y ∈ s.elPut t ws, P y.1 :=
  List.foldlRecOn (motive := fun t : Table Byte => ∀ y ∈ t, P y.1) ws _ ht fun _ h w hw =>
    State.spotPut_keys (hws w hw).1.1 h (hws w hw).2

/-! ### The run of a packet that nothing stops -/

/-- What an element writes, where nothing stops it. -/
def OutEl.writes (e : OutEl) (latched : Option (List Nat)) : List PktWrite :=
  match e.final latched with
  | .ok ws => ws
  | .error _ => []

/-- What a packet has latched for its element i. -/
def Pkt.latched (k : Pkt) (i : Nat) : Option (List Nat) := (k.vals[i]?).getD none

/-- The writes of a packet whose output elements are given. -/
def Pkt.writes (k : Pkt) (els : List OutEl) : List PktWrite := els.zipIdx.flatMap fun e => e.1.writes (k.latched e.2)

/-- Nothing stops an output element of a packet. -/
def Pkt.unstopped (k : Pkt) (els : List OutEl) : Prop := ∀ e ∈ els.zipIdx, ∃ ws, e.1.final (k.latched e.2) = .ok ws

/-- The places of an output element have the bytes of their widths. -/
def OutEl.sound (e : OutEl) : Prop := ∀ ws, e.wrs = .ok ws → ∀ w ∈ ws, w.1.fits w.2 ∧ elemBits w.2

theorem OutEl.sound_writes {e : OutEl} (h : e.sound) (latched : Option (List Nat)) : ∀ w ∈ e.writes latched, soundWrite w := by
  have hzip {ws : List (Spot × Nat)} {cs : List Nat} (hws : e.wrs = .ok ws) : ∀ w ∈ ws.zip cs, soundWrite w :=
    fun w hw => h ws hws w.1 (List.of_mem_zip hw).1
  intro w hw
  unfold OutEl.writes OutEl.final at hw
  cases hwrs : e.wrs with
  | error f => simp [hwrs] at hw
  | ok ws =>
    cases latched with
    | some cs => exact hzip hwrs w (by simpa [hwrs] using hw)
    | none =>
      cases hval : e.val with
      | error f => simp [hwrs, hval] at hw
      | ok cs => exact hzip hwrs w (by simpa [hwrs, hval] using hw)

theorem Pkt.sound_writes {k : Pkt} {els : List OutEl} (h : ∀ e ∈ els, e.sound) : ∀ w ∈ k.writes els, soundWrite w := by
  intro w hw
  obtain ⟨e, he, hw⟩ := List.mem_flatMap.mp hw
  exact OutEl.sound_writes (h e.1 (List.fst_mem_of_mem_zipIdx he)) _ w hw

theorem map_snd_unitsOf (n : Nat) (els : List OutEl) : (unitsOf n els).map Prod.snd = els := by
  induction els generalizing n with
  | nil => rfl
  | cons e els ih => rw [unitsOf, List.map_cons, ih]

/-- The elements with their units, as the elements alone. -/
theorem flatMap_unitsOf {α : Type} (g : OutEl × Nat → List α) (els : List OutEl) :
    ((unitsOf 0 els).zipIdx.flatMap fun x => g (x.1.2, x.2)) = els.zipIdx.flatMap g := by
  conv_rhs => rw [← map_snd_unitsOf 0 els, List.zipIdx_map, List.flatMap_map]
  rfl

/-- The packet has ended. -/
def Pkt.ends (fin : Status) (n u : Nat) (j : Pkt) : Pkt :=
  { j with st := .ended fin.1 fin.2 0, bytes := n, vals := [], asked := false, unit := u }

/-- The bytes of the packet's writes in memory. -/
def State.putPacket (s : State) (t : Table Byte) : State :=
  (runs t).foldl (fun s kb => s.write kb.1 kb.2) (s.noteKeys (t.map (·.1)) .other)

section
variable {s : State} {k : Pkt} {els : List OutEl} {fin : Status} (hun : k.unstopped els) (hunit : k.unit = 0)
include hun hunit

/-- From the first unit on, with no fault, the run of a packet is one write of all its elements. -/
theorem State.carry_unstopped :
    s.carry k els fin =
      if !k.asked then s.askBanks k (els.flatMap (·.reads) ++ (s.elPut [] (k.writes els)).map (·.1))
      else ((s.readKeys (els.flatMap (·.reads))).putPacket (s.elPut [] (k.writes els))).modPkt k.id
        (Pkt.ends fin (k.bytes + payload (k.writes els)) (cdiv (els.map OutEl.size).sum unitBits)) := by
  have hfinal : ∀ x ∈ (unitsOf 0 els).zipIdx, ∃ ws, x.1.2.final (k.latched x.2) = .ok ws := by
    intro x hx
    refine hun (x.1.2, x.2) ?_
    rw [← map_snd_unitsOf 0 els, List.zipIdx_map]
    exact List.mem_map.mpr ⟨x, hx, rfl⟩
  have hreads : ((unitsOf 0 els).zipIdx.flatMap fun x => x.1.2.reads) = els.flatMap (·.reads) := by
    have hfst : els.zipIdx.map Prod.fst = els := List.zipIdx_map_fst ..
    conv_rhs => rw [← hfst, List.flatMap_map]
    exact flatMap_unitsOf (fun e => e.1.reads) els
  have hws : ((unitsOf 0 els).zipIdx.flatMap fun x => x.1.2.writes (k.latched x.2)) = k.writes els :=
    flatMap_unitsOf (fun e => e.1.writes (k.latched e.2)) els
  have hput : ∀ rs ws, rs = els.flatMap (·.reads) → ws = k.writes els →
      (if !k.asked then s.askBanks k (rs ++ (s.elPut [] ws).map (·.1))
        else ((s.readKeys rs).putPacket (s.elPut [] ws)).modPkt k.id
          (Pkt.ends fin (k.bytes + payload ws) (cdiv (els.map OutEl.size).sum unitBits))) =
      if !k.asked then s.askBanks k (els.flatMap (·.reads) ++ (s.elPut [] (k.writes els)).map (·.1))
      else ((s.readKeys (els.flatMap (·.reads))).putPacket (s.elPut [] (k.writes els))).modPkt k.id
        (Pkt.ends fin (k.bytes + payload (k.writes els)) (cdiv (els.map OutEl.size).sum unitBits)) := by
    rintro _ _ rfl rfl
    rfl
  have hnone {β : Type} (f : Nat × OutEl × Except Fail (List PktWrite) → Option β)
      (hf : ∀ u e ws, f (u, e, .ok ws) = none) :
      (((unitsOf 0 els).zipIdx).map fun x => (x.1.1, x.1.2, x.1.2.final (k.latched x.2))).findSome? f = none := by
    rw [List.findSome?_eq_none_iff]
    intro x hx
    obtain ⟨y, hy, rfl⟩ := List.mem_map.mp hx
    obtain ⟨ws, hws⟩ := hfinal y hy
    rw [hws, hf]
  simp only [Pkt.latched] at hnone
  unfold State.carry
  simp only [hunit, Nat.zero_le, decide_true, List.filter_true]
  rw [hnone _ fun _ _ _ => rfl]
  simp only [List.filter_true]
  rw [List.flatMap_map, List.flatMap_map]
  exact hput _ _ hreads hws

theorem State.carry_asks (ha : k.asked = false) :
    s.carry k els fin = s.askBanks k (els.flatMap (·.reads) ++ (s.elPut [] (k.writes els)).map (·.1)) := by
  rw [State.carry_unstopped hun hunit, ha]
  rfl

/-- Its beats served, a packet leaves its elements in memory and has ended. -/
theorem State.carry_ends (hsound : ∀ e ∈ els, e.sound) (ha : k.asked = true) (hm : memOk s) (hl : s.latent = [])
    (hq : ∀ w ∈ k.writes els, ∀ a ∈ w.1.1.keys, s.quarantined a = false) :
    pktEnds k fin (k.bytes + payload (k.writes els)) s (s.carry k els fin) ∧
      memGet (s.carry k els fin).mem = putWrites (memGet s.mem) (k.writes els) := by
  have hread : s.readKeys (els.flatMap (·.reads)) = s := by rw [State.readKeys, hl]; rfl
  rw [State.carry_unstopped hun hunit, ha, hread]
  have hnote := s.noteKeys_wrote ((s.elPut [] (k.writes els)).map (·.1)) .other
  have hw : wrote s (s.putPacket (s.elPut [] (k.writes els))) :=
    hnote.trans (.foldl (f := fun s (kb : Nat × List Byte) => s.write kb.1 kb.2) (fun s _ => s.write_wrote ..) ..)
  have hmem : memGet (s.putPacket (s.elPut [] (k.writes els))).mem = putWrites (memGet s.mem) (k.writes els) := by
    have hkeys : ∀ y ∈ s.elPut [] (k.writes els), s.quarantined y.1 = false :=
      State.elPut_keys (P := fun a => s.quarantined a = false) (fun _ h => by cases h) fun w hw =>
        ⟨Pkt.sound_writes hsound w hw, hq w hw⟩
    rw [State.putPacket, State.foldl_write_runs (by rw [State.noteKeys_mem]; exact hm) fun x hx =>
        (hnote.quarantined _).trans (hkeys x hx),
      State.noteKeys_mem, putPairs_sorted (s.elPut_sorted (t := []) rfl _), State.overlay_elPut]
    rfl
  generalize s.putPacket (s.elPut [] (k.writes els)) = u at hw hmem
  have hlat := hw.latent hl
  obtain ⟨hu, -, -⟩ := hw
  have hu' : u = { s with mem := u.mem, poison := u.poison, hbm := u.hbm, tagger := u.tagger } := by
    rw [hlat, ← hl] at hu
    exact hu
  refine ⟨⟨?_, cdiv (els.map OutEl.size).sum unitBits, fun d => ?_⟩, hmem⟩
  · simp only [Bool.not_true, Bool.false_eq_true, if_false]
    rw [hu']
    rfl
  · simp only [Bool.not_true, Bool.false_eq_true, if_false]
    rw [hu']
    rfl

end

/-- An instruction that carries out a packet whose places have the bytes of their widths. -/
theorem carries_of_sound {i : Instr} {k : Pkt} {els : List OutEl} {fin : Status} {s : State}
    (hi : exec i s = .next (s.carry k els fin)) (hsound : ∀ e ∈ els, e.sound) : carries i k els fin s := by
  unfold carries
  intro ws hun hunit
  have hws : ws = k.writes els := rfl
  clear_value ws
  subst hws
  refine ⟨fun ha => ?_, fun ha hm hl hq => ?_⟩
  · rw [hi, State.carry_asks hun hunit ha]
  · have hq' : ∀ w ∈ k.writes els, ∀ a ∈ w.1.1.keys, s.quarantined a = false := fun w hw a hka =>
      hq a (List.mem_flatMap.mpr ⟨w, hw, hka⟩)
    obtain ⟨hends, hmem⟩ := State.carry_ends (fin := fin) hun hunit hsound ha hm hl hq'
    refine ⟨_, hi, hends, fun a hna => ?_, fun pre w post hsplit hnd hlen hpost => ?_⟩
    · rw [hmem]
      exact putWrites_other (Pkt.sound_writes hsound) fun w hw hka => hna (List.mem_flatMap.mpr ⟨w, hw, hka⟩)
    · have hall : ∀ y ∈ w :: post, soundWrite y := fun y hy =>
        Pkt.sound_writes hsound y (hsplit ▸ List.mem_append_right _ hy)
      rw [State.spotCode_some, hmem, hsplit]
      exact spotVal_putWrites_last (hall w List.mem_cons_self) hnd fun y hy => ⟨hall y (List.mem_cons_of_mem _ hy), hpost y hy⟩

/-! ### Outputs at places that lie apart -/

/-- The write of code c at a place; a place's address does not matter. -/
def placed (y : Spot × Nat) (c : Nat) : PktWrite := (({ p := 0, keys := y.1.keys, half := y.1.half }, y.2), c)

/-- The writes of codes at the places W. -/
def placedWrites (n : Nat) (W : Nat → Option (Spot × Nat)) (c : Nat → Nat) : List PktWrite :=
  (List.range n).filterMap fun j => (W j).map fun y => placed y (c j)

theorem mem_placedWrites {n : Nat} {W : Nat → Option (Spot × Nat)} {c : Nat → Nat} {w : PktWrite} :
    w ∈ placedWrites n W c ↔ ∃ j y, j < n ∧ W j = some y ∧ placed y (c j) = w := by
  simp only [placedWrites, List.mem_filterMap, List.mem_range, Option.map_eq_some_iff]
  constructor
  · rintro ⟨j, hj, y, hy, rfl⟩
    exact ⟨j, y, hj, hy, rfl⟩
  · rintro ⟨j, y, hj, hy, rfl⟩
    exact ⟨j, hj, y, hy, rfl⟩

theorem sharesBit_comm (x y : Spot × Nat) : sharesBit x y ↔ sharesBit y x := by
  unfold sharesBit
  by_cases h : x.2 = 4 ∧ y.2 = 4
  · rw [if_pos h, if_pos h.symm, eq_comm, eq_comm (a := x.1.half)]
  · rw [if_neg h, if_neg fun h' => h h'.symm]
    exact exists_congr fun a => and_comm

/-- Places that lie apart share no bit with each other. -/
theorem placedWrites_pairwise {k : Pkt} {n : Nat} {W : Nat → Option (Spot × Nat)} {c : Nat → Nat} {read : List Nat} {s : State}
    (h : apart k n W read s) : (placedWrites n W c).Pairwise fun x y => ¬sharesBit x.1 y.1 := by
  obtain ⟨-, -, -, -, hW⟩ := h
  rw [placedWrites, List.pairwise_filterMap]
  refine List.pairwise_lt_range.imp_of_mem fun {j j'} hj hj' hlt x hx y hy => ?_
  obtain ⟨x', hWx, rfl⟩ := Option.map_eq_some_iff.mp hx
  obtain ⟨y', hWy, rfl⟩ := Option.map_eq_some_iff.mp hy
  obtain ⟨-, -, -, hdis⟩ := hW j x' (List.mem_range.mp hj) hWx
  exact hdis j' y' (List.mem_range.mp hj') (by omega) hWy

/-- A packet whose writes are, in some order, those of the codes c at the places W. -/
theorem outputs_of_writes {i : Instr} {k : Pkt} {els : List OutEl} {fin : Status} {s : State} {n : Nat}
    {W : Nat → Option (Spot × Nat)} {c : Nat → Nat} {read : List Nat} (hi : exec i s = .next (s.carry k els fin))
    (hsound : ∀ e ∈ els, e.sound) (hun : k.unstopped els) (hap : apart k n W read s)
    (hperm : (k.writes els).Perm (placedWrites n W c)) : outputs i k fin n W c s := by
  have hmem {w : PktWrite} : w ∈ k.writes els ↔ w ∈ placedWrites n W c := hperm.mem_iff
  have hpair : (k.writes els).Pairwise fun x y => ¬sharesBit x.1 y.1 :=
    (hperm.pairwise_iff fun {x y} h h' => h ((sharesBit_comm ..).mp h')).mpr (placedWrites_pairwise hap)
  obtain ⟨hunit, ha, hm, hl, hW⟩ := hap
  have hq : ∀ w ∈ k.writes els, ∀ a ∈ w.1.1.keys, s.quarantined a = false := by
    intro w hw a hka
    obtain ⟨j, y, hj, hy, rfl⟩ := mem_placedWrites.mp (hmem.mp hw)
    exact ((hW j y hj hy).2.2.1 a hka).2
  obtain ⟨hends, hget⟩ := State.carry_ends (fin := fin) hun hunit hsound ha hm hl hq
  have hall := Pkt.sound_writes (k := k) hsound
  refine ⟨_, _, hi, hends, fun j y hj hy => ?_, fun a hna => ?_⟩
  · have hin := hmem.mpr (mem_placedWrites.mpr ⟨j, y, hj, hy, rfl⟩)
    obtain ⟨pre, post, hsplit⟩ := List.append_of_mem hin
    have hlater := (List.pairwise_cons.mp (List.pairwise_append.mp (hsplit ▸ hpair)).2.1).1
    have hlast := spotVal_putWrites_last (g := memGet s.mem) (pre := pre) (hall _ hin) (hW j y hj hy).1 fun z hz =>
      ⟨hall z (hsplit ▸ List.mem_append_right _ (List.mem_cons_of_mem _ hz)), hlater z hz⟩
    rw [← hsplit, ← hget] at hlast
    exact hlast
  · rw [hget]
    refine putWrites_other hall fun w hw => ?_
    obtain ⟨j, y, hj, hy, rfl⟩ := mem_placedWrites.mp (hmem.mp hw)
    exact hna j y hj hy

end Sys2Proof.Machine
end

section
/-! SUPPORT. The plans of packets (09 R287-R303): their places have the bytes of their widths, and what a plan writes whose elements
are formed. -/

namespace Sys2Proof.Machine

open Sys2Proof.Safety

/-! ### Reading and placing -/

section
variable {s : State} {k : Pkt}

theorem State.length_pinKeys {p : Nat} {pins : List Leaf} {base : Word} {d : Int} {n : Nat} {ks : List Nat}
    (h : s.pinKeys p pins base d n = .ok ks) : ks.length = n :=
  (length_of_mapM_ok h).trans List.length_range

theorem State.pktRead_ok {p : Nat} {base : Word} {d : Int} {n : Nat} {ks : List Nat} :
    s.pktRead p k base d n = .ok ks ↔ s.pinKeys p k.pins base d n = .ok ks ∧ ∀ a ∈ ks, s.consumes a = none := by
  unfold State.pktRead
  cases hks : s.pinKeys p k.pins base d n with
  | error f => simp
  | ok xs =>
    dsimp only
    cases hf : xs.findSome? fun a => (s.consumes a).map fun c => (a, c) with
    | some x =>
      dsimp only
      refine ⟨fun h => (by cases h), fun ⟨h, hn⟩ => ?_⟩
      cases h
      rw [List.findSome?_eq_none_iff.mpr fun a ha => by rw [hn a ha]; rfl] at hf
      cases hf
    | none =>
      have hn : ∀ a ∈ xs, s.consumes a = none := fun a ha => by simpa using List.findSome?_eq_none_iff.mp hf a ha
      refine ⟨fun h => ?_, fun ⟨h, _⟩ => h⟩
      cases h
      exact ⟨rfl, hn⟩

theorem State.length_pktRead {p : Nat} {base : Word} {d : Int} {n : Nat} {ks : List Nat}
    (h : s.pktRead p k base d n = .ok ks) : ks.length = n := State.length_pinKeys (State.pktRead_ok.mp h).1

theorem State.elRead_ok {f : Rec} {d : Int} {half : Nat} {ks : List Nat} (h : readable k f d f.bytes ks s) :
    s.elRead k f (d, half) = .ok ({ p := 0, keys := ks, half := half }, ks) := by
  have h' : s.pktRead (s.pktPart k) k f.base (offset f.base + d) f.bytes = .ok ks := h
  rw [State.elRead, h']

theorem State.elWrite_ok {f : Rec} {d : Int} {half : Nat} {ks : List Nat} (h : writable k f d f.bytes ks s) :
    s.elWrite k f (d, half) = .ok [({ p := 0, keys := ks, half := half }, f.bits)] := by
  have h' : s.pinKeys (s.pktPart k) k.pins f.base (offset f.base + d) f.bytes = .ok ks := h
  rw [State.elWrite, h']

/-- The half of a byte that a place names, where its record's elements are nibbles. -/
def halfOk (f : Rec) (half : Nat) : Prop := f.bits = 4 → half = 0 ∨ half = 4

theorem halfOk_zero (f : Rec) : halfOk f 0 := fun _ => .inl rfl

theorem Rec.halfOk_nth (f : Rec) (i : Nat) : halfOk f (f.nth i).2 := by
  unfold Rec.nth
  split
  next h => exact Rec.half_of_locate h
  next => exact halfOk_zero f

theorem State.elWrite_sound {f : Rec} {x : Int × Nat} (hh : halfOk f x.2) {ws : List (Spot × Nat)}
    (h : s.elWrite k f x = .ok ws) : ∀ w ∈ ws, w.1.fits w.2 ∧ elemBits w.2 := by
  unfold State.elWrite at h
  split at h
  · cases h
  next hks =>
    cases h
    intro w hw
    rw [List.mem_singleton.mp hw]
    exact ⟨⟨State.length_pinKeys hks, hh⟩, f.bits_elemBits⟩

theorem State.byteOut_sound (base : Word) (d : Int) (val : Except Fail (List Nat)) (reads : List Nat) :
    (s.byteOut k base d val reads).sound := by
  intro ws h w hw
  unfold State.byteOut at h
  dsimp only at h
  cases hks : s.pinKeys (s.pktPart k) k.pins base d 1 with
  | error f => rw [hks] at h; cases h
  | ok ks =>
    rw [hks] at h
    cases h
    rw [List.mem_singleton.mp hw]
    have hfits : Spot.fits 8 { p := 0, keys := ks, half := 0 } := ⟨State.length_pinKeys hks, nofun⟩
    have hbits : elemBits 8 := .inr ⟨by decide, by decide⟩
    exact ⟨hfits, hbits⟩

/-- An element that writes nothing. -/
theorem OutEl.sound_of_nil {e : OutEl} (h : e.wrs = .ok []) : e.sound := by
  intro ws hws w hw
  rw [h] at hws
  cases hws
  cases hw

/-! ### Elements formed one after another -/

theorem State.mem_planSeq {α : Type} {f : Table Byte → α → OutEl} {t : Table Byte} {xs : List α} {e : OutEl}
    (h : e ∈ s.planSeq f t xs) : ∃ t' x, x ∈ xs ∧ e = f t' x := by
  induction xs generalizing t with
  | nil => cases h
  | cons x xs ih =>
    rw [State.planSeq] at h
    rcases List.mem_cons.mp h with rfl | h
    · exact ⟨t, x, List.mem_cons_self, rfl⟩
    · obtain ⟨t', y, hy, he⟩ := ih h
      exact ⟨t', y, List.mem_cons_of_mem _ hy, he⟩

/-- An output element that writes one code at one place. -/
def OutEl.gives (e : OutEl) (w : PktWrite) : Prop := e.wrs = .ok [w.1] ∧ e.val = .ok [w.2]

/-- Elements each of which stays as it is while only places of the plan are written before it: `h` picks the elements of the plan
among the indices in `L`, and `v` names what each writes. -/
theorem State.planSeq_gives {α ι : Type} {f : Table Byte → α → OutEl} {L : List ι} {h : ι → Option α} {v : ι → Option PktWrite}
    {P : Nat → Prop} (hnone : ∀ j ∈ L, h j = none → v j = none)
    (hsome : ∀ j ∈ L, ∀ x, h j = some x → ∃ w, v j = some w ∧ soundWrite w ∧ (∀ a ∈ w.1.1.keys, P a) ∧
      ∀ t, (∀ y ∈ t, P y.1) → (f t x).gives w) {t : Table Byte} (ht : ∀ y ∈ t, P y.1) :
    List.Forall₂ OutEl.gives (s.planSeq f t (L.filterMap h)) (L.filterMap v) := by
  induction L generalizing t with
  | nil => exact .nil
  | cons j L ih =>
    obtain ⟨hnj, hnone⟩ := List.forall_mem_cons.mp hnone
    obtain ⟨hsj, hsome⟩ := List.forall_mem_cons.mp hsome
    cases hj : h j with
    | none =>
      rw [List.filterMap_cons_none hj, List.filterMap_cons_none (hnj hj)]
      exact ih hnone hsome ht
    | some x =>
      obtain ⟨w, hw, hsound, hP, hgives⟩ := hsj x hj
      have hx := hgives t ht
      rw [List.filterMap_cons_some hj, List.filterMap_cons_some hw, State.planSeq]
      refine .cons hx (ih hnone hsome ?_)
      rw [hx.1, hx.2]
      exact State.elPut_keys ht fun y hy => by
        obtain rfl := List.mem_singleton.mp hy
        exact ⟨hsound, hP⟩

/-- Elements formed on their own. -/
theorem gives_map {α : Type} {L : List α} {e : α → OutEl} {w : α → PktWrite} (h : ∀ x ∈ L, (e x).gives (w x)) :
    List.Forall₂ OutEl.gives (L.map e) (L.map w) := by
  induction L with
  | nil => exact .nil
  | cons x L ih =>
    obtain ⟨hx, h⟩ := List.forall_mem_cons.mp h
    exact .cons hx (ih h)

/-- The same at places that are all there. -/
theorem gives_placed {n : Nat} {W : Nat → Option (Spot × Nat)} {c : Nat → Nat} {e : Nat → OutEl}
    (h : ∀ j, j < n → ∃ y, W j = some y ∧ (e j).gives (placed y (c j))) :
    List.Forall₂ OutEl.gives ((List.range n).map e) (placedWrites n W c) := by
  have hplaced : placedWrites n W c =
      (List.range n).map fun j => placed ((W j).getD ({ p := 0, keys := [], half := 0 }, 0)) (c j) := by
    rw [placedWrites, ← List.filterMap_eq_map']
    refine List.filterMap_congr fun j hj => ?_
    obtain ⟨y, hy, -⟩ := h j (List.mem_range.mp hj)
    rw [hy]
    rfl
  rw [hplaced]
  refine gives_map fun j hj => ?_
  obtain ⟨y, hy, hg⟩ := h j (List.mem_range.mp hj)
  rw [hy]
  exact hg

/-! ### What a fresh packet writes -/

theorem Pkt.latched_fresh (hv : k.vals = []) (i : Nat) : k.latched i = none := by
  rw [Pkt.latched, hv]
  rfl

theorem Pkt.writes_fresh (hv : k.vals = []) (els : List OutEl) : k.writes els = els.flatMap (·.writes none) := by
  have hfst : els.zipIdx.map Prod.fst = els := List.zipIdx_map_fst ..
  simp only [Pkt.writes, Pkt.latched_fresh hv]
  conv_rhs => rw [← hfst, List.flatMap_map]

theorem Pkt.unstopped_fresh (hv : k.vals = []) {els : List OutEl} (h : ∀ e ∈ els, ∃ ws, e.final none = .ok ws) :
    k.unstopped els := by
  intro e he
  rw [Pkt.latched_fresh hv]
  exact h e.1 (List.fst_mem_of_mem_zipIdx he)

theorem OutEl.gives.final {e : OutEl} {w : PktWrite} (h : e.gives w) : e.final none = .ok [w] := by
  rw [OutEl.final, h.1, h.2]
  rfl

theorem OutEl.writes_of_final {e : OutEl} {latched : Option (List Nat)} {ws : List PktWrite} (h : e.final latched = .ok ws) :
    e.writes latched = ws := by rw [OutEl.writes, h]

theorem flatMap_writes_of_gives {els : List OutEl} {ws : List PktWrite} (h : List.Forall₂ OutEl.gives els ws) :
    els.flatMap (·.writes none) = ws := by
  induction h with
  | nil => rfl
  | cons hew _ ih => rw [List.flatMap_cons, ih, OutEl.writes_of_final hew.final]; rfl

theorem final_of_gives {els : List OutEl} {ws : List PktWrite} (h : List.Forall₂ OutEl.gives els ws) :
    ∀ e ∈ els, ∃ ws, e.final none = .ok ws := by
  induction h with
  | nil => exact fun e he => by cases he
  | cons hew _ ih => exact List.forall_mem_cons.mpr ⟨⟨_, hew.final⟩, ih⟩

/-- A fresh packet whose elements each write one code at its place. -/
theorem outputs_of_gives {i : Instr} {els : List OutEl} {fin : Status} {n : Nat} {W : Nat → Option (Spot × Nat)} {c : Nat → Nat}
    {read : List Nat} (hi : exec i s = .next (s.carry k els fin)) (hsound : ∀ e ∈ els, e.sound) (hv : k.vals = [])
    (hg : List.Forall₂ OutEl.gives els (placedWrites n W c)) (hap : apart k n W read s) : outputs i k fin n W c s := by
  refine outputs_of_writes hi hsound (Pkt.unstopped_fresh hv (final_of_gives hg)) hap ?_
  rw [Pkt.writes_fresh hv, flatMap_writes_of_gives hg]

/-! ### Codes over bytes that the packet has written elsewhere -/

theorem Table.find_eq_none_of {α : Type} {t : Table α} {a : Nat} (h : ∀ y ∈ t, y.1 ≠ a) : t.find a = none :=
  Option.eq_none_iff_forall_ne_some.mpr fun x hx => h (a, x) (Table.mem_of_find hx) rfl

theorem State.codeOver_elsewhere {t : Table Byte} {bits : Nat} {x y : Spot} (hk : x.keys = y.keys) (hh : x.half = y.half)
    (h : ∀ z ∈ t, ∀ a ∈ x.keys, z.1 ≠ a) : s.codeOver t bits x = s.spotCode bits (some y) := by
  have hget : x.keys.map (fun a => (t.find a).getD (memGet s.mem a)) = x.keys.map (memGet s.mem) :=
    List.map_congr_left fun a ha => by
      rw [Table.find_eq_none_of fun z hz => h z hz a ha]
      rfl
  rw [State.codeOver, hget, hk, hh]
  rfl

/-! ### Runs -/

theorem State.runPacket_eq {q : PktId} {ty : Nat} (h : s.runnable q ty = some k) (f : Pkt → List OutEl × Status) :
    s.runPacket q ty f = s.carry k (f k).1 (f k).2 := by
  rw [State.runPacket, h]

theorem exec_cred {q : PktId} (h : s.runnable q tCRED = some k) (hv : ∀ v ∈ k.vals, v.isSome = true) :
    exec (.cred q) s = .next (s.carry k (s.credPlan k) (cOK, 0)) := by
  have hl : s.latchMates k = s := by rw [State.latchMates, if_pos (List.all_eq_true.mpr hv)]
  have he : exec (.cred q) s = execCred q s := rfl
  rw [he, execCred, h]
  dsimp only
  rw [hl]

theorem exec_cgath {q : PktId} (h : s.runnable q tCGATH = some k) (hv : ∀ v ∈ k.vals, v.isSome = true) :
    exec (.cgath q) s = .next (s.carry k (s.gathPlan k) (cOK, 0)) := by
  have hl : s.latchMates k = s := by rw [State.latchMates, if_pos (List.all_eq_true.mpr hv)]
  have he : exec (.cgath q) s = execCgath q s := rfl
  rw [he, execCgath, h]
  dsimp only
  rw [hl]

/-! ### Soundness of the plans -/

theorem copyPlan_sound : ∀ e ∈ s.copyPlan k, e.sound := by
  intro e he
  obtain ⟨t, j, -, rfl⟩ := State.mem_planSeq he
  exact State.byteOut_sound _ _ _ _

theorem copy4dPlan_sound : ∀ e ∈ s.copy4dPlan k, e.sound := by
  intro e he
  obtain ⟨t, x, hx, rfl⟩ := State.mem_planSeq he
  obtain ⟨y, -, hy⟩ := List.mem_filterMap.mp hx
  intro ws hws
  refine State.elWrite_sound ?_ hws
  split at hy
  next hp =>
    cases hy
    unfold pairPlaces at hp
    split at hp
    · cases hp
    · cases hp
    next hloc =>
      cases hp
      exact Rec.half_of_locate hloc
  next => cases hy

theorem gatherPlan_sound : ∀ e ∈ (s.gatherPlan k).1, e.sound := by
  intro e he
  unfold State.gatherPlan at he
  extract_lets src dst rows unread outside ikeys els at he
  split at he
  · obtain rfl := List.mem_singleton.mp he
    exact OutEl.sound_of_nil rfl
  · split at he
    · obtain rfl := List.mem_singleton.mp he
      exact OutEl.sound_of_nil rfl
    · obtain ⟨t, x, hx, rfl⟩ := State.mem_planSeq he
      obtain ⟨r, -, hx⟩ := List.mem_flatMap.mp hx
      obtain ⟨i0, -, hx⟩ := List.mem_filterMap.mp hx
      intro ws hws
      refine State.elWrite_sound ?_ hws
      split at hx
      next hloc =>
        cases hx
        exact Rec.half_of_locate hloc
      next => cases hx

theorem gridPlan_sound : ∀ e ∈ s.gridPlan k, e.sound := by
  intro e he
  obtain ⟨x, -, rfl⟩ := List.mem_map.mp he
  exact fun ws hws => State.elWrite_sound (halfOk_zero _) hws

theorem bytesOut_sound {f : Rec} {bs : List Byte} {reads : List Nat} : ∀ e ∈ s.bytesOut k f bs reads, e.sound := by
  intro e he
  obtain ⟨x, -, rfl⟩ := List.mem_map.mp he
  exact State.byteOut_sound _ _ _ _

theorem overrunOut_sound {f : Rec} {reads : List Nat} : ∀ e ∈ s.overrunOut k f reads, e.sound := by
  intro e he
  obtain ⟨x, -, rfl⟩ := List.mem_map.mp he
  exact State.byteOut_sound _ _ _ _

theorem ebzPlan_sound : ∀ e ∈ (s.ebzPlan k).1, e.sound := by
  intro e he
  unfold State.ebzPlan at he
  dsimp only at he
  split at he
  · obtain rfl := List.mem_singleton.mp he
    exact OutEl.sound_of_nil rfl
  · split at he
    · exact overrunOut_sound e he
    · split at he
      · exact bytesOut_sound e he
      · exact overrunOut_sound e he

theorem ebxPlan_sound : ∀ e ∈ (s.ebxPlan k).1, e.sound := by
  intro e he
  unfold State.ebxPlan at he
  dsimp only at he
  split at he
  · obtain rfl := List.mem_singleton.mp he
    exact OutEl.sound_of_nil rfl
  · split at he
    · obtain rfl := List.mem_singleton.mp he
      exact OutEl.sound_of_nil rfl
    · have hels {codes rs : List Nat} {e : OutEl}
          (he : e ∈ ({ size := 0, wrs := .ok [], val := .ok [], reads := rs } : OutEl) :: codes.zipIdx.map fun v =>
            { size := (k.op 1).bits, wrs := s.elWrite k (k.op 1) (((v.2 * (k.op 1).bytes : Nat) : Int), 0), val := .ok [v.1] }) :
          e.sound := by
        rcases List.mem_cons.mp he with rfl | he
        · exact OutEl.sound_of_nil rfl
        · obtain ⟨x, -, rfl⟩ := List.mem_map.mp he
          exact fun ws hws => State.elWrite_sound (halfOk_zero _) hws
      split at he
      · exact hels he
      · exact hels he
      · rcases List.mem_append.mp he with he | he
        · exact hels he
        · obtain rfl := List.mem_singleton.mp he
          exact OutEl.sound_of_nil rfl

theorem credPlan_sound : ∀ e ∈ s.credPlan k, e.sound := by
  intro e he
  obtain ⟨x, -, rfl⟩ := List.mem_map.mp he
  intro ws hws
  dsimp only at hws
  split at hws
  · split at hws
    next ha hb =>
      cases hws
      exact List.forall_mem_append.mpr
        ⟨State.elWrite_sound (Rec.halfOk_nth _ _) ha, State.elWrite_sound (Rec.halfOk_nth _ _) hb⟩
    next => cases hws
    next => cases hws
  · exact State.elWrite_sound (Rec.halfOk_nth _ _) hws

theorem gathPlan_sound : ∀ e ∈ s.gathPlan k, e.sound := by
  intro e he
  obtain ⟨x, -, rfl⟩ := List.mem_map.mp he
  exact State.byteOut_sound _ _ _ _

end

end Sys2Proof.Machine
end

section
/-! SUPPORT. The orders in which packets name their elements (09 R287-R291): nested loops as one count. -/

namespace Sys2Proof.Machine

open Sys2Proof.Safety

/-! ### Nested loops -/

/-- For each of some things, what n numbers pick: number j / n of the things and number j % n. -/
theorem flatMap_filterMap_range {α β : Type} (xs : List α) (d : α) (n : Nat) (g : α → Nat → Option β) :
    (xs.flatMap fun x => (List.range n).filterMap (g x)) =
      (List.range (xs.length * n)).filterMap fun j => g (xs.getD (j / n) d) (j % n) := by
  induction xs with
  | nil => simp
  | cons x xs ih =>
    rcases Nat.eq_zero_or_pos n with rfl | hn
    · simp
    have hlen : (x :: xs).length * n = n + xs.length * n := by rw [List.length_cons, Nat.succ_mul, Nat.add_comm]
    rw [List.flatMap_cons, ih, hlen, List.range_add, List.filterMap_append, List.filterMap_map]
    congr 1
    · refine List.filterMap_congr fun j hj => ?_
      have hlt := List.mem_range.mp hj
      rw [Nat.div_eq_of_lt hlt, Nat.mod_eq_of_lt hlt, List.getD_cons_zero]
    · refine List.filterMap_congr fun j _ => ?_
      rw [Function.comp_apply, Nat.add_div_left _ hn, Nat.add_mod_left, List.getD_cons_succ]

theorem flatMap_map_range {α β : Type} (xs : List α) (d : α) (n : Nat) (g : α → Nat → β) :
    (xs.flatMap fun x => (List.range n).map (g x)) = (List.range (xs.length * n)).map fun j => g (xs.getD (j / n) d) (j % n) := by
  have h := flatMap_filterMap_range xs d n fun x j => some (g x j)
  simpa only [List.filterMap_eq_map'] using h

/-- Two loops. -/
theorem range_flatMap_filterMap_range {β : Type} (m n : Nat) (g : Nat → Nat → Option β) :
    ((List.range m).flatMap fun i => (List.range n).filterMap (g i)) =
      (List.range (m * n)).filterMap fun j => g (j / n) (j % n) := by
  rw [flatMap_filterMap_range _ 0, List.length_range]
  refine List.filterMap_congr fun j hj => ?_
  have hlt : j / n < m := Nat.div_lt_of_lt_mul (Nat.mul_comm m n ▸ List.mem_range.mp hj)
  rw [List.getD_eq_getElem _ _ (by rwa [List.length_range]), List.getElem_range]

theorem range_flatMap_map_range {β : Type} (m n : Nat) (g : Nat → Nat → β) :
    ((List.range m).flatMap fun i => (List.range n).map (g i)) = (List.range (m * n)).map fun j => g (j / n) (j % n) := by
  have h := range_flatMap_filterMap_range m n fun i j => some (g i j)
  simpa only [List.filterMap_eq_map'] using h

/-- A box of indices, dimension 0 fastest. -/
theorem boxIdx_eq (x0 x1 x2 : Int) (n0 n1 n2 : Nat) :
    boxIdx x0 x1 x2 n0 n1 n2 = (List.range (n0 * n1 * n2)).map fun j =>
      (x0 + ((j % n0 : Nat) : Int), x1 + ((j / n0 % n1 : Nat) : Int), x2 + ((j / n0 / n1 : Nat) : Int)) := by
  have hinner (k2 : Nat) : ((List.range n1).flatMap fun k1 : Nat => (List.range n0).map fun k0 : Nat =>
      (x0 + (k0 : Int), x1 + (k1 : Int), x2 + (k2 : Int))) = (List.range (n1 * n0)).map fun j : Nat =>
        (x0 + ((j % n0 : Nat) : Int), x1 + ((j / n0 : Nat) : Int), x2 + (k2 : Int)) :=
    range_flatMap_map_range n1 n0 fun k1 k0 => (x0 + (k0 : Int), x1 + (k1 : Int), x2 + (k2 : Int))
  simp only [boxIdx, hinner]
  rw [range_flatMap_map_range, Nat.mul_comm n2, Nat.mul_comm n1]
  refine List.map_congr_left fun j _ => ?_
  rw [Nat.mul_comm n0, Nat.mod_mul_left_mod, Nat.mod_mul_left_div_self, Nat.mul_comm n1, ← Nat.div_div_eq_div_mul]

/-- Index j of a box in four dimensions, the last stepping the third index. -/
def stepIdx (x0 x1 x2 st : Int) (n0 n1 n2 j : Nat) : Int × Int × Int :=
  (x0 + ((j % n0 : Nat) : Int), x1 + ((j / n0 % n1 : Nat) : Int),
    x2 + ((j / n0 / n1 % n2 : Nat) : Int) + ((j / n0 / n1 / n2 : Nat) : Int) * st)

theorem zip_map_same {α β γ : Type} (f : α → β) (g : α → γ) (xs : List α) :
    (xs.map f).zip (xs.map g) = xs.map fun x => (f x, g x) := by
  induction xs with
  | nil => rfl
  | cons x xs ih => rw [List.map_cons, List.map_cons, List.zip_cons_cons, ih, List.map_cons]

theorem boxes_eq (x0 x1 x2 sx y0 y1 y2 sy : Int) (n0 n1 n2 n3 : Nat) :
    ((List.range n3).flatMap fun t : Nat => (boxIdx x0 x1 (x2 + t * sx) n0 n1 n2).zip (boxIdx y0 y1 (y2 + t * sy) n0 n1 n2)) =
      (List.range (n0 * n1 * n2 * n3)).map fun j => (stepIdx x0 x1 x2 sx n0 n1 n2 j, stepIdx y0 y1 y2 sy n0 n1 n2 j) := by
  simp only [boxIdx_eq, zip_map_same]
  rw [range_flatMap_map_range, Nat.mul_comm n3]
  refine List.map_congr_left fun j _ => ?_
  have h0 : j % (n0 * n1 * n2) % n0 = j % n0 := by rw [Nat.mul_assoc, Nat.mod_mul_right_mod]
  have hdiv : j % (n0 * n1 * n2) / n0 = j / n0 % (n1 * n2) := by rw [Nat.mul_assoc, Nat.mod_mul_right_div_self]
  have h1 : j % (n0 * n1 * n2) / n0 % n1 = j / n0 % n1 := by rw [hdiv, Nat.mod_mul_right_mod]
  have h2 : j % (n0 * n1 * n2) / n0 / n1 = j / n0 / n1 % n2 := by rw [hdiv, Nat.mod_mul_right_div_self]
  have h3 : j / (n0 * n1 * n2) = j / n0 / n1 / n2 := by rw [Nat.div_div_eq_div_mul, Nat.div_div_eq_div_mul, Nat.mul_assoc]
  have hadd (a b c : Int) : a + b + c = a + c + b := by omega
  rw [stepIdx, stepIdx, h0, h1, h2, h3, hadd x2, hadd y2]

/-! ### Numbered and filtered lists -/

theorem flatMap_filter_eq {α β : Type} (p : α → Bool) (g : α → List β) (xs : List α) :
    (xs.filter p).flatMap g = xs.flatMap fun x => if p x then g x else [] := by
  induction xs with
  | nil => rfl
  | cons x xs ih => cases hx : p x <;> simp [hx, ih]

theorem zipIdx_map_range {β : Type} (n : Nat) (g : Nat → β) :
    ((List.range n).map g).zipIdx = (List.range n).map fun j => (g j, j) :=
  List.ext_getElem (by simp) fun i _ _ => by simp

/-! ### Fields -/

theorem sextNat_eq_toInt {n : Nat} (hn : 0 < n) (v : Nat) : sextNat n v = (BitVec.ofNat n v).toInt := by
  obtain ⟨m, rfl⟩ := Nat.exists_eq_succ_of_ne_zero hn.ne'
  have hpow : 2 ^ (m + 1) = 2 * 2 ^ m := by rw [Nat.pow_succ, Nat.mul_comm]
  rw [sextNat, BitVec.toInt_eq_toNat_cond, BitVec.toNat_ofNat]
  rw [if_neg (Nat.succ_ne_zero m), Nat.succ_sub_one]
  split <;> split <;> omega

theorem wf_one (w : Word) (i : Nat) : wf w i 1 = if w.getLsbD i then 1 else 0 := by
  have h : w.getLsbD i = decide (w.toNat / 2 ^ i % 2 = 1) := Nat.testBit_eq_decide_div_mod_eq
  have := Nat.mod_two_eq_zero_or_one (w.toNat / 2 ^ i)
  rw [h, wf, field, pow_one]
  split
  next ht => exact of_decide_eq_true ht
  next hf =>
    have := of_decide_eq_false (Bool.not_eq_true _ ▸ hf)
    omega

end Sys2Proof.Machine
end

section
/-! SUPPORT. COPY, FILL, BCAST, COPY4D and GATHER (09 R287-R290). -/

namespace Sys2Proof.Machine

open Sys2Proof.Safety

/-! ### Bytes -/

/-- A byte written at a key. -/
def byteWrite (a c : Nat) : PktWrite := (({ p := 0, keys := [a], half := 0 }, 8), c)

theorem soundWrite_byteWrite (a c : Nat) : soundWrite (byteWrite a c) := by
  have hfits : Spot.fits 8 { p := 0, keys := [a], half := 0 } := ⟨rfl, nofun⟩
  have hbits : elemBits 8 := .inr ⟨by decide, by decide⟩
  exact ⟨hfits, hbits⟩

theorem placedWrites_bytes (n : Nat) (into c : Nat → Nat) :
    placedWrites n (byteSpot into) c = (List.range n).map fun j => byteWrite (into j) (c j) :=
  congrFun List.filterMap_eq_map' _

section
variable {s : State} {k : Pkt}

theorem byteOut_gives {base : Word} {d : Int} {a c : Nat} {reads : List Nat}
    (h : s.pinKeys (s.pktPart k) k.pins base d 1 = .ok [a]) : (s.byteOut k base d (.ok [c]) reads).gives (byteWrite a c) := by
  rw [State.byteOut, h]
  exact ⟨rfl, rfl⟩

/-- Bytes written in order at a distance from a record's BASE, none of them read. -/
theorem bytes_give {f : Rec} {d : Int} {n : Nat} {into c : Nat → Nat} {val : Nat → Except Fail (List Nat)}
    {reads : Nat → List Nat} (hw : ∀ j, j < n → writable k f (d + j) 1 [into j] s) (hval : ∀ j, j < n → val j = .ok [c j]) :
    List.Forall₂ OutEl.gives
      ((List.range n).map fun j : Nat => s.byteOut k f.base ((offset f.base : Int) + d + j) (val j) (reads j))
      (placedWrites n (byteSpot into) c) := by
  rw [placedWrites_bytes]
  refine gives_map fun j hj => ?_
  have hlt := List.mem_range.mp hj
  rw [hval j hlt]
  refine byteOut_gives ?_
  rw [Int.add_assoc]
  exact hw j hlt

/-! ### COPY and FILL -/

theorem copy_outputs {q : PktId} (hmay : s.runnable q tCOPY = some k) (hv : k.vals = []) {from' into : Nat → Nat}
    (hr : ∀ j, j < wf k.c.w4 0 40 → readable k (k.op 0) ((wf k.c.w2 0 48 : Int) + j) 1 [from' j] s)
    (hw : ∀ j, j < wf k.c.w4 0 40 → writable k (k.op 1) ((wf k.c.w3 0 48 : Int) + j) 1 [into j] s)
    (hap : apart k (wf k.c.w4 0 40) (byteSpot into) ((List.range (wf k.c.w4 0 40)).map from') s) :
    outputs (.copy q) k (cOK, 0) (wf k.c.w4 0 40) (byteSpot into) (fun j => (memGet s.mem (from' j)).toNat) s := by
  refine outputs_of_gives (congrArg _ (State.runPacket_eq hmay _)) copyPlan_sound hv ?_ hap
  obtain ⟨-, -, -, -, hW⟩ := hap
  have hfree (j i : Nat) (hj : j < wf k.c.w4 0 40) (hi : i < wf k.c.w4 0 40) : into i ≠ from' j := by
    obtain ⟨-, -, hread, -⟩ := hW i _ hi rfl
    exact fun h => (hread (into i) List.mem_cons_self).1 (h ▸ List.mem_map_of_mem (List.mem_range.mpr hj))
  have hgives := State.planSeq_gives (s := s) (L := List.range (wf k.c.w4 0 40)) (h := some)
    (v := fun j => some (byteWrite (into j) (memGet s.mem (from' j)).toNat))
    (P := fun a => ∃ i, i < wf k.c.w4 0 40 ∧ a = into i)
    (f := fun t (i : Nat) =>
      let rd := s.pktRead (s.pktPart k) k (k.op 0).base ((offset (k.op 0).base : Int) + (wf k.c.w2 0 48 : Int) + i) 1
      let val := rd.map fun ks => ks.map fun a => match t.find a with
        | some b => if s.choice i then b.toNat else (memGet s.mem a).toNat
        | none => (memGet s.mem a).toNat
      s.byteOut k (k.op 1).base ((offset (k.op 1).base : Int) + (wf k.c.w3 0 48 : Int) + i) val (rd.toOption.getD []))
    (fun _ _ h => by cases h) (fun j hj x hx => ?_) (t := []) fun _ h => by cases h
  · rw [List.filterMap_some] at hgives
    exact hgives
  · cases hx
    have hlt := List.mem_range.mp hj
    refine ⟨_, rfl, soundWrite_byteWrite .., fun a ha => ⟨j, hlt, List.mem_singleton.mp ha⟩, fun t ht => ?_⟩
    have hrd : s.pktRead (s.pktPart k) k (k.op 0).base ((offset (k.op 0).base : Int) + (wf k.c.w2 0 48 : Int) + j) 1 =
        .ok [from' j] := by
      rw [Int.add_assoc]
      exact hr j hlt
    have hnone : t.find (from' j) = none := Table.find_eq_none_of fun y hy h => by
      obtain ⟨i, hi, hyi⟩ := ht y hy
      exact hfree j i hlt hi (hyi.symm.trans h)
    dsimp only
    rw [hrd]
    simp only [Except.map, List.map_cons, List.map_nil, hnone]
    refine byteOut_gives ?_
    rw [Int.add_assoc]
    exact hw j hlt

theorem fill_outputs {q : PktId} (hmay : s.runnable q tFILL = some k) (hv : k.vals = []) {into : Nat → Nat}
    (hw : ∀ j, j < wf k.c.w4 0 40 → writable k (k.op 0) ((wf k.c.w2 0 48 : Int) + j) 1 [into j] s)
    (hap : apart k (wf k.c.w4 0 40) (byteSpot into) [] s) :
    outputs (.fill q) k (cOK, 0) (wf k.c.w4 0 40) (byteSpot into)
      (fun j => (k.c.w3.extractLsb' (8 * (j % 8)) 8).toNat) s := by
  refine outputs_of_gives (congrArg _ (State.runPacket_eq hmay _)) ?_ hv (bytes_give hw fun j _ => ?_) hap
  · exact List.forall_mem_map.mpr fun j _ => State.byteOut_sound _ _ _ _
  · rw [BitVec.extractLsb'_toNat, Nat.shiftRight_eq_div_pow]
    rfl

/-! ### BCAST -/

theorem bcastTargets_eq (c : Packet) (dst : Rec) :
    bcastTargets c dst = (List.range 8).flatMap fun row => (List.range 16).filterMap fun cell =>
      if c.w3.getLsbD (16 + row) && c.w3.getLsbD cell then
        some (towerKey (128 * (owner dst.base / 128) + 16 * row + owner dst.base % 16) (2 ^ 22 * cell + bcastAt dst))
      else none := by
  rw [bcastTargets, bcastRanks, List.flatMap_map, flatMap_filter_eq]
  refine List.flatMap_congr fun row _ => ?_
  rw [wf_one, Nat.mul_comm (owner dst.base / 128)]
  cases hrow : c.w3.getLsbD (16 + row) with
  | false => simp
  | true =>
    simp only [if_true, beq_self_eq_true, Bool.true_and]
    refine List.filterMap_congr fun cell _ => ?_
    rw [wf_one]
    cases c.w3.getLsbD cell <;> rfl

theorem getD_zipIdx_fst {α : Type} (xs : List α) (i : Nat) (d : α) : (xs.zipIdx.getD i (d, 0)).1 = xs.getD i d := by
  rw [List.getD_eq_getElem?_getD, List.getD_eq_getElem?_getD, List.getElem?_zipIdx]
  cases xs[i]? <;> rfl

theorem bcast_outputs {q : PktId} (hmay : s.runnable q tBCAST = some k) (hv : k.vals = []) {from' : Nat → Nat} {n : Nat}
    (hn : n = wf k.c.w4 0 22) {cellsOf : List Nat} (hcells : cellsOf = bcastTargets k.c (k.op 1))
    (hr : ∀ j, j < n → readable k (k.op 0) ((wf k.c.w2 0 48 : Int) + j) 1 [from' j] s)
    (hap : apart k (cellsOf.length * n) (byteSpot fun j => cellsOf.getD (j / n) 0 + j % n) ((List.range n).map from') s) :
    outputs (.bcast q) k (cOK, 0) (cellsOf.length * n) (byteSpot fun j => cellsOf.getD (j / n) 0 + j % n)
      (fun j => (memGet s.mem (from' (j % n))).toNat) s := by
  refine outputs_of_gives (congrArg _ (State.runPacket_eq hmay _)) ?_ hv ?_ hap
  · intro e he
    obtain ⟨t, -, he⟩ := List.mem_flatMap.mp he
    obtain ⟨x, -, rfl⟩ := List.mem_map.mp he
    intro ws hws
    cases hws
    exact List.forall_mem_singleton.mpr (soundWrite_byteWrite _ 0)
  · dsimp only
    simp only [List.map_map]
    rw [flatMap_map_range _ (0, 0), List.length_zipIdx, ← hcells, ← hn, placedWrites_bytes]
    refine gives_map fun j hj => ?_
    have hlt := List.mem_range.mp hj
    have hpos : 0 < n := Nat.pos_of_ne_zero fun h => by rw [h, Nat.mul_zero] at hlt; cases hlt
    have hrd : s.pktRead (s.pktPart k) k (k.op 0).base
        ((offset (k.op 0).base : Int) + (wf k.c.w2 0 48 : Int) + ((j % n : Nat) : Int)) 1 = .ok [from' (j % n)] := by
      rw [Int.add_assoc]
      exact hr _ (Nat.mod_lt _ hpos)
    simp only [Function.comp_apply, hrd]
    rw [getD_zipIdx_fst]
    exact ⟨rfl, rfl⟩

/-! ### COPY4D -/

theorem boxPairs_eq (c : Packet) :
    boxPairs c =
      let at' := fun (w : Word) i => (BitVec.ofNat 16 (wf w (16 * i) 16)).toInt
      let ext := fun i => wf c.w4 (16 * i) 16
      (List.range (ext 0 * ext 1 * ext 2 * ext 3)).map fun j =>
        (stepIdx (at' c.w2 0) (at' c.w2 1) (at' c.w2 2) (at' c.w2 3) (ext 0) (ext 1) (ext 2) j,
          stepIdx (at' c.w3 0) (at' c.w3 1) (at' c.w3 2) (at' c.w3 3) (ext 0) (ext 1) (ext 2) j) := by
  simp only [← sextNat_eq_toInt (n := 16) (by decide)]
  exact boxes_eq ..

theorem readsAt_locate {f : Rec} {x : Int × Int × Int} {p : Option Spot} (h : readsAt k f x p s) :
    ∃ d, f.locate false x.1 x.2.1 x.2.2 = .ok (p.map fun y => (d, y.half)) ∧
      ∀ y, p = some y → readable k f d f.bytes y.keys s := by
  cases p with
  | none => exact ⟨0, h, nofun⟩
  | some y =>
    obtain ⟨d, hloc, hrd⟩ := h
    exact ⟨d, hloc, fun z hz => by cases hz; exact hrd⟩

/-- The keys read at the places R. -/
theorem mem_keysOf {n : Nat} {R : Nat → Option Spot} {a j : Nat} {y : Spot} (hj : j < n) (hR : R j = some y) (ha : a ∈ y.keys) :
    a ∈ (List.range n).flatMap fun j => ((R j).map (·.keys)).getD [] :=
  List.mem_flatMap.mpr ⟨j, List.mem_range.mpr hj, by rw [hR]; exact ha⟩

/-- The code that a plan forms at a place outside the bytes it writes. -/
theorem codeOver_apart {n : Nat} {W : Nat → Option (Spot × Nat)} {read : List Nat} (hap : apart k n W read s) {t : Table Byte}
    (ht : ∀ y ∈ t, ∃ j y', j < n ∧ W j = some y' ∧ y.1 ∈ y'.1.keys) {bits : Nat} {x y : Spot} (hk : x.keys = y.keys)
    (hh : x.half = y.half) (hread : ∀ a ∈ y.keys, a ∈ read) : s.codeOver t bits x = s.spotCode bits (some y) := by
  obtain ⟨-, -, -, -, hW⟩ := hap
  refine State.codeOver_elsewhere hk hh fun z hz a ha h => ?_
  obtain ⟨j, y', hj, hy, hmem⟩ := ht z hz
  exact ((hW j y' hj hy).2.2.1 _ hmem).1 (h ▸ hread a (hk ▸ ha))

theorem soundWrite_placed {f : Rec} {d : Int} {y : Spot × Nat} {c : Nat} (h : writable k f d f.bytes y.1.keys s)
    (hh : halfOk f y.1.half) (hb : y.2 = f.bits) : soundWrite (placed y c) := by
  have hlen := State.length_pinKeys h
  refine ⟨⟨?_, fun h4 => hh (hb ▸ h4)⟩, ?_⟩
  · change y.1.keys.length = max 1 (y.2 / 8)
    rw [hb]
    exact hlen
  · change elemBits y.2
    rw [hb]
    exact f.bits_elemBits

theorem copy4d_outputs {q : PktId} (hmay : s.runnable q tCOPY4D = some k) (hv : k.vals = []) {n : Nat}
    {X Y : Nat → Int × Int × Int} (hpairs : boxPairs k.c = (List.range n).map fun j => (X j, Y j)) {R : Nat → Option Spot}
    {W : Nat → Option (Spot × Nat)} {read : List Nat} (hread : ∀ j y, j < n → R j = some y → ∀ a ∈ y.keys, a ∈ read)
    (hRW : ∀ j, j < n → readsAt k (k.op 0) (X j) (R j) s ∧ writesAt k (k.op 1) (Y j) (W j) s) (hap : apart k n W read s) :
    outputs (.copy4d q) k (cOK, 0) n W
      (fun j => convCode (k.op 0).fmt (k.op 1).fmt k.c.rnd (s.spotCode (k.op 0).bits (R j))) s := by
  refine outputs_of_gives (congrArg _ (State.runPacket_eq hmay _)) copy4dPlan_sound hv ?_ hap
  unfold State.copy4dPlan
  dsimp only
  rw [hpairs, List.filterMap_map]
  refine State.planSeq_gives (P := fun a => ∃ j y, j < n ∧ W j = some y ∧ a ∈ y.1.keys) (fun j hj hnone => ?_)
    (fun j hj x hx => ?_) fun _ h => by cases h
  all_goals
    have hlt := List.mem_range.mp hj
    obtain ⟨hR, hW⟩ := hRW j hlt
    obtain ⟨d, hloc, hrd⟩ := readsAt_locate hR
  · cases hWj : W j with
    | none => rfl
    | some y =>
      rw [hWj] at hW
      obtain ⟨e, hlocW, -, -⟩ := hW
      simp only [Function.comp_apply, pairPlaces, hloc, hlocW] at hnone
      cases hnone
  · cases hWj : W j with
    | none =>
      rw [hWj] at hW
      have hlocW : (k.op 1).locate true (Y j).1 (Y j).2.1 (Y j).2.2 = .ok none := hW
      simp only [Function.comp_apply, pairPlaces, hloc, hlocW] at hx
      cases hx
    | some y =>
      rw [hWj] at hW
      obtain ⟨e, hlocW, hwr, hbits⟩ := hW
      simp only [Function.comp_apply, pairPlaces, hloc, hlocW] at hx
      cases hx
      refine ⟨_, rfl, soundWrite_placed hwr (Rec.half_of_locate hlocW) hbits, fun a ha => ⟨j, y, hlt, hWj, ha⟩,
        fun t ht => ?_⟩
      cases hRj : R j with
      | none =>
        refine ⟨?_, by simp only [hRj]; rfl⟩
        change s.elWrite k (k.op 1) (e, y.1.half) = _
        rw [State.elWrite_ok hwr, ← hbits]
        rfl
      | some z =>
        have hcode := codeOver_apart hap ht (bits := (k.op 0).bits) (x := { p := 0, keys := z.keys, half := z.half })
          (y := z) rfl rfl
          (hread j z hlt hRj)
        simp only [Option.map_some, State.elRead_ok (hrd z hRj), State.elWrite_ok hwr, hcode, ← hbits]
        exact ⟨rfl, by simp only [hRj]; rfl⟩

/-! ### GATHER -/

/-- A packet that ends without a write. -/
theorem outputs_of_nil {i : Instr} {els : List OutEl} {fin : Status} {W : Nat → Option (Spot × Nat)} {c : Nat → Nat}
    {read : List Nat} (hi : exec i s = .next (s.carry k els fin)) (hv : k.vals = []) (hap : apart k 0 W read s)
    (hels : ∀ e ∈ els, e.wrs = .ok [] ∧ e.val = .ok []) : outputs i k fin 0 W c s := by
  have hfinal : ∀ e ∈ els, e.final none = .ok [] := fun e he => by
    rw [OutEl.final, (hels e he).1, (hels e he).2]
    rfl
  refine outputs_of_writes hi (fun e he => OutEl.sound_of_nil (hels e he).1)
    (Pkt.unstopped_fresh hv fun e he => ⟨[], hfinal e he⟩) hap ?_
  rw [Pkt.writes_fresh hv, List.flatMap_eq_nil_iff.mpr fun e he => OutEl.writes_of_final (hfinal e he)]
  exact .nil

/-- The keys that the reading of a place needs. -/
def spotKeys (p : Option Spot) : List Nat := (p.map (·.keys)).getD []

/-- The row that an index names, a code of 32 bits. -/
def State.gatherRow (s : State) (p : Option Spot) : Int := (BitVec.ofNat 32 (s.spotCode 32 p)).toInt

theorem gatherIndex_eq {j : Nat} {p : Option Spot} (h : readsAt k (k.op 2) (((wf k.c.w3 0 48 + j : Nat) : Int), 0, 0) p s) :
    s.gatherIndex k j = .ok (s.gatherRow p, spotKeys p) := by
  obtain ⟨d, hloc, hrd⟩ := readsAt_locate h
  dsimp only at hloc
  cases p with
  | none =>
    rw [State.gatherIndex, hloc]
    rfl
  | some y =>
    rw [State.gatherIndex, hloc]
    have hcode : s.codeOver [] 32 { p := 0, keys := y.keys, half := y.half } = s.spotCode 32 (some y) :=
      State.codeOver_elsewhere rfl rfl fun _ h => by cases h
    simp only [Option.map_some, State.elRead_ok (hrd y rfl), hcode, sextNat_eq_toInt (n := 32) (by decide)]
    rfl

/-- The place of a row in the source, for its bounds mode. -/
def gatherPlace (src : Rec) (i : Int) : Except Nat (Option (Int × Nat)) :=
  ({ src with ext0 := max 1 src.ext0 } : Rec).locate false 0 i 0

section
variable {I : Nat → Option Spot} {n : Nat} (hn : n = wf k.c.w2 32 32)
  (hI : ∀ j, j < n → readsAt k (k.op 2) (((wf k.c.w3 0 48 + j : Nat) : Int), 0, 0) (I j) s)
include hn hI

/-- The indices that a GATHER reads. -/
theorem gatherRows_eq : ((List.range (wf k.c.w2 32 32)).map fun j : Nat => (j, s.gatherIndex k j)) =
    (List.range n).map fun j => (j, .ok (s.gatherRow (I j), spotKeys (I j))) := by
  subst hn
  exact List.map_congr_left fun j hj => by rw [gatherIndex_eq (hI j (List.mem_range.mp hj))]

theorem gatherPlan_outside (hout : ∃ j e, j < n ∧ gatherPlace (k.op 0) (s.gatherRow (I j)) = .error e) :
    ∃ rs, s.gatherPlan k = ([{ size := 0, wrs := .ok [], val := .ok [], reads := rs }], (cBOUNDS, 0)) := by
  obtain ⟨j, e, hj, he⟩ := hout
  unfold State.gatherPlan
  dsimp only
  rw [gatherRows_eq hn hI, if_pos]
  · exact ⟨_, rfl⟩
  refine List.any_eq_true.mpr ⟨_, List.mem_map_of_mem (List.mem_range.mpr hj), ?_⟩
  rw [gatherPlace] at he
  simp only [he]

/-- One element of a GATHER, formed over the bytes written before it. -/
def State.gatherEl (s : State) (k : Pkt) (t : Table Byte) (x : Except Fail (Int × List Nat) × Int × (Int × Nat)) : OutEl :=
  let val : Except Fail Nat × List Nat := match x.1 with
    | .error f => (.error f, [])
    | .ok (i, iks) => match (k.op 0).locate false x.2.1 i 0 with
      | .ok (some a) => match s.elRead k (k.op 0) a with
        | .error f => (.error f, [])
        | .ok (sp, ks) => (.ok (s.codeOver t (k.op 0).bits sp), iks ++ ks)
      | _ => (.ok 0, iks)
  { size := (k.op 1).bits, wrs := s.elWrite k (k.op 1) x.2.2, reads := val.2, val := val.1.map fun c => [c] }

/-- The destination of an element, and what it moves. -/
def gatherDst (dst : Rec) (x : Except Fail (Int × List Nat)) (i0 i1 : Nat) :
    Option (Except Fail (Int × List Nat) × Int × (Int × Nat)) :=
  match dst.locate true (i0 : Int) (i1 : Int) 0 with
  | .ok (some d) => some (x, (i0 : Int), d)
  | _ => none

theorem gatherPlan_inside (hin : ∀ j, j < n → ∃ x, gatherPlace (k.op 0) (s.gatherRow (I j)) = .ok x) :
    s.gatherPlan k = (s.planSeq (s.gatherEl k) [] ((List.range (n * (k.op 0).ext0)).filterMap fun j =>
      gatherDst (k.op 1) (.ok (s.gatherRow (I (j / (k.op 0).ext0)), spotKeys (I (j / (k.op 0).ext0))))
        (j % (k.op 0).ext0) (j / (k.op 0).ext0)), (cOK, 0)) := by
  have hread (f : Nat × Except Fail (Int × List Nat) → Option Fail) (hf : ∀ j v, f (j, .ok v) = none) :
      (if (k.op 0).bounds = 0 then ((List.range n).map fun j =>
        (j, .ok (s.gatherRow (I j), spotKeys (I j)))).findSome? f else none) = none := by
    rw [List.findSome?_eq_none_iff.mpr, ite_self]
    intro x hx
    obtain ⟨j, -, rfl⟩ := List.mem_map.mp hx
    exact hf ..
  unfold State.gatherPlan
  dsimp only
  rw [gatherRows_eq hn hI, if_neg, hread _ fun _ _ => rfl, List.flatMap_map]
  · exact congrArg (fun els => (s.planSeq (s.gatherEl k) [] els, (cOK, 0))) (range_flatMap_filterMap_range n (k.op 0).ext0
      fun j i0 => gatherDst (k.op 1) (.ok (s.gatherRow (I j), spotKeys (I j))) i0 j)
  · intro hany
    obtain ⟨x, hx, hb⟩ := List.any_eq_true.mp hany
    obtain ⟨j, hj, rfl⟩ := List.mem_map.mp hx
    obtain ⟨y, hy⟩ := hin j (List.mem_range.mp hj)
    rw [gatherPlace] at hy
    simp only [hy, Bool.false_eq_true] at hb

end

/-- Where an element stands, to be written. -/
theorem writesAt_locate {f : Rec} {x : Int × Int × Int} {p : Option (Spot × Nat)} (h : writesAt k f x p s) :
    ∃ d, f.locate true x.1 x.2.1 x.2.2 = .ok (p.map fun y => (d, y.1.half)) ∧
      ∀ y, p = some y → writable k f d f.bytes y.1.keys s ∧ halfOk f y.1.half ∧ y.2 = f.bits := by
  cases p with
  | none => exact ⟨0, h, nofun⟩
  | some y =>
    obtain ⟨d, hloc, hwr, hbits⟩ := h
    exact ⟨d, hloc, fun z hz => by cases hz; exact ⟨hwr, Rec.half_of_locate hloc, hbits⟩⟩

/-- What an element of a GATHER writes, over bytes that lie apart from the one it reads. -/
theorem gatherEl_gives {t : Table Byte} {i d : Int} {i0 : Nat} {iks : List Nat} {p : Option Spot} {y : Spot × Nat}
    (hR : readsAt k (k.op 0) ((i0 : Int), i, 0) p s) (hwr : writable k (k.op 1) d (k.op 1).bytes y.1.keys s)
    (hbits : y.2 = (k.op 1).bits)
    (hcode : ∀ x z : Spot, p = some z → x.keys = z.keys → x.half = z.half →
      s.codeOver t (k.op 0).bits x = s.spotCode (k.op 0).bits (some z)) :
    (s.gatherEl k t (.ok (i, iks), (i0 : Int), (d, y.1.half))).gives (placed y (s.spotCode (k.op 0).bits p)) := by
  obtain ⟨e, hloc, hrd⟩ := readsAt_locate hR
  have hwrs : s.elWrite k (k.op 1) (d, y.1.half) = .ok [(placed y (s.spotCode (k.op 0).bits p)).1] := by
    rw [State.elWrite_ok hwr, ← hbits]
    rfl
  refine ⟨hwrs, ?_⟩
  dsimp only at hloc
  cases p with
  | none => simp only [State.gatherEl, hloc, Option.map_none]; rfl
  | some z =>
    have hz : s.codeOver t (k.op 0).bits { p := 0, keys := z.keys, half := z.half } = s.spotCode (k.op 0).bits (some z) :=
      hcode _ z rfl rfl rfl
    simp only [State.gatherEl, hloc, Option.map_some, State.elRead_ok (hrd z rfl), hz]
    rfl

theorem gather_outputs {q : PktId} (hmay : s.runnable q tGATHER = some k) (hv : k.vals = []) {R I : Nat → Option Spot}
    {W : Nat → Option (Spot × Nat)} {n : Nat} {read : List Nat} (hn : n = wf k.c.w2 32 32)
    (hread : ∀ j y, j < n * (k.op 0).ext0 → R j = some y → ∀ a ∈ y.keys, a ∈ read)
    (hI : ∀ j, j < n → readsAt k (k.op 2) (((wf k.c.w3 0 48 + j : Nat) : Int), 0, 0) (I j) s)
    (hin : ∀ j, j < n → ∃ x, gatherPlace (k.op 0) (s.gatherRow (I j)) = .ok x)
    (hRW : ∀ j, j < n * (k.op 0).ext0 →
      readsAt k (k.op 0) (((j % (k.op 0).ext0 : Nat) : Int), s.gatherRow (I (j / (k.op 0).ext0)), 0) (R j) s ∧
      writesAt k (k.op 1) (((j % (k.op 0).ext0 : Nat) : Int), ((j / (k.op 0).ext0 : Nat) : Int), 0) (W j) s)
    (hap : apart k (n * (k.op 0).ext0) W read s) :
    outputs (.gather q) k (cOK, 0) (n * (k.op 0).ext0) W (fun j => s.spotCode (k.op 0).bits (R j)) s := by
  have hplan := gatherPlan_inside hn hI hin
  have hi : exec (.gather q) s = .next (s.carry k (s.gatherPlan k).1 (cOK, 0)) := by
    have hfin : (s.gatherPlan k).2 = (cOK, 0) := by rw [hplan]
    rw [← hfin]
    exact congrArg _ (State.runPacket_eq hmay _)
  refine outputs_of_gives hi gatherPlan_sound hv ?_ hap
  rw [hplan]
  refine State.planSeq_gives (P := fun a => ∃ j y, j < n * (k.op 0).ext0 ∧ W j = some y ∧ a ∈ y.1.keys)
    (fun j hj hnone => ?_)
    (fun j hj x hx => ?_) fun _ h => by cases h
  all_goals
    have hlt := List.mem_range.mp hj
    obtain ⟨hR, hW⟩ := hRW j hlt
    obtain ⟨d, hloc, hwr⟩ := writesAt_locate hW
    dsimp only at hloc
  · cases hWj : W j with
    | none => rfl
    | some y =>
      rw [gatherDst, hloc, hWj] at hnone
      cases hnone
  · cases hWj : W j with
    | none =>
      rw [gatherDst, hloc, hWj] at hx
      cases hx
    | some y =>
      obtain ⟨hwr, hh, hbits⟩ := hwr y hWj
      rw [gatherDst, hloc, hWj] at hx
      cases hx
      refine ⟨_, rfl, soundWrite_placed hwr hh hbits, fun a ha => ⟨j, y, hlt, hWj, ha⟩, fun t ht => ?_⟩
      exact gatherEl_gives hR hwr hbits fun x z hz hk hh => codeOver_apart hap ht hk hh (hread j z hlt hz)

theorem gather_outside {q : PktId} (hmay : s.runnable q tGATHER = some k) (hv : k.vals = []) {I : Nat → Option Spot}
    {W : Nat → Option (Spot × Nat)} {c : Nat → Nat} {n : Nat} (hn : n = wf k.c.w2 32 32)
    (hI : ∀ j, j < n → readsAt k (k.op 2) (((wf k.c.w3 0 48 + j : Nat) : Int), 0, 0) (I j) s)
    (hout : ∃ j e, j < n ∧ gatherPlace (k.op 0) (s.gatherRow (I j)) = .error e) (hap : apart k 0 W [] s) :
    outputs (.gather q) k (cBOUNDS, 0) 0 W c s := by
  obtain ⟨rs, hplan⟩ := gatherPlan_outside hn hI hout
  have hi : exec (.gather q) s =
      .next (s.carry k [{ size := 0, wrs := .ok [], val := .ok [], reads := rs }] (cBOUNDS, 0)) := by
    have hrun : exec (.gather q) s = .next (s.carry k (s.gatherPlan k).1 (s.gatherPlan k).2) :=
      congrArg _ (State.runPacket_eq hmay _)
    rw [hrun, hplan]
  exact outputs_of_nil hi hv hap (List.forall_mem_singleton.mpr ⟨rfl, rfl⟩)

end

end Sys2Proof.Machine
end

section
/-! SUPPORT. GRIDR, GRIDP and GRIDC (09 R291-R295). -/

namespace Sys2Proof.Machine

open Sys2Proof.Safety Sys2Proof.Num

/-! ### The parts of an output -/

/-- The halos of the source and of the destination: GRIDC fills the halo of its destination. -/
def gridHaloS (c : Packet) : Nat → Nat := if c.type == tGRIDC then fun _ => 0 else c.halo

def gridHaloD (c : Packet) : Nat → Nat := if c.type == tGRIDC then c.halo else fun _ => 0

/-- The weights of an output. -/
def Pkt.gridTerms (k : Pkt) (cls : Nat) : List Stencil :=
  if k.c.type == tGRIDC then [{ w := .fin false 1 0 false, d := (0, 0, 0) }] else stencils k.c k.data cls

/-- What the sum of an output starts from. -/
def State.gridStart (s : State) (k : Pkt) (x : Int × Int × Int) : Except Fail (Val × List Nat) :=
  if k.c.type = tGRIDP ∧ k.c.gadd then s.gridRead k (k.op 1) x else .ok (.zero false, [])

/-- The sum of an output. -/
def State.gridTotal (s : State) (k : Pkt) (x : Int × Int × Int) : Except Fail (Val × List Nat) :=
  match s.gridStart k x with
  | .error f => .error f
  | .ok (acc, ks) => s.gridSum k (gridHaloS k.c) (gridBase k.c x).1 acc ks (k.gridTerms (gridBase k.c x).2)

/-- Output n of a grid packet, at index x of the destination. -/
def State.gridEl (s : State) (k : Pkt) (x : Int × Int × Int) (n : Nat) : OutEl :=
  { size := (k.op 1).bits, wrs := s.elWrite k (k.op 1) ((k.op 1).gridPlace x)
    val := (s.gridTotal k x).map fun v => [gridOut k.c (k.op 1).fmt n v.1]
    reads := match s.gridTotal k x with
      | .ok v => v.2
      | .error _ => [] }

/-- The extent of a destination with its halo. -/
def gridExt (c : Packet) (dst : Rec) (d : Nat) : Nat := dst.ext d + 2 * gridHaloD c d

/-- The index of output j. -/
def gridIdx (c : Packet) (dst : Rec) (j : Nat) : Int × Int × Int :=
  (((j % gridExt c dst 0 : Nat) : Int) - gridHaloD c 0, ((j / gridExt c dst 0 % gridExt c dst 1 : Nat) : Int) - gridHaloD c 1,
    ((j / gridExt c dst 0 / gridExt c dst 1 : Nat) : Int) - gridHaloD c 2)

theorem gridPlan_eq (s : State) (k : Pkt) :
    s.gridPlan k = (List.range (gridExt k.c (k.op 1) 0 * gridExt k.c (k.op 1) 1 * gridExt k.c (k.op 1) 2)).map fun j =>
      s.gridEl k (gridIdx k.c (k.op 1) j) j := by
  have hplan : s.gridPlan k = ((boxIdx (-(gridHaloD k.c 0 : Int)) (-(gridHaloD k.c 1 : Int)) (-(gridHaloD k.c 2 : Int))
      (gridExt k.c (k.op 1) 0) (gridExt k.c (k.op 1) 1) (gridExt k.c (k.op 1) 2)).zipIdx).map fun x => s.gridEl k x.1 x.2 := rfl
  rw [hplan, boxIdx_eq, zipIdx_map_range, List.map_map]
  refine List.map_congr_left fun j _ => ?_
  simp only [Function.comp_apply, gridIdx, neg_add_eq_sub]

section
variable {s : State} {k : Pkt}

/-! ### What is read -/

theorem gridRead_ok {f : Rec} {x : Int × Int × Int} {ks : List Nat} (h4 : f.bits ≠ 4)
    (h : readable k f (f.gridPlace x).1 f.bytes ks s) :
    s.gridRead k f x = .ok (fmtValue f.fmt (leNat (ks.map (memGet s.mem))), ks) := by
  have hrd : s.elRead k f (f.gridPlace x) = .ok ({ p := 0, keys := ks, half := 0 }, ks) := State.elRead_ok h
  have hcode : s.codeOver [] f.bits { p := 0, keys := ks, half := 0 } = leNat (ks.map (memGet s.mem)) := by
    rw [State.codeOver, if_neg h4]
    rfl
  rw [State.gridRead, hrd]
  simp only [hcode]

/-- An index of the source, or of its halo. -/
def inGrid (src : Rec) (hs : Nat → Nat) (x : Int × Int × Int) : Prop :=
  (-(hs 0 : Int) ≤ x.1 ∧ x.1 < (src.ext 0 : Int) + hs 0) ∧ (-(hs 1 : Int) ≤ x.2.1 ∧ x.2.1 < (src.ext 1 : Int) + hs 1) ∧
    -(hs 2 : Int) ≤ x.2.2 ∧ x.2.2 < (src.ext 2 : Int) + hs 2

theorem gridIndex_inside {ext halo mode : Nat} {x y : Int} (he : ext ≠ 0) (h : gridIndex ext halo mode x = some y) :
    -(halo : Int) ≤ y ∧ y < (ext : Int) + halo := by
  have hpos : (0 : Int) < ext := by omega
  have h0 := Int.emod_nonneg x hpos.ne'
  have h1 := Int.emod_lt_of_pos x hpos
  unfold gridIndex at h
  split at h
  next hin =>
    cases h
    exact hin
  next =>
    split at h
    · cases h
    · split at h
      · cases h
        omega
      · cases h
        omega

theorem gridSource_inside {c : Packet} {src : Rec} {hs : Nat → Nat} {x y : Int × Int × Int}
    (he : ∀ d, d < 3 → src.ext d ≠ 0) (h : gridSource c src hs x = some y) : inGrid src hs y := by
  unfold gridSource at h
  split at h
  next h0 h1 h2 =>
    cases h
    exact ⟨gridIndex_inside (he 0 (by decide)) h0, gridIndex_inside (he 1 (by decide)) h1,
      gridIndex_inside (he 2 (by decide)) h2⟩
  next => cases h

/-- The value that a sum takes at an index: that of the source's element there, or +0. -/
def gridAt (c : Packet) (src : Rec) (V : Int × Int × Int → Val) (x : Int × Int × Int) : Val :=
  match gridSource c src (gridHaloS c) x with
  | some y => V y
  | none => .zero false

/-- The sum of an output over the values V. -/
def Pkt.gridFold (k : Pkt) (V : Int × Int × Int → Val) (base : Int × Int × Int) (acc : Val) (es : List Stencil) : Val :=
  es.foldl (fun acc e =>
    gridStep acc e.w (gridAt k.c (k.op 0) V (base.1 + e.d.1, base.2.1 + e.d.2.1, base.2.2 + e.d.2.2))) acc

theorem gridSum_ok {V : Int × Int × Int → Val} (hV : ∀ y, inGrid (k.op 0) (gridHaloS k.c) y →
      ∃ ks, s.gridRead k (k.op 0) y = .ok (V y, ks)) (he : ∀ d, d < 3 → (k.op 0).ext d ≠ 0) (base : Int × Int × Int)
    (es : List Stencil) (acc : Val) (ks : List Nat) :
    ∃ ks', s.gridSum k (gridHaloS k.c) base acc ks es = .ok (k.gridFold V base acc es, ks') := by
  induction es generalizing acc ks with
  | nil => exact ⟨ks, rfl⟩
  | cons e es ih =>
    rw [State.gridSum]
    cases hsrc : gridSource k.c (k.op 0) (gridHaloS k.c) (base.1 + e.d.1, base.2.1 + e.d.2.1, base.2.2 + e.d.2.2) with
    | none =>
      obtain ⟨ks', h⟩ := ih (gridStep acc e.w (.zero false)) ks
      refine ⟨ks', ?_⟩
      dsimp only
      rw [h, Pkt.gridFold, Pkt.gridFold, List.foldl_cons, gridAt, hsrc]
    | some y =>
      obtain ⟨ys, hy⟩ := hV y (gridSource_inside he hsrc)
      obtain ⟨ks', h⟩ := ih (gridStep acc e.w (V y)) (ks ++ ys)
      refine ⟨ks', ?_⟩
      dsimp only
      rw [hy]
      dsimp only
      rw [h, Pkt.gridFold, Pkt.gridFold, List.foldl_cons, gridAt, hsrc]

/-! ### The outputs -/

/-- The value of the output at index x over the values V, on top of those of A where the packet adds. -/
def Pkt.gridValue (k : Pkt) (V A : Int × Int × Int → Val) (x : Int × Int × Int) : Val :=
  k.gridFold V (gridBase k.c x).1 (if k.c.type = tGRIDP ∧ k.c.gadd = true then A x else .zero false)
    (k.gridTerms (gridBase k.c x).2)

theorem gridTotal_ok {V A : Int × Int × Int → Val} {x : Int × Int × Int}
    (hV : ∀ y, inGrid (k.op 0) (gridHaloS k.c) y → ∃ ks, s.gridRead k (k.op 0) y = .ok (V y, ks))
    (he : ∀ d, d < 3 → (k.op 0).ext d ≠ 0)
    (hA : k.c.type = tGRIDP → k.c.gadd = true → ∃ ks, s.gridRead k (k.op 1) x = .ok (A x, ks)) :
    ∃ ks, s.gridTotal k x = .ok (k.gridValue V A x, ks) := by
  have hstart : ∃ ks, s.gridStart k x = .ok (if k.c.type = tGRIDP ∧ k.c.gadd = true then A x else .zero false, ks) := by
    unfold State.gridStart
    split
    next h => exact hA h.1 h.2
    next => exact ⟨[], rfl⟩
  obtain ⟨ks, hks⟩ := hstart
  obtain ⟨ks', h⟩ := gridSum_ok hV he (gridBase k.c x).1 (k.gridTerms (gridBase k.c x).2)
    (if k.c.type = tGRIDP ∧ k.c.gadd = true then A x else .zero false) ks
  refine ⟨ks', ?_⟩
  rw [State.gridTotal, hks]
  exact h

theorem grid_outputs {i : Instr} (hi : exec i s = .next (s.carry k (s.gridPlan k) (cOK, 0))) (hv : k.vals = []) {n : Nat}
    (hn : n = gridExt k.c (k.op 1) 0 * gridExt k.c (k.op 1) 1 * gridExt k.c (k.op 1) 2) {V A : Int × Int × Int → Val}
    {W : Nat → Option (Spot × Nat)} {ty : ElTy} (hty : elTy (k.op 1).fmt = some ty)
    (hV : ∀ y, inGrid (k.op 0) (gridHaloS k.c) y → ∃ ks, s.gridRead k (k.op 0) y = .ok (V y, ks))
    (he : ∀ d, d < 3 → (k.op 0).ext d ≠ 0)
    (hA : ∀ j, j < n → k.c.type = tGRIDP → k.c.gadd = true →
      ∃ ks, s.gridRead k (k.op 1) (gridIdx k.c (k.op 1) j) = .ok (A (gridIdx k.c (k.op 1) j), ks))
    (hW : ∀ j, j < n → ∃ ks, writable k (k.op 1) ((k.op 1).gridPlace (gridIdx k.c (k.op 1) j)).1 (k.op 1).bytes ks s ∧
      W j = some ({ p := 0, keys := ks, half := 0 }, (k.op 1).bits)) {read : List Nat} (hap : apart k n W read s) :
    outputs i k (cOK, 0) n W (fun j => (ty.conv ((Mode.ofCode k.c.rnd).getD .rne) (srBits k.c.w3.toNat 0 j) 0 0
      (k.gridValue V A (gridIdx k.c (k.op 1) j))).1) s := by
  refine outputs_of_gives hi gridPlan_sound hv ?_ hap
  rw [gridPlan_eq, ← hn]
  refine gives_placed fun j hj => ?_
  obtain ⟨ks, hwr, hWj⟩ := hW j hj
  obtain ⟨rs, htotal⟩ := gridTotal_ok hV he (hA j hj)
  refine ⟨_, hWj, State.elWrite_ok hwr, ?_⟩
  rw [State.gridEl, htotal]
  simp only [Except.map, gridOut, hty]
  rfl

/-! ### Its parts as the spec writes them -/

theorem stencilAt_eq (t : List Byte) (off : Nat) :
    let e := leNat ((t.drop off).take 8)
    stencilAt t off = { w := ofCode fp32 (e % 2 ^ 32)
                        d := ((BitVec.ofNat 8 (e / 2 ^ 32)).toInt, (BitVec.ofNat 8 (e / 2 ^ 40)).toInt,
                          (BitVec.ofNat 8 (e / 2 ^ 48)).toInt) } := by
  have hofs (v : Nat) : sextNat 8 (v % 2 ^ 8) = (BitVec.ofNat 8 v).toInt := by
    rw [sextNat_eq_toInt (by decide)]
    congr 1
    exact BitVec.eq_of_toNat_eq (by simp)
  dsimp only
  simp only [stencilAt, tableEntryAt, field, hofs, pow_zero, Nat.div_one]

theorem fmtValue_eq (fmt c : Nat) : fmtValue fmt c = ((elTy fmt).map fun t => t.value c).getD (.zero false) := by
  rw [fmtValue]
  cases elTy fmt <;> rfl

end

end Sys2Proof.Machine
end

section
/-! SUPPORT. Blocks of the error-bounded codec (09 R297, R298): codes packed bit by bit, and the one block that is tight. -/

namespace Sys2Proof.Machine

open Sys2Proof.Safety Sys2Proof.Num

/-! ### Sums over ranges -/

theorem map_range_succ {α : Type} (n : Nat) (g : Nat → α) :
    (List.range (n + 1)).map g = g 0 :: (List.range n).map fun i => g (i + 1) := by
  rw [List.range_succ_eq_map, List.map_cons, List.map_map]
  rfl

theorem filter_range_succ (n : Nat) (p : Nat → Bool) :
    (List.range (n + 1)).filter p = (if p 0 then [0] else []) ++ ((List.range n).filter fun i => p (i + 1)).map (· + 1) := by
  have htail : ((List.range n).map Nat.succ).filter p = ((List.range n).filter fun i => p (i + 1)).map (· + 1) := by
    rw [List.filter_map]
    rfl
  rw [List.range_succ_eq_map, List.filter_cons, htail]
  split <;> rfl

theorem sum_map_filter {α : Type} (p : α → Bool) (g : α → Nat) (xs : List α) :
    ((xs.filter p).map g).sum = (xs.map fun x => if p x then g x else 0).sum := by
  induction xs with
  | nil => rfl
  | cons x xs ih => cases hx : p x <;> simp [hx, ih]

/-! ### Packed codes -/

theorem packBits_lt (w : Nat) (zs : List Nat) : packBits w zs < 2 ^ (w * zs.length) := by
  induction zs with
  | nil => exact Nat.one_pos
  | cons z zs ih =>
    have hz := Nat.mod_lt z (Nat.two_pow_pos w)
    have hle : 2 ^ w * (packBits w zs + 1) ≤ 2 ^ w * 2 ^ (w * zs.length) := Nat.mul_le_mul_left _ ih
    rw [packBits, List.length_cons, Nat.mul_succ, Nat.pow_add, Nat.mul_comm (2 ^ (w * zs.length))]
    rw [Nat.mul_add, Nat.mul_one] at hle
    omega

theorem field_packBits (w : Nat) (zs : List Nat) (i : Nat) : field (packBits w zs) (w * i) w = zs.getD i 0 % 2 ^ w := by
  induction zs generalizing i with
  | nil => simp [packBits, field]
  | cons z zs ih =>
    cases i with
    | zero => simp [packBits, field]
    | succ i =>
      have hdiv : packBits w (z :: zs) / 2 ^ w = packBits w zs := by
        rw [packBits, Nat.add_mul_div_left _ _ (Nat.two_pow_pos w), Nat.div_eq_of_lt (Nat.mod_lt _ (Nat.two_pow_pos w)),
          Nat.zero_add]
      rw [field, Nat.mul_succ, Nat.add_comm (w * i), Nat.pow_add, ← Nat.div_div_eq_div_mul, hdiv, ← field, ih,
        List.getD_cons_succ]

theorem packBits_map_range (w n : Nat) (z : Nat → Nat) :
    packBits w ((List.range n).map z) = ((List.range n).map fun i => z i % 2 ^ w * 2 ^ (w * i)).sum := by
  induction n generalizing z with
  | zero => rfl
  | succ n ih =>
    have hmul : ((List.range n).map fun i => z (i + 1) % 2 ^ w * 2 ^ (w * (i + 1))).sum =
        2 ^ w * ((List.range n).map fun i => z (i + 1) % 2 ^ w * 2 ^ (w * i)).sum := by
      rw [← List.sum_map_mul_left]
      refine congrArg List.sum (List.map_congr_left fun i _ => ?_)
      rw [Nat.mul_succ, Nat.pow_add, ← Nat.mul_assoc, Nat.mul_comm]
    rw [map_range_succ, map_range_succ, packBits, ih, List.sum_cons, hmul, Nat.mul_zero, pow_zero, Nat.mul_one]

/-- Codes below 2^w packed. -/
theorem packBits_of_lt {w n : Nat} {z : Nat → Nat} (hz : ∀ i, i < n → z i < 2 ^ w) :
    packBits w ((List.range n).map z) = ((List.range n).map fun i => z i * 2 ^ (w * i)).sum := by
  rw [packBits_map_range]
  refine congrArg List.sum (List.map_congr_left fun i hi => ?_)
  rw [Nat.mod_eq_of_lt (hz i (List.mem_range.mp hi))]

/-- A set of numbers as a mask. -/
def bitMask (n : Nat) (p : Nat → Bool) : Nat := packBits 1 ((List.range n).map fun i => b2n (p i))

theorem bitMask_eq_sum (n : Nat) (p : Nat → Bool) : bitMask n p = (((List.range n).filter p).map fun i => 2 ^ i).sum := by
  rw [sum_map_filter, bitMask, packBits_of_lt fun i _ => by cases p i <;> decide]
  refine congrArg List.sum (List.map_congr_left fun i _ => ?_)
  cases p i <;> simp [b2n]

theorem bitMask_lt (n : Nat) (p : Nat → Bool) : bitMask n p < 2 ^ n := by
  have h := packBits_lt 1 ((List.range n).map fun i => b2n (p i))
  rwa [List.length_map, List.length_range, Nat.one_mul] at h

theorem field_bitMask {n i : Nat} (p : Nat → Bool) (hi : i < n) : field (bitMask n p) i 1 = b2n (p i) := by
  have h := field_packBits 1 ((List.range n).map fun i => b2n (p i)) i
  rw [Nat.one_mul] at h
  have hlen : i < ((List.range n).map fun i => b2n (p i)).length := by simpa using hi
  rw [bitMask, h, List.getD_eq_getElem _ _ hlen, List.getElem_map, List.getElem_range]
  cases p i <;> rfl

/-- A set of numbers below n, counted bit by bit. -/
theorem sum_field_bitMask {m n : Nat} (p : Nat → Bool) (h : n ≤ m) :
    ((List.range m).map fun i => field (bitMask n p) i 1).sum = ((List.range n).filter p).length := by
  obtain ⟨d, rfl⟩ := Nat.exists_eq_add_of_le h
  have hlow : ((List.range n).map fun i => field (bitMask n p) i 1) = (List.range n).map fun i => if p i then 1 else 0 := by
    refine List.map_congr_left fun i hi => ?_
    rw [field_bitMask p (List.mem_range.mp hi)]
    cases p i <;> rfl
  have hhigh : ∀ i ∈ ((List.range d).map (n + ·)).map fun i => field (bitMask n p) i 1, i = 0 := by
    intro x hx
    obtain ⟨i, hi, rfl⟩ := List.mem_map.mp hx
    obtain ⟨j, -, rfl⟩ := List.mem_map.mp hi
    rw [field, Nat.div_eq_of_lt ((bitMask_lt n p).trans_le (Nat.pow_le_pow_right (by decide) (Nat.le_add_right ..)))]
    rfl
  rw [List.range_add, List.map_append, List.sum_append, hlow, List.sum_eq_zero_iff.mpr hhigh, Nat.add_zero,
    ← sum_map_filter p fun _ => 1]
  simp

/-! ### Bytes -/

theorem leBytes_of_leNat {bs : List Byte} {n v : Nat} (hlen : bs.length = n) (hv : leNat bs = v) : leBytes n v = bs := by
  subst hlen hv
  induction bs with
  | nil => rfl
  | cons b bs ih =>
    have hb := b.isLt
    have hdiv : leNat (b :: bs) / 256 = leNat bs := by rw [leNat]; omega
    have hbyte : BitVec.ofNat 8 (leNat (b :: bs)) = b := by
      refine BitVec.eq_of_toNat_eq ?_
      rw [BitVec.toNat_ofNat, leNat]
      omega
    rw [List.length_cons, leBytes, hdiv, hbyte, ih]

/-! ### Widths -/

theorem bitLen_le_iff {z w : Nat} : bitLen z ≤ w ↔ z < 2 ^ w := by
  unfold bitLen
  split
  next h => simp [h]
  next h => rw [Nat.succ_le_iff, Nat.log2_lt h]

/-- The number of bits that hold codes. -/
def maxBits (zs : List Nat) : Nat := zs.foldl (fun m z => max m (bitLen z)) 0

theorem maxBits_le_iff {zs : List Nat} {w : Nat} : maxBits zs ≤ w ↔ ∀ z ∈ zs, z < 2 ^ w := by
  suffices h : ∀ m, zs.foldl (fun m z => max m (bitLen z)) m ≤ w ↔ m ≤ w ∧ ∀ z ∈ zs, z < 2 ^ w by
    rw [maxBits, h]
    exact and_iff_right (Nat.zero_le w)
  induction zs with
  | nil => simp
  | cons z zs ih =>
    intro m
    rw [List.foldl_cons, ih, max_le_iff, bitLen_le_iff, List.forall_mem_cons, and_assoc]

/-- The least width. -/
theorem maxBits_eq {n w : Nat} {z : Nat → Nat} (hz : ∀ i, i < n → z i < 2 ^ w) (hw : w = 0 ∨ ∃ i, i < n ∧ 2 ^ (w - 1) ≤ z i) :
    maxBits ((List.range n).map z) = w := by
  have hle : maxBits ((List.range n).map z) ≤ w :=
    maxBits_le_iff.mpr (List.forall_mem_map.mpr fun i hi => hz i (List.mem_range.mp hi))
  refine le_antisymm hle ?_
  rcases hw with rfl | ⟨i, hi, hzi⟩
  · exact Nat.zero_le _
  · by_contra hlt
    have hless := maxBits_le_iff.mp (show maxBits ((List.range n).map z) ≤ w - 1 by omega) (z i)
      (List.mem_map_of_mem (List.mem_range.mpr hi))
    omega

/-! ### A block -/

theorem s32_eq (v : Int) : s32 v = (BitVec.ofInt 32 v).toInt := by
  rw [s32, sextNat_eq_toInt (by decide)]
  congr 1
  refine BitVec.eq_of_toNat_eq ?_
  have hnn := Int.emod_nonneg v (show (2 ^ 32 : Int) ≠ 0 by decide)
  rw [BitVec.toNat_ofNat, BitVec.toNat_ofInt]
  omega

/-- The zigzag codes of values q, each of the difference from the one before. -/
theorem ebCodes_map_range (n : Nat) (prev : Int) (q : Nat → Int) :
    ebCodes prev ((List.range n).map q) =
      (List.range n).map fun i => zigzag (s32 (q i - if i = 0 then prev else q (i - 1))) := by
  induction n generalizing prev q with
  | zero => rfl
  | succ n ih =>
    rw [map_range_succ, map_range_succ, ebCodes, ih]
    refine congrArg₂ List.cons rfl (List.map_congr_left fun i _ => ?_)
    rcases i with _ | i <;> rfl

/-- A block of nb values, given what becomes of each: its quotient, and its raw code. -/
theorem ebBlock_map_range (fmt : Fmt) (size : Nat) (e : Int) (nb : Nat) (x : Nat → Nat) :
    let quot := fun i => ebQuot e (ofCode fmt (x i))
    let zs := (List.range nb).map fun i => zigzag (s32 ((quot i).getD 0 - if i = 0 then 0 else (quot (i - 1)).getD 0))
    let es := (List.range nb).filter fun i => (quot i).isNone
    ebBlock fmt size e ((List.range nb).map x) =
      BitVec.ofNat 8 (maxBits zs + if es = [] then 0 else 64) :: ((if es = [] then [] else leBytes 8 (es.map fun i => 2 ^ i).sum) ++
        leBytes ((nb * maxBits zs + 7) / 8) (packBits (maxBits zs) zs) ++ es.flatMap fun i => leBytes size (x i)) := by
  intro quot zs es
  have hqs : ((List.range nb).map x).map (fun c => ebQuot e (ofCode fmt c)) = (List.range nb).map quot := List.map_map ..
  have hzs : ebCodes 0 (((List.range nb).map quot).map fun q => q.getD 0) = zs := by
    rw [List.map_map, ebCodes_map_range]
    rfl
  have hany : ((List.range nb).map quot).any Option.isNone = !decide (es = []) := by
    rw [List.any_map, Bool.eq_iff_iff, List.any_eq_true, Bool.not_eq_true', decide_eq_false_iff_not,
      List.filter_eq_nil_iff]
    simp
  have hmask : ((((List.range nb).map quot).zipIdx).map fun q => if q.1.isNone then 2 ^ q.2 else 0).sum =
      (es.map fun i => 2 ^ i).sum := by
    rw [zipIdx_map_range, List.map_map, sum_map_filter]
    rfl
  have hraw : ((((List.range nb).map quot).zip ((List.range nb).map x)).filter fun q => q.1.isNone).flatMap
      (fun q => leBytes size q.2) = es.flatMap fun i => leBytes size (x i) := by
    rw [zip_map_same, List.filter_map, List.flatMap_map]
    rfl
  unfold ebBlock
  simp only [hqs, hzs, hany, hmask, hraw, List.length_map, List.length_range]
  by_cases hes : es = []
  · simp only [hes, decide_true, Bool.not_true, Bool.false_eq_true, if_false, if_true, List.nil_append, List.cons_append]
    rfl
  · simp only [hes, decide_false, Bool.not_false, if_true, if_false, List.cons_append]
    rfl

/-- The tight block of some values is the one that the model lays down. -/
theorem ebBlock_of_codedBlock {fmt : Fmt} {size nb : Nat} {e : Int} {x z : Nat → Nat} {bs : List Byte}
    (hz : ∀ i, i < nb → z i = zigzag (s32 ((ebQuot e (ofCode fmt (x i))).getD 0 -
      if i = 0 then 0 else (ebQuot e (ofCode fmt (x (i - 1)))).getD 0)))
    (h : codedBlock size nb z (fun i => (ebQuot e (ofCode fmt (x i))).isNone) x true bs) :
    ebBlock fmt size e ((List.range nb).map x) = bs := by
  obtain ⟨w, esc, mask, packed, -, hzw, hesc, htight, hmlen, hmask, hplen, hpacked, rfl⟩ := h
  obtain ⟨hes, hw⟩ := htight rfl
  have hzs : (List.range nb).map (fun i => zigzag (s32 ((ebQuot e (ofCode fmt (x i))).getD 0 -
      if i = 0 then 0 else (ebQuot e (ofCode fmt (x (i - 1)))).getD 0))) = (List.range nb).map z :=
    List.map_congr_left fun i hi => (hz i (List.mem_range.mp hi)).symm
  have hblock := ebBlock_map_range fmt size e nb x
  dsimp only at hblock
  rw [hzs, maxBits_eq hzw hw, packBits_of_lt hzw, leBytes_of_leNat hplen hpacked] at hblock
  rw [hblock]
  cases esc with
  | false =>
    obtain rfl : mask = [] := List.eq_nil_of_length_eq_zero hmlen
    rw [if_pos (hesc rfl), if_pos (hesc rfl)]
    rfl
  | true =>
    have hne : (List.range nb).filter (fun i => (ebQuot e (ofCode fmt (x i))).isNone) ≠ [] := fun h => nomatch hes h
    rw [if_neg hne, if_neg hne, leBytes_of_leNat (bs := mask) (n := 8) hmlen hmask]
    rfl

end Sys2Proof.Machine
end

section
/-! SUPPORT. EBZ (09 R296-R299). -/

namespace Sys2Proof.Machine

open Sys2Proof.Safety Sys2Proof.Num

/-! ### Values and blocks -/

/-- A list in pieces of 64. -/
theorem codeBlocks_eq {fuel : Nat} {xs : List Nat} (h : xs.length ≤ 64 * fuel) :
    codeBlocks 64 fuel xs = (List.range ((xs.length + 63) / 64)).map fun b => (xs.drop (64 * b)).take 64 := by
  induction fuel generalizing xs with
  | zero =>
    obtain rfl : xs = [] := List.eq_nil_of_length_eq_zero (by omega)
    rfl
  | succ fuel ih =>
    rw [codeBlocks]
    cases xs with
    | nil => rfl
    | cons x xs =>
      have hlen : ((x :: xs).drop 64).length = (x :: xs).length - 64 := List.length_drop ..
      have hcount : ((x :: xs).length + 63) / 64 = (((x :: xs).drop 64).length + 63) / 64 + 1 := by
        rw [hlen, List.length_cons]
        omega
      rw [hcount, map_range_succ, ih (by omega)]
      refine congrArg₂ List.cons rfl (List.map_congr_left fun b _ => ?_)
      rw [List.drop_drop, Nat.mul_succ, Nat.add_comm (64 * b)]

/-- The values of a block. -/
theorem take_drop_map_range (n b : Nat) (x : Nat → Nat) :
    (((List.range n).map x).drop (64 * b)).take 64 = (List.range (min 64 (n - 64 * b))).map fun i => x (64 * b + i) :=
  List.ext_getElem (by simp) fun i _ _ => by simp

theorem blocks_eq {fmt : Fmt} {size n : Nat} {e : Int} {x : Nat → Nat} {z : Nat → Nat → Nat} {B : List (List Byte)}
    (hlen : B.length = (n + 63) / 64)
    (hz : ∀ b i, z b i = zigzag (s32 ((ebQuot e (ofCode fmt (x (64 * b + i)))).getD 0 -
      if i = 0 then 0 else (ebQuot e (ofCode fmt (x (64 * b + i - 1)))).getD 0)))
    (hB : ∀ b, b < B.length → codedBlock size (min 64 (n - 64 * b)) (z b)
      (fun i => (ebQuot e (ofCode fmt (x (64 * b + i)))).isNone) (fun i => x (64 * b + i)) true (B.getD b [])) :
    (codeBlocks 64 ((List.range n).map x).length ((List.range n).map x)).map (ebBlock fmt size e) = B := by
  rw [codeBlocks_eq (by omega), List.map_map, List.length_map, List.length_range]
  refine List.ext_getElem (by simp [hlen]) fun b hb hb' => ?_
  have hblock := hB b hb'
  rw [List.getD_eq_getElem _ _ hb'] at hblock
  rw [List.getElem_map, List.getElem_range, Function.comp_apply, take_drop_map_range]
  refine ebBlock_of_codedBlock (fun i _ => ?_) hblock
  rw [hz]
  rcases i with _ | i <;> rfl

/-! ### What fits -/

theorem fitBlocks_all {cap : Nat} {xs : List (List Byte)} (acc : List Byte) (b : Nat)
    (h : acc.length + xs.flatten.length ≤ cap) : fitBlocks cap acc b xs = (acc ++ xs.flatten, none) := by
  induction xs generalizing acc b with
  | nil => simp [fitBlocks]
  | cons x xs ih =>
    rw [List.flatten_cons, List.length_append] at h
    rw [fitBlocks, if_pos (by omega), ih _ _ (by rw [List.length_append]; omega), List.flatten_cons, List.append_assoc]

/-- The first block that does not fit. -/
theorem fitBlocks_some {cap : Nat} {xs : List (List Byte)} (acc : List Byte) (b : Nat) (hacc : acc.length ≤ cap)
    (h : cap < acc.length + xs.flatten.length) :
    ∃ body i, fitBlocks cap acc b xs = (body, some (b + i)) ∧ i < xs.length ∧
      acc.length + ((xs.take i).map List.length).sum ≤ cap ∧ cap < acc.length + ((xs.take (i + 1)).map List.length).sum := by
  induction xs generalizing acc b with
  | nil => exact absurd h (by simpa using hacc)
  | cons x xs ih =>
    rw [List.flatten_cons, List.length_append] at h
    by_cases hx : acc.length + x.length ≤ cap
    · obtain ⟨body, i, hfit, hi, hlo, hhi⟩ :=
        ih (acc ++ x) (b + 1) (by rwa [List.length_append]) (by rw [List.length_append]; omega)
      rw [List.length_append] at hlo hhi
      refine ⟨body, i + 1, ?_, Nat.succ_lt_succ hi, ?_, ?_⟩
      · rw [fitBlocks, if_pos hx, hfit, Nat.add_assoc, Nat.add_comm 1]
      · rw [List.take_succ_cons, List.map_cons, List.sum_cons]
        omega
      · rw [List.take_succ_cons, List.map_cons, List.sum_cons]
        omega
    · refine ⟨acc, 0, ?_, Nat.succ_pos _, by simpa using hacc, ?_⟩
      · rw [fitBlocks, if_neg hx]
        rfl
      · simpa using hx

theorem length_ebHeader (fmt : Nat) (e : Int) (n len : Nat) : (ebHeader fmt e n len).length = 16 := by
  simp [ebHeader, length_leBytes]

section
variable {s : State} {k : Pkt}

theorem mapM_range_ok {α ε : Type} {f : Nat → Except ε α} {n : Nat} {g : Nat → α} (h : ∀ i, i < n → f i = .ok (g i)) :
    (List.range n).mapM f = .ok ((List.range n).map g) := by
  refine mapM_eq_ok_iff.mpr ?_
  rw [List.forall₂_map_right_iff, List.forall₂_same]
  exact fun i hi => h i (List.mem_range.mp hi)

theorem denseRead_ok {f : Rec} {R : Nat → List Nat} (h4 : f.bits ≠ 4)
    (hR : ∀ i, i < f.count → readable k f ((i * f.bytes : Nat) : Int) f.bytes (R i) s) :
    ∃ ks, s.denseRead k f = .ok ((List.range f.count).map fun i => leNat ((R i).map (memGet s.mem)), ks) := by
  have hread := mapM_range_ok (f := fun i : Nat => s.elRead k f (((i * f.bytes : Nat) : Int), 0)) fun i hi =>
    State.elRead_ok (hR i hi)
  rw [State.denseRead, hread]
  dsimp only
  have hcode (i : Nat) : s.codeOver [] f.bits { p := 0, keys := R i, half := 0 } = leNat ((R i).map (memGet s.mem)) := by
    rw [State.codeOver, if_neg h4]
    rfl
  rw [List.map_map]
  simp only [Function.comp_def, hcode]
  exact ⟨_, rfl⟩

/-- The format of a source's values. -/
def ebFmt (f : Rec) : Fmt := if f.fmt = 0x10 then fp64 else fp32

variable {xs : List Nat} {ks : List Nat} {B : List (List Byte)} (hread : s.denseRead k (k.op 0) = .ok (xs, ks))
  (hB : (codeBlocks 64 xs.length xs).map (ebBlock (ebFmt (k.op 0)) (k.op 0).bytes k.c.ebExp) = B)
include hread hB

/-- The stream fits. -/
theorem ebzPlan_fits (hfit : 16 + B.flatten.length ≤ (k.op 1).spanSize) :
    s.ebzPlan k = (s.bytesOut k (k.op 1)
      (ebHeader (k.op 0).fmt k.c.ebExp xs.length (16 + B.flatten.length) ++ B.flatten) ks, (cOK, 0)) := by
  rw [ebFmt] at hB
  unfold State.ebzPlan
  simp only [hread, hB]
  rw [if_neg (by omega), fitBlocks_all [] 0 (by simp only [List.length_nil]; omega)]
  rfl

/-- It does not: the first block that has no room is named. -/
theorem ebzPlan_overruns (hover : (k.op 1).spanSize < 16 + B.flatten.length) :
    ∃ det, s.ebzPlan k = (s.overrunOut k (k.op 1) ks, (cEB_OVERRUN, det)) ∧
      (16 ≤ (k.op 1).spanSize → ∃ b, b < B.length ∧ det = b % 2 ^ 16 ∧
        16 + ((B.take b).map List.length).sum ≤ (k.op 1).spanSize ∧
        (k.op 1).spanSize < 16 + ((B.take (b + 1)).map List.length).sum) := by
  rw [ebFmt] at hB
  unfold State.ebzPlan
  simp only [hread, hB]
  by_cases hsmall : (k.op 1).spanSize < 16
  · rw [if_pos hsmall]
    exact ⟨0, rfl, fun h => absurd hsmall (by omega)⟩
  · obtain ⟨body, i, hfit, hi, hlo, hhi⟩ := fitBlocks_some (cap := (k.op 1).spanSize - 16) (xs := B) [] 0 (Nat.zero_le _)
      (by simp only [List.length_nil]; omega)
    rw [if_neg hsmall, hfit]
    simp only [List.length_nil, Nat.zero_add] at hlo hhi ⊢
    exact ⟨_, rfl, fun _ => ⟨i, hi, rfl, by omega, by omega⟩⟩

end

/-! ### What is written -/

section
variable {s : State} {k : Pkt} {into : Nat → Nat}

theorem bytesOut_gives {f : Rec} {bs : List Byte} {reads : List Nat}
    (hw : ∀ j, j < bs.length → writable k f (j : Int) 1 [into j] s) :
    List.Forall₂ OutEl.gives (s.bytesOut k f bs reads)
      (placedWrites bs.length (byteSpot into) fun j => (bs.getD j 0).toNat) := by
  have hbs : bs.zipIdx = (List.range bs.length).map fun j => (bs.getD j 0, j) :=
    List.ext_getElem (by simp) fun i h _ => by
      have hlt : i < bs.length := by simpa using h
      simp [hlt]
  rw [State.bytesOut, hbs, List.map_map, placedWrites_bytes]
  exact gives_map fun j hj => byteOut_gives (hw j (List.mem_range.mp hj))

theorem ebz_outputs {q : PktId} (hmay : s.runnable q tEBZ = some k) (hv : k.vals = []) {stream : List Byte} {ks : List Nat}
    (hplan : s.ebzPlan k = (s.bytesOut k (k.op 1) stream ks, (cOK, 0)))
    (hw : ∀ j, j < stream.length → writable k (k.op 1) (j : Int) 1 [into j] s) {read : List Nat}
    (hap : apart k stream.length (byteSpot into) read s) :
    outputs (.ebz q) k (cOK, 0) stream.length (byteSpot into) (fun j => (stream.getD j 0).toNat) s := by
  have hi : exec (.ebz q) s = .next (s.carry k (s.bytesOut k (k.op 1) stream ks) (cOK, 0)) := by
    have hrun : exec (.ebz q) s = .next (s.carry k (s.ebzPlan k).1 (s.ebzPlan k).2) := congrArg _ (State.runPacket_eq hmay _)
    rw [hrun, hplan]
  exact outputs_of_gives hi bytesOut_sound hv (bytesOut_gives hw) hap

/-- After an overrun, bytes of the destination but those of L may have been written. -/
theorem overrun_ends {q : PktId} (hmay : s.runnable q tEBZ = some k) (hv : k.vals = []) {ks : List Nat} {det : Nat}
    (hplan : s.ebzPlan k = (s.overrunOut k (k.op 1) ks, (cEB_OVERRUN, det)))
    (hw : ∀ j, j < (k.op 1).spanSize → writable k (k.op 1) (j : Int) 1 [into j] s) {read : List Nat}
    (hap : apart k (k.op 1).spanSize (byteSpot into) read s) :
    ∃ t bytes, exec (.ebz q) s = .next t ∧ pktEnds k (cEB_OVERRUN, det) bytes s t ∧
      ∀ a, (∀ j, j < (k.op 1).spanSize → (j < 12 ∨ 16 ≤ j) → a ≠ into j) → memGet t.mem a = memGet s.mem a := by
  have hi : exec (.ebz q) s = .next (s.carry k (s.overrunOut k (k.op 1) ks) (cEB_OVERRUN, det)) := by
    have hrun : exec (.ebz q) s = .next (s.carry k (s.ebzPlan k).1 (s.ebzPlan k).2) := congrArg _ (State.runPacket_eq hmay _)
    rw [hrun, hplan]
  obtain ⟨hunit, ha, hm, hl, hW⟩ := hap
  let places := ((List.range (k.op 1).spanSize).filter fun i => (decide (i < 12) || decide (16 ≤ i)) && s.choice i).zipIdx
  let ws := places.map fun i => byteWrite (into i.1) (Config.freeByte s.freeCtr i.1).toNat
  have hplace : ∀ i ∈ places, i.1 < (k.op 1).spanSize ∧ (i.1 < 12 ∨ 16 ≤ i.1) := by
    intro i hi
    obtain ⟨hr, hp⟩ := List.mem_filter.mp (List.fst_mem_of_mem_zipIdx hi)
    simp only [Bool.and_eq_true, Bool.or_eq_true, decide_eq_true_eq] at hp
    exact ⟨List.mem_range.mp hr, hp.1⟩
  have hgives : List.Forall₂ OutEl.gives (s.overrunOut k (k.op 1) ks) ws :=
    gives_map fun i hi => byteOut_gives (hw i.1 (hplace i hi).1)
  have hwrites : k.writes (s.overrunOut k (k.op 1) ks) = ws := by
    rw [Pkt.writes_fresh hv, flatMap_writes_of_gives hgives]
  have hkey : ∀ w ∈ ws, ∃ j, j < (k.op 1).spanSize ∧ (j < 12 ∨ 16 ≤ j) ∧ w.1.1.keys = [into j] := by
    intro w hw
    obtain ⟨i, hi, rfl⟩ := List.mem_map.mp hw
    exact ⟨i.1, (hplace i hi).1, (hplace i hi).2, rfl⟩
  obtain ⟨hends, hget⟩ := State.carry_ends (fin := (cEB_OVERRUN, det)) (Pkt.unstopped_fresh hv (final_of_gives hgives)) hunit
    overrunOut_sound ha hm hl fun w hww a haw => by
      rw [hwrites] at hww
      obtain ⟨j, hj, -, hkeys⟩ := hkey w hww
      exact ((hW j _ hj rfl).2.2.1 a (hkeys ▸ haw)).2
  refine ⟨_, _, hi, hends, fun a hna => ?_⟩
  rw [hget]
  refine putWrites_other (Pkt.sound_writes overrunOut_sound) fun w hww haw => ?_
  rw [hwrites] at hww
  obtain ⟨j, hj, hcase, hkeys⟩ := hkey w hww
  rw [hkeys] at haw
  exact hna j hj hcase (List.mem_singleton.mp haw)

end

end Sys2Proof.Machine
end

section
/-! SUPPORT. EBX (09 R298, R300). -/

namespace Sys2Proof.Machine

open Sys2Proof.Safety Sys2Proof.Num

/-! ### The layout of a block -/

/-- What the expansion reads in the bytes of a block of nb values: zigzag codes z in w bits each, escapes and their raw codes. -/
structure EbLayout (size nb : Nat) (z : Nat → Nat) (esc : Nat → Bool) (raw : Nat → Nat) (w : Nat) (e : Bool) (bs : List Byte) :
    Prop where
  width : w ≤ 32
  codes : ∀ i, i < nb → z i < 2 ^ w
  head : (bs.getD 0 0).toNat = w + 64 * b2n e
  mask : (if b2n e = 1 then leNat ((bs.drop 1).take 8) else 0) = bitMask nb esc
  packed : leNat ((bs.drop (1 + 8 * b2n e)).take (cdiv (nb * w) 8)) = packBits w ((List.range nb).map z)
  rest : bs.drop (1 + 8 * b2n e + cdiv (nb * w) 8) = ((List.range nb).filter esc).flatMap fun i => leBytes size (raw i)
  length : bs.length = 1 + 8 * b2n e + cdiv (nb * w) 8 + size * ((List.range nb).filter esc).length

theorem length_flatMap_leBytes (size : Nat) (raw : Nat → Nat) (es : List Nat) :
    (es.flatMap fun i => leBytes size (raw i)).length = size * es.length := by
  induction es with
  | nil => rfl
  | cons i es ih => rw [List.flatMap_cons, List.length_append, length_leBytes, ih, List.length_cons, Nat.mul_succ, Nat.add_comm]

theorem ebLayout_of_codedBlock {size nb : Nat} {z : Nat → Nat} {esc : Nat → Bool} {raw : Nat → Nat} {tight : Bool} {bs : List Byte}
    (h : codedBlock size nb z esc raw tight bs) : ∃ w e, EbLayout size nb z esc raw w e bs := by
  obtain ⟨w, e, mask, packed, hw, hzw, hesc, -, hmlen, hmask, hplen, hpacked, rfl⟩ := h
  have hc : cdiv (nb * w) 8 = (nb * w + 7) / 8 := rfl
  have hmlen' : mask.length = 8 * b2n e := by rw [hmlen]; cases e <;> rfl
  have hdrop (d : Nat) (xs ys : List Byte) (hx : xs.length = d) (b : Byte) : (b :: (xs ++ ys)).drop (1 + d) = ys := by
    rw [Nat.add_comm, List.drop_succ_cons, List.drop_left' hx]
  refine ⟨w, e, hw, hzw, ?_, ?_, ?_, ?_, ?_⟩
  · rw [List.getD_cons_zero, BitVec.toNat_ofNat]
    cases e
    · exact Nat.mod_eq_of_lt (by simp only [Bool.false_eq_true, if_false]; omega)
    · exact Nat.mod_eq_of_lt (by simp only [if_true]; omega)
  · cases e with
    | false =>
      rw [if_neg (by decide), bitMask_eq_sum, hesc rfl]
      rfl
    | true =>
      rw [List.drop_succ_cons, List.drop_zero, List.append_assoc, List.take_left' (i := 8) hmlen', hmask, bitMask_eq_sum]
      exact if_pos rfl
  · rw [List.append_assoc, hdrop _ _ _ hmlen', List.take_left' (by rw [hplen, hc]), hpacked, packBits_of_lt hzw]
  · rw [Nat.add_assoc, hdrop _ _ _ (by rw [List.length_append, hmlen', hplen, hc])]
  · rw [List.length_cons, List.length_append, List.length_append, hmlen', hplen, length_flatMap_leBytes, hc]
    omega

/-! ### The values of a block -/

/-- A signed value of 32 bits. -/
def wrap32 (v : Int) : Int := (BitVec.ofInt 32 v).toInt

theorem wrap32_add (a b : Int) : wrap32 (wrap32 a + b) = wrap32 (a + b) := by
  rw [wrap32, wrap32, wrap32, BitVec.ofInt_add, BitVec.ofInt_toInt, ← BitVec.ofInt_add]

/-- The sum of the differences up to value i. -/
def zigSum (z : Nat → Nat) (i : Nat) : Int := ((List.range (i + 1)).map fun j => unzigzag (z j)).sum

theorem zigSum_succ (z : Nat → Nat) (i : Nat) : zigSum z (i + 1) = unzigzag (z 0) + zigSum (fun j => z (j + 1)) i := by
  rw [zigSum, map_range_succ, List.sum_cons]
  rfl

/-- The code of value i of a block, whose differences start from `start`. -/
def ebValue (sf df : Fmt) (e : Int) (start : Int) (z : Nat → Nat) (esc : Nat → Bool) (raw : Nat → Nat) (i : Nat) : Nat :=
  (destF df .rne 0 0 0 (if esc i then ofCode sf (raw i) else (ofIntVal (wrap32 (start + zigSum z i))).scale (e + 1))).1

theorem ebValues_eq {sf df : Fmt} {size : Nat} {e : Int} (m : Nat) (start : Int) (z : Nat → Nat) (esc : Nat → Bool)
    (raw : Nat → Nat) (hraw : ∀ i, esc i = true → raw i < 2 ^ (8 * size)) :
    ebValues sf df size e (wrap32 start) ((List.range m).map fun i => (z i, esc i))
      (((List.range m).filter esc).flatMap fun i => leBytes size (raw i)) =
        (List.range m).map (ebValue sf df e start z esc raw) := by
  induction m generalizing start z esc raw with
  | zero => rfl
  | succ m ih =>
    have hnext : s32 (wrap32 start + unzigzag (z 0)) = wrap32 (start + unzigzag (z 0)) := by
      rw [s32_eq, ← wrap32_add]
      rfl
    have hshift : (fun i => ebValue sf df e start z esc raw (i + 1)) =
        ebValue sf df e (start + unzigzag (z 0)) (fun j => z (j + 1)) (fun j => esc (j + 1)) fun j => raw (j + 1) := by
      funext i
      rw [ebValue, ebValue, zigSum_succ, Int.add_assoc]
    have hzero : zigSum z 0 = unzigzag (z 0) := by simp [zigSum]
    have hrest := ih (start + unzigzag (z 0)) (fun j => z (j + 1)) (fun j => esc (j + 1)) (fun j => raw (j + 1)) fun i =>
      hraw (i + 1)
    rw [map_range_succ, map_range_succ, hshift, ebValues, hnext, filter_range_succ, List.flatMap_append, List.flatMap_map]
    cases h0 : esc 0 with
    | false =>
      simp only [Bool.false_eq_true, if_false, List.flatMap_nil, List.nil_append, hrest]
      rw [ebValue, h0, hzero]
      rfl
    | true =>
      have hval : leNat (leBytes size (raw 0)) = raw 0 := by
        have h := hraw 0 h0
        rw [pow_mul] at h
        rw [leNat_leBytes]
        exact Nat.mod_eq_of_lt h
      simp only [if_true, List.flatMap_cons, List.flatMap_nil, List.append_nil]
      rw [List.take_left' (length_leBytes ..), List.drop_left' (length_leBytes ..), hrest, hval, ebValue, h0]
      rfl

/-! ### Reading a block -/

section
variable {s : State} {k : Pkt}

/-- Fewer bytes at the same place. -/
theorem readable_take {f : Rec} {d : Int} {n m : Nat} {ks : List Nat} (h : readable k f d n ks s) (hm : m ≤ n) :
    readable k f d m (ks.take m) s := by
  obtain ⟨hpin, hcon⟩ := State.pktRead_ok.mp h
  refine State.pktRead_ok.mpr ⟨?_, fun a ha => hcon a (List.mem_of_mem_take ha)⟩
  have h2 := List.forall₂_take m (mapM_eq_ok_iff.mp hpin)
  rw [List.take_range, Nat.min_eq_left hm] at h2
  exact mapM_eq_ok_iff.mpr h2

theorem ebBytes_ok {src : Rec} {pos n : Nat} {ks : List Nat} (h : readable k src (pos : Int) n ks s) :
    s.ebBytes k src pos n = .ok (ks.map (memGet s.mem), ks) := by
  have h' : s.pktRead (s.pktPart k) k src.base ((offset src.base : Int) + pos) n = .ok ks := h
  rw [State.ebBytes, h']

variable {src : Rec} {size nb pos left : Nat} {z : Nat → Nat} {esc : Nat → Bool} {raw : Nat → Nat} {w : Nat} {e : Bool}
  {K : List Nat} (hl : EbLayout size nb z esc raw w e (K.map (memGet s.mem))) (hnb : nb ≤ 64) (hleft : K.length ≤ left)
include hl hnb hleft

theorem ebBlockBytes_ok (hK : readable k src (pos : Int) K.length K s) :
    s.ebBlockBytes k src size nb pos left = .ok (K.map (memGet s.mem), K) := by
  obtain ⟨hw, -, hhead, hmask, -, -, hlen⟩ := hl
  rw [List.length_map] at hlen
  have hread (m : Nat) (hm : m ≤ K.length) :
      s.ebBytes k src pos (min left m) = .ok ((K.map (memGet s.mem)).take m, K.take m) := by
    rw [Nat.min_eq_right (hm.trans hleft), ebBytes_ok (readable_take hK hm), List.map_take]
  have hhd : (((K.map (memGet s.mem)).take 1).getD 0 0).toNat = w + 64 * b2n e := by
    rw [← hhead, List.getD_eq_getElem?_getD, List.getD_eq_getElem?_getD, List.getElem?_take_of_lt (by decide)]
  have hb : b2n e ≤ 1 := by cases e <;> decide
  have hfield : field (w + 64 * b2n e) 6 1 = b2n e := by unfold field; omega
  have hmod : (w + 64 * b2n e) % 64 = w := by omega
  have hmask' : (if b2n e = 1 then leNat ((((K.map (memGet s.mem)).take (1 + 8 * b2n e)).drop 1).take 8) else 0) =
      bitMask nb esc := by
    rw [← hmask]
    split
    next he =>
      rw [he, List.drop_take, List.take_take]
      rfl
    next => rfl
  unfold State.ebBlockBytes
  rw [hread 1 (by omega)]
  dsimp only
  rw [hhd, hfield, hmod, hread _ (by omega)]
  dsimp only
  rw [hmask', sum_field_bitMask esc hnb, ← hlen, hread _ le_rfl, List.take_of_length_le (by rw [List.length_map]),
    List.take_length]

theorem ebCheck_ok {last : Bool} (hlast : last = true → K.length = left) :
    ebCheck size nb left last (K.map (memGet s.mem)) = some (K.length, w, bitMask nb esc) := by
  obtain ⟨hw, hz, hhead, hmask, hpacked, -, hlen⟩ := hl
  rw [List.length_map] at hlen
  have hb : b2n e ≤ 1 := by cases e <;> decide
  have hfield : field (w + 64 * b2n e) 6 1 = b2n e := by unfold field; omega
  have hmod : (w + 64 * b2n e) % 64 = w := by omega
  have hlt := packBits_lt w ((List.range nb).map z)
  rw [List.length_map, List.length_range, Nat.mul_comm] at hlt
  unfold ebCheck
  dsimp only
  rw [hhead, hfield, hmod, hmask, hpacked, sum_field_bitMask esc hnb, ← hlen,
    if_pos ⟨hw, by omega, hleft, hlast, bitMask_lt nb esc, hlt⟩]

end

/-! ### The blocks of a stream -/

/-- The blocks of a stream as the spec names them: where each begins, its keys, codes, escapes and raw codes. -/
structure EbBlocks where
  pos : Nat → Nat
  keys : Nat → List Nat
  z : Nat → Nat → Nat
  esc : Nat → Nat → Bool
  raw : Nat → Nat → Nat

/-- Block b of n values can be read and is sound. -/
structure EbBlocks.sound (x : EbBlocks) (k : Pkt) (src : Rec) (size n b : Nat) (s : State) : Prop where
  next : x.pos (b + 1) = x.pos b + (x.keys b).length
  read : readable k src (x.pos b : Int) (x.keys b).length (x.keys b) s
  raw : ∀ i, x.esc b i = true → x.raw b i < 2 ^ (8 * size)
  block : codedBlock size (min 64 (n - 64 * b)) (x.z b) (x.esc b) (x.raw b) false ((x.keys b).map (memGet s.mem))

/-- The code of value j. -/
def EbBlocks.code (x : EbBlocks) (sf df : Fmt) (e : Int) (j : Nat) : Nat :=
  ebValue sf df e 0 (x.z (j / 64)) (x.esc (j / 64)) (x.raw (j / 64)) (j % 64)

section
variable {s : State} {k : Pkt} {src : Rec} {size n len : Nat} {x : EbBlocks}
  (hsound : ∀ b, b < (n + 63) / 64 → x.sound k src size n b s) (hlen : x.pos ((n + 63) / 64) = len)
include hsound hlen

theorem EbBlocks.pos_le {b : Nat} (hb : b ≤ (n + 63) / 64) : x.pos b ≤ len := by
  obtain ⟨d, hd⟩ := Nat.exists_eq_add_of_le hb
  induction d generalizing b with
  | zero => rw [← hlen, hd, Nat.add_zero]
  | succ d ih =>
    have hnext := (hsound b (by omega)).next
    have hle := ih (b := b + 1) (by omega) (by omega)
    omega

/-- The values of a stream from one of its blocks on. -/
theorem ebBlocks_ok (sf df : Fmt) (e : Int) {fuel b : Nat} (hb : b ≤ (n + 63) / 64) (hfuel : n - 64 * b ≤ 64 * fuel) :
    ∃ ks, s.ebBlocks k src sf df size e len fuel (n - 64 * b) (x.pos b) b =
      ((List.range (n - 64 * b)).map fun i => x.code sf df e (64 * b + i), ks, .done) := by
  induction fuel generalizing b with
  | zero =>
    have hzero : n - 64 * b = 0 := by omega
    have hlast : x.pos b = len := by rw [← hlen]; congr 1; omega
    exact ⟨[], by rw [State.ebBlocks, hlast, if_pos rfl, hzero]; rfl⟩
  | succ fuel ih =>
    rw [State.ebBlocks]
    split
    next hzero =>
      have hlast : x.pos b = len := by rw [← hlen]; congr 1; omega
      exact ⟨[], by rw [hlast, if_pos rfl, hzero]; rfl⟩
    next hmore =>
      have hlt : b < (n + 63) / 64 := by omega
      obtain ⟨hnext, hread, hraw, hblock⟩ := hsound b hlt
      obtain ⟨w, ex, hl⟩ := ebLayout_of_codedBlock hblock
      have hple := EbBlocks.pos_le hsound hlen (b := b + 1) hlt
      have hmin : min (n - 64 * b) 64 = min 64 (n - 64 * b) := Nat.min_comm ..
      have hnb : min 64 (n - 64 * b) ≤ 64 := Nat.min_le_left ..
      have hleft : (x.keys b).length ≤ len - x.pos b := by omega
      have hlast : decide (n - 64 * b ≤ 64) = true → (x.keys b).length = len - x.pos b := by
        intro h
        have hend : x.pos (b + 1) = len := by
          rw [← hlen]
          congr 1
          have := of_decide_eq_true h
          omega
        omega
      obtain ⟨ks, hrest⟩ := ih (b := b + 1) hlt (by omega)
      have hsub : n - 64 * b - min 64 (n - 64 * b) = n - 64 * (b + 1) := by omega
      have hzs : ((List.range (min 64 (n - 64 * b))).map fun i =>
          (field (packBits w ((List.range (min 64 (n - 64 * b))).map (x.z b))) (w * i) w,
            field (bitMask (min 64 (n - 64 * b)) (x.esc b)) i 1 == 1)) =
          (List.range (min 64 (n - 64 * b))).map fun i => (x.z b i, x.esc b i) := by
        refine List.map_congr_left fun i hi => ?_
        have hi' := List.mem_range.mp hi
        have hilen : i < ((List.range (min 64 (n - 64 * b))).map (x.z b)).length := by simpa using hi'
        rw [field_packBits, List.getD_eq_getElem _ _ hilen, List.getElem_map, List.getElem_range, Nat.mod_eq_of_lt (hl.codes i hi'),
          field_bitMask _ hi']
        cases x.esc b i <;> rfl
      have hvals := ebValues_eq (sf := sf) (df := df) (e := e) (min 64 (n - 64 * b)) 0 (x.z b) (x.esc b) (x.raw b) hraw
      have hhead := hl.head
      have hb2 : b2n ex ≤ 1 := by cases ex <;> decide
      have hw := hl.width
      have hfield : field (w + 64 * b2n ex) 6 1 = b2n ex := by unfold field; omega
      refine ⟨x.keys b ++ ks, ?_⟩
      simp only [hmin, ebBlockBytes_ok hl hnb hleft hread, ebCheck_ok hl hnb hleft hlast]
      rw [hhead, hfield, hl.packed, hl.rest, hzs, hsub, ← hnext, hrest]
      have hsplit : n - 64 * b = min 64 (n - 64 * b) + (n - 64 * (b + 1)) := by omega
      have hfirst : ((List.range (min 64 (n - 64 * b))).map (ebValue sf df e 0 (x.z b) (x.esc b) (x.raw b))) =
          (List.range (min 64 (n - 64 * b))).map fun i => x.code sf df e (64 * b + i) := by
        refine List.map_congr_left fun i hi => ?_
        have hi' : i < 64 := (List.mem_range.mp hi).trans_le hnb
        rw [EbBlocks.code, Nat.mul_add_div (by decide), Nat.div_eq_of_lt hi', Nat.mul_add_mod, Nat.mod_eq_of_lt hi', Nat.add_zero]
      have hzero : wrap32 0 = 0 := rfl
      rw [hzero, hfirst] at hvals
      have htail : ((List.range (n - 64 * (b + 1))).map fun i => x.code sf df e (64 * b + (min 64 (n - 64 * b) + i))) =
          (List.range (n - 64 * (b + 1))).map fun i => x.code sf df e (64 * (b + 1) + i) := by
        refine List.map_congr_left fun i hi => ?_
        have hfull : min 64 (n - 64 * b) = 64 := by
          have := List.mem_range.mp hi
          omega
        rw [hfull, Nat.mul_succ, Nat.add_assoc]
      conv_rhs => rw [hsplit, List.range_add, List.map_append, List.map_map]
      dsimp only
      rw [hvals, ← htail]
      rfl

end

/-! ### The header -/

/-- A field of a header. -/
def ebField (h : List Byte) (o n : Nat) : Nat := leNat ((h.drop o).take n)

/-- The checks of R300 on a header. -/
def ebGood (cap count : Nat) (h : List Byte) : Prop :=
  let e := (BitVec.ofNat 16 (ebField h 4 2)).toInt
  ebField h 0 2 = 0x4542 ∧ ebField h 2 1 = 1 ∧
    (ebField h 3 1 = 0x11 ∧ -150 ≤ e ∧ e ≤ 100 ∨ ebField h 3 1 = 0x10 ∧ -1075 ≤ e ∧ e ≤ 970) ∧ ebField h 6 2 = 0 ∧
    ebField h 12 4 ≤ cap ∧ ebField h 8 4 ≤ count

theorem ebParse_good {cap count : Nat} {h : List Byte} (hg : ebGood cap count h) :
    ebParse cap count h = some (ebField h 3 1, (BitVec.ofNat 16 (ebField h 4 2)).toInt, ebField h 8 4, ebField h 12 4) := by
  simp only [ebGood, ebField] at hg
  obtain ⟨hmagic, hver, hfmt, hzero, hcap, hcount⟩ := hg
  unfold ebParse
  simp only [sextNat_eq_toInt (n := 16) (by decide)]
  rw [if_pos]
  · rfl
  refine ⟨hmagic, hver, ?_, ?_, hzero, hcap, hcount⟩
  · exact hfmt.elim (fun h => .inr h.1) fun h => .inl h.1
  · rcases hfmt with ⟨hf, hlo, hhi⟩ | ⟨hf, hlo, hhi⟩
    · rw [if_pos hf, decide_eq_true hlo, decide_eq_true hhi]
      rfl
    · rw [if_neg (by rw [hf]; decide), decide_eq_true hlo, decide_eq_true hhi]
      rfl

theorem ebParse_bad {cap count : Nat} {h : List Byte} (hg : ¬ebGood cap count h) : ebParse cap count h = none := by
  simp only [ebGood, ebField] at hg
  unfold ebParse
  simp only [sextNat_eq_toInt (n := 16) (by decide)]
  rw [if_neg]
  rintro ⟨hmagic, hver, hfmt, hrange, hzero, hcap, hcount⟩
  refine hg ⟨hmagic, hver, ?_, hzero, hcap, hcount⟩
  split at hrange
  next hf =>
    simp only [Bool.and_eq_true, decide_eq_true_eq] at hrange
    exact .inl ⟨hf, hrange⟩
  next hf =>
    simp only [Bool.and_eq_true, decide_eq_true_eq] at hrange
    exact .inr ⟨hfmt.resolve_right hf, hrange⟩

/-! ### The run -/

section
variable {s : State} {k : Pkt} {h : List Nat} (hh : readable k (k.op 0) 0 (min 16 (k.op 0).spanSize) h s)
include hh

theorem ebx_head : s.ebBytes k (k.op 0) 0 (min 16 (k.op 0).spanSize) = .ok (h.map (memGet s.mem), h) := ebBytes_ok hh

theorem ebxPlan_corrupt
    (hbad : ¬(16 ≤ (k.op 0).spanSize ∧ ebGood (k.op 0).spanSize (k.op 1).count (h.map (memGet s.mem)))) :
    s.ebxPlan k = ([{ size := 0, wrs := .ok [], val := .ok [], reads := h }], (cEB_CORRUPT, 0)) := by
  have hlen : (h.map (memGet s.mem)).length = min 16 (k.op 0).spanSize := by rw [List.length_map, State.length_pktRead hh]
  have hnone : (if (h.map (memGet s.mem)).length < 16 then none else
      ebParse (k.op 0).spanSize (k.op 1).count (h.map (memGet s.mem))) = none := by
    split
    next => rfl
    next hl => exact ebParse_bad fun hg => hbad ⟨by omega, hg⟩
  unfold State.ebxPlan
  dsimp only
  rw [ebx_head hh]
  dsimp only
  rw [hnone]

theorem ebx_corrupt {q : PktId} (hmay : s.runnable q tEBX = some k) (hv : k.vals = [])
    (hbad : ¬(16 ≤ (k.op 0).spanSize ∧ ebGood (k.op 0).spanSize (k.op 1).count (h.map (memGet s.mem))))
    {W : Nat → Option (Spot × Nat)} {c : Nat → Nat} {read : List Nat} (hap : apart k 0 W read s) :
    outputs (.ebx q) k (cEB_CORRUPT, 0) 0 W c s := by
  have hi : exec (.ebx q) s =
      .next (s.carry k [{ size := 0, wrs := .ok [], val := .ok [], reads := h }] (cEB_CORRUPT, 0)) := by
    have hrun : exec (.ebx q) s = .next (s.carry k (s.ebxPlan k).1 (s.ebxPlan k).2) := congrArg _ (State.runPacket_eq hmay _)
    rw [hrun, ebxPlan_corrupt hh hbad]
  exact outputs_of_nil hi hv hap (List.forall_mem_singleton.mpr ⟨rfl, rfl⟩)

variable {fmt n len : Nat} {e : Int} (hgood : 16 ≤ (k.op 0).spanSize ∧
    ebGood (k.op 0).spanSize (k.op 1).count (h.map (memGet s.mem)))
  (hfmt : fmt = ebField (h.map (memGet s.mem)) 3 1) (he : e = (BitVec.ofNat 16 (ebField (h.map (memGet s.mem)) 4 2)).toInt)
  (hn : n = ebField (h.map (memGet s.mem)) 8 4) (hl : len = ebField (h.map (memGet s.mem)) 12 4)
include hgood hfmt he hn hl

/-- A sound stream, expanded. -/
theorem ebxPlan_good {x : EbBlocks} (h0 : x.pos 0 = 16) (hlast : x.pos ((n + 63) / 64) = len)
    (hsound : ∀ b, b < (n + 63) / 64 → x.sound k (k.op 0) (if fmt = 0x10 then 8 else 4) n b s) :
    ∃ rs, s.ebxPlan k = (({ size := 0, wrs := .ok [], val := .ok [], reads := rs } : OutEl) ::
      (List.range n).map fun j => { size := (k.op 1).bits
                                    wrs := s.elWrite k (k.op 1) (((j * (k.op 1).bytes : Nat) : Int), 0)
                                    val := .ok [x.code (if fmt = 0x10 then fp64 else fp32)
                                      (if (k.op 1).fmt = 0x10 then fp64 else fp32) e j] }, (cOK, 0)) := by
  have hlen : (h.map (memGet s.mem)).length = min 16 (k.op 0).spanSize := by rw [List.length_map, State.length_pktRead hh]
  have hsome : (if (h.map (memGet s.mem)).length < 16 then none else
      ebParse (k.op 0).spanSize (k.op 1).count (h.map (memGet s.mem))) = some (fmt, e, n, len) := by
    rw [if_neg (by omega), ebParse_good hgood.2, hfmt, he, hn, hl]
  obtain ⟨ks, hblocks⟩ := ebBlocks_ok hsound hlast (if fmt = 0x10 then fp64 else fp32)
    (if (k.op 1).fmt = 0x10 then fp64 else fp32) e (fuel := n / 64 + 1) (b := 0) (Nat.zero_le _) (by omega)
  rw [Nat.mul_zero, Nat.sub_zero, h0] at hblocks
  simp only [Nat.zero_add] at hblocks
  unfold State.ebxPlan
  dsimp only
  rw [ebx_head hh]
  dsimp only
  rw [hsome]
  dsimp only
  rw [hblocks]
  dsimp only
  rw [zipIdx_map_range, List.map_map]
  exact ⟨_, rfl⟩

theorem ebx_outputs {q : PktId} (hmay : s.runnable q tEBX = some k) (hv : k.vals = []) {x : EbBlocks} (h0 : x.pos 0 = 16)
    (hlast : x.pos ((n + 63) / 64) = len)
    (hsound : ∀ b, b < (n + 63) / 64 → x.sound k (k.op 0) (if fmt = 0x10 then 8 else 4) n b s) {W : Nat → Option (Spot × Nat)}
    (hW : ∀ j, j < n → ∃ ks, writable k (k.op 1) ((j * (k.op 1).bytes : Nat) : Int) (k.op 1).bytes ks s ∧
      W j = some ({ p := 0, keys := ks, half := 0 }, (k.op 1).bits)) {read : List Nat} (hap : apart k n W read s) :
    outputs (.ebx q) k (cOK, 0) n W (x.code (if fmt = 0x10 then fp64 else fp32)
      (if (k.op 1).fmt = 0x10 then fp64 else fp32) e) s := by
  obtain ⟨rs, hplan⟩ := ebxPlan_good hh hgood hfmt he hn hl h0 hlast hsound
  have hrun : exec (.ebx q) s = .next (s.carry k (s.ebxPlan k).1 (s.ebxPlan k).2) := congrArg _ (State.runPacket_eq hmay _)
  have hfin : (s.ebxPlan k).2 = (cOK, 0) := by rw [hplan]
  rw [hfin] at hrun
  have hgives : List.Forall₂ OutEl.gives ((List.range n).map fun j =>
      { size := (k.op 1).bits, wrs := s.elWrite k (k.op 1) (((j * (k.op 1).bytes : Nat) : Int), 0)
        val := .ok [x.code (if fmt = 0x10 then fp64 else fp32) (if (k.op 1).fmt = 0x10 then fp64 else fp32) e j] })
      (placedWrites n W (x.code (if fmt = 0x10 then fp64 else fp32) (if (k.op 1).fmt = 0x10 then fp64 else fp32) e)) := by
    refine gives_placed fun j hj => ?_
    obtain ⟨ks, hwr, hWj⟩ := hW j hj
    exact ⟨_, hWj, State.elWrite_ok hwr, rfl⟩
  refine outputs_of_writes hrun ebxPlan_sound (Pkt.unstopped_fresh hv ?_) hap ?_
  · rw [hplan]
    exact List.forall_mem_cons.mpr ⟨⟨[], rfl⟩, final_of_gives hgives⟩
  · rw [Pkt.writes_fresh hv, hplan, List.flatMap_cons, flatMap_writes_of_gives hgives]
    exact .refl _

end

end Sys2Proof.Machine
end

section
/-! O46: copy packets (09 R281-R306; 02 R50). -/

namespace Sys2Proof.Machine

open Sys2Proof.Safety Sys2Proof.Num

/-! ### CRED and CGATH with latched codes -/

section
variable {s : State} {k : Pkt} {codes : List (List Nat)} (hv : k.vals = codes.map some)
include hv

theorem isSome_of_latched : ∀ v ∈ k.vals, v.isSome = true := by
  rw [hv]
  exact List.forall_mem_map.mpr fun _ _ => rfl

theorem latched_codes {j : Nat} (hj : j < codes.length) : k.latched j = some (codes.getD j []) := by
  rw [Pkt.latched, hv, List.getElem?_map, List.getElem?_eq_getElem hj, List.getD_eq_getElem _ _ hj]
  rfl

theorem reform_latched (f : List Pkt → List (Except Fail (List Nat))) :
    (s.reform k f).zipIdx = (List.range codes.length).map fun j => (.ok [], j) := by
  rw [State.reform, if_pos (List.all_eq_true.mpr (isSome_of_latched hv)), hv]
  exact List.ext_getElem (by simp) fun i _ _ => by simp

theorem writes_latched (E : Nat → OutEl) :
    k.writes ((List.range codes.length).map E) =
      (List.range codes.length).flatMap fun j => (E j).writes (some (codes.getD j [])) := by
  rw [Pkt.writes, zipIdx_map_range, List.flatMap_map]
  exact List.flatMap_congr fun j hj => by rw [latched_codes hv (List.mem_range.mp hj)]

theorem unstopped_latched {E : Nat → OutEl} (h : ∀ j, j < codes.length → ∃ ws, (E j).wrs = .ok ws) :
    k.unstopped ((List.range codes.length).map E) := by
  intro e he
  rw [zipIdx_map_range] at he
  obtain ⟨j, hj, rfl⟩ := List.mem_map.mp he
  have hlt := List.mem_range.mp hj
  obtain ⟨ws, hws⟩ := h j hlt
  rw [latched_codes hv hlt, OutEl.final, hws]
  exact ⟨_, rfl⟩

end

/-- What an element writes whose codes were latched. -/
theorem writes_of_latched {e : OutEl} {ws : List (Spot × Nat)} (h : e.wrs = .ok ws) (cs : List Nat) :
    e.writes (some cs) = ws.zip cs := by
  rw [OutEl.writes, OutEl.final, h]

section
variable {s : State} {k : Pkt} {codes : List (List Nat)} (hv : k.vals = codes.map some) {q : PktId} {W : Nat → Option (Spot × Nat)}

/-- Element j of a record stands, to be written, at the place y. -/
def standsAt (k : Pkt) (f : Rec) (j : Nat) (y : Option (Spot × Nat)) (s : State) : Prop :=
  ∃ ks, writable k f (f.nth j).1 f.bytes ks s ∧ y = some ({ p := 0, keys := ks, half := (f.nth j).2 }, f.bits)

theorem elWrite_of_standsAt {f : Rec} {j : Nat} {y : Option (Spot × Nat)} (h : standsAt k f j y s) :
    ∃ x, y = some x ∧ s.elWrite k f (f.nth j) = .ok [(placed x 0).1] := by
  obtain ⟨ks, hwr, rfl⟩ := h
  exact ⟨_, rfl, State.elWrite_ok hwr⟩

/-- The code of output j: of the destination, and then of the residual. -/
def latchedCode (codes : List (List Nat)) (j : Nat) : Nat := (codes.getD (j % codes.length) []).getD (j / codes.length) 0

theorem latchedCode_dst {codes : List (List Nat)} {j : Nat} (hj : j < codes.length) :
    latchedCode codes j = (codes.getD j []).getD 0 0 := by
  rw [latchedCode, Nat.mod_eq_of_lt hj, Nat.div_eq_of_lt hj]

theorem latchedCode_res {codes : List (List Nat)} {j : Nat} (hj : j < codes.length) :
    latchedCode codes (codes.length + j) = (codes.getD j []).getD 1 0 := by
  rw [latchedCode, Nat.add_mod_left, Nat.mod_eq_of_lt hj, Nat.add_div_left _ (by omega), Nat.div_eq_of_lt hj]

/-- The writes at places that are all there, one by one. -/
theorem placedWrites_flatMap {n : Nat} {c : Nat → Nat} {F : Nat → List PktWrite}
    (h : ∀ j, j < n → ∃ y, W j = some y ∧ F j = [placed y (c j)]) : placedWrites n W c = (List.range n).flatMap F := by
  rw [placedWrites, List.filterMap_eq_flatMap_toList]
  refine List.flatMap_congr fun j hj => ?_
  obtain ⟨y, hy, hF⟩ := h j (List.mem_range.mp hj)
  rw [hy, hF]
  rfl

/-- Element j of a CRED. -/
def State.credEl (s : State) (k : Pkt) (j : Nat) : OutEl :=
  { size := (k.op 1).bits
    wrs := if k.c.resv then
        match s.elWrite k (k.op 1) ((k.op 1).nth j), s.elWrite k (k.op 2) ((k.op 2).nth j) with
        | .ok a, .ok b => .ok (a ++ b)
        | .error f, _ => .error f
        | _, .error f => .error f
      else s.elWrite k (k.op 1) ((k.op 1).nth j)
    val := .ok []
    reads := match s.credInput k j with
      | .ok v => v.2
      | .error _ => [] }

include hv

theorem credPlan_eq : s.credPlan k = (List.range codes.length).map (s.credEl k) := by
  have hplan : s.credPlan k = (s.reform k (s.credCodes k)).zipIdx.map fun x => { s.credEl k x.2 with val := x.1 } := rfl
  rw [hplan, reform_latched hv, List.map_map]
  rfl

theorem cred_outputs (hmay : s.runnable q tCRED = some k)
    (hW : ∀ j, j < codes.length → standsAt k (k.op 1) j (W j) s ∧
      (k.c.resv = true → standsAt k (k.op 2) j (W (codes.length + j)) s))
    (hcodes : ∀ x ∈ codes, x.length = if k.c.resv then 2 else 1) {n : Nat}
    (hn : n = if k.c.resv then 2 * codes.length else codes.length) {read : List Nat} (hap : apart k n W read s) :
    outputs (.cred q) k (cOK, 0) n W (latchedCode codes) s := by
  refine outputs_of_writes (exec_cred hmay (isSome_of_latched hv)) credPlan_sound ?_ hap ?_
  all_goals rw [credPlan_eq hv]
  · refine unstopped_latched hv fun j hj => ?_
    obtain ⟨hdst, hres⟩ := hW j hj
    obtain ⟨x, -, hx⟩ := elWrite_of_standsAt hdst
    rw [State.credEl, hx]
    split
    next h =>
      obtain ⟨y, -, hy⟩ := elWrite_of_standsAt (hres h)
      rw [hy]
      exact ⟨_, rfl⟩
    next => exact ⟨_, rfl⟩
  · rw [writes_latched hv]
    have hlen {j : Nat} (hj : j < codes.length) : (codes.getD j []).length = if k.c.resv then 2 else 1 := by
      rw [List.getD_eq_getElem _ _ hj]
      exact hcodes _ (List.getElem_mem hj)
    cases hr : k.c.resv with
    | false =>
      simp only [hr, Bool.false_eq_true, if_false] at hn hlen
      subst hn
      rw [placedWrites_flatMap (F := fun j => (s.credEl k j).writes (some (codes.getD j []))) fun j hj => ?_]
      obtain ⟨x, hWx, hx⟩ := elWrite_of_standsAt (hW j hj).1
      obtain ⟨a, ha⟩ := List.length_eq_one_iff.mp (hlen hj)
      refine ⟨x, hWx, ?_⟩
      rw [writes_of_latched (ws := [(placed x 0).1]) (by rw [State.credEl, hr, hx]; rfl), latchedCode_dst hj, ha]
      rfl
    | true =>
      simp only [hr, if_true] at hn hlen
      have hpart (j : Nat) (hj : j < codes.length) : ∃ x y, W j = some x ∧ W (codes.length + j) = some y ∧
          (s.credEl k j).writes (some (codes.getD j [])) =
            [placed x (latchedCode codes j)] ++ [placed y (latchedCode codes (codes.length + j))] := by
        obtain ⟨x, hWx, hx⟩ := elWrite_of_standsAt (hW j hj).1
        obtain ⟨y, hWy, hy⟩ := elWrite_of_standsAt ((hW j hj).2 hr)
        obtain ⟨a, b, hab⟩ := List.length_eq_two.mp (hlen hj)
        refine ⟨x, y, hWx, hWy, ?_⟩
        rw [writes_of_latched (ws := [(placed x 0).1] ++ [(placed y 0).1]) (by rw [State.credEl, hr, hx, hy]; rfl),
          latchedCode_dst hj, latchedCode_res hj, hab]
        rfl
      have hfirst : placedWrites codes.length W (latchedCode codes) = (List.range codes.length).flatMap fun j =>
          ((s.credEl k j).writes (some (codes.getD j []))).take 1 := placedWrites_flatMap fun j hj => by
        obtain ⟨x, y, hx, -, h⟩ := hpart j hj
        exact ⟨x, hx, by rw [h]; rfl⟩
      have hsecond : placedWrites codes.length (fun j => W (codes.length + j)) (fun j => latchedCode codes (codes.length + j)) =
          (List.range codes.length).flatMap fun j => ((s.credEl k j).writes (some (codes.getD j []))).drop 1 :=
        placedWrites_flatMap fun j hj => by
          obtain ⟨x, y, -, hy, h⟩ := hpart j hj
          exact ⟨y, hy, by rw [h]; rfl⟩
      have hsplit : placedWrites n W (latchedCode codes) = placedWrites codes.length W (latchedCode codes) ++
          placedWrites codes.length (fun j => W (codes.length + j)) fun j => latchedCode codes (codes.length + j) := by
        rw [hn, Nat.two_mul, placedWrites, List.range_add, List.filterMap_append, List.filterMap_map]
        rfl
      have hperm := List.flatMap_append_perm (List.range codes.length)
        (fun j => ((s.credEl k j).writes (some (codes.getD j []))).take 1)
        fun j => ((s.credEl k j).writes (some (codes.getD j []))).drop 1
      simp only [List.take_append_drop] at hperm
      rw [hsplit, hfirst, hsecond]
      exact hperm.symm

theorem cgath_outputs {into : Nat → Nat} (hmay : s.runnable q tCGATH = some k) (hcodes : ∀ x ∈ codes, x.length = 1)
    (hw : ∀ j, j < codes.length → writable k (k.op 1) ((k.op 1).spanLow + (j : Int)) 1 [into j] s) {read : List Nat}
    (hap : apart k codes.length (byteSpot into) read s) :
    outputs (.cgath q) k (cOK, 0) codes.length (byteSpot into) (fun j => (codes.getD j []).getD 0 0) s := by
  have hplan : s.gathPlan k = (List.range codes.length).map fun j : Nat => s.byteOut k (k.op 1).base
      ((offset (k.op 1).base : Int) + (k.op 1).spanLow + j) (.ok []) (s.gathReads k j) := by
    rw [State.gathPlan, reform_latched hv, List.map_map]
    rfl
  have hwrs (j : Nat) (hj : j < codes.length) : (s.byteOut k (k.op 1).base
      ((offset (k.op 1).base : Int) + (k.op 1).spanLow + j) (.ok []) (s.gathReads k j)).wrs = .ok [(byteWrite (into j) 0).1] := by
    have hpin : s.pinKeys (s.pktPart k) k.pins (k.op 1).base ((offset (k.op 1).base : Int) + (k.op 1).spanLow + j) 1 =
        .ok [into j] := by
      rw [Int.add_assoc]
      exact hw j hj
    rw [State.byteOut, hpin]
    rfl
  refine outputs_of_writes (exec_cgath hmay (isSome_of_latched hv)) gathPlan_sound ?_ hap ?_
  all_goals rw [hplan]
  · exact unstopped_latched hv fun j hj => ⟨_, hwrs j hj⟩
  · rw [writes_latched hv, placedWrites_flatMap (F := fun j =>
      (s.byteOut k (k.op 1).base ((offset (k.op 1).base : Int) + (k.op 1).spanLow + j) (.ok [])
        (s.gathReads k j)).writes (some (codes.getD j []))) fun j hj => ?_]
    obtain ⟨a, ha⟩ := List.length_eq_one_iff.mp (hcodes _ (List.getElem_mem hj))
    refine ⟨_, rfl, ?_⟩
    rw [writes_of_latched (hwrs j hj), List.getD_eq_getElem _ _ hj, ha]
    rfl

end

end Sys2Proof.Machine
end

section
/-! O46: the grid packets as the statement writes them, and the whole (09 R281-R306; 02 R50). -/

namespace Sys2Proof.Machine

open Sys2Proof.Safety Sys2Proof.Num

theorem State.type_of_runnable {s : State} {q : PktId} {ty : Nat} {k : Pkt} (h : s.runnable q ty = some k) : k.c.type = ty := by
  unfold State.runnable at h
  cases hf : s.findPkt q with
  | none => rw [hf] at h; cases h
  | some j =>
    rw [hf] at h
    obtain ⟨hc, hj⟩ := Option.ite_none_right_eq_some.mp h
    exact Option.some.inj hj ▸ hc.1

/-! ### Grid packets -/

/-- The source index from which the offsets of an output count, in one dimension. -/
def gridUp (c : Packet) (d : Nat) (x : Int) : Int :=
  if c.coarsen d = true ∧ c.type = tGRIDR then 2 * x else if c.coarsen d = true ∧ c.type = tGRIDP then x / 2 else x

/-- What one dimension adds to the parity class of an output. -/
def gridOdd (c : Packet) (d : Nat) (x : Int) : Nat := if c.coarsen d = true ∧ x % 2 = 1 then 2 ^ d else 0

theorem gridBase_eq (c : Packet) (x : Int × Int × Int) :
    gridBase c x = ((gridUp c 0 x.1, gridUp c 1 x.2.1, gridUp c 2 x.2.2),
      gridOdd c 0 x.1 + gridOdd c 1 x.2.1 + gridOdd c 2 x.2.2) := by
  have hup (d : Nat) (i : Int) : (if !c.coarsen d then i else if c.type = tGRIDR then 2 * i else
      if c.type = tGRIDP then i / 2 else i) = gridUp c d i := by
    unfold gridUp
    cases c.coarsen d <;> simp
  simp only [← hup]
  rfl

/-- The entry of a weight table at a byte offset: weight and offsets. -/
def gridEntry (t : List Byte) (o : Nat) : Val × Int × Int × Int :=
  let e := leNat ((t.drop o).take 8)
  (ofCode fp32 (e % 2 ^ 32), (BitVec.ofNat 8 (e / 2 ^ 32)).toInt, (BitVec.ofNat 8 (e / 2 ^ 40)).toInt,
    (BitVec.ofNat 8 (e / 2 ^ 48)).toInt)

theorem stencilAt_pair (t : List Byte) (o : Nat) : ((stencilAt t o).w, (stencilAt t o).d) = gridEntry t o := by
  rw [stencilAt_eq]
  rfl

/-- The weights of an output of parity class p, with their offsets. -/
def Pkt.gridPairs (k : Pkt) (p : Nat) : List (Val × Int × Int × Int) :=
  let head := leNat (k.data.take 8)
  if k.c.type = tGRIDC then [(Val.fin false 1 0 false, (0 : Int), (0 : Int), (0 : Int))]
  else if k.c.type = tGRIDP then (List.range (head / 2 ^ (16 + 4 * p) % 16)).map fun t => gridEntry k.data (8 + 64 * p + 8 * t)
  else (List.range (head / 2 ^ 8 % 2 ^ 8)).map fun t => gridEntry k.data (8 + 8 * t)

theorem gridTerms_pairs (k : Pkt) (p : Nat) : (k.gridTerms p).map (fun e => (e.w, e.d)) = k.gridPairs p := by
  unfold Pkt.gridTerms Pkt.gridPairs stencils
  by_cases hc : k.c.type = tGRIDC
  · rw [if_pos (beq_iff_eq.mpr hc), if_pos hc]
    rfl
  · rw [if_neg (by rwa [beq_iff_eq]), if_neg hc]
    split
    all_goals
      rw [List.map_map]
      exact List.map_congr_left fun t _ => stencilAt_pair ..

/-- The value of an output, as a sum of weighted values at the indices of the source. -/
theorem gridValue_eq (k : Pkt) (V A : Int × Int × Int → Val) (x : Int × Int × Int) :
    k.gridValue V A x = (k.gridPairs (gridOdd k.c 0 x.1 + gridOdd k.c 1 x.2.1 + gridOdd k.c 2 x.2.2)).foldl
      (fun acc e => gridStep acc e.1 (gridAt k.c (k.op 0) V
        (gridUp k.c 0 x.1 + e.2.1, gridUp k.c 1 x.2.1 + e.2.2.1, gridUp k.c 2 x.2.2 + e.2.2.2)))
      (if k.c.type = tGRIDP ∧ k.c.gadd = true then A x else .zero false) := by
  rw [← gridTerms_pairs, List.foldl_map, Pkt.gridValue, Pkt.gridFold, gridBase_eq]

theorem gridAt_eq (c : Packet) (src : Rec) (V : Int × Int × Int → Val) (x y z : Int) :
    gridAt c src V (x, y, z) =
      match gridIndex (src.ext 0) (gridHaloS c 0) (c.bnd 0) x, gridIndex (src.ext 1) (gridHaloS c 1) (c.bnd 1) y,
        gridIndex (src.ext 2) (gridHaloS c 2) (c.bnd 2) z with
      | some a, some b, some d => V (a, b, d)
      | _, _, _ => .zero false := by
  have hsrc : gridSource c src (gridHaloS c) (x, y, z) =
      match gridIndex (src.ext 0) (gridHaloS c 0) (c.bnd 0) x, gridIndex (src.ext 1) (gridHaloS c 1) (c.bnd 1) y,
        gridIndex (src.ext 2) (gridHaloS c 2) (c.bnd 2) z with
      | some a, some b, some d => some (a, b, d)
      | _, _, _ => none := rfl
  rw [gridAt, hsrc]
  cases gridIndex (src.ext 0) (gridHaloS c 0) (c.bnd 0) x with
  | none => rfl
  | some a =>
    cases gridIndex (src.ext 1) (gridHaloS c 1) (c.bnd 1) y with
    | none => rfl
    | some b => cases gridIndex (src.ext 2) (gridHaloS c 2) (c.bnd 2) z <;> rfl

/-- Which grid packet runs, and its halos. -/
theorem grid_cases {s : State} {q : PktId} {k : Pkt} {i : Instr} {hs hd : Nat → Nat}
    (h : (s.runnable q tGRIDR = some k ∧ i = .gridr q ∧ hs = k.c.halo ∧ hd = fun _ => 0) ∨
      (s.runnable q tGRIDP = some k ∧ i = .gridp q ∧ hs = k.c.halo ∧ hd = fun _ => 0) ∨
      (s.runnable q tGRIDC = some k ∧ i = .gridc q ∧ hs = (fun _ => 0) ∧ hd = k.c.halo)) :
    exec i s = .next (s.carry k (s.gridPlan k) (cOK, 0)) ∧ hs = gridHaloS k.c ∧ hd = gridHaloD k.c := by
  unfold gridHaloS gridHaloD
  rcases h with ⟨hmay, rfl, rfl, rfl⟩ | ⟨hmay, rfl, rfl, rfl⟩ | ⟨hmay, rfl, rfl, rfl⟩
  · rw [State.type_of_runnable hmay]
    exact ⟨congrArg _ (State.runPacket_eq hmay _), rfl, rfl⟩
  · rw [State.type_of_runnable hmay]
    exact ⟨congrArg _ (State.runPacket_eq hmay _), rfl, rfl⟩
  · rw [State.type_of_runnable hmay]
    exact ⟨congrArg _ (State.runPacket_eq hmay _), rfl, rfl⟩

/-- The plans of the packet types are carried out. -/
theorem packets_carried (s : State) (q : PktId) (k : Pkt) :
    let may := fun ty => s.runnable q ty = some k
    let ok : Status := (cOK, 0)
    (may tCOPY → carries (.copy q) k (s.copyPlan k) ok s) ∧ (may tCOPY4D → carries (.copy4d q) k (s.copy4dPlan k) ok s) ∧
    (may tGATHER → carries (.gather q) k (s.gatherPlan k).1 (s.gatherPlan k).2 s) ∧
    (may tGRIDR → carries (.gridr q) k (s.gridPlan k) ok s) ∧ (may tGRIDP → carries (.gridp q) k (s.gridPlan k) ok s) ∧
    (may tGRIDC → carries (.gridc q) k (s.gridPlan k) ok s) ∧ (may tEBZ → carries (.ebz q) k (s.ebzPlan k).1 (s.ebzPlan k).2 s) ∧
    (may tEBX → carries (.ebx q) k (s.ebxPlan k).1 (s.ebxPlan k).2 s) ∧
    ((∀ v ∈ k.vals, v.isSome = true) →
      (may tCRED → carries (.cred q) k (s.credPlan k) ok s) ∧ (may tCGATH → carries (.cgath q) k (s.gathPlan k) ok s)) := by
  refine ⟨fun h => carries_of_sound (congrArg _ (State.runPacket_eq h _)) copyPlan_sound,
    fun h => carries_of_sound (congrArg _ (State.runPacket_eq h _)) copy4dPlan_sound,
    fun h => carries_of_sound (congrArg _ (State.runPacket_eq h _)) gatherPlan_sound,
    fun h => carries_of_sound (congrArg _ (State.runPacket_eq h _)) gridPlan_sound,
    fun h => carries_of_sound (congrArg _ (State.runPacket_eq h _)) gridPlan_sound,
    fun h => carries_of_sound (congrArg _ (State.runPacket_eq h _)) gridPlan_sound,
    fun h => carries_of_sound (congrArg _ (State.runPacket_eq h _)) ebzPlan_sound,
    fun h => carries_of_sound (congrArg _ (State.runPacket_eq h _)) ebxPlan_sound, fun hv => ⟨fun h => ?_, fun h => ?_⟩⟩
  · exact carries_of_sound (exec_cred h hv) credPlan_sound
  · exact carries_of_sound (exec_cgath h hv) gathPlan_sound

/-- Settles O46: each packet's plan is carried out (`packets_carried`), and what it writes are the codes of the spec at its places,
which lie apart (`outputs_of_writes`). -/
theorem copyPackets : Obligations.CopyPackets := by
  intro s q k may c src dst ok codeAt byteAt keysOf once
  obtain ⟨h1, h2, h3, h4, h5, h6, h7, h8, h9⟩ := packets_carried s q k
  refine ⟨h1, h2, h3, h4, h5, h6, h7, h8, h9, fun from' into => ⟨?_, ?_⟩, ?_, ?_, ?_, ?_, ?_, ?_, ?_⟩
  · exact fun hmay hr hw hap hv => copy_outputs hmay hv hr hw hap
  · exact fun hmay hw hap hv => fill_outputs hmay hv hw hap
  · intro hmay hv from' n cellsOf W hr hap
    exact bcast_outputs hmay hv rfl (bcastTargets_eq ..).symm hr hap
  · intro hmay hv R W at' ext n index hRW hap
    have hpairs : boxPairs k.c = (List.range n).map fun j => (index c.w2 j, index c.w3 j) := boxPairs_eq k.c
    have hout := copy4d_outputs hmay hv hpairs (fun j y hj hy a ha => mem_keysOf hj hy ha) hRW hap
    exact hout
  · intro hmay hv I R W rows n row at' _ hI
    refine ⟨fun hin hRW hap => ?_, fun hout hap => ?_⟩
    · exact gather_outputs hmay hv rfl (fun j y hj hy a ha => List.mem_append_right _ (mem_keysOf hj hy ha)) hI hin hRW hap
    · exact gather_outside hmay hv rfl hI hout hap
  · intro i hs hd hcase hv V A VK AK W ty value place ext n out use at' up odd entry head terms sum hV hsb hdb hext hty hout hap
    obtain ⟨hi, rfl, rfl⟩ := grid_cases hcase
    have hsum (x : Int × Int × Int) : sum x = k.gridValue V A x := by
      have hat (x y z : Int) : at' x y z = gridAt c src V (x, y, z) := (gridAt_eq c src V x y z).symm
      rw [gridValue_eq]
      simp only [sum, hat]
      rfl
    have hval (f : Rec) (ks : List Nat) : value f ks = fmtValue f.fmt (leNat (ks.map (memGet s.mem))) := (fmtValue_eq ..).symm
    simp only [hsum]
    refine grid_outputs (A := A) hi hv rfl hty (fun y hy => ?_) hext (fun j hj hp ha => ?_) (fun j hj => (hout j hj).2) hap
    · obtain ⟨hrd, hVy⟩ := hV y.1 y.2.1 y.2.2 hy.1 hy.2.1 hy.2.2
      have hVy' : V y = fmtValue src.fmt (leNat ((VK y).map (memGet s.mem))) := hVy.trans (hval ..)
      rw [hVy']
      exact ⟨_, gridRead_ok hsb hrd⟩
    · obtain ⟨hrd, hAy⟩ := (hout j hj).1 hp ha
      have hAy' : A (out j) = fmtValue dst.fmt (leNat ((AK (out j)).map (memGet s.mem))) := hAy.trans (hval ..)
      have hout' : gridIdx c dst j = out j := rfl
      rw [hout', hAy']
      exact ⟨_, gridRead_ok hdb hrd⟩
  · intro hmay hv R B into n fmt x quot zig stream hbits hb4 hR hlen hB
    obtain ⟨ks, hread⟩ := denseRead_ok hb4 hR
    have hquot (i : Nat) : quot i = ebQuot c.ebExp (ofCode fmt (x i)) := rfl
    have hz (b i : Nat) : zig b i = zigzag (s32 ((ebQuot c.ebExp (ofCode fmt (x (64 * b + i)))).getD 0 -
        if i = 0 then 0 else (ebQuot c.ebExp (ofCode fmt (x (64 * b + i - 1)))).getD 0)) := by
      simp only [zig, hquot, s32_eq]
      rfl
    have hblocks := blocks_eq (fmt := fmt) (size := src.bytes) (e := c.ebExp) (x := x) hlen hz hB
    have hstream : stream.length = 16 + B.flatten.length := by
      rw [List.length_append]
      exact congrArg (· + B.flatten.length) (length_ebHeader src.fmt c.ebExp n (16 + B.flatten.length))
    have hn : ((List.range n).map x).length = n := by rw [List.length_map, List.length_range]
    refine ⟨fun hfit hw hap _ => ?_, fun hover hw hap => ?_⟩
    · have hplan := ebzPlan_fits hread hblocks (hstream ▸ hfit)
      rw [hn] at hplan
      exact ebz_outputs hmay hv hplan hw hap
    · obtain ⟨det, hplan, hdet⟩ := ebzPlan_overruns hread hblocks (hstream ▸ hover)
      obtain ⟨t, bytes, hexec, hends, hmem⟩ := overrun_ends hmay hv hplan hw hap
      exact ⟨t, bytes, det, hexec, hends, hdet, hmem⟩
  · intro hmay hv h hh hd at' fmt e n good
    refine ⟨fun hbad hap => ebx_corrupt hh hmay hv hbad hap, ?_⟩
    intro hgood pos K z esc raw W size sf df back value h0 hlast hb hW hap
    have hcode : (fun j => (destF df .rne 0 0 0 (value (j / 64) (j % 64))).1) =
        EbBlocks.code ⟨pos, K, z, esc, raw⟩ sf df e := by
      funext j
      simp only [EbBlocks.code, ebValue, Int.zero_add]
      rfl
    rw [hcode]
    exact ebx_outputs hh hgood rfl rfl rfl rfl hmay hv (x := ⟨pos, K, z, esc, raw⟩) h0 hlast (fun b hlt => by
      obtain ⟨hnext, hrd, hraw, hblock⟩ := hb b hlt
      exact ⟨hnext, hrd, hraw, hblock⟩) hW hap
  · intro codes W hv m n elem
    refine ⟨fun hmay hW hcodes hap => cred_outputs hv hmay hW hcodes rfl hap, fun into hmay hcodes hw hap => ?_⟩
    exact cgath_outputs hv hmay hcodes hw hap

end Sys2Proof.Machine
end
